-- ==== Sys2Proof/Word.lean ====
section
/-!
DEFINITION. The word types of the model: what the manual treats as bits is a bit vector, everything else is a natural number or a named type.
-/
namespace Sys2Proof

/-- One byte. -/
abbrev Byte := BitVec 8

/-- A 32-bit word: a scalar register (R52), an FP32 value (R57). -/
abbrev Word := BitVec 32

/-- A 64-bit word: a register of BAR0 (R7). -/
abbrev DWord := BitVec 64

/-- A lineage label or an admit mask: bit n stands for party n (R277). -/
abbrev Label := BitVec 16

end Sys2Proof
end

