-- ==== Sys2Proof/Syntax.lean ====
section
/-!
DEFINITION. The commands of the block: one constructor of Instr for each row of spec/opcode_table.json, with the operands
the spec's text gives the row, and the types of those operands. The table gives no row any bits.
-/
namespace Sys2Proof

/-- The host functions that access BAR0 (R383): the physical function and the virtual functions 0 to 7. -/
inductive Fn where
  | pf
  | vf (v : Fin 8)
  deriving DecidableEq, Repr

/-- Who issues a management command: a host function or Porter (R226). -/
inductive Issuer where
  | host (f : Fn)
  | porter
  deriving DecidableEq, Repr

/-- The register blocks that hold BLK_CTRL and BLK_STATUS (R46, R417). -/
inductive Block where
  | tck | pwr | ump | sht | pci | trs | lbl | dbg | rly
  | fab (p : Fin 8)
  | cas (s : Fin 8)
  | seq (o : Fin 8)
  | rle (o : Fin 8)
  | clu (o : Fin 8) (c : Fin 9)
  deriving DecidableEq, Repr

/-- The two hardware streams of a core (R52). -/
inductive Strm where
  | F | B
  deriving DecidableEq, Repr

/-- What an access to HBM meets, as the stacks deliver it: physical facts that the device does not choose (R160, R189). A
data line is named by its physical line number, and so are a tag line, a counter line and the primary copy of a tree line. A
metadata event takes effect where the engine fetches that line (R187). `symbols` counts the erroneous 16-bit symbols of the
line as the outer code sees them. -/
inductive LineEvent where
  | clean
  | dataSymbols (line symbols : Nat)
  | dataAltered (line : Nat)
  | tagLineLost (line : Nat)
  | counterBad (line : Nat)
  | treeCopyLost (line : Nat)
  | treeCopyAltered (line : Nat)
  | treeBothBad (line : Nat)
  | rootBad
  | both (a b : LineEvent)
  deriving DecidableEq, Repr

/-- The single events of an event. -/
def LineEvent.parts : LineEvent → List LineEvent
  | .clean => []
  | .both a b => a.parts ++ b.parts
  | e => [e]

/-- A store that step 6 of a scrub finds different a second time: its octant, and its kind and index under R432 (R313). -/
structure StoreDiff where
  oct : Nat
  kind : Nat
  index : Nat
  deriving DecidableEq, Repr

/-- The end of an L2: the VF of its partition, and what step 6 of the reset scrub finds different (R313, R362). -/
structure L2End where
  vf : Fin 8
  diffs : List StoreDiff
  deriving DecidableEq, Repr

/-- One sealed block as the host delivers it for a Transom read: the ciphertext, its 32-byte record (R294), and whether the
completion was poisoned (R386). A block with no bytes is no answer. -/
structure HostBlock where
  cipher : List Byte
  record : List Byte
  poisoned : Bool
  deriving DecidableEq, Repr

/-- A frame that arrives at a fabric port: whether it is a PAUSE or PFC frame (R231); the IPv6 address and the UDP port to
which it is addressed, and whether its UDP checksum is right; the 48 bytes of its Rally header, and the bytes that follow the
header: the ciphertext and the 16-byte tag (R235, R236). `ev` is what the Rally engine's HBM accesses for it meet. -/
structure Frame where
  port : Fin 8
  pause : Bool
  addr : BitVec 128
  udp : Nat
  sumOk : Bool
  head : List Byte
  rest : List Byte
  ev : LineEvent
  deriving DecidableEq, Repr

/-- The packet type, and SUB, in a frame's header (R235). -/
def Frame.typ (f : Frame) : Nat := (f.head.getD 0 0).toNat % 16
def Frame.sub (f : Frame) : Nat := (f.head.getD 0x16 0).toNat

/-- A frame of no other row: a reserved type, a version or a field that no row fixes, or a CTRL or LEASE subtype that no row
names (R238). -/
def Frame.rowless (f : Frame) : Bool :=
  match f.typ with
  | 1 | 2 | 5 | 6 => false
  | 3 => f.sub == 0 || 7 < f.sub
  | 4 => !([2, 3, 6, 7, 9].contains f.sub)
  | _ => true

/-- What the device's sensors deliver in a tick, besides the temperatures: the estimator's sample in W, and for each rail
its number, measured power in W, current in 0.1 A and voltage in mV (R402). -/
structure TickEnv where
  estimateW : Nat
  rails : List (Nat × Nat × Nat × Nat)
  deriving DecidableEq, Repr

/-- A waiter on a Huddle object: an accepted command by its number, or a stream of a core (R221). -/
inductive Waiter where
  | cmd (id : Nat)
  | stream (o : Fin 8) (c : Fin 9) (k : Fin 64) (st : Strm)
  deriving DecidableEq, Repr

/-- What a session with a plane's switch shows once it is established: mutual authentication with Porter's alias chain, the digest of
the key in which the switch's chain roots, and the measurement digests that the switch reports (R343). -/
structure SwitchReport where
  mutualAuth : Bool
  root : BitVec 384
  measurements : List (BitVec 384)
  deriving DecidableEq, Repr

/-- The fields of PCIe configuration space whose writes R385 and R379 speak of. -/
inductive CfgField where
  | busMaster | memSpace | vfEnable | numVfs
  deriving DecidableEq, Repr

/-- JTAG instructions by what R415 and R346 distinguish. -/
inductive JtagOp where
  | idcode | bypass | lifecycle | boundaryScan | other
  deriving DecidableEq, Repr

/-- The result of a periodic check that the hardware makes of itself. -/
inductive CheckResult where
  | pass | fail
  deriving DecidableEq, Repr

/-- Who starts an L1 whose start no bound expiry brings about: a request of a function (UMP_RESET_REQ), or a fault of a
sequencer's firmware (R358). -/
inductive L1Cause where
  | request (f : Fn) | firmwareFault
  deriving DecidableEq, Repr

/-- The units that an L1 resets (R361, UMP_RESET_REQ.UNIT). -/
inductive UnitId where
  | cluster (o : Fin 8) (c : Fin 9)
  | relay (o : Fin 8) (e : Fin 2)
  | rally (p : Fin 8)
  | sequencer (o : Fin 8)
  | core (o : Fin 8) (c : Fin 9) (k : Fin 64)
  deriving DecidableEq, Repr

/-- The security faults, each of which starts lockdown (R358, R367). -/
inductive SecurityCause where
  | metadataFail (line requester : Nat)
  | thirdAlarm (line requester kind : Nat)
  | dieLink (link : Fin 3) (direction : Fin 2)
  | porterSelfTest
  | lifecycleFuses
  deriving DecidableEq, Repr

/-- The operand of a QUEUE_BIND (R227). -/
structure BindArgs where
  queue : Nat
  ctx : Nat
  loc : Nat
  n : Nat
  m : Nat
  inFlightMax : Nat
  cmdBase : Nat
  cplBase : Nat
  deriving DecidableEq, Repr

/-- The operand of an OBJ_CONFIG (R227); `obj` and the producer are coded as there. -/
structure ObjArgs where
  obj : Nat
  owner : Nat
  producerValid : Bool
  producerOctant : Nat
  producerQueue : Nat
  deadline : Nat
  value : Word
  deriving DecidableEq, Repr

/-- The operand of an IMAGE_REGISTER (R227). -/
structure ImageArgs where
  ctx : Nat
  slot : Nat
  mask : Nat
  offset : Nat
  length : Nat
  deriving DecidableEq, Repr

/-- A TRS_CONFIG request: a slot's START, END and EN, or the five words' writable part of a window (R300, R301). -/
inductive TrsArgs where
  | slot (v : Fin 8) (start fin : Nat) (en : Bool)
  | window (v : Fin 8) (w : Fin 16) (dataBase recordBase size : Nat) (ring hostWritten : Bool) (party : Nat)
      (partyValid : Bool) (admitMask : Label) (session : Nat) (en : Bool)
  deriving DecidableEq, Repr

/-- A management command of the sequencer (R227), as Porter's SEQ_MGMT request and SEQ_MGMT_GO carry it. -/
inductive MgmtCmd where
  | ctxCreate (ctx : Nat) (seed : DWord) (nfObj : Nat)
  | ctxStart (ctx : Nat)
  | ctxStop (ctx : Nat) (preempt : Nat)
  | ctxDestroy (ctx : Nat)
  | queueBind (a : BindArgs)
  | queueUnbind (queue : Nat)
  | regionSet (ctx index : Nat) (word0 word1 : DWord)
  | regionClear (ctx index : Nat)
  | objConfig (a : ObjArgs)
  | objFree (obj : Nat)
  | imageRegister (a : ImageArgs)
  | imageRelease (ctx slot : Nat)
  deriving DecidableEq, Repr

/-- The commands. Each constructor's name is its row's mnemonic of spec/opcode_table.json in camel case. Offsets of REGISTER_READ and
REGISTER_WRITE are those of BAR0; from 2^26 on they are those of BAR2, counted from there (R21, R383). -/
inductive Instr where
  -- bring-up and the host link (00, 13, 15, 16)
  | powerOnBoot (selfTest : CheckResult)
  | stackReady (s : Fin 8)
  | stackTrainingFail (s : Fin 8)
  | octantReady (o : Fin 8)
  | portReady (p : Fin 8)
  | portCalibrationFail (p : Fin 8)
  | trialConfirm
  | pwrgdFall
  | perstAssert (selfTest : CheckResult)
  | hostDlDown
  | vfFlr (v : Fin 8)
  | pfFlr
  | pcieLinkRetrain (speed width : Nat)
  | completionTimeout (o : Fin 8) (e : Fin 2) (seq : Word)
  | msixPendingSend (fn : Fn) (vector : Nat)
  | pcieRefclkLoss (ns : Nat)
  | fabRefclkLoss (input : Fin 2) (ns : Nat)
  | sysclkLoss (ns : Nat)
  | sysclkRestore (stableNs : Nat)
  -- the tick and configuration timing (02)
  | tickBoundary (env : TickEnv)
  | applyCopy (b : Block)
  | planSwap (v : Fin 8) (ev : LineEvent)
  | versionFlip (v : Fin 8)
  | windowStart (o : Fin 8) (record : Nat) (ev : LineEvent)
  | windowEnd (cmd : Nat)
  | slipBoundExpiry (cmd : Nat)
  | blockEnable (fn : Fn) (b : Block)
  | blockDisable (fn : Fn) (b : Block)
  | blockDisableComplete (b : Block)
  | applyRequest (fn : Fn) (b : Block)
  | applyWithdraw (fn : Fn) (b : Block)
  | registerWrite (fn : Fn) (offset size : Nat) (value : DWord)
  -- cores (03, 04, 05, 06)
  | bundleIssue (o : Fin 8) (c : Fin 9) (k : Fin 64) (clk : Nat)
  | loadReturn (o : Fin 8) (c : Fin 9) (k : Fin 64) (st : Strm) (index clk : Nat)
  | fenceComplete (o : Fin 8) (c : Fin 9) (k : Fin 64) (st : Strm)
  | streamEnd (o : Fin 8) (c : Fin 9) (k : Fin 64) (st : Strm)
  | xsyncComplete (o : Fin 8) (c : Fin 9) (k : Fin 64)
  | cbarComplete (o : Fin 8) (c : Fin 9) (st : Strm)
  | mmaComplete (o : Fin 8) (c : Fin 9) (k : Fin 64)
  | vectorComplete (o : Fin 8) (c : Fin 9) (k : Fin 64)
  -- queues, Relay engines, Huddle objects (07, 09)
  | commandFetch (o : Fin 8) (q : Fin 32) (ev : LineEvent) (blk : HostBlock)
  | seqQDoorbell (fn : Fn) (o : Fin 8) (q : Fin 32) (producer : Nat)
  | seqQCdoorbell (fn : Fn) (o : Fin 8) (q : Fin 32) (consumer : Nat)
  | relayChunk (o : Fin 8) (e : Fin 2) (seq : Word) (ev : LineEvent)
  | relayResponse (o : Fin 8) (e : Fin 2) (seq : Word) (blk : HostBlock)
  | relayPark (o : Fin 8) (e : Fin 2) (seq : Word)
  | rleDeadlineExpiry (o : Fin 8) (e : Fin 2) (seq : Word)
  | relayComplete (o : Fin 8) (e : Fin 2) (seq : Word)
  | stowCompletionRelease (o : Fin 8) (e : Fin 2) (seq : Word)
  | commandComplete (cmd : Nat) (ev : LineEvent)
  | completionRecordWrite (cmd : Nat) (ev : LineEvent)
  | huddleSignalArrive (index : Nat) (ev : LineEvent)
  | waitDeadlineExpiry (w : Waiter)
  -- management commands (09)
  | ctxCreate (by_ : Issuer) (o : Fin 8) (ctx : Nat) (seed : DWord) (nfObj : Nat)
  | ctxStart (by_ : Issuer) (o : Fin 8) (ctx : Nat)
  | ctxStartEffect (o : Fin 8)
  | ctxStopDrain (by_ : Issuer) (o : Fin 8) (ctx : Nat)
  | ctxStopPreempt (by_ : Issuer) (o : Fin 8) (ctx : Nat)
  | preemptEffect (o : Fin 8) (ctx : Fin 16)
  | contextStopped (o : Fin 8) (ctx : Fin 16)
  | ctxDestroy (by_ : Issuer) (o : Fin 8) (ctx : Nat)
  | queueBind (by_ : Issuer) (o : Fin 8) (a : BindArgs)
  | queueUnbind (by_ : Issuer) (o : Fin 8) (queue : Nat)
  | regionSet (by_ : Issuer) (o : Fin 8) (ctx index : Nat) (word0 word1 : DWord)
  | regionClear (by_ : Issuer) (o : Fin 8) (ctx index : Nat)
  | regionEntryEffect (o : Fin 8)
  | regionCommandComplete (o : Fin 8)
  | objConfig (by_ : Issuer) (o : Fin 8) (a : ObjArgs)
  | objFree (by_ : Issuer) (o : Fin 8) (obj : Nat)
  | imageRegister (by_ : Issuer) (o : Fin 8) (a : ImageArgs)
  | imageRelease (by_ : Issuer) (o : Fin 8) (ctx slot : Nat)
  | imageReleaseComplete (o : Fin 8)
  -- Casement (07, 08)
  | hbmRead (requester pa : Nat) (ev : LineEvent)
  | hbmFullWrite (requester pa : Nat) (data : List Byte) (ev : LineEvent)
  | hbmPartialWrite (requester pa : Nat) (data : List Byte) (ev : LineEvent)
  | patrolRead (pa : Nat) (ev : LineEvent)
  | regionInit (s : Fin 8) (region : Nat)
  -- Rally (10)
  | fabHalfLinkDown (p : Fin 8) (half : Fin 2)
  | fabPortUp (p : Fin 8)
  | groupLoad (by_ : Issuer) (ev : LineEvent)
  | groupUnload (by_ : Issuer) (p : Fin 8) (group : Nat)
  | rallyStepRelease (cmd : Nat) (ev : LineEvent)
  | rallyStepRetire (cmd : Nat) (ev : LineEvent)
  | data (f : Frame)
  | ack (f : Frame)
  | arrive (f : Frame)
  | late (f : Frame)
  | abort (f : Frame)
  | lost (f : Frame)
  | heartbeat (f : Frame)
  | vote (f : Frame)
  | decide (f : Frame)
  | grant (f : Frame)
  | refuse (f : Frame)
  | expired (f : Frame)
  | peerDown (f : Frame)
  | missing (f : Frame)
  | result (f : Frame)
  | heartbeatTimer (p : Fin 8) (slot : Fin 8) (toCoordinator : Bool)
  | ackTimer (p : Fin 8) (slot : Fin 8) (member : Nat)
  | retransmitTimeout (p : Fin 8) (slot : Fin 8) (member : Nat) (psn : Nat)
  | neighbourSilence (p : Fin 8) (slot : Fin 8) (member : Nat)
  | rlyDeadlineExpiry (cmd : Nat)
  | abortWaitExpiry (cmd : Nat)
  | queryTimeout (cmd : Nat)
  | leaseRenewTimer (p : Fin 8) (slot : Fin 8)
  | leaseRequestRetry (p : Fin 8) (slot : Fin 8)
  -- charters, windows, pools (11)
  | charterLoad (seq : Word) (v : Fin 8) (bytes : List Byte) (final : Bool)
  | charterAppend (seq : Word) (bytes : List Byte) (final : Bool)
  | charterApprove (session : Nat) (digest : BitVec 384) (generation : Word)
  | charterWithdraw (session : Nat)
  | withdrawEffect (v : Fin 8)
  | jobKeyDeliver (session : Nat) (group : Nat) (key : List Byte)
  | windowEnable (by_ : Issuer) (v : Fin 8) (w : Fin 16)
  | windowDisableRequest (by_ : Issuer) (v : Fin 8) (w : Fin 16)
  | windowDisable (v : Fin 8) (w : Fin 16)
  | rearm (fn : Fn) (v : Fin 8) (w : Fin 16)
  | rearmEffect (v : Fin 8) (w : Fin 16)
  | poolConfigure (by_ : Issuer) (n : Fin 64)
  -- partitions, Shutter, Louvre (12)
  | partitionCreate (by_ : Issuer) (v : Fin 8) (octants kdBase kdCount : Nat) (zeroFill : Bool)
  | partitionCreateEffect (v : Fin 8)
  | partitionRelease (by_ : Issuer) (v : Fin 8)
  | partitionReleaseEffect (v : Fin 8)
  | releaseScrub (o : Fin 8) (differences : Nat) (storeKind storeIndex : Nat)
  | zeroFillComplete (o : Fin 8)
  | louvreUpdate
  | fineTimingWrite (by_ : Issuer) (on : Bool)
  -- power modes (01, 16)
  | powerMode (seq : Word) (target : Nat)
  | glbModeReq (fn : Fn) (target : Nat)
  | modeSwitchStart
  | modeSwitchComplete
  | modeSwitchRevert
  -- the Porter mailbox (13)
  | tickPeriod (seq : Word) (units : Nat)
  | fineTiming (seq : Word) (on : Bool)
  | partSet (seq : Word) (v : Fin 8) (image : DWord)
  | seqMgmt (seq : Word) (o : Fin 8) (c : MgmtCmd)
  | group (seq : Word) (load : Bool) (gbase : Nat) (p : Fin 8) (group : Nat) (ev : LineEvent)
  | trsConfig (seq : Word) (a : TrsArgs)
  | poolConfig (seq : Word) (n : Fin 64) (config : DWord)
  | updateBegin (seq : Word) (length : Nat)
  | updateWrite (seq : Word) (offset : Nat) (bytes : List Byte)
  | updateVerify (seq : Word)
  | updateActivate (seq : Word)
  | updateCancel (seq : Word)
  | slotPointerSwitchComplete
  | lcsAdvance (by_ : Issuer) (seq : Word) (target : Nat)
  | secretsErase (seq : Word)
  | opkeyFuse (seq : Word) (key : List Byte)
  | codeKeyRegister (seq : Word) (v : Fin 8) (index : Fin 4) (digest : BitVec 384)
  | imageSignedRegister (seq : Word) (o : Fin 8) (a : ImageArgs) (signatures : List (List Byte))
  | switchSpdm (seq : Word) (p : Fin 8) (message : List Byte) (report : Option SwitchReport)
  | switchSessionEnd (p : Fin 8)
  | jobKey (seq : Word) (group : Nat) (key : List Byte)
  -- SPDM (13)
  | getVersion (fn : Fn)
  | getCapabilities (fn : Fn)
  | negotiateAlgorithms (fn : Fn) (supported : Bool)
  | getDigests (fn : Fn)
  | getCertificate (fn : Fn) (slot offset length : Nat)
  | challenge (fn : Fn) (slot : Nat) (nonce : BitVec 256)
  | getMeasurements (fn : Fn) (nonce : BitVec 256)
  | keyExchange (fn : Fn) (leafKey : List Byte)
  | finish (session : Nat) (mutualOk : Bool)
  | keyUpdate (session : Nat)
  | spdmHeartbeat (session : Nat)
  | endSession (session : Nat)
  -- periodic checks, power telemetry (13, 16)
  | periodicSelfTest (r : CheckResult)
  | lifecycleFuseCheck
  | driftCheck (estimateW measuredW : Nat)
  | staticCalibration
  | porterWatchdogExpiry (selfTest : CheckResult)
  | umpireWalkMissed (selfTest : CheckResult)
  -- the ladder (14)
  | l0Kill (fn : Fn) (o : Fin 8) (ctx : Fin 16)
  | l1Reset (by_ : L1Cause) (u : UnitId)
  | l1Complete (u : UnitId)
  | l2Reset (fn : Fn) (v : Fin 8)
  | l3Reset (fn : Fn) (selfTest : CheckResult)
  | l4Cycle (fn : Fn)
  | l0BoundExpiry (o : Fin 8) (ctx : Fin 16)
  | l1BoundExpiry (u : UnitId) (selfTest : CheckResult)
  | l2BoundExpiry (v : Fin 8) (selfTest : CheckResult)
  | l3BoundExpiry
  | lockdown (cause : SecurityCause)
  | thermalSample (readings : List Int)
  -- crash dump (14)
  | dumpTrigger (fn : Fn) (octants : Nat)
  | dumpUnitTimeout (o : Fin 8) (kind index : Nat)
  | dumpComplete (o : Fin 8)
  | dumpTruncate
  | dumpExport (fn : Fn)
  | dumpDiscard (fn : Fn)
  | pciQvecWrite (fn : Fn) (o : Fin 8) (q : Fin 32) (vector : Nat) (en : Bool)
  -- SMBus, JTAG, debug (16, 17)
  | status (pecOk : Bool)
  | alertCause (pecOk : Bool)
  | alertCauseClear (pecOk : Bool) (bits : BitVec 16)
  | alertResponse
  | cycleCause (pecOk : Bool)
  | tripSensor (pecOk : Bool)
  | railPower (pecOk : Bool)
  | temps (pecOk : Bool)
  | devicePower (pecOk : Bool)
  | faultSelect (pecOk : Bool) (n : Nat)
  | faultRead (pecOk : Bool)
  | stageBegin (pecOk : Bool) (length : Nat)
  | stageWrite (pecOk : Bool) (offset : Nat) (bytes : List Byte)
  | stageVerify (pecOk : Bool)
  | stageActivate (pecOk : Bool)
  | stageCancel (pecOk : Bool)
  | stageResult (pecOk : Bool)
  | resetReq (pecOk : Bool) (value : Nat) (selfTest : CheckResult)
  | resetResult (pecOk : Bool)
  | jtagInstruction (op : JtagOp)
  | halt (fn : Fn) (on : Bool)
  | step (fn : Fn) (clk : Nat)
  | dbgStateAccess (fn : Fn) (offset : Nat) (write : Option DWord)
  | registerRead (fn : Fn) (offset size : Nat)
  | configSpaceWrite (fn : Fn) (field : CfgField) (value : Nat)
  | perstRelease
  | fabHalfLinkUp (p : Fin 8) (half : Fin 2)
  | badframe (f : Frame)
  | comparatorTrip (die : Fin 3)
  | doeDiscovery (fn : Fn)
  | l2Complete (e : L2End)
  | l3Complete
  | dumpExportComplete (o : Fin 8) (result : CheckResult)
  | calibrationComplete (measuredW dynamicW : Nat)
  deriving DecidableEq, Repr

end Sys2Proof
end

