-- ==== Sys2Proof/WellFormed.lean ====
section
/-!
DEFINITION. Which commands are well formed: operands within the widths and lengths that the spec gives them, so that a
command is one that an actor could send.
-/
namespace Sys2Proof

/-- A Transom block as delivered: 4,096 bytes of a DATA window or 128 of a RING window, with a 32-byte record (R292, R294). -/
def HostBlock.wf (b : HostBlock) : Bool :=
  (b.cipher.length == 4096 || b.cipher.length == 128 || b.cipher.length == 0) && b.record.length == 32

/-- A frame's header is 48 bytes long, and its port number one of 16 bits (R235). -/
def Frame.wf (f : Frame) : Bool := f.head.length == 48 && f.udp < 2 ^ 16

/-- Operands of a QUEUE_BIND within the widths of its payload fields (R227). -/
def BindArgs.wf (a : BindArgs) : Bool :=
  a.queue < 256 && a.ctx < 256 && a.loc < 256 && a.n < 256 && a.m < 256 && a.inFlightMax < 256 &&
  a.cmdBase < 2 ^ 64 && a.cplBase < 2 ^ 64

/-- Operands of an OBJ_CONFIG within the widths of its payload fields (R227). -/
def ObjArgs.wf (a : ObjArgs) : Bool :=
  a.obj < 2 ^ 16 && a.owner < 256 && a.producerOctant < 8 && a.producerQueue < 256 && a.deadline < 2 ^ 16

/-- Operands of an IMAGE_REGISTER within the widths of its payload fields (R227). -/
def ImageArgs.wf (a : ImageArgs) : Bool :=
  a.ctx < 256 && a.slot < 256 && a.mask < 2 ^ 16 && a.offset < 2 ^ 32 && a.length < 2 ^ 32

/-- Operands of a management command within the widths of its payload fields (R227). -/
def MgmtCmd.wf : MgmtCmd → Bool
  | .ctxCreate ctx _ nf => ctx < 256 && nf < 2 ^ 16
  | .ctxStart ctx => ctx < 256
  | .ctxStop ctx p => ctx < 256 && p < 256
  | .ctxDestroy ctx => ctx < 256
  | .queueBind a => a.wf
  | .queueUnbind q => q < 256
  | .regionSet ctx i _ _ => ctx < 256 && i < 2 ^ 16
  | .regionClear ctx i => ctx < 256 && i < 2 ^ 16
  | .objConfig a => a.wf
  | .objFree o => o < 2 ^ 16
  | .imageRegister a => a.wf
  | .imageRelease ctx s => ctx < 256 && s < 256

/-- A TRS_CONFIG request within the widths of its registers' fields (R301). -/
def TrsArgs.wf : TrsArgs → Bool
  | .slot _ s e _ => s < 2 ^ 17 && e < 2 ^ 17
  | .window _ _ db rb sz _ _ p _ _ ss _ =>
    db < 2 ^ 52 && rb < 2 ^ 58 && sz < 2 ^ 17 && p < 16 && ss < 256

/-- A frame of the type and, for CTRL and LEASE, the subtype of its row (R235, R262). -/
def Frame.typed (f : Frame) (t : Nat) (sub : Option Nat) : Bool :=
  f.wf && f.typ == t && (match sub with | none => true | some x => f.sub == x)

/-- The well-formed commands. -/
def Instr.wf : Instr → Bool
  | .pcieLinkRetrain s w => s ≤ 7 && (w == 4 || w == 8 || w == 16)
  | .registerWrite _ o sz v => o < 2 ^ 26 + 2 ^ 14 && sz ≤ 16 && v.toNat < 2 ^ (8 * sz)
  | .registerRead _ o sz => o < 2 ^ 26 + 2 ^ 14 && sz ≤ 16
  | .commandFetch _ _ _ b => b.wf
  | .relayResponse _ _ _ b => b.wf
  | .seqQDoorbell _ _ _ p => p < 2 ^ 16
  | .seqQCdoorbell _ _ _ p => p < 2 ^ 16
  | .hbmFullWrite _ pa bs _ => pa % 64 == 0 && bs.length == 64
  | .hbmPartialWrite _ pa bs _ => 0 < bs.length && pa % 64 + bs.length ≤ 64 && bs.length < 64
  | .charterLoad _ _ b _ => b.length ≤ 4079
  | .charterAppend _ b _ => b.length ≤ 4080
  | .jobKeyDeliver _ g k => g < 2 ^ 16 && k.length == 48
  | .jobKey _ g k => g < 2 ^ 16 && k.length == 48
  | .updateWrite _ _ b => b.length ≤ 4064
  | .opkeyFuse _ k => k.length == 96
  | .stageWrite _ _ b => 0 < b.length && b.length ≤ 240
  | .imageSignedRegister _ _ a sigs => a.wf && 0 < sigs.length && sigs.length ≤ 16 && sigs.all (·.length == 192)
  | .queueBind _ _ a => a.wf
  | .objConfig _ _ a => a.wf
  | .imageRegister _ _ a => a.wf
  | .seqMgmt _ _ c => c.wf
  | .trsConfig _ a => a.wf
  | .partitionCreate _ _ o b c _ => o < 256 && b < 256 && c < 128
  | .thermalSample r => r.length == 44
  | .data f => f.typed 1 none || f.typed 5 none
  | .ack f => f.typed 2 none
  | .arrive f => f.typed 3 (some 1)
  | .late f => f.typed 3 (some 2)
  | .abort f => f.typed 3 (some 3)
  | .lost f => f.typed 3 (some 4)
  | .heartbeat f => f.typed 3 (some 5)
  | .vote f => f.typed 3 (some 6)
  | .decide f => f.typed 3 (some 7)
  | .grant f => f.typed 4 (some 2)
  | .refuse f => f.typed 4 (some 3)
  | .expired f => f.typed 4 (some 6)
  | .peerDown f => f.typed 4 (some 7)
  | .missing f => f.typed 4 (some 9)
  | .result f => f.typed 6 none
  | .badframe f => f.wf
  | .dumpTrigger _ o => o < 256
  | .lockdown (.metadataFail l r) => l < 2 ^ 34 && r < 256
  | .lockdown (.thirdAlarm l r k) => l < 2 ^ 34 && r < 256 && k < 16
  | .keyExchange _ k => 0 < k.length
  | .faultSelect _ n => n < 256
  | .resetReq _ v _ => v < 256
  | .pciQvecWrite _ _ _ v _ => v < 256
  | .configSpaceWrite _ f v => match f with | .numVfs => v < 2 ^ 16 | _ => v < 2
  | .tickBoundary env => env.rails.all fun r => r.1 < 13
  | .poolConfig _ _ _ => true
  | _ => true

end Sys2Proof
end

