-- ==== Sys2Proof/Decode.lean ====
section
/-!
DEFINITION. The command that a word spells by the bits of spec/opcode_table.json. The table gives no row any bits (every
row's fields are empty), so no word spells a command.
-/
namespace Sys2Proof

/-- No row of the table gives bits, so no word spells a command (log 15). -/
def decodeTableWord (_nbits _w : Nat) : Option Instr := none

end Sys2Proof
end

