-- ==== Sys2Proof/Config.lean ====
section
/-!
DEFINITION. What the model leaves uninterpreted: the functions of published standards that the spec names without giving
their text, and the free values of what the spec leaves open. Each is opaque: no statement can rest on a value of one.
-/
namespace Sys2Proof.Config

/-- SHA-384 of a byte string (FIPS 180-4, cited by R271, R322, R333). PRESUMED uninterpreted (log 11). -/
opaque sha384 : List Byte → BitVec 384

/-- HMAC-SHA-384 under a key (R329). PRESUMED uninterpreted (log 11). -/
opaque hmac384 : BitVec 384 → List Byte → BitVec 384

/-- HKDF-Expand with SHA-384 from a PRK and an info string, 32 bytes (R293, R342). PRESUMED uninterpreted (log 11). -/
opaque hkdfExpand : List Byte → List Byte → BitVec 256

/-- The export master secret of the n-th SPDM session, which SPDM 1.3 derives from the key exchange (R293). PRESUMED
uninterpreted (log 11). -/
opaque exportSecret : Nat → List Byte

/-- ECDSA P-384 verification: public key (96 bytes), digest, signature (96 bytes) (R323, R344). PRESUMED uninterpreted
(log 11). -/
opaque ecdsaOk : List Byte → BitVec 384 → List Byte → Bool

/-- ECDSA P-384 signature by the key derived from a CDI over a digest (R329, R333). PRESUMED uninterpreted (log 11). -/
opaque ecdsaSign : BitVec 384 → BitVec 384 → List Byte

/-- The public key generated deterministically from a CDI (R329). PRESUMED uninterpreted (log 11). -/
opaque derivePub : BitVec 384 → List Byte

/-- AES-256 of one block (R180, R185). PRESUMED uninterpreted (log 11). -/
opaque aes256 : BitVec 256 → BitVec 128 → BitVec 128

/-- GHASH of NIST SP 800-38D under a hash key (R180, R185). PRESUMED uninterpreted (log 11). -/
opaque ghash : BitVec 128 → List (BitVec 128) → BitVec 128

/-- The n-th draw of Porter's random generator (R177). A free value (log 9). -/
opaque draw : Nat → BitVec 256

/-- The digest of the Vrelsil key held in ROM (R323). A constant of the part that the spec does not give. -/
opaque vrelsilDigest : BitVec 384

/-- The SHA-384 of the ROM (R333). A constant of the part that the spec does not give. -/
opaque romDigest : BitVec 384

/-- The DeviceID certificate that Porter makes of the key derived from a CDI_0 when the identity block is ignored (R330). A
free value (log 11). -/
opaque deviceCert : BitVec 384 → List Byte

/-- The signed part of the alias certificate: the alias public key and the measured digests in its TcbInfo extension (R330).
PRESUMED uninterpreted (log 11). -/
opaque aliasTbs : List Byte → List (BitVec 384) → List Byte

/-- A certificate of a signed part and its signature (X.509, cited by R330). PRESUMED uninterpreted (log 11). -/
opaque x509 : List Byte → List Byte → List Byte

/-- The public key that the last certificate of a chain certifies (X.509, cited by R330). PRESUMED uninterpreted (log 11). -/
opaque certKey : List Byte → List Byte

/-- The key of the user-record area, derived from the UDS in a way that the spec does not give (R325). PRESUMED uninterpreted
(log 11). -/
opaque userKey : BitVec 384 → BitVec 256

/-- The free bytes of an SPDM response whose content the spec leaves to SPDM 1.3, by message code and a counter. -/
opaque spdmBytes : Nat → Nat → List Byte

/-- The board's strapping of SMB_ADDR (R412). A constant of the tray that the spec does not give. -/
opaque smbAddr : BitVec 2

/-- A byte whose value the spec leaves undefined, by an epoch and an address (R151). A free value (log 10). -/
opaque freeByte : Nat → Nat → Byte

/-- SEQ in the completion record of a RELAY command that ended before it became ACTIVE and so took no sequence number
(R167, R168), by the command's number. A free value (log 59). -/
opaque noSeq : Nat → BitVec 32

/-- Whether a part of a charter carries the flag of the final part, whose place the spec does not give (R341). PRESUMED
uninterpreted (log 43). -/
opaque finalPart : List Byte → Bool

/-- A 2-byte, 4-byte or larger number whose value the spec leaves open, by the counter of free values. -/
opaque freeNat : Nat → Nat

/-- The core's choice, within the bounds that R113 gives, of EXP2 of an FP32 value. A free value (log 12). -/
opaque exp2 : Word → Word

/-- The core's choice, within the bounds that R113 gives, of LOG2. A free value (log 12). -/
opaque log2 : Word → Word

/-- The core's choice, within the bounds that R113 gives, of RCP. A free value (log 12). -/
opaque rcp : Word → Word

/-- The core's choice, within the bounds that R113 gives, of RSQRT. A free value (log 12). -/
opaque rsqrt : Word → Word

/-- The order in which the clocks of a group of 8 + h arithmetic clocks are taken for issue under hold step h, by the group and
the clock's place in it: the first 8 issue (R50). Which they are is left open. A free value (log 13). -/
opaque holdRank : Nat → Nat → Nat → Nat

/-- How long after an exact time the next arithmetic clock of the block concerned comes, before it is cut to one clock (R428).
A free value (log 85). -/
opaque clockLag : Nat → Nat

/-- The element model that a STOW.PACK uses for a page, which no descriptor field selects (R134). A free value (log 14). -/
opaque stowModel : List Byte → Nat

end Sys2Proof.Config
end

