-- ==== Sys2Proof/Machine/State.lean ====
section
/-!
DEFINITION. The state of the device as plain data: every register, store, queue, counter, mode and pin that the spec
gives it, the model's own few fields (each marked MODEL), the queue of waiting commands, and the state at reset. Each
field's docstring gives its width, the rule of spec/ that names it and its value at reset.
-/
namespace Sys2Proof.Machine

/-- Why the machine stops. -/
inductive Fault where
  /-- Raised by HBM_READ, HBM_FULL_WRITE, HBM_PARTIAL_WRITE and PATROL_READ on an address at which R154 and R179 say that
  no memory exists or that no requester reaches. Safe: the model stops where the hardware has no such access. -/
  | absentAddress (pa : Nat)
  deriving DecidableEq, Repr

/-- Why a command has no meaning. -/
inductive Refusal where
  /-- Raised by an arm of exec whose command has no meaning yet. Safe: nothing is claimed of it. -/
  | notModelled (mnemonic : String)
  deriving DecidableEq, Repr

/-- A sparse table: keys strictly rising, no entry equal to what an unlisted key reads as. -/
abbrev Tbl (α : Type) := List (Nat × α)

/-- A byte memory in canonical form: addresses strictly rising, no entry of value zero. -/
abbrev Memory := List Host.Cell

/-- The reason codes of R426. -/
inductive Reason where
  | ok | fieldRange | fieldConflict | lockedWhileEnabled | notReady | engineAbsent | notOwner | labelDenied
  | thresholdUnmet | lifecycleDenied | secretsPresent | busyUpdate | tickOverrun | waitTimeout | deadlock | memberLate
  | memberLost | leaseRefused | integrityFail | metadataFail | illegalSlot | inconsistentBundle | nonfinite
  | capacityDrop | staleData | hungUnit | modeMismatch | unsignedCode | leaseExpired | waitDeadline
  | charterMismatch | portDown | scrubPending | hostStall | poisoned
  deriving DecidableEq, Repr

/-- Power modes (R22, R399). -/
inductive PowerMode where
  | open | draft | steady
  deriving DecidableEq, Repr

/-- What the device as a whole is doing (R374, R380, R410): unpowered, in service, in recovery (R327), stopped in
SCRAPPED (R348), in L3, halted in lockdown or after a trip, or waiting for its power to be removed (L4). -/
inductive Phase where
  | unpowered | running | recovery | scrapped | l3 | lockdown | tripped | l4
  deriving DecidableEq, Repr

/-- The one-time programmable fuses. -/
structure Fuses where
  /-- Die stepping. 4 bits. R417 GLB_ID (17). Reset: fused; DESIGN CHOICE 1 (log 3). -/
  stepping : Nat
  /-- Ordering code. 16 bits. R1, GLB_ID.ORDER (17). Reset: fused; DESIGN CHOICE 1, TY2-72L (log 3). -/
  order : Nat
  /-- Grade: true for -64. 1 bit. R2, GLB_ID.GRADE (17). Reset: fused; DESIGN CHOICE false (log 3). -/
  grade64 : Bool
  /-- Lid: true for the air heat spreader. 1 bit. R3, GLB_ID.LID (17). Reset: fused; DESIGN CHOICE false (log 3). -/
  airLid : Bool
  /-- The three copies of the lifecycle fuse counter. 8 bits each. R345 (13). Reset: fused; DESIGN CHOICE 0 (log 3). -/
  lcs0 : Byte
  /-- Copy 1 of the lifecycle counter. 8 bits. R345 (13). Reset: fused; DESIGN CHOICE 0 (log 3). -/
  lcs1 : Byte
  /-- Copy 2 of the lifecycle counter. 8 bits. R345 (13). Reset: fused; DESIGN CHOICE 0 (log 3). -/
  lcs2 : Byte
  /-- The device's fused secret. 384 bits. R329 (13). Reset: fused; DESIGN CHOICE 0 (log 3). -/
  uds : BitVec 384
  /-- The operator key digest, when fused. 384 bits. R323, R350 (13). Reset: fused; DESIGN CHOICE none (log 3). -/
  opKey : Option (BitVec 384)
  /-- Blown SVN fuses. 0 to 32. R323, R339 (13). Reset: fused; DESIGN CHOICE 0 (log 3). -/
  svn : Nat
  deriving DecidableEq, Repr

/-- One copy of the flash pointer block (R321). -/
structure PtrCopy where
  seq : Nat
  active : Bool
  trial : Bool
  previous : Bool
  deriving DecidableEq, Repr

/-- The attached flash (R320). It is a part beside the package, kept through a power cycle. -/
structure Flash where
  /-- The bytes at their offsets: pointer blocks, identity block, user-record area, slots A and B. 64 MiB. R320 (13). Reset: none
  given; DESIGN CHOICE zeros (log 3). -/
  mem : Memory
  /-- A boot has run the slot that the pointer names on trial; a pointer write clears it (MODEL, log 27). R339 (13). Reset
  false. -/
  trialBegun : Bool
  deriving DecidableEq, Repr

/-- A fault record (R354). A byte field that does not apply is none and reads 0xFF. -/
structure FaultRec where
  seq : Nat
  reason : Reason
  source : Nat
  action : Nat
  security : Bool
  escalated : Bool
  subsumed : Bool
  tick : Nat
  vf : Option Nat
  octant : Option Nat
  context : Option Nat
  queue : Option Nat
  cluster : Option Nat
  core : Option Nat
  streamSlot : Option Nat
  engine : Option Nat
  pc : Nat
  tag : Nat
  ringSlot : Nat
  offsetNs : Nat
  detail : List Byte
  deriving DecidableEq, Repr

/-- A record ring (R356): the records written, as (index, record), and UMP_RING's fields. -/
structure Ring where
  /-- The records in the ring by slot. R356 (14). Reset empty. -/
  recs : List (Nat × FaultRec)
  /-- UMP_RING.PRODUCER. 16 bits. R356 (14). Reset 0. -/
  producer : Nat
  /-- UMP_RING.CONSUMER. 16 bits. R356 (14). Reset 0. -/
  consumer : Nat
  /-- UMP_RING.LOST, saturating. 32 bits. R356 (14). Reset 0. -/
  lost : Nat
  deriving DecidableEq, Repr

/-- A crash dump held in the dump area (R370 to R373), as the granules' sections in order. -/
structure DumpSec where
  kind : Nat
  hung : Bool
  octant : Nat
  cluster : Nat
  index : Nat
  /-- Granules, and the labels of those that are not empty. -/
  granules : Nat
  labels : Tbl Label
  /-- LENGTH, and the contents that are not zero; `free` names contents whose layout the spec does not give (log 28). -/
  length : Nat
  cells : Memory
  free : Option Nat
  lastStatus : Nat
  deriving DecidableEq, Repr

/-- The sealed dump of the device and the header's fields (R373). -/
structure Dump where
  /-- TRIGGER of the header: 0 host, 1 L2, 2 L3. R373 (14). Reset 0. -/
  trigger : Nat
  /-- FLAGS[0] LABELLED. R373 (14). Reset false. -/
  labelled : Bool
  /-- TICK of the header. R373 (14). Reset 0. -/
  tick : Nat
  /-- FAULT_SEQ of the header. R373 (14). Reset 0. -/
  faultSeq : Nat
  /-- GENERATION of the header. R373 (14). Reset 0. -/
  generation : Nat
  /-- OCTANTS of the header: the scope. 8 bits. R373 (14). Reset 0. -/
  octants : BitVec 8
  /-- The sections taken so far. R373 (14). Reset empty. -/
  secs : List DumpSec
  /-- Octants whose dump still runs. 8 bits. R371 (14). Reset 0. -/
  running : BitVec 8
  deriving DecidableEq, Repr

/-- Retention SRAM (R394): kept through L3, lost at a power cycle (R368). -/
structure Retention where
  /-- CDI_0, closed after boot step 4. 384 bits. R329, R363 (13, 14). Reset 0 (lost at L4). -/
  cdi0 : BitVec 384
  /-- GENERATION. 32 bits. R334 (13). Reset 0 (power-on boot sets it to 1). -/
  generation : Word
  /-- Times of counted security alarms, newest first. R190 (08). Reset empty. -/
  alarms : List Nat
  /-- Charter hash kept per key domain in use under an ACTIVE charter. R364 (14). Reset empty. -/
  domHash : Tbl (Option (BitVec 384))
  /-- The draw number of each key domain's keys; 0 is none. R177 (08). Reset empty. -/
  domKey : Tbl Nat
  /-- The draw number of each stack's tree keys; 0 is none. R177 (08). Reset empty. -/
  treeKey : Tbl Nat
  /-- Slots 0 and 1 of each stack's tree root, by 2 × stack + slot; one that is not listed is that of the tree that power-on
  builds. 32 bytes per stack. R184, R186 (08). Reset: the tree of power-on. -/
  root : Tbl (Option (BitVec 32))
  /-- Draws of Porter's random generator so far (MODEL: names the keys drawn). R177 (08). Reset 0 (log 9). -/
  rng : Nat
  /-- The PF record ring. R356 (14). Reset empty. -/
  pfRing : Ring
  /-- Number of the next fault record. 32 bits. R354 (14). Reset 0. -/
  recSeq : Nat
  /-- The dump key's draw number. R373 (14). Reset 0. -/
  dumpKey : Nat
  /-- Number of the last dump under that key, so that no nonce comes twice. 32 bits. R373 (14). Reset 0. -/
  dumpCount : Nat
  deriving DecidableEq, Repr

/-- An entry of an MSI-X table, as PCIe lays it out: message address and data, and the vector's mask (PRESUMED, log 53). -/
structure MsixEnt where
  addr : DWord
  data : Word
  masked : Bool
  deriving DecidableEq, Repr

/-- The drop log of one function (GLB_STATUS and GLB_DROP). -/
structure FnLog where
  /-- GLB_STATUS.REASON. 8 bits. R424 (17). Reset OK. -/
  reason : Reason
  /-- GLB_STATUS.FIELD_ID. 16 bits. R424 (17). Reset 0. -/
  fieldId : Nat
  /-- GLB_DROP.OFFSET. 26 bits. R424 (17). Reset 0. -/
  offset : Nat
  /-- GLB_DROP.WRITE. 1 bit. R424 (17). Reset 0. -/
  write : Bool
  /-- GLB_DROP.COUNT, saturating. 32 bits. R424 (17). Reset 0. -/
  count : Nat
  deriving DecidableEq, Repr

/-- The package: phase, pins, clocks, readiness, link, functions and interrupts (15, 16, 17). -/
structure Pkg where
  /-- What the device is doing. R374, R380 (15). Reset unpowered. -/
  phase : Phase
  /-- PWRGD input. 1 bit. R410 (16). Reset low. -/
  pwrgd : Bool
  /-- PERST_N asserted. 1 bit. R374 (15). Reset: none given; DESIGN CHOICE asserted (log 4). -/
  perst : Bool
  /-- PWRGD_OUT. 1 bit. R410 (16). Reset low (R393). -/
  pwrgdOut : Bool
  /-- HALT_N asserted. 1 bit. R410 (16). Reset released. -/
  halt : Bool
  /-- THERMTRIP_N asserted. 1 bit. R410 (16). Reset released. -/
  thermtrip : Bool
  /-- CYCLE_REQ_N asserted. 1 bit. R410 (16). Reset released. -/
  cycleReq : Bool
  /-- SYSCLK_25M present. 1 bit. R409 (16). Reset: none given; DESIGN CHOICE present (log 4). -/
  sysclk : Bool
  /-- SYSCLK_25M has been stable for 1 ms, so the generator returns at the next boundary. R409 (16). Reset false. -/
  sysclkBack : Bool
  /-- GLB_READY.CONFIG. 1 bit. R375 (15). Reset 0. -/
  config : Bool
  /-- GLB_READY.MAILBOX. 1 bit. R375 (15). Reset 0. -/
  mailbox : Bool
  /-- GLB_READY.STACK. 8 bits. R375 (15). Reset 0. -/
  stackReady : BitVec 8
  /-- GLB_READY.OCTANT. 8 bits. R375 (15). Reset 0. -/
  octReady : BitVec 8
  /-- GLB_READY.PORT. 8 bits. R375 (15). Reset 0. -/
  portReady : BitVec 8
  /-- GLB_READY.WARM_RESETS. 8 bits. R378 (15). Reset 0. -/
  warmResets : Nat
  /-- GLB_READY.STACK_FAILED. 8 bits. R376 (15). Reset 0. -/
  stackFailed : BitVec 8
  /-- GLB_READY.OCTANT_FAILED. 8 bits. R376 (15). Reset 0. -/
  octFailed : BitVec 8
  /-- GLB_READY.PORT_FAILED. 8 bits. R376 (15). Reset 0. -/
  portFailed : BitVec 8
  /-- Training failures of each stack since the last reset. R376 (15). Reset empty. -/
  trainFails : Tbl Nat
  /-- PCI_LINK.SPEED. 3 bits. R382 (15). Reset 0. -/
  speed : Nat
  /-- PCI_LINK.WIDTH. 5 bits. R382 (15). Reset 0. -/
  width : Nat
  /-- PCI_LINK.DL_UP. 1 bit. R379 (15). Reset 0. -/
  dlUp : Bool
  /-- PCI_LINK.RETRAINS. 16 bits. R382 (15). Reset 0. -/
  retrains : Nat
  /-- The link has been up since power-on, so that the next training is a retraining. R378, R382 (15). Reset false. -/
  linkTrained : Bool
  /-- Bus Master Enable of each function. R385 (15). Reset 0 (PCIe; PRESUMED, log 5). -/
  busMaster : Tbl Bool
  /-- Memory Space Enable of each function. R385 (15). Reset 0 (PCIe; PRESUMED, log 5). -/
  memSpace : Tbl Bool
  /-- VF Enable. 1 bit. R379 (15). Reset 0 (PCIe; PRESUMED, log 5). -/
  vfEnable : Bool
  /-- NumVFs. 16 bits. R379 (15). Reset 0 (PCIe; PRESUMED, log 5). -/
  numVfs : Nat
  /-- The drop log of each function. R424 (17). Reset empty. -/
  fnLog : Tbl FnLog
  /-- The R8 latch of each function and register, keyed 2^26 × function + offset. 32 bits. R8, R420 (00, 17). Reset none. -/
  latch : Tbl (Option Word)
  /-- Vectors that have sent their message in this tick, as (function, vector). R389 (15). Reset empty. -/
  msixSent : List (Nat × Nat)
  /-- Vectors held pending, as (function, vector). R389 (15). Reset empty. -/
  msixPend : List (Nat × Nat)
  /-- The MSI-X tables of BAR2, by function × 256 + vector. R21, R383 (01, 15). Reset: none given; PRESUMED PCIe's, every vector
  masked (log 53). -/
  msixTab : Tbl MsixEnt
  /-- PCI_QVEC entries by 32o + q: VECTOR and EN. 9 bits. R388 (15). Reset 0. -/
  qvec : Tbl (Nat × Bool)
  deriving DecidableEq, Repr

/-- A register whose live copy changes only through APPLY (R45). -/
structure Rwt where
  /-- The value the block acts on and reads return. R45 (02). -/
  live : Nat
  /-- The value writes go to while the block is enabled. R45 (02). -/
  shadow : Nat
  deriving DecidableEq, Repr

/-- BLK_CTRL and BLK_STATUS of a block (R46, R422), kept by the PF BAR0 offset of the block. -/
structure BlkCtl where
  /-- ENABLE. 1 bit. R48 (02). Reset 0. -/
  enable : Bool
  /-- A write of 0 to ENABLE waits for the last item in flight. R48 (02). Reset false. -/
  stopping : Bool
  /-- APPLY pending. 1 bit. R47 (02). Reset 0. -/
  apply : Bool
  /-- STATUS.REASON. 8 bits. R422 (17). Reset OK. -/
  reason : Reason
  /-- STATUS.FIELD_ID. 16 bits. R423 (17). Reset 0. -/
  fieldId : Nat
  deriving DecidableEq, Repr

/-- The tick generator (02). -/
structure Tck where
  /-- TCK_COUNT. 64 bits. R29 (02). Reset 0. -/
  count : Nat
  /-- TCK_PERIOD.UNITS. 7 bits. R27 (02). Reset: Sill, 4 by default (R324). -/
  units : Rwt
  /-- Hold step h. 4 bits. R49 (02). Reset 0. -/
  hold : Nat
  /-- TCK_HOLD.HELD_LAST. 1 bit. R50 (02). Reset 0. -/
  heldLast : Bool
  /-- TCK_HOLD.HELD_COUNT. 16 bits. R50 (02). Reset 0. -/
  heldCount : Nat
  /-- Hottest junction sampled in this tick, in quarter degrees. R49 (02). Reset none. -/
  hottest : Option Int
  /-- Exact time since power-on in units of 1/10296 ns (MODEL, log 6). R428 (00). Reset 0. -/
  now : Nat
  /-- The value of now at this tick's boundary (MODEL, log 6). R354 (14). Reset 0. -/
  start : Nat
  deriving DecidableEq, Repr

/-- Power, telemetry and the Louvre (01, 12, 16). -/
structure Pwr where
  /-- GLB_MODE.MODE: the mode whose clock runs. 2 bits. R431 (01). Reset: Sill, Steady by default (R324). -/
  mode : PowerMode
  /-- The live power mode. R431 (01). Reset: as mode. -/
  live : PowerMode
  /-- The accepted target, until the boundary. R23 (01). Reset none. -/
  accepted : Option PowerMode
  /-- GLB_MODE.SWITCHING. 1 bit. R24 (01). Reset 0. -/
  switching : Bool
  /-- A mode change whose ramps have started. R400 (16). Reset false. -/
  ramping : Bool
  /-- A revert waits for the next boundary to withdraw plans. R431 (01). Reset false. -/
  reverted : Bool
  /-- GLB_MODE.REQ_REASON. 8 bits. R421 (17). Reset OK. -/
  reqReason : Reason
  /-- VREF_PA and VREF_PB in mV. R396 (16). Reset 640. -/
  vref : Nat
  /-- PWR_STATUS.DRIFT. 1 bit. R404 (16). Reset 0. -/
  drift : Bool
  /-- PWR_STATUS.REFLOST. 1 bit. R409 (16). Reset 0. -/
  refLost : Bool
  /-- PWR_STATUS.RAIL_FAULT. 1 bit. R401 (16). Reset 0. -/
  railFault : Bool
  /-- PWR_RAIL by rail: power in W, current in 0.1 A, voltage in mV. R402 (16). Reset 0. -/
  rails : Tbl (Nat × Nat × Nat)
  /-- PWR_SENSOR by sensor: TEMP in quarter degrees; none before the first sample. 12 bits. R405 (16). Reset invalid. -/
  sensors : Tbl (Option Int)
  /-- PWR_SENSOR.HOTTEST: the sensor that set the hottest junction of the last tick. R405 (16). Reset none. -/
  hotSensor : Option Nat
  /-- The sensor that set the hottest junction so far in this tick. R405 (16). Reset none. -/
  hotNow : Option Nat
  /-- PWR_EST.STATIC in W. 16 bits. R403 (16). Reset 0. -/
  static : Nat
  /-- PWR_EST.DIFF in W. 16 bits signed. R404 (16). Reset 0. -/
  diff : Int
  /-- PWR_EST.COUNT. 2 bits. R404 (16). Reset 0. -/
  driftCount : Nat
  /-- PWR_EST.CAL_TICK. 30 bits. R403 (16). Reset 0. -/
  calTick : Nat
  /-- A calibration runs. R403 (16). Reset false. -/
  calibrating : Bool
  /-- Latest 1 ms measured mean in W. R404 (16). Reset 0. -/
  measured : Nat
  /-- PWR_LVR_CTRL.FINE. 1 bit. R316 (12). Reset 0. -/
  fine : Bool
  /-- PWR_TENANT_VIEW by VF: POWER_Q, TEMP_Q, SAMPLE_TICK. R315 (12). Reset 0. -/
  view : Tbl (Nat × Nat × Nat)
  /-- Sum of the per-tick power samples of the Louvre interval. R430 (12). Reset 0. -/
  lvSum : Nat
  /-- Hottest junction of the Louvre interval in quarter degrees. R430 (12). Reset none. -/
  lvHot : Option Int
  /-- Ticks of the Louvre interval so far. R430 (12). Reset 0. -/
  lvTicks : Nat
  /-- The power sum and hottest junction of an interval that has ended, until the views are recomputed. R430 (12). Reset
  none. -/
  lvDone : Option (Nat × Option Int)
  /-- The latest per-tick power sample in W. R430 (12). Reset 0. -/
  lvLast : Nat
  deriving DecidableEq, Repr

/-- A slot-pointer switch in progress (R321): an activation for the mailbox, for the SMBus or for a request whose answer was
aborted, or the confirmation of a trial image. -/
inductive PtrSwitch where
  | mbox | smbus | silent | confirm
  deriving DecidableEq, Repr

/-- A staged Sill image update (R336). -/
structure Staging where
  /-- A staging is open. R336 (13). Reset false. -/
  isOpen : Bool
  /-- LENGTH given at BEGIN. R336 (13). Reset 0. -/
  length : Nat
  /-- UPDATE_STAGED. 1 bit. R337 (13). Reset 0. -/
  staged : Bool
  /-- UPDATE_ACTIVATED. 1 bit. R338 (13). Reset 0. -/
  activated : Bool
  /-- The slot-pointer switch in progress. R321 (13). Reset none. -/
  switching : Option PtrSwitch
  /-- Digests of the staged image: PORTER_FW, SEQ_FW, image. R333 (13). Reset 0. -/
  d5 : BitVec 384
  /-- Block 6. R333 (13). Reset 0. -/
  d6 : BitVec 384
  /-- Block 7. R333 (13). Reset 0. -/
  d7 : BitVec 384
  /-- SVN of the staged image, for PENDING_SVN. R333 (13). Reset 0. -/
  svn : Nat
  deriving DecidableEq, Repr

/-- A party entry of a charter (R272). -/
structure PartyEnt where
  domain : Nat
  identity : BitVec 384
  codeKey : BitVec 384
  deriving DecidableEq, Repr

/-- A region record of a charter (R272). -/
structure RegionRec where
  octant : Nat
  context : Nat
  index : Nat
  count : Nat
  domain : Nat
  write : Bool
  versioned : Bool
  vset : Nat
  admitMask : Label
  deriving DecidableEq, Repr

/-- A window record of a charter (R272). -/
structure WinRec where
  window : Nat
  party : Nat
  ring : Bool
  hostWritten : Bool
  admitMask : Label
  size : Nat
  deriving DecidableEq, Repr

/-- A pool record of a charter (R272). -/
structure PoolRec where
  pool : Nat
  octant : Nat
  cluster : Nat
  page : Nat
  count : Nat
  deriving DecidableEq, Repr

/-- Charter states (R271). -/
inductive CharterState where
  | none | pending | active | withdrawn
  deriving DecidableEq, Repr

/-- The charter of a partition (R271, R272). -/
structure Charter where
  state : CharterState
  hash : BitVec 384
  n : Nat
  k : Nat
  signers : Nat
  jointDomain : Nat
  rallyAdmit : Label
  switchPermitted : Bool
  hostManagedOk : Bool
  dumpLabelled : Bool
  parties : List PartyEnt
  regions : List RegionRec
  windows : List WinRec
  pools : List PoolRec
  approved : Label
  /-- Parties whose withdrawal takes effect at the next boundary (R276). -/
  withdrawing : List PartyEnt
  deriving DecidableEq, Repr

/-- An SPDM responder session (R331). -/
structure Session where
  /-- The function whose share holds it: 0 the PF, 1 + v for VF v. R331 (13). -/
  fn : Nat
  /-- FINISH has completed. R331 (13). -/
  done : Bool
  /-- SHA-384 of the requester leaf certificate's public key. R274 (11). -/
  identity : BitVec 384
  /-- Key updates of the session. R331 (13). -/
  keyGen : Nat
  /-- EXPORTs under this session. R373 (14). -/
  exports : Nat
  /-- Names its export master secret (MODEL: the draw of its key exchange). R293 (11). -/
  secret : Nat
  deriving DecidableEq, Repr

/-- Porter (13). -/
structure Porter where
  /-- GLB_MODE.MGMT: true when host-managed. 1 bit. R318 (13). Reset: Sill, Porter-managed by default. -/
  hostManaged : Bool
  /-- LCS_STATE.DEBUG_OPEN. 1 bit. R346 (13). Reset: fused, as of the last reset. -/
  debugOpen : Bool
  /-- The lifecycle count as of the last reset, whose code-signing rules are in force. R347 (13). Reset: fused. -/
  lcsAtReset : Nat
  /-- DEBUG.USED. 1 bit. R333 (13). Reset 0. -/
  debugUsed : Bool
  /-- SIL_BOOT.SLOT: true for B. 1 bit. R326 (13). Reset 0. -/
  slot : Bool
  /-- SIL_BOOT.UNSIGNED. 1 bit. R323 (13). Reset 0. -/
  unsigned : Bool
  /-- SIL_BOOT.FALLBACK. 1 bit. R326 (13). Reset 0. -/
  fallback : Bool
  /-- BOOT.IDENTITY_LOST. 1 bit. R330 (13). Reset 0. -/
  identityLost : Bool
  /-- SIL_BOOT.TRIAL. 1 bit. R339 (13). Reset 0. -/
  trial : Bool
  /-- SIL_BOOT.SEALED_BAD, saturating. 8 bits. R325 (13). Reset 0. -/
  sealedBad : Nat
  /-- SIL_STATUS.REASON. 8 bits. R325 (13). Reset OK. -/
  silReason : Reason
  /-- SIL_STATUS.FIELD_ID. 16 bits. R325 (13). Reset 0. -/
  silField : Nat
  /-- LCS_STATUS.REASON. 8 bits. R347 (13). Reset OK. -/
  lcsReason : Reason
  /-- LCS_STATUS.SECRETS_ERASED. 1 bit. R349 (13). Reset 0. -/
  erased : Bool
  /-- Running digests of PORTER_FW, SEQ_FW and the image, and the image's SVN rule. R333 (13). Reset 0. -/
  d2 : BitVec 384
  /-- Block 3. R333 (13). Reset 0. -/
  d3 : BitVec 384
  /-- Block 4. R333 (13). Reset 0. -/
  d4 : BitVec 384
  /-- RAISE_SVN and SVN of the running image. R339 (13). Reset none. -/
  raiseSvn : Option Nat
  /-- The alias key's CDI_1. 384 bits. R329 (13). Reset 0. -/
  cdi1 : BitVec 384
  /-- Draw numbers of the die-link keys, one for each of three links and each direction. R16 (01). Reset empty. -/
  dieKeys : List Nat
  /-- Key slots have been zeroed (lockdown, SCRAPPED). R367 (14). Reset false. -/
  keysZeroed : Bool
  /-- PTR_MBOX_STATUS.BUSY. 1 bit. R340 (13). Reset 0. -/
  busy : Bool
  /-- PTR_MBOX_STATUS.REASON. 8 bits. R340 (13). Reset OK. -/
  mboxReason : Reason
  /-- PTR_MBOX_STATUS.SEQ_LO. 16 bits. R340 (13). Reset 0. -/
  seqLo : Nat
  /-- SEQ of the request in progress. 32 bits. R340 (13). Reset 0. -/
  curSeq : Word
  /-- The response to the request in progress is discarded. R384 (15). Reset false. -/
  discard : Bool
  /-- The PTR buffer. 4 KiB. R340 (13). Reset 0: none given; DESIGN CHOICE zeros (log 4). -/
  buf : Memory
  /-- The staged update. R336 (13). Reset none open. -/
  stg : Staging
  /-- Charters by VF. R271 (11). Reset NONE. -/
  charter : Tbl Charter
  /-- The charter bytes collected for a VF by CHARTER_LOAD and CHARTER_APPEND. R341 (13). Reset none. -/
  loading : Option (Nat × List Byte)
  /-- SPDM responder sessions by slot, 0 to 159. R331 (13). Reset empty. -/
  sess : Tbl (Option Session)
  /-- Key domains kept over an L3 with a charter's hash and not used since. R364 (14). Reset empty. -/
  heldDoms : List Nat
  /-- Job keys by VF × 65536 + group. 48 bytes. R342 (13). Reset none. -/
  jobKeys : Tbl (List Byte)
  /-- The requester session toward the switch of a plane, and what it reports, by plane. R331, R343 (13). Reset none. -/
  switchSess : Tbl (Option SwitchReport)
  /-- SWITCH_ROOT: digests of the accepted switch root keys. R324, R343 (13). Reset: Sill, empty without a record. -/
  switchRoots : List (BitVec 384)
  /-- SWITCH_ROOT: the accepted switch measurement digests. R324, R343 (13). Reset: Sill, empty without a record. -/
  switchMeas : List (BitVec 384)
  deriving DecidableEq, Repr

/-- The Umpire and reset controller (14). -/
structure Ump where
  /-- UMP_OVERRUN_LIMIT.LIMIT. 4 bits. R41 (02). Reset 2. -/
  limit : Rwt
  /-- VF record rings. R356 (14). Reset empty. -/
  vfRing : Tbl Ring
  /-- UMP_RESET_STATUS.REASON. 8 bits. R433 (14). Reset OK. -/
  reqReason : Reason
  /-- UMP_RESET_STATUS.ESCALATIONS. 16 bits. R359 (14). Reset 0. -/
  escalations : Nat
  /-- Contexts under L0, keyed 16o + c: one more than the boundaries left to the bound. R359 (14). Reset empty. -/
  l0 : Tbl Nat
  /-- Units under L1. R361 (14). Reset empty. -/
  l1 : List UnitId
  /-- Partitions under L2. 8 bits. R362 (14). Reset 0. -/
  l2 : BitVec 8
  /-- Partitions whose L2 waits for its dump, with the reason and source of the L2. R362, R370 (14). Reset empty. -/
  l2Wait : Tbl (Option (Reason × Nat))
  /-- An L3 that waits for its dump, with the self-test result of its boot. R326, R370 (13, 14). Reset none. -/
  l3Wait : Option CheckResult
  /-- UMP_DUMP_CTRL.AUTO. 1 bit. R370 (14). Reset 0. -/
  auto : Bool
  /-- UMP_DUMP_CTRL.OVERWRITE. 1 bit. R370 (14). Reset 0. -/
  overwrite : Bool
  /-- UMP_DUMP_CTRL.OCTANTS. 8 bits. R370 (14). Reset 0. -/
  dumpOcts : BitVec 8
  /-- UMP_DUMP_WIN words 0, 1 and 2. 64 bits each. R373 (14). Reset 0. -/
  win0 : DWord
  /-- Word 1. R373 (14). Reset 0. -/
  win1 : DWord
  /-- Word 2. R373 (14). Reset 0. -/
  win2 : DWord
  /-- UMP_DUMP_STATUS.STATE: 0 empty, 1 dumping, 2 held, 3 exporting. R370 (14). Reset 0. -/
  dumpState : Nat
  /-- UMP_DUMP_STATUS.REASON. 8 bits. R373 (14). Reset OK. -/
  dumpReason : Reason
  /-- UMP_DUMP_STATUS.TRUNCATED. 1 bit. R371 (14). Reset 0. -/
  truncated : Bool
  /-- UMP_DUMP_STATUS.SKIPPED, saturating. 16 bits. R370 (14). Reset 0. -/
  skipped : Nat
  /-- UMP_DUMP_STATUS.DUMP_NO. 32 bits. R373 (14). Reset 0. -/
  dumpNo : Nat
  /-- The dump area. R373 (14). Reset empty. -/
  dump : Dump
  /-- The held dump has been exported. R370 (14). Reset false. -/
  exported : Bool
  /-- Octants whose export still runs. 8 bits. R373 (14). Reset 0. -/
  exporting : BitVec 8
  /-- The session of the export that runs. 8 bits. R373 (14). Reset 0. -/
  exportSess : Nat
  /-- SMBus ALERT_CAUSE. 16 bits. R413 (16). Reset 0. -/
  alert : BitVec 16
  /-- SMBus CYCLE_CAUSE. 8 bits. R413 (16). Reset 0. -/
  cycleCause : Nat
  /-- SMBus TRIP_SENSOR: sensor and temperature in degrees. R413 (16). Reset 0. -/
  tripSensor : Nat
  /-- Temperature at the trip. R413 (16). Reset 0. -/
  tripTemp : Nat
  /-- SMBus FAULT_SELECT. 0 to 15. R413 (16). Reset 0. -/
  faultSel : Nat
  /-- SMBus STAGE_RESULT reason. 8 bits. R413 (16). Reset OK. -/
  stageReason : Reason
  /-- SMBus STAGE_RESULT busy. 1 bit. R413 (16). Reset 0. -/
  stageBusy : Bool
  /-- SMBus RESET_RESULT. 8 bits. R413 (16). Reset OK. -/
  resetResult : Reason
  deriving DecidableEq, Repr

/-- Octant states of the Shutter (SHT_OCT.STATE). -/
inductive OctState where
  | clean | scrubbing | zeroFilling | failed
  deriving DecidableEq, Repr

/-- One partition entry, SHT_PART (R303). -/
structure Part where
  /-- OCTANTS. 8 bits. R303 (12). Reset 0. -/
  octants : BitVec 8
  /-- KD_BASE. 8 bits. R303 (12). Reset 0. -/
  kdBase : Nat
  /-- KD_COUNT. 7 bits. R303 (12). Reset 0. -/
  kdCount : Nat
  /-- ZERO_FILL. 1 bit. R312 (12). Reset 0. -/
  zeroFill : Bool
  /-- EN. 1 bit. R303 (12). Reset 0. -/
  en : Bool
  /-- The partition exists, from the boundary of its creation. R305 (12). Reset false. -/
  live : Bool
  /-- A release waits for the next boundary. R306 (12). Reset false. -/
  releasing : Bool
  /-- Key domains of the released partition that its scrubs have yet to rotate. R306, R310 (12). Reset empty. -/
  rotating : List Nat
  /-- The released partition's key-domain range, until its scrubs have rotated its domains. R306 (12). Reset empty. -/
  keyRange : List Nat
  deriving DecidableEq, Repr

/-- One octant of the Shutter, SHT_OCT (R309). -/
structure ShtOct where
  /-- STATE. 2 bits. R309 (12). Reset 1 SCRUBBING. -/
  state : OctState
  /-- OWNED. 1 bit. R305 (12). Reset 0. -/
  owned : Bool
  /-- VF. 3 bits. R305 (12). Reset 0. -/
  vf : Nat
  /-- REASON. 8 bits. R313 (12). Reset OK. -/
  reason : Reason
  /-- DONE_TICK. 32 bits. R309 (12). Reset 0. -/
  doneTick : Nat
  /-- ZERO_FILL sampled when the release took effect. R312 (12). Reset false. -/
  zeroFill : Bool
  /-- The partition a running release scrub serves, whose domains it rotates. R310 (12). Reset none. -/
  oldVf : Option Nat
  deriving DecidableEq, Repr

/-- One Transom window, TRS_WIN (R292). -/
structure Win where
  /-- DATA_BASE, host address bits [63:12]. R292 (11). Reset 0. -/
  dataBase : Nat
  /-- RECORD_BASE, host address bits [63:6]. R292 (11). Reset 0. -/
  recordBase : Nat
  /-- SIZE in blocks. 17 bits. R292 (11). Reset 0. -/
  size : Nat
  /-- KIND: true for RING. 1 bit. R292 (11). Reset 0. -/
  ring : Bool
  /-- WRITER: true for host-written. 1 bit. R292 (11). Reset 0. -/
  hostWritten : Bool
  /-- PARTY. 4 bits. R298 (11). Reset 0. -/
  party : Nat
  /-- PARTY_VALID. 1 bit. R298 (11). Reset 0. -/
  partyValid : Bool
  /-- ADMIT. 16 bits. R281 (11). Reset 0. -/
  admitMask : Label
  /-- SESSION. 8 bits. R300 (11). Reset 0. -/
  session : Nat
  /-- EN. 1 bit. R300 (11). Reset 0. -/
  en : Bool
  /-- The window serves transfers, until the boundary that disables it. R300 (11). Reset false. -/
  live : Bool
  /-- Its session has ended, so the next boundary disables it. R300 (11). Reset false. -/
  ended : Bool
  /-- EPOCH. 64 bits. R299 (11). Reset 0. -/
  epoch : Nat
  /-- REARM_PENDING. 1 bit. R299 (11). Reset 0. -/
  rearm : Bool
  /-- AUTH_FAIL, saturating. 32 bits. R296 (11). Reset 0. -/
  authFail : Nat
  /-- What the VF's view of it subtracts: the count at its partition's creation. R311 (12). Reset 0. -/
  authBase : Nat
  /-- Blocks written in this epoch. R295 (11). Reset empty. -/
  written : List Nat
  /-- Names the export master secret whose keys Porter installed (Session.secret). R293 (11). Reset 0. -/
  secret : Nat
  /-- The status record of the epoch is still to be written, in the slot of its VF. R299, R301 (11). Reset false. -/
  statusDue : Bool
  deriving DecidableEq, Repr

/-- Threshold pool states (R287). -/
inductive PoolState where
  | idle | open | closed
  deriving DecidableEq, Repr

/-- One Threshold pool, LBL_POOL_CFG and LBL_POOL_STAT (R287). -/
structure Pool where
  /-- OCTANT. 3 bits. R287 (11). Reset 0. -/
  octant : Nat
  /-- CLUSTER. 4 bits. R287 (11). Reset 0. -/
  cluster : Nat
  /-- PAGE. 6 bits. R287 (11). Reset 0. -/
  page : Nat
  /-- COUNT, pages less one. 4 bits. R287 (11). Reset 0. -/
  count : Nat
  /-- VF. 3 bits. R287 (11). Reset 0. -/
  vf : Nat
  /-- EN. 1 bit. R287 (11). Reset 0. -/
  en : Bool
  /-- STATE. 2 bits. R287 (11). Reset IDLE. -/
  state : PoolState
  /-- UNMET. 1 bit. R290 (11). Reset 0. -/
  unmet : Bool
  /-- NONFINITE. 1 bit. R289 (11). Reset 0. -/
  nonfinite : Bool
  /-- PARTIES. 16 bits. R289 (11). Reset 0. -/
  parties : Label
  /-- CONTRIB, saturating. 16 bits. R289 (11). Reset 0. -/
  contrib : Nat
  /-- LABEL of the pool. 16 bits. R289 (11). Reset empty. -/
  label : Label
  deriving DecidableEq, Repr

/-- One HBM region of a stack as the Casement engine and the stack controller record it (R159, R178). -/
structure Region where
  /-- Key domain of the record; none is no domain. R178 (08). Reset none. -/
  domain : Option Nat
  /-- INIT_PENDING. 1 bit. R194 (08). Reset 1 before initialisation; false after. -/
  initPending : Bool
  /-- Lineage label. 16 bits. R159 (07). Reset empty. -/
  label : Label
  /-- Epoch of undefined contents after a COMMIT that did not flip; 0 is defined (MODEL, log 10). R151 (06). Reset 0. -/
  undef : Nat
  deriving DecidableEq, Repr

/-- Counters of one 4 KiB page: the major counter and the minors that are not 0 (R181). -/
structure PageCtr where
  /-- Major counter. 64 bits. R181 (08). Reset 0, the zero state. -/
  major : DWord
  /-- Minor counters by line. 7 bits each. R181 (08). Reset 0. -/
  minors : Tbl Nat
  deriving DecidableEq, Repr

/-- A data line as the stack holds it: its ciphertext and its tag, with what they were made under (R180). -/
structure Sealed where
  /-- The draw of the key domain's keys; none where the line was never written. R177 (08). Reset none. -/
  key : Option Nat
  /-- The major counter of the page. 64 bits. R180 (08). Reset 0. -/
  major : DWord
  /-- The minor counter of the line. 7 bits. R180 (08). Reset 0. -/
  minor : Nat
  /-- The four blocks of ciphertext. 512 bits. R180 (08). Reset empty: none written. -/
  cipher : List (BitVec 128)
  /-- The line's tag slot. 64 bits. R180 (08). Reset 0: the tag area is not written (R194). -/
  tag : DWord
  deriving DecidableEq, Repr

/-- A metadata line of a stack: a tag line by its index in the tag area, the counter line of a page of the stack, or a line of
two nodes of a tree level (R179, R184). -/
inductive MetaLine where
  | tag (index : Nat)
  | ctr (page : Nat)
  | node (level line : Nat)
  deriving DecidableEq, Repr

/-- A line of the metadata cache (R197). -/
structure CacheLine where
  /-- Which line it is. R197 (08). -/
  line : MetaLine
  /-- It differs from the copy in HBM. 1 bit. R196 (08). -/
  dirty : Bool
  /-- The valid bits of a tag line's eight tags. 8 bits. R197 (08). -/
  valid : BitVec 8
  deriving DecidableEq, Repr

/-- What the HBM stacks and the Casement engines hold of Casement (R180, R184, R186). Tree digests are listed by
(16 × stack + level of the child) × 2^25 + child; one that is not listed is that of the tree that power-on builds (R194). -/
structure CasStore where
  /-- Data lines as stored, by line number. 64 bytes and an 8-byte tag each. R179, R180 (08). Reset: none written. -/
  line : Tbl Sealed
  /-- Counter lines in HBM, by physical page; one that is not listed is all zero. 512 bits. R181 (08). Reset: zero. -/
  ctr : Tbl (Option (BitVec 512))
  /-- Tree digests as the engine has them, cached or read. 32 bits. R184 (08). Reset: the tree of power-on. -/
  node : Tbl (Option (BitVec 32))
  /-- Tree digests of the primary copies in HBM. 32 bits. R186 (08). Reset: the tree of power-on. -/
  tree : Tbl (Option (BitVec 32))
  /-- Tree digests of the mirror copies, in the partner stack's HBM. 32 bits. R186 (08). Reset: the tree of power-on. -/
  mirror : Tbl (Option (BitVec 32))
  deriving DecidableEq, Repr

/-- One HBM stack's controller and Casement engine: MCH and CAS (07, 08). -/
structure Stack where
  /-- MCH_ECC_COUNT.CORRECTED, saturating. 32 bits. R160 (07). Reset 0. -/
  corrected : Nat
  /-- MCH_ECC_COUNT.UNCORRECTABLE, saturating. 16 bits. R160 (07). Reset 0. -/
  uncorrectable : Nat
  /-- MCH_ECC_COUNT.PATROL_PASSES. 16 bits. R162 (07). Reset 0. -/
  patrolPasses : Nat
  /-- Lines of the current patrol pass read so far. R162 (07). Reset 0. -/
  patrolPos : Nat
  /-- MCH_ECC_LAST: LINE, SOURCE, TICK. 64 bits. R160 (07). Reset 0. -/
  eccLine : Nat
  /-- MCH_ECC_LAST.SOURCE. 2 bits. R160 (07). Reset 0. -/
  eccSource : Nat
  /-- MCH_ECC_LAST.TICK. 28 bits. R160 (07). Reset 0. -/
  eccTick : Nat
  /-- CAS_ALARM_WINDOW.MS. 14 bits. R190 (08). Reset: Sill, 1,000 by default. -/
  alarmMs : Nat
  /-- Power-on initialisation is done. R194 (08). Reset false. -/
  inited : Bool
  /-- CAS_INIT.ROOT_VALID. 1 bit. R194 (08). Reset 0. -/
  rootValid : Bool
  /-- The metadata cache but for its pinned part, most recently used first. 12,360 lines. R197 (08). Reset empty. -/
  cache : List CacheLine
  /-- All pinned lines, tree levels 3 to 8, are in the cache. R197 (08). Reset false; true once initialised. -/
  pinAll : Bool
  /-- The pinned lines that are in the cache, where not all are. 20,408 lines. R197 (08). Reset empty. -/
  pins : List MetaLine
  /-- The pinned lines that are dirty. R196 (08). Reset empty. -/
  pinDirty : List MetaLine
  /-- CAS_ERR_COUNT.TAG_FAIL, saturating. 16 bits. R189 (08). Reset 0. -/
  tagFail : Nat
  /-- CAS_ERR_COUNT.TREE_REPAIRED, saturating. 16 bits. R189 (08). Reset 0. -/
  treeRepaired : Nat
  /-- CAS_ERR_COUNT.TAGLINE_LOST, saturating. 16 bits. R189 (08). Reset 0. -/
  taglineLost : Nat
  /-- CAS_ERR_COUNT.BUMPS, saturating. 16 bits. R182 (08). Reset 0. -/
  bumps : Nat
  /-- CAS_ERR_LAST.LINE. 34 bits. R189 (08). Reset 0. -/
  errLine : Nat
  /-- CAS_ERR_LAST.KIND. 4 bits. R189 (08). Reset 0. -/
  errKind : Nat
  /-- CAS_ERR_LAST.TICK. 26 bits. R189 (08). Reset 0. -/
  errTick : Nat
  /-- Counts that the VF's view subtracts: those at the octant's join (corrected, uncorrectable, patrol passes, tag fail,
  tree repaired, tag line lost, bumps). R311 (12). Reset empty. -/
  baseCounts : List Nat
  /-- MCH_ECC_LAST has been written since the octant's join. R311, R317 (12). Reset false. -/
  eccNew : Bool
  /-- CAS_ERR_LAST has been written since the octant's join. R311, R317 (12). Reset false. -/
  errNew : Bool
  deriving DecidableEq, Repr

/-- Region-table entry: its two words (R156). -/
structure RegEntry where
  w0 : DWord
  w1 : DWord
  deriving DecidableEq, Repr

/-- An image slot of a context (R227, R228). -/
structure ImgSlot where
  /-- Registered. R227 (09). Reset false. -/
  used : Bool
  /-- Cluster mask. 9 bits. R227 (09). Reset 0. -/
  mask : Nat
  /-- Cluster-memory offset. R227 (09). Reset 0. -/
  offset : Nat
  /-- Length in bytes. R227 (09). Reset 0. -/
  length : Nat
  /-- SIGNED. R228 (09). Reset false. -/
  signed : Bool
  /-- The keys whose signatures counted at its registration. R275 (11). Reset empty. -/
  signers : List (BitVec 384)
  /-- Registration number. 32 bits. R228 (09). Reset 0. -/
  regNo : Nat
  /-- A release waits for accepted LAUNCHes that name the slot. R227 (09). Reset false. -/
  releasing : Bool
  deriving DecidableEq, Repr

/-- Context states (R200). -/
inductive CtxState where
  | free | stopped | running | faulted
  deriving DecidableEq, Repr

/-- How a context is being stopped (R203). -/
inductive StopMode where
  | none | drain | preempt
  deriving DecidableEq, Repr

/-- One context (R200). -/
structure Ctx where
  /-- SEQ_CTX.STATE. 2 bits. R200 (09). Reset FREE. -/
  state : CtxState
  /-- SEQ_CTX.LAST_REASON. 8 bits. R204 (09). Reset OK. -/
  lastReason : Reason
  /-- Job seed. 64 bits. R200 (09). Reset 0. -/
  seed : DWord
  /-- Non-finite object, coded as WAIT_OBJ. 14 bits. R200 (09). Reset 0. -/
  nfObj : Nat
  /-- A CTX_STOP in progress. R203 (09). Reset none. -/
  stopMode : StopMode
  /-- Consecutive overruns. R41 (02). Reset 0. -/
  overruns : Nat
  /-- Halted streams suspend its limits (R425). -/
  suspended : Bool
  deriving DecidableEq, Repr

/-- One queue (R205). -/
structure Queue where
  /-- SEQ_Q_CONFIG.BOUND. 1 bit. R205 (09). Reset 0. -/
  bound : Bool
  /-- SEQ_Q_CONFIG.CTX. 4 bits. R205 (09). Reset 0. -/
  ctx : Nat
  /-- SEQ_Q_CONFIG.LOC: true for Transom. 1 bit. R205 (09). Reset 0. -/
  transom : Bool
  /-- SEQ_Q_CONFIG.CMD_LOG2. 4 bits. R205 (09). Reset 0. -/
  n : Nat
  /-- SEQ_Q_CONFIG.CPL_LOG2. 4 bits. R205 (09). Reset 0. -/
  m : Nat
  /-- SEQ_Q_CONFIG.IN_FLIGHT_MAX. 7 bits. R206 (09). Reset 0. -/
  inFlightMax : Nat
  /-- Command ring base. 64 bits. R227 (09). Reset 0. -/
  cmdBase : Nat
  /-- Completion ring base. 64 bits. R227 (09). Reset 0. -/
  cplBase : Nat
  /-- SEQ_Q_DOORBELL.PRODUCER. 16 bits. R207 (09). Reset 0. -/
  producer : Nat
  /-- SEQ_Q_CDOORBELL.CONSUMER. 16 bits. R208 (09). Reset 0. -/
  consumer : Nat
  /-- SEQ_Q_STATUS.FETCH. 16 bits. R207 (09). Reset 0. -/
  fetch : Nat
  /-- The moment from which its next fetch could be asked of the host (MODEL). R207, R301 (09, 11). Reset 0. -/
  fetchFrom : Nat
  /-- SEQ_Q_STATUS.CPL_PRODUCER. 16 bits. R208 (09). Reset 0. -/
  cplProducer : Nat
  /-- Stopped with an error, and its reason (STATE 3). R207 (09). Reset none. -/
  stopped : Option Reason
  /-- Commands that ended FAULTED or NOT_RUN since the last completed FENCE: (number, reason). R215 (09). Reset empty. -/
  fails : List (Nat × Reason)
  /-- One more than the number of the queue's latest FENCE that has ended. R215 (09). Reset 0. -/
  fenceFrom : Nat
  /-- A FENCE with FAIL_STOP failed: the reason later commands complete with. R215 (09). Reset none. -/
  failStop : Option Reason
  /-- Slots fetched since the RING window's epoch began: the next WSEQ. R297 (11). Reset 0. -/
  wseqCmd : Nat
  /-- Records written since the RING window's epoch began. R297 (11). Reset 0. -/
  wseqCpl : Nat
  /-- The completion block being filled on-die. 128 bytes. R297 (11). Reset 0. -/
  cplBlock : List Byte
  deriving DecidableEq, Repr

/-- One Huddle object (R217). WAITERS and REFS of HUD_OBJ are computed from the commands and streams. -/
structure HudObj where
  /-- VALUE. 32 bits. R217 (09). Reset 0. -/
  value : Word
  /-- CONFIGURED. 1 bit. R218 (09). Reset 0. -/
  configured : Bool
  /-- ERROR. 1 bit. R222 (09). Reset 0. -/
  error : Bool
  /-- ERR_REASON. 8 bits. R222 (09). Reset OK. -/
  errReason : Reason
  /-- OWNER_CTX. 4 bits. R218 (09). Reset 0. -/
  owner : Nat
  /-- The designated producer as (octant, queue). R218 (09). Reset none. -/
  producer : Option (Nat × Nat)
  /-- DEADLINE in ticks. 16 bits. R218 (09). Reset 0. -/
  deadline : Nat
  deriving DecidableEq, Repr

/-- A signal on its way to its object (R220): object, increment, and for an error signal its reason. -/
structure Signal where
  octant : Nat
  obj : Nat
  incr : Word
  err : Option Reason
  deriving DecidableEq, Repr

/-- Where an accepted command stands (R213 to R216). -/
inductive CmdPhase where
  | accepted | selected | active | recording
  deriving DecidableEq, Repr

/-- How a command ended (completion record STATE). -/
inductive EndState where
  | done | faulted | notRun
  deriving DecidableEq, Repr

/-- An accepted command (R206 to R216). -/
structure Cmd where
  /-- The command's number: the device-wide order of acceptance (MODEL, log 7). -/
  id : Nat
  /-- Octant whose sequencer holds it. R205 (09). -/
  oct : Nat
  /-- Its queue. R205 (09). -/
  q : Nat
  /-- Its context. R205 (09). -/
  ctx : Nat
  /-- Ring slot index. R212 (09). -/
  slot : Nat
  /-- The 128 bytes fetched. R209 (09). -/
  raw : List Byte
  /-- Phase. R213 (09). -/
  phase : CmdPhase
  /-- START of the selecting window, 10 ns units. R213 (09). -/
  winStart : Nat
  /-- END of the selecting window, 10 ns units. R213 (09). -/
  winEnd : Nat
  /-- TCK_COUNT of the tick in which the window selected it. R39 (02). -/
  winTick : Nat
  /-- Planned end extended for counting purposes, exact time units. R41 (02). -/
  delay : Nat
  /-- Time at which its item dispatched. R37 (02). -/
  began : Nat
  /-- Its planned end has passed and been counted. R39 (02). -/
  endPassed : Bool
  /-- Boundaries left of its Huddle wait's deadline; none when it does not wait. R221 (09). -/
  waitLeft : Option Nat
  /-- Its Huddle wait has been released normally. R222 (09). -/
  waitOk : Bool
  /-- A rally first step that its window selected waits for collective n − 4 of its group (HELD). R247, R248 (10). -/
  limitHeld : Bool
  /-- Ended, with state and reason. R216 (09). -/
  result : EndState × Reason
  /-- Bytes 0x04 to 0x17 of its completion record. R168 (07). -/
  info : List Byte
  /-- The work is done but completion is withheld until END (labelled control, R280) or a time (R138). -/
  heldUntil : Option Nat
  /-- Its completion sends no signal (R212) or an error signal. R222 (09). -/
  noSignal : Bool
  /-- The item retired (for R39 to R42), though its completion may be pending. R208 (09). -/
  retired : Bool
  /-- The item ends FAULTED with this reason: killed by L0 (R204), or a stream's HWAIT was released with error (R222). -/
  errEnd : Option Reason
  deriving DecidableEq, Repr

/-- A management command that has not yet ended (R226, R227). -/
inductive MgmtRun where
  | none
  | start (ctx : Nat) (due : Bool)
  | stop (ctx : Nat)
  | destroy (ctx : Nat) (waitFor : List Nat)
  | region (ctx index : Nat) (entry : RegEntry) (effective : Bool) (waitFor : List Nat)
  | imageRelease (ctx slot : Nat)
  deriving DecidableEq, Repr

/-- A window record of a plan section (R32). -/
structure PlanWin where
  kind : Nat
  index : Nat
  tick : Nat
  queue : Nat
  start : Nat
  fin : Nat
  tag : Nat
  deriving DecidableEq, Repr

/-- A live plan section (R32 to R35). -/
structure Plan where
  mode : Nat
  units : Nat
  cycle : Nat
  wins : List PlanWin
  deriving DecidableEq, Repr

/-- One octant's sequencer (09, 06). -/
structure Seq where
  /-- SEQ_PLAN_BASE.ADDR. 34 bits. R229 (09). Reset 0. -/
  planBase : Rwt
  /-- The live plan. R34 (02). Reset none. -/
  plan : Option Plan
  /-- The plan was withdrawn. R35 (02). Reset false. -/
  withdrawn : Bool
  /-- Tick of the cycle. R34 (02). Reset 0. -/
  cycleTick : Nat
  /-- Records of the windows that have started in this tick. R38 (02). Reset empty. -/
  started : List Nat
  /-- SEQ_MGMT_CMD. 128 bytes. R226 (09). Reset 0: none given; DESIGN CHOICE zeros (log 4). -/
  mgmtBuf : Memory
  /-- SEQ_MGMT_RESULT.REASON. 8 bits. R226 (09). Reset OK. -/
  mgmtReason : Reason
  /-- The management command that runs; BUSY is 1 while one does. R226 (09). Reset none. -/
  mgmt : MgmtRun
  /-- The Porter mailbox request, if any, that waits for that command. R341 (13). Reset false. -/
  mgmtMbox : Bool
  /-- SEQ_VERSION.ACTIVE. 8 bits. R146 (06). Reset 0. -/
  active : BitVec 8
  /-- SEQ_VERSION.VOTED. 8 bits. R147 (06). Reset 0. -/
  voted : BitVec 8
  /-- SEQ_VERSION.PENDING. 8 bits. R149 (06). Reset 0. -/
  pendFlip : BitVec 8
  /-- SEQ_VERSION.FLIPS. 32 bits. R146 (06). Reset 0. -/
  flips : Word
  /-- SEQ_VGEN by set. 32 bits. R149 (06). Reset 0. -/
  gen : Tbl Word
  /-- The COMMIT commands whose signal waits for the flip boundary. R149 (06). Reset empty. -/
  flipCmds : List Nat
  /-- Last registration number assigned. 32 bits. R228 (09). Reset 0. -/
  lastReg : Nat
  deriving DecidableEq, Repr

/-- Region views that a transfer resolved at dispatch (R148): region-table index, view, physical region and checks. -/
structure Mapping where
  index : Nat
  inactive : Bool
  base : Nat
  admitMask : Label
  vset : Option Nat
  domain : Nat
  /-- READ and WRITE of the entry. R156 (07). -/
  rd : Bool
  wr : Bool
  deriving DecidableEq, Repr

/-- One Relay transfer, or a fabric delivery of a rally step (R167, R250). -/
structure Xfer where
  oct : Nat
  eng : Nat
  seq : Word
  cmd : Nat
  ctx : Nat
  /-- PARTIAL. R169 (07). -/
  partl : Bool
  /-- Boundaries left to its deadline. R171 (07). -/
  left : Nat
  /-- Translations resolved at dispatch. R148, R158 (06, 07). -/
  maps : List Mapping
  /-- Row and byte cursor. R165 (07). -/
  row : Nat
  off : Nat
  /-- BYTES_DONE. R168 (07). -/
  bytesDone : Nat
  /-- STOW bytes written. R138 (06). -/
  stowBytes : Nat
  /-- Stow: raw bytes or stream bytes collected and not yet coded. R134 (06). -/
  stowBuf : List Byte
  /-- Stow: next PAGE index. R134 (06). -/
  page : Nat
  /-- Stow: stream-side cursor in bytes. R134 (06). -/
  cursor : Nat
  /-- Union of the labels read. R138 (06). -/
  label : Label
  /-- Union of the source's labels at dispatch. R138, R164 (06, 07). -/
  srcLabel : Label
  /-- A fabric delivery: it carries the traffic of the rally step of its command. R250 (10). -/
  fabric : Bool
  /-- The pools this transfer has been counted in. R289 (11). -/
  pools : List Nat
  /-- Staging buffer: host blocks answered and verified, by window-set block. R169 (07). -/
  staging : Tbl (List Byte)
  /-- Bytes staged while parked. 64 KiB at most. R169 (07). -/
  staged : Nat
  /-- Window blocks being assembled. R295 (11). -/
  asm : Tbl Memory
  /-- A read of the host is outstanding, for this block. R169 (07). -/
  waiting : Option Nat
  /-- An answer has come since it parked. R170 (07). -/
  answered : Bool
  /-- Every byte is written. R168 (07). -/
  allDone : Bool
  /-- It has faulted with this reason and moves no more data. R171, R360 (07, 14). -/
  fault : Option Reason
  deriving DecidableEq, Repr

/-- The control of one Relay engine pair: RLE (07). -/
structure Rle where
  /-- RLE_DEADLINE.TICKS. 11 bits. R171 (07). Reset 8. -/
  deadline : Rwt
  /-- Next sequence number of engine 0. 32 bits. R167 (07). Reset: none given; DESIGN CHOICE 0 (log 4). -/
  seq0 : Word
  /-- Next sequence number of engine 1. 32 bits. R167 (07). Reset: none given; DESIGN CHOICE 0 (log 4). -/
  seq1 : Word
  /-- RLE_STALE_COUNT.ENGINE0, saturating. 32 bits. R172 (07). Reset 0. -/
  stale0 : Nat
  /-- RLE_STALE_COUNT.ENGINE1, saturating. 32 bits. R172 (07). Reset 0. -/
  stale1 : Nat
  /-- Counts that the VF's view subtracts: those at the octant's join, by engine. R311 (12). Reset empty. -/
  baseCounts : List Nat
  deriving DecidableEq, Repr

/-- A resource of a stream that a later bundle may have to wait for (R61, R63). -/
inductive Res where
  | reg (r : Nat) | pred (p : Nat) | tile (t : Nat) | scale (t : Nat) | acc (a : Nat) | issue
  deriving DecidableEq, Repr

/-- An outstanding load (R61, R63): what it writes, the bytes and label sampled at issue, and when it may return. -/
structure LoadOp where
  target : Res
  bytes : List Byte
  label : Label
  partl : Bool
  ready : Nat
  cluster : Bool
  deriving DecidableEq, Repr

/-- One stage of a chain (R108). -/
structure Stage where
  fn : Nat
  bsel : Nat
  imm : Word
  deriving DecidableEq, Repr

/-- What holds a stream (R61, R76). -/
inductive StreamWait where
  | none
  | hwait (octant obj : Nat) (target : Word) (left : Nat)
  | xsync
  | cbar
  | fence (scopes : Nat)
  | ending
  deriving DecidableEq, Repr

/-- One stream of a core (R52). -/
structure Stream where
  /-- Participates in the core's item and has not ended. R54, R77 (03). Reset false. -/
  live : Bool
  /-- Participates in the core's item. R54 (03). Reset false. -/
  part : Bool
  /-- Program counter. 15 bits. R52 (03). Reset 0. -/
  pc : Nat
  /-- Scalar registers s1 to s31. 32 bits. R52 (03). Reset 0 (R309). -/
  sreg : Tbl Word
  /-- Labels of the scalar registers. 16 bits. R53 (03). Reset empty. -/
  slabel : Tbl Label
  /-- Predicates p1 to p3. 1 bit. R52 (03). Reset false. -/
  pred : Tbl Bool
  /-- Labels of the predicates. 16 bits. R53 (03). Reset empty. -/
  plabel : Tbl Label
  /-- Tile registers t0 to t7, byte 512t + i. 512 bytes each. R52 (03). Reset 0. -/
  tile : Memory
  /-- Element labels of the tile registers. 16 bits. R277 (11). Reset empty. -/
  tlabel : Tbl Label
  /-- Scale slots, byte 32t + i. 32 bytes each. R89 (04). Reset 0. -/
  scale : Memory
  /-- Labels of the scale slots. 16 bits. R277 (11). Reset empty. -/
  sclabel : Tbl Label
  /-- Control label C. 16 bits. R277 (11). Reset empty. -/
  ctl : Label
  /-- Chain register: the stages in order. R108 (05). Reset empty. -/
  chain : List Stage
  /-- A CHAIN.RUN has followed the last stage, so the next stage empties the register. R108 (05). Reset false. -/
  ran : Bool
  /-- ROWPOS. 32 bits. R119 (05). Reset 0. -/
  rowPos : Nat
  /-- COLPOS. 32 bits. R119 (05). Reset 0. -/
  colPos : Nat
  /-- Label of ROWPOS. 16 bits. R118 (05). Reset empty. -/
  rowLabel : Label
  /-- Label of COLPOS. 16 bits. R118 (05). Reset empty. -/
  colLabel : Label
  /-- The TICK_HI latched by a read of TICK_LO. 32 bits. R71 (03). Reset none. -/
  tickHi : Option Word
  /-- Clock of the stream's last issue since the item's dispatch. R37 (02). Reset none. -/
  lastIssue : Option Nat
  /-- Resources not yet usable and the clock at which they become so. R63 (03). Reset empty. -/
  busy : List (Res × Nat)
  /-- Outstanding loads, oldest first. R61 (03). Reset empty. -/
  loads : List LoadOp
  /-- What holds the stream. R61 (03). Reset none. -/
  wait : StreamWait
  /-- HALT by the debug block. R425 (17). Reset false. -/
  halted : Bool
  deriving DecidableEq, Repr

/-- An MMA in the matrix engine (R99): its issue clock and the operands it latched. -/
structure MmaOp where
  issued : Nat
  acc : Nat
  fa : Nat
  fb : Nat
  clr : Bool
  a : List Byte
  b : List Byte
  sa : List Byte
  sb : List Byte
  label : Label
  deriving DecidableEq, Repr

/-- A syllable in the vector engine (R116): the syllable, what it latched and when it completes. -/
structure VecOp where
  issued : Nat
  stream : Nat
  syllable : DWord
  chain : List Stage
  src : List Byte
  side : List Byte
  rowPos : Nat
  colPos : Nat
  idx : Word
  rl : Word
  step : Word
  seed : DWord
  label : Label
  occupies : Nat
  deriving DecidableEq, Repr

/-- An entry of a skip log (CLU_SKIP_LOG). -/
structure SkipEnt where
  pc : Nat
  stream : Nat
  slot : Nat
  reason : Reason
  tick : Nat
  syllable : DWord
  deriving DecidableEq, Repr

/-- Row state of an accumulator tile row (R121). -/
structure RowState where
  /-- M. FP32. R121 (05). Reset 0 (R309). -/
  m : Word
  /-- L. FP32. R121 (05). Reset 0. -/
  l : Word
  /-- A. FP32. R121 (05). Reset 0. -/
  a : Word
  /-- NONFINITE. 1 bit. R121 (05). Reset 0. -/
  nonfinite : Bool
  /-- ROW_EMPTY. 1 bit. R121 (05). Reset 0. -/
  empty : Bool
  deriving DecidableEq, Repr

/-- One core (R52): what both streams share. -/
structure Core where
  /-- Command whose item runs on the core. R37 (02). Reset none. -/
  item : Option Nat
  /-- Context that runs on the core. R54 (03). Reset none. -/
  ctx : Option Nat
  /-- Identity of the cached image: slot, address, length, registration number. R58 (03). Reset none. -/
  icacheId : Option (Nat × Nat × Nat × Nat)
  /-- The image in the instruction cache. 32 KiB. R52 (03). Reset empty. -/
  icache : List Byte
  /-- Labels of accumulator tiles. 16 bits. R53 (03). Reset empty. -/
  accLabel : Tbl Label
  /-- Row states by tile × 16 + row. R121 (05). Reset 0. -/
  rows : Tbl RowState
  /-- Labels of the row states by tile. 16 bits. R118 (05). Reset empty. -/
  rowLabel : Tbl Label
  /-- The MMA in flight. R99 (04). Reset none. -/
  mma : Option MmaOp
  /-- Clock from which the matrix engine accepts a syllable again. R99 (04). Reset 0. -/
  mmaFree : Nat
  /-- Accumulator tile of the latest MMA, being accumulated into until that clock. R99 (04). Reset 0. -/
  mmaTile : Nat
  /-- Vector syllables in flight, oldest first. R116 (05). Reset empty. -/
  vec : List VecOp
  /-- Clock from which the vector engine accepts a syllable again. R116 (05). Reset 0. -/
  vecFree : Nat
  /-- Clock from which the load unit accepts a syllable again. R64 (03). Reset 0. -/
  ldFree : Nat
  /-- Clock from which the store unit accepts a syllable again. R64 (03). Reset 0. -/
  stFree : Nat
  /-- CLU_SKIP_LOG entries, oldest first. R83 (03). Reset empty. -/
  log : List SkipEnt
  /-- CLU_SKIP_COUNT.TOTAL, saturating. 32 bits. R83 (03). Reset 0. -/
  skips : Nat
  /-- CLU_SKIP_COUNT.THIS_TICK. 11 bits. R83 (03). Reset 0. -/
  skipsTick : Nat
  /-- CLU_SKIP_COUNT.OVERFLOW. 1 bit. R83 (03). Reset 0. -/
  overflow : Bool
  /-- CLU_SKIP_LIMIT sampled at the item's dispatch. R36 (02). Reset 64. -/
  limit : Nat
  deriving DecidableEq, Repr

/-- One cluster's CLU block (R85). -/
structure Clu where
  /-- CLU_SKIP_LIMIT.LIMIT. 10 bits. R84 (03). Reset 64. -/
  limit : Rwt
  /-- CLU_SKIP_SEL.CORE. 6 bits. R83 (03). Reset 0. -/
  sel : Nat
  deriving DecidableEq, Repr

/-- One fabric port: FAB, and the port's part of RLY (10). -/
structure Port where
  /-- FAB_MODE.MODE: true for Rally. 1 bit. R230 (10). Reset: Sill; DESIGN CHOICE 0 without a record (log 4). -/
  rally : Bool
  /-- FAB_MODE.PMD. 2 bits. R231 (10). Reset: Sill; DESIGN CHOICE 0. -/
  pmd : Nat
  /-- FAB_MODE.TAG_EN. 1 bit. Reset: Sill; DESIGN CHOICE 0. -/
  tagEn : Bool
  /-- FAB_MODE.VID. 12 bits. Reset: Sill; DESIGN CHOICE 0. -/
  vid : Nat
  /-- FAB_MODE.PCP. 3 bits. Reset: Sill; DESIGN CHOICE 0. -/
  pcp : Nat
  /-- FAB_MODE.DSCP. 6 bits. Reset: Sill; DESIGN CHOICE 0. -/
  dscp : Nat
  /-- FAB_IPV6_HI. 64 bits. R232 (10). Reset: Sill; DESIGN CHOICE 0. -/
  ipHi : DWord
  /-- FAB_IPV6_LO. 64 bits. R232 (10). Reset: Sill; DESIGN CHOICE 0. -/
  ipLo : DWord
  /-- FAB_MAC. 48 bits. R232 (10). Reset: Sill; DESIGN CHOICE 0. -/
  mac : Nat
  /-- FAB_NEXTHOP of half 0. 48 bits. R232 (10). Reset: Sill; DESIGN CHOICE 0. -/
  hop0 : Nat
  /-- FAB_NEXTHOP of half 1. 48 bits. R232 (10). Reset: Sill; DESIGN CHOICE 0. -/
  hop1 : Nat
  /-- A FAB_PORT record configured the port. R324 (13). Reset false. -/
  configured : Bool
  /-- FAB_LINK.HALF0_UP. 1 bit. R233 (10). Reset 0. -/
  half0 : Bool
  /-- FAB_LINK.HALF1_UP. 1 bit. R233 (10). Reset 0. -/
  half1 : Bool
  /-- FAB_LINK.PORT_UP. 1 bit. R233 (10). Reset 0. -/
  up : Bool
  /-- FAB_LINK.DOWN_COUNT. 16 bits. R233 (10). Reset 0. -/
  downs : Nat
  /-- RLY_DROP.AUTH. 32 bits, saturating. R238 (10). Reset 0. -/
  dropAuth : Nat
  /-- RLY_DROP.REPLAY. 32 bits, saturating. R238 (10). Reset 0. -/
  dropReplay : Nat
  /-- RLY_DROP.STALE. 32 bits, saturating. R238 (10). Reset 0. -/
  dropStale : Nat
  /-- RLY_DROP.UNKNOWN. 16 bits, saturating. R238 (10). Reset 0. -/
  dropUnknown : Nat
  /-- RLY_DROP.BADFRAME. 16 bits, saturating. R238 (10). Reset 0. -/
  dropBad : Nat
  /-- Counts that the VF's view subtracts: those at the octant's join (auth, replay, stale, unknown, badframe, port down).
  R311 (12). Reset empty. -/
  baseCounts : List Nat
  deriving DecidableEq, Repr

/-- The shared RLY registers (10). -/
structure Rly where
  /-- RLY_UDP_PORT.PORT. 16 bits. R232 (10). Reset: Sill, 50,317 by default. -/
  udpPort : Nat
  /-- RLY_DEADLINE.TICKS by VF. 8 bits. R252 (10). Reset 4. -/
  deadline : Tbl Nat
  /-- RLY_STATUS.FALLBACK by partition. 8 bits. R265 (10). Reset 0. -/
  fallback : BitVec 8
  /-- RLY_GBASE.ADDR. 34 bits. R241 (10). Reset 0. -/
  gbase : Nat
  /-- RLY_GRESULT.REASON. 8 bits. R242 (10). Reset OK. -/
  gresult : Reason
  /-- The MODEL's own: what the Rally engine's HBM accesses meet while a command that carries a line event runs (log 18).
  R189 (08). Reset clean. -/
  lineEv : LineEvent
  deriving DecidableEq, Repr

/-- A member entry of a group (R241). -/
structure Member where
  addr : BitVec 128
  udp : Nat
  party : Option Nat
  deriving DecidableEq, Repr

/-- A Rally packet: the fields of its header but the version and the reserved ones (R235), and its payload in clear. -/
structure Packet where
  typ : Nat
  nonfinite : Bool
  last : Bool
  capDrop : Bool
  epoch : Nat
  group : Nat
  src : Nat
  dst : Nat
  len : Nat
  unreliable : Bool
  psn : Nat
  collSeq : Nat
  step : Nat
  sub : Nat
  dtop : Nat
  chunk : Nat
  offset : Nat
  contrib : Nat
  label : Label
  parties : Label
  lease : Nat
  arg : Nat
  payload : List Byte
  deriving DecidableEq, Repr

/-- A reliable packet as it was sent: it is resent byte for byte (R237). `body` is its ciphertext and its tag. -/
structure Sent where
  pkt : Packet
  body : List Byte
  deriving DecidableEq, Repr

/-- One member pair's transport state (R236 to R240). -/
structure Pair where
  /-- Key epoch. 32 bits. R237 (10). Reset 0 at load. -/
  epoch : Nat
  /-- Pair key of the current epoch. 256 bits. R236, R237 (10). Reset: derived at load. -/
  key : BitVec 256
  /-- Pair key of the next epoch. 256 bits. R237 (10). Reset: derived at load. -/
  keyNext : BitVec 256
  /-- Next reliable PSN to send. 31 bits. R237 (10). Reset 0. -/
  txPsn : Nat
  /-- Next unreliable PSN to send. 31 bits. R237 (10). Reset 0. -/
  txUPsn : Nat
  /-- Reliable packets sent and not acknowledged. R239 (10). Reset empty. -/
  unacked : List Sent
  /-- Packets held back for credit. R239 (10). Reset empty. -/
  held : List Packet
  /-- Units of payload sent. R239 (10). Reset 0. -/
  sent : Nat
  /-- Last CREDIT_LIMIT received. R239 (10). Reset CREDIT_INIT. -/
  credit : Nat
  /-- Reliable PSNs below this one have all arrived. R239 (10). Reset 0. -/
  rxNext : Nat
  /-- Highest reliable PSN received plus 1. R238 (10). Reset 0. -/
  rxHigh : Nat
  /-- Reliable PSNs marked in the replay window. R238 (10). Reset empty. -/
  rxSeen : List Nat
  /-- Highest unreliable PSN received plus 1. R238 (10). Reset 0. -/
  rxUHigh : Nat
  /-- Unreliable PSNs marked. R238 (10). Reset empty. -/
  rxUSeen : List Nat
  /-- Units of payload drained. R240 (10). Reset 0. -/
  drained : Nat
  /-- Units of payload received and not drained. R240 (10). Reset 0. -/
  staged : Nat
  /-- Reliable packets received and not acknowledged. R239 (10). Reset 0. -/
  toAck : Nat
  /-- At least one packet has been received. R254 (10). Reset false. -/
  heard : Bool
  deriving DecidableEq, Repr

/-- A lease held (R262). -/
structure Lease where
  id : Nat
  slots : Nat
  fromSeq : Nat
  ttl : Nat
  lat : Nat
  deriving DecidableEq, Repr

/-- A run of bytes of a chunk that a member holds while a collective runs, with one accounting (R258, R259): its offset in the
chunk, in bytes of DTYPE, and its values, at FP32 width for the floating-point types and as they stand for the others. -/
structure Work where
  off : Nat
  vals : List Byte
  contrib : Nat
  parties : Label
  label : Label
  nonfinite : Bool
  deriving DecidableEq, Repr

/-- One collective of a group in progress (R247, R251). -/
structure Coll where
  seq : Nat
  /-- Last step dispatched. R247 (10). -/
  step : Nat
  /-- The lease on which it runs leased; its chunks keep that lease's size to its end. R263 to R265 (10). -/
  lease : Option Lease
  /-- FALLBACK recorded. R265 (10). -/
  fallback : Bool
  /-- Chunks in which a NaN or an infinity was met. R141, R257 (06, 10). -/
  flagged : List Nat
  /-- THRESHOLD_UNMET so far. R259 (10). -/
  unmet : Bool
  /-- CAPACITY_DROP so far. R268 (10). -/
  capDrop : Bool
  /-- Smallest contributor count. R258 (10). -/
  minContrib : Nat
  /-- Chunks completed. R260 (10). -/
  chunks : Nat
  /-- Label of the reduced result. R285 (11). -/
  label : Label
  /-- Rows received and dropped, by source. R268 (10). -/
  rows : Tbl (Nat × Nat)
  /-- Sources whose LAST packet has come. R267 (10). -/
  seen : List Nat
  /-- The LAST command retired and waits for the other planes. R251 (10). -/
  lastCmd : Option Nat
  /-- First leased chunk to run device-side. R265 (10). -/
  cut : Option Nat
  /-- PLANES of its commands. 8 bits. R251 (10). -/
  planes : Nat
  /-- Leased chunks of the steps dispatched so far. R264 (10). -/
  nextChunk : Nat
  /-- The bytes held of each chunk, in ascending order. R257 (10). -/
  work : Tbl (List Work)
  deriving DecidableEq, Repr

/-- One loaded group: RLY_GSTAT and the descriptor (R241). -/
structure Group where
  /-- LOADED. 1 bit. R242 (10). Reset 0. -/
  loaded : Bool
  /-- GROUP. 16 bits. R241 (10). Reset 0. -/
  id : Nat
  /-- SELF. R241 (10). -/
  self : Nat
  /-- Partition. R241 (10). -/
  vf : Nat
  /-- SWITCH_PERMITTED. R261 (10). -/
  switchOk : Bool
  /-- Payload size in bytes. R241 (10). -/
  payload : Nat
  /-- ADMIT. R281 (11). -/
  admitMask : Label
  /-- K. R259 (10). -/
  k : Nat
  /-- CREDIT_INIT. R239 (10). -/
  creditInit : Nat
  /-- Switch address and port. R241 (10). -/
  switchAddr : BitVec 128
  switchPort : Nat
  /-- Member entries by number. R241 (10). -/
  members : List Member
  /-- The failure: reason and named member. R253 (10). Reset none. -/
  failed : Option (Reason × Nat)
  /-- COLL_SEQ of the last collective completed. 32 bits. R247 (10). Reset 0. -/
  lastSeq : Nat
  /-- Highest COLL_SEQ whose first step dispatched. R247, R263 (10). Reset 0. -/
  lastDisp : Nat
  /-- COORD_OFFSET. 24 bits signed. R244 (10). Reset 0. -/
  offset : Int
  /-- Time at which the coordinator heartbeat was sent. R244 (10). Reset none. -/
  hbSent : Option Nat
  /-- The lease held. R263 (10). Reset none. -/
  lease : Option Lease
  /-- LEASE_REASON. 8 bits. R265 (10). Reset OK. -/
  leaseReason : Reason
  /-- A REQUEST is outstanding. R263 (10). Reset false. -/
  requested : Bool
  /-- ARRIVEs the coordinator holds: (COLL_SEQ, STEP, member). R252 (10). Reset empty. -/
  arrived : List (Nat × Nat × Nat)
  /-- Votes the coordinator holds: (COLL_SEQ, member, GENs, NONFINITE). R149 (06). Reset empty. -/
  votes : List (Nat × Nat × List Word × Bool)
  /-- The decisions held: COLL_SEQ and 0 COMMIT, 1 SKIP or 2 ABORT. R149, R269 (06, 10). Reset empty. -/
  decisions : List (Nat × Nat)
  /-- The COMMIT that has voted and has not retired or faulted: COLL_SEQ and version sets. R147 (06). Reset none. -/
  voting : Option (Nat × BitVec 8)
  /-- The job key from which Porter derives the pair keys. 48 bytes. R236, R342 (10, 14). Reset empty. -/
  jobKey : List Byte
  /-- Transport state by member; 0xFFFF is the switch. R239 (10). Reset empty. -/
  pairs : Tbl Pair
  /-- Collectives in progress. R247 (10). Reset empty. -/
  colls : List Coll
  /-- Outstanding QUERY: (COLL_SEQ, CHUNK, command). R252 (10). Reset none. -/
  query : Option (Nat × Nat × Nat)
  deriving DecidableEq, Repr

/-- Received payload of a step that waits for the rest of its phase, chunk or block (R240, R248). -/
structure Piece where
  phase : Nat
  chunk : Nat
  src : Nat
  off : Nat
  bytes : List Byte
  contrib : Nat
  parties : Label
  label : Label
  nonfinite : Bool
  capDrop : Bool
  last : Bool
  arg : Nat
  deriving DecidableEq, Repr

/-- One chunk that a step works on: its place in the buffers and how far it has come (R247, R264, R267). In an ALL_TO_ALL
step a chunk is the exchange with the destination and the source at one offset. -/
structure RUnit where
  chunk : Nat
  off : Nat
  len : Nat
  leased : Bool
  /-- The phase whose input it waits for. -/
  phase : Nat
  /-- Ranges of the chunk that have been taken in at this phase: offset and length in bytes. -/
  got : List (Nat × Nat)
  done : Bool
  deriving DecidableEq, Repr

/-- A dispatched rally step (R248). -/
structure RStep where
  /-- Its command. R245 (10). -/
  cmd : Nat
  port : Nat
  slot : Nat
  /-- Boundaries left to RLY_DEADLINE. R252 (10). -/
  left : Nat
  /-- DRAINING. R248 (10). -/
  draining : Bool
  /-- Translations resolved at dispatch. R148, R158 (06, 07). -/
  maps : List Mapping
  /-- Its chunks. R247 (10). -/
  units : List RUnit
  /-- Payload received and not yet used. R248 (10). -/
  pieces : List Piece
  /-- The LATE report has been sent; boundaries left until R252 item 4. R252 (10). -/
  lateLeft : Option Nat
  deriving DecidableEq, Repr

/-- What the device sends to the world outside it, newest first (MODEL, log 8). -/
inductive Out where
  | readData (fn : Nat) (value : DWord)
  | readRefused (fn : Nat)
  | msix (fn vector : Nat) (addr : DWord) (data : Word)
  | errFatal
  | aer (fn : Nat) (timeout : Bool)
  | hostBlock (vf win block : Nat) (epoch wseq : Nat) (seq : Option Word) (data : List Byte)
      (writes : List (Nat × List Byte))
  | hostStatus (vf win epoch tick size : Nat) (ring hostWritten : Bool) (admitMask : Label) (addr : Nat)
      (bytes : List Byte)
  | hostRead (vf win block : Nat) (seq : Option Word) (reads : List (Nat × Nat))
  | dumpStream (epoch : Nat) (number : Nat) (d : Dump)
  | packet (port half : Nat) (p : Packet) (frame : List Byte)
  | mailbox (seq : Word) (reason : Reason) (payload : List Byte)
  | spdm (fn : Nat) (code : Nat) (payload : List Byte)
  | spdmError (fn : Nat) (code : Nat) (ext : List Byte)
  | smbus (bytes : List Byte)
  | smbusNack
  | jtag (value : Word)
  | switchSpdm (port : Nat) (payload : List Byte)
  | busData (requester : Nat) (data : List Byte)
  | busError (requester : Nat) (reason : Reason)
  deriving DecidableEq, Repr

/-- The device: everything but the queue of waiting commands. -/
structure Dev where
  /-- One-time programmable fuses. R345 (13). Reset: fused. -/
  fuse : Fuses
  /-- The attached flash. R320 (13). -/
  flash : Flash
  /-- Retention SRAM. R394 (16). -/
  ret : Retention
  /-- The package. R374 (15). -/
  pkg : Pkg
  /-- BLK_CTRL and BLK_STATUS by PF BAR0 offset of the block. R46 (02). -/
  blk : Tbl BlkCtl
  /-- The tick generator. R26 (02). -/
  tck : Tck
  /-- Power, telemetry, Louvre. R402, R315 (16, 12). -/
  pwr : Pwr
  /-- Porter. R318 (13). -/
  ptr : Porter
  /-- Umpire. R351 (14). -/
  ump : Ump
  /-- Partitions by VF. R303 (12). -/
  part : Tbl Part
  /-- Shutter entries by octant. R309 (12). -/
  sht : Tbl ShtOct
  /-- Transom slots by VF: START, END, EN packed as in TRS_SLOT. 64 bits. R301 (11). Reset 0. -/
  slot : Tbl Rwt
  /-- Transom windows by 16v + w. R292 (11). -/
  win : Tbl Win
  /-- Threshold pools by device pool. R287 (11). -/
  pool : Tbl Pool
  /-- Stacks. R160, R177 (07, 08). -/
  stack : Tbl Stack
  /-- HBM regions by 65536s + n. R178 (08). -/
  region : Tbl Region
  /-- Counters of HBM pages by physical page (bits [39:12]). R181 (08). Reset: zero state. -/
  page : Tbl PageCtr
  /-- Plaintext of HBM's protected data by physical address. R154 (07). Reads 0 in the zero state (R181). -/
  hbm : Memory
  /-- The stored form of HBM's data, counters and trees. R180, R184 (08). -/
  cas : CasStore
  /-- Cluster memory by R163 kind-1 address. 4 MiB per cluster. R163 (07). Reset 0 (R309). -/
  cmem : Memory
  /-- Labels of 64 KiB cluster-memory pages, by address / 65536. R277 (11). Reset empty. -/
  cmemLabel : Tbl Label
  /-- Scratchpads by R163 kind-2 address. 128 KiB per core. R163 (07). Reset 0 (R309). -/
  spad : Memory
  /-- Labels of 4 KiB scratchpad pages, by address / 4096. R277 (11). Reset empty. -/
  spadLabel : Tbl Label
  /-- Accumulators by core number × 16384 + offset. 16 KiB per core. R55 (03). Reset 0 (R309). -/
  acc : Memory
  /-- Sequencers by octant. R200 (09). -/
  seq : Tbl Seq
  /-- Contexts by 16o + c. R200 (09). -/
  ctx : Tbl Ctx
  /-- Region tables by (16o + c) × 4096 + index. R156 (07). Reset 0. -/
  rtab : Tbl RegEntry
  /-- Image slots by (16o + c) × 16 + slot. R227 (09). -/
  img : Tbl ImgSlot
  /-- Queues by 32o + q. R205 (09). -/
  queue : Tbl Queue
  /-- Huddle objects by 2048o + n. R217 (09). -/
  obj : Tbl HudObj
  /-- Accepted commands, oldest first. R206 (09). Reset empty. -/
  cmds : List Cmd
  /-- Number of the next command (MODEL, log 7). Reset 0. -/
  nextCmd : Nat
  /-- Signals in transit, oldest first. R220 (09). Reset empty. -/
  signals : List Signal
  /-- Cores by (9o + c) × 64 + k. R52 (03). -/
  core : Tbl Core
  /-- Streams by 2 × core + stream. R52 (03). -/
  stream : Tbl Stream
  /-- CLU blocks by 9o + c. R85 (03). -/
  clu : Tbl Clu
  /-- Relay engines by octant. R167 (07). -/
  rle : Tbl Rle
  /-- Relay transfers. R167 (07). Reset empty. -/
  xfers : List Xfer
  /-- The shared Rally registers. R230 (10). -/
  rly : Rly
  /-- Fabric ports. R230 (10). -/
  port : Tbl Port
  /-- Group slots by 8p + i. R242 (10). -/
  group : Tbl Group
  /-- Rally steps in flight. R248 (10). Reset empty. -/
  steps : List RStep
  /-- DBG_SEL: octant, cluster, core, stream. 14 bits. R425 (17). Reset 0: none given; DESIGN CHOICE 0 (log 4). -/
  dbgSel : Nat
  /-- What has been sent to the outside, newest first (MODEL, log 8). Reset empty. -/
  out : List Out
  /-- Counter of free values taken (MODEL, log 9). Reset 0: DESIGN CHOICE. -/
  free : Nat
  deriving DecidableEq, Repr

/-- The machine: the device and the queue of commands that wait, first in, first out. -/
structure State where
  /-- The device. -/
  dev : Dev
  /-- The waiting commands. Reset empty (MODEL, log 1). -/
  pending : List Instr
  deriving DecidableEq, Repr

/-! The value of each record at reset, which is also what an unlisted key of its table reads as. -/

/-- The fuses at reset: none blown; see log 3. -/
def Fuses.reset : Fuses :=
  { stepping := 1, order := 1, grade64 := false, airLid := false, lcs0 := 0, lcs1 := 0, lcs2 := 0, uds := 0,
    opKey := none, svn := 0 }

/-- The flash at reset: nothing in it; see log 3. -/
def Flash.reset : Flash := { mem := [], trialBegun := false }

def Ring.zero : Ring := { recs := [], producer := 0, consumer := 0, lost := 0 }

def Dump.zero : Dump :=
  { trigger := 0, labelled := false, tick := 0, faultSeq := 0, generation := 0, octants := 0, secs := [], running := 0 }

def Retention.reset : Retention :=
  { cdi0 := 0, generation := 0, alarms := [], domHash := [], domKey := [], treeKey := [], root := [], rng := 0,
    pfRing := Ring.zero, recSeq := 0, dumpKey := 0, dumpCount := 0 }

def MsixEnt.zero : MsixEnt := { addr := 0, data := 0, masked := true }

def FnLog.zero : FnLog := { reason := .ok, fieldId := 0, offset := 0, write := false, count := 0 }

def Pkg.reset : Pkg :=
  { phase := .unpowered, pwrgd := false, perst := true, pwrgdOut := false, halt := false, thermtrip := false,
    cycleReq := false, sysclk := true, sysclkBack := false, config := false, mailbox := false, stackReady := 0,
    octReady := 0, portReady := 0, warmResets := 0, stackFailed := 0, octFailed := 0, portFailed := 0, trainFails := [],
    speed := 0, width := 0, dlUp := false, retrains := 0, linkTrained := false, busMaster := [], memSpace := [],
    vfEnable := false, numVfs := 0, fnLog := [], latch := [], msixSent := [], msixPend := [], msixTab := [], qvec := [] }

def Rwt.of (v : Nat) : Rwt := { live := v, shadow := v }

def BlkCtl.zero : BlkCtl := { enable := false, stopping := false, apply := false, reason := .ok, fieldId := 0 }

def Tck.reset : Tck :=
  { count := 0, units := Rwt.of 4, hold := 0, heldLast := false, heldCount := 0, hottest := none, now := 0, start := 0 }

def Pwr.reset : Pwr :=
  { mode := .steady, live := .steady, accepted := none, switching := false, ramping := false, reverted := false,
    reqReason := .ok, vref := 640, drift := false, refLost := false, railFault := false, rails := [], sensors := [],
    hotSensor := none, hotNow := none, static := 0, diff := 0, driftCount := 0, calTick := 0, calibrating := false,
    measured := 0, fine := false, view := [], lvSum := 0, lvHot := none, lvTicks := 0, lvDone := none, lvLast := 0 }

def Staging.zero : Staging :=
  { isOpen := false, length := 0, staged := false, activated := false, switching := none, d5 := 0, d6 := 0, d7 := 0,
    svn := 0 }

def Charter.zero : Charter :=
  { state := .none, hash := 0, n := 0, k := 0, signers := 0, jointDomain := 0, rallyAdmit := 0, switchPermitted := false,
    hostManagedOk := false, dumpLabelled := false, parties := [], regions := [], windows := [], pools := [],
    approved := 0, withdrawing := [] }

def Porter.reset : Porter :=
  { hostManaged := false, debugOpen := false, lcsAtReset := 0, debugUsed := false, slot := false, unsigned := false,
    fallback := false, identityLost := false, trial := false, sealedBad := 0, silReason := .ok, silField := 0,
    lcsReason := .ok, erased := false, d2 := 0, d3 := 0, d4 := 0, raiseSvn := none, cdi1 := 0, dieKeys := [],
    keysZeroed := false, busy := false, mboxReason := .ok, seqLo := 0, curSeq := 0, discard := false, buf := [],
    stg := Staging.zero, charter := [], loading := none, sess := [],
    heldDoms := [], jobKeys := [], switchSess := [], switchRoots := [], switchMeas := [] }

def Ump.reset : Ump :=
  { limit := Rwt.of 2, vfRing := [], reqReason := .ok, escalations := 0, l0 := [], l1 := [], l2 := 0, l2Wait := [],
    l3Wait := none, auto := false, overwrite := false, dumpOcts := 0, win0 := 0, win1 := 0, win2 := 0, dumpState := 0,
    dumpReason := .ok, truncated := false, skipped := 0, dumpNo := 0, dump := Dump.zero, exported := false, exporting := 0,
    exportSess := 0, alert := 0,
    cycleCause := 0, tripSensor := 0, tripTemp := 0, faultSel := 0, stageReason := .ok, stageBusy := false,
    resetResult := .ok }

def Part.zero : Part :=
  { octants := 0, kdBase := 0, kdCount := 0, zeroFill := false, en := false, live := false, releasing := false,
    rotating := [], keyRange := [] }

/-- SHT_OCT at reset: SCRUBBING (Reset column of SHT_OCT). -/
def ShtOct.reset : ShtOct :=
  { state := .scrubbing, owned := false, vf := 0, reason := .ok, doneTick := 0, zeroFill := false, oldVf := none }

def Win.zero : Win :=
  { dataBase := 0, recordBase := 0, size := 0, ring := false, hostWritten := false, party := 0, partyValid := false,
    admitMask := 0, session := 0, en := false, live := false, ended := false, epoch := 0, rearm := false, authFail := 0, authBase := 0,
    written := [], secret := 0, statusDue := false }

def Pool.zero : Pool :=
  { octant := 0, cluster := 0, page := 0, count := 0, vf := 0, en := false, state := .idle, unmet := false,
    nonfinite := false, parties := 0, contrib := 0, label := 0 }

def Region.zero : Region := { domain := none, initPending := false, label := 0, undef := 0 }

def PageCtr.zero : PageCtr := { major := 0, minors := [] }

def Sealed.zero : Sealed := { key := none, major := 0, minor := 0, cipher := [], tag := 0 }

def CasStore.zero : CasStore := { line := [], ctr := [], node := [], tree := [], mirror := [] }

def Stack.reset : Stack :=
  { corrected := 0, uncorrectable := 0, patrolPasses := 0, patrolPos := 0, eccLine := 0, eccSource := 0, eccTick := 0,
    alarmMs := 1000, inited := false, rootValid := false, cache := [], pinAll := false,
    pins := [], pinDirty := [], tagFail := 0, treeRepaired := 0, taglineLost := 0, bumps := 0,
    errLine := 0, errKind := 0, errTick := 0, baseCounts := [], eccNew := false, errNew := false }

def RegEntry.zero : RegEntry := { w0 := 0, w1 := 0 }

def ImgSlot.zero : ImgSlot :=
  { used := false, mask := 0, offset := 0, length := 0, signed := false, signers := [], regNo := 0, releasing := false }

def Ctx.zero : Ctx :=
  { state := .free, lastReason := .ok, seed := 0, nfObj := 0, stopMode := .none, overruns := 0, suspended := false }

def Queue.zero : Queue :=
  { bound := false, ctx := 0, transom := false, n := 0, m := 0, inFlightMax := 0, cmdBase := 0, cplBase := 0,
    producer := 0, consumer := 0, fetch := 0, fetchFrom := 0, cplProducer := 0, stopped := none, fails := [], fenceFrom := 0, failStop := none,
    wseqCmd := 0, wseqCpl := 0, cplBlock := [] }

def HudObj.zero : HudObj :=
  { value := 0, configured := false, error := false, errReason := .ok, owner := 0, producer := none, deadline := 0 }

def Seq.zero : Seq :=
  { planBase := Rwt.of 0, plan := none, withdrawn := false, cycleTick := 0, started := [], mgmtBuf := [], mgmtReason := .ok,
    mgmt := .none, mgmtMbox := false, active := 0, voted := 0, pendFlip := 0, flips := 0, gen := [], flipCmds := [],
    lastReg := 0 }

def Rle.reset : Rle := { deadline := Rwt.of 8, seq0 := 0, seq1 := 0, stale0 := 0, stale1 := 0, baseCounts := [] }

def Stream.zero : Stream :=
  { live := false, part := false, pc := 0, sreg := [], slabel := [], pred := [], plabel := [], tile := [], tlabel := [],
    scale := [], sclabel := [], ctl := 0, chain := [], ran := false, rowPos := 0, colPos := 0, rowLabel := 0,
    colLabel := 0, tickHi := none, lastIssue := none, busy := [], loads := [], wait := .none, halted := false }

def RowState.zero : RowState := { m := 0, l := 0, a := 0, nonfinite := false, empty := false }

def Core.zero : Core :=
  { item := none, ctx := none, icacheId := none, icache := [], accLabel := [], rows := [], rowLabel := [],
    mma := none, mmaFree := 0, mmaTile := 0, vec := [], vecFree := 0, ldFree := 0, stFree := 0, log := [], skips := 0,
    skipsTick := 0, overflow := false, limit := 64 }

/-- CLU at reset: CLU_SKIP_LIMIT 64 (its Reset column). -/
def Clu.reset : Clu := { limit := Rwt.of 64, sel := 0 }

def Port.reset : Port :=
  { rally := false, pmd := 0, tagEn := false, vid := 0, pcp := 0, dscp := 0, ipHi := 0, ipLo := 0, mac := 0, hop0 := 0,
    hop1 := 0, configured := false, half0 := false, half1 := false, up := false, downs := 0, dropAuth := 0,
    dropReplay := 0, dropStale := 0, dropUnknown := 0, dropBad := 0, baseCounts := [] }

def Rly.reset : Rly := { udpPort := 50317, deadline := [], fallback := 0, gbase := 0, gresult := .ok, lineEv := .clean }

def Pair.zero : Pair :=
  { epoch := 0, key := 0, keyNext := 0, txPsn := 0, txUPsn := 0, unacked := [], held := [], sent := 0, credit := 0,
    rxNext := 0, rxHigh := 0, rxSeen := [], rxUHigh := 0, rxUSeen := [], drained := 0, staged := 0, toAck := 0,
    heard := false }

def Group.zero : Group :=
  { loaded := false, id := 0, self := 0, vf := 0, switchOk := false, payload := 4096, admitMask := 0, k := 0,
    creditInit := 0, switchAddr := 0, switchPort := 0, members := [], failed := none, lastSeq := 0, lastDisp := 0,
    offset := 0, hbSent := none, lease := none, leaseReason := .ok, requested := false, arrived := [], votes := [],
    decisions := [], voting := none, jobKey := [], pairs := [], colls := [], query := none }

/-- The device before its power comes: every register at the value its Reset column gives, fuses and flash as log 3
says, stores as the power-on scrub and initialisation leave them (R194, R309). -/
def Dev.reset : Dev :=
  { fuse := Fuses.reset, flash := Flash.reset, ret := Retention.reset, pkg := Pkg.reset, blk := [], tck := Tck.reset,
    pwr := Pwr.reset, ptr := Porter.reset, ump := Ump.reset, part := [], sht := [], slot := [], win := [], pool := [],
    stack := [], region := [], page := [], hbm := [], cas := CasStore.zero, cmem := [], cmemLabel := [], spad := [], spadLabel := [],
    acc := [], seq := [], ctx := [], rtab := [], img := [], queue := [], obj := [], cmds := [], nextCmd := 0,
    signals := [], core := [], stream := [], clu := [], rle := [], xfers := [], rly := Rly.reset, port := [],
    group := [], steps := [], dbgSel := 0, out := [], free := 0 }

/-- The machine right after reset: the device before its power comes, no command waiting. -/
def State.reset : State := { dev := Dev.reset, pending := [] }

end Sys2Proof.Machine
end

