-- ==== Sys2Proof/Machine/Bits.lean ====
section
/-!
DEFINITION. Bit fields, sign extension, byte order and the sparse tables: the helpers that every meaning uses.
-/
namespace Sys2Proof.Machine

/-! ## Bit fields of a natural number -/

/-- Bits [lo + w - 1 : lo] of a number. -/
def bits (x lo w : Nat) : Nat := x / 2 ^ lo % 2 ^ w

/-- Bit i of a number. -/
def bitAt (x i : Nat) : Bool := x / 2 ^ i % 2 == 1

/-- A number with a bit set or cleared. -/
def withBit (x i : Nat) (b : Bool) : Nat :=
  if bitAt x i = b then x else if b then x + 2 ^ i else x - 2 ^ i

/-- A Boolean as 0 or 1. -/
def b2n (b : Bool) : Nat := if b then 1 else 0

/-- A w-bit two's-complement field as an integer. -/
def signed (w x : Nat) : Int := if x % 2 ^ w < 2 ^ (w - 1) then (x % 2 ^ w : Nat) else ((x % 2 ^ w : Nat) : Int) - 2 ^ w

/-- An integer as a w-bit two's-complement field. -/
def unsigned (w : Nat) (x : Int) : Nat := (x % (2 ^ w : Nat)).toNat

/-- Bit i of an 8-bit set. -/
def has8 (s : BitVec 8) (i : Nat) : Bool := s.getLsbD i

/-- An 8-bit set with bit i set. -/
def set8 (s : BitVec 8) (i : Nat) : BitVec 8 := s ||| BitVec.ofNat 8 (2 ^ i)

/-- An 8-bit set with bit i cleared. -/
def clr8 (s : BitVec 8) (i : Nat) : BitVec 8 := s &&& ~~~ BitVec.ofNat 8 (2 ^ i)

/-- The members of an 8-bit set, ascending. -/
def members8 (s : BitVec 8) : List Nat := (List.range 8).filter (has8 s)

/-- A saturating count. -/
def satAdd (cap a b : Nat) : Nat := min cap (a + b)

/-! ## Byte order -/

/-- The number that bytes spell, the first the least significant (R6). -/
def leNat : List Byte → Nat
  | [] => 0
  | b :: t => b.toNat + 256 * leNat t

/-- n bytes of a number, the least significant first (R6). -/
def natLe : Nat → Nat → List Byte
  | 0, _ => []
  | n + 1, x => BitVec.ofNat 8 x :: natLe n (x / 256)

/-- The number that bytes spell in network order (R6). -/
def beNat (l : List Byte) : Nat := leNat l.reverse

/-- n bytes of a number in network order (R6). -/
def natBe (n x : Nat) : List Byte := (natLe n x).reverse

/-- Bytes [off, off + n) of a list; bytes beyond its end count as 0. -/
def slice (l : List Byte) (off n : Nat) : List Byte :=
  let s := (l.drop off).take n
  s ++ List.replicate (n - s.length) 0

/-- The little-endian field of n bytes at an offset (R6). -/
def field (l : List Byte) (off n : Nat) : Nat := leNat (slice l off n)

/-- Byte at an offset, 0 beyond the end. -/
def byteAt (l : List Byte) (off : Nat) : Nat := (l.getD off 0).toNat

/-- Whether every byte is zero. -/
def allZero (l : List Byte) : Bool := l.all (· == 0)

/-- The bytes of an ASCII string. -/
def ascii (s : String) : List Byte := s.toList.map fun c => BitVec.ofNat 8 c.toNat

/-! ## Sparse tables -/

/-- What a table holds at a key. -/
def look {α : Type} (d : α) (k : Nat) : Tbl α → α
  | [] => d
  | (k', v) :: t => if k' = k then v else look d k t

/-- A table with an entry placed at its key. -/
def place {α : Type} (k : Nat) (v : α) : Tbl α → Tbl α
  | [] => [(k, v)]
  | (k', v') :: t =>
    if k < k' then (k, v) :: (k', v') :: t
    else if k = k' then (k, v) :: t
    else (k', v') :: place k v t

/-- A table without a key. -/
def erase {α : Type} (k : Nat) (t : Tbl α) : Tbl α := t.filter fun e => e.1 != k

/-- A table with a key's value changed, in canonical form: a value equal to the default is not listed. -/
def put {α : Type} [DecidableEq α] (d : α) (k : Nat) (v : α) (t : Tbl α) : Tbl α :=
  if v = d then erase k t else place k v t

/-- A table with a key's value changed by a function. -/
def alter {α : Type} [DecidableEq α] (d : α) (k : Nat) (f : α → α) (t : Tbl α) : Tbl α :=
  put d k (f (look d k t)) t

/-- A table with the keys of a range dropped (each then reads as the default). -/
def dropRange {α : Type} (lo hi : Nat) (t : Tbl α) : Tbl α := t.filter fun e => e.1 < lo || hi ≤ e.1

/-- A table in canonical form: keys strictly rising, no entry equal to the default. -/
def Tbl.wf {α : Type} [DecidableEq α] (d : α) : Tbl α → Bool
  | [] => true
  | [(_, v)] => v != d
  | (k, v) :: (k', v') :: t => v != d && k < k' && Tbl.wf d ((k', v') :: t)

/-! ## Memories -/

/-- The byte at an address. -/
def readByte (m : Memory) (a : Nat) : Byte := look 0 a m

/-- A memory with the byte at an address changed. -/
def writeByte (m : Memory) (a : Nat) (b : Byte) : Memory := put 0 a b m

/-- n bytes from an address. -/
def readBytes (m : Memory) (a n : Nat) : List Byte := (List.range n).map fun i => readByte m (a + i)

/-- A memory with bytes written from an address. -/
def writeBytes (m : Memory) (a : Nat) : List Byte → Memory
  | [] => m
  | b :: t => writeBytes (writeByte m a b) (a + 1) t

/-- A memory with a range of addresses zeroed. -/
def zeroRange (m : Memory) (lo hi : Nat) : Memory := dropRange lo hi m

/-- The canonical form of a memory. -/
abbrev Memory.wf (m : Memory) : Prop := Tbl.wf (0 : Byte) m = true

end Sys2Proof.Machine
end

