-- ==== Sys2Proof/Machine/Float.lean ====
section
/-!
DEFINITION. Floating-point values as exact numbers: the operand formats of R92 and R114, exact sums and products, the one
rounding to nearest even, and the special functions within the bounds of R113.
-/
namespace Sys2Proof.Machine

/-- A floating-point value: a NaN, an infinity, or (-1)^neg × m × 2^e exactly. -/
inductive Fp where
  | nan
  | inf (neg : Bool)
  | fin (neg : Bool) (m : Nat) (e : Int)
  deriving DecidableEq, Repr

/-- What a format's largest exponent field encodes: nothing special, a NaN only when the mantissa is all ones too, or
infinities and NaNs as IEEE 754 has them (R96). -/
inductive FpSpecials where
  | none | nanOnly | ieee
  deriving DecidableEq, Repr

/-- A binary format: exponent bits, mantissa bits, bias, specials. -/
structure FpFmt where
  eb : Nat
  mb : Nat
  bias : Nat
  sp : FpSpecials
  deriving DecidableEq, Repr

def fp32 : FpFmt := ⟨8, 23, 127, .ieee⟩
def bf16 : FpFmt := ⟨8, 7, 127, .ieee⟩
def fp16 : FpFmt := ⟨5, 10, 15, .ieee⟩
def e4m3 : FpFmt := ⟨4, 3, 7, .nanOnly⟩
def e5m2 : FpFmt := ⟨5, 2, 15, .ieee⟩
def e2m3 : FpFmt := ⟨2, 3, 1, .none⟩
def e3m2 : FpFmt := ⟨3, 2, 3, .none⟩
def e2m1 : FpFmt := ⟨2, 1, 1, .none⟩

/-- The canonical FP32 quiet NaN (R97, R113). -/
def nan32 : Word := 0x7FC00000

/-- The value that an encoding stands for (R96). -/
def fpDecode (f : FpFmt) (x : Nat) : Fp :=
  let neg := bitAt x (f.eb + f.mb)
  let ex := bits x f.mb f.eb
  let man := bits x 0 f.mb
  let top := 2 ^ f.eb - 1
  if f.sp = .ieee ∧ ex = top then if man = 0 then .inf neg else .nan
  else if f.sp = .nanOnly ∧ ex = top ∧ man = 2 ^ f.mb - 1 then .nan
  else if ex = 0 then .fin neg man (1 - (f.bias : Int) - f.mb)
  else .fin neg (2 ^ f.mb + man) ((ex : Int) - f.bias - f.mb)

/-- The largest finite magnitude of a format, as its encoding without the sign (R96). -/
def fpMaxBits (f : FpFmt) : Nat :=
  match f.sp with
  | .none => 2 ^ (f.eb + f.mb) - 1
  | .nanOnly => 2 ^ (f.eb + f.mb) - 2
  | .ieee => (2 ^ f.eb - 1) * 2 ^ f.mb - 1

/-- m × 2^-s rounded to nearest, ties to even. -/
def shiftRne (m s : Nat) : Nat :=
  let q := m / 2 ^ s
  let r := m % 2 ^ s
  if 2 * r > 2 ^ s ∨ (2 * r = 2 ^ s ∧ q % 2 = 1) then q + 1 else q

/-- The encoding, without the sign, of m × 2^e rounded to nearest even in a format whose exponent is unbounded above;
a result above fpMaxBits has overflowed. -/
def fpRoundMag (f : FpFmt) (m : Nat) (e : Int) : Nat :=
  if m = 0 then 0
  else
    let emin : Int := 1 - (f.bias : Int) - f.mb
    let q := max emin (e + Nat.log2 m - f.mb)
    let k := if q ≤ e then m * 2 ^ (e - q).toNat else shiftRne m (q - e).toNat
    (q - emin).toNat * 2 ^ f.mb + k

/-- A value rounded once to FP32: beyond the range it becomes an infinity, every NaN is canonical (R95, R113). -/
def toFp32 (x : Fp) : Word :=
  match x with
  | .nan => nan32
  | .inf neg => if neg then 0xFF800000 else 0x7F800000
  | .fin neg m e =>
    let b := fpRoundMag fp32 m e
    let b := if b > fpMaxBits fp32 then 0x7F800000 else b
    BitVec.ofNat 32 (b + if neg then 2 ^ 31 else 0)

/-- The value of an FP32 word. -/
def ofFp32 (w : Word) : Fp := fpDecode fp32 w.toNat

def fpNeg : Fp → Fp
  | .nan => .nan
  | .inf n => .inf (!n)
  | .fin n m e => .fin (!n) m e

/-- An exact signed number n × 2^e as a value; a zero takes the sign given. -/
def fpOfInt (n : Int) (e : Int) (zeroNeg : Bool) : Fp :=
  if n = 0 then .fin zeroNeg 0 e else .fin (n < 0) n.natAbs e

/-- The signed mantissa of a finite value at an exponent not above its own. -/
def fpAlign (neg : Bool) (m : Nat) (e target : Int) : Int :=
  let v : Int := (m * 2 ^ (e - target).toNat : Nat)
  if neg then -v else v

/-- The exact sum. An exact zero is negative only when both operands are negative zeros. -/
def fpAdd : Fp → Fp → Fp
  | .nan, _ => .nan
  | _, .nan => .nan
  | .inf a, .inf b => if a = b then .inf a else .nan
  | .inf a, .fin .. => .inf a
  | .fin .., .inf b => .inf b
  | .fin n1 m1 e1, .fin n2 m2 e2 =>
    let e := min e1 e2
    fpOfInt (fpAlign n1 m1 e1 e + fpAlign n2 m2 e2 e) e (n1 && n2)

/-- The exact product. -/
def fpMul : Fp → Fp → Fp
  | .nan, _ => .nan
  | _, .nan => .nan
  | .inf a, .inf b => .inf (a != b)
  | .inf a, .fin b m _ => if m = 0 then .nan else .inf (a != b)
  | .fin a m _, .inf b => if m = 0 then .nan else .inf (a != b)
  | .fin a m e, .fin b m' e' => .fin (a != b) (m * m') (e + e')

/-- A finite value times 2^k. -/
def fpScale (k : Int) : Fp → Fp
  | .fin n m e => .fin n m (e + k)
  | x => x

def fpIsNan (x : Fp) : Bool := x == .nan
def fpIsZero : Fp → Bool
  | .fin _ m _ => m == 0
  | _ => false

/-- NaN or an infinity. -/
def fpNonFinite : Fp → Bool
  | .fin .. => false
  | _ => true

/-- An FP32 word that is NaN or an infinity. -/
def nonFinite32 (w : Word) : Bool := bits w.toNat 23 8 == 255

def isNan32 (w : Word) : Bool := nonFinite32 w && bits w.toNat 0 23 != 0

/-- Order of FP32 words that are not NaN, with -0 below +0 (R113). -/
def fpKey (w : Word) : Int := if bitAt w.toNat 31 then -(bits w.toNat 0 31 : Nat) - 1 else (bits w.toNat 0 31 : Nat)

def add32 (a b : Word) : Word := toFp32 (fpAdd (ofFp32 a) (ofFp32 b))
def sub32 (a b : Word) : Word := toFp32 (fpAdd (ofFp32 a) (fpNeg (ofFp32 b)))
def mul32 (a b : Word) : Word := toFp32 (fpMul (ofFp32 a) (ofFp32 b))

/-- x × y + b with one rounding. -/
def fma32 (x y b : Word) : Word := toFp32 (fpAdd (fpMul (ofFp32 x) (ofFp32 y)) (ofFp32 b))

def max32 (a b : Word) : Word := if isNan32 a || isNan32 b then nan32 else if fpKey a < fpKey b then b else a
def min32 (a b : Word) : Word := if isNan32 a || isNan32 b then nan32 else if fpKey b < fpKey a then b else a

/-- IEEE equality of FP32 words: NaN equals nothing and the two zeros are equal. -/
def eq32 (a b : Word) : Bool :=
  !isNan32 a && !isNan32 b && (a == b || (bits a.toNat 0 31 == 0 && bits b.toNat 0 31 == 0))

/-! ## Narrowing (R114) -/

/-- An FP32 value narrowed to a format. Overflow and infinities become the format's infinity, or its signed NaN where it
has no infinity, or with `sat` the largest finite value. -/
def fpNarrow (f : FpFmt) (nanBits : Nat) (sat : Bool) (w : Word) : Nat :=
  let s := 2 ^ (f.eb + f.mb)
  let ovf (neg : Bool) : Nat :=
    (if sat then fpMaxBits f else if f.sp = .none then fpMaxBits f else fpMaxBits f + 1) + (if neg then s else 0)
  match ofFp32 w with
  | .nan => nanBits
  | .inf neg => ovf neg
  | .fin neg m e =>
    let b := fpRoundMag f m e
    if b > fpMaxBits f then ovf neg else b + (if neg then s else 0)

/-! ## Special functions (R113) -/

/-- Exact comparison a × 2^ea ≤ b × 2^eb of signed numbers. -/
def dyLe (a ea b eb : Int) : Bool :=
  let e := min ea eb
  a * 2 ^ (ea - e).toNat ≤ b * 2 ^ (eb - e).toNat

/-- The exponent of one unit in the last place of an FP32 word. -/
def ulpExp (w : Word) : Int := max 1 (bits w.toNat 23 8 : Nat) - 150

/-- Signed mantissa of a finite FP32 word at its ulp exponent. -/
def mant32 (w : Word) : Int :=
  match ofFp32 w with
  | .fin n m _ => if n then -(m : Int) else m
  | _ => 0

/-- A finite word within k ulp of the number n × 2^e. -/
def withinUlp (k : Nat) (w : Word) (n e : Int) : Bool :=
  !nonFinite32 w && dyLe (mant32 w - k) (ulpExp w) n e && dyLe n e (mant32 w + k) (ulpExp w)

/-- The candidate when it is within k ulp of n × 2^e, else the nearest FP32 value. An overflowed result is an infinity. -/
def boundedChoice (k : Nat) (cand : Word) (n e : Int) : Word :=
  let near := toFp32 (fpOfInt n e false)
  if nonFinite32 near then near else if withinUlp k cand n e then cand else near

/-- ln 2 × 2^120. -/
def ln2Fixed : Nat := 921350637599661305226344307672478454

/-- Sum of y^k / k! for k from n down, in units of 2^-120, by Horner's rule. -/
def expSeries (y : Nat) : Nat → Nat → Nat
  | 0, s => s
  | n + 1, s => expSeries y n (2 ^ 120 + y * s / 2 ^ 120 / (n + 1))

/-- 2^f × 2^120 for f × 2^120 in [0, 2^120), to better than 2^-90. -/
def exp2Frac (f : Nat) : Nat := expSeries (f * ln2Fixed / 2 ^ 120) 40 (2 ^ 120)

/-- EXP2: the defined cases, else the core's choice within 2 ulp. -/
def exp2Fn (w : Word) : Word :=
  match ofFp32 w with
  | .nan => nan32
  | .inf neg => if neg then 0 else 0x7F800000
  | .fin neg m e =>
    if m = 0 then 0x3F800000
    else
      let x : Int := fpAlign neg m e (-149)
      if x ≥ 128 * 2 ^ 149 then 0x7F800000
      else if x < -150 * 2 ^ 149 then 0
      else
        let i := x / 2 ^ 149
        let f := (x % 2 ^ 149).toNat / 2 ^ 29
        boundedChoice 2 (Config.exp2 w) (exp2Frac f) (i - 120)

/-- Bits of log2 of y × 2^-160 in [1, 2), most significant first, by repeated squaring. -/
def log2Bits : Nat → Nat → Nat → Nat
  | 0, _, acc => acc
  | n + 1, y, acc =>
    let y := y * y / 2 ^ 160
    if y ≥ 2 ^ 161 then log2Bits n (y / 2) (2 * acc + 1) else log2Bits n y (2 * acc)

/-- LOG2: the defined cases, else the core's choice within 2 ulp. -/
def log2Fn (w : Word) : Word :=
  match ofFp32 w with
  | .nan => nan32
  | .inf neg => if neg then nan32 else 0x7F800000
  | .fin neg m e =>
    if m = 0 then 0xFF800000
    else if neg then nan32
    else if w = 0x3F800000 then 0
    else
      let l := Nat.log2 m
      let n : Int := (e + l) * 2 ^ 120 + (log2Bits 120 (m * 2 ^ (160 - l)) 0 : Nat)
      boundedChoice 2 (Config.log2 w) n (-120)

/-- RCP: the defined cases, else the core's choice within 1 ulp. -/
def rcpFn (w : Word) : Word :=
  match ofFp32 w with
  | .nan => nan32
  | .inf neg => if neg then 0x80000000 else 0
  | .fin neg m e =>
    if m = 0 then (if neg then 0xFF800000 else 0x7F800000)
    else
      let q : Int := (2 ^ 200 / m : Nat)
      boundedChoice 1 (Config.rcp w) (if neg then -q else q) (-200 - e)

/-- The integer square root, from bit b - 1 down. -/
def isqrtGo (n : Nat) : Nat → Nat → Nat
  | 0, r => r
  | b + 1, r => if (r + 2 ^ b) * (r + 2 ^ b) ≤ n then isqrtGo n b (r + 2 ^ b) else isqrtGo n b r

/-- RSQRT: the defined cases, else the core's choice within 2 ulp. -/
def rsqrtFn (w : Word) : Word :=
  match ofFp32 w with
  | .nan => nan32
  | .inf neg => if neg then nan32 else 0
  | .fin neg m e =>
    if m = 0 then (if neg then 0xFF800000 else 0x7F800000)
    else if neg then nan32
    else
      let m' := if e % 2 = 0 then m else 2 * m
      let e' := if e % 2 = 0 then e else e - 1
      boundedChoice 2 (Config.rsqrt w) (isqrtGo (2 ^ 300 / m') 151 0 : Nat) (-150 - e' / 2)

end Sys2Proof.Machine
end

