-- ==== Sys2Proof/Machine/Flags.lean ====
section
/-!
DEFINITION. Codes and flags: reason codes, modes and states as registers and records carry them, and the label algebra.
-/
namespace Sys2Proof.Machine

/-- The 8-bit value of a reason (R426). -/
def reasonCode : Reason → Nat
  | .ok => 0x00 | .fieldRange => 0x01 | .fieldConflict => 0x02 | .lockedWhileEnabled => 0x03 | .notReady => 0x04
  | .engineAbsent => 0x05 | .notOwner => 0x06 | .labelDenied => 0x07 | .thresholdUnmet => 0x08
  | .lifecycleDenied => 0x09 | .secretsPresent => 0x0A | .busyUpdate => 0x0B | .tickOverrun => 0x0C
  | .waitTimeout => 0x0D | .deadlock => 0x0E | .memberLate => 0x0F | .memberLost => 0x10 | .leaseRefused => 0x11
  | .integrityFail => 0x12 | .metadataFail => 0x13 | .illegalSlot => 0x14 | .inconsistentBundle => 0x15
  | .nonfinite => 0x16 | .capacityDrop => 0x17 | .staleData => 0x18 | .hungUnit => 0x19 | .modeMismatch => 0x1A
  | .unsignedCode => 0x1B | .leaseExpired => 0x1C | .waitDeadline => 0x1D | .charterMismatch => 0x1E
  | .portDown => 0x1F | .scrubPending => 0x20 | .hostStall => 0x21 | .poisoned => 0x22

/-- The reason that an 8-bit value carried by a packet names (R252: MEMBER_LATE in an ABORT). -/
def reasonOfCode (n : Nat) : Reason :=
  if n = 0x0F then .memberLate else if n = 0x10 then .memberLost else if n = 0x1F then .portDown else .memberLate

/-- Power mode codes (GLB_MODE.MODE). -/
def modeCode : PowerMode → Nat
  | .open => 0 | .draft => 1 | .steady => 2

/-- The mode a code names, if any. -/
def modeOf : Nat → Option PowerMode
  | 0 => some .open | 1 => some .draft | 2 => some .steady | _ => none

/-- The envelope of a mode in W (R399). -/
def envelope : PowerMode → Nat
  | .open => 1500 | .draft => 1000 | .steady => 700

/-- The Pane rail voltage of a mode in mV (R399). -/
def modeMv : PowerMode → Nat
  | .open => 780 | .draft => 720 | .steady => 640

/-- One arithmetic clock of a mode in units of 1/10296 ns (R22). -/
def clockUnits : PowerMode → Nat
  | .open => 9360 | .draft => 11440 | .steady => 15840

/-- Completion record STATE (R212). -/
def endCode : EndState → Nat
  | .done => 3 | .faulted => 4 | .notRun => 5

/-- SEQ_CTX.STATE. -/
def ctxCode : CtxState → Nat
  | .free => 0 | .stopped => 1 | .running => 2 | .faulted => 3

/-- SHT_OCT.STATE. -/
def octCode : OctState → Nat
  | .clean => 0 | .scrubbing => 1 | .zeroFilling => 2 | .failed => 3

/-- LBL_PART.STATE. -/
def charterCode : CharterState → Nat
  | .none => 0 | .pending => 1 | .active => 2 | .withdrawn => 3

/-- LBL_POOL_STAT.STATE. -/
def poolCode : PoolState → Nat
  | .idle => 0 | .open => 1 | .closed => 2

/-- Index of a function: 0 the PF, 1 + v for VF v. -/
def fnIx : Fn → Nat
  | .pf => 0
  | .vf v => 1 + v.val

/-- Identifier of a register field: word offset and position (R423). -/
def fieldIdOf (offset pos : Nat) : Nat := offset / 8 + 8192 * min pos 7

/-! ## Labels (R277) -/

/-- A label is admitted by a mask when no bit of it lies outside the mask. -/
def admitted (l mask : Label) : Bool := l &&& ~~~ mask == 0

/-- The number of parties in a label. -/
def parties (l : Label) : Nat := (List.range 16).foldl (fun n i => n + b2n (l.getLsbD i)) 0

/-- The label with the single bit of a party. -/
def partyBit (n : Nat) : Label := BitVec.ofNat 16 (2 ^ n)

/-- The on-die mask of n parties (R281): bit n for each party. -/
def onDieMask (n : Nat) : Label := BitVec.ofNat 16 (2 ^ n - 1)

/-- The union of labels. -/
def unionAll (l : List Label) : Label := l.foldl (· ||| ·) 0

/-- The reason a DONE command carries when several statuses apply (R427). -/
def doneReason (nonfinite unmet capDrop : Bool) : Reason :=
  if nonfinite then .nonfinite else if unmet then .thresholdUnmet else if capDrop then .capacityDrop else .ok

end Sys2Proof.Machine
end

