-- ==== Sys2Proof/Machine/Ops.lean ====
section
/-!
DEFINITION. The named operations that the meanings share: time, ownership, the drop log, interrupts, fault records,
commands, signals and waits, and the kill of a context.
-/
namespace Sys2Proof.Machine

/-! ## Time (R428) -/

/-- Units of exact time per ns. -/
def nsUnits : Nat := 10296

/-- Length of the current tick (R27, R50). -/
def tickUnits (d : Dev) : Nat := d.tck.units.live * 16000 * 1287 * (8 + d.tck.hold)

/-- Exact time of an offset of the tick in 10 ns units, stretched by the hold (R50, R428). -/
def offsetUnits (d : Dev) (off : Nat) : Nat := 12870 * (8 + d.tck.hold) * off

/-- Whole ns since the tick's boundary (R428). -/
def offsetNs (d : Dev) : Nat := (d.tck.now - d.tck.start) / nsUnits

/-- Time moves forward to a moment, never back. -/
def advanceTo (t : Nat) (d : Dev) : Dev := { d with tck := { d.tck with now := max d.tck.now t } }

/-- The first clock of a block at or after an exact time, less than one arithmetic clock later (R428, log 85). -/
def clockAt (d : Dev) (t : Nat) : Nat := t + Config.clockLag t % clockUnits d.pwr.mode

/-- The block idles: one arithmetic clock of the running mode passes (log 1). -/
def idle (d : Dev) : Dev := { d with tck := { d.tck with now := d.tck.now + clockUnits d.pwr.mode } }

/-- Low 32 bits of TCK_COUNT. -/
def tickLo (d : Dev) : Nat := d.tck.count % 2 ^ 32

/-! ## Where things stand -/

/-- In service: powered, booted, and not held by L3, lockdown, a trip or L4. -/
def live (d : Dev) : Bool := d.pkg.phase == .running

/-- A meaning that acts only while the device is in service; otherwise nothing happens (log 2). -/
def whenLive (f : Dev → Dev) (d : Dev) : Dev := if live d then f d else d

/-- A meaning that acts only when its guard holds; otherwise the event has not occurred and nothing happens (log 2). -/
def guarded (b : Bool) (f : Dev → Dev) (d : Dev) : Dev := if b then f d else d

/-- A function exists for the host: the PF once configuration space is released, a VF while VF Enable is set and NumVFs
covers it (R375, R379, R387). -/
def fnPresent (d : Dev) (f : Fn) : Bool :=
  d.pkg.config && d.pkg.dlUp && (match f with
    | .pf => true
    | .vf v => d.pkg.vfEnable && v.val < d.pkg.numVfs)

/-- The BARs of a function answer: the function is present, its Memory Space Enable is set, and the device is neither in L3
nor in lockdown (R380, R385). Otherwise a request completes as Unsupported Request and changes nothing. -/
def barAnswers (d : Dev) (f : Fn) : Bool :=
  (d.pkg.phase == .running || d.pkg.phase == .recovery) && fnPresent d f &&
    look false (match f with | .pf => 0 | .vf v => 1 + v.val) d.pkg.memSpace

/-- A host access that reaches the register map through a function's BARs. -/
def whenBar (f : Fn) (g : Dev → Dev) (d : Dev) : Dev := if barAnswers d f then g d else d

/-- A command of a host function or of Porter's firmware, which runs only in service. -/
def whenIssuer (i : Issuer) (g : Dev → Dev) (d : Dev) : Dev :=
  match i with
  | .host f => whenBar f g d
  | .porter => whenLive g d

/-- The cluster is present in this grade (R2). -/
def clusterPresent (d : Dev) (c : Nat) : Bool := c < 8 || (c == 8 && !d.fuse.grade64)

def getPart (d : Dev) (v : Nat) : Part := look Part.zero v d.part
def getSht (d : Dev) (o : Nat) : ShtOct := look ShtOct.reset o d.sht
def getCtx (d : Dev) (o c : Nat) : Ctx := look Ctx.zero (16 * o + c) d.ctx
def getQueue (d : Dev) (o q : Nat) : Queue := look Queue.zero (32 * o + q) d.queue
def getObj (d : Dev) (o n : Nat) : HudObj := look HudObj.zero (2048 * o + n) d.obj
def getSeq (d : Dev) (o : Nat) : Seq := look Seq.zero o d.seq
def getImg (d : Dev) (o c s : Nat) : ImgSlot := look ImgSlot.zero ((16 * o + c) * 16 + s) d.img
def getWin (d : Dev) (v w : Nat) : Win := look Win.zero (16 * v + w) d.win
def getPool (d : Dev) (n : Nat) : Pool := look Pool.zero n d.pool
def getStack (d : Dev) (s : Nat) : Stack := look Stack.reset s d.stack
def getCharter (d : Dev) (v : Nat) : Charter := look Charter.zero v d.ptr.charter
def getRle (d : Dev) (o : Nat) : Rle := look Rle.reset o d.rle
def getClu (d : Dev) (o c : Nat) : Clu := look Clu.reset (9 * o + c) d.clu
def getPort (d : Dev) (p : Nat) : Port := look Port.reset p d.port
def getGroup (d : Dev) (slot : Nat) : Group := look Group.zero slot d.group
def getBlk (d : Dev) (base : Nat) : BlkCtl := look BlkCtl.zero base d.blk
def getEntry (d : Dev) (o c i : Nat) : RegEntry := look RegEntry.zero ((16 * o + c) * 4096 + i) d.rtab
def getSlot (d : Dev) (v : Nat) : Rwt := look (Rwt.of 0) v d.slot
def coreNo (o c k : Nat) : Nat := (9 * o + c) * 64 + k
def getCore (d : Dev) (n : Nat) : Core := look Core.zero n d.core
def strmIx : Strm → Nat
  | .F => 0
  | .B => 1
def getStream (d : Dev) (n st : Nat) : Stream := look Stream.zero (2 * n + st) d.stream

def setPart (v : Nat) (f : Part → Part) (d : Dev) : Dev := { d with part := alter Part.zero v f d.part }
def setSht (o : Nat) (f : ShtOct → ShtOct) (d : Dev) : Dev := { d with sht := alter ShtOct.reset o f d.sht }
def setCtx (o c : Nat) (f : Ctx → Ctx) (d : Dev) : Dev := { d with ctx := alter Ctx.zero (16 * o + c) f d.ctx }
def setQueue (o q : Nat) (f : Queue → Queue) (d : Dev) : Dev := { d with queue := alter Queue.zero (32 * o + q) f d.queue }
def setObj (o n : Nat) (f : HudObj → HudObj) (d : Dev) : Dev := { d with obj := alter HudObj.zero (2048 * o + n) f d.obj }
def setSeq (o : Nat) (f : Seq → Seq) (d : Dev) : Dev := { d with seq := alter Seq.zero o f d.seq }
def setImg (o c s : Nat) (f : ImgSlot → ImgSlot) (d : Dev) : Dev :=
  { d with img := alter ImgSlot.zero ((16 * o + c) * 16 + s) f d.img }
def setWin (v w : Nat) (f : Win → Win) (d : Dev) : Dev := { d with win := alter Win.zero (16 * v + w) f d.win }
def setPool (n : Nat) (f : Pool → Pool) (d : Dev) : Dev := { d with pool := alter Pool.zero n f d.pool }
def setStack (s : Nat) (f : Stack → Stack) (d : Dev) : Dev := { d with stack := alter Stack.reset s f d.stack }
def setCharter (v : Nat) (f : Charter → Charter) (d : Dev) : Dev :=
  { d with ptr := { d.ptr with charter := alter Charter.zero v f d.ptr.charter } }
def setRle (o : Nat) (f : Rle → Rle) (d : Dev) : Dev := { d with rle := alter Rle.reset o f d.rle }
def setClu (o c : Nat) (f : Clu → Clu) (d : Dev) : Dev := { d with clu := alter Clu.reset (9 * o + c) f d.clu }
def setPort (p : Nat) (f : Port → Port) (d : Dev) : Dev := { d with port := alter Port.reset p f d.port }
def setGroup (slot : Nat) (f : Group → Group) (d : Dev) : Dev := { d with group := alter Group.zero slot f d.group }
def setBlk (base : Nat) (f : BlkCtl → BlkCtl) (d : Dev) : Dev := { d with blk := alter BlkCtl.zero base f d.blk }
def setEntry (o c i : Nat) (e : RegEntry) (d : Dev) : Dev :=
  { d with rtab := put RegEntry.zero ((16 * o + c) * 4096 + i) e d.rtab }
def setSlot (v : Nat) (f : Rwt → Rwt) (d : Dev) : Dev := { d with slot := alter (Rwt.of 0) v f d.slot }
def setCore (n : Nat) (f : Core → Core) (d : Dev) : Dev := { d with core := alter Core.zero n f d.core }
def setStream (n st : Nat) (f : Stream → Stream) (d : Dev) : Dev :=
  { d with stream := alter Stream.zero (2 * n + st) f d.stream }

/-- The partition that owns an octant (R305). -/
def octVf (d : Dev) (o : Nat) : Option Nat := if (getSht d o).owned then some (getSht d o).vf else none

/-- The octants of the partition that owns an octant. -/
def octPart (d : Dev) (o : Nat) : BitVec 8 :=
  match octVf d o with
  | some v => (getPart d v).octants
  | none => 0

/-- Two octants belong to one partition. -/
def samePart (d : Dev) (o o' : Nat) : Bool := (octVf d o).isSome && octVf d o == octVf d o'

/-- The partitions that exist. -/
def partsLive (d : Dev) : List Nat := (List.range 8).filter fun v => (getPart d v).live

/-- A context is idle when it is FREE or STOPPED (R201). -/
def ctxIdle (x : Ctx) : Bool := x.state == .free || x.state == .stopped

/-- Every context of an octant is idle. -/
def octIdle (d : Dev) (o : Nat) : Bool := (List.range 16).all fun c => ctxIdle (getCtx d o c)

/-- Every context of a partition is idle. -/
def partIdle (d : Dev) (v : Nat) : Bool := (members8 (getPart d v).octants).all (octIdle d)

/-- A scrub or zero-fill runs on an octant (R314). -/
def scrubbing (d : Dev) (o : Nat) : Bool :=
  (getSht d o).state == .scrubbing || (getSht d o).state == .zeroFilling

/-- The partition's on-die admit mask (R281). -/
def onDieAdmit (d : Dev) (v : Nat) : Label :=
  if (getCharter d v).state = .none then 0xFFFF else onDieMask (getCharter d v).n

/-- The mode of management is Porter's (R318). -/
def porterManaged (d : Dev) : Bool := !d.ptr.hostManaged

/-! ## The drop log of a function (R424) -/

/-- A dropped host access is logged for the function that made it. -/
def dropLog (f : Fn) (r : Reason) (fieldId offset : Nat) (write : Bool) (d : Dev) : Dev :=
  let entry (l : FnLog) : FnLog :=
    { reason := r, fieldId := fieldId, offset := offset, write := write, count := satAdd 0xFFFFFFFF l.count 1 }
  { d with pkg := { d.pkg with fnLog := alter FnLog.zero (fnIx f) entry d.pkg.fnLog } }

/-! ## Interrupts (R388, R389) -/

/-- What is sent to the outside. -/
def emit (o : Out) (d : Dev) : Dev := { d with out := o :: d.out }

/-- The MSI-X table's entry of a function's vector. -/
def msixEnt (d : Dev) (fn vector : Nat) : MsixEnt := look MsixEnt.zero (256 * fn + vector) d.pkg.msixTab

/-- A vector sends at most one message per tick, the address and data that the host has put into its table entry; a further event,
or one of a masked vector, is held pending (R21, R389, log 53). -/
def interrupt (fn vector : Nat) (d : Dev) : Dev :=
  if d.pkg.msixSent.contains (fn, vector) ∨ (msixEnt d fn vector).masked then
    if d.pkg.msixPend.contains (fn, vector) then d
    else { d with pkg := { d.pkg with msixPend := (fn, vector) :: d.pkg.msixPend } }
  else emit (.msix fn vector (msixEnt d fn vector).addr (msixEnt d fn vector).data) { d with pkg := { d.pkg with msixSent := (fn, vector) :: d.pkg.msixSent } }

/-- A cause of SMB_ALERT_N (R413, R414). -/
def alert (bit : Nat) (d : Dev) : Dev :=
  { d with ump := { d.ump with alert := d.ump.alert ||| BitVec.ofNat 16 (2 ^ bit) } }

/-- A GLB_READY change interrupts the PF (R388). -/
def readyChanged (d : Dev) : Dev := interrupt 0 3 d

/-- GLB_READY.ALL (R375). -/
def allReady (d : Dev) : Bool :=
  d.pkg.config && d.pkg.mailbox && d.pkg.stackReady == 0xFF && d.pkg.octReady == 0xFF && d.pkg.portReady == 0xFF

/-- A partition status change interrupts its VF (R388). -/
def partChanged (v : Nat) (d : Dev) : Dev := interrupt (1 + v) 2 d

/-! ## Fault records (R354 to R357) -/

/-- A record with every field that does not apply at its value for that (R354). -/
def recBase : FaultRec :=
  { seq := 0, reason := .ok, source := 0, action := 0, security := false, escalated := false, subsumed := false,
    tick := 0, vf := none, octant := none, context := none, queue := none, cluster := none, core := none,
    streamSlot := none, engine := none, pc := 0, tag := 0, ringSlot := 0, offsetNs := 0, detail := [] }

/-- A record entered in a ring, or counted LOST when the ring is full (R356). -/
def ringAdd (size : Nat) (r : FaultRec) (g : Ring) : Ring :=
  if (g.producer + 65536 - g.consumer) % 65536 ≥ size then { g with lost := satAdd 0xFFFFFFFF g.lost 1 }
  else { g with
    recs := put recBase (g.producer % size) r g.recs
    producer := (g.producer + 1) % 65536 }

/-- The record rings accept records: they are frozen in lockdown and after a trip (R368). -/
def ringsOpen (d : Dev) : Bool := d.pkg.phase != .lockdown && d.pkg.phase != .tripped

/-- A numbered record entered in the PF ring, with its interrupt and the cause of SMB_ALERT_N (R356, R388, R413). -/
def recordPf (r : FaultRec) (d : Dev) : Dev :=
  let d := { d with ret := { d.ret with
    recSeq := (d.ret.recSeq + 1) % 2 ^ 32
    pfRing := ringAdd 512 r d.ret.pfRing } }
  alert 1 (interrupt 0 0 d)

/-- A numbered record entered in a VF's ring; OFFSET_NS reads 0 there unless fine timing is on (R356). -/
def recordVf (r : FaultRec) (v : Nat) (d : Dev) : Dev :=
  let r' := if d.pwr.fine then r else { r with offsetNs := 0 }
  interrupt (1 + v) 0 { d with ump := { d.ump with vfRing := alter Ring.zero v (ringAdd 64 r') d.ump.vfRing } }

/-- A fault record is numbered, stamped and written to the PF ring and, when it names a VF, to that VF's ring
(R354, R356). A record of a boundary step has OFFSET_NS 0. -/
def record (r : FaultRec) (boundary : Bool) (d : Dev) : Dev :=
  if !ringsOpen d then d
  else
    let r := { r with seq := d.ret.recSeq, tick := d.tck.count, offsetNs := if boundary then 0 else offsetNs d }
    match r.vf with
    | none => recordPf r d
    | some v => recordVf r v (recordPf r d)

/-- A record about an octant, with its partition. -/
def recAt (d : Dev) (o : Nat) (r : Reason) (source : Nat) : FaultRec :=
  { recBase with reason := r, source := source, octant := some o, vf := octVf d o }

/-- DETAIL of a HUNG_UNIT record: UNIT and LAST_STATUS (R355, R432). -/
def hungDetail (kind index : Nat) : List Byte := natLe 4 (kind + 256 * index) ++ natLe 8 0

/-! ## Switch sessions (R343) -/

/-- The switch of a plane counts as attested: its session is mutually authenticated, its chain roots in a listed key, and every
measurement that it reports is listed (R343). Without SWITCH_ROOT lists no switch ever is (R324). -/
def switchAttested (d : Dev) (p : Nat) : Bool :=
  match look none p d.ptr.switchSess with
  | some r => r.mutualAuth && d.ptr.switchRoots.contains r.root && r.measurements.all fun m => d.ptr.switchMeas.contains m
  | none => false

/-! ## Commands (R209 to R216) -/

def cmdById (d : Dev) (id : Nat) : Option Cmd := d.cmds.find? fun c => c.id == id

/-- Every command with a number changed by a function. -/
def setCmd (id : Nat) (f : Cmd → Cmd) (d : Dev) : Dev :=
  { d with cmds := d.cmds.map fun c => if c.id == id then f c else c }

/-- Commands of a queue, in order. -/
def queueCmds (d : Dev) (o q : Nat) : List Cmd := d.cmds.filter fun c => c.oct == o && c.q == q

/-- Commands of a context. -/
def ctxCmds (d : Dev) (o c : Nat) : List Cmd := d.cmds.filter fun x => x.oct == o && x.ctx == c

def cmdOpcode (raw : List Byte) : Nat := byteAt raw 0
def isFence (c : Cmd) : Bool := cmdOpcode c.raw == 2
def failStopFence (c : Cmd) : Bool := isFence c && bitAt (byteAt c.raw 0x20) 0
def cmdResource (raw : List Byte) : Nat := field raw 0x10 2

/-- Two commands use one resource. -/
def sameResource (a b : Cmd) : Bool := a.oct == b.oct && cmdResource a.raw == cmdResource b.raw

/-- An overrunning item leaves its resource: each item of another context that it delayed gets the delay (R41). -/
def passDelay (c : Cmd) (d : Dev) : Dev :=
  let startOf (x : Cmd) : Nat := d.tck.start + offsetUnits d x.winStart
  let delayOf (x : Cmd) : Nat := d.tck.now + (d.tck.count - x.winTick) * tickUnits d - startOf x
  { d with cmds := d.cmds.map fun x =>
      if x.phase == .selected && sameResource x c && (x.ctx != c.ctx || x.oct != c.oct) then
        { x with delay := max x.delay (delayOf x) } else x }

/-- An end is noted for the FENCEs of its queue (R215): a FAULTED or NOT_RUN end counts for the next FENCE, and however a FENCE
ends, nothing before it counts any more; one without FAIL_STOP lets the commands behind it run. -/
def noteEnd (c : Cmd) (st : EndState) (r : Reason) (q : Queue) : Queue :=
  if isFence c then
    { q with
      fails := q.fails.filter fun f => f.1 > c.id
      fenceFrom := max q.fenceFrom (c.id + 1), failStop := if failStopFence c then q.failStop else none }
  else if st = .done ∨ c.id < q.fenceFrom then q
  else { q with fails := q.fails ++ [(c.id, r)] }

/-- A command's work ends: its result is set and its record and signal are due (R216), its end is noted for the FENCEs of its
queue (R215), and its wait stops counting (R221). An overrunning item that had not retired passes its delay on (R41). -/
def finish (id : Nat) (st : EndState) (r : Reason) (info : List Byte) (noSignal : Bool) (d : Dev) : Dev :=
  match cmdById d id with
  | none => d
  | some c =>
    if c.phase = .recording then d
    else
      let d := if c.phase = .active ∧ !c.retired ∧ c.endPassed then passDelay c d else d
      let d := setCmd id (fun c => { c with
        phase := .recording, result := (st, r), info := info, noSignal := noSignal, waitLeft := none,
        retired := true }) d
      setQueue c.oct c.q (noteEnd c st r) d

/-- Whether a wait for a target is satisfied (R217). -/
def satisfied (o : HudObj) (target : Word) : Bool := (o.value - target).toNat < 2 ^ 31

/-- A signal sets out for its object (R216, R219). -/
def signal (s : Signal) (d : Dev) : Dev := { d with signals := d.signals ++ [s] }

/-! ## Killing a context: L0 (R204, R360) -/

/-- A stream of a killed item issues nothing more and ends (R360). -/
def killStream (x : Stream) : Stream := if x.live then { x with wait := .ending } else x

/-- The streams of the cores that run a command's item are stopped at their next bundle. -/
def killItem (id : Nat) (d : Dev) : Dev :=
  let cores := (d.core.filter fun e => e.2.item == some id).map (·.1)
  cores.foldl (fun d n => setStream n 1 killStream (setStream n 0 killStream d)) d

/-- Every accepted command of the context that has not dispatched completes NOT_RUN with a reason (R203, R204). -/
def endUndispatched (o c : Nat) (r : Reason) (d : Dev) : Dev :=
  ((ctxCmds d o c).filter fun x => x.phase == .accepted || x.phase == .selected).foldl
    (fun d x => finish x.id .notRun r [] false d) d

/-- The dispatched items of a context end FAULTED with a reason: streams stop, transfers and their staging are dropped
(R204, R360). Rally steps end through their group (R253). -/
def killItems (o c : Nat) (r : Reason) (d : Dev) : Dev :=
  let act := (ctxCmds d o c).filter fun x => x.phase == .active
  let d := act.foldl (fun d x => killItem x.id (setCmd x.id (fun y =>
    if y.errEnd = none then { y with errEnd := some r } else y) d)) d
  { d with xfers := d.xfers.map fun x =>
      if x.oct == o && x.ctx == c && !x.fabric && x.fault == none then { x with fault := some r, staging := [], staged := 0 } else x }

/-- The state changes of a fault of a RUNNING context (R204): it enters FAULTED, what has not dispatched completes NOT_RUN,
what has is killed, and the L0 bound starts (R359). -/
def killCtx (o c : Nat) (r : Reason) (d : Dev) : Dev :=
  let d := setCtx o c (fun x => { x with state := .faulted, lastReason := r, stopMode := .none }) d
  let d := killItems o c r (endUndispatched o c r d)
  { d with ump := { d.ump with l0 := put 0 (16 * o + c) 3 d.ump.l0 } }

/-- A context is faulted (R204): it enters FAULTED, what has not dispatched completes NOT_RUN, what has is killed, and
the L0 bound starts (R359). A context already FAULTED is recorded with SUBSUMED set and nothing changes (R366). -/
def faultCtx (o c : Nat) (r : Reason) (rc : FaultRec) (boundary : Bool) (d : Dev) : Dev :=
  let rc := { rc with reason := r, octant := some o, context := some c, vf := octVf d o }
  if (getCtx d o c).state = .faulted then record { rc with subsumed := true } boundary d
  else if (getCtx d o c).state = .running then
    killCtx o c r (record { rc with action := if rc.action = 0 then 1 else rc.action } boundary d)
  else d

/-- One context of an octant or partition whose every context is faulted: a STOPPED one, which has nothing in flight, is recorded
with the reason and is STOPPED again at once, and a FREE one is no context of any partition (R200, R276, R361, R362). -/
def faultEach (o c : Nat) (r : Reason) (rc : FaultRec) (boundary : Bool) (d : Dev) : Dev :=
  if (getCtx d o c).state = .stopped then
    setCtx o c (fun x => { x with lastReason := r })
      (record { rc with
        reason := r, octant := some o, context := some c, vf := octVf d o, action := if rc.action = 0 then 1 else rc.action }
        boundary d)
  else faultCtx o c r rc boundary d

/-- A queue stops with an error at a command of its ring, which faults its context with the same reason (R207). -/
def stopQueue (o q : Nat) (r : Reason) (index : Nat) (detail : List Byte) (d : Dev) : Dev :=
  let x := getQueue d o q
  if x.bound && x.stopped == none then
    faultCtx o x.ctx r { recBase with source := 2, queue := some q, ringSlot := index % 2 ^ x.n, detail := detail } false
      (setQueue o q (fun y => { y with stopped := some r }) d)
  else d

/-! ## Lockdown (R367) -/

/-- The steps that lockdown and a thermal trip share: every engine stops, ports and die links go idle, every key is
zeroed (R367, R406). -/
def stopAndZero (p : Phase) (d : Dev) : Dev :=
  alert 0 { d with
    pkg := { d.pkg with phase := p, halt := d.pkg.halt || p == .lockdown || p == .tripped }
    port := d.port.map fun e => (e.1, { e.2 with half0 := false, half1 := false, up := false })
    ret := { d.ret with domKey := [], treeKey := [], cdi0 := 0, dumpKey := 0 }
    ptr := { d.ptr with keysZeroed := true, dieKeys := [], cdi1 := 0, jobKeys := [], sess := [], switchSess := [] }
    group := d.group.map fun e => (e.1, { e.2 with
      jobKey := [], pairs := e.2.pairs.map fun x => (x.1, { x.2 with key := 0, keyNext := 0 }) })
    win := d.win.map fun e => (e.1, { e.2 with secret := 0 }) }

/-- Lockdown from a security fault: its record, the stop, ERR_FATAL and HALT_N (R367). -/
def lockdown (r : FaultRec) (d : Dev) : Dev :=
  if d.pkg.phase = .lockdown ∨ d.pkg.phase = .tripped ∨ d.pkg.phase = .unpowered then d
  else
    let d := stopAndZero .lockdown (record { r with security := true, action := 6 } false d)
    emit .errFatal { d with ump := { d.ump with cycleCause := 3 } }

end Sys2Proof.Machine
end

