-- ==== Sys2Proof/Machine/Operands.lean ====
section
/-!
DEFINITION. Operand forms: the fields of commands, descriptors and region-table entries, the address spaces of R55, R155
and R163, and the label granules that an access touches.
-/
namespace Sys2Proof.Machine

/-! ## Command header and LAUNCH payload (R209, R210) -/

def cmdFlags (raw : List Byte) : Nat := byteAt raw 1
def waitEn (raw : List Byte) : Bool := bitAt (cmdFlags raw) 0
def sigEn (raw : List Byte) : Bool := bitAt (cmdFlags raw) 1
def noRecord (raw : List Byte) : Bool := bitAt (cmdFlags raw) 2
def cmdTag (raw : List Byte) : Nat := field raw 2 2
def waitObj (raw : List Byte) : Nat := field raw 4 2
def sigObj (raw : List Byte) : Nat := field raw 6 2
def waitValue (raw : List Byte) : Word := BitVec.ofNat 32 (field raw 8 4)
/-- SIG_INCR: 0 adds 1. -/
def sigIncr (raw : List Byte) : Word :=
  let n := field raw 12 4
  BitVec.ofNat 32 (if n = 0 then 1 else n)
def resKind (r : Nat) : Nat := r / 4096
def resIndex (r : Nat) : Nat := r % 4096
/-- Octant and index that an object code names. -/
def objOct (code : Nat) : Nat := bits code 11 3
def objIx (code : Nat) : Nat := bits code 0 11

def launchStreams (raw : List Byte) : Nat := byteAt raw 0x20
def launchSlot (raw : List Byte) : Nat := byteAt raw 0x21
def launchEntry (raw : List Byte) (st : Nat) : Nat := field raw (0x24 + 2 * st) 2
def launchMask (raw : List Byte) : Nat := field raw 0x28 8
def launchArg (raw : List Byte) (i : Nat) : Word := BitVec.ofNat 32 (field raw (0x30 + 4 * i) 4)

/-- Windowed commands: LAUNCH, RELAY and RALLY. -/
def windowed (raw : List Byte) : Bool := cmdOpcode raw == 3 || cmdOpcode raw == 4 || cmdOpcode raw == 5

/-! ## Relay descriptor (R163) -/

def rdKind (raw : List Byte) : Nat := byteAt raw 0x20
def rdSrcKind (raw : List Byte) : Nat := byteAt raw 0x21
def rdDstKind (raw : List Byte) : Nat := byteAt raw 0x22
def rdRows (raw : List Byte) : Nat := field raw 0x24 4
def rdRowBytes (raw : List Byte) : Nat := field raw 0x28 4
def rdSrc (raw : List Byte) : Nat := field raw 0x30 8
def rdDst (raw : List Byte) : Nat := field raw 0x38 8
/-- A stride of 0 means ROW_BYTES. -/
def rdSrcStride (raw : List Byte) : Nat := if field raw 0x40 4 = 0 then rdRowBytes raw else field raw 0x40 4
def rdDstStride (raw : List Byte) : Nat := if field raw 0x44 4 = 0 then rdRowBytes raw else field raw 0x44 4
def rdStreamTag (raw : List Byte) : Nat := field raw 0x48 4
def rdFirstPage (raw : List Byte) : Nat := field raw 0x4C 4
def rdPattern (raw : List Byte) : List Byte := slice raw 0x50 8

/-! ## Region-table entries and device virtual addresses (R155, R156) -/

def entValid (e : RegEntry) : Bool := bitAt e.w0.toNat 0
def entRead (e : RegEntry) : Bool := bitAt e.w0.toNat 1
def entWrite (e : RegEntry) : Bool := bitAt e.w0.toNat 2
def entVersioned (e : RegEntry) : Bool := bitAt e.w0.toNat 3
def entVset (e : RegEntry) : Nat := bits e.w0.toNat 4 3
def entDomain (e : RegEntry) : Nat := bits e.w0.toNat 8 8
def entAdmit (e : RegEntry) : Label := BitVec.ofNat 16 (bits e.w0.toNat 16 16)
/-- PREGION0 and PREGION1: 65,536 × stack + region number. -/
def entReg0 (e : RegEntry) : Nat := bits e.w0.toNat 32 19
def entReg1 (e : RegEntry) : Nat := bits e.w1.toNat 0 19

/-- Physical base of a physical region (R156). -/
def regionBase (r : Nat) : Nat := r / 65536 * 2 ^ 37 + r % 65536 * 2 ^ 21

/-- The physical region of a physical address, as PREGION codes it. -/
def regionOf (pa : Nat) : Nat := pa / 2 ^ 37 * 65536 + pa % 2 ^ 37 / 2 ^ 21

/-- Stack of a physical address. -/
def stackOf (pa : Nat) : Nat := pa / 2 ^ 37 % 8

/-- Protected data occupies offsets below 69.75 GiB of each stack (R154). -/
def dataSpan : Nat := 0x1170000000

def regionsPerStack : Nat := 35712

def getRegion (d : Dev) (r : Nat) : Region := look Region.zero r d.region
def setRegion (r : Nat) (f : Region → Region) (d : Dev) : Dev := { d with region := alter Region.zero r f d.region }

/-- The copy of a versioned entry that a view reaches, by the partition's ACTIVE bit (R156). -/
def entCopy (e : RegEntry) (active : BitVec 8) (inactive : Bool) : Nat :=
  if entVersioned e then
    (if has8 active (entVset e) == inactive then entReg0 e else entReg1 e)
  else entReg0 e

/-- What a virtual address maps to in a context, when its fields and entry are valid (R155, R156, R146). -/
def resolveVa (d : Dev) (o ctx va : Nat) : Option Mapping :=
  let e := getEntry d o ctx (bits va 21 12)
  let inactive := bitAt va 47
  if va ≥ 2 ^ 48 ∨ bits va 33 14 ≠ 0 ∨ !entValid e ∨ (inactive ∧ !entVersioned e) then none
  else some
    { index := bits va 21 12, inactive := inactive,
      base := entCopy e (getSeq d o).active inactive, admitMask := entAdmit e,
      vset := if entVersioned e then some (entVset e) else none, domain := entDomain e, rd := entRead e, wr := entWrite e }

/-- Whether the entry under an address permits the access (R156). -/
def vaPermitted (d : Dev) (o ctx va : Nat) (write : Bool) : Bool :=
  let e := getEntry d o ctx (bits va 21 12)
  if write then entWrite e else entRead e

/-- A write to a versioned region that R147 refuses. -/
def versionRefusal (d : Dev) (o : Nat) (m : Mapping) : Option Reason :=
  match m.vset with
  | none => none
  | some v =>
    if !m.inactive then some .fieldConflict
    else if has8 (getSeq d o).voted v then some .busyUpdate
    else none

/-- The physical address of a virtual address under a mapping of its region. -/
def mapPa (m : Mapping) (va : Nat) : Nat := regionBase m.base + va % 2 ^ 21

/-- The mapping that a transfer resolved for a virtual address (R158). -/
def findMap (maps : List Mapping) (va : Nat) : Option Mapping :=
  maps.find? fun m => m.index == bits va 21 12 && m.inactive == bitAt va 47

/-! ## On-die memories (R55, R163) -/

/-- R163 kind-1 address of a cluster's memory. -/
def cmemBase (o c : Nat) : Nat := (16 * o + c) * 2 ^ 22

/-- R163 kind-2 address of a core's scratchpad. -/
def spadBase (o c k : Nat) : Nat := ((16 * o + c) * 64 + k) * 2 ^ 17

/-- A granule of on-die memory that carries a label (R277). -/
inductive Granule where
  | spad (page : Nat)
  | acc (core tile : Nat)
  | cmem (page : Nat)
  deriving DecidableEq, Repr

def granLabel (d : Dev) : Granule → Label
  | .spad p => look 0 p d.spadLabel
  | .acc n t => look 0 t (getCore d n).accLabel
  | .cmem p => look 0 p d.cmemLabel

def setGranLabel (l : Label) (d : Dev) : Granule → Dev
  | .spad p => { d with spadLabel := put 0 p l d.spadLabel }
  | .acc n t => setCore n (fun x => { x with accLabel := put 0 t l x.accLabel }) d
  | .cmem p => { d with cmemLabel := put 0 p l d.cmemLabel }

/-- A partial write raises a granule's label by the written label (R278). -/
def raiseLabel (l : Label) (d : Dev) (g : Granule) : Dev := setGranLabel (granLabel d g ||| l) d g

/-- Page numbers that n bytes from an address touch. -/
def pagesOf (size a n : Nat) : List Nat :=
  if n = 0 then [] else (List.range ((a + n - 1) / size - a / size + 1)).map (a / size + ·)

/-- Where a core-local access lies (R55). -/
inductive LocalRange where
  | spad (a : Nat)
  | acc (a : Nat)
  | cmem (a : Nat)
  deriving DecidableEq, Repr

/-- The range in which a core-local access lies whole, if any. -/
def localRange (a n : Nat) : Option LocalRange :=
  if a + n ≤ 0x20000 then some (.spad a)
  else if 0x20000 ≤ a ∧ a + n ≤ 0x24000 then some (.acc (a - 0x20000))
  else if 0x400000 ≤ a ∧ a + n ≤ 0x800000 then some (.cmem (a - 0x400000))
  else none

/-- Bytes that a core reads at a core-local address. -/
def localRead (d : Dev) (o c k a n : Nat) : List Byte :=
  match localRange a n with
  | some (.spad x) => readBytes d.spad (spadBase o c k + x) n
  | some (.acc x) => readBytes d.acc (coreNo o c k * 16384 + x) n
  | some (.cmem x) => readBytes d.cmem (cmemBase o c + x) n
  | none => List.replicate n 0

/-- Bytes that a core writes at a core-local address. -/
def localWrite (o c k a : Nat) (bs : List Byte) (d : Dev) : Dev :=
  match localRange a bs.length with
  | some (.spad x) => { d with spad := writeBytes d.spad (spadBase o c k + x) bs }
  | some (.acc x) => { d with acc := writeBytes d.acc (coreNo o c k * 16384 + x) bs }
  | some (.cmem x) => { d with cmem := writeBytes d.cmem (cmemBase o c + x) bs }
  | none => d

/-- Granules that a core-local access touches. -/
def localGranules (o c k a n : Nat) : List Granule :=
  match localRange a n with
  | some (.spad x) => (pagesOf 4096 (spadBase o c k + x) n).map .spad
  | some (.acc x) => (pagesOf 1024 x n).map (.acc (coreNo o c k))
  | some (.cmem x) => (pagesOf 65536 (cmemBase o c + x) n).map .cmem
  | none => []

/-- Bytes of an accumulator tile (R57). -/
def readTile (d : Dev) (core tile : Nat) : List Byte := readBytes d.acc (core * 16384 + tile * 1024) 1024

def writeTile (core tile : Nat) (bs : List Byte) (d : Dev) : Dev :=
  { d with acc := writeBytes d.acc (core * 16384 + tile * 1024) bs }

/-! ## Cluster-memory ranges with rules of their own (R228, R288) -/

/-- Two byte ranges overlap. -/
def overlap (a n b m : Nat) : Bool := a < b + m && b < a + n && 0 < n && 0 < m

/-- Cluster-memory range of a pool, as a kind-1 address and a length (R287). -/
def poolRange (p : Pool) : Nat × Nat := (cmemBase p.octant p.cluster + p.page * 65536, (p.count + 1) * 65536)

/-- The configured pool that a cluster-memory range touches. -/
def poolAt (d : Dev) (a n : Nat) : Option Nat :=
  (List.range 64).find? fun i =>
    let p := getPool d i
    p.en && overlap a n (poolRange p).1 (poolRange p).2

/-- A registered image range of a context of the octant that a cluster-memory range touches: it is write-locked (R228). -/
def imageLocked (d : Dev) (a n : Nat) : Bool :=
  let o := a / 2 ^ 26
  let c := a / 2 ^ 22 % 16
  (List.range 256).any fun i =>
    let s := getImg d o (i / 16) (i % 16)
    s.used && bitAt s.mask c && overlap (a % 2 ^ 22) n s.offset s.length

end Sys2Proof.Machine
end

