-- ==== Sys2Proof/Machine/Matrix.lean ====
section
/-!
DEFINITION. The matrix engine (04): operand formats, the arithmetic of an MMA, and MMA_COMPLETE.
-/
namespace Sys2Proof.Machine

/-! ## The matrix syllable (R91 to R93) -/

def mmOp (s : Nat) : Nat := bits s 0 8
def mmAcc (s : Nat) : Nat := bits s 8 4
def mmTa (s : Nat) : Nat := bits s 12 3
def mmTb (s : Nat) : Nat := bits s 15 3
def mmFa (s : Nat) : Nat := bits s 18 4
def mmFb (s : Nat) : Nat := bits s 22 4
def mmClr (s : Nat) : Bool := bitAt s 26

/-- Format of an operand code (R92). -/
def mmFmt : Nat → FpFmt
  | 0 => bf16 | 1 => fp16 | 2 => e4m3 | 3 => e5m2 | 4 => e4m3 | 5 => e5m2 | 6 => e2m3 | 7 => e3m2 | _ => e2m1

/-- A microscaling format (R92). -/
def mmScaled (f : Nat) : Bool := 4 ≤ f

/-- K of a format's class (R86). -/
def mmK (f : Nat) : Nat := if f ≤ 1 then 16 else if f = 8 then 64 else 32

/-- The permitted format pairs (R93), by class of pairing. -/
def mmClass (f : Nat) : Nat := if f = 0 then 0 else if f = 1 then 1 else if f ≤ 3 then 2 else if f ≤ 7 then 3 else 4

/-- A legal matrix syllable (R66, R91 to R93). -/
def mmLegal (s : Nat) : Bool :=
  mmOp s == 1 && bits s 27 21 == 0 && mmFa s ≤ 8 && mmFb s ≤ 8 && mmClass (mmFa s) == mmClass (mmFb s)

/-! ## Operand tiles (R87, R89, R90) -/

/-- Encoding of element k of row i of a tile in a format code's class (R87). -/
def tileElem (t : List Byte) (f i k : Nat) : Nat :=
  if f ≤ 1 then field t (32 * i + 2 * k) 2
  else if f ≤ 5 then byteAt t (32 * i + k)
  else if f ≤ 7 then byteAt t (32 * i + k) % 64
  else byteAt t (32 * i + k / 2) / 16 ^ (k % 2) % 16

/-- Scale exponent of row i, block b: none stands for NaN (R89, R90). -/
def tileScale (s : List Byte) (f i b : Nat) : Option Int :=
  if !mmScaled f then some 0
  else
    let e := if f = 8 then byteAt s (2 * i + b) else byteAt s i
    if e = 255 then none else some ((e : Int) - 127)

/-- The exact sum of a block's products, with the sign of its zeros: negative only when every product is a negative
zero. A product of infinity and zero, or infinities of both signs, make it NaN (R95, R97). -/
def blockSum (ps : List (Fp × Fp)) : Fp :=
  let qs := ps.map fun p => fpMul p.1 p.2
  match qs with
  | [] => .fin false 0 0
  | q :: t => t.foldl fpAdd q

/-- One block added to the running value with one rounding (R94, R95, R97). -/
def addBlock (r : Word) (ps : List (Fp × Fp)) (sa sb : Option Int) : Word :=
  match sa, sb with
  | some x, some y => toFp32 (fpAdd (ofFp32 r) (fpScale (x + y) (blockSum ps)))
  | _, _ => nan32

/-- Element (i, j) of an MMA (R94). -/
def mmaElem (m : MmaOp) (old : Word) (i j : Nat) : Word :=
  let kk := mmK m.fa
  let pair (k : Nat) : Fp × Fp :=
    (fpDecode (mmFmt m.fa) (tileElem m.a m.fa i k), fpDecode (mmFmt m.fb) (tileElem m.b m.fb j k))
  let block (b : Nat) : List (Fp × Fp) := (List.range (min kk 32)).map fun k => pair (32 * b + k)
  let r0 : Word := if m.clr then 0 else old
  (List.range (if kk = 64 then 2 else 1)).foldl
    (fun r b => addBlock r (block b) (tileScale m.sa m.fa i b) (tileScale m.sb m.fb j b)) r0

/-- FP32 element n of a 1,024-byte tile. -/
def tile32 (t : List Byte) (n : Nat) : Word := BitVec.ofNat 32 (field t (4 * n) 4)

/-- The bytes of 256 FP32 values. -/
def bytes32 (f : Nat → Word) : List Byte := ((List.range 256).map fun n => natLe 4 (f n).toNat).flatten

/-- The tile that an MMA leaves. -/
def mmaTile (m : MmaOp) (old : List Byte) : List Byte := bytes32 fun n => mmaElem m (tile32 old n) (n / 16) (n % 16)

/-- The MMA in flight on a core completes: its tile and the tile's label take their new values (R94, R99, R100). -/
def completeMma (n : Nat) (d : Dev) : Dev :=
  match (getCore d n).mma with
  | none => d
  | some m =>
    let d := writeTile n m.acc (mmaTile m (readTile d n m.acc)) d
    setCore n (fun c => { c with
      mma := none
      accLabel := alter 0 m.acc (fun l => if m.clr then m.label else l ||| m.label) c.accLabel }) d

/-- MMA_COMPLETE: the result is complete 8 clocks after issue (R99). -/
def execMmaComplete (o : Fin 8) (c : Fin 9) (k : Fin 64) (s : State) : Host.Outcome State Fault Refusal :=
  .next { s with dev := whenLive (completeMma (coreNo o c k)) s.dev }

end Sys2Proof.Machine
end

