-- ==== Sys2Proof/Machine/Vector.lean ====
section
/-!
DEFINITION. The vector engine (05) and the update instruction (06): chains, masks, streaming softmax, conversions,
stochastic rounding, and VECTOR_COMPLETE.
-/
namespace Sys2Proof.Machine

/-! ## Syllable fields -/

def vOp (s : Nat) : Nat := bits s 0 8
def vImm (s : Nat) : Word := BitVec.ofNat 32 (bits s 32 32)

/-! CHAIN.STAGE (R108). -/
def csFn (s : Nat) : Nat := bits s 8 6
def csBsel (s : Nat) : Nat := bits s 14 3

/-! CHAIN.RUN (R110). -/
def crMode (s : Nat) : Nat := bits s 8 3
def crSrcTile (s : Nat) : Bool := bitAt s 11
def crSrc (s : Nat) : Nat := bits s 12 4
def crDstTile (s : Nat) : Bool := bitAt s 16
def crDst (s : Nat) : Nat := bits s 17 4
def crOfmt (s : Nat) : Nat := bits s 21 3
def crCp (s : Nat) : Bool := bitAt s 24
def crSat (s : Nat) : Bool := bitAt s 25
def crRst (s : Nat) : Nat := bits s 26 4
def crSinit (s : Nat) : Bool := bitAt s 30
def crNoChain (s : Nat) : Bool := bitAt s 31
def crPd (s : Nat) : Nat := bits s 32 2
def crSmode (s : Nat) : Nat := bits s 34 2
def crSideTile (s : Nat) : Bool := bitAt s 36
def crSide (s : Nat) : Nat := bits s 37 4
def crFp16 (s : Nat) : Bool := bitAt s 41

/-! MPOS (R119). -/
def mpSel (s : Nat) : Bool := bitAt s 8
def mpRa (s : Nat) : Nat := bits s 9 5
def mpOff (s : Nat) : Nat := bits s 32 24

/-! CVT.MX (R126). -/
def cvAcc (s : Nat) : Nat := bits s 8 4
def cvTd (s : Nat) : Nat := bits s 12 3
def cvFmt (s : Nat) : Nat := bits s 15 4
def cvPd (s : Nat) : Nat := bits s 19 2
/-- Accumulator tiles of the group. -/
def cvGroup (s : Nat) : List Nat := (List.range (if cvFmt s = 8 then 4 else 2)).map (cvAcc s + ·)

/-! RSX (R125). -/
def rsDir (s : Nat) : Bool := bitAt s 8
def rsT (s : Nat) : Nat := bits s 9 3
def rsAcc (s : Nat) : Nat := bits s 12 4

/-! UPD (R143). -/
def upAcc (s : Nat) : Nat := bits s 8 4
def upTd (s : Nat) : Nat := bits s 12 3
def upRe (s : Nat) : Nat := bits s 15 5
def upRl (s : Nat) : Nat := bits s 20 5
def upStep (s : Nat) : Nat := bits s 25 5
def upSr (s : Nat) : Bool := bitAt s 30
def upSat (s : Nat) : Bool := bitAt s 31

/-! ## Legality (R66, R107, R109, R112, R119, R120, R126) -/

/-- A mask code that the mask table does not reserve (R120). -/
def maskLegal (imm : Nat) : Bool :=
  let kind := bits imm 24 3
  let p := bits imm 0 24
  bits imm 27 5 == 0 && kind ≤ 4 && !(kind == 1 && p == 0) && !(kind == 2 && p > 24)

def stageLegal (s : Nat) : Bool :=
  let fn := csFn s
  let b := csBsel s
  let imm := bits s 32 32
  bits s 17 15 == 0 && 1 ≤ fn && fn ≤ 14 && b ≤ 4 && !(fn == 5 && b == 0) &&
  !(8 ≤ fn && fn ≤ 13 && (b != 0 || imm != 0)) && !(fn == 14 && (b != 0 || !maskLegal imm))

def runLegal (s : Nat) : Bool :=
  bits s 42 22 == 0 && crMode s ≤ 3 && crOfmt s ≤ 3 && !(crSrcTile s && crSrc s > 7) &&
  !(crDstTile s && crDst s > 7) && !(crSideTile s && crSide s > 7) &&
  !(!crDstTile s && (crOfmt s != 0 || crCp s || crSat s)) && !(crCp s && crOfmt s ≤ 1) &&
  !(crSinit s && crMode s != 1)

/-- A legal vector syllable. -/
def vLegal (s : Nat) : Bool :=
  match vOp s with
  | 1 => stageLegal s
  | 2 => runLegal s
  | 3 => bits s 14 18 == 0 && bits s 56 8 == 0
  | 4 => 4 ≤ cvFmt s && cvFmt s ≤ 8 && (if cvFmt s = 8 then cvAcc s % 4 == 0 else cvAcc s % 2 == 0) &&
      bits s 21 43 == 0
  | 5 => bits s 16 48 == 0
  | 6 => true
  | _ => false

/-! ## Chains (R105, R106, R108) -/

/-- A special function (R108). -/
def stageSpecial (x : Stage) : Bool := 10 ≤ x.fn && x.fn ≤ 13

/-- The chain that a CHAIN.RUN latches. -/
def runChain (s : Nat) (ch : List Stage) : List Stage := if crNoChain s then [] else ch

/-- The side input is read (R111). -/
def sideRead (ch : List Stage) : Bool := ch.any fun x => x.bsel == 1

/-- The row state is read, which an SMX.STEP with SINIT does only through its chain (R111, R122). -/
def rowRead (mode : Nat) (sinit : Bool) (ch : List Stage) : Bool :=
  (mode != 0 && !sinit) || ch.any fun x => 2 ≤ x.bsel

/-- The row state is written: by the SMX modes (R122, R123). -/
def rowWritten (mode : Nat) : Bool := mode != 0

/-- Engine clocks of a CHAIN.RUN (R116). -/
def runClocks (mode : Nat) (ch : List Stage) : Nat :=
  (if mode = 1 ∨ mode = 3 then 16 else 8) + (if ch.length ≤ 4 then 0 else 8)

/-- Engine clocks of a syllable that occupies the engine (R116, R143). -/
def vClocks (s : Nat) (ch : List Stage) : Nat :=
  match vOp s with
  | 2 => runClocks (crMode s) (runChain s ch)
  | 4 => if cvFmt s = 8 then 32 else 16
  | 5 => 2
  | _ => 8

/-- The position rule of a mask kind (R120). -/
def maskAllows (imm i j : Nat) : Bool :=
  let p := bits imm 0 24
  match bits imm 24 3 with
  | 0 => j ≤ i + p
  | 1 => j ≤ i && i - j < p
  | 2 => i / 2 ^ p == j / 2 ^ p
  | 3 => (p ≤ i) == (p ≤ j)
  | _ => j < p

/-- Row r's row state in tile form. -/
def rowAt (c : Core) (tile r : Nat) : RowState := look RowState.zero (16 * tile + r) c.rows

/-- The special function of a stage (R113). -/
def specialFn (fn : Nat) (x : Word) : Word :=
  match fn with
  | 10 => exp2Fn x
  | 11 => log2Fn x
  | 12 => rcpFn x
  | _ => rsqrtFn x

/-- One stage on one element: x enters, b is the operand that BSEL selects, (i, j) the element's position (R108, R113). -/
def runStage (st : Stage) (b x : Word) (i j : Nat) : Word :=
  match st.fn with
  | 1 => add32 x b
  | 2 => sub32 x b
  | 3 => sub32 b x
  | 4 => mul32 x b
  | 5 => fma32 x st.imm b
  | 6 => max32 x b
  | 7 => min32 x b
  | 8 => if isNan32 x then nan32 else x &&& 0x7FFFFFFF
  | 9 => if isNan32 x then nan32 else x ^^^ 0x80000000
  | 14 => if maskAllows st.imm.toNat i j then x else 0xFF800000
  | fn => specialFn fn x

/-- Side element for element (r, c) (R110). -/
def sideIx (smode r c : Nat) : Nat :=
  match smode with
  | 0 => 16 * r + c
  | 1 => c
  | 2 => 16 * r
  | _ => 0

/-- Element n of a source or side: FP32 from an accumulator tile, widened from a tile register (R111). Of NaNs the rule says
nothing: one of a tile register widens to 0x7FC00000, one of an accumulator keeps its bits (DESIGN CHOICE, log 56). -/
def operandElem (tile16 half : Bool) (bs : List Byte) (n : Nat) : Word :=
  if tile16 then toFp32 (fpDecode (if half then fp16 else bf16) (field bs (2 * n) 2)) else tile32 bs n

/-- Element (r, c) after the chain. -/
def chainElem (v : VecOp) (rs : Nat → RowState) (r c : Nat) : Word :=
  let s := v.syllable.toNat
  let b (st : Stage) : Word :=
    match st.bsel with
    | 0 => st.imm
    | 1 => operandElem (crSideTile s) (crFp16 s) v.side (sideIx (crSmode s) r c)
    | 2 => (rs r).m
    | 3 => (rs r).l
    | _ => (rs r).a
  v.chain.foldl (fun x st => runStage st (b st) x (v.rowPos + r) (v.colPos + c))
    (operandElem (crSrcTile s) (crFp16 s) v.src (16 * r + c))

/-! ## Streaming softmax (R122, R123) -/

/-- log2 e. -/
def log2e : Word := 0x3FB8AA3B

/-- One element's weight against a maximum (R122). -/
def smxE (a m : Word) : Word :=
  if a = 0xFF800000 then 0
  else if eq32 a m then 0x3F800000
  else if m = 0x7F800000 ∧ !nonFinite32 a then 0
  else exp2Fn (mul32 (sub32 a m) log2e)

/-- The row state that SINIT gives. -/
def rowInit : RowState := { m := 0xFF800000, l := 0, a := 0x3F800000, nonfinite := false, empty := false }

/-- SMX.STEP on one row: its new state and its probabilities (R122). -/
def smxStepRow (old : RowState) (x : Nat → Word) : RowState × (Nat → Word) :=
  if old.nonfinite || (List.range 16).any (fun c => isNan32 (x c)) then
    ({ m := nan32, l := nan32, a := nan32, nonfinite := true, empty := old.empty }, fun _ => nan32)
  else
    let m := (List.range 16).foldl (fun m c => max32 m (x c)) old.m
    let a := smxE old.m m
    let p (c : Nat) : Word := smxE (x c) m
    let sum := (List.range 16).foldl (fun t c => fpAdd t (ofFp32 (p c))) (.fin false 0 0)
    ({ m := m, l := toFp32 (fpAdd (fpMul (ofFp32 old.l) (ofFp32 a)) sum), a := a, nonfinite := false,
       empty := old.empty }, p)

/-- SMX.FINAL or SMX.PROB on one row (R123). -/
def smxFinalRow (prob : Bool) (old : RowState) (x : Nat → Word) : RowState × (Nat → Word) :=
  if old.nonfinite || (List.range 16).any (fun c => isNan32 (x c)) then
    ({ old with nonfinite := true }, fun _ => nan32)
  else if old.l = 0 then ({ old with empty := true }, fun _ => 0)
  else (old, fun c => mul32 (if prob then smxE (x c) old.m else x c) (rcpFn old.l))

/-- A CHAIN.RUN's FP32 results by element, and the row states it leaves: the chain runs over the stored row states, and then
the mode's function per row (R122, R123). -/
def runResult (v : VecOp) (c : Core) : List Word × List RowState :=
  let s := v.syllable.toNat
  let rs (r : Nat) : RowState := rowAt c (crRst s) r
  let row (r : Nat) : RowState × (Nat → Word) :=
    let x (cc : Nat) : Word := chainElem v rs r cc
    match crMode s with
    | 0 => (rs r, x)
    | 1 => smxStepRow (if crSinit s then rowInit else rs r) x
    | 2 => smxFinalRow false (rs r) x
    | _ => smxFinalRow true (rs r) x
  let rows := (List.range 16).map row
  ((rows.map fun p => (List.range 16).map p.2).flatten, rows.map (·.1))

/-! ## Narrowing to tile registers (R111, R114) -/

/-- Output format of OFMT, and its NaN (R114). -/
def outFmt : Nat → FpFmt × Nat
  | 0 => (bf16, 0x7FC0)
  | 1 => (fp16, 0x7E00)
  | 2 => (e4m3, 0x7F)
  | _ => (e5m2, 0x7E)

def narrowTo (ofmt : Nat) (sat : Bool) (w : Word) : Nat := fpNarrow (outFmt ofmt).1 (outFmt ofmt).2 sat w

/-- A tile register after a CHAIN.RUN wrote it. -/
def runTile (s : Nat) (res : List Word) (old : List Byte) : List Byte :=
  let e (n : Nat) : Nat := narrowTo (crOfmt s) (crSat s) (res.getD n 0)
  if crOfmt s ≤ 1 then ((List.range 256).map fun n => natLe 2 (e n)).flatten
  else (List.range 512).map fun i =>
    let c := i % 32
    if (c / 16 == 1) == crCp s then BitVec.ofNat 8 (e (16 * (i / 32) + c % 16)) else old.getD i 0

/-- A narrowed value that is NaN or an infinity. -/
def narrowBad (ofmt n : Nat) : Bool := fpNonFinite (fpDecode (outFmt ofmt).1 n)

/-- The non-finite test of a CHAIN.RUN (R115). -/
def runTest (s : Nat) (res : List Word) (rows : List RowState) : Bool :=
  if crMode s = 0 then
    res.any nonFinite32 ||
    (crDstTile s && !crSat s && res.any fun w => narrowBad (crOfmt s) (narrowTo (crOfmt s) false w))
  else rows.any (·.nonfinite)

/-! ## CVT.MX (R126) -/

/-- emax of a microscaling format. -/
def cvEmax : Nat → Int
  | 4 => 8 | 5 => 15 | 6 => 2 | 7 => 4 | _ => 2

/-- floor(log2 |v|) of a finite non-zero value. -/
def floorLog2 : Fp → Int
  | .fin _ m e => e + Nat.log2 m
  | _ => 0

/-- A block's scale byte and its elements. -/
def cvBlock (f : Nat) (vs : List Word) : Nat × List Nat :=
  let amax := vs.foldl (fun a w => max a (bits w.toNat 0 31)) 0
  if vs.any nonFinite32 then (0xFF, vs.map fun _ => 0)
  else
    let ex : Int := if amax = 0 then 0
      else max (-127) (min 127 (floorLog2 (fpDecode fp32 amax) - cvEmax f))
    let el (w : Word) : Nat :=
      match ofFp32 w with
      | .fin neg m e =>
        min (fpRoundMag (mmFmt f) m (e - ex)) (fpMaxBits (mmFmt f)) +
          (if neg then 2 ^ ((mmFmt f).eb + (mmFmt f).mb) else 0)
      | _ => 0
    ((ex + 127).toNat, vs.map el)

/-- The tile register and scale slot that CVT.MX writes, and its non-finite test. `src` is the group's tiles in order. -/
def cvResult (s : Nat) (src : List Byte) : List Byte × List Byte × Bool :=
  let f := cvFmt s
  let nb := if f = 8 then 2 else 1
  let val (r k : Nat) : Word := tile32 (src.drop (k / 16 * 1024)) (16 * r + k % 16)
  let blk (r b : Nat) : Nat × List Nat := cvBlock f ((List.range 32).map fun k => val r (32 * b + k))
  let rows := (List.range 16).map fun r => (List.range nb).map (blk r)
  let rowBytes (bs : List (Nat × List Nat)) : List Byte :=
    let es := (bs.map (·.2)).flatten
    (List.range 32).map fun i => BitVec.ofNat 8
      (if f = 8 then es.getD (2 * i) 0 + 16 * es.getD (2 * i + 1) 0 else es.getD i 0)
  let scales := (rows.map fun bs => bs.map fun x => BitVec.ofNat 8 x.1).flatten
  ((rows.map rowBytes).flatten, slice scales 0 32, rows.any fun bs => bs.any fun x => x.1 == 0xFF)

/-! ## RSX (R125) -/

def rowBytes (x : RowState) : List Byte :=
  natLe 4 x.m.toNat ++ natLe 4 x.l.toNat ++ natLe 4 x.a.toNat ++ natLe 4 (b2n x.nonfinite + 2 * b2n x.empty) ++
    List.replicate 16 0

def rowOfBytes (t : List Byte) (r : Nat) : RowState :=
  { m := BitVec.ofNat 32 (field t (32 * r) 4), l := BitVec.ofNat 32 (field t (32 * r + 4) 4),
    a := BitVec.ofNat 32 (field t (32 * r + 8) 4), nonfinite := bitAt (byteAt t (32 * r + 12)) 0,
    empty := bitAt (byteAt t (32 * r + 12)) 1 }

/-! ## UPD (R143, R144) -/

/-- One Philox-4×32 round on a counter under a key (R143). -/
def philoxRound (k0 k1 : Word) (c : Word × Word × Word × Word) : Word × Word × Word × Word :=
  let p0 := 0xD2511F53 * c.1.toNat
  let p1 := 0xCD9E8D57 * c.2.2.1.toNat
  let hi (p : Nat) : Word := BitVec.ofNat 32 (p / 2 ^ 32)
  (hi p1 ^^^ c.2.1 ^^^ k0, BitVec.ofNat 32 p1, hi p0 ^^^ c.2.2.2 ^^^ k1, BitVec.ofNat 32 p0)

def philoxGo : Nat → Word → Word → Word × Word × Word × Word → Word × Word × Word × Word
  | 0, _, _, c => c
  | n + 1, k0, k1, c => philoxGo n (k0 + 0x9E3779B9) (k1 + 0xBB67AE85) (philoxRound k0 k1 c)

/-- Philox-4×32 with 10 rounds (R143). -/
def philox (seed : DWord) (c : Word × Word × Word × Word) : Word × Word × Word × Word :=
  philoxGo 10 (BitVec.ofNat 32 seed.toNat) (BitVec.ofNat 32 (seed.toNat / 2 ^ 32)) c

/-- The 16 random bits of an element (R143). -/
def updBits (seed : DWord) (tensor step idx : Word) : Nat :=
  let w := philox seed (BitVec.ofNat 32 (idx.toNat / 8), tensor, step, 0)
  let x := match idx.toNat % 8 / 2 with
    | 0 => w.1 | 1 => w.2.1 | 2 => w.2.2.1 | _ => w.2.2.2
  bits x.toNat (16 * (idx.toNat % 2)) 16

/-- UPD's rounding of one value to BF16 (R144). -/
def updRound (sr sat : Bool) (u : Nat) (w : Word) : Nat :=
  if !sr then fpNarrow bf16 0x7FC0 sat w
  else if isNan32 w then 0x7FC0
  else
    let sign := if bitAt w.toNat 31 then 0x8000 else 0
    let mag := if nonFinite32 w then 0x7F80 else (bits w.toNat 0 31 + u) / 2 ^ 16
    sign + (if mag ≥ 0x7F80 then (if sat then 0x7F7F else 0x7F80) else mag)

/-- The tile register that UPD writes. -/
def updTile (v : VecOp) : List Byte :=
  let s := v.syllable.toNat
  ((List.range 256).map fun n =>
    let idx : Word := v.idx + BitVec.ofNat 32 (n / 16) * v.rl + BitVec.ofNat 32 (n % 16)
    natLe 2 (updRound (upSr s) (upSat s) (updBits v.seed (vImm s) v.step idx) (tile32 v.src n))).flatten

/-! ## Completion (R116) -/

/-- Bytes of a tile register. -/
def readReg (x : Stream) (t : Nat) : List Byte := readBytes x.tile (512 * t) 512

/-- A tile register written whole, with its element label. -/
def writeReg (t : Nat) (bs : List Byte) (l : Label) (x : Stream) : Stream :=
  { x with tile := writeBytes x.tile (512 * t) bs, tlabel := put 0 t l x.tlabel }

/-- A predicate written, with its label; p0 is never written (R52). -/
def writePred (p : Nat) (b : Bool) (l : Label) (x : Stream) : Stream :=
  if p = 0 then x else { x with pred := put false p b x.pred, plabel := put 0 p l x.plabel }

/-- Row states of a tile written, with their label. -/
def writeRows (tile : Nat) (rows : List RowState) (l : Label) (c : Core) : Core :=
  { c with
    rows := (List.range 16).foldl (fun t r => put RowState.zero (16 * tile + r) (rows.getD r RowState.zero) t) c.rows
    rowLabel := put 0 tile l c.rowLabel }

/-- A CHAIN.RUN completes (R111, R115, R118). SMX.FINAL and SMX.PROB, which write flags of the row state, join the result's
label to the row state's (DESIGN CHOICE, log 56). -/
def completeRun (n : Nat) (v : VecOp) (d : Dev) : Dev :=
  let s := v.syllable.toNat
  let c := getCore d n
  let (res, rows) := runResult v c
  let x := getStream d n v.stream
  let d :=
    if crDstTile s then
      let l := if crOfmt s ≤ 1 then v.label else v.label ||| look 0 (crDst s) x.tlabel
      setStream n v.stream (writeReg (crDst s) (runTile s res (readReg x (crDst s))) l) d
    else
      setCore n (fun c => { c with accLabel := put 0 (crDst s) v.label c.accLabel })
        (writeTile n (crDst s) (res.map fun w => natLe 4 w.toNat).flatten d)
  let d := if rowWritten (crMode s) then
      setCore n (fun c =>
        let prev := if crSinit s then 0 else look 0 (crRst s) c.rowLabel
        writeRows (crRst s) rows (if crMode s = 1 then v.label ||| prev else prev ||| v.label) c) d
    else d
  setStream n v.stream (writePred (crPd s) (runTest s res rows) v.label) d

/-- A vector syllable completes on a core. -/
def completeVecOp (n : Nat) (v : VecOp) (d : Dev) : Dev :=
  let s := v.syllable.toNat
  match vOp s with
  | 2 => completeRun n v d
  | 4 =>
    let (t, sc, bad) := cvResult s v.src
    setStream n v.stream (fun x =>
      let x := writeReg (cvTd s) t v.label x
      let x := { x with
        scale := writeBytes x.scale (32 * cvTd s) sc
        sclabel := put 0 (cvTd s) v.label x.sclabel }
      writePred (cvPd s) bad v.label x) d
  | 5 =>
    if rsDir s then
      setCore n (writeRows (rsAcc s) ((List.range 16).map (rowOfBytes v.src)) v.label) d
    else
      let rows := (List.range 16).map fun r => rowBytes (rowAt (getCore d n) (rsAcc s) r)
      setStream n v.stream (writeReg (rsT s) rows.flatten v.label) d
  | _ => setStream n v.stream (writeReg (upTd s) (updTile v) v.label) d

/-- The oldest vector syllable in flight on a core completes (R116). -/
def completeVec (n : Nat) (d : Dev) : Dev :=
  match (getCore d n).vec with
  | [] => d
  | v :: rest => completeVecOp n v (setCore n (fun c => { c with vec := rest }) d)

/-- VECTOR_COMPLETE: results are complete B + 4 clocks after issue (R116). -/
def execVectorComplete (o : Fin 8) (c : Fin 9) (k : Fin 64) (s : State) : Host.Outcome State Fault Refusal :=
  .next { s with dev := whenLive (completeVec (coreNo o c k)) s.dev }

end Sys2Proof.Machine
end

