-- ==== Sys2Proof/Machine/Bundle.lean ====
section
/-!
DEFINITION. Cores and bundles (03): decoding a bundle, when it is ready, what is illegal or inconsistent, and the effect of
each syllable at issue; BUNDLE_ISSUE, LOAD_RETURN.
-/
namespace Sys2Proof.Machine

/-! ## Bundle format (R65) -/

/-- A bundle: its header and the syllables of its present slots, in slot order scalar, vector, matrix, load, store,
sync (slot numbers 0 to 5). -/
structure Bundle where
  header : Nat
  size : Nat
  slots : List (Nat × Nat)
  deriving DecidableEq, Repr

/-- Header bit and size of each slot. -/
def slotForm : List (Nat × Nat × Nat) := [(0, 15, 4), (1, 14, 8), (2, 13, 6), (3, 12, 6), (4, 11, 6), (5, 10, 4)]

/-- The slots present under a header, with the syllables' offsets from the header. -/
def slotOffsets (h : Nat) : List (Nat × Nat × Nat) :=
  (slotForm.foldl (fun (acc : Nat × List (Nat × Nat × Nat)) f =>
    if bitAt h f.2.1 then (acc.1 + f.2.2, acc.2 ++ [(f.1, acc.1, f.2.2)]) else acc) (2, [])).2

/-- Length in bytes of a bundle (R65). -/
def bundleSize (h : Nat) : Nat := slotForm.foldl (fun n f => if bitAt h f.2.1 then n + f.2.2 else n) 2

/-- The bundle at a PC, when it lies whole in the image. -/
def fetchBundle (img : List Byte) (pc : Nat) : Option Bundle :=
  if pc + 2 > img.length then none
  else
    let h := field img pc 2
    if pc + bundleSize h > img.length then none
    else some { header := h, size := bundleSize h, slots := (slotOffsets h).map fun x => (x.1, field img (pc + x.2.1) x.2.2) }

def bundlePred (b : Bundle) : Nat := bits b.header 8 2

/-! ## Scalar slot (R68 to R71) -/

def scOp (s : Nat) : Nat := bits s 0 8
def scRd (s : Nat) : Nat := bits s 8 5
def scRa (s : Nat) : Nat := bits s 13 5
def scRb (s : Nat) : Nat := bits s 18 5
def scImm14 (s : Nat) : Nat := bits s 18 14
def scPd (s : Nat) : Nat := bits s 8 2
def scPa (s : Nat) : Nat := bits s 10 2
def scPb (s : Nat) : Nat := bits s 12 2
def scSrid (s : Nat) : Nat := bits s 18 8

/-- Formats of R68. -/
inductive ScFmt where
  | r | i | u | c | ci | p | b | s | bad
  deriving DecidableEq, Repr

/-- Format of a scalar opcode (R69). -/
def scFmt (op : Nat) : ScFmt :=
  if 1 ≤ op ∧ op ≤ 9 then .r
  else if 0x10 ≤ op ∧ op ≤ 0x15 then .i
  else if op = 0x18 then .u
  else if 0x20 ≤ op ∧ op ≤ 0x25 then .c
  else if 0x28 ≤ op ∧ op ≤ 0x2B then .ci
  else if op = 0x2C ∨ op = 0x2D then .p
  else if op = 0x30 then .b
  else if op = 0x38 then .s
  else .bad

/-- A legal scalar syllable (R66, R68 to R71). -/
def scLegal (s : Nat) : Bool :=
  match scFmt (scOp s) with
  | .r => bits s 23 9 == 0
  | .i => !(scOp s ≥ 0x14 && bits s 23 9 != 0)
  | .u => true
  | .c => bits s 10 3 == 0 && bits s 23 9 == 0 && scPd s != 0
  | .ci => bits s 10 3 == 0 && scPd s != 0
  | .p => bits s 15 17 == 0 && scPd s != 0
  | .b => !(bits s 8 2 == 0 && bitAt s 10)
  | .s => bits s 13 5 == 0 && bits s 26 6 == 0 && scSrid s ≤ 8
  | .bad => false

/-- Result of an R-format operation (R69). -/
def scAlu (op : Nat) (a b : Word) : Word :=
  match op with
  | 1 => a + b
  | 2 => a - b
  | 3 => a &&& b
  | 4 => a ||| b
  | 5 => a ^^^ b
  | 6 => a <<< (b.toNat % 32)
  | 7 => a >>> (b.toNat % 32)
  | 8 => a.sshiftRight (b.toNat % 32)
  | _ => a * b

/-- Result of an I-format operation (R69). -/
def scAluImm (op : Nat) (a : Word) (imm14 : Nat) : Word :=
  let z : Word := BitVec.ofNat 32 imm14
  match op with
  | 0x10 => a + (BitVec.ofNat 14 imm14).signExtend 32
  | 0x11 => a &&& z
  | 0x12 => a ||| z
  | 0x13 => a ^^^ z
  | 0x14 => a <<< (imm14 % 32)
  | _ => a >>> (imm14 % 32)

/-- Result of a comparison (R69); CMPI operations use the same codes less 8, except CMPI.GE. -/
def scCmp (op : Nat) (a b : Word) : Bool :=
  match op with
  | 0x20 => a == b
  | 0x21 => a != b
  | 0x22 => a.slt b
  | 0x23 => a.ult b
  | 0x24 => !a.slt b
  | _ => !a.ult b

/-- The comparison that a CMPI opcode makes (R69). -/
def scCmpiOp (op : Nat) : Nat := if op = 0x2B then 0x24 else op - 8

/-! ## Load, store and sync slots (R72, R76) -/

def lsOp (s : Nat) : Nat := bits s 0 8
def lsTd (s : Nat) : Nat := bits s 8 3
def lsAcc (s : Nat) : Nat := bits s 8 4
def lsRd (s : Nat) : Nat := bits s 8 5
def ldT (s : Nat) : Bool := bitAt s 11
def lsW (s : Nat) : Nat := bits s 12 2
def lsRa (s : Nat) : Nat := bits s 14 5
def lsRs (s : Nat) : Nat := bits s 19 5
def lsImm (s : Nat) : Int := signed 16 (bits s 24 16)

def ldLegal (s : Nat) : Bool :=
  bits s 40 8 == 0 &&
  match lsOp s with
  | 1 => lsW s != 3
  | 2 => !bitAt s 11 && (lsW s == 1 || lsW s == 2) && bits s 19 5 == 0
  | 3 => bits s 12 2 == 0 && bits s 19 5 == 0
  | 4 => !bitAt s 13 && bits s 19 5 == 0
  | _ => false

def stLegal (s : Nat) : Bool :=
  bits s 40 8 == 0 &&
  match lsOp s with
  | 1 => bits s 11 3 == 0
  | 2 => !bitAt s 11 && (lsW s == 1 || lsW s == 2) && bits s 19 5 == 0
  | 3 => bits s 12 2 == 0 && bits s 19 5 == 0
  | 4 => !bitAt s 13 && bits s 19 5 == 0
  | _ => false

def syOp (s : Nat) : Nat := bits s 0 8
def syObj (s : Nat) : Nat := bits s 8 11
def syOct (s : Nat) : Nat := bits s 19 3
def syRv (s : Nat) : Nat := bits s 22 5
def syScopes (s : Nat) : Nat := bits s 8 4

def syLegal (s : Nat) : Bool :=
  match syOp s with
  | 1 => bits s 12 20 == 0 && syScopes s != 0
  | 2 => bits s 8 24 == 0
  | 4 => bits s 27 5 == 0
  | 5 => bits s 27 5 == 0 && syRv s != 0
  | 6 => bits s 8 24 == 0
  | 7 => bits s 8 24 == 0
  | _ => false

/-- A legal syllable of a slot (R80). -/
def slotLegal (slot s : Nat) : Bool :=
  match slot with
  | 0 => scLegal s
  | 1 => vLegal s
  | 2 => mmLegal s
  | 3 => ldLegal s
  | 4 => stLegal s
  | _ => syLegal s

/-! ## Registers -/

/-- A scalar register: s0 reads as 0 (R52). -/
def sreg (x : Stream) (r : Nat) : Word := if r = 0 then 0 else look 0 r x.sreg
def slab (x : Stream) (r : Nat) : Label := if r = 0 then 0 else look 0 r x.slabel
/-- A predicate: p0 reads as true (R52). -/
def predOf (x : Stream) (p : Nat) : Bool := p == 0 || look false p x.pred
def plab (x : Stream) (p : Nat) : Label := if p = 0 then 0 else look 0 p x.plabel

/-- A scalar register written, with its label; a write to s0 is discarded (R52). -/
def writeSreg (r : Nat) (v : Word) (l : Label) (x : Stream) : Stream :=
  if r = 0 then x else { x with sreg := put 0 r v x.sreg, slabel := put 0 r l x.slabel }

/-! ## Memory operands of a load or store (R55, R56, R73, R74) -/

/-- Effective address. -/
def lsEa (x : Stream) (s : Nat) : Nat := unsigned 32 ((sreg x (lsRa s)).toNat + lsImm s)

/-- Rows of an access: (address, bytes) of each. -/
def lsRows (x : Stream) (load : Bool) (s : Nat) : List (Nat × Nat) :=
  let ea := lsEa x s
  match lsOp s with
  | 1 =>
    let trans := load && ldT s
    let n := if !trans then 16 else if lsW s = 0 then 16 else if lsW s = 1 then 32 else 64
    let len : Nat := if !trans then 32 else if lsW s = 0 then 32 else if lsW s = 1 then 16 else 8
    let stride : Int := if lsRs s = 0 then (len : Nat) else signed 32 (sreg x (lsRs s)).toNat
    (List.range n).map fun (r : Nat) => (unsigned 32 ((ea : Int) + (r : Int) * stride), len)
  | 2 => [(ea, if lsW s = 1 then 16 else 32)]
  | 3 => [(ea, 1024)]
  | _ => [(ea, 4)]

/-- The access lies inside the ranges and is aligned, its stride too (R55, R56, R73). -/
def lsAddressed (x : Stream) (load : Bool) (s : Nat) : Bool :=
  let al := if lsOp s = 4 then 4 else 8
  let strideOk := lsOp s != 1 || lsRs s == 0 ||
    ((sreg x (lsRs s)).toNat % 8 == 0 && sreg x (lsRs s) != 0)
  strideOk && (lsRows x load s).all fun r => (localRange r.1 r.2).isSome && r.1 % al == 0

/-- Accumulator tiles that a byte range touches (R57). -/
def accTouched (a n : Nat) : List Nat :=
  (List.range 16).filter fun t => overlap a n (0x20000 + t * 1024) 1024

/-- Accumulator tiles that a load or store names or touches. -/
def lsTiles (x : Stream) (load : Bool) (s : Nat) : List Nat :=
  (if lsOp s = 3 then [lsAcc s] else []) ++ ((lsRows x load s).map fun r => accTouched r.1 r.2).flatten

/-! ## What a syllable reads, writes and names (R61, R81) -/

/-- The chain a vector syllable would run. -/
def chainOf (x : Stream) (s : Nat) : List Stage := if vOp s = 2 then runChain s x.chain else []

/-- Accumulator tiles that a vector syllable names (R117). -/
def vTiles (x : Stream) (s : Nat) : List Nat :=
  match vOp s with
  | 2 =>
    (if crSrcTile s then [] else [crSrc s]) ++ (if crDstTile s then [] else [crDst s]) ++
    (if sideRead (chainOf x s) && !crSideTile s then [crSide s] else [])
  | 4 => cvGroup s
  | 6 => [upAcc s]
  | _ => []

/-- The tile whose row state a vector syllable reads or writes (R111, R117). -/
def vRow (x : Stream) (s : Nat) : Option Nat :=
  match vOp s with
  | 2 => if rowRead (crMode s) false (chainOf x s) then some (crRst s) else none
  | 5 => some (rsAcc s)
  | _ => none

/-- The tile whose row state a vector syllable writes. -/
def vRowWrite (s : Nat) : Option Nat :=
  match vOp s with
  | 2 => if rowWritten (crMode s) then some (crRst s) else none
  | 5 => if rsDir s then some (rsAcc s) else none
  | _ => none

/-- Registers, predicates, tiles and scale slots that a syllable reads. -/
def readsOf (x : Stream) (slot s : Nat) : List Res :=
  match slot with
  | 0 =>
    match scFmt (scOp s) with
    | .r | .c => [.reg (scRa s), .reg (scRb s)]
    | .i | .ci => [.reg (scRa s)]
    | .p => [.pred (scPa s), .pred (scPb s)]
    | .b => [.pred (bits s 8 2)]
    | _ => []
  | 1 =>
    match vOp s with
    | 2 => (if crSrcTile s then [.tile (crSrc s)] else []) ++
        (if sideRead (chainOf x s) && crSideTile s then [.tile (crSide s)] else []) ++
        (if crDstTile s && crOfmt s ≥ 2 then [.tile (crDst s)] else [])
    | 3 => [.reg (mpRa s)]
    | 5 => if rsDir s then [.tile (rsT s)] else []
    | 6 => [.reg (upRe s), .reg (upRl s), .reg (upStep s)]
    | _ => []
  | 2 => [.tile (mmTa s), .tile (mmTb s)] ++ (if mmScaled (mmFa s) then [.scale (mmTa s)] else []) ++
      (if mmScaled (mmFb s) then [.scale (mmTb s)] else [])
  | 3 => [.reg (lsRa s)] ++ (if lsOp s = 1 then [.reg (lsRs s)] else [])
  | 4 => [.reg (lsRa s)] ++
      (match lsOp s with
       | 1 => [.reg (lsRs s), .tile (lsTd s)]
       | 2 => [.scale (lsTd s)]
       | 4 => [.reg (lsRd s)]
       | _ => [])
  | _ => if syOp s = 4 ∨ syOp s = 5 then [.reg (syRv s)] else []

/-- Registers, predicates, tiles and scale slots that a syllable writes; `issue` stands for the PC. -/
def writesOf (slot s : Nat) : List Res :=
  match slot with
  | 0 =>
    match scFmt (scOp s) with
    | .r | .i | .u | .s => if scRd s = 0 then [] else [.reg (scRd s)]
    | .c | .ci | .p => [.pred (scPd s)]
    | .b => [.issue]
    | .bad => []
  | 1 =>
    match vOp s with
    | 2 => (if crDstTile s then [.tile (crDst s)] else []) ++ (if crPd s = 0 then [] else [.pred (crPd s)])
    | 4 => [.tile (cvTd s), .scale (cvTd s)] ++ (if cvPd s = 0 then [] else [.pred (cvPd s)])
    | 5 => if rsDir s then [] else [.tile (rsT s)]
    | 6 => [.tile (upTd s)]
    | _ => []
  | 2 => []
  | 3 =>
    match lsOp s with
    | 1 => [.tile (lsTd s)]
    | 2 => [.scale (lsTd s)]
    | 4 => if lsRd s = 0 then [] else [.reg (lsRd s)]
    | _ => []
  | 4 => []
  | _ => if syOp s = 2 then [.issue] else []

/-- Accumulator tiles that a syllable names, or whose bytes a load or store touches. -/
def tilesOf (x : Stream) (slot s : Nat) : List Nat :=
  match slot with
  | 1 => vTiles x s
  | 2 => [mmAcc s]
  | 3 => lsTiles x true s
  | 4 => lsTiles x false s
  | _ => []

/-! ## Readiness (R57, R61, R63, R117) -/

/-- The destination resources of a vector syllable in flight. -/
def vecRes (v : VecOp) : List Res := writesOf 1 v.syllable.toNat

/-- A register of a stream is not usable at a clock: an earlier write of it is outstanding. s0 is always usable. -/
def resBusy (c : Core) (x : Stream) (stream clk : Nat) (r : Res) : Bool :=
  r != .reg 0 &&
  (x.busy.any (fun e => e.1 == r && clk < e.2) || x.loads.any (fun l => l.target == r) ||
    c.vec.any fun v => v.stream == stream && (vecRes v).contains r)

/-- An accumulator tile is being accumulated into, or a load of it is outstanding (R57, R99, R117). -/
def tileBusy (c : Core) (loads : List LoadOp) (clk t : Nat) : Bool :=
  ((c.mma.isSome || clk < c.mmaFree) && c.mmaTile == t) ||
  (c.vec.any fun v =>
    let s := v.syllable.toNat
    (vOp s == 2 && !crDstTile s && crDst s == t) ||
    (clk < v.issued + v.occupies &&
      ((vOp s == 2 && ((!crSrcTile s && crSrc s == t) || (sideRead v.chain && !crSideTile s && crSide s == t))) ||
       (vOp s == 4 && (cvGroup s).contains t) || (vOp s == 6 && upAcc s == t)))) ||
  loads.any fun l => l.target == .acc t

/-- A row state that a syllable in flight writes (R117). -/
def rowBusy (c : Core) (t : Nat) : Bool := c.vec.any fun v => vRowWrite v.syllable.toNat == some t

/-- A vector syllable occupies the engine (R107). -/
def vOccupies (s : Nat) : Bool := vOp s == 2 || 4 ≤ vOp s

/-- The unit that a syllable uses accepts one in this clock (R61, R64, R99, R116). -/
def unitFree (c : Core) (clk slot s : Nat) : Bool :=
  match slot with
  | 1 => !vOccupies s || c.vecFree ≤ clk
  | 2 => c.mma.isNone && c.mmaFree ≤ clk
  | 3 => c.ldFree ≤ clk
  | 4 => c.stFree ≤ clk
  | _ => true

/-- A legal syllable can issue at a clock (R61). -/
def slotReady (c : Core) (x : Stream) (loads : List LoadOp) (stream clk slot s : Nat) : Bool :=
  unitFree c clk slot s &&
  (readsOf x slot s ++ writesOf slot s).all (fun r => r == .issue || !resBusy c x stream clk r) &&
  (tilesOf x slot s).all (fun t => !tileBusy c loads clk t) &&
  !(slot == 1 && (match vRow x s with | some t => rowBusy c t | none => false)) &&
  !(slot == 3 && loads.length ≥ 64)

/-- A stream's next bundle is ready at a clock (R61, R67, R79). A PC whose bundle does not lie whole in the image is
ready to fault (R60). -/
def streamReady (d : Dev) (n stream clk : Nat) : Bool :=
  let c := getCore d n
  let x := getStream d n stream
  let loads := (getStream d n 0).loads ++ (getStream d n 1).loads
  x.live && !x.halted && x.wait == .none && !x.busy.any (fun e => e.1 == .issue && clk < e.2) &&
  match fetchBundle c.icache x.pc with
  | none => true
  | some b =>
    bits b.header 0 8 != 0 ||
    (!resBusy c x stream clk (.pred (bundlePred b)) &&
      (!predOf x (bundlePred b) ||
        (b.slots.filter fun s => slotLegal s.1 s.2).all fun s => slotReady c x loads stream clk s.1 s.2))

/-! ## Inconsistent bundles (R81) -/

/-- Two syllables conflict. -/
def slotsConflict (x : Stream) (a b : Nat × Nat) : Bool :=
  (writesOf a.1 a.2).any (fun r => (writesOf b.1 b.2).contains r) ||
  (tilesOf x a.1 a.2).any (fun t => (tilesOf x b.1 b.2).contains t) ||
  (a.1 == 3 && b.1 == 4 &&
    (lsRows x true a.2).any fun p => (lsRows x false b.2).any fun q => overlap p.1 p.2 q.1 q.2)

/-- Some two of the syllables conflict. -/
def inconsistent (x : Stream) : List (Nat × Nat) → Bool
  | [] => false
  | a :: t => t.any (slotsConflict x a) || inconsistent x t

/-! ## Skips (R82 to R84) -/

/-- The octant, cluster and core of a core number. -/
def coreOct (n : Nat) : Nat := n / 576
def coreClu (n : Nat) : Nat := n / 64 % 9
def coreIx (n : Nat) : Nat := n % 64

/-- A record with the queue, tag and ring slot of a command (R354). -/
def ofCmd (c : Cmd) (r : FaultRec) : FaultRec := { r with queue := some c.q, tag := cmdTag c.raw, ringSlot := c.slot }

/-- A fault record that names a core, stream slot and PC, and the command whose item runs there, with the syllable and the
tick's count (R354, R355). -/
def coreRec (d : Dev) (n stream slot pc : Nat) (syl thisTick : Nat) : FaultRec :=
  let r := { recBase with
    source := 1, cluster := some (coreClu n), core := some (coreIx n), streamSlot := some (stream + 2 * slot)
    pc := pc, detail := natLe 8 syl ++ natLe 2 thisTick }
  match (getCore d n).item.bind (cmdById d) with
  | some c => ofCmd c r
  | none => r

/-- A skip is counted and entered in the core's log while it has room; above the limit it faults the context (R83, R84). -/
def skip (n stream pc slot syl : Nat) (r : Reason) (d : Dev) : Dev :=
  let ent : SkipEnt := { pc := pc, stream := stream, slot := slot, reason := r, tick := d.tck.count % 65536,
                         syllable := BitVec.ofNat 64 syl }
  let d := setCore n (fun c => { c with
    skips := satAdd 0xFFFFFFFF c.skips 1
    skipsTick := satAdd 2047 c.skipsTick 1
    log := if c.log.length < 16 then c.log ++ [ent] else c.log
    overflow := c.overflow || c.log.length ≥ 16 }) d
  let c := getCore d n
  match c.ctx with
  | some x =>
    if c.skipsTick > c.limit ∧ (getCtx d (coreOct n) x).state = .running then
      faultCtx (coreOct n) x r (coreRec d n stream slot pc syl c.skipsTick) false d
    else d
  | none => d

/-! ## The effect of each syllable

Each effect reads the stream `x` and the device as they stood before the bundle issued (R62); `cl` is the control label
after the predicate's label has been joined (R278). -/

/-- What an executing bundle knows. -/
structure IssueCtx where
  n : Nat
  stream : Nat
  clk : Nat
  pc : Nat
  oct : Nat
  ctx : Nat
  item : Nat
  vf : Nat
  cl : Label
  x : Stream
  deriving DecidableEq, Repr

/-- The stream under a bundle changed by a function. -/
def onStream (i : IssueCtx) (f : Stream → Stream) (d : Dev) : Dev := setStream i.n i.stream f d

/-- A resource becomes usable at a clock (R63). -/
def busyUntil (r : Res) (t : Nat) (x : Stream) : Stream := { x with busy := (r, t) :: x.busy }

/-- The value of a special register (R71); CYCLE_LO counts clocks since dispatch only with fine timing. -/
def specialValue (d : Dev) (i : IssueCtx) (srid : Nat) : Word :=
  match srid with
  | 0 => BitVec.ofNat 32 (coreIx i.n)
  | 1 => BitVec.ofNat 32 (coreClu i.n)
  | 2 => BitVec.ofNat 32 i.oct
  | 3 => BitVec.ofNat 32 i.stream
  | 4 => BitVec.ofNat 32 d.tck.count
  | 5 => i.x.tickHi.getD (BitVec.ofNat 32 (d.tck.count / 2 ^ 32))
  | 6 => BitVec.ofNat 32 i.ctx
  | 7 => BitVec.ofNat 32 (modeCode d.pwr.live)
  | _ => if d.pwr.fine then BitVec.ofNat 32 i.clk else 0

/-- RDSR: TICK_LO latches TICK_HI, and a read of TICK_HI uses the latch (R8, R71). -/
def execRdsr (i : IssueCtx) (s : Nat) (d : Dev) : Dev :=
  let v := specialValue d i (scSrid s)
  onStream i (fun x =>
    let x := if scSrid s = 4 then { x with tickHi := some (BitVec.ofNat 32 (d.tck.count / 2 ^ 32)) }
             else if scSrid s = 5 then { x with tickHi := none } else x
    busyUntil (.reg (scRd s)) (i.clk + 1) (writeSreg (scRd s) v 0 x)) d

/-- A scalar syllable (R69 to R71, R278), or the reason it is skipped. -/
def doScalar (i : IssueCtx) (imgLen s : Nat) (d : Dev) : Except Reason Dev :=
  let x := i.x
  let op := scOp s
  let wr (lat : Nat) (v : Word) (l : Label) : Except Reason Dev :=
    .ok (onStream i (fun y => busyUntil (.reg (scRd s)) (i.clk + lat) (writeSreg (scRd s) v (l ||| i.cl) y)) d)
  let wp (b : Bool) (l : Label) : Except Reason Dev :=
    .ok (onStream i (fun y => busyUntil (.pred (scPd s)) (i.clk + 1) (writePred (scPd s) b (l ||| i.cl) y)) d)
  let ra := sreg x (scRa s)
  let la := slab x (scRa s)
  match scFmt op with
  | .r => wr (if op = 9 then 3 else 1) (scAlu op ra (sreg x (scRb s))) (la ||| slab x (scRb s))
  | .i => wr 1 (scAluImm op ra (scImm14 s)) la
  | .u => wr 1 (BitVec.ofNat 32 (bits s 13 19 * 2 ^ 13)) 0
  | .c => wp (scCmp op ra (sreg x (scRb s))) (la ||| slab x (scRb s))
  | .ci => wp (scCmp (scCmpiOp op) ra ((BitVec.ofNat 14 (scImm14 s)).signExtend 32)) la
  | .p =>
    let a := predOf x (scPa s) != bitAt s 14
    let b := predOf x (scPb s)
    wp (if op = 0x2C then a && b else a || b) (plab x (scPa s) ||| plab x (scPb s))
  | .b =>
    let pt := bits s 8 2
    let d := if pt = 0 then d else onStream i (fun y => { y with ctl := y.ctl ||| plab x pt }) d
    if predOf x pt != bitAt s 10 then
      let t : Int := (i.pc : Int) + 2 * signed 21 (bits s 11 21)
      if t < 0 ∨ t ≥ imgLen then .error .fieldRange
      else .ok (onStream i (fun y => busyUntil .issue (i.clk + 3) { y with pc := t.toNat }) d)
    else .ok d
  | .s => if i.cl ≠ 0 then .error .labelDenied else .ok (execRdsr i s d)
  | .bad => .error .illegalSlot

/-- The label of the data that a branch tests raises the control label even when its target is refused (R278). -/
def branchLabel (i : IssueCtx) (s : Nat) (d : Dev) : Dev :=
  if scFmt (scOp s) = .b ∧ bits s 8 2 ≠ 0 then
    onStream i (fun y => { y with ctl := y.ctl ||| plab i.x (bits s 8 2) }) d
  else d

/-- Sum of the labels of granules. -/
def granUnion (d : Dev) (gs : List Granule) : Label := unionAll (gs.map (granLabel d))

/-- The address labels of a load or store (R278). -/
def lsAddrLabel (i : IssueCtx) (s : Nat) : Label :=
  slab i.x (lsRa s) ||| (if lsOp s = 1 then slab i.x (lsRs s) else 0) ||| i.cl

/-- Rows of a load or store as cluster-memory ranges of the octant, where they lie there. -/
def lsCmem (i : IssueCtx) (rows : List (Nat × Nat)) : List (Nat × Nat) :=
  rows.filterMap fun r => match localRange r.1 r.2 with
    | some (.cmem a) => some (cmemBase i.oct (coreClu i.n) + a, r.2)
    | _ => none

/-- A stored matrix of K rows by 16 columns as the tile of its transpose (R74). -/
def transposeTile (w : Nat) (stored : List Byte) : List Byte :=
  (List.range 512).map fun n =>
    let i := n / 32
    let b := n % 32
    match w with
    | 0 => stored.getD (32 * (b / 2) + 2 * i + b % 2) 0
    | 1 => stored.getD (16 * b + i) 0
    | _ =>
      let nib (k : Nat) : Nat := byteAt stored (8 * k + i / 2) / 16 ^ (i % 2) % 16
      BitVec.ofNat 8 (nib (2 * b) + 16 * nib (2 * b + 1))

/-- What a load writes. -/
def ldTarget (s : Nat) : Res :=
  match lsOp s with
  | 1 => .tile (lsTd s)
  | 2 => .scale (lsTd s)
  | 3 => .acc (lsAcc s)
  | _ => .reg (lsRd s)

/-- Clocks from issue to the earliest return of a load (R63). The table gives no latency for the core's own accumulators: they
take the scratchpad's (DESIGN CHOICE, log 56). -/
def ldLatency (s : Nat) (cluster : Bool) : Nat :=
  if cluster then 40 else match lsOp s with
    | 4 => 4
    | 3 => 10
    | _ => 6

/-- Clocks of a unit that a load or store takes (R64). -/
def lsClocks (s : Nat) : Nat :=
  match lsOp s with
  | 1 => 2
  | 3 => 4
  | _ => 1

/-- A load syllable (R55, R56, R72 to R74, R278, R288): it samples its bytes and labels at issue (R176). -/
def doLoad (i : IssueCtx) (s : Nat) (d : Dev) : Except Reason Dev :=
  let rows := lsRows i.x true s
  let o := i.oct
  let c := coreClu i.n
  let k := coreIx i.n
  let cm := lsCmem i rows
  if !lsAddressed i.x true s then .error .fieldRange
  else if cm.any (fun r => (poolAt d r.1 r.2).isSome) then .error .fieldConflict
  else
    let bytes := (rows.map fun r => localRead d o c k r.1 r.2).flatten
    let bytes := if lsOp s = 1 ∧ ldT s then transposeTile (lsW s) bytes else bytes
    let l := granUnion d ((rows.map fun r => localGranules o c k r.1 r.2).flatten) ||| lsAddrLabel i s
    let op : LoadOp := { target := ldTarget s, bytes := bytes, label := l, partl := lsOp s = 2 ∧ lsW s = 1,
                         ready := i.clk + ldLatency s (!cm.isEmpty), cluster := !cm.isEmpty }
    .ok (setCore i.n (fun y => { y with ldFree := i.clk + lsClocks s })
      (onStream i (fun y => { y with loads := y.loads ++ [op] }) d))

/-- Bytes and label that a store writes. -/
def stData (d : Dev) (i : IssueCtx) (s : Nat) : List Byte × Label :=
  match lsOp s with
  | 1 => (readReg i.x (lsTd s), look 0 (lsTd s) i.x.tlabel)
  | 2 => (readBytes i.x.scale (32 * lsTd s) (if lsW s = 1 then 16 else 32), look 0 (lsTd s) i.x.sclabel)
  | 3 => (readTile d i.n (lsAcc s), look 0 (lsAcc s) (getCore d i.n).accLabel)
  | _ => (natLe 4 (sreg i.x (lsRd s)).toNat, slab i.x (lsRd s))

/-- Rows written one after another, each taking its bytes from the data. -/
def storeRows (o c k : Nat) : List (Nat × Nat) → List Byte → Dev → Dev
  | [], _, d => d
  | r :: t, bs, d => storeRows o c k t (bs.drop r.2) (localWrite o c k r.1 (bs.take r.2) d)

/-- A store syllable (R72, R73, R75, R228, R278, R281, R288). -/
def doStore (i : IssueCtx) (s : Nat) (d : Dev) : Except Reason Dev :=
  let rows := lsRows i.x false s
  let o := i.oct
  let c := coreClu i.n
  let k := coreIx i.n
  let cm := lsCmem i rows
  let data := stData d i s
  let l := data.2 ||| lsAddrLabel i s
  if !lsAddressed i.x false s then .error .fieldRange
  else if cm.any (fun r => (poolAt d r.1 r.2).isSome || imageLocked d r.1 r.2) then .error .fieldConflict
  else if !admitted l (onDieAdmit d i.vf) then .error .labelDenied
  else
    let gs := (rows.map fun r => localGranules o c k r.1 r.2).flatten
    .ok (setCore i.n (fun y => { y with stFree := i.clk + lsClocks s })
      (storeRows o c k rows data.1 (gs.foldl (raiseLabel l) d)))

/-- A matrix syllable: the engine latches its operands (R99, R100). -/
def doMatrix (i : IssueCtx) (s : Nat) (d : Dev) : Dev :=
  let x := i.x
  let sc (f t : Nat) : Label := if mmScaled f then look 0 t x.sclabel else 0
  let op : MmaOp :=
    { issued := i.clk, acc := mmAcc s, fa := mmFa s, fb := mmFb s, clr := mmClr s,
      a := readReg x (mmTa s), b := readReg x (mmTb s),
      sa := readBytes x.scale (32 * mmTa s) 32, sb := readBytes x.scale (32 * mmTb s) 32,
      label := look 0 (mmTa s) x.tlabel ||| look 0 (mmTb s) x.tlabel ||| sc (mmFa s) (mmTa s) |||
        sc (mmFb s) (mmTb s) ||| i.cl }
  setCore i.n (fun c => { c with mma := some op, mmaFree := i.clk + 8, mmaTile := mmAcc s }) d

/-- Bytes and label of a vector operand: an accumulator tile or a tile register. -/
def vOperand (d : Dev) (i : IssueCtx) (tile16 : Bool) (n : Nat) : List Byte × Label :=
  if tile16 then (readReg i.x n, look 0 n i.x.tlabel)
  else (readTile d i.n n, look 0 n (getCore d i.n).accLabel)

/-- The label of a tile's row state. -/
def rowLab (d : Dev) (i : IssueCtx) (t : Nat) : Label := look 0 t (getCore d i.n).rowLabel

/-- A vector syllable that occupies the engine latches what it reads (R116, R118, R145). -/
def vLatch (d : Dev) (i : IssueCtx) (s : Nat) : VecOp :=
  let x := i.x
  let ch := chainOf x s
  let base : VecOp :=
    { issued := i.clk, stream := i.stream, syllable := BitVec.ofNat 64 s, chain := ch, src := [], side := [],
      rowPos := x.rowPos, colPos := x.colPos, idx := 0, rl := 0, step := 0, seed := (getCtx d i.oct i.ctx).seed,
      label := i.cl, occupies := vClocks s ch }
  match vOp s with
  | 2 =>
    let src := vOperand d i (crSrcTile s) (crSrc s)
    let side := if sideRead ch then vOperand d i (crSideTile s) (crSide s) else ([], 0)
    let row := if rowRead (crMode s) (crSinit s) ch then rowLab d i (crRst s) else 0
    let pos := if ch.any (fun st => st.fn == 14) then x.rowLabel ||| x.colLabel else 0
    { base with src := src.1, side := side.1, label := i.cl ||| src.2 ||| side.2 ||| row ||| pos }
  | 4 =>
    { base with
      src := ((cvGroup s).map fun t => readTile d i.n t).flatten
      label := i.cl ||| unionAll ((cvGroup s).map fun t => look 0 t (getCore d i.n).accLabel) }
  | 5 =>
    if rsDir s then { base with src := readReg x (rsT s), label := i.cl ||| look 0 (rsT s) x.tlabel }
    else { base with label := i.cl ||| rowLab d i (rsAcc s) }
  | _ =>
    { base with
      src := readTile d i.n (upAcc s), idx := sreg x (upRe s), rl := sreg x (upRl s), step := sreg x (upStep s)
      label := i.cl ||| look 0 (upAcc s) (getCore d i.n).accLabel ||| slab x (upRe s) ||| slab x (upRl s) |||
        slab x (upStep s) }

/-- CHAIN.STAGE (R108, R110): appends a stage, emptying the register first after a CHAIN.RUN. -/
def doStage (i : IssueCtx) (s : Nat) (d : Dev) : Except Reason Dev :=
  let ch := if i.x.ran then [] else i.x.chain
  let st : Stage := { fn := csFn s, bsel := csBsel s, imm := vImm s }
  if ch.length ≥ 8 then .error .fieldRange
  else if stageSpecial st && (if ch.length < 4 then ch else ch.drop 4).any stageSpecial then .error .fieldConflict
  else .ok (onStream i (fun y => { y with chain := ch ++ [st], ran := false }) d)

/-- MPOS (R118, R119). -/
def doMpos (i : IssueCtx) (s : Nat) (d : Dev) : Except Reason Dev :=
  let v := (sreg i.x (mpRa s) + BitVec.ofNat 32 (mpOff s)).toNat
  let l := slab i.x (mpRa s)
  if v > 16777200 then .error .fieldRange
  else .ok (onStream i (fun y =>
    if mpSel s then { y with colPos := v, colLabel := l } else { y with rowPos := v, rowLabel := l }) d)

/-- A vector syllable, or the reason it is skipped. -/
def doVector (i : IssueCtx) (s : Nat) (d : Dev) : Except Reason Dev :=
  match vOp s with
  | 1 => doStage i s d
  | 3 => doMpos i s d
  | _ =>
    let v := vLatch d i s
    let d := if vOp s = 2 then onStream i (fun y => { y with ran := true }) d else d
    .ok (setCore i.n (fun c => { c with vec := c.vec ++ [v], vecFree := i.clk + v.occupies }) d)

/-- HSIG (R76, R78, R219). -/
def doHsig (i : IssueCtx) (s : Nat) (d : Dev) : Except Reason Dev :=
  let o := syOct s
  let n := syObj s
  let ob := getObj d o n
  let q := match cmdById d i.item with | some c => (c.oct, c.q) | none => (0, 0)
  if !samePart d i.oct o then .error .notOwner
  else if !ob.configured then .error .notOwner
  else if ob.producer.isSome ∧ ob.producer ≠ some q then .error .notOwner
  else if (slab i.x (syRv s) ||| i.cl) ≠ 0 then .error .labelDenied
  else .ok (signal { octant := o, obj := n, incr := if syRv s = 0 then 1 else sreg i.x (syRv s), err := none } d)

/-- A waiting stream is released: normally it goes on, with error it ends at once and its item ends FAULTED (R222). -/
def releaseStream (n st item : Nat) (err : Option Reason) (d : Dev) : Dev :=
  match err with
  | none => setStream n st (fun x => { x with wait := .none }) d
  | some r =>
    setCmd item (fun c => if c.errEnd = none then { c with errEnd := some r } else c)
      (setStream n st (fun x => { x with wait := .ending }) d)

/-- A stream is held, unless it is already ending. -/
def holdStream (i : IssueCtx) (w : StreamWait) (d : Dev) : Dev :=
  onStream i (fun y => if y.wait = .ending then y else { y with wait := w }) d

/-- HWAIT (R76, R78, R219, R221, R222): the wait begins at its issue and raises the control label. -/
def doHwait (i : IssueCtx) (s : Nat) (d : Dev) : Except Reason Dev :=
  let o := syOct s
  let n := syObj s
  let ob := getObj d o n
  let t := sreg i.x (syRv s)
  if !samePart d i.oct o then .error .notOwner
  else if !ob.configured then .error .notOwner
  else
    let d := onStream i (fun y => { y with ctl := y.ctl ||| slab i.x (syRv s) }) d
    if ob.error then .ok (releaseStream i.n i.stream i.item (some ob.errReason) d)
    else if satisfied ob t then .ok d
    else .ok (holdStream i (.hwait o n t ob.deadline) d)

/-- A sync syllable, or the reason it is skipped (R76, R77). -/
def doSync (i : IssueCtx) (s : Nat) (d : Dev) : Except Reason Dev :=
  match syOp s with
  | 1 => .ok (holdStream i (.fence (syScopes s)) d)
  | 2 => .ok (holdStream i .ending d)
  | 4 => doHsig i s d
  | 5 => doHwait i s d
  | 6 => .ok (if (getStream d i.n (1 - i.stream)).part then holdStream i .xsync d else d)
  | _ => .ok (holdStream i .cbar d)

/-- One legal syllable of a consistent bundle. -/
def doSlot (i : IssueCtx) (imgLen : Nat) (a : Nat × Nat) (d : Dev) : Except Reason Dev :=
  match a.1 with
  | 0 => doScalar i imgLen a.2 d
  | 1 => doVector i a.2 d
  | 2 => .ok (doMatrix i a.2 d)
  | 3 => doLoad i a.2 d
  | 4 => doStore i a.2 d
  | _ => doSync i a.2 d

/-- The syllables of a consistent bundle in slot order: each takes effect or is skipped (R79, R82). -/
def runSlots (i : IssueCtx) (imgLen : Nat) : List (Nat × Nat) → Dev → Dev
  | [], d => d
  | a :: t, d =>
    match doSlot i imgLen a d with
    | .ok d' => runSlots i imgLen t d'
    | .error r =>
      let d := if a.1 = 0 then branchLabel i a.2 d else d
      runSlots i imgLen t (skip i.n i.stream i.pc a.1 a.2 r d)

/-- The 64 bits that a whole-bundle skip logs: the header and the 48 bits after it (R85). -/
def bundleBits (img : List Byte) (pc : Nat) : Nat := leNat ((img.drop pc).take 8)

/-- A bundle is treated in the order of R79. -/
def execBundle (i : IssueCtx) (img : List Byte) (b : Bundle) (d : Dev) : Dev :=
  let whole := bundleBits img i.pc
  let p := bundlePred b
  if bits b.header 0 8 ≠ 0 then skip i.n i.stream i.pc 7 whole .inconsistentBundle d
  else
    let d := if p = 0 then d else onStream i (fun y => { y with ctl := y.ctl ||| plab i.x p }) d
    if !predOf i.x p then d
    else
      let bad := b.slots.filter fun s => !slotLegal s.1 s.2
      let good := b.slots.filter fun s => slotLegal s.1 s.2
      if inconsistent i.x good then
        skip i.n i.stream i.pc 7 whole .inconsistentBundle
          (bad.foldl (fun d s => skip i.n i.stream i.pc s.1 s.2 .illegalSlot d) d)
      else
        -- skips of one bundle are entered in slot order (R83): illegal and executed slots are walked together
        b.slots.foldl (fun d s =>
          if slotLegal s.1 s.2 then runSlots i img.length [s] d
          else skip i.n i.stream i.pc s.1 s.2 .illegalSlot d) d

/-! ## Issue (R37, R50, R60) -/

/-- A stream that has not issued counts as older than one that has (R37). -/
def olderThan (a b : Option Nat) : Bool :=
  match a, b with
  | none, none => true
  | none, some _ => true
  | some _, none => false
  | some x, some y => x < y

/-- The stream that the core's issue logic picks at a clock (R37). -/
def pickStream (d : Dev) (n clk : Nat) : Option Nat :=
  let f := streamReady d n 0 clk
  let b := streamReady d n 1 clk
  if f && b then
    (if olderThan (getStream d n 0).lastIssue (getStream d n 1).lastIssue then some 0 else some 1)
  else if f then some 0 else if b then some 1 else none

/-- Whether a core issues in an arithmetic clock under hold step h: 8 of every 8 + h clocks (R50, log 13). -/
def holdIssues (h clk : Nat) : Bool :=
  let rank (j : Nat) : Nat := Config.holdRank h (clk / (8 + h)) j
  let me := clk % (8 + h)
  ((List.range (8 + h)).filter fun j => rank j < rank me || (rank j == rank me && j < me)).length < 8

/-- A core issues at a clock: not twice in one clock, and not in a clock that the hold withholds (R50, R61). -/
def issueClock (d : Dev) (n clk : Nat) : Bool :=
  let after (x : Stream) : Bool := match x.lastIssue with | none => true | some t => t < clk
  after (getStream d n 0) && after (getStream d n 1) && (d.tck.hold == 0 || holdIssues d.tck.hold clk)

/-- The context of a core's stream reached the end of its image without END (R60). -/
def imageEnd (n stream pc ctx : Nat) (img : List Byte) (d : Dev) : Dev :=
  faultCtx (coreOct n) ctx .fieldRange
    (coreRec d n stream 7 pc (leNat ((img.drop pc).take 8)) (getCore d n).skipsTick) false d

/-- A stream of a core issues a bundle at a clock after its item's dispatch. -/
def issueOn (n st clk item ctx : Nat) (d : Dev) : Dev :=
  let c := getCore d n
  let x := getStream d n st
  match fetchBundle c.icache x.pc with
  | none => imageEnd n st x.pc ctx c.icache d
  | some b =>
    let p := bundlePred b
    let i : IssueCtx :=
      { n := n, stream := st, clk := clk, pc := x.pc, oct := coreOct n, ctx := ctx, item := item,
        vf := (getSht d (coreOct n)).vf,
        cl := if bits b.header 0 8 = 0 then x.ctl ||| plab x p else x.ctl, x := x }
    let d := setStream n st (fun y => { y with
      pc := x.pc + b.size, lastIssue := some clk, busy := y.busy.filter fun e => clk < e.2 }) d
    let d := execBundle i c.icache b d
    let y := getStream d n st
    if y.live && y.wait != .ending && y.pc ≥ c.icache.length then imageEnd n st y.pc ctx c.icache d else d

/-- A core issues a bundle of the stream that its issue logic picks. -/
def issueBundle (n clk : Nat) (d : Dev) : Dev :=
  match (getCore d n).item, (getCore d n).ctx, pickStream d n clk with
  | some item, some ctx, some st => if issueClock d n clk then issueOn n st clk item ctx d else d
  | _, _, _ => d

/-- BUNDLE_ISSUE: a core's issue logic picks a stream for an arithmetic clock, and its ready bundle issues whole
(R37, R61, R79). With no stream ready nothing issues. -/
def execBundleIssue (o : Fin 8) (c : Fin 9) (k : Fin 64) (clk : Nat) (s : State) : Host.Outcome State Fault Refusal :=
  .next { s with dev := whenLive (issueBundle (coreNo o c k) clk) s.dev }

/-! ## LOAD_RETURN (R61, R63) -/

/-- What a returning load writes, with its label: a whole write replaces the label, a partial one joins it (R278). -/
def loadWrite (n st : Nat) (l : LoadOp) (d : Dev) : Dev :=
  match l.target with
  | .reg r => setStream n st (writeSreg r (BitVec.ofNat 32 (leNat l.bytes)) l.label) d
  | .tile t => setStream n st (writeReg t l.bytes l.label) d
  | .scale t =>
    setStream n st (fun x => { x with
      scale := writeBytes x.scale (32 * t) l.bytes
      sclabel := alter 0 t (fun old => if l.partl then old ||| l.label else l.label) x.sclabel }) d
  | .acc t => setCore n (fun c => { c with accLabel := put 0 t l.label c.accLabel }) (writeTile n t l.bytes d)
  | _ => d

/-- The load at an index of a stream's outstanding loads returns, at or after its earliest clock (R63). -/
def loadReturn (n st index clk : Nat) (d : Dev) : Dev :=
  let x := getStream d n st
  match x.loads[index]? with
  | none => d
  | some l =>
    guarded (l.ready ≤ clk)
      (fun d => loadWrite n st l (setStream n st (fun y => { y with loads := y.loads.eraseIdx index }) d)) d

/-- LOAD_RETURN: an outstanding load returns, and what it writes becomes usable (R61, R63). -/
def execLoadReturn (o : Fin 8) (c : Fin 9) (k : Fin 64) (st : Strm) (index clk : Nat) (s : State) :
    Host.Outcome State Fault Refusal :=
  .next { s with dev := whenLive (loadReturn (coreNo o c k) (strmIx st) index clk) s.dev }

end Sys2Proof.Machine
end

