-- ==== Sys2Proof/Machine/Seal.lean ====
section
/-!
DEFINITION. Sealing (11, 10, 14): AES-256-GCM over byte strings, the keys of Transom windows, block records and status
records, and the host addresses of a window's blocks and records.
-/
namespace Sys2Proof.Machine

/-! ## AES-256-GCM

NIST SP 800-38D over the uninterpreted AES-256 and GHASH: PRESUMED (log 11). -/

/-- A byte string as blocks of 16 bytes, the last padded with zeros. -/
def gcmBlocks (l : List Byte) : List (BitVec 128) :=
  (List.range ((l.length + 15) / 16)).map fun i => BitVec.ofNat 128 (beNat (slice l (16 * i) 16))

/-- The i-th counter block of a 12-byte nonce. -/
def gcmCounter (nonce : List Byte) (i : Nat) : BitVec 128 := BitVec.ofNat 128 (beNat nonce * 2 ^ 32 + i)

/-- The first n bytes of the key stream. -/
def gcmStream (key : BitVec 256) (nonce : List Byte) (n : Nat) : List Byte :=
  ((List.range ((n + 15) / 16)).map fun i => natBe 16 (Config.aes256 key (gcmCounter nonce (i + 2))).toNat).flatten

/-- Encryption and decryption of a text. -/
def gcmText (key : BitVec 256) (nonce l : List Byte) : List Byte := List.zipWith (· ^^^ ·) l (gcmStream key nonce l.length)

/-- The 16-byte tag of additional data and a ciphertext. -/
def gcmTag (key : BitVec 256) (nonce aad c : List Byte) : List Byte :=
  let lens : BitVec 128 := BitVec.ofNat 128 (8 * aad.length * 2 ^ 64 + 8 * c.length)
  let h := Config.ghash (Config.aes256 key 0) (gcmBlocks aad ++ gcmBlocks c ++ [lens])
  natBe 16 (h ^^^ Config.aes256 key (gcmCounter nonce 1)).toNat

/-! ## Windows (R292 to R294, R299) -/

/-- The key of a window, or of the dump window, for a role and an epoch: 0 device-written data, 1 host-written data, 2 the
status record. `secret` names the session's export master secret (R293). -/
def windowKey (secret vf w role epoch : Nat) : BitVec 256 :=
  Config.hkdfExpand (Config.exportSecret secret) (ascii "TY2-TRS" ++ natBe 1 vf ++ natBe 1 w ++ natBe 1 role ++ natBe 8 epoch)

/-- The nonce of a block: BLOCK and WSEQ, little-endian (R294). -/
def blockNonce (block wseq : Nat) : List Byte := natLe 4 block ++ natLe 8 wseq

/-- A block sealed: its ciphertext and its 32-byte record (R294). -/
def sealed (key : BitVec 256) (block wseq : Nat) (data : List Byte) : List Byte × List Byte :=
  let aad := natLe 8 wseq ++ natLe 4 block ++ natLe 4 0
  let c := gcmText key (blockNonce block wseq) data
  (c, gcmTag key (blockNonce block wseq) aad c ++ aad)

/-- What a sealed block and its record hold. -/
structure Opened where
  data : List Byte
  wseq : Nat
  block : Nat
  tagOk : Bool
  deriving DecidableEq, Repr

/-- A sealed block opened with its record (R294, R296). -/
def opened (key : BitVec 256) (cipher record : List Byte) : Opened :=
  let wseq := field record 0x10 8
  let block := field record 0x18 4
  { data := gcmText key (blockNonce block wseq) cipher, wseq := wseq, block := block
    tagOk := gcmTag key (blockNonce block wseq) (slice record 0x10 16) cipher == slice record 0 16 }

/-- The 64-byte status record of a window (R299). -/
def statusRecord (key : BitVec 256) (epoch tick size vf w : Nat) (ring hostWritten : Bool) (admitMask : Label) : List Byte :=
  let p := natLe 8 epoch ++ natLe 8 tick ++ natLe 4 size ++ natLe 1 vf ++ natLe 1 w ++ natLe 1 (b2n ring) ++
    natLe 1 (b2n hostWritten) ++ natLe 2 admitMask.toNat ++ natLe 6 0
  let aad := natLe 8 epoch ++ natLe 8 0
  let n := blockNonce 0xFFFFFFFF 0
  let c := gcmText key n p
  c ++ gcmTag key n aad c ++ aad

/-- Bytes of a window's block (R292). -/
def blockSize (x : Win) : Nat := if x.ring then 128 else 4096

/-- Host addresses of a block's data and of its record (R292). -/
def blockAddr (x : Win) (b : Nat) : Nat := x.dataBase * 4096 + blockSize x * b
def recordAddr (x : Win) (b : Nat) : Nat := x.recordBase * 64 + 64 + 32 * b

/-- The key of a window's blocks in its current epoch (R293). -/
def dataKey (v w : Nat) (x : Win) : BitVec 256 := windowKey x.secret v w (b2n x.hostWritten) x.epoch

/-- A window's block is sealed and written with its record (R292 to R294). `seq` is the transfer that asks for it. -/
def writeBlock (v w b wseq : Nat) (seq : Option Word) (data : List Byte) (d : Dev) : Dev :=
  let x := getWin d v w
  let r := sealed (dataKey v w x) b wseq data
  emit (.hostBlock v w b x.epoch wseq seq data [(blockAddr x b, r.1), (recordAddr x b, r.2)]) d

/-- A window's block and its record are asked of the host (R292, R296). -/
def readBlock (v w b : Nat) (seq : Option Word) (d : Dev) : Dev :=
  let x := getWin d v w
  emit (.hostRead v w b seq [(blockAddr x b, blockSize x), (recordAddr x b, 32)]) d

/-- What a window's block as delivered holds, under the keys of the window's present epoch (R296). -/
def openBlock (d : Dev) (v w : Nat) (b : HostBlock) : Opened := opened (dataKey v w (getWin d v w)) b.cipher b.record

/-! ## Slots (R301, R385) -/

/-- The moment lies in the VF's slot of the tick. -/
def inSlot (d : Dev) (v : Nat) : Bool :=
  let s := (getSlot d v).live
  bitAt s 63 && clockAt d (d.tck.start + offsetUnits d (bits s 0 17)) ≤ d.tck.now &&
    d.tck.now < clockAt d (d.tck.start + offsetUnits d (bits s 32 17))

/-- The VF's slot has been open at some moment from t on: in this tick, or in the last one. A request issued then may be
answered later (R301). -/
def slotSince (d : Dev) (v t : Nat) : Bool :=
  let s := (getSlot d v).live
  let lo := clockAt d (d.tck.start + offsetUnits d (bits s 0 17))
  let hi := clockAt d (d.tck.start + offsetUnits d (bits s 32 17))
  bitAt s 63 && ((t < hi && lo ≤ d.tck.now) || t + tickUnits d < hi)

def trsBase : Nat := 0x90000

/-- The host may be asked for a VF at all: Transom's ENABLE reads 1, the link is up and the VF's Bus Master Enable is set (R48,
R385). -/
def hostOpen (d : Dev) (v : Nat) : Bool :=
  (getBlk d trsBase).enable && d.pkg.dlUp && look false (1 + v) d.pkg.busMaster

/-- Transom may issue a request for a VF now: the link is up, Bus Master Enable is set, and its slot is open. -/
def hostReach (d : Dev) (v : Nat) : Bool := hostOpen d v && inSlot d v

/-! ## Status records (R299, R301) -/

/-- A window's status record is written, if it is due and its VF's slot is open (R299, R301). -/
def writeStatus (v w : Nat) (d : Dev) : Dev :=
  let x := getWin d v w
  if !x.statusDue ∨ !hostReach d v then d
  else
    let r := statusRecord (windowKey x.secret v w 2 x.epoch) x.epoch d.tck.count x.size v w x.ring x.hostWritten x.admitMask
    emit (.hostStatus v w x.epoch d.tck.count x.size x.ring x.hostWritten x.admitMask (x.recordBase * 64) r)
      (setWin v w (fun y => { y with statusDue := false }) d)

/-- The status records that are due are written. -/
def writeStatuses (d : Dev) : Dev :=
  (d.win.filter fun e => e.2.statusDue).foldl (fun d e => writeStatus (e.1 / 16) (e.1 % 16) d) d

end Sys2Proof.Machine
end

