-- ==== Sys2Proof/Machine/Tree.lean ====
section
/-!
DEFINITION. The metadata of a stack window (08): its carve, the layout of counter lines, the counter tree with its digests,
both copies and the root, and the metadata cache with its fetches, evictions and write-backs.
-/
namespace Sys2Proof.Machine

/-! ## The carve of a stack window (R179) -/

/-- The areas of a stack window. -/
inductive Area where
  | data | tags | counters | tree | mirror | spare | dump | absent
  deriving DecidableEq, Repr

def areaOf (off : Nat) : Area :=
  if off < 0x1170000000 then .data
  else if off < 0x139E000000 then .tags
  else if off < 0x13E3C00000 then .counters
  else if off < 0x13E8C00000 then .tree
  else if off < 0x13EDC00000 then .mirror
  else if off < 0x13F0000000 then .spare
  else if off < 0x1400000000 then .dump
  else .absent

/-- Physical address of the tag of a data line. -/
def tagAddr (line : Nat) : Nat := line / 2 ^ 31 * 2 ^ 37 + 0x1170000000 + 8 * (line % 2 ^ 31)

/-- Physical address of the counter line of a page. -/
def ctrAddr (page : Nat) : Nat := page / 2 ^ 25 * 2 ^ 37 + 0x139E000000 + 64 * (page % 2 ^ 25)

/-! ## Tree levels (R184) -/

/-- Children of the next level up: counter lines at level 0, nodes above. -/
def levelNodes : Nat → Nat
  | 0 => 18284544
  | 1 => 2285568
  | 2 => 285696
  | 3 => 35712
  | 4 => 4464
  | 5 => 558
  | 6 => 70
  | 7 => 9
  | 8 => 2
  | _ => 0

/-- Base offset of a level in the tree area. -/
def levelBase : Nat → Nat
  | 1 => 0x0000000
  | 2 => 0x45C0000
  | 3 => 0x4E78000
  | 4 => 0x4F8F000
  | 5 => 0x4FB1E00
  | 6 => 0x4FB63C0
  | 7 => 0x4FB6C80
  | _ => 0x4FB6DC0

/-- Physical address of the primary copy of a node. -/
def nodeAddr (s level j : Nat) : Nat := s * 2 ^ 37 + 0x13E3C00000 + levelBase level + 32 * j

/-- Physical address of the mirror copy of a node, in the partner stack (R186). -/
def mirrorAddr (s level j : Nat) : Nat := (s ^^^ 1) * 2 ^ 37 + 0x13E8C00000 + levelBase level + 32 * j

/-- Physical line number of a metadata line: of its primary copy, for a tree line. -/
def metaNo (s : Nat) : MetaLine → Nat
  | .tag i => s * 2 ^ 31 + 0x1170000000 / 64 + i
  | .ctr p => s * 2 ^ 31 + 0x139E000000 / 64 + p
  | .node level l => nodeAddr s level (2 * l) / 64

/-! ## Keys and digests (R177, R185) -/

/-- The n-th of the keys drawn for a domain or a tree: encryption, tag and hash key. -/
def keyDraw (draw n : Nat) : BitVec 256 := Config.draw (3 * draw + n)

/-- The draw of a stack's tree keys K_tree and H_tree. -/
def treeDraw (d : Dev) (s : Nat) : Nat := look 0 s d.ret.treeKey

/-- A counter line: the major counter in bytes 0 to 7 and minor i in bits [70 + 7i : 64 + 7i] (R181). -/
def counterLine (p : PageCtr) : BitVec 512 :=
  BitVec.ofNat 512 (p.major.toNat + 2 ^ 64 * (p.minors.map fun e => e.2 * 2 ^ (7 * e.1)).sum)

/-- The digest of a child at a physical address and a level (R185). -/
def digest (draw a level : Nat) (x : BitVec 512) : BitVec 32 :=
  let blocks := (List.range 4).map fun i => x.extractLsb' (128 * i) 128
  let last : BitVec 128 := BitVec.ofNat 128 (a / 32 % 2 ^ 35 + level * 2 ^ 35)
  let h := Config.ghash (BitVec.ofNat 128 (keyDraw draw 2).toNat) (blocks ++ [last])
  BitVec.ofNat 32 (Config.aes256 (keyDraw draw 0) h).toNat

/-- A node's 32 bytes from its eight digests, zero-padded to 64: digest i in bytes 4i to 4i + 3 (R184, R185). -/
def nodeBits (l : List (BitVec 32)) : BitVec 512 :=
  BitVec.ofNat 512 (l.foldr (fun x n => x.toNat + 2 ^ 32 * n) 0)

/-- Address of the child c at a level: a counter line at level 0, a node above. -/
def childAddr (s level c : Nat) : Nat := if level = 0 then ctrAddr (s * 2 ^ 25 + c) else nodeAddr s level c

/-- The digest of child c of a level in the tree that power-on builds over zero counter lines (R194). -/
def initDigest (draw s : Nat) : Nat → Nat → BitVec 32
  | 0, c => digest draw (childAddr s 0 c) 0 0
  | level + 1, c => digest draw (childAddr s (level + 1) c) (level + 1) (nodeBits ((List.range 8).map fun i =>
      if 8 * c + i < levelNodes level then initDigest draw s level (8 * c + i) else 0))

/-- Key of the digest of child c of a level in the tables of CasStore. -/
def digestKey (s level c : Nat) : Nat := (16 * s + level) * 2 ^ 25 + c

/-- The digest slot of child c of a level, as the engine has it; a slot without a child holds zero (R184). -/
def copySlot (d : Dev) (s level c : Nat) : BitVec 32 :=
  if levelNodes level ≤ c then 0
  else if level = 8 then (look none (2 * s + c) d.ret.root).getD (initDigest (treeDraw d s) s 8 c)
  else (look none (digestKey s level c) d.cas.node).getD (initDigest (treeDraw d s) s level c)

/-- A digest slot written; those of level 8 are the root's (R187). -/
def setCopySlot (s level c : Nat) (x : BitVec 32) (d : Dev) : Dev :=
  if level = 8 then { d with ret := { d.ret with root := place (2 * s + c) (some x) d.ret.root } }
  else { d with cas := { d.cas with node := place (digestKey s level c) (some x) d.cas.node } }

/-- The digest of node j of a level as the engine has the node. -/
def nodeDigest (d : Dev) (s level j : Nat) : BitVec 32 :=
  digest (treeDraw d s) (nodeAddr s level j) level (nodeBits ((List.range 8).map fun i => copySlot d s (level - 1) (8 * j + i)))

/-- The entries of a tree line in one table take the place of those in another. -/
def copySlots (lo hi : Nat) (src dst : Tbl (Option (BitVec 32))) : Tbl (Option (BitVec 32)) :=
  (src.filter fun e => lo ≤ e.1 && e.1 < hi).foldl (fun t e => place e.1 e.2 t) (dropRange lo hi dst)

/-- A tree line written to both copies (R186). -/
def writeCopies (s level l : Nat) (d : Dev) : Dev :=
  let lo := digestKey s (level - 1) (16 * l)
  { d with cas := { d.cas with
    tree := copySlots lo (lo + 16) d.cas.node d.cas.tree, mirror := copySlots lo (lo + 16) d.cas.node d.cas.mirror } }

/-! ## The metadata cache (R197) -/

/-- The line that holds the digest of a metadata line: none above level 8, whose parent is the root. -/
def parentLine : MetaLine → Option MetaLine
  | .tag _ => none
  | .ctr p => some (.node 1 (p / 16))
  | .node level l => if level ≥ 8 then none else some (.node (level + 1) (l / 8))

/-- Tree levels 3 to 8 are pinned. -/
def isPinned : MetaLine → Bool
  | .node level _ => 3 ≤ level
  | _ => false

/-- The set of a line. DESIGN CHOICE: the low bits of its line number (log 79). -/
def cacheSet (m : MetaLine) : Nat := metaNo 0 m % 2048

/-- Pinned lines of a set: the 20,408 lines from the base of level 3. -/
def pinnedIn (i : Nat) : Nat :=
  let lo := (0x13E3C00000 + levelBase 3) / 64
  (lo + 20408 + 2047 - i) / 2048 - (lo + 2047 - i) / 2048

/-- Whether a line is in the cache. -/
def isCached (d : Dev) (s : Nat) (m : MetaLine) : Bool :=
  let x := getStack d s
  if isPinned m then x.pinAll || x.pins.contains m else x.cache.any fun e => e.line == m

/-- A line in the cache becomes the most recently used, and takes a change. -/
def useLine (s : Nat) (m : MetaLine) (f : CacheLine → CacheLine) (d : Dev) : Dev :=
  setStack s (fun x => match x.cache.find? fun e => e.line == m with
    | some e => { x with cache := f e :: x.cache.filter fun y => y.line != m }
    | none => x) d

/-- A cached line becomes dirty, or clean. -/
def setDirty (s : Nat) (m : MetaLine) (b : Bool) (d : Dev) : Dev :=
  if isPinned m then setStack s (fun x => { x with
    pinDirty := if b then (if x.pinDirty.contains m then x.pinDirty else m :: x.pinDirty) else x.pinDirty.filter (· != m) }) d
  else setStack s (fun x => { x with cache := x.cache.map fun e => if e.line = m then { e with dirty := b } else e }) d

/-! ## Write-back (R187) -/

/-- The two nodes of a line: their digests go into their slots of the parent. -/
def digestLine (s level l : Nat) (d : Dev) : Dev :=
  [2 * l, 2 * l + 1].foldl (fun d j =>
    if j < levelNodes level then setCopySlot s level j (nodeDigest d s level j) d else d) d

/-- A digest slot in a tree line has changed: the line is dirty where it is cached, and is else written to both copies with
its own digests renewed in its parent, up to a cached line or the root. `n` is the number of levels left above. -/
def slotChanged (s : Nat) : Nat → Nat → Nat → Dev → Dev
  | 0, _, _, d => d
  | n + 1, level, l, d =>
    if isCached d s (.node level l) then setDirty s (.node level l) true d
    else slotChanged s n (level + 1) (l / 8) (digestLine s level l (writeCopies s level l d))

/-- A line written back: a counter line, or a tree line to both copies; its digest is recomputed in its parent. -/
def writeBack (s : Nat) (m : MetaLine) (d : Dev) : Dev :=
  match m with
  | .tag _ => d
  | .ctr p =>
    let pg := s * 2 ^ 25 + p
    let x := counterLine (look PageCtr.zero pg d.page)
    slotChanged s 8 1 (p / 16) (setCopySlot s 0 p (digest (treeDraw d s) (ctrAddr pg) 0 x)
      { d with cas := { d.cas with ctr := place pg (some x) d.cas.ctr } })
  | .node level l => slotChanged s (8 - level) (level + 1) (l / 8) (digestLine s level l (writeCopies s level l d))

/-- A dirty line is written back and clean. -/
def cleanLine (s : Nat) (m : MetaLine) (d : Dev) : Dev := writeBack s m (setDirty s m false d)

/-- The dirty lines of the cache with a property. -/
def dirtyLines (d : Dev) (s : Nat) (p : MetaLine → Bool) : List MetaLine :=
  let x := getStack d s
  (((x.cache.filter fun e => e.dirty).map (·.line)) ++ x.pinDirty).filter p

/-- Every dirty line of the engine's cache is written back: tags and counter lines, then the tree by rising level (R196). -/
def flushMeta (s : Nat) (d : Dev) : Dev :=
  let leaf (m : MetaLine) : Bool := match m with
    | .node _ _ => false
    | _ => true
  let d := (dirtyLines d s leaf).foldl (fun d m => cleanLine s m d) d
  (List.range 8).foldl (fun d i =>
    let here (m : MetaLine) : Bool := match m with
      | .node level _ => level == i + 1
      | _ => false
    (dirtyLines d s here).foldl (fun d m => cleanLine s m d) d) d

/-- The cache written back and invalidated, as step 1 of a scrub has it (R309). -/
def dropMeta (s : Nat) (d : Dev) : Dev :=
  setStack s (fun x => { x with cache := [], pinAll := false, pins := [], pinDirty := [] }) (flushMeta s d)

/-! ## Fetches (R187, R189, R197) -/

/-- A line enters the cache as the most recently used; where its set is full, the least recently used line of the set leaves
and is written back if it is dirty. -/
def enterLine (s : Nat) (m : MetaLine) (dirty : Bool) (valid : BitVec 8) (d : Dev) : Dev :=
  if isPinned m then setStack s (fun x => { x with pins := m :: x.pins }) d
  else
    let here := (getStack d s).cache.filter fun e => cacheSet e.line == cacheSet m
    let d :=
      if here.length < 16 - pinnedIn (cacheSet m) then d
      else match here.getLast? with
        | none => d
        | some v =>
          let d := setStack s (fun x => { x with cache := x.cache.filter fun e => e.line != v.line }) d
          if v.dirty then writeBack s v.line d else d
    setStack s (fun x => { x with cache := ⟨m, dirty, valid⟩ :: x.cache }) d

/-- The power-on tree: no record of a digest or counter line of the stack is left, and the pinned levels are in the cache
(R194). -/
def buildTree (s : Nat) (d : Dev) : Dev :=
  let drop (t : Tbl (Option (BitVec 32))) := dropRange (digestKey s 0 0) (digestKey (s + 1) 0 0) t
  setStack s (fun x => { x with cache := [], pinAll := true, pins := [], pinDirty := [] })
    { d with
      ret := { d.ret with root := dropRange (2 * s) (2 * s + 2) d.ret.root }
      cas := { d.cas with
        ctr := dropRange (s * 2 ^ 25) ((s + 1) * 2 ^ 25) d.cas.ctr
        node := drop d.cas.node, tree := drop d.cas.tree, mirror := drop d.cas.mirror } }

/-- A counter line changed in the cache is dirty; one that the cache does not hold is fetched for it. -/
def ctrChanged (page : Nat) (d : Dev) : Dev :=
  let s := page / 2 ^ 25
  let m := MetaLine.ctr (page % 2 ^ 25)
  if isCached d s m then setDirty s m true d else enterLine s m true 0xFF d

/-- The tags of a tag line that are written are valid in the cache, and the line is dirty; it is not fetched (R197). -/
def tagsWritten (line : Nat) (mask : BitVec 8) (d : Dev) : Dev :=
  let s := line / 2 ^ 31
  let m := MetaLine.tag (line % 2 ^ 31 / 8)
  if isCached d s m then useLine s m (fun e => { e with dirty := true, valid := e.valid ||| mask }) d
  else enterLine s m true mask d

end Sys2Proof.Machine
end

