-- ==== Sys2Proof/Machine/Casement.lean ====
section
/-!
DEFINITION. HBM behind the Casement engines (07, 08): the outer code, counters, poison marks, tag checks, alarms, regions
and rotation; HBM_READ, HBM_FULL_WRITE, HBM_PARTIAL_WRITE, PATROL_READ, REGION_INIT.
-/
namespace Sys2Proof.Machine

/-! ## Regions and pages -/

def getPage (d : Dev) (pg : Nat) : PageCtr := look PageCtr.zero pg d.page
def setPage (pg : Nat) (f : PageCtr → PageCtr) (d : Dev) : Dev := { d with page := alter PageCtr.zero pg f d.page }

/-- Index of a line within its page. -/
def lineIx (pa : Nat) : Nat := pa / 64 % 64

/-- Minor counter of a line; 0x7F is the poison mark (R181). -/
def minorOf (p : PageCtr) (i : Nat) : Nat := look 0 i p.minors

/-- A line takes the poison mark, in the cached counter line (R161, R181, R191). -/
def markLine (line : Nat) (d : Dev) : Dev :=
  ctrChanged (line / 64) (setPage (line / 64) (fun p => { p with minors := put 0 (line % 64) 0x7F p.minors }) d)

/-- A page in the zero state keeps only its poison marks (R181). -/
def zeroPage (p : PageCtr) : PageCtr := { major := 0, minors := p.minors.filter fun e => e.2 == 0x7F }

/-- Listed pages put into the zero state: each counter line is written to HBM and both copies of the tree follow up to its
level 2 (R181, R195). -/
def zeroPages (pages : List Nat) (d : Dev) : Dev :=
  let d := pages.foldl (fun d pg => setPage pg zeroPage d) d
  let d := pages.foldl (fun d pg => cleanLine (pg / 2 ^ 25) (.ctr (pg % 2 ^ 25)) d) d
  [1, 2].foldl (fun d level =>
    ((pages.map fun pg => (pg / 2 ^ 25, pg % 2 ^ 25 / (2 * 8 ^ level))).eraseDups.filter fun e =>
      isCached d e.1 (.node level e.2)).foldl (fun d e => cleanLine e.1 (.node level e.2) d) d) d

/-- A region put into the zero state: every page of it, and its contents read as zeros (R181, R195). -/
def zeroRegion (r : Nat) (d : Dev) : Dev :=
  let b := regionBase r
  let pages := (d.page.filter fun e => b / 4096 ≤ e.1 && e.1 < b / 4096 + 512).map (·.1)
  let d := zeroPages pages d
  setRegion r (fun x => { x with initPending := false, undef := 0 }) { d with hbm := zeroRange d.hbm b (b + 2 ^ 21) }

/-- An access to a region that is INIT_PENDING waits while it is initialised ahead of the others (R195). -/
def awaitRegion (pa : Nat) (d : Dev) : Dev :=
  if (getRegion d (regionOf pa)).initPending then zeroRegion (regionOf pa) d else d

/-! ## Keys, encryption and tags (R177, R180) -/

/-- The block of four 128-bit quantities that a 64-byte line is. -/
def lineBlock (l : List Byte) (j : Nat) : BitVec 128 := BitVec.ofNat 128 (field l (16 * j) 16)

/-- Counter block Q_j of a line (R180). -/
def counterBlock (pa : Nat) (major : DWord) (minor j : Nat) : BitVec 128 :=
  BitVec.ofNat 128 (pa / 64 + minor * 2 ^ 34 + j * 2 ^ 41 + major.toNat * 2 ^ 64)

/-- The ciphertext of a data line under its domain's key and counter (R180). -/
def lineCipher (draw pa : Nat) (major : DWord) (minor : Nat) (p : List Byte) : List (BitVec 128) :=
  (List.range 4).map fun j => lineBlock p j ^^^ Config.aes256 (keyDraw draw 0) (counterBlock pa major minor j)

/-- The stored tag of a data line (R180). -/
def lineTag (draw pa : Nat) (major : DWord) (minor : Nat) (p : List Byte) : DWord :=
  let b : BitVec 128 := BitVec.ofNat 128 (pa / 64 + minor * 2 ^ 34 + major.toNat * 2 ^ 64)
  let s := Config.ghash (BitVec.ofNat 128 (keyDraw draw 2).toNat) (lineCipher draw pa major minor p ++ [b])
  BitVec.ofNat 64 (Config.aes256 (keyDraw draw 1) s).toNat

/-! ## Contents -/

/-- The mask of undefined contents of a region: an epoch of 0 is no mask (R151, log 10). -/
def undefMask (e a : Nat) (b : Byte) : Byte := if e = 0 then b else b ^^^ Config.freeByte e a

/-- Plaintext bytes of protected data. -/
def hbmPeek (d : Dev) (pa n : Nat) : List Byte :=
  (List.range n).map fun i => undefMask (getRegion d (regionOf (pa + i))).undef (pa + i) (readByte d.hbm (pa + i))

/-- Plaintext bytes of protected data replaced. -/
def hbmPoke (pa : Nat) (bs : List Byte) (d : Dev) : Dev :=
  let e := (getRegion d (regionOf pa)).undef
  { d with hbm := writeBytes d.hbm pa (bs.mapIdx fun i b => undefMask e (pa + i) b) }

/-- The draw of the keys of the domain that a line's region is recorded under (R177, R178); 0 is no domain. -/
def lineKey (d : Dev) (line : Nat) : Nat :=
  match (getRegion d (regionOf (line * 64))).domain with
  | some k => look 0 k d.ret.domKey
  | none => 0

/-- A data line encrypted under its domain's key and its counters, and written with its tag (R180). -/
def sealLine (line : Nat) (d : Dev) : Dev :=
  let pg := getPage d (line / 64)
  let k := lineKey d line
  let n := minorOf pg (line % 64)
  let p := hbmPeek d (line * 64) 64
  let x : Sealed := { key := some k, major := pg.major, minor := n,
                      cipher := lineCipher k (line * 64) pg.major n p, tag := lineTag k (line * 64) pg.major n p }
  { d with cas := { d.cas with line := place line x d.cas.line } }

/-- Lines of a page sealed again, and their tags put into the cache. -/
def sealLines (pg : Nat) (is : List Nat) (d : Dev) : Dev :=
  let d := is.foldl (fun d i => sealLine (pg * 64 + i) d) d
  (List.range 8).foldl (fun d t =>
    let mask := is.foldl (fun (m : BitVec 8) i => if i / 8 = t then set8 m (i % 8) else m) 0
    if mask = 0 then d else tagsWritten (pg * 64 + 8 * t) mask d) d

/-- The stored tag is that of the line under its present address, key and counters (R180, R188). -/
def tagHolds (d : Dev) (line : Nat) : Bool :=
  let pg := getPage d (line / 64)
  let x := look Sealed.zero line d.cas.line
  x.key == some (lineKey d line) && x.major == pg.major && x.minor == minorOf pg (line % 64)

/-! ## Failures (R160, R189 to R191) -/

/-- What an access to HBM gives: a value, or a reason with the DETAIL of its record (R355). -/
abbrev HbmResult (α : Type) := Except (Reason × List Byte) α

/-- DETAIL of a fault that an HBM line caused (R355). -/
def hbmDetail (line requester kind alarms : Nat) : List Byte :=
  natLe 8 line ++ natLe 1 (line / 2 ^ 31) ++ natLe 1 requester ++ natLe 1 kind ++ natLe 1 alarms

/-- A record of the engine's own: the stack, the line and the requester (R191, R355); it names no partition. -/
def casRec (line : Nat) (r : Reason) (detail : List Byte) : FaultRec :=
  { recBase with reason := r, source := 7, engine := some (line / 2 ^ 31), detail := detail }

/-- CAS_ERR_LAST records a line and a kind. -/
def errLast (line kind : Nat) (d : Dev) : Dev :=
  setStack (line / 2 ^ 31) (fun s => { s with errLine := line, errKind := kind, errTick := d.tck.count % 2 ^ 26, errNew := true }) d

/-- An uncorrectable line counted, and recorded in MCH_ECC_LAST with its source (R160, R162). -/
def eccRecord (line source : Nat) (d : Dev) : Dev :=
  setStack (line / 2 ^ 31) (fun s => { s with
    uncorrectable := satAdd 0xFFFF s.uncorrectable 1, eccLine := line, eccNew := true, eccSource := source
    eccTick := d.tck.count % 2 ^ 28 }) d

/-- A data line poisoned by the outer code (R160, R162). A line that a page bump finds so has SOURCE 1, a read of its
requester: DESIGN CHOICE (log 57). -/
def eccPoison (line source : Nat) (d : Dev) : Dev := markLine line (eccRecord line source d)

/-- A line that the outer code corrected (R160). -/
def eccCorrect (s : Nat) (d : Dev) : Dev := setStack s (fun x => { x with corrected := satAdd 0xFFFFFFFF x.corrected 1 }) d

/-- Alarms that lie within the window before this moment (R190). -/
def alarmsNow (d : Dev) (s : Nat) : List Nat :=
  d.ret.alarms.filter fun t => d.tck.now - t ≤ (getStack d s).alarmMs * 1000000 * nsUnits

/-- DETAIL of a failure at a line that is no alarm: ALARMS are those of the window as it stands (R355). -/
def lineDetail (d : Dev) (line requester kind : Nat) : List Byte :=
  hbmDetail line requester kind (alarmsNow d (line / 2 ^ 31)).length

/-- A security alarm at a line: recorded, counted by Porter at the time of the failing check, and lockdown on the third
within CAS_ALARM_WINDOW (R189 to R191). -/
def alarm (line requester kind : Nat) (d : Dev) : Dev :=
  let recent := alarmsNow d (line / 2 ^ 31)
  let r := casRec line .integrityFail (hbmDetail line requester kind (recent.length + 1))
  let d := { errLast line kind d with ret := { d.ret with alarms := (d.tck.now :: d.ret.alarms).take 3 } }
  if recent.length ≥ 2 then lockdown r d else record r false d

/-- METADATA_FAIL: lockdown at once (R189). -/
def metadataFail (line requester : Nat) (d : Dev) : Dev :=
  lockdown (casRec line .metadataFail (lineDetail d line requester 7)) (errLast line 7 d)

/-- A tree-line copy is rewritten from the other copy (R189). -/
def treeRepair (line kind : Nat) (d : Dev) : Dev :=
  errLast line kind (setStack (line / 2 ^ 31) (fun s => { s with treeRepaired := satAdd 0xFFFF s.treeRepaired 1 }) d)

/-- An uncorrectable tag line: each of its 8 data lines that is not in a zero-state page is marked, and the tag line is
rewritten in full (R189). `t` is its physical line number; LINE names that line (log 57). -/
def tagLineLost (t : Nat) (d : Dev) : Dev :=
  let s := t / 2 ^ 31
  let line := s * 2 ^ 31 + (t % 2 ^ 31 - 0x1170000000 / 64) * 8
  let d := errLast t 4 (setStack s (fun x => { x with taglineLost := satAdd 0xFFFF x.taglineLost 1 }) d)
  let d := if (getPage d (line / 64)).major = 0 then d else (List.range 8).foldl (fun d i => markLine (line + i) d) d
  tagsWritten line 0xFF d

/-- What an access meets on one metadata line that it fetches (R189): true when the access may go on. -/
def meetLine (t requester : Nat) : List LineEvent → Dev → Bool × Dev
  | [], d => (true, d)
  | e :: rest, d =>
    let fails (d : Dev) : Bool × Dev := (false, metadataFail t requester d)
    match e with
    | .counterBad l => if l = t then fails d else meetLine t requester rest d
    | .treeBothBad l => if l = t then fails d else meetLine t requester rest d
    | .treeCopyLost l => meetLine t requester rest (if l = t then treeRepair t 5 d else d)
    | .treeCopyAltered l =>
      if l = t then
        let d := alarm t requester 6 (treeRepair t 6 d)
        if live d then meetLine t requester rest d else (false, d)
      else meetLine t requester rest d
    | _ => meetLine t requester rest d

/-- A tree line fetched, unless it is in the cache: its parent first, then the line, verified (R187). At level 8 the parent is
the root. `n` is the number of levels from this one to the top. -/
def fetchTree (s requester : Nat) (ev : LineEvent) : Nat → Nat → Nat → Dev → Bool × Dev
  | 0, _, _, d => if ev.parts.contains .rootBad then (false, metadataFail (metaNo s (.node 8 0)) requester d) else (true, d)
  | n + 1, level, l, d =>
    let m := MetaLine.node level l
    if isCached d s m then (true, useLine s m (fun e => e) d)
    else
      let (ok, d) := fetchTree s requester ev n (level + 1) (l / 8) d
      if !ok then (false, d)
      else
        let (ok, d) := meetLine (metaNo s m) requester ev.parts d
        if !ok then (false, d) else (true, enterLine s m false 0xFF d)

/-- The counter line of a page fetched and verified, unless it is in the cache: true when the access may go on (R187). -/
def fetchCtr (page requester : Nat) (ev : LineEvent) (d : Dev) : Bool × Dev :=
  let s := page / 2 ^ 25
  let p := page % 2 ^ 25
  if isCached d s (.ctr p) then (true, useLine s (.ctr p) (fun e => e) d)
  else
    let (ok, d) := fetchTree s requester ev 8 1 (p / 16) d
    if !ok then (false, d)
    else
      let (ok, d) := meetLine (metaNo s (.ctr p)) requester ev.parts d
      if !ok then (false, d) else (true, enterLine s (.ctr p) false 0xFF d)

/-- The tag of a data line fetched with its tag line, unless the cache holds it: false where the tag line is lost (R189,
R197). -/
def fetchTag (line : Nat) (ev : LineEvent) (d : Dev) : Bool × Dev :=
  let s := line / 2 ^ 31
  let m := MetaLine.tag (line % 2 ^ 31 / 8)
  let held := (getStack d s).cache.any fun e => e.line == m && has8 e.valid (line % 8)
  if held then (true, useLine s m (fun e => e) d)
  else if ev.parts.contains (.tagLineLost (metaNo s m)) then (false, tagLineLost (metaNo s m) d)
  else if isCached d s m then (true, useLine s m (fun e => { e with valid := 0xFF }) d)
  else (true, enterLine s m false 0xFF d)

/-! ## The read flow (R188) -/

/-- Erroneous symbols that the stack delivers on a data line. -/
def symbolsAt (line : Nat) (ev : LineEvent) : Nat :=
  (ev.parts.map fun e => match e with
    | .dataSymbols l n => if l = line then n else 0
    | _ => 0).foldl max 0

/-- The line or its tag as delivered is not the one that was written. -/
def alteredAt (line : Nat) (ev : LineEvent) : Bool := ev.parts.contains (.dataAltered line)

/-- What the outer code and the tag find on a data line. -/
inductive LineCheck where
  | good | poisoned | tagFail
  deriving DecidableEq, Repr

/-- The outer code, then the tag, on a data line whose page is not in the zero state (R160, R188). -/
def checkLine (line : Nat) (ev : LineEvent) (d : Dev) : LineCheck × Dev :=
  let n := symbolsAt line ev
  if n = 3 ∨ n = 4 then (.poisoned, eccPoison line 1 d)
  else
    let d := if n = 1 ∨ n = 2 then eccCorrect (line / 2 ^ 31) d else d
    let (ok, d) := fetchTag line ev d
    if !ok then (.poisoned, d)
    else if n > 4 ∨ alteredAt line ev ∨ !tagHolds d line then
      (.tagFail, markLine line (setStack (line / 2 ^ 31) (fun s => { s with tagFail := satAdd 0xFFFF s.tagFail 1 }) d))
    else (.good, d)

/-- The checks of an access on its data line: what fails, with its DETAIL. `kind` is 1 on a read and 2 on a partial write
(CAS_ERR_LAST.KIND). -/
def readData (line requester kind : Nat) (ev : LineEvent) (d : Dev) : HbmResult Unit × Dev :=
  match checkLine line ev d with
  | (.good, d) => (.ok (), d)
  | (.poisoned, d) => (.error (.poisoned, lineDetail d line requester 0), d)
  | (.tagFail, d) =>
    let n := (alarmsNow d (line / 2 ^ 31)).length + 1
    (.error (.integrityFail, hbmDetail line requester kind n), alarm line requester kind d)

/-- A read of one data line: its 64 plaintext bytes, or POISONED, INTEGRITY_FAIL or METADATA_FAIL (R188). -/
def readLine (pa requester kind : Nat) (ev : LineEvent) (d : Dev) : HbmResult (List Byte) × Dev :=
  let line := pa / 64
  let d := awaitRegion pa d
  let (ok, d) := fetchCtr (line / 64) requester ev d
  if !ok then (.error (.metadataFail, lineDetail d line requester 7), d)
  else
    let pg := getPage d (line / 64)
    if minorOf pg (line % 64) = 0x7F then (.error (.poisoned, lineDetail d line requester 0), d)
    else if pg.major = 0 then (.ok (List.replicate 64 0), d)
    else
      match readData line requester kind ev d with
      | (.ok _, d) => (.ok (hbmPeek d (line * 64) 64), d)
      | (.error e, d) => (.error e, d)

/-! ## The write flow (R182, R183, R188) -/

/-- A page bump reads and checks one other line as a read does: one that fails is marked, and a tag failure raises an alarm
whose record names no requester (R183). -/
def bumpLine (line : Nat) (ev : LineEvent) (d : Dev) : Dev :=
  if minorOf (getPage d (line / 64)) (line % 64) = 0x7F then d
  else match checkLine line ev d with
    | (.tagFail, d) => alarm line 0xFF 3 d
    | (_, d) => d

/-- The other lines of the page, in ascending order. -/
def bumpPage (line : Nat) (ev : LineEvent) (d : Dev) : Dev :=
  ((List.range 64).filter fun i => i != line % 64).foldl (fun d i =>
    if live d then bumpLine (line / 64 * 64 + i) ev d else d) d

/-- The counters of a page after a write of one of its lines (R182). -/
def countWrite (i : Nat) (p : PageCtr) : PageCtr :=
  let marks := p.minors.filter fun e => e.2 == 0x7F && e.1 != i
  if p.major = 0 then { major := 1, minors := marks }
  else if minorOf p i ≥ 126 then { major := p.major + 1, minors := marks }
  else { p with minors := put 0 i (minorOf p i + 1) p.minors }

/-- The lines of a page that are not marked poisoned. -/
def unmarked (d : Dev) (pg : Nat) : List Nat := (List.range 64).filter fun i => minorOf (getPage d pg) i != 0x7F

/-- A full-line write: the counter moves, with a page bump where R182 asks for one, and the line takes its contents; the first
write of a zero-state page and a bump write its other lines too. -/
def writeLine (pa requester : Nat) (bs : List Byte) (ev : LineEvent) (d : Dev) : HbmResult Unit × Dev :=
  let line := pa / 64
  let d := awaitRegion pa d
  let (ok, d) := fetchCtr (line / 64) requester ev d
  if !ok then (.error (.metadataFail, lineDetail d line requester 7), d)
  else
    let pg := getPage d (line / 64)
    let bump : Bool := pg.major ≠ 0 ∧ minorOf pg (line % 64) ≥ 126
    let d := if bump then bumpPage line ev
        (setStack (line / 2 ^ 31) (fun s => { s with bumps := satAdd 0xFFFF s.bumps 1 }) d) else d
    if !live d then (.ok (), d)
    else
      let d := hbmPoke (line * 64) bs (ctrChanged (line / 64) (setPage (line / 64) (countWrite (line % 64)) d))
      let is := if bump ∨ pg.major = 0 then unmarked d (line / 64) else [line % 64]
      (.ok (), sealLines (line / 64) is d)

/-- A partial write: refused on a poisoned line, merged over zeros in a zero-state page, else read, merged and written
(R188). -/
def writePart (pa requester : Nat) (bs : List Byte) (ev : LineEvent) (d : Dev) : HbmResult Unit × Dev :=
  let line := pa / 64
  let d := awaitRegion pa d
  match readLine pa requester 2 ev d with
  | (.error e, d) => (.error e, d)
  | (.ok old, d) =>
    let off := pa % 64
    writeLine (line * 64) requester (old.take off ++ bs ++ old.drop (off + bs.length)) ev d

/-- One chunk that writes all 64 lines of a page and their tags; only the counter line is read (R182). -/
def writePage (pg requester : Nat) (bs : List Byte) (ev : LineEvent) (d : Dev) : HbmResult Unit × Dev :=
  let d := awaitRegion (pg * 4096) d
  let (ok, d) := fetchCtr pg requester ev d
  if !ok then (.error (.metadataFail, lineDetail d (pg * 64) requester 7), d)
  else
    let d := ctrChanged pg (setPage pg (fun p => { major := p.major + 1, minors := [] }) d)
    (.ok (), sealLines pg (List.range 64) (hbmPoke (pg * 4096) bs d))

/-! ## Ranges -/

/-- The lines that a range of bytes covers, as (address, bytes) pieces that each lie in one line. -/
def linePieces (pa n : Nat) : List (Nat × Nat) :=
  (pagesOf 64 pa n).map fun l =>
    let lo := max pa (l * 64)
    let hi := min (pa + n) (l * 64 + 64)
    (lo, hi - lo)

/-- A range read line by line; the first failing line ends it. -/
def readPieces (requester : Nat) (ev : LineEvent) : List (Nat × Nat) → List Byte → Dev → HbmResult (List Byte) × Dev
  | [], acc, d => (.ok acc, d)
  | p :: t, acc, d =>
    match readLine p.1 requester 1 ev d with
    | (.error e, d) => (.error e, d)
    | (.ok l, d) => readPieces requester ev t (acc ++ slice l (p.1 % 64) p.2) d

/-- Bytes read from HBM by a requester. -/
def hbmRead (requester pa n : Nat) (ev : LineEvent) (d : Dev) : HbmResult (List Byte) × Dev :=
  readPieces requester ev (linePieces pa n) [] d

/-- Data written into a region adds its label to the region's (R159). -/
def joinLabel (pa : Nat) (l : Label) (d : Dev) : Dev := setRegion (regionOf pa) (fun x => { x with label := x.label ||| l }) d

/-- A range written line by line, each line with the written data's label; the first failing line ends it (R159). -/
def writePieces (requester : Nat) (l : Label) (ev : LineEvent) : List (Nat × Nat) → List Byte → Dev → HbmResult Unit × Dev
  | [], _, d => (.ok (), d)
  | p :: t, bs, d =>
    let r := if p.2 = 64 then writeLine p.1 requester (bs.take 64) ev d
      else writePart p.1 requester (bs.take p.2) ev d
    match r with
    | (.error e, d) => (.error e, d)
    | (.ok _, d) => writePieces requester l ev t (bs.drop p.2) (joinLabel p.1 l d)

/-- Bytes written to HBM by a requester in one chunk, with the written data's label (R159). -/
def hbmWrite (requester pa : Nat) (bs : List Byte) (l : Label) (ev : LineEvent) (d : Dev) : HbmResult Unit × Dev :=
  if pa % 4096 = 0 ∧ bs.length = 4096 then
    match writePage (pa / 4096) requester bs ev d with
    | (.ok _, d) => (.ok (), joinLabel pa l d)
    | (.error e, d) => (.error e, d)
  else writePieces requester l ev (linePieces pa bs.length) bs d

/-! ## Domains (R178, R195) -/

/-- A new draw of Porter's random generator (log 9). -/
def newDraw (d : Dev) : Nat × Dev := (d.ret.rng + 1, { d with ret := { d.ret with rng := d.ret.rng + 1 } })

/-- A key domain rotated: new keys, and every region recorded under it INIT_PENDING with the empty label (R159, R195). -/
def rotateDomain (k : Nat) (d : Dev) : Dev :=
  let (n, d) := newDraw d
  { d with
    ret := { d.ret with domKey := put 0 k n d.ret.domKey, domHash := put none k none d.ret.domHash }
    region := d.region.filterMap fun e =>
      let x := if e.2.domain = some k then { e.2 with initPending := true, label := 0 } else e.2
      if x = Region.zero then none else some (e.1, x) }

/-- The first use after an L3 of a key domain that was kept with a charter's hash: it stays as it is only in a partition
whose charter of that hash is ACTIVE; any other use rotates it first (R364). -/
def useDomain (v k : Nat) (d : Dev) : Dev :=
  if !d.ptr.heldDoms.contains k then d
  else
    let c := getCharter d v
    let kept := c.state == .active && look none k d.ret.domHash == some c.hash
    let d := { d with ptr := { d.ptr with heldDoms := d.ptr.heldDoms.filter (· != k) } }
    if kept then d else rotateDomain k d

/-- A key domain that comes into use has its keys drawn (R177). -/
def domainKeys (k : Nat) (d : Dev) : Dev :=
  if look 0 k d.ret.domKey ≠ 0 then d
  else
    let (n, d) := newDraw d
    { d with ret := { d.ret with domKey := put 0 k n d.ret.domKey } }

/-- A physical region mapped under a key domain: bound at its first mapping, INIT_PENDING under another domain (R178). -/
def bindRegion (r k : Nat) (d : Dev) : Dev :=
  setRegion r (fun x =>
    match x.domain with
    | none => { x with domain := some k }
    | some k' => if k' = k then x else { x with domain := some k, initPending := true }) (domainKeys k d)

/-- Regions of a stack that are INIT_PENDING (CAS_INIT.PENDING). -/
def initPendingCount (d : Dev) (s : Nat) : Nat :=
  if (getStack d s).inited then (d.region.filter fun e => e.1 / 65536 == s && e.2.initPending).length else regionsPerStack

/-! ## The commands -/

/-- Protected data of an initialised stack (R154). -/
def hbmPresent (pa : Nat) : Bool := pa < 2 ^ 40 && pa % 2 ^ 37 < dataSpan

/-- A bus read by a requester: it receives the line or the error, or nothing where the failing check ends in lockdown
(R191). -/
def busRead (requester pa : Nat) (ev : LineEvent) (d : Dev) : Dev :=
  let (r, d) := readLine pa requester 1 ev d
  if !live d then d
  else match r with
    | .ok bs => emit (.busData requester bs) d
    | .error e => emit (.busError requester e.1) d

/-- A bus write's answer: an error goes to the requester unless the device is in lockdown. -/
def busWrite (requester : Nat) (r : HbmResult Unit × Dev) : Dev :=
  if !live r.2 then r.2
  else match r.1 with
    | .ok _ => r.2
    | .error e => emit (.busError requester e.1) r.2

/-- An access to a stack acts once the stack is initialised (R194). -/
def whenStack (pa : Nat) (f : Dev → Dev) (d : Dev) : Dev :=
  guarded (live d && (getStack d (stackOf pa)).rootValid) f d

/-- HBM_READ (R188). -/
def execHbmRead (requester pa : Nat) (ev : LineEvent) (s : State) : Host.Outcome State Fault Refusal :=
  if hbmPresent pa then .next { s with dev := whenStack pa (busRead requester pa ev) s.dev }
  else .fault (.absentAddress pa)

/-- HBM_FULL_WRITE (R188). -/
def execHbmFullWrite (requester pa : Nat) (data : List Byte) (ev : LineEvent) (s : State) :
    Host.Outcome State Fault Refusal :=
  if hbmPresent pa then
    .next { s with dev := whenStack pa (fun d => busWrite requester (writeLine pa requester data ev d)) s.dev }
  else .fault (.absentAddress pa)

/-- HBM_PARTIAL_WRITE (R188). -/
def execHbmPartialWrite (requester pa : Nat) (data : List Byte) (ev : LineEvent) (s : State) :
    Host.Outcome State Fault Refusal :=
  if hbmPresent pa then
    .next { s with dev := whenStack pa (fun d => busWrite requester (writePart pa requester data ev d)) s.dev }
  else .fault (.absentAddress pa)

/-- Lines of one patrol pass (R162). -/
def patrolLines : Nat := 1342177280

/-- An uncorrectable line found by patrol: poisoned data, a lost tag line, METADATA_FAIL for a counter line, a repaired
tree copy; a line of the spare or dump area holds no line to mark and is only recorded (R162, R189). -/
def patrolBad (pa : Nat) (both : Bool) (d : Dev) : Dev :=
  match areaOf (pa % 2 ^ 37) with
  | .data =>
    if minorOf (getPage d (pa / 4096)) (lineIx pa) = 0x7F then d else eccPoison (pa / 64) 2 d
  | .tags => tagLineLost (pa / 64) d
  | .counters => metadataFail (pa / 64) 19 d
  | .tree => if both then metadataFail (pa / 64) 19 d else treeRepair (pa / 64) 5 d
  | .mirror => if both then metadataFail (pa / 64) 19 d else treeRepair (pa / 64) 5 d
  | .spare => eccRecord (pa / 64) 2 d
  | .dump => eccRecord (pa / 64) 2 d
  | .absent => d

/-- A patrol read of a line: the outer code only, never a tag or a digest (R162, R189). -/
def patrolRead (pa : Nat) (ev : LineEvent) (d : Dev) : Dev :=
  let s := pa / 2 ^ 37
  let d := setStack s (fun x =>
    if x.patrolPos + 1 = patrolLines then { x with patrolPos := 0, patrolPasses := (x.patrolPasses + 1) % 65536 }
    else { x with patrolPos := x.patrolPos + 1 }) d
  let area := areaOf (pa % 2 ^ 37)
  match ev with
  | .dataSymbols _ n => if n = 0 ∨ n > 4 then d else if n ≤ 2 then eccCorrect s d else patrolBad pa false d
  | .tagLineLost _ => if area = .tags then patrolBad pa false d else d
  | .counterBad _ => if area = .counters then patrolBad pa false d else d
  | .treeCopyLost _ => if area = .tree ∨ area = .mirror then patrolBad pa false d else d
  | .treeBothBad _ => if area = .tree ∨ area = .mirror then patrolBad pa true d else d
  | _ => d

/-- PATROL_READ (R162). -/
def execPatrolRead (pa : Nat) (ev : LineEvent) (s : State) : Host.Outcome State Fault Refusal :=
  if pa < 2 ^ 40 ∧ areaOf (pa % 2 ^ 37) ≠ .absent then .next { s with dev := whenStack pa (patrolRead pa ev) s.dev }
  else .fault (.absentAddress pa)

/-- REGION_INIT: the background initialiser puts a region that is INIT_PENDING into the zero state (R195). -/
def execRegionInit (s : Fin 8) (region : Nat) (st : State) : Host.Outcome State Fault Refusal :=
  let r := 65536 * s.val + region
  .next { st with dev := guarded (live st.dev && (getRegion st.dev r).initPending) (zeroRegion r) st.dev }

end Sys2Proof.Machine
end

