-- ==== Sys2Proof/Machine/Stow.lean ====
section
/-!
DEFINITION. The Stow codec (06): pages, groups and element models, as the Relay engines code and decode them.
-/
namespace Sys2Proof.Machine

/-- Place of the sign bit, lowest exponent bit and widths of exponent and mantissa of an element model (R136). -/
def stowElem (efmt : Nat) : Nat × Nat × Nat × Nat :=
  match efmt with
  | 0 => (7, 3, 4, 3)
  | 1 => (7, 2, 5, 2)
  | 2 => (5, 3, 2, 3)
  | _ => (5, 2, 3, 2)

def stowSign (efmt b : Nat) : Nat := bits b (stowElem efmt).1 1
def stowExp (efmt b : Nat) : Nat := bits b (stowElem efmt).2.1 (stowElem efmt).2.2.1
def stowMan (efmt b : Nat) : Nat := bits b 0 (stowElem efmt).2.2.2
def stowManW (efmt : Nat) : Nat := (stowElem efmt).2.2.2

/-- The byte of an element's fields. -/
def stowByte (efmt s e m : Nat) : Nat := s * 2 ^ (stowElem efmt).1 + e % 2 ^ (stowElem efmt).2.2.1 * 2 ^ (stowElem efmt).2.1 + m

/-- Differences between the exponents of successive elements. -/
def expDeltas : List Nat → List Int
  | a :: b :: t => ((b : Int) - a) :: expDeltas (b :: t)
  | _ => []

/-- A difference fits a width in two's complement. -/
def deltaFits (w : Nat) (x : Int) : Bool := if w = 0 then x == 0 else -(2 ^ (w - 1) : Int) ≤ x && x < 2 ^ (w - 1)

/-- The smallest width in which every difference fits (R136). -/
def deltaWidth (l : List Int) : Nat := ((List.range 7).find? fun w => l.all (deltaFits w)).getD 6

/-- A bit string filled from bit 0 upward, from (width, value) fields. -/
def packBits : List (Nat × Nat) → Nat
  | [] => 0
  | (w, v) :: t => v % 2 ^ w + 2 ^ w * packBits t

/-- The exponent-delta code of a group of 32 bytes that are not all zero (R136). -/
def deltaCode (efmt : Nat) (g : List Byte) : List Byte :=
  let bs := g.map (·.toNat)
  let nz := bs.filter (· != 0)
  let mask := packBits (bs.map fun b => (1, b2n (b == 0)))
  let exps := nz.map (stowExp efmt)
  let ds := expDeltas exps
  let w := deltaWidth ds
  let m := stowManW efmt
  let elem (b : Nat) : List (Nat × Nat) := [(1, stowSign efmt b), (m, stowMan efmt b)]
  let first := (nz.take 1).map elem
  let rest := (nz.drop 1).zipWith (fun b x => elem b ++ [(w, unsigned w x)]) ds
  let n := nz.length
  natLe 4 mask ++ natLe 1 (exps.headD 0 + 32 * w) ++
    natLe ((n * (1 + m) + (n - 1) * w + 7) / 8) (packBits (first ++ rest).flatten)

/-- A group's tag and payload (R135). -/
def stowGroup (efmt : Nat) (g : List Byte) : Nat × List Byte :=
  if allZero g then (0, [])
  else if efmt ≤ 3 ∧ !(2 ≤ efmt && g.any fun b => b.toNat ≥ 64) ∧ (deltaCode efmt g).length < 32 then
    (1, deltaCode efmt g)
  else (2, g)

/-- A stow page of raw bytes (R134, R135); `full` asks for the full size of 4,160 bytes (R138). -/
def stowEncode (efmt : Nat) (raw : List Byte) (page tag : Nat) (full : Bool) : List Byte :=
  let groups := (List.range 128).map fun g => stowGroup efmt (slice raw (32 * g) 32)
  let tags := natLe 32 (packBits (groups.map fun g => (2, g.1)))
  let body := (groups.map (·.2)).flatten
  let csize := if full then 4160 else (48 + body.length + 63) / 64 * 64
  slice (natLe 1 1 ++ natLe 1 efmt ++ natLe 2 raw.length ++ natLe 2 csize ++ natLe 2 0 ++ natLe 4 page ++ natLe 4 tag ++
    tags ++ body) 0 csize

/-- Number of zero bits of a 32-bit mask. -/
def clearBits (x : Nat) : Nat := ((List.range 32).filter fun i => !bitAt x i).length

/-- Length of a group's code at an offset of a page: none where a reserved value stands (R135 to R137). -/
def stowLen (efmt tag : Nat) (p : List Byte) (off : Nat) : Option Nat :=
  match tag with
  | 0 => some 0
  | 1 =>
    let n := clearBits (field p off 4)
    let w := bits (byteAt p (off + 4)) 5 3
    if efmt > 3 ∨ w = 7 then none else some (5 + (n * (1 + stowManW efmt) + (n - 1) * w + 7) / 8)
  | 2 => some 32
  | _ => none

/-- Elements of a bit string, one for each non-zero place. -/
def stowElems (efmt w : Nat) : Nat → Nat → Option Nat → Nat → List Nat
  | 0, _, _, _ => []
  | n + 1, str, prev, first =>
    let m := stowManW efmt
    let s := bits str 0 1
    let man := bits str 1 m
    match prev with
    | none => stowByte efmt s first man :: stowElems efmt w n (str / 2 ^ (1 + m)) (some first) first
    | some e =>
      let x := unsigned 8 ((e : Int) + (if w = 0 then 0 else signed w (bits str (1 + m) w)))
      stowByte efmt s x man :: stowElems efmt w n (str / 2 ^ (1 + m + w)) (some x) first

/-- The 32 bytes that elements and a zero mask spell. -/
def stowSpread : List Bool → List Nat → List Byte
  | [], _ => []
  | true :: t, l => 0 :: stowSpread t l
  | false :: t, l => BitVec.ofNat 8 (l.headD 0) :: stowSpread t (l.drop 1)

/-- The 32 bytes of a group. -/
def stowDecodeGroup (efmt tag : Nat) (p : List Byte) (off len : Nat) : List Byte :=
  match tag with
  | 0 => List.replicate 32 0
  | 1 =>
    let mask := field p off 4
    let h := byteAt p (off + 4)
    stowSpread ((List.range 32).map (bitAt mask))
      (stowElems efmt (bits h 5 3) (clearBits mask) (leNat (slice p (off + 5) (len - 5))) none (bits h 0 5))
  | _ => slice p off 32

/-- The groups from one on, each at the offset where the one before ended; none where a group is not valid. -/
def stowGroups (efmt : Nat) (p : List Byte) (limit : Nat) : List Nat → Nat → Option (List Byte)
  | [], _ => some []
  | g :: t, off =>
    let tag := bits (byteAt p (16 + g / 4)) (2 * (g % 4)) 2
    match stowLen efmt tag p off with
    | none => none
    | some n =>
      if off + n > limit then none
      else (stowGroups efmt p limit t (off + n)).map (stowDecodeGroup efmt tag p off n ++ ·)

/-- A page decoded: its raw bytes, or the reason that R137 gives. -/
def stowDecode (p : List Byte) (page tag : Nat) : Except Reason (List Byte) :=
  let efmt := byteAt p 1
  let rawlen := field p 2 2
  let csize := field p 4 2
  if byteAt p 0 ≠ 1 ∨ efmt > 4 ∨ field p 6 2 ≠ 0 ∨ rawlen = 0 ∨ rawlen > 4096 ∨ csize < 64 ∨ csize > 4160 ∨ csize % 64 ≠ 0
  then .error .fieldRange
  else match stowGroups efmt p csize (List.range 128) 48 with
    | none => .error .fieldRange
    | some raw =>
      if field p 8 4 ≠ page ∨ field p 12 4 ≠ tag then .error .fieldConflict else .ok (raw.take rawlen)

/-- CSIZE of a page from its header, for the read of the rest of it. -/
def stowCsize (header : List Byte) : Nat := field header 4 2

/-- A page header whose CSIZE can be fetched; any other fails the checks of R137 with what follows it unread. -/
def stowHeaderOk (h : List Byte) : Bool := 64 ≤ stowCsize h && stowCsize h ≤ 4160 && stowCsize h % 64 == 0

end Sys2Proof.Machine
end

