-- ==== Sys2Proof/Machine/Relay.lean ====
section
/-!
DEFINITION. Relay engines (07, 06, 11): the descriptor's checks at dispatch, Threshold pools, the chunks that a transfer
moves between its endpoints, and the assembly of Transom blocks.
-/
namespace Sys2Proof.Machine

/-! ## Endpoints of a descriptor (R163) -/

/-- Kind of the source or of the destination. -/
def rdEpKind (raw : List Byte) (src : Bool) : Nat := if src then rdSrcKind raw else rdDstKind raw
def rdEpAddr (raw : List Byte) (src : Bool) : Nat := if src then rdSrc raw else rdDst raw

/-- Rows of an endpoint as (address, bytes). -/
def rdRowList (raw : List Byte) (src : Bool) : List (Nat × Nat) :=
  (List.range (rdRows raw)).map fun r =>
    (rdEpAddr raw src + r * (if src then rdSrcStride raw else rdDstStride raw), rdRowBytes raw)

def rdIsStow (raw : List Byte) : Bool := rdKind raw == 3 || rdKind raw == 4

/-- The stream side of a stow descriptor: it is contiguous from its address (log 16). -/
def streamSide (raw : List Byte) (src : Bool) : Bool := (rdKind raw == 3 && !src) || (rdKind raw == 4 && src)

/-- Raw bytes that a transfer moves. -/
def rdTotal (raw : List Byte) : Nat := rdRows raw * rdRowBytes raw

/-- Pages of a stow transfer. -/
def stowPages (raw : List Byte) : Nat := (rdTotal raw + 4095) / 4096

/-- The ranges of an endpoint that the dispatch checks examine. A stow stream's length is not known then: what they examine of
it is what it takes at least, 64 bytes a page (R134, log 16). -/
def epRows (raw : List Byte) (src : Bool) : List (Nat × Nat) :=
  if streamSide raw src then [(rdEpAddr raw src, max 64 (stowPages raw * 64))] else rdRowList raw src

/-- Granule size at which a chunk of an endpoint kind ends (R165). -/
def epPage (kind : Nat) : Nat := match kind with
  | 0 => 2 ^ 21
  | 1 => 65536
  | _ => 4096

/-- Octant of a kind-1 or kind-2 address. -/
def epOct (kind a : Nat) : Nat := if kind = 1 then a / 2 ^ 26 else a / 2 ^ 27
def epClu (kind a : Nat) : Nat := if kind = 1 then a / 2 ^ 22 % 16 else a / 2 ^ 23 % 16

/-- Region-aligned virtual addresses that a range touches. -/
def vaPages (a n : Nat) : List Nat := (pagesOf (2 ^ 21) a n).map (· * 2 ^ 21)

/-- Window of a window-set offset. -/
def winOf (d : Dev) (v a : Nat) : Win := getWin d v (a / 2 ^ 36)

/-! ## Checks at dispatch (R164) -/

/-- Row 1: kinds, reserved fields, lengths, strides, the pattern and the stream side. A FILL whose source is no pattern fails it too
(DESIGN CHOICE, log 87). -/
def relayForm (raw : List Byte) : Bool :=
  let k := rdKind raw
  let addrOk (kind a : Nat) : Bool := match kind with
    | 0 => a < 2 ^ 48
    | 1 => a < 2 ^ 29
    | 2 => a < 2 ^ 30
    | 3 => a < 2 ^ 40
    | _ => a == 0
  let streamOk (kind : Nat) : Bool := kind == 0 || kind == 1 || kind == 3
  1 ≤ k && k ≤ 4 && rdSrcKind raw ≤ 4 && rdDstKind raw ≤ 3 && (rdSrcKind raw == 4) == (k == 2) &&
  byteAt raw 0x23 == 0 && field raw 0x2C 4 == 0 && field raw 0x58 8 == 0 &&
  1 ≤ rdRows raw && rdRows raw ≤ 65536 && rdRowBytes raw % 8 == 0 && 8 ≤ rdRowBytes raw &&
  rdRowBytes raw ≤ 16777216 && rdTotal raw ≤ 2 ^ 31 && field raw 0x40 4 % 8 == 0 && field raw 0x44 4 % 8 == 0 &&
  (k == 2 || allZero (rdPattern raw)) && addrOk (rdSrcKind raw) (rdSrc raw) && addrOk (rdDstKind raw) (rdDst raw) &&
  (k != 3 || streamOk (rdDstKind raw)) && (k != 4 || streamOk (rdSrcKind raw))

/-- Row 2 for one range of an endpoint. -/
def rangeOk (d : Dev) (o ctx kind : Nat) (r : Nat × Nat) : Bool :=
  match kind with
  | 0 => (vaPages r.1 r.2).all fun va => (resolveVa d o ctx va).isSome
  | 1 => r.1 < 2 ^ 29 && r.1 % 2 ^ 22 + r.2 ≤ 2 ^ 22
  | 2 => r.1 < 2 ^ 30 && r.1 % 2 ^ 17 + r.2 ≤ 2 ^ 17
  | 3 =>
    let w := winOf d (getSht d o).vf r.1
    r.1 + r.2 ≤ 2 ^ 40 && !(w.ring && 0 < w.epoch)
  | _ => true

/-- Row 3 for one range: the partition's octants, the region's permission, the partition's windows (R292, R295, R300). -/
def rangeOwner (d : Dev) (o ctx kind : Nat) (src : Bool) (r : Nat × Nat) : Option Reason :=
  match kind with
  | 0 => if (vaPages r.1 r.2).all fun va => vaPermitted d o ctx va !src then none else some .notOwner
  | 1 => if samePart d o (epOct 1 r.1) then none else some .notOwner
  | 2 => if samePart d o (epOct 2 r.1) then none else some .notOwner
  | 3 =>
    let w := winOf d (getSht d o).vf r.1
    if w.epoch = 0 ∨ r.1 % 2 ^ 36 + r.2 > w.size * 4096 ∨ (!src ∧ w.hostWritten) then some .notOwner
    else if !w.live then some .notReady
    else none
  | _ => none

/-- Row 4 for one range. -/
def rangePresent (d : Dev) (kind : Nat) (r : Nat × Nat) : Bool :=
  if kind = 1 ∨ kind = 2 then clusterPresent d (epClu kind r.1) else true

/-- The translations that a transfer resolves at its dispatch (R148, R158); a stow stream resolves all that its longest
form could use. -/
def relayMaps (d : Dev) (o ctx : Nat) (raw : List Byte) (src : Bool) : List Mapping :=
  if rdEpKind raw src ≠ 0 then []
  else
    let rows := if streamSide raw src then [(rdEpAddr raw src, stowPages raw * 4160)] else rdRowList raw src
    let vas := (rows.map fun r => vaPages r.1 r.2).flatten.eraseDups
    vas.filterMap (resolveVa d o ctx)

/-- Pools that a range touches. -/
def poolsAt (d : Dev) (r : Nat × Nat) : List Nat :=
  (List.range 64).filter fun i =>
    let p := getPool d i
    p.en && overlap r.1 r.2 (poolRange p).1 (poolRange p).2

/-- Pools that an endpoint touches. -/
def epPools (d : Dev) (raw : List Byte) (src : Bool) : List Nat :=
  if rdEpKind raw src = 1 then ((epRows raw src).map (poolsAt d)).flatten.eraseDups else []

/-- Ascending rows cover a range. -/
def covers (rows : List (Nat × Nat)) (a n : Nat) : Bool :=
  a + n ≤ rows.foldl (fun cur r => if r.1 ≤ cur then max cur (r.1 + r.2) else cur) a

/-- The refusals of R288 and R290. -/
def poolRefusal (d : Dev) (raw : List Byte) : Bool :=
  let src := epPools d raw true
  let dst := epPools d raw false
  match rdKind raw with
  | 1 => dst.any fun i => (getPool d i).state != .open
  | 2 => dst.any fun i =>
      !(allZero (rdPattern raw) && covers (rdRowList raw false) (poolRange (getPool d i)).1 (poolRange (getPool d i)).2)
  | _ => !src.isEmpty || !dst.isEmpty

/-- K of a partition's charter (R287). -/
def poolMet (d : Dev) (p : Pool) : Bool := (getCharter d p.vf).k ≤ parties p.parties

/-- The label that a read of a range of cluster memory carries: a CLOSED pool has its own (R277, R290). -/
def cmemLabelOf (d : Dev) (a n : Nat) : Label :=
  match poolAt d a n with
  | some i =>
    let p := getPool d i
    if p.state = .closed then (if poolMet d p then 0 else p.label)
    else unionAll ((pagesOf 65536 a n).map fun g => look 0 g d.cmemLabel)
  | none => unionAll ((pagesOf 65536 a n).map fun g => look 0 g d.cmemLabel)

/-- The label of data read from a window (R298). -/
def winLabel (w : Win) : Label :=
  if w.hostWritten then (if w.partyValid then partyBit w.party else 0) else w.admitMask

/-- The label of a source range (R165, R277, R298). -/
def rangeLabel (d : Dev) (v kind : Nat) (maps : List Mapping) (r : Nat × Nat) : Label :=
  match kind with
  | 0 => unionAll ((vaPages r.1 r.2).map fun va => match findMap maps va with
      | some m => (getRegion d m.base).label
      | none => 0)
  | 1 => cmemLabelOf d r.1 r.2
  | 2 => unionAll ((pagesOf 4096 r.1 r.2).map fun g => look 0 g d.spadLabel)
  | 3 => winLabel (winOf d v r.1)
  | _ => 0

/-- Whether a label is admitted by the destination of a range (R281). A Threshold pool has no admit mask: it refuses chunk by
chunk (R289). -/
def rangeAdmits (d : Dev) (v kind : Nat) (maps : List Mapping) (l : Label) (r : Nat × Nat) : Bool :=
  match kind with
  | 0 => (vaPages r.1 r.2).all fun va => match findMap maps va with
      | some m => admitted l m.admitMask
      | none => true
  | 3 => admitted l (winOf d v r.1).admitMask
  | 1 => (poolAt d r.1 r.2).isSome || admitted l (onDieAdmit d v)
  | _ => admitted l (onDieAdmit d v)

/-- A COPY's dispatch closes the OPEN pools that its source lies in (R290). -/
def closePools (raw : List Byte) (d : Dev) : Dev :=
  if rdKind raw ≠ 1 then d
  else (epPools d raw true).foldl (fun d i =>
    setPool i (fun p => if p.state = .open then { p with state := .closed, unmet := !poolMet d p } else p) d) d

/-- Rows 1 to 5 of R164 in their order; what passes gives the translations. -/
def relayPlace (d : Dev) (o ctx : Nat) (raw : List Byte) : Except Reason (List Mapping) :=
  let v := (getSht d o).vf
  let eps := [true, false]
  let bad2 := eps.any fun s => (epRows raw s).any fun r => !rangeOk d o ctx (rdEpKind raw s) r
  let w := winOf d v (rdDst raw)
  let unaligned := rdDstKind raw = 3 ∧ 0 < w.epoch ∧ rdDst raw % 2 ^ 36 < w.size * 4096 ∧ !w.ring ∧ !w.hostWritten ∧
    rdDst raw % 4096 ≠ 0
  let bad3 := eps.findSome? fun s => (epRows raw s).findSome? (rangeOwner d o ctx (rdEpKind raw s) s)
  let bad4 := eps.any fun s => (epRows raw s).any fun r => !rangePresent d (rdEpKind raw s) r
  let dstMaps := relayMaps d o ctx raw false
  if !relayForm raw then .error .fieldRange
  else if bad2 ∨ unaligned then .error .fieldRange
  else match bad3 with
    | some r => .error r
    | none =>
      if bad4 then .error .engineAbsent
      else match dstMaps.findSome? (versionRefusal d o) with
        | some r => .error r
        | none => .ok (relayMaps d o ctx raw true ++ dstMaps)

/-- The union of a descriptor's source labels (R164). -/
def sourceLabel (d : Dev) (o : Nat) (raw : List Byte) (maps : List Mapping) : Label :=
  unionAll ((epRows raw true).map (rangeLabel d (getSht d o).vf (rdSrcKind raw) maps))

/-- Row 6 of R164, then the refusals of R228, R288 and R290. -/
def relayRefusal (d : Dev) (o : Nat) (raw : List Byte) (maps : List Mapping) : Option Reason :=
  let locked := rdDstKind raw = 1 ∧ ((epRows raw false).any fun r => imageLocked d r.1 r.2)
  let l := sourceLabel d o raw maps
  if (epRows raw false).any fun r => !rangeAdmits d (getSht d o).vf (rdDstKind raw) maps l r then some .labelDenied
  else if locked ∨ poolRefusal d raw then some .fieldConflict
  else none

/-- The checks of R164 in their order, then those of R228, R288 and R290, with the pools of the source closed; what passes
gives the translations. -/
def relayCheck (d : Dev) (o ctx : Nat) (raw : List Byte) : Except Reason (List Mapping) :=
  match relayPlace d o ctx raw with
  | .error r => .error r
  | .ok maps => match relayRefusal (closePools raw d) o raw maps with
    | some r => .error r
    | none => .ok maps

/-! ## Transfers -/

def xferIs (o e : Nat) (seq : Word) (x : Xfer) : Bool := x.oct == o && x.eng == e && x.seq == seq
def findXfer (d : Dev) (o e : Nat) (seq : Word) : Option Xfer := d.xfers.find? (xferIs o e seq)
def setXfer (y : Xfer) (d : Dev) : Dev :=
  { d with xfers := d.xfers.map fun x => if xferIs y.oct y.eng y.seq x then y else x }
def dropXfer (y : Xfer) (d : Dev) : Dev := { d with xfers := d.xfers.filter fun x => !xferIs y.oct y.eng y.seq x }

/-- A transfer that is ACTIVE or PARTIAL and not yet done or faulted. -/
def xferOpen (x : Xfer) : Bool := x.fault.isNone && !x.allDone

/-- The descriptor of a transfer. -/
def xferRaw (d : Dev) (x : Xfer) : List Byte := match cmdById d x.cmd with
  | some c => c.raw
  | none => []

/-- Bytes 0x04 to 0x17 of a Relay completion record (R168). -/
def relayInfo (o e : Nat) (seq : Word) (done stow : Nat) : List Byte :=
  natLe 4 seq.toNat ++ natLe 8 done ++ natLe 4 stow ++ natLe 1 (o + 8 * e) ++ natLe 3 0

/-- The record of a Relay fault: of the command class (R355, R358). -/
def relayRec (d : Dev) (o e cmd : Nat) (r : Reason) (detail : List Byte) : FaultRec :=
  match cmdById d cmd with
  | some c => { recAt d o r 3 with context := some c.ctx, queue := some c.q, engine := some e, tag := cmdTag c.raw,
                                   ringSlot := c.slot, detail := detail }
  | none => { recAt d o r 3 with engine := some e, detail := detail }

/-- A transfer faults: recorded with a SOURCE, 3 or for a Transom transfer 5, its staging buffer dropped; it moves no more
data (R166, R171, R354). -/
def relayFault (x : Xfer) (source : Nat) (r : Reason) (detail : List Byte) (boundary : Bool) (d : Dev) : Dev :=
  let detail := if detail.isEmpty then natLe 4 x.seq.toNat ++ natLe 8 x.bytesDone else detail
  record { relayRec d x.oct x.eng x.cmd r detail with source := source } boundary
    (setXfer { x with fault := some r, staging := [], staged := 0, asm := [], waiting := none } d)

/-- A transfer faults at an access of its own. A tag failure of an HBM line has left its record already, with the
transfer's engine as requester (R191, R355, R358), so the transfer adds none. What the window refuses is a fault of the
Transom transfer. -/
def relayFail (x : Xfer) (e : Reason × List Byte) (d : Dev) : Dev :=
  if e.1 = .integrityFail ∧ e.2.isEmpty = false then
    setXfer { x with fault := some e.1, staging := [], staged := 0, asm := [], waiting := none } d
  else
    let atWindow : Bool := e.1 == .notReady || (e.1 == .fieldConflict && rdEpKind (xferRaw d x) false == 3)
    relayFault x (if atWindow then 5 else 3) e.1 e.2 false d

/-- The engine's next sequence number, taken (R167). -/
def takeSeq (o e : Nat) (d : Dev) : Word × Dev :=
  let r := getRle d o
  if e = 0 then (r.seq0, setRle o (fun r => { r with seq0 := r.seq0 + 1 }) d)
  else (r.seq1, setRle o (fun r => { r with seq1 := r.seq1 + 1 }) d)

/-- A transfer that enters an engine. -/
def newXfer (d : Dev) (o e : Nat) (seq : Word) (cmd ctx : Nat) : Xfer :=
  { oct := o, eng := e, seq := seq, cmd := cmd, ctx := ctx, partl := false, left := (getRle d o).deadline.live,
    maps := [], row := 0, off := 0, bytesDone := 0, stowBytes := 0, stowBuf := [], page := 0, cursor := 0, label := 0,
    srcLabel := 0, fabric := false, pools := [], staging := [], staged := 0, asm := [], waiting := none,
    answered := false, allDone := false, fault := none }

/-- An engine runs as many transfers as it can (R167). -/
def engineFull (d : Dev) (o e : Nat) : Bool := 8 ≤ (d.xfers.filter fun x => x.oct == o && x.eng == e).length

/-- A RELAY command dispatches into its window and is checked; one that passes becomes ACTIVE and takes its sequence number
(R163, R164, R167). Its dispatch closes the pools of its source, whatever the label check says (R290). -/
def relayDispatch (id : Nat) (d : Dev) : Dev :=
  match cmdById d id with
  | none => d
  | some c =>
    let e := resIndex (cmdResource c.raw)
    let refuse (r : Reason) (d : Dev) : Dev :=
      finish id .faulted r (relayInfo c.oct e (Config.noSeq id) 0 0) false (record (relayRec d c.oct e id r []) false d)
    match relayPlace d c.oct c.ctx c.raw with
    | .error r => refuse r d
    | .ok maps =>
      let d := closePools c.raw d
      match relayRefusal d c.oct c.raw maps with
      | some r => refuse r d
      | none =>
        let l := sourceLabel d c.oct c.raw maps
        let (seq, d) := takeSeq c.oct e d
        let x := { newXfer d c.oct e seq id c.ctx with maps := maps, page := rdFirstPage c.raw, srcLabel := l }
        let d := setCmd id (fun c => { c with phase := .active, began := d.tck.now, waitLeft := none }) d
        { d with xfers := d.xfers ++ [x] }

/-! ## Waits for the host (R169, R171) -/

/-- A request of the transfer to the host is outstanding: a read without its answer, or the write of its next block, which
Transom may issue and the host has not accepted. A function whose Bus Master Enable is 0 counts as a host that does not answer
(R385). -/
def hostOwes (d : Dev) (x : Xfer) : Bool :=
  let v := (getSht d x.oct).vf
  let raw := xferRaw d x
  (rdSrcKind raw == 3 || rdDstKind raw == 3) &&
    (x.waiting.isSome || !hostOpen d v || (rdDstKind raw == 3 && inSlot d v))

/-- The transfer waits on a Transom window: for an answer, for its slot, or for the host to accept its blocks (R171). -/
def waitsHost (d : Dev) (x : Xfer) : Bool :=
  let raw := xferRaw d x
  !x.fabric && ((rdSrcKind raw == 3 && (x.waiting.isSome || !hostReach d (getSht d x.oct).vf)) || rdDstKind raw == 3)

/-! ## Reading (R165, R166, R169) -/

/-- What a read of a chunk gives: bytes and label; nothing yet, while the host has not answered; or a fault. -/
abbrev ChunkRead := HbmResult (Option (List Byte × Label))

/-- One range of a source, which lies in one page or region of it. What a stow stream reaches beyond what its dispatch could
check is checked here (R156, R164, R288). -/
def readRange (x : Xfer) (raw : List Byte) (kind a n : Nat) (ev : LineEvent) (d : Dev) : ChunkRead × Dev :=
  let v := (getSht d x.oct).vf
  match kind with
  | 0 =>
    match findMap x.maps a with
    | none => (.error (.fieldRange, []), d)
    | some m =>
      let l := (getRegion d m.base).label
      if !m.rd then (.error (.notOwner, []), d)
      else match hbmRead (2 * x.oct + x.eng) (mapPa m a) n ev d with
      | (.ok bs, d) => (.ok (some (bs, l)), d)
      | (.error e, d) => (.error e, d)
  | 1 =>
    if streamSide raw true ∧ a / 2 ^ 22 ≠ rdSrc raw / 2 ^ 22 then (.error (.fieldRange, []), d)
    else if rdIsStow raw ∧ (poolAt d a n).isSome then (.error (.fieldConflict, []), d)
    else (.ok (some (readBytes d.cmem a n, cmemLabelOf d a n)), d)
  | 2 => (.ok (some (readBytes d.spad a n, unionAll ((pagesOf 4096 a n).map fun g => look 0 g d.spadLabel))), d)
  | 3 =>
    if !(winOf d v a).live then (.error (.notReady, []), d)
    else if a % 2 ^ 36 + n > (winOf d v a).size * 4096 then (.error (.notOwner, []), d)
    else match x.staging.find? fun e => e.1 == a / 4096 with
      | some e => (.ok (some (slice e.2 (a % 4096) n, winLabel (winOf d v a))), d)
      | none =>
        if x.waiting.isSome ∨ !hostReach d v then (.ok none, d)
        else (.ok none, readBlock v (a / 2 ^ 36) (a % 2 ^ 36 / 4096) (some x.seq)
              (setXfer { x with waiting := some (a / 4096) } d))
  | _ => (.ok (some ((List.range n).map fun i => (rdPattern raw).getD ((x.off + i) % 8) 0, 0)), d)

/-- Ranges that each lie in one page or region, from a longer range. -/
def splitPages (kind a n : Nat) : List (Nat × Nat) :=
  (pagesOf (epPage kind) a n).map fun p =>
    let lo := max a (p * epPage kind)
    (lo, min (a + n) ((p + 1) * epPage kind) - lo)

/-- Several ranges read in turn; the label is the union. -/
def readRanges (x : Xfer) (raw : List Byte) (kind : Nat) (ev : LineEvent) :
    List (Nat × Nat) → List Byte → Label → Dev → ChunkRead × Dev
  | [], acc, l, d => (.ok (some (acc, l)), d)
  | r :: t, acc, l, d =>
    match readRange x raw kind r.1 r.2 ev d with
    | (.ok (some p), d) => readRanges x raw kind ev t (acc ++ p.1) (l ||| p.2) d
    | (.ok none, d) => (.ok none, d)
    | (.error e, d) => (.error e, d)

/-! ## Writing (R165, R289, R295) -/

/-- Whether a chunk may be written to a range, which lies in one page or region (R147, R228, R281, R289, R290, R295,
R300). -/
def writeRefusal (d : Dev) (x : Xfer) (raw : List Byte) (kind : Nat) (l : Label) (r : Nat × Nat) : Option Reason :=
  let v := (getSht d x.oct).vf
  match kind with
  | 0 =>
    match findMap x.maps r.1 with
    | none => some .fieldRange
    | some m =>
      if !m.wr then some .notOwner
      else if !admitted l m.admitMask then some .labelDenied
      else versionRefusal d x.oct m
  | 1 =>
    match poolAt d r.1 r.2 with
    | some i =>
      if rdKind raw = 2 then (if imageLocked d r.1 r.2 then some .fieldConflict else none)
      else if rdKind raw ≠ 1 ∨ (getPool d i).state ≠ .open then some .fieldConflict
      else if r.1 % 4 ≠ 0 ∨ r.2 % 4 ≠ 0 then some .fieldRange
      else if parties l > 1 then some .labelDenied
      else if imageLocked d r.1 r.2 then some .fieldConflict
      else none
    | none =>
      if streamSide raw false ∧ r.1 / 2 ^ 22 ≠ rdDst raw / 2 ^ 22 then some .fieldRange
      else if !admitted l (onDieAdmit d v) then some .labelDenied
      else if imageLocked d r.1 r.2 then some .fieldConflict
      else none
  | 3 =>
    let w := winOf d v r.1
    if !w.live then some .notReady
    else if r.1 % 2 ^ 36 + r.2 > w.size * 4096 then some .notOwner
    else if !admitted l w.admitMask then some .labelDenied
    else if w.written.contains (r.1 % 2 ^ 36 / 4096) then some .fieldConflict
    else none
  | _ => if admitted l (onDieAdmit d v) then none else some .labelDenied

/-- FP32 values added to those at an address, with whether any value or sum is not finite (R289). -/
def poolAdd (m : Memory) (a : Nat) : List Byte → Memory × Bool
  | b0 :: b1 :: b2 :: b3 :: t =>
    let v : Word := BitVec.ofNat 32 (leNat [b0, b1, b2, b3])
    let s := add32 (BitVec.ofNat 32 (leNat (readBytes m a 4))) v
    let rest := poolAdd (writeBytes m a (natLe 4 s.toNat)) (a + 4) t
    (rest.1, nonFinite32 v || nonFinite32 s || rest.2)
  | _ => (m, false)

/-- A chunk added into an OPEN pool (R289). -/
def poolChunk (i : Nat) (x : Xfer) (a : Nat) (bs : List Byte) (l : Label) (d : Dev) : Dev :=
  let (m, nf) := poolAdd d.cmem a bs
  let d := setPool i (fun p => { p with
    parties := p.parties ||| l, label := p.label ||| l, nonfinite := p.nonfinite || nf
    contrib := if x.pools.contains i then p.contrib else satAdd 0xFFFF p.contrib 1 }) { d with cmem := m }
  match findXfer d x.oct x.eng x.seq with
  | some y => if y.pools.contains i then d else setXfer { y with pools := i :: y.pools } d
  | none => d

/-- Labels of the pages of a written range: raised, and emptied at the end of a page that a FILL covers whole (R165,
R278). -/
def pageLabels (raw : List Byte) (size : Nat) (tbl : Tbl Label) (a n : Nat) (l : Label) : Tbl Label :=
  (pagesOf size a n).foldl (fun t p =>
    if rdKind raw = 2 ∧ a + n = (p + 1) * size ∧ covers (rdRowList raw false) (p * size) size then put 0 p 0 t
    else alter 0 p (· ||| l) t) tbl

/-- One range of a destination written; an HBM write may fault (R166, R189). -/
def writeRange (x : Xfer) (raw : List Byte) (kind a : Nat) (bs : List Byte) (l : Label) (ev : LineEvent) (d : Dev) :
    HbmResult Unit × Dev :=
  match kind with
  | 0 =>
    match findMap x.maps a with
    | none => (.error (.fieldRange, []), d)
    | some m => hbmWrite (2 * x.oct + x.eng) (mapPa m a) bs l ev d
  | 1 =>
    let d := { d with cmemLabel := pageLabels raw 65536 d.cmemLabel a bs.length l }
    match poolAt d a bs.length with
    | some i => if rdKind raw = 2 then (.ok (), { d with cmem := writeBytes d.cmem a bs }) else (.ok (), poolChunk i x a bs l d)
    | none => (.ok (), { d with cmem := writeBytes d.cmem a bs })
  | 2 =>
    (.ok (), { d with spad := writeBytes d.spad a bs, spadLabel := pageLabels raw 4096 d.spadLabel a bs.length l })
  | _ =>
    match findXfer d x.oct x.eng x.seq with
    | some y => (.ok (), setXfer { y with asm := alter [] (a / 4096) (fun m => writeBytes m (a % 4096) bs) y.asm } d)
    | none => (.ok (), d)

def writeRanges (x : Xfer) (raw : List Byte) (kind : Nat) (l : Label) (ev : LineEvent) :
    List (Nat × Nat) → List Byte → Dev → HbmResult Unit × Dev
  | [], _, d => (.ok (), d)
  | r :: t, bs, d =>
    match writeRange x raw kind r.1 (bs.take r.2) l ev d with
    | (.ok _, d) => writeRanges x raw kind l ev t (bs.drop r.2) d
    | (.error e, d) => (.error e, d)

/-- Bytes written to ranges: every range is checked before any byte is written (R165). -/
def writeChunk (x : Xfer) (raw : List Byte) (ranges : List (Nat × Nat)) (bs : List Byte) (l : Label) (ev : LineEvent)
    (d : Dev) : HbmResult Unit × Dev :=
  let kind := rdDstKind raw
  let rs := (ranges.map fun r => splitPages kind r.1 r.2).flatten
  match rs.findSome? (writeRefusal d x raw kind l) with
  | some r => (.error (r, []), d)
  | none => writeRanges x raw kind l ev rs bs d

/-! ## Sealing Transom blocks (R294, R295) -/

/-- Window-set blocks that ranges reach. -/
def blocksOf (rs : List (Nat × Nat)) : List Nat := ((rs.map fun r => pagesOf 4096 r.1 r.2).flatten).eraseDups

/-- A block of a device-written DATA window is sealed and sent once. -/
def sealBlock (seq : Word) (v : Nat) (blk : Nat) (m : Memory) (d : Dev) : Dev :=
  let w := blk / 2 ^ 24
  let b := blk % 2 ^ 24
  writeBlock v w b 0 (some seq) (readBytes m 0 4096) (setWin v w (fun x => { x with written := b :: x.written }) d)

/-- The rows that a transfer has still to write. -/
def rowsLeft (raw : List Byte) (x : Xfer) : List (Nat × Nat) :=
  if streamSide raw false then (if x.allDone then [] else [(rdDst raw + x.cursor, stowPages raw * 4160)])
  else ((rdRowList raw false).drop x.row).mapIdx fun i r => if i = 0 then (r.1 + x.off, r.2 - x.off) else r

/-- The rows that a transfer has written. -/
def rowsDone (raw : List Byte) (x : Xfer) : List (Nat × Nat) :=
  if streamSide raw false then [(rdDst raw, x.cursor)]
  else ((rdRowList raw false).take (x.row + 1)).mapIdx fun i r => if i = x.row then (r.1, x.off) else r

/-- Blocks that the transfer has reached and no later row can reach are sealed (R295). A block in which only zeros were
placed is listed in no memory, so the blocks reached are counted from the rows. -/
def sealReady (x : Xfer) (d : Dev) : Dev :=
  match findXfer d x.oct x.eng x.seq with
  | none => d
  | some y =>
    let raw := xferRaw d y
    let v := (getSht d y.oct).vf
    let left := blocksOf (rowsLeft raw y)
    let ready := (blocksOf (rowsDone raw y)).filter fun b => !left.contains b && !(getWin d v (b / 2 ^ 24)).written.contains (b % 2 ^ 24)
    ready.foldl (fun d b => sealBlock y.seq v b (look [] b y.asm) d)
      (setXfer { y with asm := y.asm.filter fun e => !ready.contains e.1 } d)

/-! ## Chunks (R165) -/

/-- Bytes to the end of a page or region. -/
def upTo (size a : Nat) : Nat := size - a % size

/-- The next chunk of a COPY or FILL: source address, destination address, length. -/
def nextChunk (raw : List Byte) (x : Xfer) : Nat × Nat × Nat :=
  let s := rdSrc raw + x.row * rdSrcStride raw + x.off
  let t := rdDst raw + x.row * rdDstStride raw + x.off
  let n := min (min 4096 (rdRowBytes raw - x.off)) (upTo (epPage (rdDstKind raw)) t)
  let n := if rdSrcKind raw = 4 then n else min n (upTo (epPage (rdSrcKind raw)) s)
  (s, t, n)

/-- The cursor after n bytes of the raw rows, for which `read` source bytes were read (R168). -/
def advance (raw : List Byte) (n read : Nat) (x : Xfer) : Xfer :=
  let p := x.row * rdRowBytes raw + x.off + n
  { x with row := p / rdRowBytes raw, off := p % rdRowBytes raw, bytesDone := x.bytesDone + read,
           allDone := p ≥ rdTotal raw }

/-- The ranges of the raw rows of an endpoint that the next n bytes take. -/
def rawRanges (raw : List Byte) (src : Bool) (x : Xfer) (n : Nat) : List (Nat × Nat) :=
  let rb := rdRowBytes raw
  let p := x.row * rb + x.off
  let stride := if src then rdSrcStride raw else rdDstStride raw
  (pagesOf rb p n).map fun r =>
    let lo := max p (r * rb)
    (rdEpAddr raw src + r * stride + lo % rb, min (p + n) ((r + 1) * rb) - lo)

/-- Pools that a whole-pool FILL opens when its last byte is written (R289). -/
def openPools (raw : List Byte) (d : Dev) : Dev :=
  if rdKind raw ≠ 2 then d
  else (epPools d raw false).foldl (fun d i => setPool i (fun p => { p with
    state := .open, unmet := false, nonfinite := false, parties := 0, contrib := 0, label := 0 }) d) d

/-- A chunk has been written: the cursor moves, blocks are sealed, and the last chunk ends the work. -/
def chunkDone (x : Xfer) (raw : List Byte) (f : Xfer → Xfer) (d : Dev) : Dev :=
  match findXfer d x.oct x.eng x.seq with
  | none => d
  | some y =>
    let z := f y
    let d := setXfer z d
    let d := if rdDstKind raw = 3 then sealReady z d else d
    if z.allDone then openPools raw d else d

/-- Staged blocks that a later chunk no longer needs are dropped. -/
def keepStage (raw : List Byte) (a : Nat) (x : Xfer) : Xfer :=
  if rdSrcKind raw = 3 then { x with staging := x.staging.filter fun e => e.1 ≥ a / 4096 } else x

/-- A chunk's outcome: written, waiting, or faulted; in lockdown nothing more happens. -/
def chunkEnd (x : Xfer) (raw : List Byte) (f : Xfer → Xfer) (r : HbmResult Unit × Dev) : Dev :=
  if !live r.2 then r.2
  else match r.1 with
    | .ok _ => chunkDone x raw f r.2
    | .error e => relayFail ((findXfer r.2 x.oct x.eng x.seq).getD x) e r.2

/-- One chunk of a COPY or FILL. -/
def moveChunk (x : Xfer) (raw : List Byte) (ev : LineEvent) (d : Dev) : Dev :=
  let (s, t, n) := nextChunk raw x
  match readRange x raw (rdSrcKind raw) s n ev d with
  | (.error e, d) => if live d then relayFail x e d else d
  | (.ok none, d) => d
  | (.ok (some (bs, l)), d) =>
    chunkEnd x raw (fun y => keepStage raw s (advance raw n n { y with label := y.label ||| l }))
      (writeChunk x raw [(t, n)] bs l ev d)

/-- One page of a STOW.PACK, of 4 KiB raw bytes, each part of which is read within one page or region of the source (R133 to
R138, R165). It carries the union of the source labels (R138). -/
def packPage (x : Xfer) (raw : List Byte) (ev : LineEvent) (d : Dev) : Dev :=
  let n := min 4096 (rdTotal raw - (x.row * rdRowBytes raw + x.off))
  let src := ((rawRanges raw true x n).map fun r => splitPages (rdSrcKind raw) r.1 r.2).flatten
  match readRanges x raw (rdSrcKind raw) ev src [] 0 d with
  | (.error e, d) => if live d then relayFail x e d else d
  | (.ok none, d) => d
  | (.ok (some (bs, l)), d) =>
    let l := x.srcLabel ||| x.label ||| l
    let full := rdDstKind raw = 3 ∧ l ≠ 0
    let page := stowEncode (Config.stowModel bs % 5) bs x.page (rdStreamTag raw) full
    let r := (rdDst raw + x.cursor, page.length)
    chunkEnd x raw (fun y => keepStage raw (src.headD (0, 0)).1 (advance raw n n { y with
      label := y.label ||| l, page := y.page + 1, cursor := y.cursor + page.length, stowBytes := y.stowBytes + page.length }))
      (writeChunk x raw [r] page l ev d)

/-- One page of a STOW.UNPACK: read by its header, checked, and written to the raw rows (R137). -/
def unpackPage (x : Xfer) (raw : List Byte) (ev : LineEvent) (d : Dev) : Dev :=
  let a := rdSrc raw + x.cursor
  let kind := rdSrcKind raw
  let fault (e : Reason × List Byte) (d : Dev) : Dev := if live d then relayFail x e d else d
  match readRanges x raw kind ev (splitPages kind a 64) [] 0 d with
  | (.error e, d) => fault e d
  | (.ok none, d) => d
  | (.ok (some (h, l0)), d) =>
    if !stowHeaderOk h then fault (.fieldRange, []) d
    else
      let cs := stowCsize h
      match readRanges x raw kind ev (splitPages kind (a + 64) (cs - 64)) [] 0 d with
      | (.error e, d) => fault e d
      | (.ok none, d) => d
      | (.ok (some (rest, l1)), d) =>
        match stowDecode (h ++ rest) x.page (rdStreamTag raw) with
        | .error r => fault (r, []) d
        | .ok bytes =>
          let n := min bytes.length (rdTotal raw - (x.row * rdRowBytes raw + x.off))
          let rs := rawRanges raw false x n
          chunkEnd x raw (fun y => keepStage raw (a + cs) (advance raw n cs { y with
            label := y.label ||| l0 ||| l1, page := y.page + 1, cursor := y.cursor + cs }))
            (writeChunk x raw rs (bytes.take n) (l0 ||| l1) ev d)

/-- A chunk of an ACTIVE transfer: nothing moves while Transom may not issue the writes that it needs (R301, R385). -/
def relayChunk (o e : Nat) (seq : Word) (ev : LineEvent) (d : Dev) : Dev :=
  match findXfer d o e seq with
  | none => d
  | some x =>
    let raw := xferRaw d x
    if x.partl ∨ x.fabric ∨ !xferOpen x then d
    else if rdDstKind raw = 3 ∧ !hostReach d (getSht d o).vf then d
    else match rdKind raw with
      | 3 => packPage x raw ev d
      | 4 => unpackPage x raw ev d
      | _ => moveChunk x raw ev d

/-- RELAY_CHUNK (R165). -/
def execRelayChunk (o : Fin 8) (e : Fin 2) (seq : Word) (ev : LineEvent) (s : State) :
    Host.Outcome State Fault Refusal :=
  .next { s with dev := whenLive (relayChunk o e seq ev) s.dev }

/-! ## Responses of the host (R169, R172, R296) -/

/-- A response that no transfer waits for is dropped, and counted in 64 B units (R172). -/
def staleResponse (o e n : Nat) (d : Dev) : Dev :=
  let k := (n + 63) / 64
  if e = 0 then setRle o (fun r => { r with stale0 := satAdd 0xFFFFFFFF r.stale0 k }) d
  else setRle o (fun r => { r with stale1 := satAdd 0xFFFFFFFF r.stale1 k }) d

/-- A response: dropped as stale, verified into the staging buffer, or a fault of the transfer. One to a parked transfer that
writes says that the host answers again (R170). -/
def relayResponse (o e : Nat) (seq : Word) (b : HostBlock) (d : Dev) : Dev :=
  match findXfer d o e seq with
  | none => staleResponse o e b.cipher.length d
  | some x =>
    if !xferOpen x then staleResponse o e b.cipher.length d
    else match x.waiting with
      | none => if x.partl ∧ !x.fabric then setXfer { x with answered := true } d else d
      | some blk =>
        let v := (getSht d o).vf
        let y := openBlock d v (blk / 2 ^ 24) b
        if y.tagOk ∧ !b.poisoned ∧ y.block = blk % 2 ^ 24 ∧ y.wseq = 0 ∧ b.cipher.length = 4096 then
          setXfer { x with staging := place blk y.data x.staging, waiting := none
                           answered := x.partl, staged := if x.partl then x.staged + 4096 else x.staged } d
        else
          relayFault x 5 .integrityFail [] false
            (setWin v (blk / 2 ^ 24) (fun w => { w with authFail := satAdd 0xFFFFFFFF w.authFail 1 }) d)

/-- RELAY_RESPONSE (R169, R172). -/
def execRelayResponse (o : Fin 8) (e : Fin 2) (seq : Word) (blk : HostBlock) (s : State) :
    Host.Outcome State Fault Refusal :=
  .next { s with dev := whenLive (relayResponse o e seq blk) s.dev }

end Sys2Proof.Machine
end

