-- ==== Sys2Proof/Machine/Launch.lean ====
section
/-!
DEFINITION. Kernel items (03): the dispatch of a LAUNCH into a cluster window, and the end of its streams.
-/
namespace Sys2Proof.Machine

/-- The record of a command that is refused at acceptance or at dispatch: of the command class (R59, R212). -/
def cmdRec (d : Dev) (c : Cmd) (r : Reason) : FaultRec :=
  { recAt d c.oct r 2 with
    context := some c.ctx, queue := some c.q, tag := cmdTag c.raw, ringSlot := c.slot
    cluster := if c.phase = .selected ∧ cmdOpcode c.raw = 3 then some (resIndex (cmdResource c.raw)) else none }

/-- Completion-record bytes of a command other than a Relay transfer: the ring slot index (R212). -/
def slotInfo (c : Cmd) : List Byte := natLe 2 c.slot ++ natLe 18 0

/-- A command that is refused completes NOT_RUN at once, with one record and no fault of its context (R59, R212). -/
def refuseCmd (id : Nat) (r : Reason) (noSig : Bool) (d : Dev) : Dev :=
  match cmdById d id with
  | none => d
  | some c => finish id .notRun r (slotInfo c) noSig (record (cmdRec d c r) false d)

/-- What an earlier item left in a core's engines completes before the next item starts. -/
def completeCore (n : Nat) (d : Dev) : Dev :=
  (getCore d n).vec.foldl (fun d _ => completeVec n d) (completeMma n d)

/-- A participating stream as its item's dispatch initialises it (R54, R108). -/
def startStream (entry : Nat) (args : List Word) (x : Stream) : Stream :=
  { Stream.zero with
    live := true, part := true, pc := entry, halted := x.halted
    sreg := (args.zip (List.range args.length)).foldl (fun t a => put 0 (a.2 + 1) a.1 t) [] }

/-- A stream that does not participate in the item stays idle (R54). -/
def idleStream (x : Stream) : Stream := { x with live := false, part := false, lastIssue := none }

/-- Cores of a mask. -/
def coresOf (mask : Nat) : List Nat := (List.range 64).filter (bitAt mask)

/-- One participating core takes the item: the cache is filled unless it holds the same image (R54, R58), and the skip
limit is sampled (R36). -/
def startCore (c : Cmd) (clu : Nat) (img : ImgSlot) (k : Nat) (d : Dev) : Dev :=
  let n := coreNo c.oct clu k
  let d := completeCore n d
  let key := (launchSlot c.raw % 16, img.offset, img.length, img.regNo)
  let code := readBytes d.cmem (cmemBase c.oct clu + img.offset) img.length
  let limit := (getClu d c.oct clu).limit.live
  let d := setCore n (fun x => { x with
    item := some c.id, ctx := some c.ctx, limit := limit, mmaFree := 0, vecFree := 0, ldFree := 0, stFree := 0
    icacheId := some key, icache := if x.icacheId = some key then x.icache else code }) d
  let args := (List.range 8).map (launchArg c.raw)
  (List.range 2).foldl (fun d st => setStream n st
    (fun x => if bitAt (launchStreams c.raw) st then startStream (launchEntry c.raw st) args x else idleStream x) d) d

/-- A LAUNCH dispatches into a cluster window, or is refused (R54, R58, R59). -/
def launchDispatch (id : Nat) (d : Dev) : Dev :=
  match cmdById d id with
  | none => d
  | some c =>
    let clu := resIndex (cmdResource c.raw)
    let img := getImg d c.oct c.ctx (launchSlot c.raw % 16)
    let pages := pagesOf 65536 (cmemBase c.oct clu + img.offset) img.length
    if img.length > 32768 then refuseCmd id .fieldRange false d
    else if pages.any fun p => look 0 p d.cmemLabel != 0 then refuseCmd id .labelDenied false d
    else
      let d := setCmd id (fun x => { x with phase := .active, began := d.tck.now, waitLeft := none }) d
      (coresOf (launchMask c.raw)).foldl (fun d k => startCore c clu img k d) d

/-! ## The cores of an item -/

/-- Cores that run a command's item. -/
def itemCores (d : Dev) (id : Nat) : List Nat := (d.core.filter fun e => e.2.item == some id).map (·.1)

/-- Streams that participate in an item, as (core, stream). -/
def itemStreams (d : Dev) (id : Nat) : List (Nat × Nat) :=
  ((itemCores d id).map fun n => ((List.range 2).filter fun st => (getStream d n st).part).map fun st => (n, st)).flatten

/-- Some stream of an item is halted by the debug block, which suspends its limits (R425). -/
def itemHalted (d : Dev) (id : Nat) : Bool := (itemStreams d id).any fun e => (getStream d e.1 e.2).halted

/-- The union of the control labels of an item's streams at their ends (R280). -/
def itemControl (d : Dev) (id : Nat) : Label := unionAll ((itemStreams d id).map fun e => (getStream d e.1 e.2).ctl)

/-- The cores of an item that has retired are free. -/
def freeCores (id : Nat) (d : Dev) : Dev :=
  (itemCores d id).foldl (fun d n =>
    setStream n 1 idleStream (setStream n 0 idleStream (setCore n (fun c => { c with item := none, ctx := none }) d))) d

end Sys2Proof.Machine
end

