-- ==== Sys2Proof/Machine/Wire.lean ====
section
/-!
DEFINITION. Rally packets on the wire (10, 14): pair keys, the header in network order, sealing, and the frame.
-/
namespace Sys2Proof.Machine

/-- A member's number for the switch. -/
def switchNo : Nat := 0xFFFF

/-- The pair key of two members of a group for an epoch (R342). -/
def pairKey (job : List Byte) (group a b epoch : Nat) : BitVec 256 :=
  Config.hkdfExpand job (ascii "TY2-RLY" ++ natBe 2 group ++ natBe 2 (min a b) ++ natBe 2 (max a b) ++ natBe 4 epoch)

/-! ## The header (R235) -/

/-- The 48-byte header of a packet, in network byte order. -/
def packetHead (p : Packet) : List Byte :=
  natBe 1 (16 + p.typ) ++ natBe 1 (b2n p.nonfinite + 2 * b2n p.last + 4 * b2n p.capDrop) ++ natBe 2 p.epoch ++
  natBe 2 p.group ++ natBe 2 p.src ++ natBe 2 p.dst ++ natBe 2 p.len ++ natBe 4 (b2n p.unreliable * 2 ^ 31 + p.psn) ++
  natBe 4 p.collSeq ++ natBe 2 p.step ++ natBe 1 p.sub ++ natBe 1 p.dtop ++ natBe 4 p.chunk ++ natBe 4 p.offset ++
  natBe 2 p.contrib ++ natBe 2 p.label.toNat ++ natBe 2 p.parties.toNat ++ natBe 2 p.lease ++ natBe 4 p.arg ++ natBe 4 0

/-- A field of a header. -/
def headField (h : List Byte) (off n : Nat) : Nat := beNat (slice h off n)

/-- The packet that a header and a payload in clear make. -/
def headPacket (h payload : List Byte) : Packet :=
  let flags := headField h 0x01 1
  let psn := headField h 0x0C 4
  { typ := headField h 0x00 1 % 16, nonfinite := bitAt flags 0, last := bitAt flags 1, capDrop := bitAt flags 2
    epoch := headField h 0x02 2, group := headField h 0x04 2, src := headField h 0x06 2, dst := headField h 0x08 2
    len := headField h 0x0A 2, unreliable := bitAt psn 31, psn := psn % 2 ^ 31, collSeq := headField h 0x10 4
    step := headField h 0x14 2, sub := headField h 0x16 1, dtop := headField h 0x17 1, chunk := headField h 0x18 4
    offset := headField h 0x1C 4, contrib := headField h 0x20 2, label := BitVec.ofNat 16 (headField h 0x22 2)
    parties := BitVec.ofNat 16 (headField h 0x24 2), lease := headField h 0x26 2, arg := headField h 0x28 4
    payload := payload }

/-- Version 1, a known type, every reserved field zero (R235, R238). -/
def headOk (h : List Byte) : Bool :=
  let vt := headField h 0x00 1
  vt / 16 == 1 && 1 ≤ vt % 16 && vt % 16 ≤ 6 && headField h 0x01 1 < 8 && headField h 0x2C 4 == 0

/-! ## Sealing (R236) -/

/-- EPOCH, GROUP, SRC, DST and PSN. -/
def packetNonce (h : List Byte) : List Byte := slice h 0x02 8 ++ slice h 0x0C 4

/-- A packet sealed under its pair's key. -/
def sealPacket (key : BitVec 256) (p : Packet) : Sent :=
  let h := packetHead p
  let c := gcmText key (packetNonce h) p.payload
  { pkt := p, body := c ++ gcmTag key (packetNonce h) h c }

/-- The ciphertext and the tag in a frame whose header gives LEN. -/
def frameCipher (f : Frame) : List Byte := f.rest.take (headField f.head 0x0A 2)
def frameTag (f : Frame) : List Byte := (f.rest.drop (headField f.head 0x0A 2)).take 16

/-- The tag of a frame verifies under a key (R236, R238). -/
def tagVerifies (key : BitVec 256) (f : Frame) : Bool :=
  gcmTag key (packetNonce f.head) f.head (frameCipher f) == frameTag f

/-- The packet of a frame opened under a key. -/
def openPacket (key : BitVec 256) (f : Frame) : Packet :=
  headPacket f.head (gcmText key (packetNonce f.head) (frameCipher f))

/-! ## The frame -/

/-- The UDP checksum of RFC 768 over a byte string: the ones' complement of the ones'-complement sum, 0 sent as 0xFFFF. -/
def udpSum (l : List Byte) : Nat :=
  let s := ((List.range ((l.length + 1) / 2)).map fun i => beNat (slice l (2 * i) 2)).foldl (· + ·) 0
  let c := 0xFFFF - (if s = 0 then 0 else (s - 1) % 0xFFFF + 1)
  if c = 0 then 0xFFFF else c

/-- The Ethernet II frame of a Rally header and what follows it, from a port to an IPv6 address and a UDP port (R230, R232,
R235). -/
def etherFrame (x : Port) (half srcPort dstPort : Nat) (dest : BitVec 128) (body : List Byte) : List Byte :=
  let src := natBe 8 x.ipHi.toNat ++ natBe 8 x.ipLo.toNat
  let dst := natBe 16 dest.toNat
  let n := body.length + 8
  let ports := natBe 2 srcPort ++ natBe 2 dstPort ++ natBe 2 n
  let sum := udpSum (src ++ dst ++ natBe 4 n ++ natBe 4 17 ++ ports ++ natBe 2 0 ++ body)
  natBe 6 (if half = 0 then x.hop0 else x.hop1) ++ natBe 6 x.mac ++
    (if x.tagEn then natBe 2 0x8100 ++ natBe 2 (x.pcp * 8192 + x.vid) else []) ++ natBe 2 0x86DD ++
    natBe 4 (6 * 2 ^ 28 + x.dscp * 2 ^ 22) ++ natBe 2 n ++ natBe 1 17 ++ natBe 1 64 ++ src ++ dst ++ ports ++ natBe 2 sum ++ body

end Sys2Proof.Machine
end

