-- ==== Sys2Proof/Machine/Rally.lean ====
section
/-!
DEFINITION. Rally (10, 06, 11): the RALLY payload and its checks, the transport of a group's packets, buffers and pieces,
the failure of a group, and the dispatch and progress of rally steps.
-/
namespace Sys2Proof.Machine

/-! ## The RALLY payload (R245) -/

def raColl (raw : List Byte) : Nat := byteAt raw 0x20
def raDtype (raw : List Byte) : Nat := byteAt raw 0x21 / 16
def raOp (raw : List Byte) : Nat := byteAt raw 0x21 % 16
def raAlg (raw : List Byte) : Nat := byteAt raw 0x22 % 4
def raLeased (raw : List Byte) : Bool := bitAt (byteAt raw 0x22) 2
def raThreshold (raw : List Byte) : Bool := bitAt (byteAt raw 0x23) 0
def raFirst (raw : List Byte) : Bool := bitAt (byteAt raw 0x23) 1
def raLast (raw : List Byte) : Bool := bitAt (byteAt raw 0x23) 2
def raGroup (raw : List Byte) : Nat := field raw 0x24 2
def raStep (raw : List Byte) : Nat := field raw 0x26 2
def raSeq (raw : List Byte) : Nat := field raw 0x28 4
def raStepCount (raw : List Byte) : Nat := field raw 0x2C 2
def raPhaseFirst (raw : List Byte) : Nat := byteAt raw 0x2E
def raPhaseLast (raw : List Byte) : Nat := byteAt raw 0x2F
def raAddr (raw : List Byte) (src : Bool) : Nat := if src then field raw 0x30 8 else field raw 0x38 8
def raKind (raw : List Byte) (src : Bool) : Nat := if src then byteAt raw 0x40 else byteAt raw 0x41
def raDelivery (raw : List Byte) : Nat := byteAt raw 0x42
def raPlanes (raw : List Byte) : Nat := byteAt raw 0x43
def raSeg (raw : List Byte) : Nat := field raw 0x44 4
def raSegFirst (raw : List Byte) : Nat := field raw 0x48 2
def raSegCount (raw : List Byte) : Nat := field raw 0x4A 2
def raSummary (raw : List Byte) : Nat := field raw 0x50 8
def raCap (raw : List Byte) : Nat := field raw 0x58 4
def raRowBytes (raw : List Byte) : Nat := field raw 0x5C 4
def raDrop (raw : List Byte) : Nat := field raw 0x60 8
def raCounts (raw : List Byte) : Nat := field raw 0x68 8
def raRoot (raw : List Byte) : Nat := field raw 0x70 2
def raVsets (raw : List Byte) : BitVec 8 := BitVec.ofNat 8 (byteAt raw 0x72)

/-- Reducing collectives: ALL_REDUCE and REDUCE_SCATTER. -/
def raReduces (raw : List Byte) : Bool := raColl raw == 1 || raColl raw == 2

/-- DTYPE and OP as R256 permits them for the collective. -/
def dtopOk (raw : List Byte) : Bool :=
  let typed := raDtype raw ≤ 3 && 1 ≤ raOp raw && raOp raw ≤ 3
  let bytes := raDtype raw == 4 && raOp raw == 0
  if raReduces raw then typed else raColl raw == 6 || typed || bytes

/-- The reserved codes and fields, and the ranges that need no group (R245, R246). -/
def rallyForm (raw : List Byte) : Bool :=
  1 ≤ raColl raw && raColl raw ≤ 6 && dtopOk raw && raAlg raw ≤ 2 && byteAt raw 0x22 < 8 && byteAt raw 0x23 < 8 &&
  1 ≤ raStepCount raw && raStepCount raw ≤ 4096 && raStep raw < raStepCount raw && raKind raw true ≤ 1 &&
  raKind raw false ≤ 1 && raDelivery raw ≤ 1 && field raw 0x4C 4 == 0 && allZero (slice raw 0x73 13) &&
  (!raLeased raw || (raPhaseFirst raw == 0 && raPhaseLast raw == 0)) &&
  (match raColl raw with
   | 5 => raSeg raw == raCap raw * raRowBytes raw && raRowBytes raw % 8 == 0 && 8 ≤ raRowBytes raw
   | 6 => raStepCount raw == 2
   | _ => raSeg raw % 64 == 0)

/-! ## Groups (R241, R242) -/

def memberCount (g : Group) : Nat := g.members.length

/-- The slot of a group loaded on a port. -/
def findGroup (d : Dev) (p id : Nat) : Option Nat :=
  ((List.range 8).map (8 * p + ·)).find? fun s => (getGroup d s).loaded && (getGroup d s).id == id

/-- M is a power of two. -/
def pow2 (m : Nat) : Bool := 2 ^ Nat.log2 m == m

/-- The step uses halving-doubling: chosen, or ALG 0 with M a power of two (R247). -/
def halving (raw : List Byte) (m : Nat) : Bool := raAlg raw == 2 || (raAlg raw == 0 && pow2 m)

/-- ceil(log2 M). -/
def ceilLog2 (m : Nat) : Nat := if m ≤ 1 then 0 else Nat.log2 (m - 1) + 1

/-- Number of the algorithm's phases (R247). -/
def phaseTotal (raw : List Byte) (m : Nat) : Nat :=
  let one := if halving raw m then Nat.log2 m else m - 1
  match raColl raw with
  | 1 => 2 * one
  | 2 => one
  | 3 => one
  | 4 => ceilLog2 m
  | _ => 0

/-- The phases that the step names exist (R245, R247). -/
def phasesOk (raw : List Byte) (m : Nat) : Bool :=
  let n := phaseTotal raw m
  if raColl raw ≥ 5 ∨ raLeased raw then true
  else if n = 0 then raPhaseFirst raw == 0 && raPhaseLast raw == 0
  else 1 ≤ raPhaseFirst raw && raPhaseFirst raw ≤ raPhaseLast raw && raPhaseLast raw ≤ n

/-- Ranges that depend on the group (R245). -/
def groupRanges (raw : List Byte) (g : Group) : Bool :=
  let m := memberCount g
  phasesOk raw m && (raAlg raw != 2 || 3 < raColl raw || pow2 m) &&
  (match raColl raw with
   | 4 => raRoot raw < m
   | 5 => raRowBytes raw ≤ g.payload
   | _ => true)

/-- The refusals at acceptance that concern the group (R246). -/
def rallyRefusal (d : Dev) (o : Nat) (raw : List Byte) : Option Reason :=
  let v := octVf d o
  match findGroup d o (raGroup raw) with
  | none =>
    if (List.range 64).any fun s => (getGroup d s).loaded && (getGroup d s).id == raGroup raw && v == some (getGroup d s).vf
    then some .fieldConflict else some .notOwner
  | some s =>
    let g := getGroup d s
    if v ≠ some g.vf then some .notOwner
    else match g.failed with
      | some f => some f.1
      | none => if groupRanges raw g then none else some .fieldRange

/-! ## Transport (R235 to R239) -/

def getPair (g : Group) (m : Nat) : Pair := look Pair.zero m g.pairs
def setPair (slot m : Nat) (f : Pair → Pair) (d : Dev) : Dev :=
  setGroup slot (fun g => { g with pairs := alter Pair.zero m f g.pairs }) d

/-- 64-byte units of a payload (R239). -/
def pktUnits (p : Packet) : Nat := (p.len + 63) / 64

/-- A header with nothing in it but the ends, the type and the collective. -/
def basePkt (g : Group) (m typ sub coll step : Nat) : Packet :=
  { typ := typ, nonfinite := false, last := false, capDrop := false, epoch := 0, group := g.id, src := g.self, dst := m
    len := 0, unreliable := false, psn := 0, collSeq := coll, step := step, sub := sub, dtop := 0, chunk := 0, offset := 0
    contrib := 0, label := 0, parties := 0, lease := 0, arg := 0, payload := [] }

/-- A packet with a payload. -/
def withPayload (bs : List Byte) (p : Packet) : Packet := { p with len := bs.length, payload := bs }

/-- The IPv6 address and UDP port of an end (R241). -/
def endAddr (g : Group) (m : Nat) : BitVec 128 × Nat :=
  if m = switchNo then (g.switchAddr, g.switchPort)
  else match g.members[m]? with
    | some x => (x.addr, x.udp)
    | none => (0, 0)

/-- A sealed packet goes out of its port while the port is up. The packets of a pair are striped over both halves by their
PSN (R230; DESIGN CHOICE, log 83). -/
def transmit (slot : Nat) (x : Sent) (d : Dev) : Dev :=
  let port := getPort d (slot / 8)
  let dest := endAddr (getGroup d slot) x.pkt.dst
  let half := x.pkt.psn % 2
  if port.up then
    emit (.packet (slot / 8) half x.pkt (etherFrame port half d.rly.udpPort dest.2 dest.1 (packetHead x.pkt ++ x.body))) d
  else d

/-- The pair moves to its next epoch: the counters and the windows of both directions start again, the next key is in use, and
the one after it is installed (R237). -/
def nextEpoch (g : Group) (m : Nat) (x : Pair) : Pair :=
  { x with epoch := x.epoch + 1, key := x.keyNext, keyNext := pairKey g.jobKey g.id g.self m (x.epoch + 2), txPsn := 0,
           txUPsn := 0, rxNext := 0, rxHigh := 0, rxSeen := [], rxUHigh := 0, rxUSeen := [] }

/-- A pair about to use a counter that would wrap has moved to its next epoch (R237). -/
def roll (g : Group) (m : Nat) (x : Pair) : Pair := if x.txPsn ≥ 2 ^ 31 ∨ x.txUPsn ≥ 2 ^ 31 then nextEpoch g m x else x

/-- The vendor-defined message that gives the switch a member's pair key: GROUP, MEMBER, EPOCH, KEY (R343), in network order
(DESIGN CHOICE, log 82). -/
def pairKeyMessage (g : Group) (epoch : Nat) (key : BitVec 256) : List Byte :=
  natBe 2 g.id ++ natBe 2 g.self ++ natBe 4 epoch ++ natBe 32 key.toNat

/-- Over the session of an attested switch Porter sends the keys it installs for the member–switch pair: that of the epoch
after the current one, and at first the current one too (DEDUCED, R237, R343, log 92). -/
def sendPairKey (slot : Nat) (first : Bool) (d : Dev) : Dev :=
  let g := getGroup d slot
  let x := getPair g switchNo
  let p := slot / 8
  if g.switchAddr = 0 ∨ !switchAttested d p then d
  else
    let d := if first then emit (.switchSpdm p (pairKeyMessage g x.epoch x.key)) d else d
    emit (.switchSpdm p (pairKeyMessage g (x.epoch + 1) x.keyNext)) d

/-- Both installed keys of a group's member–switch pair (R343). -/
def sendPairKeys (slot : Nat) (d : Dev) : Dev := sendPairKey slot true d

/-- A pair whose epoch is no longer `was` has moved on: the switch gets the following key (R237, R343). -/
def movedOn (slot m was : Nat) (d : Dev) : Dev :=
  if m = switchNo ∧ (getPair (getGroup d slot) m).epoch ≠ was then sendPairKey slot false d else d

/-- A reliable packet takes its PSN, is sealed and goes out. -/
def pushRel (slot m : Nat) (p : Packet) (d : Dev) : Dev :=
  let g := getGroup d slot
  let x := roll g m (getPair g m)
  let s := sealPacket x.key { p with epoch := x.epoch % 65536, psn := x.txPsn, unreliable := false }
  transmit slot s (movedOn slot m (getPair g m).epoch (setPair slot m (fun _ => { x with
    txPsn := x.txPsn + 1, sent := x.sent + pktUnits p, unacked := x.unacked ++ [s] }) d))

/-- A reliable packet is sent, or held back for credit (R239). -/
def sendRel (slot m : Nat) (p : Packet) (d : Dev) : Dev :=
  let x := getPair (getGroup d slot) m
  if !x.held.isEmpty ∨ x.sent + pktUnits p > x.credit then setPair slot m (fun y => { y with held := y.held ++ [p] }) d
  else pushRel slot m p d

/-- An unreliable packet takes its PSN, is sealed and goes out. -/
def sendUnrel (slot m : Nat) (p : Packet) (d : Dev) : Dev :=
  let g := getGroup d slot
  let x := roll g m (getPair g m)
  transmit slot (sealPacket x.key { p with epoch := x.epoch % 65536, psn := x.txUPsn, unreliable := true })
    (movedOn slot m (getPair g m).epoch (setPair slot m (fun _ => { x with txUPsn := x.txUPsn + 1 }) d))

/-- Held packets go out in order while credit allows, at most so many. -/
def releaseHeld (slot m : Nat) : Nat → Dev → Dev
  | 0, d => d
  | n + 1, d =>
    let x := getPair (getGroup d slot) m
    match x.held with
    | [] => d
    | p :: t =>
      if x.sent + pktUnits p > x.credit then d
      else releaseHeld slot m n (pushRel slot m p (setPair slot m (fun y => { y with held := t }) d))

/-- Every member of a group but this one. -/
def otherMembers (g : Group) : List Nat := (List.range (memberCount g)).filter (· != g.self)

/-- A CTRL packet to a member. -/
def sendCtrl (slot m sub coll step arg : Nat) (d : Dev) : Dev :=
  sendRel slot m { basePkt (getGroup d slot) m 3 sub coll step with arg := arg } d

/-- A CTRL packet to every other member. -/
def sendCtrlAll (slot sub coll step arg : Nat) (d : Dev) : Dev :=
  (otherMembers (getGroup d slot)).foldl (fun d m => sendCtrl slot m sub coll step arg d) d

/-- ARG of an ABORT that names a member (R252). -/
def abortArg (named : Nat) : Nat := 0x0F + 256 * named

/-! ## The failure of a group (R249, R251, R253) -/

def setColl (slot seq : Nat) (f : Coll → Coll) (d : Dev) : Dev :=
  setGroup slot (fun g => { g with colls := g.colls.map fun c => if c.seq == seq then f c else c }) d

def getColl (d : Dev) (slot seq : Nat) : Option Coll := (getGroup d slot).colls.find? fun c => c.seq == seq

def rawOf (d : Dev) (id : Nat) : List Byte := match cmdById d id with
  | some c => c.raw
  | none => []

def setStep (id : Nat) (f : RStep → RStep) (d : Dev) : Dev :=
  { d with steps := d.steps.map fun s => if s.cmd == id then f s else s }

def stepOf (d : Dev) (id : Nat) : Option RStep := d.steps.find? fun s => s.cmd == id

/-- A step leaves the engine, with its fabric deliveries (R248, R250). -/
def dropStep (id : Nat) (d : Dev) : Dev :=
  { d with steps := d.steps.filter fun s => s.cmd != id, xfers := d.xfers.filter fun x => !(x.fabric && x.cmd == id) }

/-- VOTED bits of version sets set or cleared on every octant of a partition (R147). -/
def markVoted (o : Nat) (sets : BitVec 8) (on : Bool) (d : Dev) : Dev :=
  (members8 (octPart d o)).foldl (fun d x => setSeq x (fun s => { s with
    voted := if on then s.voted ||| sets else s.voted &&& ~~~ sets }) d) d

/-- The inactive views of version sets are undefined after a COMMIT that does not flip (R151, log 10): each of their
regions takes a new epoch of free bytes. -/
def undefInactive (o : Nat) (sets : BitVec 8) (d : Dev) : Dev :=
  let octs := members8 (octPart d o)
  let n := d.free + 1
  let mine (e : Nat × RegEntry) : Bool :=
    octs.contains (e.1 / 65536) && entValid e.2 && entVersioned e.2 && has8 sets (entVset e.2)
  (d.rtab.filter mine).foldl (fun d e =>
    setRegion (entCopy e.2 (getSeq d (e.1 / 65536)).active true) (fun r => { r with undef := n }) d) { d with free := n }

/-- The COMMIT in which a group's member has voted ends without a flip (R147, R151). -/
def endVote (slot : Nat) (d : Dev) : Dev :=
  match (getGroup d slot).voting with
  | none => d
  | some v => undefInactive (slot / 8) v.2 (markVoted (slot / 8) v.2 false (setGroup slot (fun g => { g with voting := none }) d))

/-- A group in which a command's COMMIT has voted. -/
def votedSlot (d : Dev) (o : Nat) (raw : List Byte) : Option Nat :=
  if raColl raw ≠ 6 then none
  else (findGroup d o (raGroup raw)).filter fun s => (getGroup d s).voting.any fun v => v.1 == raSeq raw

/-- A COMMIT ends without a flip, voted or not (R147, R151). -/
def endCommit (o : Nat) (raw : List Byte) (d : Dev) : Dev :=
  if raColl raw ≠ 6 then d
  else match votedSlot d o raw with
    | some s => endVote s d
    | none => undefInactive o (raVsets raw) d

/-- DETAIL of a rally fault (R355). -/
def rallyDetail (d : Dev) (o : Nat) (raw : List Byte) (named : Nat) : List Byte :=
  let s := getSeq d o
  let gen := match members8 (raVsets raw) with
    | [] => 0
    | v :: _ => (look 0 v s.gen).toNat
  natLe 2 (raGroup raw) ++ natLe 2 named ++ natLe 4 (raSeq raw) ++ natLe 2 (raStep raw) ++ natLe 1 (raVsets raw).toNat ++
    natLe 1 s.active.toNat ++ natLe 4 gen ++ natLe 4 s.flips.toNat

/-- The record of a rally step's fault; a fault caused by an HBM line brings its own DETAIL (R252, R354, R355). -/
def rallyRec (d : Dev) (c : Cmd) (named : Nat) (line : List Byte) : FaultRec :=
  { recBase with source := 4, queue := some c.q, engine := some c.oct, tag := cmdTag c.raw, ringSlot := c.slot,
                 detail := if line.isEmpty then rallyDetail d c.oct c.raw named else line }

/-- A rally command in flight ends FAULTED, and its context faults with it; a command that the fault of its context killed
is recorded with that fault (R204, R253). -/
def faultRally (r : Reason) (named : Nat) (line : List Byte) (boundary : Bool) (id : Nat) (d : Dev) : Dev :=
  match cmdById d id with
  | none => dropStep id d
  | some c =>
    let d := endCommit c.oct c.raw (dropStep id d)
    let info := natLe 2 c.slot ++ natLe 18 0
    match c.errEnd with
    | some r' => finish id .faulted r' info false d
    | none => finish id .faulted r info false (faultCtx c.oct c.ctx r (rallyRec d c named line) boundary d)

/-- Groups on other planes that carry a collective in progress of this group: either plane's commands name the other (R251). -/
def crossPlanes (d : Dev) (slot : Nat) : List Nat :=
  let g := getGroup d slot
  (List.range 64).filter fun s =>
    let h := getGroup d s
    s != slot && h.loaded && h.failed.isNone && h.vf == g.vf &&
    h.colls.any fun c => g.colls.any fun b => b.seq == c.seq && (bitAt c.planes (slot / 8) || bitAt b.planes (s / 8))

/-- The step is a COMMIT's DECIDE whose member holds a decision other than ABORT: a failure that comes after it changes nothing
of its outcome (R149, R151). -/
def decidedStep (d : Dev) (st : RStep) : Bool :=
  let raw := rawOf d st.cmd
  raColl raw == 6 && raStep raw == 1 && (getGroup d st.slot).decisions.any fun x => x.1 == raSeq raw && x.2 != 2

/-- One group fails: every step of it in flight, and every LAST command that waits for other planes, ends. Its control and lease
packets are still delivered (R239, R251, R253). -/
def failOne (slot : Nat) (r : Reason) (named : Nat) (line : List Byte) (boundary : Bool) (d : Dev) : Dev :=
  let g := getGroup d slot
  let mine := d.steps.filter fun s => s.slot == slot
  let ids := ((mine.filter fun s => !decidedStep d s).map (·.cmd)) ++ g.colls.filterMap (·.lastCmd)
  let stays (p : Packet) : Bool := p.typ == 3 || p.typ == 4
  let keep (x : Pair) : Pair := { x with unacked := x.unacked.filter fun s => stays s.pkt, held := x.held.filter stays }
  let d' := setGroup slot (fun g => { g with
    failed := some (r, named), colls := [], arrived := [], query := none, requested := false
    pairs := g.pairs.map fun e => (e.1, keep e.2) }) d
  let d' := ids.foldl (fun x id => faultRally r named line boundary id x) d'
  let d' := if mine.any (decidedStep d) then d' else endVote slot d'
  g.pairs.foldl (fun x e => releaseHeld slot e.1 (e.2.held.length + 1) x) d'

/-- Groups fail in turn, each with its reason and the member it names; one that fails for a local reason tells every member
with an ABORT that names itself (R251, R253). At most so many. -/
def failGroups (boundary : Bool) : Nat → List (Nat × Bool × Reason × Nat × List Byte) → Dev → Dev
  | 0, _, d => d
  | _, [], d => d
  | n + 1, (slot, tell, r, named, line) :: t, d =>
    let g := getGroup d slot
    if !g.loaded ∨ g.failed.isSome then failGroups boundary n t d
    else
      let others := (crossPlanes d slot).map fun s => (s, true, r, (getGroup d s).self, line)
      let d := failOne slot r named line boundary d
      let d := if tell then sendCtrlAll slot 3 0 0 (abortArg g.self) d else d
      failGroups boundary n (t ++ others) d

/-- A group fails with a reason that came from elsewhere. -/
def failGroup (slot : Nat) (r : Reason) (named : Nat) (boundary : Bool) (d : Dev) : Dev :=
  failGroups boundary 256 [(slot, false, r, named, [])] d

/-- A group fails for a local reason of this member; an HBM line that caused it is named in the records (R253, R355). -/
def failLocalAt (slot : Nat) (e : Reason × List Byte) (d : Dev) : Dev :=
  failGroups false 256 [(slot, true, e.1, (getGroup d slot).self, e.2)] d

def failLocal (slot : Nat) (r : Reason) (d : Dev) : Dev := failLocalAt slot (r, []) d

/-- This member names a late member: ABORT to every member, and its own steps fault (R252). -/
def abortAll (slot named : Nat) (boundary : Bool) (d : Dev) : Dev :=
  failGroup slot .memberLate named boundary
    (if (getGroup d slot).failed.isSome then d else sendCtrlAll slot 3 0 0 (abortArg named) d)

/-- This member declares a member lost: LOST to every member, and the group fails (R254). -/
def declareLost (slot m : Nat) (d : Dev) : Dev :=
  if (getGroup d slot).failed.isSome then d
  else failGroup slot .memberLost m false (sendCtrlAll slot 4 0 0 m d)

/-- A step whose command was killed, or is gone. -/
def killedStep (d : Dev) (s : RStep) : Bool := match cmdById d s.cmd with
  | some c => c.errEnd.isSome
  | none => true

/-- Rally steps of contexts that have been killed end, and fail their groups for that local reason (R249, R253, R360). -/
def rallySweep (d : Dev) : Dev :=
  let dead := d.steps.filterMap fun s => match cmdById d s.cmd with
    | some c => c.errEnd.map fun r => (s.slot, r)
    | none => none
  let d := dead.foldl (fun d e => failLocal e.1 e.2 d) d
  (d.steps.filter fun s => killedStep d s).foldl (fun d s => faultRally .hungUnit 0 [] false s.cmd d) d

/-! ## Buffers (R164, R247, R250) -/

/-- The ranges that a step reads or writes: whether it reads, its kind, address and length. -/
def rallyRanges (raw : List Byte) (g : Group) : List (Bool × Nat × Nat × Nat) :=
  let m := memberCount g
  let s := raSeg raw
  let seg (src : Bool) := (src, raKind raw src, raAddr raw src + raSegFirst raw * s, raSegCount raw * s)
  let summary := (raColl raw == 6, 1, raSummary raw, 16)
  let blocks (src : Bool) := (List.range (raSegCount raw)).map fun i =>
    let k := raSegFirst raw + i
    let b := if src then (g.self + k) % m else (g.self + m * k - k) % m
    (src, raKind raw src, raAddr raw src + b * s, s)
  match raColl raw with
  | 6 => if raStep raw = 0 then [summary] else []
  | 5 =>
    blocks true ++ [(true, raKind raw true, raCounts raw, 4 * m)] ++ blocks false ++
      (if raLast raw then [(false, raKind raw false, raDrop raw, 8 * m + (m + 63) / 64 * 8), summary] else [])
  | _ => [seg true, seg false] ++ (if raLast raw then [summary] else [])

/-- The translations of a step's HBM ranges (R148, R158). -/
def rallyMaps (d : Dev) (o ctx : Nat) (l : List (Bool × Nat × Nat × Nat)) : List Mapping :=
  let of (r : Bool × Nat × Nat × Nat) : List Mapping :=
    if r.2.1 ≠ 0 then [] else (vaPages r.2.2.1 r.2.2.2).filterMap (resolveVa d o ctx)
  (l.map of).flatten.eraseDups

/-- Refusal of the destination ranges: a view that may not be written, a pool, or a registered image (R147, R228, R288). -/
def destRefusal (d : Dev) (o : Nat) (maps : List Mapping) (l : List (Bool × Nat × Nat × Nat)) : Option Reason :=
  let one (r : Bool × Nat × Nat × Nat) : Option Reason :=
    if r.1 then (if r.2.1 = 1 ∧ !(poolsAt d r.2.2).isEmpty then some .fieldConflict else none)
    else if r.2.1 = 0 then (vaPages r.2.2.1 r.2.2.2).findSome? fun va => (findMap maps va).bind (versionRefusal d o)
    else if !(poolsAt d r.2.2).isEmpty ∨ imageLocked d r.2.2.1 r.2.2.2 then some .fieldConflict
    else none
  l.findSome? one

/-- The COLL_SEQ and STEP follow those of the group on this member (R247). -/
def seqFollows (g : Group) (raw : List Byte) : Bool :=
  if raFirst raw then raSeq raw == (g.lastDisp + 1) % 2 ^ 32
  else g.colls.any fun c => c.seq == raSeq raw && c.lastCmd.isNone && raStep raw == c.step + 1

/-- PARTY bit of a member, if it has a party. -/
def partyOf (g : Group) (m : Nat) : Option Nat := (g.members[m]?).bind (·.party)

/-- The label may be reduced under THRESHOLD by this member (R283). -/
def thresholdOk (g : Group) (l : Label) : Bool :=
  match partyOf g g.self with
  | some p => admitted l (partyBit p)
  | none => l == 0

/-- Every destination range admits the union of the source labels (R164, R247). Under THRESHOLD the result's label is not yet
known, and each write is checked with it (R259). -/
def destAdmits (d : Dev) (g : Group) (raw : List Byte) (maps : List Mapping) (l : List (Bool × Nat × Nat × Nat))
    (src : Label) : Bool :=
  raThreshold raw || (l.filter fun r => !r.1).all fun r => rangeAdmits d g.vf r.2.1 maps src r.2.2

/-- The checks of a step's dispatch (R247, R283, R285). -/
def rallyCheck (d : Dev) (o ctx : Nat) (g : Group) (raw : List Byte) : Except Reason (List Mapping) :=
  let l := rallyRanges raw g
  let maps := rallyMaps d o ctx l
  let src := unionAll ((l.filter (·.1)).map fun r => rangeLabel d g.vf r.2.1 maps r.2.2)
  if l.any fun r => !rangeOk d o ctx r.2.1 r.2.2 then .error .fieldRange
  else match l.findSome? fun r => rangeOwner d o ctx r.2.1 r.1 r.2.2 with
    | some e => .error e
    | none =>
      if l.any fun r => !rangePresent d r.2.1 r.2.2 then .error .engineAbsent
      else match destRefusal d o maps l with
        | some e => .error e
        | none =>
          if !admitted src g.admitMask ∨ (raThreshold raw ∧ !thresholdOk g src) ∨ !destAdmits d g raw maps l src then
            .error .labelDenied
          else if !seqFollows g raw then .error .fieldConflict
          else .ok maps

/-- Octants whose Relay engine DELIVERY carries a step: those of its cluster-memory buffers (R250). -/
def deliveryOcts (raw : List Byte) : List Nat :=
  if raColl raw = 6 then []
  else (([true, false].filter fun s => raKind raw s == 1).map fun s => epOct 1 (raAddr raw s)).eraseDups

/-- A delivery of a step is parked: the step's buffers stand still (R169, R250). -/
def deliveryParked (d : Dev) (id : Nat) : Bool := d.xfers.any fun x => x.fabric && x.cmd == id && x.partl

/-- Casement's requester number for the Rally engine (R192). -/
def rallyRequester : Nat := 16

/-- Bytes and label read from a buffer, range by range. -/
def rallyReads (kind : Nat) (maps : List Mapping) : List (Nat × Nat) → List Byte → Label → Dev → HbmResult (List Byte × Label) × Dev
  | [], acc, l, d => (.ok (acc, l), d)
  | r :: t, acc, l, d =>
    if kind = 1 then rallyReads kind maps t (acc ++ readBytes d.cmem r.1 r.2) (l ||| cmemLabelOf d r.1 r.2) d
    else match findMap maps r.1 with
      | none => (.error (.fieldRange, []), d)
      | some m =>
        match hbmRead rallyRequester (mapPa m r.1) r.2 d.rly.lineEv d with
        | (.ok bs, d) => rallyReads kind maps t (acc ++ bs) (l ||| (getRegion d m.base).label) d
        | (.error e, d) => (.error e, d)

/-- A buffer read by the Rally engine (R250). -/
def rallyRead (kind : Nat) (maps : List Mapping) (a n : Nat) (d : Dev) : HbmResult (List Byte × Label) × Dev :=
  rallyReads kind maps (splitPages kind a n) [] 0 d

/-- Whether the label may be written to a range, and the range written (R147, R228, R259). -/
def writeDenied (d : Dev) (o v kind : Nat) (maps : List Mapping) (l : Label) (r : Nat × Nat) : Option Reason :=
  if kind = 1 then
    if !admitted l (onDieAdmit d v) then some .labelDenied
    else if (poolAt d r.1 r.2).isSome ∨ imageLocked d r.1 r.2 then some .fieldConflict
    else none
  else match findMap maps r.1 with
    | none => some .fieldRange
    | some m => if !admitted l m.admitMask then some .labelDenied else versionRefusal d o m

def rallyWrites (kind : Nat) (maps : List Mapping) (l : Label) : List (Nat × Nat) → List Byte → Dev → HbmResult Unit × Dev
  | [], _, d => (.ok (), d)
  | r :: t, bs, d =>
    if kind = 1 then
      rallyWrites kind maps l t (bs.drop r.2) { d with
        cmem := writeBytes d.cmem r.1 (bs.take r.2)
        cmemLabel := (pagesOf 65536 r.1 r.2).foldl (fun t p => alter 0 p (· ||| l) t) d.cmemLabel }
    else match findMap maps r.1 with
      | none => (.error (.fieldRange, []), d)
      | some m =>
        match hbmWrite rallyRequester (mapPa m r.1) (bs.take r.2) l d.rly.lineEv d with
        | (.ok _, d) => rallyWrites kind maps l t (bs.drop r.2) d
        | (.error e, d) => (.error e, d)

/-- A buffer written by the Rally engine: every range is checked before any byte is written (R165, R259). -/
def rallyWrite (o v kind : Nat) (maps : List Mapping) (a : Nat) (bs : List Byte) (l : Label) (d : Dev) :
    HbmResult Unit × Dev :=
  let rs := splitPages kind a bs.length
  match rs.findSome? (writeDenied d o v kind maps l) with
  | some e => (.error (e, []), d)
  | none => rallyWrites kind maps l rs bs d

/-! ## Elements and pieces (R256, R257) -/

/-- Bytes of an element of a DTYPE. -/
def elemBytes (dtype : Nat) : Nat := match dtype with
  | 0 => 4
  | 1 => 2
  | 2 => 2
  | 3 => 4
  | _ => 1

/-- Bytes in groups of n, at most so many groups. -/
def groupsOf (n : Nat) : Nat → List Byte → List (List Byte)
  | 0, _ => []
  | k + 1, l => if l.isEmpty then [] else l.take n :: groupsOf n k (l.drop n)

def floatType (dtype : Nat) : Bool := dtype ≤ 2

/-- An element widened exactly: FP32 for the floating-point types, itself otherwise (R257). -/
def widenElem (dtype : Nat) (e : List Byte) : List Byte :=
  match dtype with
  | 1 => 0 :: 0 :: e
  | 2 => natLe 4 (toFp32 (fpDecode fp16 (leNat e))).toNat
  | _ => e

/-- A held element rounded to its DTYPE, without saturation (R257). -/
def narrowElem (dtype : Nat) (e : List Byte) : List Byte :=
  match dtype with
  | 1 => natLe 2 (fpNarrow bf16 0x7FC0 false (BitVec.ofNat 32 (leNat e)))
  | 2 => natLe 2 (fpNarrow fp16 0x7E00 false (BitVec.ofNat 32 (leNat e)))
  | _ => e

/-- Bytes of an element as held. -/
def heldBytes (dtype : Nat) : Nat := if dtype ≤ 3 then 4 else 1

def widen (dtype : Nat) (bs : List Byte) : List Byte :=
  if dtype = 1 ∨ dtype = 2 then ((groupsOf 2 bs.length bs).map (widenElem dtype)).flatten else bs

def narrow (dtype : Nat) (vals : List Byte) : List Byte :=
  if dtype = 1 ∨ dtype = 2 then ((groupsOf 4 vals.length vals).map (narrowElem dtype)).flatten else vals

/-- Two held elements combined by OP (R256, R257). -/
def combineElem (dtype op : Nat) (a b : List Byte) : List Byte :=
  let x : Word := BitVec.ofNat 32 (leNat a)
  let y : Word := BitVec.ofNat 32 (leNat b)
  let r : Word :=
    if dtype = 3 then
      match op with
      | 1 => x + y
      | 2 => if x.slt y then y else x
      | _ => if y.slt x then y else x
    else
      match op with
      | 1 => add32 x y
      | 2 => max32 x y
      | _ => min32 x y
  natLe 4 r.toNat

def combine (dtype op : Nat) (a b : List Byte) : List Byte :=
  (List.zipWith (combineElem dtype op) (groupsOf 4 a.length a) (groupsOf 4 b.length b)).flatten

/-- Whether any held value is a NaN or an infinity (R257). -/
def anyNonFinite (dtype : Nat) (vals : List Byte) : Bool :=
  floatType dtype && (groupsOf 4 vals.length vals).any fun e => nonFinite32 (BitVec.ofNat 32 (leNat e))

/-- Pieces of a chunk: M of them, but a BROADCAST moves a chunk whole. -/
def pieceCount (raw : List Byte) (m : Nat) : Nat := if raColl raw = 4 then 1 else m

/-- Byte offset in a chunk at which a piece starts (S / M rounded down to whole elements). -/
def pieceStart (raw : List Byte) (m len i : Nat) : Nat :=
  let es := elemBytes (raDtype raw)
  len / es * i / pieceCount raw m * es

def pieceLen (raw : List Byte) (m len i : Nat) : Nat := pieceStart raw m len (i + 1) - pieceStart raw m len i

/-! ## Phases (R247) -/

/-- What a phase sends and receives: the peers and the pieces, and whether it reduces. -/
structure PhaseIo where
  dest : Option Nat
  out : List Nat
  src : Option Nat
  inp : List Nat
  reduce : Bool
  deriving DecidableEq, Repr

/-- A ring phase. The reduced piece of a member is the one of its own number. -/
def ringIo (m self : Nat) (reduce : Bool) (k : Nat) : PhaseIo :=
  let back (n : Nat) : Nat := (self + m * n - n) % m
  { dest := some ((self + 1) % m), src := some ((self + m - 1) % m), reduce := reduce
    out := [if reduce then back k else back (k - 1)]
    inp := [if reduce then back (k + 1) else back k] }

/-- An exchange with the member SELF xor 2^(j−1). After phase j of a reduction a member holds the pieces that agree with
its number in the low j bits. -/
def halfIo (m self : Nat) (reduce : Bool) (j : Nat) : PhaseIo :=
  let peer := self ^^^ 2 ^ (j - 1)
  let like (x : Nat) : List Nat := (List.range m).filter fun p => p % 2 ^ j == x % 2 ^ j
  { dest := some peer, src := some peer, reduce := reduce
    out := if reduce then like peer else like self
    inp := if reduce then like self else like peer }

/-- A phase of a BROADCAST. -/
def castIo (m self root j : Nat) : PhaseIo :=
  let rank := (self + m - root) % m
  let h := 2 ^ (j - 1)
  { dest := if rank < h ∧ rank + h < m then some ((self + h) % m) else none, out := [0]
    src := if h ≤ rank ∧ rank < 2 * h then some ((self + m - h) % m) else none, inp := [0], reduce := false }

/-- Phase ph of a step on this member (R247). -/
def phaseIo (raw : List Byte) (g : Group) (ph : Nat) : PhaseIo :=
  let m := memberCount g
  let one := if halving raw m then Nat.log2 m else m - 1
  let gather (k : Nat) := if halving raw m then halfIo m g.self false (one + 1 - k) else ringIo m g.self false k
  let reduce (k : Nat) := if halving raw m then halfIo m g.self true k else ringIo m g.self true k
  match raColl raw with
  | 1 => if ph ≤ one then reduce ph else gather (ph - one)
  | 2 => reduce ph
  | 3 => gather ph
  | _ => castIo m g.self (raRoot raw) ph

/-- The last phase that reduces. -/
def reducePhases (raw : List Byte) (m : Nat) : Nat :=
  if raReduces raw then (if halving raw m then Nat.log2 m else m - 1) else 0

/-- The phases that a step runs device-side: those it names, or all when it was planned in leased form (R265). -/
def firstPhase (raw : List Byte) : Nat := if raLeased raw then 1 else raPhaseFirst raw
def lastPhase (raw : List Byte) (m : Nat) : Nat := if raLeased raw then phaseTotal raw m else raPhaseLast raw

/-! ## The bytes held of a chunk (R257 to R259) -/

/-- Bytes of DTYPE in a run. -/
def workLen (dtype : Nat) (w : Work) : Nat := w.vals.length / heldBytes dtype * elemBytes dtype

/-- The parts of runs that lie in a range of the chunk. -/
def workIn (dtype lo hi : Nat) (ws : List Work) : List Work :=
  ws.filterMap fun w =>
    let a := max lo w.off
    let b := min hi (w.off + workLen dtype w)
    let held (n : Nat) : Nat := n / elemBytes dtype * heldBytes dtype
    if a < b then some { w with off := a, vals := (w.vals.drop (held (a - w.off))).take (held (b - a)) } else none

/-- A range's runs replaced. -/
def workPut (dtype lo hi : Nat) (new ws : List Work) : List Work :=
  workIn dtype 0 lo ws ++ new ++ workIn dtype hi (2 ^ 64) ws

def getWork (d : Dev) (slot seq chunk : Nat) : List Work := match getColl d slot seq with
  | some c => look [] chunk c.work
  | none => []
def setWork (slot seq chunk : Nat) (ws : List Work) (d : Dev) : Dev :=
  setColl slot seq (fun c => { c with work := put [] chunk ws c.work }) d

/-- What this member holds combined with what came (R257 to R259). -/
def joinWork (dtype op : Nat) (a b : Work) : Work :=
  { a with vals := combine dtype op a.vals b.vals, contrib := a.contrib + b.contrib, parties := a.parties ||| b.parties
           label := a.label ||| b.label, nonfinite := a.nonfinite || b.nonfinite }

/-- The runs held in a range, each combined with its part of what came. -/
def reduceWork (dtype op : Nat) (held : List Work) (w : Work) : List Work :=
  held.map fun h => match workIn dtype h.off (h.off + workLen dtype h) [w] with
    | b :: _ => joinWork dtype op h b
    | [] => h

/-- Whether bytes of a DTYPE hold a NaN or an infinity (R257). -/
def bytesNonFinite (dtype : Nat) (bs : List Byte) : Bool := anyNonFinite dtype (widen dtype bs)

/-- A chunk's OR-reduced flag (R141, R257). -/
def flagged (d : Dev) (slot seq chunk : Nat) : Bool := (getColl d slot seq).any fun c => c.flagged.contains chunk
def flagChunk (slot seq chunk : Nat) (b : Bool) (d : Dev) : Dev :=
  if b && !flagged d slot seq chunk then setColl slot seq (fun c => { c with flagged := chunk :: c.flagged }) d else d

/-! ## Sending (R235, R257 to R259) -/

/-- A range cut into payloads, as (offset, length). -/
def cutRange (size lo hi : Nat) : List (Nat × Nat) :=
  (List.range ((hi - lo + size - 1) / size)).map fun i => (lo + size * i, min (hi - (lo + size * i)) size)

/-- A DATA or CONTRIB packet with what is held of a range: the accounting of the data in its payload (R257 to R259). -/
def workPkt (g : Group) (raw : List Byte) (dest typ ph chunk lease : Nat) (ws : List Work) (r : Nat × Nat) : Packet :=
  let dt := raDtype raw
  let ws := workIn dt r.1 (r.1 + r.2) ws
  let bs := narrow dt (ws.map (·.vals)).flatten
  withPayload bs { basePkt g dest typ ph (raSeq raw) (raStep raw) with
    dtop := byteAt raw 0x21, chunk := chunk, offset := r.1, contrib := (ws.map (·.contrib)).foldl min 0xFFFF
    parties := unionAll (ws.map (·.parties)), label := unionAll (ws.map (·.label)), lease := lease
    nonfinite := ws.any (·.nonfinite) || bytesNonFinite dt bs }

/-- The packets of what is held of some ranges of a chunk. -/
def workPkts (g : Group) (raw : List Byte) (dest typ ph chunk lease : Nat) (ws : List Work) (rs : List (Nat × Nat)) :
    List Packet :=
  ((rs.flatMap fun r => cutRange g.payload r.1 r.2).map (workPkt g raw dest typ ph chunk lease ws)).filter fun p => 0 < p.len

def sendAll (slot m : Nat) (ps : List Packet) (d : Dev) : Dev := ps.foldl (fun d p => sendRel slot m p d) d

/-- Packets of a chunk go out. Each carries the flag of its own payload; the last of them carries the flag of the chunk as
well, so that every chunk travels with its OR-reduced flag (R141, R257; DEDUCED, log 84). -/
def sendChunk (slot m seq chunk : Nat) (last : Bool) (ps : List Packet) (d : Dev) : Dev :=
  let d := flagChunk slot seq chunk (ps.any (·.nonfinite)) d
  let f := flagged d slot seq chunk
  sendAll slot m (ps.mapIdx fun i p =>
    if i + 1 = ps.length then { p with last := last, nonfinite := p.nonfinite || f } else p) d

/-- Byte range of a piece of a chunk. -/
def pieceRange (raw : List Byte) (m len i : Nat) : Nat × Nat := (pieceStart raw m len i, pieceStart raw m len (i + 1))

/-- No later phase of the step sends to the same member. -/
def lastTo (raw : List Byte) (g : Group) (ph : Nat) (dest : Option Nat) : Bool :=
  (List.range (lastPhase raw (memberCount g) - ph)).all fun i => (phaseIo raw g (ph + 1 + i)).dest != dest

/-- What a phase sends of a chunk. -/
def sendPhase (st : RStep) (raw : List Byte) (u : RUnit) (d : Dev) : Dev :=
  let g := getGroup d st.slot
  let io := phaseIo raw g u.phase
  match io.dest with
  | none => d
  | some dest =>
    let last := lastTo raw g u.phase io.dest && (st.units.getLast?.map (·.chunk)) == some u.chunk
    sendChunk st.slot dest (raSeq raw) u.chunk last (workPkts g raw dest 1 u.phase u.chunk 0
      (getWork d st.slot (raSeq raw) u.chunk) (io.out.map (pieceRange raw (memberCount g) u.len))) d

/-! ## Results (R257 to R259) -/

/-- The label of a result under THRESHOLD, and whether the threshold is unmet (R259). -/
def resultLabel (raw : List Byte) (g : Group) (par : Label) (l : Label) : Label × Bool :=
  if !raThreshold raw then (l, false)
  else if parties par ≥ g.k then (0, false)
  else (l, true)

/-- Result bytes of a chunk are labelled and written, and the collective takes note of what they hold (R257, R259). -/
def writeResult (st : RStep) (raw : List Byte) (u : RUnit) (w : Work) (bs : List Byte) (d : Dev) : HbmResult Unit × Dev :=
  let g := getGroup d st.slot
  let l := resultLabel raw g w.parties w.label
  match rallyWrite (st.slot / 8) g.vf (raKind raw false) st.maps (raAddr raw false + u.off + w.off) bs l.1 d with
  | (.error e, d) => (.error e, d)
  | (.ok _, d) =>
    (.ok (), setColl st.slot (raSeq raw) (fun c => { c with unmet := c.unmet || l.2, label := c.label ||| l.1 })
      (flagChunk st.slot (raSeq raw) u.chunk (w.nonfinite || bytesNonFinite (raDtype raw) bs) d))

/-- Runs that have become final: their counts are checked, they are rounded to DTYPE once and written (R257 to R259). -/
def finalWorks (st : RStep) (raw : List Byte) (u : RUnit) : List Work → Dev → HbmResult Unit × Dev
  | [], d => (.ok (), d)
  | w :: t, d =>
    let dt := raDtype raw
    if raReduces raw ∧ w.contrib ≠ memberCount (getGroup d st.slot) then (.error (.fieldConflict, []), d)
    else
      let bs := narrow dt w.vals
      match writeResult st raw u w bs d with
      | (.error e, d) => (.error e, d)
      | (.ok _, d) =>
        let ws := getWork d st.slot (raSeq raw) u.chunk
        let w' := { w with vals := widen dt bs, nonfinite := w.nonfinite || bytesNonFinite dt bs }
        finalWorks st raw u t (setWork st.slot (raSeq raw) u.chunk (workPut dt w.off (w.off + bs.length) [w'] ws) d)

/-- Ranges of a chunk that have become final. -/
def finalRanges (st : RStep) (raw : List Byte) (u : RUnit) (rs : List (Nat × Nat)) (d : Dev) : HbmResult Unit × Dev :=
  finalWorks st raw u (rs.flatMap fun r => workIn (raDtype raw) r.1 r.2 (getWork d st.slot (raSeq raw) u.chunk)) d

/-- Contributors that a complete chunk counts: all members, but the one member whose data a BROADCAST or an ALL_TO_ALL
block holds. -/
def chunkContrib (raw : List Byte) (m : Nat) : Nat := if raColl raw ≤ 3 then m else 1

/-- A chunk has completed (R258, R260). -/
def chunkComplete (slot : Nat) (raw : List Byte) (d : Dev) : Dev :=
  let n := chunkContrib raw (memberCount (getGroup d slot))
  setColl slot (raSeq raw) (fun c => { c with chunks := c.chunks + 1, minContrib := min c.minContrib n }) d

/-- A step meets a fault of its own: the group fails (R253). -/
def stepFault (st : RStep) (e : Reason × List Byte) (d : Dev) : Dev := if live d then failLocalAt st.slot e d else d

/-- What is left of a step's write: the device, or the step's fault. -/
def orFault (st : RStep) : HbmResult Unit × Dev → Dev
  | (.ok _, d) => d
  | (.error e, d) => stepFault st e d

def setUnit (id : Nat) (u : RUnit) (d : Dev) : Dev :=
  setStep id (fun s => { s with units := s.units.map fun x => if x.chunk == u.chunk then u else x }) d

/-! ## Leased chunks (R264 to R266) -/

/-- The byte range of a leased chunk whose result this member receives. -/
def leasedRange (raw : List Byte) (g : Group) (len : Nat) : Nat × Nat :=
  if raColl raw = 2 then pieceRange raw (memberCount g) len g.self else (0, len)

/-- The lease of a step's collective. -/
def leaseOf (d : Dev) (st : RStep) : Option Lease := (getColl d st.slot (raSeq (rawOf d st.cmd))).bind (·.lease)

/-- This member's contribution to a leased chunk. -/
def sendContrib (st : RStep) (u : RUnit) (d : Dev) : Dev :=
  let raw := rawOf d st.cmd
  let lease := ((leaseOf d st).map (·.id)).getD 0
  sendChunk st.slot switchNo (raSeq raw) u.chunk false (workPkts (getGroup d st.slot) raw switchNo 5 0 u.chunk lease
    (getWork d st.slot (raSeq raw) u.chunk) [(0, u.len)]) d

/-- Chunks of a lease that are in the switch: sent, without their whole result. -/
def inSwitch (d : Dev) (slot : Nat) (lease : Option Lease) : Nat :=
  ((d.steps.filter fun s => s.slot == slot && leaseOf d s == lease).map fun s =>
    (s.units.filter fun u => u.leased && !u.done && u.phase == 1).length).foldl (· + ·) 0

/-- Contributions of a group's steps go out in order while fewer than two chunks of the lease are in the switch (R264), at most
so many. -/
def pumpLease (slot : Nat) : Nat → Dev → Dev
  | 0, d => d
  | n + 1, d =>
    match (d.steps.filter fun s => s.slot == slot).findSome? fun s =>
        (s.units.find? fun u => u.leased && !u.done && u.phase == 0).map fun u => (s, u) with
    | none => d
    | some (st, u) =>
      if inSwitch d slot (leaseOf d st) ≥ 2 then d
      else pumpLease slot n (sendContrib st u (setUnit st.cmd { u with phase := 1 } d))

def pumpAll (slot : Nat) (d : Dev) : Dev := pumpLease slot 2 d

/-! ## Fixed-capacity all-to-all (R267, R268) -/

/-- Source of the exchange at an offset. -/
def a2aSrc (g : Group) (k : Nat) : Nat := let m := memberCount g; (g.self + m * k - k) % m

/-- Rows of a source are written into its block; its LAST packet tells how many there are and how many were dropped (R267). -/
def takeRows (raw : List Byte) (st : RStep) (u : RUnit) (p : Piece) (d : Dev) : HbmResult Unit × Dev :=
  let g := getGroup d st.slot
  let b := raRowBytes raw
  match rallyWrite (st.slot / 8) g.vf (raKind raw false) st.maps (raAddr raw false + p.src * raSeg raw + p.off * b)
      p.bytes p.label d with
  | (.error e, d) => (.error e, d)
  | (.ok _, d) =>
    (.ok (), setColl st.slot (raSeq raw) (fun c => { c with
        rows := if p.last then put (0, 0) p.src (p.off + p.bytes.length / b, p.arg) c.rows else c.rows
        seen := if p.last then p.src :: c.seen else c.seen
        label := c.label ||| p.label, capDrop := c.capDrop || p.capDrop })
      (flagChunk st.slot (raSeq raw) u.chunk (p.nonfinite || bytesNonFinite (raDtype raw) p.bytes) d))

/-- The rest of a source's block is filled with zero (R267). -/
def fillBlock (raw : List Byte) (st : RStep) (u : RUnit) (d : Dev) : HbmResult Unit × Dev :=
  let g := getGroup d st.slot
  let s := a2aSrc g u.chunk
  let n := match getColl d st.slot (raSeq raw) with
    | some c => (look (0, 0) s c.rows).1 * raRowBytes raw
    | none => 0
  rallyWrite (st.slot / 8) g.vf (raKind raw false) st.maps (raAddr raw false + s * raSeg raw + n)
    (List.replicate (raSeg raw - n) 0) 0 d

/-! ## Receiving (R240, R247, R248) -/

/-- Payload that has been used returns its credit (R239, R240). -/
def drain (slot : Nat) (p : Piece) (d : Dev) : Dev :=
  let n := (p.bytes.length + 63) / 64
  if p.src = (getGroup d slot).self then d
  else setPair slot p.src (fun x => { x with drained := x.drained + n, staged := x.staged - n }) d

/-- Bytes of a chunk or block that a payload covers. -/
def pieceSpan (raw : List Byte) (p : Piece) : Nat × Nat :=
  let off := if raColl raw = 5 then p.off * raRowBytes raw else p.off
  (off, off + p.bytes.length)

/-- What a received payload is to its chunk at this moment. -/
inductive Fit where
  | now | later | never
  deriving DecidableEq, Repr

/-- A payload is used when it lies in what its chunk's present phase takes in from its sender and no byte of it has come yet; one
of a later phase waits, as does one of a member while the chunk runs leased; any other is of no use (R240, R247). -/
def pieceFit (raw : List Byte) (g : Group) (st : RStep) (p : Piece) : Fit :=
  let r := pieceSpan raw p
  let fits (u : RUnit) (lo hi step : Nat) : Bool :=
    lo ≤ r.1 && r.2 ≤ hi && r.1 % step == 0 && r.2 % step == 0 && u.got.all fun q => q.1 + q.2 ≤ r.1 || r.2 ≤ q.1
  let when (b : Bool) : Fit := if b then .now else .never
  match st.units.find? fun u => u.chunk == p.chunk with
  | none => .never
  | some u =>
    let es := elemBytes (raDtype raw)
    if u.done then .never
    else if raColl raw = 5 then
      when (p.src == a2aSrc g u.chunk && fits u 0 (raSeg raw) (raRowBytes raw) && (p.last || r.1 < r.2))
    else if p.src = switchNo then
      let q := leasedRange raw g u.len
      when (u.leased && u.phase == 1 && r.1 < r.2 && fits u q.1 q.2 es)
    else if u.leased then .later
    else if u.phase < p.phase ∧ p.phase ≤ lastPhase raw (memberCount g) then .later
    else
      let io := phaseIo raw g u.phase
      when (p.phase == u.phase && some p.src == io.src && r.1 < r.2 &&
        (io.inp.map (pieceRange raw (memberCount g) u.len)).any fun q => fits u q.1 q.2 es)

/-- The bytes that a chunk takes in at its present phase, when they are known. -/
def unitWants (d : Dev) (raw : List Byte) (g : Group) (st : RStep) (u : RUnit) : Option Nat :=
  let size (q : Nat × Nat) : Nat := q.2 - q.1
  if raColl raw = 5 then
    (getColl d st.slot (raSeq raw)).bind fun c =>
      if c.seen.contains (a2aSrc g u.chunk) then some ((look (0, 0) (a2aSrc g u.chunk) c.rows).1 * raRowBytes raw) else none
  else if u.leased then (if u.phase = 1 then some (size (leasedRange raw g u.len)) else none)
  else
    let io := phaseIo raw g u.phase
    some (if io.src.isNone then 0 else ((io.inp.map (pieceRange raw (memberCount g) u.len)).map size).foldl (· + ·) 0)

/-- Whether all of a chunk's input has come. -/
def unitReady (d : Dev) (raw : List Byte) (g : Group) (st : RStep) (u : RUnit) : Bool :=
  !u.done && unitWants d raw g st u == some ((u.got.map (·.2)).foldl (· + ·) 0)

/-- A received payload is used: combined with what is held, or written. A leased result with a wrong count names the switch
(R255, R257 to R259). -/
def takePiece (raw : List Byte) (st : RStep) (u : RUnit) (p : Piece) (d : Dev) : Dev :=
  let g := getGroup d st.slot
  let dt := raDtype raw
  let r := pieceSpan raw p
  let u := { u with got := (r.1, r.2 - r.1) :: u.got }
  let d := flagChunk st.slot (raSeq raw) u.chunk p.nonfinite (setUnit st.cmd u d)
  let w : Work :=
    { off := r.1, vals := widen dt p.bytes, contrib := p.contrib, parties := p.parties, label := p.label
      nonfinite := p.nonfinite }
  if raColl raw = 5 then orFault st (takeRows raw st u p d)
  else if u.leased then
    if p.contrib ≠ memberCount g then
      failGroup st.slot .fieldConflict switchNo false (sendCtrlAll st.slot 3 0 0 (abortArg switchNo) d)
    else orFault st (writeResult st raw u w p.bytes d)
  else
    let ws := getWork d st.slot (raSeq raw) u.chunk
    let io := phaseIo raw g u.phase
    let new := if io.reduce then reduceWork dt (raOp raw) (workIn dt r.1 r.2 ws) w else [w]
    let d := setWork st.slot (raSeq raw) u.chunk (workPut dt r.1 r.2 new ws) d
    if io.reduce then d else orFault st (finalRanges st raw u [r] d)

/-- A chunk ends. -/
def endUnit (raw : List Byte) (st : RStep) (u : RUnit) (complete : Bool) (d : Dev) : Dev :=
  let d := setUnit st.cmd { u with done := true } d
  if complete then chunkComplete st.slot raw d else d

/-- A device-side chunk whose phase is over: what the reduction made final is written; the next phase sends, or the chunk is
done (R247). -/
def nextPhase (raw : List Byte) (st : RStep) (u : RUnit) (d : Dev) : Dev :=
  let g := getGroup d st.slot
  let m := memberCount g
  let d := if raReduces raw ∧ u.phase = reducePhases raw m then
      orFault st (finalRanges st raw u [pieceRange raw m u.len g.self] d)
    else d
  if (stepOf d st.cmd).isNone then d
  else if u.phase ≥ lastPhase raw m then endUnit raw st u (lastPhase raw m == phaseTotal raw m) d
  else
    let u' := { u with phase := u.phase + 1, got := [] }
    let d := setUnit st.cmd u' d
    match stepOf d st.cmd with
    | some st' => sendPhase st' raw u' d
    | none => d

/-- One chunk whose input has come moves on. -/
def advanceUnit (raw : List Byte) (st : RStep) (u : RUnit) (d : Dev) : Dev :=
  if raColl raw = 5 then
    let d := orFault st (fillBlock raw st u d)
    if (stepOf d st.cmd).isSome then endUnit raw st u true d else d
  else if u.leased then pumpAll st.slot (endUnit raw st u true d)
  else nextPhase raw st u d

/-! ## Progress (R247, R248) -/

/-- A step's payloads are used and its chunks move on while they can, at most so many times; then, all done, it is DRAINING
(R248). While one of its deliveries is parked its buffers stand still (R169). -/
def progress (raw : List Byte) (id : Nat) : Nat → Dev → Dev
  | 0, d => d
  | n + 1, d =>
    match stepOf d id with
    | none => d
    | some st =>
      let g := getGroup d st.slot
      if deliveryParked d id then d
      else match st.pieces.findIdx? fun p => pieceFit raw g st p != .later with
      | some i =>
        match st.pieces[i]? with
        | none => d
        | some p =>
          let d := drain st.slot p (setStep id (fun x => { x with pieces := x.pieces.eraseIdx i }) d)
          match pieceFit raw g st p, st.units.find? fun u => u.chunk == p.chunk with
          | .now, some u => progress raw id n (takePiece raw st u p d)
          | _, _ => progress raw id n d
      | none =>
        match st.units.find? (unitReady d raw g st) with
        | some u => progress raw id n (advanceUnit raw st u d)
        | none => if st.units.all (·.done) then setStep id (fun x => { x with draining := true }) d else d

/-- Enough moves for every payload, and for every phase of every chunk. -/
def progressAll (id : Nat) (d : Dev) : Dev :=
  match stepOf d id with
  | none => d
  | some st => let raw := rawOf d id
    progress raw id ((phaseTotal raw (memberCount (getGroup d st.slot)) + 2) * (st.units.length + 1) + st.pieces.length) d

/-! ## COMMIT (R149, R269) -/

/-- GEN of the version sets of a mask, zero outside it. -/
def voteGens (d : Dev) (o : Nat) (sets : BitVec 8) : List Word :=
  (List.range 8).map fun v => if has8 sets v then look 0 v (getSeq d o).gen else 0

def votesOf (g : Group) (seq : Nat) : List (Nat × List Word × Bool) := (g.votes.filter fun x => x.1 == seq).map (·.2)

/-- The decision that complete votes give, with the first member whose GEN differs from the coordinator's (R149). -/
def decide3 (vs : List (Nat × List Word × Bool)) (m : Nat) : Nat × Nat :=
  let gens (i : Nat) : List Word := match vs.find? fun v => v.1 == i with
    | some v => v.2.1
    | none => []
  match (List.range m).find? fun i => gens i != gens 0 with
  | some i => (2, i)
  | none => if vs.any fun v => v.2.2 then (1, 0) else (0, 0)

/-- The 36-byte payload of a VOTE (R269): its fields little-endian, as that of a DECIDE (DESIGN CHOICE, log 82). -/
def votePayload (gens : List Word) (nf : Bool) : List Byte :=
  (gens.map fun g => natLe 4 g.toNat).flatten ++ natLe 4 (b2n nf)

/-- DECIDE to every other member but those excluded (R149, R269). -/
def sendDecide (slot seq code named : Nat) (d : Dev) : Dev :=
  let g := getGroup d slot
  (otherMembers g).foldl (fun d m => sendRel slot m
    (withPayload (if code = 2 then natLe 4 named else []) { basePkt g m 3 7 seq 1 with arg := code }) d) d

/-- The decision that a member holds of a COMMIT. -/
def decisionOf (g : Group) (seq : Nat) : Option Nat := (g.decisions.find? fun x => x.1 == seq).map (·.2)

/-- A member takes a decision: ABORT fails the group with FIELD_CONFLICT (R149, R151). -/
def takeDecision (slot seq code named : Nat) (d : Dev) : Dev :=
  let d := setGroup slot (fun g => { g with decisions := (seq, code) :: g.decisions }) d
  if code = 2 then failGroup slot .fieldConflict named false d else d

/-- A COMMIT's DECIDE step is in flight on a group's member. -/
def deciding (d : Dev) (slot seq : Nat) : Bool :=
  d.steps.any fun s => let raw := rawOf d s.cmd
    s.slot == slot && raColl raw == 6 && raStep raw == 1 && raSeq raw == seq

/-- The coordinator decides in its DECIDE step, once it holds every member's vote (R149, R269). -/
def coordinate (slot seq : Nat) (d : Dev) : Dev :=
  let g := getGroup d slot
  let vs := votesOf g seq
  let m := memberCount g
  if g.self ≠ 0 ∨ !deciding d slot seq ∨ (decisionOf g seq).isSome ∨
      !((List.range m).all fun i => vs.any fun v => v.1 == i) then d
  else
    let r := decide3 vs m
    takeDecision slot seq r.1 r.2 (sendDecide slot seq r.1 r.2 d)

/-- A VOTE step: the summary is read, the sets are voted, and the vote goes to the coordinator (R147, R149, R285). -/
def castVote (slot : Nat) (raw : List Byte) (d : Dev) : Dev :=
  let g := getGroup d slot
  let o := slot / 8
  let gens := voteGens d o (raVsets raw)
  let nf := bitAt (leNat (readBytes d.cmem (raSummary raw) 4)) 0
  let l := cmemLabelOf d (raSummary raw) 16
  let d := setGroup slot (fun g => { g with voting := some (raSeq raw, raVsets raw) }) (markVoted o (raVsets raw) true d)
  if g.self = 0 then
    setGroup slot (fun g => { g with votes := g.votes ++ [(raSeq raw, 0, gens, nf)] }) d
  else
    sendRel slot 0 (withPayload (votePayload gens nf)
      { basePkt g 0 3 6 (raSeq raw) (raStep raw) with nonfinite := nf, label := l }) d

/-! ## Dispatch (R247, R248, R263) -/

/-- A first step is held while the collective four before it is in progress (R247). -/
def limitHolds (d : Dev) (o : Nat) (raw : List Byte) : Bool :=
  match findGroup d o (raGroup raw) with
  | none => false
  | some s => cmdOpcode raw == 5 && raFirst raw &&
      (getGroup d s).colls.any fun c => (c.seq + 4) % 2 ^ 32 == raSeq raw

/-- The collective runs leased on this member (R261, R263). -/
def leaseHolds (d : Dev) (slot : Nat) (raw : List Byte) : Bool :=
  let g := getGroup d slot
  raLeased raw && raReduces raw && g.switchOk && (getPort d (slot / 8)).rally &&
    (match g.lease with
     | some l => l.fromSeq ≤ raSeq raw
     | none => false)

def newColl (raw : List Byte) (lease : Option Lease) : Coll :=
  { seq := raSeq raw, step := raStep raw, lease := lease, fallback := false, flagged := [], unmet := false
    capDrop := false, minContrib := 0xFFFF, chunks := 0, label := 0, rows := [], seen := [], lastCmd := none, cut := none
    planes := raPlanes raw, nextChunk := 0, work := [] }

/-- Bytes of a leased chunk (R264). -/
def leaseChunk (slots : Nat) : Nat := slots * 1048576 / 2 / 64 * 64

/-- The chunks of a step: its segments, or those of its collective's lease, the ones from the cut on device-side (R264, R265). -/
def stepUnits (raw : List Byte) (c : Coll) : List RUnit :=
  let seg := (List.range (raSegCount raw)).map fun i =>
    let k := raSegFirst raw + i
    { chunk := k, off := if raColl raw = 5 then 0 else k * raSeg raw, len := raSeg raw, leased := false
      phase := firstPhase raw, got := [], done := false : RUnit }
  let total := raSegCount raw * raSeg raw
  let n := leaseChunk ((c.lease.map (·.slots)).getD 0)
  if n = 0 then seg
  else (List.range ((total + n - 1) / n)).map fun i =>
    let side := match c.cut with
      | some k => c.nextChunk + i ≥ k
      | none => false
    { chunk := c.nextChunk + i, off := raSegFirst raw * raSeg raw + i * n, len := min n (total - i * n)
      leased := !side, phase := if side then 1 else 0, got := [], done := false : RUnit }

/-- The pieces of a chunk that this member itself holds at the start. -/
def ownPieces (raw : List Byte) (g : Group) : List Nat :=
  match raColl raw with
  | 3 => [g.self]
  | 4 => if g.self = raRoot raw then [0] else []
  | _ => List.range (memberCount g)

/-- Ranges of the source buffer are read, unless the collective already holds them (R257 to R259). -/
def loadRanges (raw : List Byte) (st : RStep) (u : RUnit) : List (Nat × Nat) → Dev → HbmResult Unit × Dev
  | [], d => (.ok (), d)
  | r :: t, d =>
    let dt := raDtype raw
    let ws := getWork d st.slot (raSeq raw) u.chunk
    if !(workIn dt r.1 (r.1 + r.2) ws).isEmpty then loadRanges raw st u t d
    else match rallyRead (raKind raw true) st.maps (raAddr raw true + u.off + r.1) r.2 d with
      | (.error e, d) => (.error e, d)
      | (.ok (bs, l), d) =>
        let g := getGroup d st.slot
        let pb : Label := match partyOf g g.self with
          | some p => partyBit p
          | none => 0
        let nf := bytesNonFinite dt bs
        let w : Work := { off := r.1, vals := widen dt bs, contrib := 1, parties := pb, label := l, nonfinite := nf }
        loadRanges raw st u t (setWork st.slot (raSeq raw) u.chunk (workPut dt r.1 (r.1 + r.2) [w] ws)
          (flagChunk st.slot (raSeq raw) u.chunk nf d))

/-- A chunk starts: what this member holds is read, what is final at once is written, its first phase sends. -/
def startUnit (raw : List Byte) (st : RStep) (u : RUnit) (d : Dev) : HbmResult Unit × Dev :=
  let g := getGroup d st.slot
  let m := memberCount g
  let own := (ownPieces raw g).map (pieceRange raw m u.len)
  match loadRanges raw st u (own.flatMap fun r => cutRange g.payload r.1 r.2) d with
  | (.error e, d) => (.error e, d)
  | (.ok _, d) =>
    if u.leased then (.ok (), d)
    else
      let now := if u.phase > 1 then [] else if raReduces raw then (if m = 1 then own else []) else own
      match finalRanges st raw u now d with
      | (.error e, d) => (.error e, d)
      | (.ok _, d) =>
        if u.phase > lastPhase raw m ∨ phaseTotal raw m = 0 then (.ok (), endUnit raw st u true d)
        else (.ok (), sendPhase st raw u d)

def startUnits (raw : List Byte) (st : RStep) : List RUnit → Dev → HbmResult Unit × Dev
  | [], d => (.ok (), d)
  | u :: t, d => match startUnit raw st u d with
    | (.ok _, d) => startUnits raw st t d
    | (.error e, d) => (.error e, d)

/-- The packets of the rows that a member sends for one destination, each read with the label of its rows (R259, R267). -/
def readRows (raw : List Byte) (st : RStep) (k dest : Nat) : List (Nat × Nat) → List Packet → Dev →
    HbmResult (List Packet) × Dev
  | [], acc, d => (.ok acc, d)
  | r :: t, acc, d =>
    match rallyRead (raKind raw true) st.maps (raAddr raw true + dest * raSeg raw + r.1) r.2 d with
    | (.error e, d) => (.error e, d)
    | (.ok (bs, l), d) =>
      readRows raw st k dest t (acc ++ [withPayload bs { basePkt (getGroup d st.slot) dest 1 0 (raSeq raw) (raStep raw) with
        dtop := byteAt raw 0x21, chunk := k, offset := r.1 / raRowBytes raw, contrib := 1, label := l
        nonfinite := bytesNonFinite (raDtype raw) bs }]) d

/-- The rows for one destination offset go out, or to this member's own block: the last packet tells the rows dropped, and one
without rows goes where none are sent (R267). -/
def sendRows (raw : List Byte) (st : RStep) (k dest drop : Nat) (cap : Bool) (ps : List Packet) (d : Dev) : Dev :=
  let g := getGroup d st.slot
  let ps := if ps.isEmpty then
      [{ basePkt g dest 1 0 (raSeq raw) (raStep raw) with dtop := byteAt raw 0x21, chunk := k, contrib := 1 }]
    else ps
  let ps := ps.mapIdx fun i p => if i + 1 = ps.length then { p with arg := drop, capDrop := cap } else p
  if dest = g.self then
    setStep st.cmd (fun x => { x with pieces := x.pieces ++ ps.mapIdx fun i p =>
      { phase := 0, chunk := k, src := dest, off := p.offset, bytes := p.payload, contrib := 1, parties := 0
        label := p.label, nonfinite := p.nonfinite, capDrop := p.capDrop, last := i + 1 == ps.length, arg := p.arg } }) d
  else sendChunk st.slot dest (raSeq raw) k true ps d

/-- An all-to-all step reads its rows and sends them. -/
def startBlocks (raw : List Byte) (st : RStep) (counts : List Nat) : List RUnit → Dev → HbmResult Unit × Dev
  | [], d => (.ok (), d)
  | u :: t, d =>
    let g := getGroup d st.slot
    let dest := (g.self + u.chunk) % memberCount g
    let nd := counts.getD dest 0
    let rows := min nd (raCap raw)
    let per := max 1 (g.payload / raRowBytes raw) * raRowBytes raw
    match readRows raw st u.chunk dest (cutRange per 0 (rows * raRowBytes raw)) [] d with
    | (.error e, d) => (.error e, d)
    | (.ok ps, d) =>
      startBlocks raw st counts t (sendRows raw st u.chunk dest (nd - rows) (counts.any fun n => n > raCap raw) ps d)

def startAllToAll (raw : List Byte) (st : RStep) (d : Dev) : HbmResult Unit × Dev :=
  let m := memberCount (getGroup d st.slot)
  match rallyRead (raKind raw true) st.maps (raCounts raw) (4 * m) d with
  | (.error e, d) => (.error e, d)
  | (.ok (bs, _), d) =>
    startBlocks raw st ((List.range m).map fun i => field bs (4 * i) 4) st.units d

/-- The data exchange of a dispatched step starts. -/
def startStep (raw : List Byte) (st : RStep) (d : Dev) : Dev :=
  match raColl raw with
  | 6 => if raStep raw = 0 then castVote st.slot raw d else coordinate st.slot (raSeq raw) d
  | 5 => match startAllToAll raw st d with
    | (.error e, d) => stepFault st e d
    | (.ok _, d) => progressAll st.cmd d
  | _ => match startUnits raw st st.units d with
    | (.error e, d) => stepFault st e d
    | (.ok _, d) => progressAll st.cmd (pumpAll st.slot d)

/-- The member has arrived at a step: recorded by the coordinator, or sent to it (R248, R252). -/
def sendArrive (slot : Nat) (raw : List Byte) (d : Dev) : Dev :=
  if (getGroup d slot).self = 0 then
    setGroup slot (fun g => { g with arrived := (raSeq raw, raStep raw, 0) :: g.arrived }) d
  else sendCtrl slot 0 1 (raSeq raw) (raStep raw) 0 d

/-- A fabric delivery enters the Relay engine DELIVERY of a buffer's octant (R250). -/
def addDelivery (c : Cmd) (o : Nat) (d : Dev) : Dev :=
  let e := raDelivery c.raw
  let (seq, d) := takeSeq o e d
  { d with xfers := d.xfers ++ [{ newXfer d o e seq c.id c.ctx with fabric := true }] }

/-- RLY_STATUS.FALLBACK of a partition set: a change of it interrupts the VF (R265, R388). -/
def raiseFallback (v : Nat) (d : Dev) : Dev :=
  if has8 d.rly.fallback v then d else partChanged v { d with rly := { d.rly with fallback := set8 d.rly.fallback v } }

/-- A step that passed its checks is ACTIVE (R248). -/
def startRally (c : Cmd) (slot : Nat) (maps : List Mapping) (d : Dev) : Dev :=
  let raw := c.raw
  let lease := if leaseHolds d slot raw then (getGroup d slot).lease else none
  let d := setGroup slot (fun g => if raFirst raw then
      { g with lastDisp := raSeq raw, colls := g.colls ++ [newColl raw lease] }
    else { g with colls := g.colls.map fun x =>
      if x.seq == raSeq raw then { x with step := raStep raw, planes := raPlanes raw } else x }) d
  match getColl d slot (raSeq raw) with
  | none => d
  | some co =>
    let units := if raColl raw = 6 then [] else stepUnits raw co
    let side := raLeased raw && raReduces raw && (getGroup d slot).switchOk && units.any (fun u => !u.leased)
    let d := setColl slot (raSeq raw) (fun x => { x with
      fallback := x.fallback || side, nextChunk := if x.lease.isSome then x.nextChunk + units.length else x.nextChunk }) d
    let d := if side then raiseFallback (getGroup d slot).vf d else d
    let d := (deliveryOcts raw).foldl (fun d o => addDelivery c o d) d
    let st : RStep :=
      { cmd := c.id, port := c.oct, slot := slot, left := look 4 (getGroup d slot).vf d.rly.deadline, draining := false,
        maps := maps, units := units, pieces := [], lateLeft := none }
    let d := setCmd c.id (fun x => { x with phase := .active, began := d.tck.now, waitLeft := none }) d
    startStep raw st (sendArrive slot raw { d with steps := d.steps ++ [st] })

/-- A RALLY command dispatches into its window: its checks, then its step starts; a failing check faults the step, which ends
FAULTED, and with it the group (R247, R253). -/
def rallyDispatch (id : Nat) (d : Dev) : Dev :=
  match cmdById d id with
  | none => d
  | some c =>
    let fail (r : Reason) (named : Nat) : Dev :=
      faultRally r named [] false id (setCmd id (fun x => { x with phase := .active, waitLeft := none }) d)
    match findGroup d c.oct (raGroup c.raw) with
    | none => fail .notOwner 0
    | some slot =>
      let g := getGroup d slot
      match g.failed with
      | some f => fail f.1 f.2
      | none =>
        match rallyCheck d c.oct c.ctx g c.raw with
        | .error r =>
          let known := g.colls.any fun x => x.seq == raSeq c.raw
          let d := setGroup slot (fun g => if known then g else { g with colls := g.colls ++ [newColl c.raw none] })
            (fail r g.self)
          failLocal slot r d
        | .ok maps => startRally c slot maps d

end Sys2Proof.Machine
end

