-- ==== Sys2Proof/Machine/Queue.lean ====
section
/-!
DEFINITION. Queues and commands (09): fetch and acceptance, waits, the order of execution within a queue, dispatch into
windows, completion records and signals.
-/
namespace Sys2Proof.Machine

/-! ## Blocks that dispatch (R46, R48) -/

def seqBase (o : Nat) : Nat := 0x400000 + o * 0x100000
def rleBase (o : Nat) : Nat := seqBase o + 0x40000
def cluBase (o c : Nat) : Nat := seqBase o + 0x80000 + c * 0x1000
def fabBase (p : Nat) : Nat := 0x110000 + p * 0x1000
def rlyBase : Nat := 0x100000

/-- A Relay command with a Transom window at an end (R164). -/
def transomEnds (raw : List Byte) : Bool := rdSrcKind raw == 3 || rdDstKind raw == 3

/-- A block dispatches new items: ENABLE reads 1 and no write of 0 waits (R48). -/
def dispatches (d : Dev) (base : Nat) : Bool := (getBlk d base).enable && !(getBlk d base).stopping

/-! ## Lifecycle (R345, R346) -/

/-- Kernel slots must be SIGNED: the state of the last reset is FIELDED (R346, R347). -/
def signedRequired (d : Dev) : Bool := d.ptr.lcsAtReset == 2

/-! ## Acceptance (R210, R211) -/

/-- The reserved fields of the header. -/
def headerOk (raw : List Byte) : Bool :=
  cmdFlags raw < 8 && waitObj raw < 2 ^ 14 && sigObj raw < 2 ^ 14 && allZero (slice raw 0x12 14)

/-- RESOURCE agrees with the opcode: its kind, and an index in range. -/
def resourceOk (raw : List Byte) : Bool :=
  let r := cmdResource raw
  match cmdOpcode raw with
  | 3 => resKind r == 1 && resIndex r ≤ 8
  | 4 => resKind r == 2 && resIndex r ≤ 1
  | 5 => resKind r == 3 && resIndex r ≤ 7
  | _ => r == 0

/-- An entry offset of a participating stream is even and below the image length. -/
def entryOk (raw : List Byte) (len st : Nat) : Bool :=
  !bitAt (launchStreams raw) st || (launchEntry raw st % 2 == 0 && launchEntry raw st < len)

/-- The payload by opcode (R210). -/
def payloadOk (d : Dev) (o ctx : Nat) (raw : List Byte) : Bool :=
  match cmdOpcode raw with
  | 1 => allZero (slice raw 0x20 96)
  | 2 => byteAt raw 0x20 < 2 && allZero (slice raw 0x21 95)
  | 3 =>
    let img := getImg d o ctx (launchSlot raw % 16)
    1 ≤ launchStreams raw && launchStreams raw < 4 && launchSlot raw < 16 && field raw 0x22 2 == 0 &&
    launchMask raw != 0 && allZero (slice raw 0x50 48) && img.used && !img.releasing && entryOk raw img.length 0 &&
    entryOk raw img.length 1
  | 4 => allZero (slice raw 0x60 32)
  | 5 => rallyForm raw
  | 6 => sigEn raw && allZero (slice raw 0x24 92)
  | _ => false

/-- An object that a command of an octant may name: in its partition, and configured. -/
def objUsable (d : Dev) (o code : Nat) : Bool :=
  samePart d o (objOct code) && (getObj d (objOct code) (objIx code)).configured

/-- The queue may signal the object: it is the designated producer, or none is designated (R218). -/
def mayProduce (d : Dev) (o q code : Nat) : Bool :=
  match (getObj d (objOct code) (objIx code)).producer with
  | none => true
  | some p => p == (o, q)

/-- A SIG_OBJ to which no signal may go (R212). -/
def sigBad (d : Dev) (o q : Nat) (raw : List Byte) : Bool :=
  sigEn raw && (!objUsable d o (sigObj raw) || (cmdOpcode raw != 6 && !mayProduce d o q (sigObj raw)))

/-- Row 2 of R211. -/
def objectsOk (d : Dev) (o q ctx : Nat) (raw : List Byte) : Bool :=
  !(waitEn raw && !objUsable d o (waitObj raw)) && !sigBad d o q raw &&
  !(cmdOpcode raw == 6 && !(objOct (sigObj raw) == o && (getObj d o (objIx (sigObj raw))).owner == ctx)) &&
  !(cmdOpcode raw == 5 && resIndex (cmdResource raw) != o)

/-- Under an ACTIVE charter, a slot must carry the signatures of at least SIGNERS of that charter's code keys (R275). -/
def fewSigners (d : Dev) (o : Nat) (img : ImgSlot) : Bool :=
  let ch := getCharter d (getSht d o).vf
  (octVf d o).isSome && ch.state == .active && (img.signers.filter fun k => ch.parties.any fun p => p.codeKey == k && k != 0).length < ch.signers

/-- The acceptance checks in their order (R210, R211, R246). -/
def acceptance (d : Dev) (o q ctx : Nat) (raw : List Byte) : Option Reason :=
  let img := getImg d o ctx (launchSlot raw % 16)
  let clu := resIndex (cmdResource raw)
  if cmdOpcode raw ≥ 0x80 then some .notOwner
  else if !(headerOk raw && resourceOk raw && payloadOk d o ctx raw) then some .fieldRange
  else if !objectsOk d o q ctx raw then some .notOwner
  else if cmdOpcode raw = 3 ∧ !(clusterPresent d clu && bitAt img.mask clu) then some .engineAbsent
  else if cmdOpcode raw = 3 ∧ ((signedRequired d ∧ !img.signed) ∨ fewSigners d o img) then some .unsignedCode
  else if cmdOpcode raw = 5 then rallyRefusal d o raw
  else none

/-- A fetched command is accepted, or counts as accepted and is refused (R206, R212). -/
def accept (o q : Nat) (raw : List Byte) (d : Dev) : Dev :=
  let x := getQueue d o q
  let c : Cmd :=
    { id := d.nextCmd, oct := o, q := q, ctx := x.ctx, slot := x.fetch % 2 ^ x.n, raw := raw, phase := .accepted,
      winStart := 0, winEnd := 0, winTick := 0, delay := 0, began := 0, endPassed := false, waitLeft := none,
      waitOk := false, limitHeld := false, result := (.done, .ok), info := [], heldUntil := none, noSignal := false, retired := false,
      errEnd := none }
  let d := setQueue o q (fun y => { y with
      fetch := (y.fetch + 1) % 65536, fetchFrom := d.tck.now, wseqCmd := y.wseqCmd + 1 })
    { d with cmds := d.cmds ++ [c], nextCmd := d.nextCmd + 1 }
  match acceptance d o q x.ctx raw with
  | none => d
  | some r => refuseCmd c.id r (sigBad d o q raw || cmdOpcode raw == 6) d

/-! ## Fetch (R207, R297) -/

/-- Commands of a queue that are published and not fetched. -/
def pendingCmds (x : Queue) : Nat := (x.producer + 65536 - x.fetch) % 65536

/-- A queue's context runs and is not being stopped, and the queue has not stopped. One that has stopped with an error stays so
over CTX_STOP and CTX_START until it is unbound or scrubbed (DESIGN CHOICE, log 87). -/
def queueActive (d : Dev) (o q : Nat) : Bool :=
  let x := getQueue d o q
  let c := getCtx d o x.ctx
  x.bound && x.stopped.isNone && c.state == .running && c.stopMode == .none

/-- A queue fetches: it is active and below its IN_FLIGHT_MAX (R206). -/
def fetching (d : Dev) (o q : Nat) : Bool :=
  let x := getQueue d o q
  queueActive d o q && dispatches d (seqBase o) && 0 < pendingCmds x && (queueCmds d o q).length < x.inFlightMax

/-- Where a part of a ring's slot lies, once its region-table entry is valid and gives the access; a slot that is read has the
empty label (R207, R208). -/
def ringPart (d : Dev) (o ctx : Nat) (write : Bool) (p : Nat × Nat) : Except Reason (Nat × Nat) :=
  match resolveVa d o ctx p.1 with
  | none => .error .fieldRange
  | some m =>
    if !vaPermitted d o ctx p.1 write then .error .notOwner
    else if !write ∧ (getRegion d m.base).label ≠ 0 then .error .labelDenied
    else .ok (mapPa m p.1, p.2)

/-- Where a ring's slot lies: a part for each region that it touches, in order, or the first failure (R156, R207, R208). -/
def ringParts (d : Dev) (o ctx : Nat) (write : Bool) : List (Nat × Nat) → Except Reason (List (Nat × Nat))
  | [] => .ok []
  | p :: l => match ringPart d o ctx write p with
    | .error r => .error r
    | .ok a => match ringParts d o ctx write l with
      | .error r => .error r
      | .ok t => .ok (a :: t)

/-- The parts of a slot are read in order. -/
def readParts (requester : Nat) (ev : LineEvent) : List (Nat × Nat) → List Byte → Dev → HbmResult (List Byte) × Dev
  | [], acc, d => (.ok acc, d)
  | p :: l, acc, d => match hbmRead requester p.1 p.2 ev d with
    | (.ok bs, d) => readParts requester ev l (acc ++ bs) d
    | (.error e, d) => (.error e, d)

/-- The parts of a slot are written in order, with the empty label. -/
def writeParts (requester : Nat) (ev : LineEvent) : List (Nat × Nat) → List Byte → Dev → HbmResult Unit × Dev
  | [], _, d => (.ok (), d)
  | p :: l, bs, d => match hbmWrite requester p.1 (bs.take p.2) 0 ev d with
    | (.ok _, d) => writeParts requester ev l (bs.drop p.2) d
    | (.error e, d) => (.error e, d)

/-- The slot of the queue's next command, as virtual parts. -/
def cmdSlot (x : Queue) : List (Nat × Nat) := splitPages 0 (x.cmdBase + 128 * (x.fetch % 2 ^ x.n)) 128

/-- A fetch from an HBM ring (R207). -/
def fetchHbm (o q : Nat) (ev : LineEvent) (d : Dev) : Dev :=
  let x := getQueue d o q
  match ringParts d o x.ctx false (cmdSlot x) with
  | .error r => stopQueue o q r x.fetch [] d
  | .ok ps => match readParts (20 + o) ev ps [] d with
    | (.ok bs, d) => accept o q bs d
    | (.error e, d) => if live d then stopQueue o q e.1 x.fetch e.2 d else d

/-- Window of a queue's ring base. -/
def ringWin (base : Nat) : Nat := base / 2 ^ 36

/-- A fetch from a Transom ring: a block that the host answered, verified (R296, R297). It was asked for in the VF's slot,
which may have ended since (R301). -/
def fetchHost (o q : Nat) (b : HostBlock) (d : Dev) : Dev :=
  let x := getQueue d o q
  let v := (getSht d o).vf
  let y := openBlock d v (ringWin x.cmdBase) b
  if b.cipher.isEmpty ∨ !hostOpen d v ∨ !dispatches d trsBase ∨ !slotSince d v x.fetchFrom then d
  else if y.tagOk ∧ !b.poisoned ∧ y.block = x.fetch % 2 ^ x.n ∧ y.wseq = x.wseqCmd ∧ b.cipher.length = 128 then
    accept o q y.data d
  else stopQueue o q .integrityFail x.fetch []
    (setWin v (ringWin x.cmdBase) (fun w => { w with authFail := satAdd 0xFFFFFFFF w.authFail 1 }) d)

/-- COMMAND_FETCH's effect. -/
def fetchCmd (o q : Nat) (ev : LineEvent) (b : HostBlock) (d : Dev) : Dev :=
  let x := getQueue d o q
  if !fetching d o q then d
  else if pendingCmds x > 2 ^ x.n then stopQueue o q .fieldRange x.fetch [] d
  else if x.transom then fetchHost o q b d
  else fetchHbm o q ev d

/-! ## Waits (R217, R221, R222) -/

/-- Whether a command's wait is satisfied, unsatisfied, or released with error. -/
inductive WaitState where
  | free
  | held
  | err (r : Reason)
  deriving DecidableEq, Repr

def waitState (d : Dev) (c : Cmd) : WaitState :=
  if !waitEn c.raw ∨ c.waitOk then .free
  else
    let o := getObj d (objOct (waitObj c.raw)) (objIx (waitObj c.raw))
    if o.error then .err o.errReason
    else if satisfied o (waitValue c.raw) then .free
    else .held

/-- Commands whose wait on an object is pending. -/
def cmdWaits (d : Dev) (o n : Nat) : List Cmd :=
  d.cmds.filter fun c => c.waitLeft.isSome && objOct (waitObj c.raw) == o && objIx (waitObj c.raw) == n

/-- Streams whose wait on an object is pending, by stream number. -/
def streamWaits (d : Dev) (o n : Nat) : List Nat :=
  (d.stream.filter fun e => match e.2.wait with
    | .hwait o' n' _ _ => o' == o && n' == n
    | _ => false).map (·.1)

/-- A command's wait begins (R221). -/
def beginWait (id : Nat) (d : Dev) : Dev :=
  setCmd id (fun c => { c with
    waitLeft := some (getObj d (objOct (waitObj c.raw)) (objIx (waitObj c.raw))).deadline }) d

/-! ## Order within a queue (R213 to R215) -/


/-- Commands of the same queue that are older. -/
def older (d : Dev) (c : Cmd) : List Cmd := (queueCmds d c.oct c.q).filter fun x => x.id < c.id

/-- The command is behind an incomplete FENCE of its queue. -/
def behindFence (d : Dev) (c : Cmd) : Bool := (older d c).any fun x => isFence x && x.phase != .recording

/-- The reason of the first command before another, in the queue's order, that has failed since the queue's previous FENCE. -/
def firstFail (id : Nat) (q : Queue) : Option Reason :=
  let l := q.fails.filter fun f => f.1 < id
  let first := (l.map (·.1)).foldl min id
  (l.find? fun f => f.1 == first).map (·.2)

/-- A FENCE completes: DONE, or with FAIL_STOP the first earlier failure since the queue's previous FENCE (R215). -/
def completeFence (c : Cmd) (d : Dev) : Dev :=
  let q := getQueue d c.oct c.q
  match if failStopFence c then firstFail c.id q else none with
  | none => finish c.id .done .ok (slotInfo c) false d
  | some r => setQueue c.oct c.q (fun q => { q with failStop := some r }) (finish c.id .notRun r (slotInfo c) false d)

/-- HRESET: refused while a wait on the object is pending; otherwise VALUE is set and the error cleared (R223). The refusal leaves
no fault record (DESIGN CHOICE, log 87). -/
def doHreset (c : Cmd) (d : Dev) : Dev :=
  let o := objOct (sigObj c.raw)
  let n := objIx (sigObj c.raw)
  if !(cmdWaits d o n).isEmpty ∨ !(streamWaits d o n).isEmpty then
    finish c.id .notRun .busyUpdate (slotInfo c) true d
  else
    finish c.id .done .ok (slotInfo c) true
      (setObj o n (fun x => { x with value := BitVec.ofNat 32 (field c.raw 0x20 4), error := false, errReason := .ok }) d)

/-- A non-windowed command that its wait no longer holds executes (R214). -/
def executeCmd (c : Cmd) (d : Dev) : Dev :=
  match cmdOpcode c.raw with
  | 2 => completeFence c d
  | 6 => doHreset c d
  | _ => finish c.id .done .ok (slotInfo c) false d

/-- The next non-windowed command of its queue, free of fences: the one that may execute now (R214, R215). -/
def nextPlain (d : Dev) (c : Cmd) : Bool :=
  c.phase == .accepted && !windowed c.raw && !behindFence d c &&
  !((older d c).any fun x => x.phase == .accepted && !windowed x.raw) && (!isFence c || (older d c).isEmpty)

/-- A command behind a failed FENCE with FAIL_STOP, before the next FENCE without it (R215). -/
def failStopped (d : Dev) (c : Cmd) : Option Reason :=
  if c.phase = .recording ∨ c.phase = .active ∨ (isFence c ∧ !failStopFence c) then none
  else if (older d c).any fun x => isFence x && !failStopFence x then none
  else (getQueue d c.oct c.q).failStop

/-! ## Windows and dispatch (R36, R40, R213) -/

/-- A dispatched command still occupies its resource (R40); a parked transfer has released it (R169). -/
def occupies (d : Dev) (c : Cmd) : Bool :=
  c.phase == .active && c.heldUntil.isNone &&
  (if cmdOpcode c.raw = 4 then d.xfers.any fun x => x.cmd == c.id && !x.partl else !c.retired)

/-- A window's selection came before another. -/
def selectedBefore (a b : Cmd) : Bool := a.winTick < b.winTick || (a.winTick == b.winTick && a.winStart < b.winStart)

/-- An L1 of the unit that a command's item needs runs: the unit accepts no work (R359). -/
def inL1 (d : Dev) (c : Cmd) : Bool :=
  let r := resIndex (cmdResource c.raw)
  d.ump.l1.any fun u => match u with
    | .cluster o k => cmdOpcode c.raw == 3 && c.oct == o.val && r == k.val
    | .core o k n => cmdOpcode c.raw == 3 && c.oct == o.val && r == k.val && bitAt (launchMask c.raw) n.val
    | .relay o e => cmdOpcode c.raw == 4 && c.oct == o.val && r == e.val
    | .rally p => cmdOpcode c.raw == 5 && c.oct == p.val
    | .sequencer o => c.oct == o.val

/-- The blocks that a windowed command's dispatch needs are enabled, and no unit of it is in an L1 (R48, R359). -/
def blocksEnabled (d : Dev) (c : Cmd) : Bool :=
  dispatches d (seqBase c.oct) && !inL1 d c &&
  match cmdOpcode c.raw with
  | 3 => dispatches d (cluBase c.oct (resIndex (cmdResource c.raw)))
  | 4 => dispatches d (rleBase c.oct) && (!transomEnds c.raw || dispatches d trsBase)
  | _ => dispatches d rlyBase && dispatches d (fabBase c.oct)

/-- The Relay engines that a windowed command enters have room (R167, R250). -/
def enginesFree (d : Dev) (c : Cmd) : Bool :=
  match cmdOpcode c.raw with
  | 4 => !engineFull d c.oct (resIndex (cmdResource c.raw))
  | 5 => (deliveryOcts c.raw).all fun o => !engineFull d o (raDelivery c.raw)
  | _ => true

/-- A selected command whose wait is satisfied and whose resource is free (R40, R213). -/
def mayDispatch (d : Dev) (c : Cmd) : Bool :=
  c.phase == .selected && waitState d c == .free && blocksEnabled d c && enginesFree d c &&
  !(d.cmds.any fun x => sameResource x c && windowed x.raw && x.id != c.id &&
    (occupies d x || (x.phase == .selected && selectedBefore x c)))

/-- It dispatches, unless it is a rally first step that the four-collective limit holds (R247). -/
def canDispatch (d : Dev) (c : Cmd) : Bool := mayDispatch d c && !c.limitHeld && !limitHolds d c.oct c.raw

/-- A first step that the limit begins to hold (R247, R248). -/
def limitStarts (d : Dev) (c : Cmd) : Bool := mayDispatch d c && !c.limitHeld && limitHolds d c.oct c.raw

/-- A windowed command dispatches. -/
def dispatchCmd (c : Cmd) (d : Dev) : Dev :=
  match cmdOpcode c.raw with
  | 3 => launchDispatch c.id d
  | 4 => relayDispatch c.id d
  | _ => rallyDispatch c.id d

/-- A command that waits and may be released now: selected, or the next non-windowed one. -/
def waitingNow (d : Dev) (c : Cmd) : Bool := waitEn c.raw && !c.waitOk && (c.phase == .selected || nextPlain d c)

/-- The group in which a COMMIT has voted whose command has ended otherwise than by retiring (R147). -/
def voteLost (d : Dev) (c : Cmd) : Option Nat :=
  if c.phase = .recording ∧ c.result.1 ≠ .done ∧ cmdOpcode c.raw = 5 then votedSlot d c.oct c.raw else none

/-- One action that the commands' standing asks for. -/
def settleStep (d : Dev) : Option Dev :=
  if d.steps.any (killedStep d) then some (rallySweep d)
  else match d.cmds.findSome? (voteLost d) with
  | some s => some (endVote s d)
  | none => match d.cmds.findSome? fun c => (failStopped d c).map fun r => (c, r) with
  | some (c, r) => some (finish c.id .notRun r [] false d)
  | none =>
    match d.cmds.find? fun c => waitingNow d c && !(waitState d c == .held && c.waitLeft.isSome) with
    | some c =>
      match waitState d c with
      | .err r => some (finish c.id .notRun r [] false d)
      | .free => some (setCmd c.id (fun x => { x with waitOk := true, waitLeft := none }) d)
      | .held => some (beginWait c.id d)
    | none =>
      match d.cmds.find? fun c => nextPlain d c && waitState d c == .free with
      | some c => some (executeCmd c d)
      | none =>
        match d.cmds.find? (limitStarts d) with
        | some c => some (setCmd c.id (fun x => { x with limitHeld := true }) d)
        | none => (d.cmds.find? (canDispatch d)).map fun c => dispatchCmd c d

/-- The actions are taken until none is left, at most so many. -/
def settleN : Nat → Dev → Dev
  | 0, d => d
  | n + 1, d => match settleStep d with
    | some d' => settleN n d'
    | none => d

/-- What the sequencers do at once after an event: releases, executions and dispatches (R213 to R215, R222). -/
def settle (d : Dev) : Dev := if live d then writeStatuses (settleN (8 * d.cmds.length + 8) d) else d

/-- A meaning in service, with what the sequencers then do at once. -/
def settled (f : Dev → Dev) (d : Dev) : Dev := if live d then settle (f d) else d

/-- The device with what the HBM lines meet in the Rally engine's accesses (R189, log 18). -/
def withLine (ev : LineEvent) (d : Dev) : Dev := { d with rly := { d.rly with lineEv := ev } }

/-- A meaning in which the Rally engine's HBM accesses meet a line event, which is gone when the command ends (R189, log 18). -/
def meeting (ev : LineEvent) (f : Dev → Dev) (d : Dev) : Dev := withLine d.rly.lineEv (f (withLine ev d))

/-- A register access, which a device in recovery takes too (R327). -/
def onBar (f : Dev → Dev) (d : Dev) : Dev := if live d then settle (f d) else f d

/-! ## Retirement (R39 to R41) -/

/-- An item retires: at or before its planned end it resets its context's overruns, and an item of another context that it
delayed gets the delay (R41). -/
def retireItem (id : Nat) (d : Dev) : Dev :=
  match cmdById d id with
  | none => d
  | some c =>
    let d := setCmd id (fun x => { x with retired := true }) d
    if c.endPassed then passDelay c d
    else setCtx c.oct c.ctx (fun y => { y with overruns := 0 }) d

/-- A command withheld until its window's planned END: the item's control labels are not empty (R280). -/
def holdNeeded (d : Dev) (c : Cmd) : Bool :=
  itemControl d c.id != 0 && c.winTick == d.tck.count && d.tck.now < d.tck.start + offsetUnits d c.winEnd

/-- Every participating stream of an item has ended: the item retires and its command ends (R37, R222, R280). -/
def endLaunch (id : Nat) (d : Dev) : Dev :=
  match cmdById d id with
  | none => d
  | some c =>
    let hold := holdNeeded d c && c.errEnd.isNone
    let d := freeCores id (retireItem id d)
    match c.errEnd with
    | some r => finish id .faulted r (slotInfo c) false d
    | none =>
      if hold then setCmd id (fun x => { x with heldUntil := some (d.tck.start + offsetUnits d c.winEnd) }) d
      else finish id .done .ok (slotInfo c) false d

/-! ## Completion (R208, R212, R216) -/

/-- Bytes 0x04 to 0x17 of a command's record. -/
def recordInfo (c : Cmd) : List Byte :=
  if !c.info.isEmpty then c.info
  else if cmdOpcode c.raw = 4 then relayInfo c.oct (resIndex (cmdResource c.raw)) (Config.noSeq c.id) 0 0
  else slotInfo c

/-- A completion record (R212). -/
def completionRecord (d : Dev) (c : Cmd) : List Byte :=
  natLe 2 (cmdTag c.raw) ++ natLe 1 (endCode c.result.1) ++ natLe 1 (reasonCode c.result.2) ++ recordInfo c ++
    natLe 8 d.tck.count

/-- A command that writes no record: NO_RECORD, and ended DONE (R209). -/
def recordless (c : Cmd) : Bool := noRecord c.raw && c.result.1 == .done

/-- The completion ring has no room (R208). -/
def ringFull (x : Queue) : Bool := (x.cplProducer + 65536 - x.consumer) % 65536 ≥ 2 ^ x.m

/-- A command has completed: its signal sets out, unless it sends none, and it is in flight no longer (R206, R216, R222). -/
def leaveFlight (c : Cmd) (err : Option Reason) (d : Dev) : Dev :=
  let d := { d with cmds := d.cmds.filter fun x => x.id != c.id }
  if !sigEn c.raw ∨ c.noSignal ∨ cmdOpcode c.raw = 6 then d
  else signal { octant := objOct (sigObj c.raw), obj := objIx (sigObj c.raw), incr := sigIncr c.raw, err := err } d

/-- The reason of a command's error signal, if its signal is one. -/
def signalErr (c : Cmd) : Option Reason := if c.result.1 = .done then none else some c.result.2

/-- A record written to an HBM completion ring: the reason of a failure, if any (R208). -/
def writeRecordHbm (c : Cmd) (ev : LineEvent) (d : Dev) : Option (Reason × List Byte) × Dev :=
  let x := getQueue d c.oct c.q
  match ringParts d c.oct x.ctx true (splitPages 0 (x.cplBase + 32 * (x.cplProducer % 2 ^ x.m)) 32) with
  | .error r => (some (r, []), d)
  | .ok ps => match writeParts (20 + c.oct) ev ps (completionRecord d c) d with
    | (.ok _, d) => (none, d)
    | (.error e, d) => (some e, d)

/-- A record written to a Transom completion ring: the block being filled is sealed whole again (R297). -/
def writeRecordHost (c : Cmd) (d : Dev) : Dev :=
  let x := getQueue d c.oct c.q
  let v := (getSht d c.oct).vf
  let i := x.cplProducer % 2 ^ x.m
  let old := if i % 4 = 0 then List.replicate 128 0 else slice x.cplBlock 0 128
  let blk := old.take (32 * (i % 4)) ++ completionRecord d c ++ old.drop (32 * (i % 4) + 32)
  let w := ringWin x.cplBase
  writeBlock v w (i / 4) (x.wseqCpl + 1) none blk
    (setQueue c.oct c.q (fun y => { y with cplBlock := blk, wseqCpl := y.wseqCpl + 1 }) d)

/-- The completion vector to which PCI_QVEC maps a queue is raised (R388). -/
def raiseVector (o q : Nat) (d : Dev) : Dev :=
  match octVf d o, look (0, false) (32 * o + q) d.pkg.qvec with
  | some v, (vec, true) => interrupt (1 + v) vec d
  | _, _ => d

/-- The record is written: its slot in the ring is taken, and its queue's vector raised. -/
def recordTaken (c : Cmd) (d : Dev) : Dev :=
  raiseVector c.oct c.q (setQueue c.oct c.q (fun y => { y with cplProducer := (y.cplProducer + 1) % 65536 }) d)

/-- The end of a command: its record, then its signal (R216). It stays in flight while its ring is full or the host does
not accept the record. -/
def completeCmd (id : Nat) (ev : LineEvent) (d : Dev) : Dev :=
  match cmdById d id with
  | none => d
  | some c =>
    let x := getQueue d c.oct c.q
    if c.phase ≠ .recording then d
    else if recordless c then leaveFlight c (signalErr c) d
    else if ringFull x then d
    else if x.transom then
      let v := (getSht d c.oct).vf
      if hostReach d v && (getWin d v (ringWin x.cplBase)).live then
        leaveFlight c (signalErr c) (recordTaken c (writeRecordHost c d))
      else d
    else match writeRecordHbm c ev d with
      | (none, d) => leaveFlight c (signalErr c) (recordTaken c d)
      | (some e, d) => if live d then stopQueue c.oct c.q e.1 c.slot e.2 (leaveFlight c (some e.1) d) else d

/-! ## Signals (R217, R220, R222) -/

/-- A stream's wait on an object is evaluated: released, released with error, or kept. -/
def wakeStream (o n : Nat) (d : Dev) (key : Nat) : Dev :=
  match (getStream d (key / 2) (key % 2)).wait with
  | .hwait o' n' t _ =>
    let ob := getObj d o n
    if o' ≠ o ∨ n' ≠ n then d
    else
      let item := (getCore d (key / 2)).item.getD 0
      if ob.error then releaseStream (key / 2) (key % 2) item (some ob.errReason) d
      else if satisfied ob t then releaseStream (key / 2) (key % 2) item none d
      else d
  | _ => d

/-- A signal applied to its object; the streams that wait on it are evaluated (R217, R222). One that arrives at an object no
longer configured is dropped (DESIGN CHOICE, log 87). -/
def applySignal (s : Signal) (d : Dev) : Dev :=
  if !(getObj d s.octant s.obj).configured then d
  else
    let d := setObj s.octant s.obj (fun o =>
      let o := { o with value := o.value + s.incr }
      match s.err with
      | none => o
      | some r => if o.error then o else { o with error := true, errReason := r }) d
    (streamWaits d s.octant s.obj).foldl (wakeStream s.octant s.obj) d

/-- The signal at an index of those in transit arrives. -/
def signalArrive (i : Nat) (d : Dev) : Dev :=
  match d.signals[i]? with
  | none => d
  | some s => applySignal s { d with signals := d.signals.eraseIdx i }

/-! ## The commands -/

/-- COMMAND_FETCH (R207). -/
def execCommandFetch (o : Fin 8) (q : Fin 32) (ev : LineEvent) (blk : HostBlock) (s : State) :
    Host.Outcome State Fault Refusal :=
  .next { s with dev := settled (fetchCmd o q ev blk) s.dev }

/-- A function may use the queues of an octant: the PF, and the VF of the partition that owns it (R230's VF alias, R207). -/
def mayUseOctant (d : Dev) (f : Fn) (o : Nat) : Bool :=
  match f with
  | .pf => true
  | .vf v => octVf d o == some v.val

/-- A doorbell write: the producer index, and the stop of a queue with more pending commands than slots (R207). -/
def doorbell (f : Fn) (o q producer : Nat) (d : Dev) : Dev :=
  if !mayUseOctant d f o then dropLog f .notOwner (fieldIdOf (0x1008 + 0x40 * q) 0) (seqBase o + 0x1008 + 0x40 * q) true d
  else
    let d := setQueue o q (fun x => { x with
      producer := producer % 65536, fetchFrom := if pendingCmds x = 0 then d.tck.now else x.fetchFrom }) d
    let x := getQueue d o q
    if queueActive d o q ∧ pendingCmds x > 2 ^ x.n then stopQueue o q .fieldRange x.fetch [] d else d

/-- SEQ_Q_DOORBELL (R207). -/
def execSeqQDoorbell (fn : Fn) (o : Fin 8) (q : Fin 32) (producer : Nat) (s : State) : Host.Outcome State Fault Refusal :=
  .next { s with dev := whenBar fn (onBar (doorbell fn o q producer)) s.dev }

/-- A completion doorbell write: the consumer index (R208). -/
def cdoorbell (f : Fn) (o q consumer : Nat) (d : Dev) : Dev :=
  if !mayUseOctant d f o then dropLog f .notOwner (fieldIdOf (0x1008 + 0x40 * q) 1) (seqBase o + 0x100C + 0x40 * q) true d
  else setQueue o q (fun x => { x with consumer := consumer % 65536 }) d

/-- SEQ_Q_CDOORBELL (R208). -/
def execSeqQCdoorbell (fn : Fn) (o : Fin 8) (q : Fin 32) (consumer : Nat) (s : State) :
    Host.Outcome State Fault Refusal :=
  .next { s with dev := whenBar fn (onBar (cdoorbell fn o q consumer)) s.dev }

/-- COMMAND_COMPLETE (R216). -/
def execCommandComplete (cmd : Nat) (ev : LineEvent) (s : State) : Host.Outcome State Fault Refusal :=
  .next { s with dev := settled (completeCmd cmd ev) s.dev }

/-- The record of a command that writes one, written once there is room. -/
def heldRecord (id : Nat) (ev : LineEvent) (d : Dev) : Dev :=
  match cmdById d id with
  | some c => if recordless c then d else completeCmd id ev d
  | none => d

/-- COMPLETION_RECORD_WRITE: the record of a command that a full ring, or the host, held back (R208). -/
def execCompletionRecordWrite (cmd : Nat) (ev : LineEvent) (s : State) : Host.Outcome State Fault Refusal :=
  .next { s with dev := settled (heldRecord cmd ev) s.dev }

/-- HUDDLE_SIGNAL_ARRIVE (R217). -/
def execHuddleSignalArrive (index : Nat) (ev : LineEvent) (s : State) : Host.Outcome State Fault Refusal :=
  .next { s with dev := meeting ev (settled (signalArrive index)) s.dev }

/-- DETAIL of WAIT_TIMEOUT (R355). -/
def waitDetail (d : Dev) (o n : Nat) (t : Word) : List Byte :=
  natLe 2 (n + 2048 * o) ++ natLe 4 t.toNat ++ natLe 4 (getObj d o n).value.toNat

/-- A wait that its deadline has reached faults the waiting context (R221). -/
def waitExpiry (w : Waiter) (d : Dev) : Dev :=
  match w with
  | .cmd id =>
    match cmdById d id with
    | some c =>
      if c.waitLeft = some 0 ∧ waitState d c = .held then
        faultCtx c.oct c.ctx .waitTimeout
          { recBase with source := 6, queue := some c.q, tag := cmdTag c.raw, ringSlot := c.slot,
                         detail := waitDetail d (objOct (waitObj c.raw)) (objIx (waitObj c.raw)) (waitValue c.raw) } true d
      else d
    | none => d
  | .stream o c k st =>
    let n := coreNo o c k
    let x := getStream d n (strmIx st)
    match x.wait, (getCore d n).ctx with
    | .hwait oo nn t 0, some ctx =>
      faultCtx o ctx .waitTimeout
        { coreRec d n (strmIx st) 5 x.pc 0 0 with source := 6, detail := waitDetail d oo nn t } true d
    | _, _ => d

/-- WAIT_DEADLINE_EXPIRY (R221). -/
def execWaitDeadlineExpiry (w : Waiter) (s : State) : Host.Outcome State Fault Refusal :=
  .next { s with dev := settled (waitExpiry w) s.dev }

end Sys2Proof.Machine
end

