-- ==== Sys2Proof/Machine/Window.lean ====
section
/-!
DEFINITION. Windows and items (02, 03, 07): WINDOW_START, WINDOW_END, the slip bound, the ends of streams and barriers, and
the events of Relay transfers that end items.
-/
namespace Sys2Proof.Machine

/-! ## Windows (R36 to R42, R213) -/

/-- RESOURCE of a window record. -/
def winResource (w : PlanWin) : Nat := w.kind * 4096 + w.index

/-- A parked transfer may resume in a window: of the same engine and context, with data that came while it was parked, or an
answer (R170). -/
def mayResume (o e ctx : Nat) (x : Xfer) : Bool :=
  x.oct == o && x.eng == e && x.ctx == ctx && x.partl && xferOpen x && (0 < x.staged || x.answered)

/-- Parked transfers of the window's engine and context resume ahead of its item (R170). -/
def resumeXfers (o : Nat) (w : PlanWin) (d : Dev) : Dev :=
  let q := getQueue d o w.queue
  if w.kind ≠ 2 ∨ !q.bound ∨ !dispatches d (rleBase o) then d
  else
    let back := d.xfers.filter (mayResume o w.index q.ctx)
    let resume (x : Xfer) : Xfer :=
      if mayResume o w.index q.ctx x then { x with partl := false, answered := false, staged := 0 } else x
    let d := { d with xfers := d.xfers.map resume }
    (back.filter fun x => x.fabric).foldl (fun d x => progressAll x.cmd d) d

/-- The command that a window selects (R213). -/
def windowPick (d : Dev) (o : Nat) (w : PlanWin) : Option Cmd :=
  d.cmds.find? fun c => c.oct == o && c.q == w.queue && c.phase == .accepted && windowed c.raw &&
    cmdTag c.raw == w.tag && cmdResource c.raw == winResource w && !behindFence d c

/-- A command selected by a window: its wait, if any, begins (R213, R221). -/
def selectCmd (w : PlanWin) (id : Nat) (d : Dev) : Dev :=
  setCmd id (fun c => { c with phase := .selected, winStart := w.start, winEnd := w.fin, winTick := d.tck.count }) d

/-- The first clock at or after the exact time of an offset in this tick (R428). -/
def windowClock (d : Dev) (off : Nat) : Nat := clockAt d (d.tck.start + offsetUnits d off)

/-- A window of the live plan starts, once in its tick and not after its START has passed (R35, R36, R38, R213). -/
def windowStart (o rec_ : Nat) (d : Dev) : Dev :=
  let s := getSeq d o
  match s.plan with
  | none => d
  | some p =>
    match p.wins[rec_]? with
    | none => d
    | some w =>
      if s.withdrawn ∨ w.tick ≠ s.cycleTick ∨ !dispatches d (seqBase o) ∨ s.started.contains rec_ ∨
          windowClock d w.start < d.tck.now then d
      else
        let d := setSeq o (fun s => { s with started := rec_ :: s.started }) d
        let d := resumeXfers o w (advanceTo (windowClock d w.start) d)
        if w.kind = 4 then d
        else match windowPick d o w with
          | some c => selectCmd w c.id d
          | none => d

/-- WINDOW_START (R213). -/
def execWindowStart (o : Fin 8) (record : Nat) (ev : LineEvent) (s : State) : Host.Outcome State Fault Refusal :=
  .next { s with dev := meeting ev (settled (windowStart o record)) s.dev }

/-- SOURCE of a record about an item of the plan: a Relay transfer, a rally step, or a command (R354). -/
def itemSource (c : Cmd) : Nat := match cmdOpcode c.raw with
  | 4 => 3 | 5 => 4 | _ => 2

/-- Record of a TICK_OVERRUN (R355), with the item's cluster, engine or port; BOUND is 0 under R41 and 1 under R42. -/
def overrunRec (d : Dev) (c : Cmd) (bound : Nat) : FaultRec :=
  let r := resIndex (cmdResource c.raw)
  let launch : Bool := cmdOpcode c.raw == 3
  { recBase with source := itemSource c, queue := some c.q, tag := cmdTag c.raw, ringSlot := c.slot,
                 cluster := if launch then some r else none, engine := if launch then none else some r,
                 detail := natLe 4 c.winStart ++ natLe 4 c.winEnd ++ natLe 1 (getCtx d c.oct c.ctx).overruns ++ natLe 1 bound }

/-- An overrun: counted, and above UMP_OVERRUN_LIMIT the context is faulted (R39, R41). -/
def countOverrun (c : Cmd) (d : Dev) : Dev :=
  let d := setCmd c.id (fun x => { x with endPassed := true }) d
  let d := setCtx c.oct c.ctx (fun x => { x with overruns := x.overruns + 1 }) d
  if (getCtx d c.oct c.ctx).overruns > d.ump.limit.live then
    faultCtx c.oct c.ctx .tickOverrun (overrunRec d c 0) false d
  else d

/-- The moment of a command's planned end, extended by the delays of others (R39, R41). -/
def plannedEnd (d : Dev) (c : Cmd) : Nat := d.tck.start + offsetUnits d c.winEnd + c.delay

/-- An item waits to dispatch behind an overrunning item of another context on its resource: its planned end is extended by a
delay that has not ended, so it has not come (R41). -/
def delayed (d : Dev) (c : Cmd) : Bool :=
  c.phase == .selected && d.cmds.any fun x =>
    x.phase == .active && !x.retired && x.endPassed && sameResource x c && (x.ctx != c.ctx || x.oct != c.oct)

/-- A planned end passes: a withheld completion is released, and an item that has not retired is an overrun (R39, R280,
R425). -/
def windowEnd (id : Nat) (d : Dev) : Dev :=
  match cmdById d id with
  | none => d
  | some c =>
    let d := if c.winTick = d.tck.count then advanceTo (clockAt d (plannedEnd d c)) d else d
    if c.phase = .active ∧ c.heldUntil.isSome ∧ cmdOpcode c.raw = 3 then
      match c.errEnd with
      | some r => finish id .faulted r (slotInfo c) false d
      | none => finish id .done .ok (slotInfo c) false d
    else if (c.phase = .selected ∨ c.phase = .active) ∧ !c.retired ∧ !c.endPassed ∧ !itemHalted d id ∧
        !delayed d c then countOverrun c d
    else d

/-- WINDOW_END (R39). -/
def execWindowEnd (cmd : Nat) (s : State) : Host.Outcome State Fault Refusal :=
  .next { s with dev := settled (windowEnd cmd) s.dev }

/-- The tick in which a command's planned end lies. -/
def endTick (d : Dev) (c : Cmd) : Nat := c.winTick + (offsetUnits d c.winEnd + c.delay) / tickUnits d

/-- A wait of the context whose deadline has come (R221). -/
def expiredWait (d : Dev) (o ctx : Nat) : Option Waiter :=
  match (ctxCmds d o ctx).find? fun c => c.waitLeft == some 0 && waitState d c == .held with
  | some c => some (.cmd c.id)
  | none => none

/-- The slip bound: an item not retired by the second boundary after its planned end, which the delays of R41 extend (R42);
WAIT_TIMEOUT due at the same boundary is the reason instead (R221). An item of a context already FAULTED is recorded at that
very boundary with SUBSUMED set, unless the context was faulted at it (R204, R366). -/
def slipExpiry (id : Nat) (d : Dev) : Dev :=
  match cmdById d id with
  | none => d
  | some c =>
    let key := 16 * c.oct + c.ctx
    let due : Bool := match (getCtx d c.oct c.ctx).state with
      | .faulted => d.tck.count == endTick d c + 2 && look 0 key d.ump.l0 != 3
      | _ => decide (d.tck.count ≥ endTick d c + 2)
    if (c.phase = .selected ∨ c.phase = .active) ∧ !c.retired ∧ due ∧ !itemHalted d id ∧ !delayed d c then
      match expiredWait d c.oct c.ctx with
      | some w => waitExpiry w d
      | none =>
        let expired (e : Nat × Stream) : Bool := match e.2.wait with
          | .hwait _ _ _ 0 => (getCore d (e.1 / 2)).ctx == some c.ctx && coreOct (e.1 / 2) == c.oct
          | _ => false
        match d.stream.find? expired with
        | some e =>
          match e.2.wait with
          | .hwait oo nn t _ =>
            faultCtx c.oct c.ctx .waitTimeout
              { coreRec d (e.1 / 2) (e.1 % 2) 5 e.2.pc 0 0 with source := 6, detail := waitDetail d oo nn t } true d
          | _ => d
        | none => faultCtx c.oct c.ctx .tickOverrun (overrunRec d c 1) true d
    else d

/-- SLIP_BOUND_EXPIRY (R42). -/
def execSlipBoundExpiry (cmd : Nat) (s : State) : Host.Outcome State Fault Refusal :=
  .next { s with dev := settled (slipExpiry cmd) s.dev }

/-! ## Streams (R37, R76, R77, R174, R278) -/

/-- A stream ends once its outstanding accesses have completed; its item retires with the last one (R37, R76). -/
def streamEnd (n st : Nat) (d : Dev) : Dev :=
  let x := getStream d n st
  if x.live ∧ x.wait = .ending ∧ x.loads.isEmpty then
    let d := setStream n st (fun y => { y with live := false, wait := .none }) d
    match (getCore d n).item with
    | none => d
    | some id => if (itemStreams d id).all fun e => !(getStream d e.1 e.2).live then endLaunch id d else d
  else d

/-- STREAM_END (R37). -/
def execStreamEnd (o : Fin 8) (c : Fin 9) (k : Fin 64) (st : Strm) (s : State) : Host.Outcome State Fault Refusal :=
  .next { s with dev := settled (streamEnd (coreNo o c k) (strmIx st)) s.dev }

/-- The conditions of a FENCE's scopes that loads can keep open: CLUSTER and RELAY wait for loads to return (R174). -/
def fenceHolds (x : Stream) (scopes : Nat) : Bool :=
  !(bitAt scopes 1 && x.loads.any (·.cluster)) && !(bitAt scopes 2 && !x.loads.isEmpty)

/-- A pending FENCE completes (R174). -/
def fenceComplete (n st : Nat) (d : Dev) : Dev :=
  match (getStream d n st).wait with
  | .fence scopes => if fenceHolds (getStream d n st) scopes then setStream n st (fun y => { y with wait := .none }) d else d
  | _ => d

/-- FENCE_COMPLETE (R174). -/
def execFenceComplete (o : Fin 8) (c : Fin 9) (k : Fin 64) (st : Strm) (s : State) : Host.Outcome State Fault Refusal :=
  .next { s with dev := whenLive (fenceComplete (coreNo o c k) (strmIx st)) s.dev }

/-- A stream has arrived at a barrier of a kind, or has ended (R77). -/
def arrivedAt (w : StreamWait) (x : Stream) : Bool := x.wait == w || !x.live

/-- Streams released from a barrier with the union of their control labels (R278). -/
def releaseBarrier (w : StreamWait) (l : List (Nat × Nat)) (d : Dev) : Dev :=
  let c := unionAll (l.map fun e => (getStream d e.1 e.2).ctl)
  l.foldl (fun d e => setStream e.1 e.2 (fun y => { y with ctl := c, wait := if y.wait = w then .none else y.wait }) d) d

/-- Both streams of a core have reached XSYNC or ended (R77). -/
def xsyncComplete (n : Nat) (d : Dev) : Dev :=
  let l := ((List.range 2).filter fun st => (getStream d n st).part).map fun st => (n, st)
  if (l.any fun e => (getStream d e.1 e.2).wait == .xsync) && l.all fun e => arrivedAt .xsync (getStream d e.1 e.2) then
    releaseBarrier .xsync l d
  else d

/-- XSYNC_COMPLETE (R77). -/
def execXsyncComplete (o : Fin 8) (c : Fin 9) (k : Fin 64) (s : State) : Host.Outcome State Fault Refusal :=
  .next { s with dev := whenLive (xsyncComplete (coreNo o c k)) s.dev }

/-- The same stream of every participating core of a cluster has reached CBAR or ended (R77). -/
def cbarComplete (o c st : Nat) (d : Dev) : Dev :=
  let l := ((List.range 64).map fun k => (coreNo o c k, st)).filter fun e => (getStream d e.1 e.2).part
  if (l.any fun e => (getStream d e.1 e.2).wait == .cbar) && l.all fun e => arrivedAt .cbar (getStream d e.1 e.2) then
    releaseBarrier .cbar l d
  else d

/-- CBAR_COMPLETE (R77). -/
def execCbarComplete (o : Fin 8) (c : Fin 9) (st : Strm) (s : State) : Host.Outcome State Fault Refusal :=
  .next { s with dev := whenLive (cbarComplete o c (strmIx st)) s.dev }

/-! ## Relay transfers (R138, R168 to R171) -/

/-- A transfer parks after 5.0 µs in which its host, or the fabric that it delivers for, has given or taken nothing: its window
is released, and for R39 to R42 the item of a RELAY command retires (R169, R250). -/
def relayPark (o e : Nat) (seq : Word) (d : Dev) : Dev :=
  match findXfer d o e seq with
  | none => d
  | some x =>
    let parked := (d.xfers.filter fun y => y.oct == o && y.eng == e && y.partl).length
    if x.partl ∨ !xferOpen x ∨ !(x.fabric || hostOwes d x) ∨ parked ≥ 4 then d
    else
      let d := setXfer { x with partl := true } d
      match cmdById d x.cmd with
      | some c => if c.retired ∨ x.fabric then d else retireItem x.cmd d
      | none => d

/-- RELAY_PARK (R169). -/
def execRelayPark (o : Fin 8) (e : Fin 2) (seq : Word) (s : State) : Host.Outcome State Fault Refusal :=
  .next { s with dev := settled (relayPark o e seq) s.dev }

/-- A labelled STOW.PACK withholds its completion (R138). -/
def withheld (d : Dev) (x : Xfer) : Bool := rdKind (xferRaw d x) == 3 && (x.srcLabel ||| x.label) != 0

/-- A transfer that is neither done nor faulted at its deadline faults at that boundary; one whose completion is withheld is
not done (R138, R171). -/
def rleExpiry (o e : Nat) (seq : Word) (d : Dev) : Dev :=
  match findXfer d o e seq with
  | none => d
  | some x =>
    if x.left = 0 ∧ !x.fabric ∧ x.fault.isNone ∧ (!x.allDone ∨ withheld d x) then
      relayFault x 3 (if !x.allDone ∧ (x.partl ∨ waitsHost d x) then .hostStall else .tickOverrun) [] true d
    else d

/-- STOW_BYTES of a completion (R138). -/
def stowBytesOf (raw : List Byte) (x : Xfer) : Nat :=
  if rdKind raw ≠ 3 then 0 else if (x.srcLabel ||| x.label) ≠ 0 then 0xFFFFFFFF else x.stowBytes

/-- A transfer that is done or faulted leaves its engine, and its command ends. -/
def endXfer (x : Xfer) (st : EndState) (r : Reason) (d : Dev) : Dev :=
  let info := relayInfo x.oct x.eng x.seq x.bytesDone (stowBytesOf (xferRaw d x) x)
  let retired := match cmdById d x.cmd with | some c => c.retired | none => true
  let d := if st = .done ∧ !retired then retireItem x.cmd d else d
  finish x.cmd st r info false (dropXfer x d)

/-- Every byte of a transfer is written, or it has faulted (R168). -/
def relayComplete (o e : Nat) (seq : Word) (d : Dev) : Dev :=
  match findXfer d o e seq with
  | none => d
  | some x =>
    if x.fabric then d
    else match x.fault with
    | some r => endXfer x .faulted r d
    | none =>
      if !x.allDone then d
      else if withheld d x then
        match cmdById d x.cmd with
        | some c =>
          if c.heldUntil.isSome then d
          else setCmd x.cmd (fun y => { y with heldUntil := some d.tck.now }) (if c.retired then d else retireItem x.cmd d)
        | none => d
      else endXfer x .done .ok d

/-- RELAY_COMPLETE (R168). -/
def execRelayComplete (o : Fin 8) (e : Fin 2) (seq : Word) (s : State) : Host.Outcome State Fault Refusal :=
  .next { s with dev := settled (relayComplete o e seq) s.dev }

/-- The time that an incompressible transfer would take has passed (R138). -/
def stowRelease (o e : Nat) (seq : Word) (d : Dev) : Dev :=
  match findXfer d o e seq with
  | none => d
  | some x =>
    match cmdById d x.cmd with
    | some c => if c.heldUntil.isSome ∧ x.allDone ∧ x.fault.isNone then endXfer x .done .ok d else d
    | none => d

/-- STOW_COMPLETION_RELEASE (R138). -/
def execStowCompletionRelease (o : Fin 8) (e : Fin 2) (seq : Word) (s : State) : Host.Outcome State Fault Refusal :=
  .next { s with dev := settled (stowRelease o e seq) s.dev }

/-- COMPLETION_TIMEOUT: reported through AER; the read counts as data that has not arrived (R386). -/
def completionTimeout (o e : Nat) (seq : Word) (d : Dev) : Dev :=
  match findXfer d o e seq with
  | none => d
  | some x => if x.waiting.isSome ∧ xferOpen x then emit (.aer (1 + (getSht d o).vf) true) d else d

/-- COMPLETION_TIMEOUT (R386). -/
def execCompletionTimeout (o : Fin 8) (e : Fin 2) (seq : Word) (s : State) : Host.Outcome State Fault Refusal :=
  .next { s with dev := whenLive (completionTimeout o e seq) s.dev }

end Sys2Proof.Machine
end

