-- ==== Sys2Proof/Machine/Mgmt.lean ====
section
/-!
DEFINITION. Management commands of the sequencers (09): contexts, queues, region tables, Huddle objects, image slots, and
the boundary events that end them.
-/
namespace Sys2Proof.Machine

/-! ## Epochs of Transom windows (R299) -/

/-- A window moves to a new epoch: its write-once bits clear, and its status record is due, which is written in the VF's slot
(R299, R301). -/
def newEpoch (v w : Nat) (d : Dev) : Dev :=
  writeStatus v w (setWin v w (fun x => { x with epoch := x.epoch + 1, written := [], rearm := false, statusDue := true }) d)

/-! ## The Porter mailbox's answer (R340) -/

/-- The request in progress ends: status, response unless it is discarded, interrupt (R340, R384, R388). -/
def mboxEnd (r : Reason) (payload : List Byte) (d : Dev) : Dev :=
  if !d.ptr.busy then d
  else
    let seq := d.ptr.curSeq
    let drop := d.ptr.discard
    let d := { d with ptr := { d.ptr with
      busy := false, mboxReason := r, seqLo := seq.toNat % 65536, discard := false } }
    if drop then d
    else
      let buf := writeBytes (writeByte d.ptr.buf 8 (BitVec.ofNat 8 (reasonCode r))) 16 payload
      interrupt 0 2 (emit (.mailbox seq r payload) { d with ptr := { d.ptr with buf := buf } })

/-! ## Starting and ending a management command (R226) -/

/-- How a management command stands after it was written: ended with a reason, or running. -/
inductive MgmtOut where
  | ended (r : Reason)
  | running (m : MgmtRun)
  deriving DecidableEq, Repr

/-- A running management command ends (R226); a mailbox request that waits for it is answered (R341). -/
def endMgmt (o : Nat) (r : Reason) (d : Dev) : Dev :=
  let s := getSeq d o
  if s.mgmt = .none then d
  else
    let d := setSeq o (fun s => { s with mgmt := .none, mgmtReason := r, mgmtMbox := false }) d
    if s.mgmtMbox then mboxEnd r [] d else d

/-! ## Checks -/

/-- Some accepted command names an object (R218). -/
def objNamed (d : Dev) (code : Nat) : Bool :=
  d.cmds.any fun c => (waitEn c.raw && waitObj c.raw == code) || (sigEn c.raw && sigObj c.raw == code)

/-- OBJ_CONFIG and OBJ_FREE are refused while the object is in use (R218). -/
def objBusy (d : Dev) (code : Nat) : Bool :=
  objNamed d code || !(cmdWaits d (objOct code) (objIx code)).isEmpty || !(streamWaits d (objOct code) (objIx code)).isEmpty

/-- An octant of the partition is being scrubbed or zero-filled (R314). -/
def partScrubs (d : Dev) (v : Nat) : Bool :=
  (members8 (getPart d v).octants).any fun o => (getSht d o).state == .scrubbing || (getSht d o).state == .zeroFilling

/-- The start checks of R202. -/
def startCheck (d : Dev) (o c : Nat) : Option Reason :=
  let s := getSeq d o
  let ch := (getCharter d (getSht d o).vf).state
  if (getCtx d o c).state ≠ .stopped then some .fieldConflict
  else if d.pwr.switching ∨ has8 d.ump.l2 (getSht d o).vf then some .notReady
  else if (getSht d o).state ≠ .clean ∨ partScrubs d (getSht d o).vf then some .scrubPending
  else if s.plan.isNone ∨ s.withdrawn then some .modeMismatch
  else if porterManaged d ∧ ch ≠ .active then some .charterMismatch
  else none

/-- The region-entry checks of R157. -/
def entryCheck (d : Dev) (o : Nat) (e : RegEntry) : Option Reason :=
  let v := (getSht d o).vf
  let p := getPart d v
  let a := e.w0.toNat
  let b := e.w1.toNat
  let regs := if entVersioned e then [entReg0 e, entReg1 e] else [entReg0 e]
  let partner (x : RegEntry) (r : Nat) : Option Nat :=
    if !entVersioned x then none else some (if entReg0 x = r then entReg1 x else entReg0 x)
  let clash (x : RegEntry) : Bool :=
    entValid x && regs.any fun r =>
      (entReg0 x == r || (entVersioned x && entReg1 x == r)) &&
      (entDomain x != entDomain e || entVersioned x != entVersioned e ||
        (entVersioned e && (entVset x != entVset e || partner x r != partner e r)))
  if bitAt a 7 ∨ bits a 51 13 ≠ 0 ∨ bits b 19 45 ≠ 0 ∨ (!entVersioned e ∧ entReg1 e ≠ 0) ∨
      regs.any (fun r => r % 65536 ≥ regionsPerStack) ∨ (entVersioned e ∧ entReg0 e = entReg1 e) then some .fieldRange
  else if regs.any (fun r => !has8 p.octants (r / 65536)) ∨ entDomain e < p.kdBase ∨ entDomain e ≥ p.kdBase + p.kdCount then
    some .notOwner
  else if d.rtab.any fun x => clash x.2 then some .fieldConflict
  else none

/-- The entry that a REGION_SET installs: while a charter is ACTIVE in Porter-managed mode, the region record that covers
the entry gives its key domain, admit mask, write permission and version fields; with no record it is refused (R275). -/
def charterEntry (d : Dev) (o c i : Nat) (e : RegEntry) : Option RegEntry :=
  let ch := getCharter d (getSht d o).vf
  if !(porterManaged d && ch.state == .active) then some e
  else (ch.regions.find? fun r => r.octant == o && r.context == c && r.index ≤ i && i < r.index + r.count).map fun r =>
    let a := e.w0.toNat
    let keep := bits a 0 2 + 128 * bits a 7 1 + 2 ^ 32 * bits a 32 32
    { e with w0 := BitVec.ofNat 64 (keep + 4 * b2n r.write + 8 * b2n r.versioned + 16 * r.vset + 256 * r.domain +
        65536 * r.admitMask.toNat) }

/-- A ring window as R205 and R297 require it. -/
def ringWindowOk (d : Dev) (v base blocks : Nat) (hostWritten : Bool) : Bool :=
  let w := getWin d v (ringWin base)
  let serves := d.queue.any fun e =>
    e.2.bound && e.2.transom && octVf d (e.1 / 32) == some v &&
      (ringWin e.2.cmdBase == ringWin base || ringWin e.2.cplBase == ringWin base)
  base < 2 ^ 40 && base % 2 ^ 36 == 0 && w.live && w.en && w.ring && w.hostWritten == hostWritten && blocks ≤ w.size &&
  !w.partyValid && w.admitMask == 0 && !serves

/-- The sum of IN_FLIGHT_MAX over an octant's bound queues (R206). -/
def committed (d : Dev) (o : Nat) : Nat :=
  (List.range 32).foldl (fun n q => if (getQueue d o q).bound then n + (getQueue d o q).inFlightMax else n) 0

/-- QUEUE_BIND's own refusals (R205, R206, R227). -/
def bindCheck (d : Dev) (o : Nat) (a : BindArgs) : Option Reason :=
  let v := (getSht d o).vf
  if (getQueue d o a.queue).bound ∨ (getCtx d o a.ctx).state = .free then some .fieldConflict
  else if a.loc = 1 ∧ !(ringWindowOk d v a.cmdBase (2 ^ a.n) true && ringWindowOk d v a.cplBase (2 ^ a.m / 4) false) then
    some .fieldConflict
  else if committed d o + a.inFlightMax > 512 then some .fieldConflict
  else none

/-- IMAGE_REGISTER's own refusals (R227). -/
def imageCheck (d : Dev) (o : Nat) (a : ImageArgs) : Option Reason :=
  if a.mask = 0 ∨ a.mask ≥ 512 ∨ a.offset + a.length > 2 ^ 22 then some .fieldRange
  else if (List.range 9).any fun c => bitAt a.mask c && !clusterPresent d c then some .engineAbsent
  else if (getImg d o a.ctx a.slot).used then some .fieldConflict
  else none

/-- Check 1 of R227: values in range. -/
def mgmtRange : MgmtCmd → Bool
  | .ctxCreate c _ nf => c < 16 && nf < 2 ^ 14
  | .ctxStart c => c < 16
  | .ctxStop c p => c < 16 && p < 2
  | .ctxDestroy c => c < 16
  | .queueBind a => a.queue < 32 && a.ctx < 16 && a.loc < 2 && 4 ≤ a.n && a.n ≤ 12 && 4 ≤ a.m && a.m ≤ 12 &&
      1 ≤ a.inFlightMax && a.inFlightMax ≤ 64
  | .queueUnbind q => q < 32
  | .regionSet c i _ _ => c < 16 && i < 4096
  | .regionClear c i => c < 16 && i < 4096
  | .objConfig a => a.obj < 2048 && a.owner < 16 && a.producerQueue < 32 && 1 ≤ a.deadline && a.deadline < 65536
  | .objFree n => n < 2048
  | .imageRegister a => a.ctx < 16 && a.slot < 16 && a.offset % 256 == 0 && 2 ≤ a.length && a.length ≤ 32768
  | .imageRelease c s => c < 16 && s < 16

/-- Check 2 of R227: contexts, queues, objects and octants of the octant's partition. -/
def mgmtOwner (d : Dev) (o : Nat) : MgmtCmd → Bool
  | .ctxCreate _ _ nf => samePart d o (objOct nf)
  | .objConfig a => (octVf d o).isSome && (!a.producerValid || samePart d o a.producerOctant)
  | _ => (octVf d o).isSome

/-! ## Effects -/

/-- A fresh queue bound to its context (R205). -/
def bindQueue (o : Nat) (a : BindArgs) (d : Dev) : Dev :=
  let v := (getSht d o).vf
  let d := setQueue o a.queue (fun _ => { Queue.zero with
    bound := true, ctx := a.ctx, transom := a.loc == 1, n := a.n, m := a.m, inFlightMax := a.inFlightMax
    cmdBase := a.cmdBase, cplBase := a.cplBase }) d
  if a.loc = 1 then newEpoch v (ringWin a.cplBase) (newEpoch v (ringWin a.cmdBase) d) else d

/-- An object configured (R218). -/
def configObj (o : Nat) (a : ObjArgs) (d : Dev) : Dev :=
  setObj o a.obj (fun _ => {
    value := a.value, configured := true, error := false, errReason := .ok, owner := a.owner
    producer := if a.producerValid then some (a.producerOctant, a.producerQueue) else none, deadline := a.deadline }) d

/-- An image registered in a slot (R228). -/
def registerImage (o : Nat) (a : ImageArgs) (signed : Bool) (signers : List (BitVec 384)) (d : Dev) : Dev :=
  let n := ((getSeq d o).lastReg + 1) % 2 ^ 32
  setImg o a.ctx a.slot (fun _ => { used := true, mask := a.mask, offset := a.offset, length := a.length, signed := signed,
                                    signers := signers, regNo := n, releasing := false })
    (setSeq o (fun s => { s with lastReg := n }) d)

/-- Accepted LAUNCHes that name an image slot (R227). -/
def launchesOf (d : Dev) (o c slot : Nat) : List Cmd :=
  (ctxCmds d o c).filter fun x => cmdOpcode x.raw == 3 && launchSlot x.raw == slot

/-- CTX_DESTROY as it starts: queues unbound, image slots released (R227). -/
def destroyStart (o c : Nat) (d : Dev) : Dev :=
  let d := (List.range 32).foldl (fun d q =>
    if (getQueue d o q).bound ∧ (getQueue d o q).ctx = c then setQueue o q (fun _ => Queue.zero) d else d) d
  (List.range 16).foldl (fun d s => setImg o c s (fun _ => ImgSlot.zero) d) d

/-- A management command after the checks of R227, by its own refusals and effect. -/
def mgmtDo (o : Nat) (signed : Bool) (c : MgmtCmd) (d : Dev) : MgmtOut × Dev :=
  let refuse (r : Option Reason) (f : Dev → Dev) : MgmtOut × Dev :=
    match r with
    | some r => (.ended r, d)
    | none => (.ended .ok, f d)
  match c with
  | .ctxCreate x seed nf =>
    let ob := getObj d (objOct nf) (objIx nf)
    refuse (if (getCtx d o x).state ≠ .free ∨ !ob.configured ∨ ob.producer.isSome then some .fieldConflict else none)
      (setCtx o x fun _ => { Ctx.zero with state := .stopped, seed := seed, nfObj := nf })
  | .ctxStart x =>
    match startCheck d o x with
    | some r => (.ended r, d)
    | none => (.running (.start x false), d)
  | .ctxStop x p =>
    if (getCtx d o x).state ≠ .running then (.ended .fieldConflict, d)
    else (.running (.stop x), setCtx o x (fun y => { y with stopMode := if p = 1 then .preempt else .drain }) d)
  | .ctxDestroy x =>
    if (getCtx d o x).state ≠ .stopped then (.ended .fieldConflict, d)
    else (.running (.destroy x []), destroyStart o x d)
  | .queueBind a => refuse (bindCheck d o a) (bindQueue o a)
  | .queueUnbind q =>
    refuse (if !(getQueue d o q).bound then some .fieldConflict
            else if !(queueCmds d o q).isEmpty then some .busyUpdate else none) (setQueue o q fun _ => Queue.zero)
  | .regionSet x i w0 w1 =>
    match charterEntry d o x i ⟨w0, w1⟩ with
    | none => (.ended .charterMismatch, d)
    | some e => match entryCheck d o e with
      | some r => (.ended r, d)
      | none => (.running (.region x i e false []), d)
  | .regionClear x i => (.running (.region x i RegEntry.zero false []), d)
  | .objConfig a => refuse (if objBusy d (2048 * o + a.obj) then some .busyUpdate else none) (configObj o a)
  | .objFree n => refuse (if objBusy d (2048 * o + n) then some .busyUpdate else none) (setObj o n fun _ => HudObj.zero)
  | .imageRegister a => refuse (imageCheck d o a) (registerImage o a signed [])
  | .imageRelease x s =>
    if (launchesOf d o x s).isEmpty then (.ended .ok, setImg o x s (fun _ => ImgSlot.zero) d)
    else (.running (.imageRelease x s), setImg o x s (fun y => { y with releasing := true }) d)

/-- A management command that starts: the checks of R227 in their order, then its own refusals. -/
def mgmtStart (o : Nat) (signed : Bool) (c : MgmtCmd) (d : Dev) : MgmtOut × Dev :=
  if !mgmtRange c then (.ended .fieldRange, d)
  else if !((octVf d o).isSome && mgmtOwner d o c) then (.ended .notOwner, d)
  else if !has8 d.pkg.octReady o then (.ended .notReady, d)
  else mgmtDo o signed c d

/-- What SEQ_MGMT_RESULT shows after a command was started (R226). -/
def mgmtSettle (o : Nat) (mbox : Bool) (r : MgmtOut × Dev) : Dev :=
  match r.1 with
  | .ended x => setSeq o (fun s => { s with mgmtReason := x }) r.2
  | .running m => setSeq o (fun s => { s with mgmt := m, mgmtMbox := mbox }) r.2

/-! ## SEQ_MGMT_CMD (R226, R227) -/

/-- The opcode of a management command. -/
def mgmtOpcode : MgmtCmd → Nat
  | .ctxCreate _ _ _ => 0x81 | .ctxStart _ => 0x82 | .ctxStop _ _ => 0x83 | .ctxDestroy _ => 0x84 | .queueBind _ => 0x85
  | .queueUnbind _ => 0x86 | .regionSet _ _ _ _ => 0x87 | .regionClear _ _ => 0x88 | .objConfig _ => 0x89
  | .objFree _ => 0x8A | .imageRegister _ => 0x8B | .imageRelease _ _ => 0x8C

/-- The payload of a management command, from 0x20. -/
def mgmtPayload : MgmtCmd → List Byte
  | .ctxCreate c seed nf => natLe 8 c ++ natLe 8 seed.toNat ++ natLe 2 nf
  | .ctxStart c => natLe 1 c
  | .ctxStop c p => natLe 1 c ++ natLe 1 p
  | .ctxDestroy c => natLe 1 c
  | .queueBind a =>
    natLe 1 a.queue ++ natLe 1 a.ctx ++ natLe 1 a.loc ++ natLe 1 a.n ++ natLe 1 a.m ++ natLe 3 a.inFlightMax ++
    natLe 8 a.cmdBase ++ natLe 8 a.cplBase
  | .queueUnbind q => natLe 1 q
  | .regionSet c i w0 w1 => natLe 2 c ++ natLe 2 i ++ natLe 12 0 ++ natLe 8 w0.toNat ++ natLe 8 w1.toNat
  | .regionClear c i => natLe 2 c ++ natLe 2 i
  | .objConfig a =>
    natLe 2 a.obj ++ natLe 1 a.owner ++ natLe 1 (b2n a.producerValid + 2 * a.producerOctant) ++
    natLe 2 a.producerQueue ++ natLe 2 a.deadline ++ natLe 4 a.value.toNat
  | .objFree n => natLe 2 n
  | .imageRegister a => natLe 1 a.ctx ++ natLe 1 a.slot ++ natLe 2 a.mask ++ natLe 4 a.offset ++ natLe 4 a.length
  | .imageRelease c s => natLe 1 c ++ natLe 1 s

/-- The 128 bytes of a management command: TAG, WAIT, SIG and RESOURCE are zero. -/
def mgmtBytes (c : MgmtCmd) : List Byte := slice (natLe 32 (mgmtOpcode c) ++ mgmtPayload c) 0 128

/-- The fields of 128 bytes as their opcode lays them out. -/
def mgmtFields (b : List Byte) : Option MgmtCmd :=
  let u (off n : Nat) : Nat := field b off n
  match u 0 1 with
  | 0x81 => some (.ctxCreate (u 0x20 1) (BitVec.ofNat 64 (u 0x28 8)) (u 0x30 2))
  | 0x82 => some (.ctxStart (u 0x20 1))
  | 0x83 => some (.ctxStop (u 0x20 1) (u 0x21 1))
  | 0x84 => some (.ctxDestroy (u 0x20 1))
  | 0x85 => some (.queueBind {
      queue := u 0x20 1, ctx := u 0x21 1, loc := u 0x22 1, n := u 0x23 1, m := u 0x24 1
      inFlightMax := u 0x25 1, cmdBase := u 0x28 8, cplBase := u 0x30 8 })
  | 0x86 => some (.queueUnbind (u 0x20 1))
  | 0x87 => some (.regionSet (u 0x20 1) (u 0x22 2) (BitVec.ofNat 64 (u 0x30 8)) (BitVec.ofNat 64 (u 0x38 8)))
  | 0x88 => some (.regionClear (u 0x20 1) (u 0x22 2))
  | 0x89 => some (.objConfig {
      obj := u 0x20 2, owner := u 0x22 1, producerValid := bitAt (u 0x23 1) 0
      producerOctant := bits (u 0x23 1) 1 3, producerQueue := u 0x24 1, deadline := u 0x26 2
      value := BitVec.ofNat 32 (u 0x28 4) })
  | 0x8A => some (.objFree (u 0x20 2))
  | 0x8B => some (.imageRegister {
      ctx := u 0x20 1, slot := u 0x21 1, mask := u 0x22 2, offset := u 0x24 4
      length := u 0x28 4 })
  | 0x8C => some (.imageRelease (u 0x20 1) (u 0x21 1))
  | _ => none

/-- The management command that 128 bytes spell: an opcode of R227, and every reserved byte zero. -/
def mgmtParse (b : List Byte) : Option MgmtCmd :=
  match mgmtFields b with
  | some c => if mgmtBytes c = slice b 0 128 then some c else none
  | none => none

/-- SEQ_MGMT_CMD written with a command. -/
def setMgmtBuf (o : Nat) (b : List Byte) (d : Dev) : Dev :=
  setSeq o (fun s => { s with mgmtBuf := writeBytes s.mgmtBuf 0 b }) d

/-- A host's GO: refused while a command runs (R226). -/
def mgmtGo (f : Fn) (o : Nat) (g : Dev → Dev) (d : Dev) : Dev :=
  if (getSeq d o).mgmt ≠ .none then dropLog f .busyUpdate (fieldIdOf 0x180 0) (seqBase o + 0x180) true d else g d

/-- A management command from its issuer: refused access is dropped and logged (R226). -/
def mgmtCommand (i : Issuer) (o : Nat) (c : MgmtCmd) (d : Dev) : Dev :=
  match i with
  | .host f =>
    if f ≠ .pf ∨ porterManaged d then dropLog f .notOwner (fieldIdOf 0x180 0) (seqBase o + 0x180) true d
    else mgmtGo f o (fun d => mgmtSettle o false (mgmtStart o false c d)) (setMgmtBuf o (mgmtBytes c) d)
  | .porter =>
    if !porterManaged d ∨ (getSeq d o).mgmt ≠ .none then d else mgmtSettle o false (mgmtStart o false c d)

/-! ## Boundary events -/

/-- CTX_START at its boundary: checked again, then RUNNING (R202); during a calibration it waits for the end (R403). -/
def startEffect (o : Nat) (d : Dev) : Dev :=
  match (getSeq d o).mgmt with
  | .start c _ =>
    if d.pwr.calibrating then setSeq o (fun s => { s with mgmt := .start c true }) d
    else match startCheck d o c with
    | some r => endMgmt o r d
    | none => endMgmt o .ok (setCtx o c (fun x => { x with state := .running, overruns := 0 }) d)
  | _ => d

/-- Accepted commands that have not dispatched complete NOT_RUN with NOT_READY (R203). -/
def preemptEffect (o c : Nat) (d : Dev) : Dev :=
  if (getCtx d o c).state = .running ∧ (getCtx d o c).stopMode = .preempt then endUndispatched o c .notReady d else d

/-- A stopping or faulted context with nothing in flight becomes STOPPED (R41, R203, R204). -/
def contextStopped (o c : Nat) (d : Dev) : Dev :=
  let x := getCtx d o c
  if (x.state = .faulted ∨ (x.state = .running ∧ x.stopMode ≠ .none)) ∧ (ctxCmds d o c).isEmpty then
    let d := setCtx o c (fun y => { y with state := .stopped, stopMode := .none, overruns := 0 }) d
    let d := { d with ump := { d.ump with l0 := put 0 (16 * o + c) 0 d.ump.l0 } }
    if (getSeq d o).mgmt = .stop c then endMgmt o .ok d else d
  else d

/-- Transfers and rally steps of a context that resolved a region-table entry (R158). -/
def resolvedBy (d : Dev) (o c i : Nat) : List Nat :=
  ((d.xfers.filter fun x => x.oct == o && x.ctx == c && x.maps.any fun m => m.index == i).map (·.cmd)) ++
  ((d.steps.filter fun x => x.maps.any fun m => m.index == i).map (·.cmd)).filter fun id =>
    match cmdById d id with
    | some y => y.oct == o && y.ctx == c
    | none => false

/-- A new entry in the table; its physical regions are bound to its key domain (R158, R178). -/
def installEntry (o c i : Nat) (e : RegEntry) (d : Dev) : Dev :=
  let d := setEntry o c i e d
  if !entValid e then d
  else
    let d := bindRegion (entReg0 e) (entDomain e) (useDomain (getSht d o).vf (entDomain e) d)
    if entVersioned e then bindRegion (entReg1 e) (entDomain e) d else d

/-- A region-table change takes effect (R158). -/
def entryEffect (o : Nat) (d : Dev) : Dev :=
  match (getSeq d o).mgmt with
  | .region c i e false _ =>
    let w := resolvedBy d o c i
    setSeq o (fun s => { s with mgmt := .region c i e true w }) (installEntry o c i e d)
  | .destroy c _ => { d with rtab := dropRange ((16 * o + c) * 4096) ((16 * o + c) * 4096 + 4096) d.rtab }
  | _ => d

/-- A transfer or rally step still runs. -/
def stillRuns (d : Dev) (id : Nat) : Bool := d.xfers.any (fun x => x.cmd == id) || d.steps.any fun x => x.cmd == id

/-- A region command completes once every transfer that resolved the old entry has ended (R158). -/
def regionComplete (o : Nat) (d : Dev) : Dev :=
  match (getSeq d o).mgmt with
  | .region _ _ _ true w => if w.any (stillRuns d) then d else endMgmt o .ok d
  | .destroy c _ =>
    if d.rtab.any fun e => e.1 / 4096 == 16 * o + c then d
    else endMgmt o .ok (setCtx o c (fun _ => Ctx.zero) d)
  | _ => d

/-- A deferred IMAGE_RELEASE completes with the last LAUNCH that names the slot (R227). -/
def imageReleased (o : Nat) (d : Dev) : Dev :=
  match (getSeq d o).mgmt with
  | .imageRelease c s =>
    if (launchesOf d o c s).isEmpty then endMgmt o .ok (setImg o c s (fun _ => ImgSlot.zero) d) else d
  | _ => d

/-! ## The commands -/

/-- CTX_CREATE (R227). -/
def execCtxCreate (by_ : Issuer) (o : Fin 8) (ctx : Nat) (seed : DWord) (nfObj : Nat) (s : State) :
    Host.Outcome State Fault Refusal :=
  .next { s with dev := whenIssuer by_ (mgmtCommand by_ o (.ctxCreate ctx seed nfObj)) s.dev }

/-- CTX_START (R202). -/
def execCtxStart (by_ : Issuer) (o : Fin 8) (ctx : Nat) (s : State) : Host.Outcome State Fault Refusal :=
  .next { s with dev := whenIssuer by_ (mgmtCommand by_ o (.ctxStart ctx)) s.dev }

/-- CTX_START_EFFECT (R202). -/
def execCtxStartEffect (o : Fin 8) (s : State) : Host.Outcome State Fault Refusal :=
  .next { s with dev := whenLive (startEffect o) s.dev }

/-- CTX_STOP_DRAIN (R203). -/
def execCtxStopDrain (by_ : Issuer) (o : Fin 8) (ctx : Nat) (s : State) : Host.Outcome State Fault Refusal :=
  .next { s with dev := whenIssuer by_ (mgmtCommand by_ o (.ctxStop ctx 0)) s.dev }

/-- CTX_STOP_PREEMPT (R203). -/
def execCtxStopPreempt (by_ : Issuer) (o : Fin 8) (ctx : Nat) (s : State) : Host.Outcome State Fault Refusal :=
  .next { s with dev := whenIssuer by_ (mgmtCommand by_ o (.ctxStop ctx 1)) s.dev }

/-- PREEMPT_EFFECT (R203). -/
def execPreemptEffect (o : Fin 8) (ctx : Fin 16) (s : State) : Host.Outcome State Fault Refusal :=
  .next { s with dev := settled (preemptEffect o ctx) s.dev }

/-- CONTEXT_STOPPED (R204). -/
def execContextStopped (o : Fin 8) (ctx : Fin 16) (s : State) : Host.Outcome State Fault Refusal :=
  .next { s with dev := whenLive (contextStopped o ctx) s.dev }

/-- CTX_DESTROY (R227). -/
def execCtxDestroy (by_ : Issuer) (o : Fin 8) (ctx : Nat) (s : State) : Host.Outcome State Fault Refusal :=
  .next { s with dev := whenIssuer by_ (mgmtCommand by_ o (.ctxDestroy ctx)) s.dev }

/-- QUEUE_BIND (R205, R206). -/
def execQueueBind (by_ : Issuer) (o : Fin 8) (a : BindArgs) (s : State) : Host.Outcome State Fault Refusal :=
  .next { s with dev := whenIssuer by_ (mgmtCommand by_ o (.queueBind a)) s.dev }

/-- QUEUE_UNBIND (R227). -/
def execQueueUnbind (by_ : Issuer) (o : Fin 8) (queue : Nat) (s : State) : Host.Outcome State Fault Refusal :=
  .next { s with dev := whenIssuer by_ (mgmtCommand by_ o (.queueUnbind queue)) s.dev }

/-- REGION_SET (R157). -/
def execRegionSet (by_ : Issuer) (o : Fin 8) (ctx index : Nat) (word0 word1 : DWord) (s : State) :
    Host.Outcome State Fault Refusal :=
  .next { s with dev := whenIssuer by_ (mgmtCommand by_ o (.regionSet ctx index word0 word1)) s.dev }

/-- REGION_CLEAR (R158). -/
def execRegionClear (by_ : Issuer) (o : Fin 8) (ctx index : Nat) (s : State) : Host.Outcome State Fault Refusal :=
  .next { s with dev := whenIssuer by_ (mgmtCommand by_ o (.regionClear ctx index)) s.dev }

/-- REGION_ENTRY_EFFECT (R158). -/
def execRegionEntryEffect (o : Fin 8) (s : State) : Host.Outcome State Fault Refusal :=
  .next { s with dev := whenLive (entryEffect o) s.dev }

/-- REGION_COMMAND_COMPLETE (R158). -/
def execRegionCommandComplete (o : Fin 8) (s : State) : Host.Outcome State Fault Refusal :=
  .next { s with dev := whenLive (regionComplete o) s.dev }

/-- OBJ_CONFIG (R218). -/
def execObjConfig (by_ : Issuer) (o : Fin 8) (a : ObjArgs) (s : State) : Host.Outcome State Fault Refusal :=
  .next { s with dev := whenIssuer by_ (mgmtCommand by_ o (.objConfig a)) s.dev }

/-- OBJ_FREE (R218). -/
def execObjFree (by_ : Issuer) (o : Fin 8) (obj : Nat) (s : State) : Host.Outcome State Fault Refusal :=
  .next { s with dev := whenIssuer by_ (mgmtCommand by_ o (.objFree obj)) s.dev }

/-- IMAGE_REGISTER (R228). -/
def execImageRegister (by_ : Issuer) (o : Fin 8) (a : ImageArgs) (s : State) : Host.Outcome State Fault Refusal :=
  .next { s with dev := whenIssuer by_ (mgmtCommand by_ o (.imageRegister a)) s.dev }

/-- IMAGE_RELEASE (R227). -/
def execImageRelease (by_ : Issuer) (o : Fin 8) (ctx slot : Nat) (s : State) : Host.Outcome State Fault Refusal :=
  .next { s with dev := whenIssuer by_ (mgmtCommand by_ o (.imageRelease ctx slot)) s.dev }

/-- IMAGE_RELEASE_COMPLETE (R227). -/
def execImageReleaseComplete (o : Fin 8) (s : State) : Host.Outcome State Fault Refusal :=
  .next { s with dev := whenLive (imageReleased o) s.dev }

end Sys2Proof.Machine
end

