-- ==== Sys2Proof/Machine/Report.lean ====
section
/-!
DEFINITION. What Porter's shared services need (13): the lifecycle vote, the fields of the measurement report and the
GENERATION count, the wrapper of a mailbox request, and SPDM answers.
-/
namespace Sys2Proof.Machine

/-! ## Lifecycle (R345, R346) -/

/-- The bitwise majority of the three copies of the lifecycle counter (R345). -/
def lcsVote (f : Fuses) : Byte := (f.lcs0 &&& f.lcs1) ||| (f.lcs0 &&& f.lcs2) ||| (f.lcs1 &&& f.lcs2)

/-- Blown bits of a counter. -/
def blown (b : Byte) : Nat := (members8 b).length

/-- The lifecycle count: 0 MAKER, 1 INTEGRATOR, 2 FIELDED, 3 RETURNED, 4 or more SCRAPPED (R346). -/
def lcsCount (f : Fuses) : Nat := blown (lcsVote f)

/-- LCS_STATE.STATE (13). -/
def lcsState (f : Fuses) : Nat := min 4 (lcsCount f)

/-- The states that open the debug block and full JTAG (R346). -/
def debugState (n : Nat) : Bool := n == 0 || n == 1 || n == 3

/-! ## The measurement report (R333, R334) -/

/-- The fuse map as bytes, with the UDS bits counted as zero (R326): grade, lid, ordering code, stepping, SVN, operator key.
The map's own layout is not given (log 11). -/
def fuseMap (f : Fuses) : List Byte :=
  natLe 4 f.stepping ++ natLe 4 f.order ++ natLe 1 (b2n f.grade64) ++ natLe 1 (b2n f.airLid) ++ natLe 48 0 ++
  natLe 1 f.lcs0.toNat ++ natLe 1 f.lcs1.toNat ++ natLe 1 f.lcs2.toNat ++ natLe 4 f.svn ++
  natLe 48 (match f.opKey with | some k => k.toNat | none => 0)

/-- BOOT of the device state block (R333). -/
def bootFlags (p : Porter) : Nat := b2n p.slot + 2 * b2n p.unsigned + 4 * b2n p.fallback + 8 * b2n p.identityLost

/-- A digest as it stands in a block. -/
def digestBytes (x : BitVec 384) : List Byte := natBe 48 x.toNat

/-- The device state block (R333). -/
def deviceState (d : Dev) : List Byte :=
  natLe 1 (lcsState d.fuse) ++ natLe 1 (b2n d.fuse.grade64) ++ natLe 1 (b2n d.fuse.airLid) ++
  natLe 1 (b2n d.ptr.hostManaged) ++ natLe 1 (modeCode d.pwr.live) ++
  natLe 1 (b2n d.ptr.debugOpen + 2 * b2n d.ptr.debugUsed) ++ natLe 1 (bootFlags d.ptr) ++ natLe 1 d.fuse.svn ++
  natLe 1 d.tck.units.live ++ natLe 7 0 ++ digestBytes (Config.sha384 (fuseMap d.fuse)) ++
  digestBytes (match d.fuse.opKey with | some k => k | none => 0)

/-- A partition is RESETTING from the start of an L2 until its scrub completes (R333). -/
def resetting (d : Dev) (v : Nat) : Bool := has8 d.ump.l2 v

/-- STATE of a partition-layout entry (R333). -/
def layoutState (d : Dev) (v : Nat) : Nat :=
  if !(getPart d v).live then 0 else if resetting d v then 2
  else if (members8 (getPart d v).octants).any (scrubbing d) then 3 else 1

/-- A partition-layout entry (R333). -/
def layoutEntry (d : Dev) (v : Nat) : List Byte :=
  let p := getPart d v
  if !p.live then natLe 8 0
  else natLe 1 p.octants.toNat ++ natLe 1 (layoutState d v) ++ natLe 1 p.kdBase ++ natLe 1 p.kdCount ++
    natLe 1 (charterCode (getCharter d v).state) ++ natLe 1 (b2n d.pwr.fine) ++ natLe 2 0

/-- The partition layout, block 0x11 (R333). -/
def layoutBlock (d : Dev) : List Byte := ((List.range 8).map (layoutEntry d)).flatten

/-- FLAGS of report control (R333). -/
def reportFlags (d : Dev) : Nat :=
  b2n d.ptr.stg.staged + 2 * b2n d.ptr.stg.activated + 4 * b2n d.ptr.erased + 8 * b2n d.ptr.trial

/-- What the report shows of the device and its partitions: the fields of blocks 2 to 0x12 and FLAGS whose change increments
GENERATION (R334). -/
structure ReportView where
  running : List (BitVec 384)
  staged : Option (List (BitVec 384))
  device : List Nat
  fuses : List Byte
  opKey : Option (BitVec 384)
  parts : List (List Nat)
  charters : List (BitVec 384 × CharterState × Label)
  flags : Nat
  deriving DecidableEq, Repr

/-- The view of a state. -/
def reportView (d : Dev) : ReportView :=
  { running := [d.ptr.d2, d.ptr.d3, d.ptr.d4]
    staged := if d.ptr.stg.staged then some [d.ptr.stg.d5, d.ptr.stg.d6, d.ptr.stg.d7] else none
    device := [lcsState d.fuse, b2n d.ptr.hostManaged, modeCode d.pwr.live, b2n d.ptr.debugOpen, b2n d.ptr.debugUsed,
      bootFlags d.ptr, d.tck.units.live]
    fuses := fuseMap d.fuse
    opKey := d.fuse.opKey
    parts := (List.range 8).map fun v =>
      let p := getPart d v
      if p.live then [p.octants.toNat, layoutState d v, p.kdBase, p.kdCount, b2n d.pwr.fine] else []
    charters := (List.range 8).map fun v =>
      let c := getCharter d v
      (c.hash, c.state, c.approved)
    flags := reportFlags d }

/-- GENERATION moves on by one (R334). -/
def genUp (d : Dev) : Dev := { d with ret := { d.ret with generation := d.ret.generation + 1 } }

/-- An operation that may change what the report shows: GENERATION counts the change (R334). -/
def tracked (f : Dev → Dev) (d : Dev) : Dev :=
  let d' := f d
  if reportView d' = reportView d then d' else genUp d'

/-- DEBUG.USED (R333). -/
def debugUsed (d : Dev) : Dev := { d with ptr := { d.ptr with debugUsed := true } }

/-! ## The Porter mailbox (R340, R391) -/

/-- Identifier and offset of PTR_MBOX_GO.GO. -/
def mboxGo : Nat := 0x40040

/-- The update commands, which alone are answered in recovery (R327). -/
def updateOp (op : Nat) : Bool := 0x30 ≤ op && op ≤ 0x34

/-- The request as it stands in the buffer (R340). -/
def mboxRequest (op : Nat) (seq : Word) (payload : List Byte) : List Byte :=
  natLe 2 op ++ natLe 2 payload.length ++ natLe 4 seq.toNat ++ natLe 8 0 ++ payload

/-- The request that Porter takes is in progress, and stands in the buffer (R340). -/
def mboxTake (op : Nat) (seq : Word) (payload : List Byte) (d : Dev) : Dev :=
  { d with ptr := { d.ptr with
    busy := true, curSeq := seq, discard := false, buf := writeBytes d.ptr.buf 0 (mboxRequest op seq payload) } }

/-- A request that is served: it ends with a reason and a response, or its end comes later. -/
abbrev Served := Option (Reason × List Byte) × Dev

/-- A mailbox request: refused access is dropped and logged, and a request that ends is answered (R327, R340, R391). -/
def mailbox (op : Nat) (seq : Word) (payload : List Byte) (f : Dev → Served) (d : Dev) : Dev :=
  if !barAnswers d .pf then d
  else if !d.pkg.mailbox then dropLog .pf .notReady 8 mboxGo true d
  else if d.ptr.busy then dropLog .pf .busyUpdate 8 mboxGo true d
  else if d.pkg.phase = .recovery ∧ !updateOp op then d
  else
    match f (mboxTake op seq payload d) with
    | (some (r, answer), d) => mboxEnd r answer d
    | (none, d) => d

/-- A request that ends with a reason alone. -/
def served (f : Dev → Reason × Dev) (d : Dev) : Served :=
  let (r, d) := f d
  (some (r, []), d)

/-! ## SPDM over DOE (R327, R331, R332, R387, R388) -/

/-- A function by its index: 0 the PF, 1 + v for VF v. -/
def fnOf (i : Nat) : Fn := if h : 1 ≤ i ∧ i ≤ 8 then .vf ⟨i - 1, by omega⟩ else .pf

/-- An SPDM response on a function's DOE mailbox, with its interrupt (R387, R388). -/
def spdmSay (fn code : Nat) (payload : List Byte) (d : Dev) : Dev := interrupt fn 1 (emit (.spdm fn code payload) d)

/-- ErrorCode VendorDefined of SPDM 1.3. PRESUMED from SPDM (log 11). -/
def vendorDefined : Nat := 0xFF

/-- An SPDM ERROR: its code and, for a refusal by reason code, VendorDefined with the reason (R332). -/
def spdmError (fn code : Nat) (r : Reason) (d : Dev) : Dev :=
  interrupt fn 1 (emit (.spdmError fn code (if code = vendorDefined then natLe 2 0x1E3D ++ natLe 1 (reasonCode r) else [])) d)

/-- An SPDM request over a function's DOE: in recovery every one is refused with NOT_READY (R327); out of service nothing
answers. -/
def spdmRequest (f : Fn) (g : Dev → Dev) (d : Dev) : Dev :=
  if !fnPresent d f then d
  else if d.pkg.phase = .recovery then spdmError (fnIx f) vendorDefined .notReady d
  else if live d then g d
  else d

/-- A completed session, by its slot. -/
def sessOf (d : Dev) (s : Nat) : Option Session :=
  match look none s d.ptr.sess with
  | some x => if x.done then some x else none
  | none => none

/-- The export master secret that a session's keys derive from (R293); 0 without a session. -/
def sessionSecret (d : Dev) (s : Nat) : Nat :=
  match sessOf d s with
  | some x => x.secret
  | none => 0

/-- A request inside a session: nothing where the session does not exist (log 2). -/
def inSession (s : Nat) (g : Session → Dev → Dev) (d : Dev) : Dev :=
  match sessOf d s with
  | some x => spdmRequest (fnOf x.fn) (g x) d
  | none => d

/-- A vendor-defined message's answer: accepted, or refused with a reason (R332). PRESUMED code 0x7E (log 11). -/
def vendorAnswer (fn : Nat) (r : Reason) (d : Dev) : Dev :=
  if r = .ok then spdmSay fn 0x7E [] d else spdmError fn vendorDefined r d

/-- The VF whose DOE carries a session, if it is not the PF's. -/
def sessVf (x : Session) : Option Nat := if x.fn = 0 then none else some (x.fn - 1)

end Sys2Proof.Machine
end

