-- ==== Sys2Proof/Machine/FlashMap.lean ====
section
/-!
DEFINITION. The attached flash (13): its areas at their offsets (R320), the pointer block (R321), the identity block (R330) and
the sealed user-record area (R325).
-/
namespace Sys2Proof.Machine

/-! ## Areas (R320) -/

/-- An area of the flash, from offset 0. -/
def cutMem (lo n : Nat) (m : Memory) : Memory :=
  (m.filter fun c => decide (lo ≤ c.1) && decide (c.1 < lo + n)).map fun c => (c.1 - lo, c.2)

/-- The flash with an area's contents replaced. -/
def pasteMem (lo n : Nat) (x m : Memory) : Memory :=
  (m.filter fun c => decide (c.1 < lo)) ++ ((x.filter fun c => decide (c.1 < n)).map fun c => (lo + c.1, c.2)) ++
    m.filter fun c => decide (lo + n ≤ c.1)

def ptrBase (copy : Bool) : Nat := if copy then 0x1000 else 0
def identityBase : Nat := 0x10000
def userBase : Nat := 0x20000
def userSize : Nat := 0xE0000
def slotBase (b : Bool) : Nat := if b then 0x1900000 else 0x100000
def slotSize : Nat := 0x1800000

/-- A slot of the flash: true for B. -/
def slotOf (f : Flash) (b : Bool) : Memory := cutMem (slotBase b) slotSize f.mem
def setFlashSlot (b : Bool) (m : Memory) (f : Flash) : Flash := { f with mem := pasteMem (slotBase b) slotSize m f.mem }

/-! ## The pointer block (R321) -/

def crcStep (c : Word) : Word := if c.getLsbD 0 then (c >>> 1) ^^^ 0xEDB88320 else c >>> 1

/-- CRC-32 of IEEE 802.3 (PRESUMED, log 90). -/
def crc32 (l : List Byte) : Word :=
  ~~~ (l.foldl (fun c b => (List.range 8).foldl (fun c _ => crcStep c) (c ^^^ b.setWidth 32)) 0xFFFFFFFF)

/-- The bytes of a copy that its CRC covers: magic, SEQ, ACTIVE, TRIAL, PREVIOUS and a zero (R321, log 90). -/
def ptrBody (p : PtrCopy) : List Byte :=
  natLe 4 0x50545253 ++ natLe 4 p.seq ++ natLe 1 (b2n p.active) ++ natLe 1 (b2n p.trial) ++ natLe 1 (b2n p.previous) ++
    natLe 1 0

/-- A copy as stored (R321). -/
def ptrBytes (p : PtrCopy) : List Byte := ptrBody p ++ natLe 4 (crc32 (ptrBody p)).toNat

/-- A copy as read; none when its magic value or its CRC is wrong (R321). -/
def readPtr (f : Flash) (copy : Bool) : Option PtrCopy :=
  let b := readBytes f.mem (ptrBase copy) 16
  if field b 0 4 = 0x50545253 ∧ field b 12 4 = (crc32 (b.take 12)).toNat then
    some { seq := field b 4 4, active := byteAt b 8 == 1, trial := byteAt b 9 == 1, previous := byteAt b 10 == 1 }
  else none

/-- The copy in force: the valid one with the higher SEQ; none without a valid copy. True for copy 1. -/
def ptrCopy (f : Flash) : Option Bool :=
  match readPtr f false, readPtr f true with
  | some a, some b => some (a.seq < b.seq)
  | some _, none => some false
  | none, some _ => some true
  | none, none => none

/-- The pointer in force. -/
def ptrNow (f : Flash) : Option PtrCopy := (ptrCopy f).bind (readPtr f)

/-- A new pointer is written to the other copy with SEQ + 1 (R321). -/
def writePtr (active trial previous : Bool) (f : Flash) : Flash :=
  let seq := match ptrNow f with
    | some p => (p.seq + 1) % 2 ^ 32
    | none => 1
  let p : PtrCopy := { seq := seq, active := active, trial := trial, previous := previous }
  { f with trialBegun := false, mem := writeBytes f.mem (ptrBase (ptrCopy f == some false)) (ptrBytes p) }

/-! ## The identity block (R330) -/

/-- The DeviceID certificate chain: its first two bytes are its length, as SPDM 1.3 lays a chain out (PRESUMED, log 90). -/
def identityChain (f : Flash) : List Byte :=
  readBytes f.mem identityBase (field (readBytes f.mem identityBase 2) 0 2)

/-- The DeviceID certificate matches the key derived from a CDI_0. -/
def identityMatches (f : Flash) (cdi0 : BitVec 384) : Bool := Config.certKey (identityChain f) == Config.derivePub cdi0

/-! ## The user-record area (R325, R344)

The spec gives the area's seal and not its layout. A record is stored as the length of its ciphertext (2 bytes), a nonce
(12), the ciphertext and the tag (16), one after another; a length of 0 ends the list (DESIGN CHOICE, log 90). -/

/-- The stored records from an offset on. -/
def userBlobs (m : Memory) : Nat → Nat → List (List Byte)
  | 0, _ => []
  | n + 1, off =>
    let k := field (readBytes m off 2) 0 2
    if k = 0 ∨ off + 30 + k > userSize then [] else readBytes m off (30 + k) :: userBlobs m n (off + 30 + k)

/-- The stored records. -/
def userRecs (f : Flash) : List (List Byte) := userBlobs (cutMem userBase userSize f.mem) 30000 0

/-- The area written anew. -/
def writeUserRecs (l : List (List Byte)) (f : Flash) : Flash :=
  { f with mem := pasteMem userBase userSize (writeBytes [] 0 l.flatten) f.mem }

/-- A record sealed under the key that Porter derives from the UDS. -/
def sealUser (key : BitVec 256) (nonce text : List Byte) : List Byte :=
  let c := gcmText key nonce text
  natLe 2 c.length ++ nonce ++ c ++ gcmTag key nonce [] c

/-- What a stored record holds; none when its seal fails. -/
def openUser (key : BitVec 256) (b : List Byte) : Option (List Byte) :=
  let n := slice b 2 12
  let c := slice b 14 (field b 0 2)
  if gcmTag key n [] c = slice b (14 + field b 0 2) 16 then some (gcmText key n c) else none

/-- A code-key registration as a record holds it: type 1, VF, index, digest. A record of another type holds an
operator-provisioned certificate (R325). -/
def keyText (v index : Nat) (digest : BitVec 384) : List Byte := natLe 1 1 ++ natLe 1 v ++ natLe 1 index ++ digestBytes digest

/-- The VF, index and digest of a registration. -/
def keyOf (t : List Byte) : Option (Nat × Nat × BitVec 384) :=
  if byteAt t 0 = 1 ∧ t.length = 51 then some (byteAt t 1, byteAt t 2, BitVec.ofNat 384 (beNat (slice t 3 48))) else none

/-- The registration that a stored record opens to. -/
def keyReg (uds : BitVec 384) (b : List Byte) : Option (Nat × Nat × BitVec 384) :=
  (openUser (Config.userKey uds) b).bind keyOf

end Sys2Proof.Machine
end

