-- ==== Sys2Proof/Machine/Conf.lean ====
section
/-!
DEFINITION. Configuration timing (02, 17): block checks, enables, APPLY copies and the plan swap.
-/
namespace Sys2Proof.Machine

/-- PF BAR0 offset of a block (R417). -/
def blkBase : Block → Nat
  | .tck => 0x10000
  | .pwr => 0x20000
  | .ump => 0x60000
  | .sht => 0x70000
  | .pci => 0x80000
  | .trs => 0x90000
  | .lbl => 0xA0000
  | .dbg => 0xB0000
  | .rly => 0x100000
  | .fab p => 0x110000 + p.val * 0x1000
  | .cas s => 0x210000 + s.val * 0x20000
  | .seq o => seqBase o.val
  | .rle o => rleBase o.val
  | .clu o c => cluBase o.val c.val

/-- Offset of BLK_CTRL: TCK's is at 0x010 (R422). -/
def ctrlOffset (b : Block) : Nat := blkBase b + (if b = .tck then 0x10 else 0)

/-- The result of a block's check: nothing, or the reason with the field's identifier. -/
abbrev CheckFail := Option (Reason × Nat)

/-- Period in units of 10 ns. -/
def periodTens (units : Nat) : Nat := units * 1600

/-! ## The checks of each block (R390) -/

/-- START, END and EN of a packed slot. -/
def slotStart (x : Nat) : Nat := bits x 0 17
def slotFin (x : Nat) : Nat := bits x 32 17
def slotEn (x : Nat) : Bool := bitAt x 63

/-- Transom windows of the live plans of a partition. -/
def planSlots (d : Dev) (v : Nat) : List PlanWin :=
  ((members8 (getPart d v).octants).map fun o => match (getSeq d o).plan with
    | some p => if (getSeq d o).withdrawn then [] else p.wins.filter fun w => w.kind == 4
    | none => []).flatten

/-- R301 for slot values. -/
def slotCheck (d : Dev) (val : Nat → Nat) : CheckFail :=
  let per := periodTens d.tck.units.live
  let bad (v : Nat) : CheckFail :=
    let x := val v
    if !slotEn x then none
    else if slotStart x < 100 then some (.fieldRange, fieldIdOf (0x40 + 8 * v) 0)
    else if slotFin x ≤ slotStart x ∨ slotFin x > per then some (.fieldRange, fieldIdOf (0x40 + 8 * v) 1)
    else none
  let meets (v w : Nat) : Bool :=
    slotEn (val v) && slotEn (val w) && slotStart (val v) < slotFin (val w) && slotStart (val w) < slotFin (val v)
  let clash (v : Nat) : CheckFail :=
    if (List.range v).any (meets v) ∨
        (planSlots d v).any (fun w => !(slotEn (val v) && slotStart (val v) ≤ w.start && w.fin ≤ slotFin (val v))) then
      some (.fieldConflict, fieldIdOf (0x40 + 8 * v) 0)
    else none
  match (List.range 8).findSome? bad with
  | some x => some x
  | none => (List.range 8).findSome? clash

/-- A port's enable check. -/
def fabCheck (p : Port) : CheckFail :=
  let ip := p.ipHi.toNat * 2 ^ 64 + p.ipLo.toNat
  if p.pmd = 3 then some (.fieldRange, fieldIdOf 0x40 1)
  else if !p.tagEn ∧ p.vid ≠ 0 then some (.fieldConflict, fieldIdOf 0x40 3)
  else if !p.tagEn ∧ p.pcp ≠ 0 then some (.fieldConflict, fieldIdOf 0x40 4)
  else if ip = 0 ∨ p.ipHi.toNat / 2 ^ 56 = 0xFF then some (.fieldRange, fieldIdOf 0x50 0)
  else if bitAt p.mac 40 then some (.fieldRange, fieldIdOf 0x60 0)
  else none

/-- A Casement engine's enable check. -/
def casCheck (d : Dev) (s : Nat) : CheckFail :=
  let ms := (getStack d s).alarmMs
  let others := (List.range 8).filter fun t => t != s && (getBlk d (0x210000 + t * 0x20000)).enable
  if ms < 100 ∨ ms > 10000 then some (.fieldRange, fieldIdOf 0x40 0)
  else if others.any fun t => (getStack d t).alarmMs != ms then some (.fieldConflict, fieldIdOf 0x40 0)
  else none

/-- A value of UNITS (R27). -/
def unitsCheck (u : Nat) : CheckFail := if u = 0 ∨ u > 64 then some (.fieldRange, fieldIdOf 8 0) else none

/-- A change of the period needs at most one partition, and it idle (R28). -/
def periodCheck (d : Dev) : Option Reason :=
  match partsLive d with
  | [] => none
  | [v] => if partIdle d v then none else some .notReady
  | _ => some .busyUpdate

/-- A block's check over its live set (`shadow` false) or its sealed shadow. -/
def blockCheck (d : Dev) (b : Block) (shadow : Bool) : CheckFail :=
  let pick (r : Rwt) : Nat := if shadow then r.shadow else r.live
  match b with
  | .tck =>
    match unitsCheck (pick d.tck.units) with
    | some x => some x
    | none => if shadow then (periodCheck d).map fun r => (r, fieldIdOf 8 0) else none
  | .trs => slotCheck d fun v => pick (getSlot d v)
  | .rly => if d.rly.udpPort = 0 then some (.fieldRange, fieldIdOf 0x40 0) else none
  | .fab p => fabCheck (getPort d p)
  | .cas s => casCheck d s
  | .rle o => if pick (getRle d o).deadline = 0 ∨ pick (getRle d o).deadline > 1024 then some (.fieldRange, fieldIdOf 0x40 0) else none
  | _ => none

/-! ## APPLY (R47) -/

def rwtCopy (r : Rwt) : Rwt := { r with live := r.shadow }

/-- Plans whose period or mode no longer matches are withdrawn; commands that their windows selected return to their queues
(R35). -/
def withdrawPlans (d : Dev) : Dev :=
  (List.range 8).foldl (fun d o =>
    let s := getSeq d o
    match s.plan with
    | none => d
    | some p =>
      if s.withdrawn ∨ (p.mode = modeCode d.pwr.live ∧ p.units = d.tck.units.live) then d
      else
        let d := setSeq o (fun s => { s with withdrawn := true }) d
        { d with cmds := d.cmds.map fun c =>
            if c.oct == o && c.phase == .selected then { c with phase := .accepted, waitLeft := none, waitOk := false } else c }) d

/-- The whole shadow of a block becomes live at once (R47). A new period also ends the Louvre interval (R430). -/
def applyLive (b : Block) (d : Dev) : Dev :=
  match b with
  | .tck =>
    if d.tck.units.shadow = d.tck.units.live then d
    else withdrawPlans { d with
      tck := { d.tck with units := rwtCopy d.tck.units }
      pwr := { d.pwr with lvSum := d.pwr.lvLast, lvTicks := 1, lvHot := none } }
  | .ump => { d with ump := { d.ump with limit := rwtCopy d.ump.limit } }
  | .trs => (List.range 8).foldl (fun d v => setSlot v rwtCopy d) d
  | .rle o => setRle o (fun r => { r with deadline := rwtCopy r.deadline }) d
  | .clu o c => setClu o c (fun r => { r with limit := rwtCopy r.limit }) d
  | _ => d

/-- The outcome of a check in BLK_STATUS (R422). -/
def setStatus (base : Nat) (f : CheckFail) (d : Dev) : Dev :=
  setBlk base (fun x => match f with
    | none => { x with reason := .ok, fieldId := 0 }
    | some (r, id) => { x with reason := r, fieldId := id }) d

/-- A sequencer's block: its APPLY waits for the swap of its partition (R34). -/
def planApply (base : Nat) : Bool := (List.range 8).any fun o => seqBase o == base

/-- A block of a lower BAR0 offset still has its copy of this boundary to make (R31). -/
def earlierPending (d : Dev) (base : Nat) : Bool := d.blk.any fun e => e.1 < base && e.2.apply && !planApply e.1

/-- A block with APPLY pending checks its sealed shadow and copies it or records the failure, after every block of a lower
offset (R31, R47); a sequencer's plan waits for the swap (R34). -/
def applyCopy (b : Block) (d : Dev) : Dev :=
  let base := blkBase b
  if !(getBlk d base).apply ∨ planApply base ∨ earlierPending d base then d
  else
    let f := blockCheck d b true
    let d := setStatus base f (setBlk base (fun x => { x with apply := false }) d)
    if f.isNone then applyLive b d else d

/-- APPLY_COPY (R47). -/
def execApplyCopy (b : Block) (s : State) : Host.Outcome State Fault Refusal :=
  .next { s with dev := whenLive (tracked (applyCopy b)) s.dev }

/-! ## Access to BLK_CTRL (R419, R425, R429) -/

/-- A function's view shows BLK_CTRL of a block (17, block summaries). -/
def ctrlShown (d : Dev) (f : Fn) (b : Block) : Bool :=
  match f, b with
  | .pf, _ => true
  | .vf v, .seq o => octVf d o == some v.val
  | .vf v, .rle o => octVf d o == some v.val
  | .vf v, .clu o _ => octVf d o == some v.val
  | .vf v, .fab p => octVf d p == some v.val
  | .vf v, .cas s => octVf d s == some v.val
  | .vf _, _ => false

/-- ENABLE is RO where the block's chapter says so (R422): Porter sets that of TCK, CAS and SHT. -/
def enableRo : Block → Bool
  | .tck => true
  | .cas _ => true
  | .sht => true
  | _ => false

/-- Why a function may not change ENABLE of a block that its view shows, if so (R319, R419). -/
def enableDenied (d : Dev) (f : Fn) (b : Block) : Option Reason :=
  match f, b with
  | .vf _, _ => some .notOwner
  | .pf, .seq _ => if porterManaged d then some .notOwner else none
  | .pf, _ => none

/-- Why a function may not change APPLY of a block that its view shows, if so (R419). -/
def applyDenied (f : Fn) (b : Block) : Option Reason :=
  match f, b with
  | .pf, _ => none
  | .vf _, .seq _ => none
  | .vf _, .rle _ => none
  | .vf _, .clu _ _ => none
  | .vf _, _ => some .notOwner

/-- A write of one field of BLK_CTRL: what hides the register drops the access, a change that the function may not make is
dropped too, and one that changes nothing is silent (R418, R425, R429). Position 0 is ENABLE, 1 APPLY. -/
def ctrlWrite (f : Fn) (b : Block) (pos : Nat) (changes ro : Bool) (denied : Option Reason) (g : Dev → Dev) (d : Dev) :
    Dev :=
  let drop (r : Reason) (d : Dev) : Dev := dropLog f r (fieldIdOf (ctrlOffset b - blkBase b) pos) (ctrlOffset b) true d
  if !ctrlShown d f b then drop .notOwner d
  else
    let d := if b = .dbg then debugUsed d else d
    if b = .dbg ∧ !d.ptr.debugOpen then drop .lifecycleDenied d
    else if ro ∨ !changes then d
    else match denied with
      | some r => drop r d
      | none => g d

/-- ENABLE set: the check runs at once over the live set (R48). -/
def enableBlock (b : Block) (d : Dev) : Dev :=
  let c := blockCheck d b false
  setStatus (blkBase b) c (setBlk (blkBase b) (fun x => { x with enable := c.isNone }) d)

/-- A write of 1 to ENABLE (R48). -/
def blockEnable (f : Fn) (b : Block) (d : Dev) : Dev :=
  ctrlWrite f b 0 (!(getBlk d (blkBase b)).enable) (enableRo b) (enableDenied d f b) (enableBlock b) d

/-- BLOCK_ENABLE (R48). -/
def execBlockEnable (fn : Fn) (b : Block) (s : State) : Host.Outcome State Fault Refusal :=
  .next { s with dev := whenBar fn (onBar (tracked (blockEnable fn b))) s.dev }

/-- Items of a block in flight (R48). -/
def blockItems (d : Dev) (b : Block) : Nat :=
  let act (p : Cmd → Bool) : Nat := (d.cmds.filter fun c => c.phase == .active && !c.retired && p c).length
  match b with
  | .seq o => act fun c => c.oct == o.val
  | .rle o => (d.xfers.filter fun x => x.oct == o.val).length
  | .clu o k => act fun c => c.oct == o.val && cmdOpcode c.raw == 3 && resIndex (cmdResource c.raw) == k.val
  | .fab p => (d.steps.filter fun x => x.port == p.val).length
  | .rly => d.steps.length
  | .trs => (d.xfers.filter fun x => !x.fabric && transomEnds (xferRaw d x)).length +
      (d.cmds.filter fun c => c.phase == .recording && (getQueue d c.oct c.q).transom && !recordless c).length
  | _ => 0

/-- ENABLE reads 0 once nothing of the block is in flight (R48). -/
def blockDisabled (b : Block) (d : Dev) : Dev :=
  if (getBlk d (blkBase b)).stopping ∧ blockItems d b = 0 then
    setBlk (blkBase b) (fun x => { x with enable := false, stopping := false }) d
  else d

/-- ENABLE cleared: no new item dispatches (R48). -/
def disableBlock (b : Block) (d : Dev) : Dev := blockDisabled b (setBlk (blkBase b) (fun x => { x with stopping := true }) d)

/-- A write of 0 to ENABLE (R48). -/
def blockDisable (f : Fn) (b : Block) (d : Dev) : Dev :=
  ctrlWrite f b 0 (getBlk d (blkBase b)).enable (enableRo b) (enableDenied d f b) (disableBlock b) d

/-- BLOCK_DISABLE (R48). -/
def execBlockDisable (fn : Fn) (b : Block) (s : State) : Host.Outcome State Fault Refusal :=
  .next { s with dev := whenBar fn (tracked (blockDisable fn b)) s.dev }

/-- BLOCK_DISABLE_COMPLETE (R48). -/
def execBlockDisableComplete (b : Block) (s : State) : Host.Outcome State Fault Refusal :=
  .next { s with dev := whenLive (blockDisabled b) s.dev }

/-- APPLY set: it seals the shadow while ENABLE is 1; otherwise it only clears APPLY (R47). -/
def applySet (b : Block) (d : Dev) : Dev :=
  if (getBlk d (blkBase b)).enable then setBlk (blkBase b) (fun x => { x with apply := true }) d
  else setStatus (blkBase b) none (setBlk (blkBase b) (fun x => { x with apply := false }) d)

/-- A write of 1 to APPLY (R47). -/
def applyRequest (f : Fn) (b : Block) (d : Dev) : Dev :=
  ctrlWrite f b 1 (!(getBlk d (blkBase b)).apply) false (applyDenied f b) (applySet b) d

/-- APPLY_REQUEST (R47). -/
def execApplyRequest (fn : Fn) (b : Block) (s : State) : Host.Outcome State Fault Refusal :=
  .next { s with dev := whenBar fn (tracked (applyRequest fn b)) s.dev }

/-- A pending APPLY withdrawn (R47). -/
def applyClear (b : Block) (d : Dev) : Dev :=
  setStatus (blkBase b) none (setBlk (blkBase b) (fun x => { x with apply := false }) d)

/-- A write of 0 to APPLY (R47). -/
def applyWithdraw (f : Fn) (b : Block) (d : Dev) : Dev :=
  ctrlWrite f b 1 (getBlk d (blkBase b)).apply false (applyDenied f b) (applyClear b) d

/-- APPLY_WITHDRAW (R47). -/
def execApplyWithdraw (fn : Fn) (b : Block) (s : State) : Host.Outcome State Fault Refusal :=
  .next { s with dev := whenBar fn (tracked (applyWithdraw fn b)) s.dev }

/-! ## Plan sections (R32, R33, R229) -/

/-- Window records of a section (R32). -/
def parseWins (sec : List Byte) (n : Nat) : List PlanWin :=
  (List.range n).map fun i =>
    let a := 64 + 16 * i
    { kind := field sec a 2 / 4096, index := field sec a 2 % 4096, tick := byteAt sec (a + 2),
      queue := byteAt sec (a + 3) % 32, start := field sec (a + 4) 4, fin := field sec (a + 8) 4,
      tag := field sec (a + 12) 2 }

/-- Reserved fields of the window records are zero. -/
def winsReserved (sec : List Byte) (n : Nat) : Bool :=
  (List.range n).all fun i => byteAt sec (64 + 16 * i + 3) < 32 && field sec (64 + 16 * i + 14) 2 == 0

/-- The first record that fails a test, as FIELD_ID counts records. -/
def firstBad (wins : List PlanWin) (bad : Nat → PlanWin → Bool) : Option Nat :=
  (wins.mapIdx fun i w => (i, w)).findSome? fun e => if bad e.1 e.2 then some (e.1 + 1) else none

/-- Row 6 of R33 for one record. -/
def winKindBad (o v : Nat) (w : PlanWin) : Option Reason :=
  match w.kind with
  | 1 => if w.index > 8 then some .fieldRange else none
  | 2 => if w.index > 1 then some .fieldRange else none
  | 3 => if w.index > 7 then some .fieldRange else if w.index ≠ o then some .notOwner else none
  | 4 => if w.index > 7 then some .fieldRange else if w.index ≠ v then some .notOwner else none
  | _ => some .fieldRange

/-- The checks of R33 in their order: the plan, or the failure with its FIELD_ID. -/
def planCheck (d : Dev) (o v : Nat) (sec : List Byte) : Except (Reason × Nat) Plan :=
  let n := field sec 0x0A 2
  let cyc := field sec 6 2
  let wins := parseWins sec n
  let per := periodTens d.tck.units.live
  let s := (getSlot d v).live
  let clash (i : Nat) (w : PlanWin) : Bool :=
    (wins.take i).any fun x => winResource x == winResource w && x.tick == w.tick && x.start < w.fin && w.start < x.fin
  if field sec 0 4 ≠ 1 ∨ byteAt sec 9 ≠ 0 ∨ field sec 0x0C 4 ≠ 0 ∨ cyc = 0 ∨ cyc > 256 ∨ n = 0 ∨ n > 1024 ∨
      !winsReserved sec n then .error (.fieldRange, 0)
  else if byteAt sec 4 ≠ modeCode d.pwr.live then .error (.modeMismatch, 0)
  else if byteAt sec 5 ≠ d.tck.units.live then .error (.fieldConflict, 0)
  else if byteAt sec 8 ≠ (getPart d v).octants.toNat then .error (.notOwner, 0)
  else match firstBad wins fun _ w => w.start < 100 || w.fin ≤ w.start || w.fin > per || w.tick ≥ cyc with
    | some i => .error (.fieldRange, i)
    | none =>
      match (wins.mapIdx fun i w => (i, winKindBad o v w)).findSome? fun e => e.2.map fun r => (r, e.1 + 1) with
      | some x => .error x
      | none =>
        match firstBad wins fun _ w => w.kind == 1 && !clusterPresent d w.index with
        | some i => .error (.engineAbsent, i)
        | none =>
          match firstBad wins clash with
          | some i => .error (.fieldConflict, i)
          | none =>
            match firstBad wins fun _ w => w.kind == 4 && !(slotEn s && slotStart s ≤ w.start && w.fin ≤ slotFin s) with
            | some i => .error (.fieldConflict, i)
            | none => .ok { mode := byteAt sec 4, units := byteAt sec 5, cycle := cyc, wins := wins }

/-- A section lies wholly inside one region of a stack that the partition owns (R229). -/
def sectionOwned (d : Dev) (v pa n : Nat) : Bool :=
  hbmPresent pa && regionOf pa == regionOf (pa + n - 1) && has8 (getPart d v).octants (stackOf pa)

/-- An octant's staged section, read and checked (R33, R229). -/
def sectionCheck (o v : Nat) (ev : LineEvent) (d : Dev) : Except (Reason × Nat) Plan × Dev :=
  let pa := (getSeq d o).planBase.shadow * 64
  if !sectionOwned d v pa 64 then (.error (.notOwner, 0), d)
  else if (getRegion d (regionOf pa)).label ≠ 0 then (.error (.labelDenied, 0), d)
  else match hbmRead (20 + o) pa 64 ev d with
    | (.error e, d) => (.error (e.1, 0), d)
    | (.ok h, d) =>
      let n := 64 + 16 * field h 0x0A 2
      if !sectionOwned d v pa n then (.error (.notOwner, 0), d)
      else match hbmRead (20 + o) pa n ev d with
        | (.error e, d) => (.error (e.1, 0), d)
        | (.ok sec, d) => (planCheck d o v sec, d)

/-- Every octant's section, in turn. -/
def sectionChecks (v : Nat) (ev : LineEvent) : List Nat → Dev → List (Nat × Except (Reason × Nat) Plan) × Dev
  | [], d => ([], d)
  | o :: t, d =>
    let (r, d) := sectionCheck o v ev d
    let (rs, d) := sectionChecks v ev t d
    ((o, r) :: rs, d)

/-- An octant's part in a swap that takes place (R34). -/
def swapOne (o : Nat) (p : Plan) (d : Dev) : Dev :=
  setSeq o (fun s => { s with plan := some p, withdrawn := false, cycleTick := 0, started := [], planBase := rwtCopy s.planBase })
    (setStatus (seqBase o) none d)

/-- A sequencer's APPLY that is still pending clears without a swap: its partition is released, or an L2 of it starts (R34). -/
def dropApply (r : Reason) (o : Nat) (d : Dev) : Dev :=
  if (getBlk d (seqBase o)).apply then
    setStatus (seqBase o) (some (r, 0)) (setBlk (seqBase o) (fun x => { x with apply := false }) d)
  else d

/-- The partition's plans swap together, or none does (R34). -/
def planSwap (v : Nat) (ev : LineEvent) (d : Dev) : Dev :=
  let octs := members8 (getPart d v).octants
  if !(getPart d v).live ∨ octs.isEmpty ∨ !octs.all (fun o => (getBlk d (seqBase o)).apply) then d
  else
    let (rs, d) := sectionChecks v ev octs d
    if !live d then d
    else
      let d := octs.foldl (fun d o => setBlk (seqBase o) (fun x => { x with apply := false }) d) d
      let failed := rs.any fun e => match e.2 with | .error _ => true | .ok _ => false
      rs.foldl (fun d e => match e.2 with
        | .error f => setStatus (seqBase e.1) (some f) d
        | .ok p => if failed then setStatus (seqBase e.1) (some (.fieldConflict, 0)) d else swapOne e.1 p d) d

/-- PLAN_SWAP (R34). -/
def execPlanSwap (v : Fin 8) (ev : LineEvent) (s : State) : Host.Outcome State Fault Refusal :=
  .next { s with dev := settled (planSwap v ev) s.dev }

end Sys2Proof.Machine
end

