-- ==== Sys2Proof/Machine/Tick.lean ====
section
/-!
DEFINITION. The tick boundary (02, 09, 12): the count, the hold step, deadlines, per-tick counts, the wait-for walk and the
Louvre's sample.
-/
namespace Sys2Proof.Machine

/-! ## The hold step (R49, R50) -/

/-- The hold step after a tick whose hottest junction was given, in quarter degrees. -/
def nextHold (h : Nat) (hottest : Option Int) : Nat :=
  match hottest with
  | none => h
  | some t => if t ≥ 400 then min 8 (h + 1) else if t ≥ 388 then h else h - 1

/-- SMB_ALERT_N's causes when the hold step changes, and when it reaches 8 (R413). -/
def holdAlert (old new : Nat) (d : Dev) : Dev :=
  let d := if old = new then d else alert 0 d
  if new = 8 ∧ old ≠ 8 then alert 6 d else d

/-- The generator returns to SYSCLK_25M at the boundary after it has been stable (R409). -/
def sysclkReturn (d : Dev) : Dev :=
  if d.pwr.refLost ∧ d.pkg.sysclkBack then
    alert 0 (alert 4 { d with pwr := { d.pwr with refLost := false }, pkg := { d.pkg with sysclkBack := false } })
  else d

/-- T+0: the count, the hold and the time base (R26, R30, R49, R50). -/
def tickCount (d : Dev) : Dev :=
  let t := d.tck
  let start := t.start + tickUnits d
  let hold := nextHold t.hold t.hottest
  holdAlert t.hold hold { d with
    tck := { t with
      count := t.count + 1, hold := hold, hottest := none, start := start, now := max t.now start
      heldLast := 0 < t.hold, heldCount := if 0 < t.hold then (t.heldCount + 1) % 65536 else t.heldCount }
    pwr := { d.pwr with hotSensor := d.pwr.hotNow, hotNow := none }
    pkg := { d.pkg with msixSent := [] } }

/-- Each live plan moves to the next tick of its cycle, and no window of it has started (R32, R38). -/
def cycleTicks (d : Dev) : Dev :=
  (List.range 8).foldl (fun d o => setSeq o (fun s => match s.plan with
    | some p => { s with cycleTick := (s.cycleTick + 1) % p.cycle, started := [] }
    | none => { s with started := [] }) d) d

/-- After a reverted mode change, plans of the abandoned mode are withdrawn at the next boundary (R431). -/
def revertPlans (d : Dev) : Dev :=
  if d.pwr.reverted then withdrawPlans { d with pwr := { d.pwr with reverted := false } } else d

/-! ## Deadlines (R30, R12) -/

/-- A stream's wait counts one boundary (R221). -/
def ageWait (x : Stream) : Stream :=
  match x.wait with
  | .hwait o n t left => { x with wait := .hwait o n t (left - 1) }
  | _ => x

/-- Deadlines counted in ticks advance; halted items' waits do not (R30, R425). -/
def ageDeadlines (d : Dev) : Dev :=
  let halted (key : Nat) : Bool := match (getCore d (key / 2)).item with
    | some id => itemHalted d id
    | none => false
  { d with
    cmds := d.cmds.map fun c => { c with waitLeft := c.waitLeft.map (· - 1) }
    stream := d.stream.map fun e => if halted e.1 then e else (e.1, ageWait e.2)
    xfers := d.xfers.map fun x => { x with left := x.left - 1 }
    steps := d.steps.map fun x => { x with
      left := x.left - 1, lateLeft := x.lateLeft.map (· - 1) }
    ump := { d.ump with l0 := d.ump.l0.map fun e => (e.1, max 1 (e.2 - 1)) } }

/-- Skip counts of the tick start again (R30, R83). -/
def resetSkips (d : Dev) : Dev :=
  { d with core := d.core.filterMap fun e =>
      let x := { e.2 with skipsTick := 0 }
      if x = Core.zero then none else some (e.1, x) }

/-! ## The wait-for walk (R224, R225) -/

/-- An unsatisfied wait: object octant, object, target. -/
abbrev Wanted := Nat × Nat × Word

/-- A wait that a command makes, for the walk: from its acceptance (R224). -/
def cmdWanted (d : Dev) (c : Cmd) : Option Wanted :=
  let o := objOct (waitObj c.raw)
  let n := objIx (waitObj c.raw)
  if (c.phase = .accepted ∨ c.phase = .selected) ∧ waitEn c.raw ∧ !c.waitOk ∧ !(getObj d o n).error ∧
      !satisfied (getObj d o n) (waitValue c.raw) then some (o, n, waitValue c.raw)
  else none

/-- The waits of an item's streams, when each participating stream has ended or is held in HWAIT. -/
def itemWanted (d : Dev) (id : Nat) : Option (List Wanted) :=
  let l := (itemStreams d id).map fun e => getStream d e.1 e.2
  let held (x : Stream) : Bool := match x.wait with
    | .hwait _ _ _ _ => true
    | _ => !x.live
  if l.all held then
    some (l.filterMap fun x => match x.wait with
      | .hwait o n t _ => some (o, n, t)
      | _ => none)
  else none

/-- A command that is held behind, or is, an incomplete FENCE. -/
def fenceHeld (d : Dev) (c : Cmd) : Bool :=
  (c.phase == .accepted || c.phase == .selected) && (isFence c || behindFence d c)

/-- The waits of a blocked queue; none when the queue is not blocked (R224). -/
def blockedWants (d : Dev) (o q : Nat) : Option (List Wanted) :=
  let x := getQueue d o q
  let cs := queueCmds d o q
  let one (c : Cmd) : Option (List Wanted) :=
    match cmdWanted d c with
    | some w => some [w]
    | none =>
      if fenceHeld d c then some []
      else if c.phase = .active ∧ cmdOpcode c.raw = 3 ∧ c.heldUntil.isNone then itemWanted d c.id
      else none
  let all := cs.map one
  if !x.bound ∨ (getCtx d o x.ctx).state ≠ .running ∨ all.any (·.isNone) then none
  else
    let ws := (all.map (·.getD [])).flatten
    if ws.any fun w => d.signals.any fun s => s.octant == w.1 && s.obj == w.2.1 then none else some ws

/-- Producer of an object as a queue number 32o + q. -/
def producerNo (d : Dev) (w : Wanted) : Option Nat := ((getObj d w.1 w.2.1).producer).map fun p => 32 * p.1 + p.2

/-- The blocked queues with their waits, by queue number. -/
def blockedQueues (d : Dev) : List (Nat × List Wanted) :=
  (List.range 256).filterMap fun k => (blockedWants d (k / 32) (k % 32)).map fun ws => (k, ws)

/-- Blocked queues to which a queue has an edge. -/
def edgesOf (d : Dev) (b : List (Nat × List Wanted)) (k : Nat) : List Nat :=
  match b.find? fun e => e.1 == k with
  | some e => (e.2.filterMap (producerNo d)).filter fun p => b.any fun x => x.1 == p
  | none => []

/-- Queues reached by following edges, at most so many times. -/
def reachN (d : Dev) (b : List (Nat × List Wanted)) : Nat → List Nat → List Nat
  | 0, l => l
  | n + 1, l =>
    let l' := (l ++ (l.map (edgesOf d b)).flatten).eraseDups
    if l'.length = l.length then l else reachN d b n l'

/-- Queues that a queue reaches by one or more edges. -/
def reaches (d : Dev) (b : List (Nat × List Wanted)) (k : Nat) : List Nat := reachN d b b.length (edgesOf d b k).eraseDups

/-- The queues of cycles: each reaches itself (R225), in the order of their records (R357). -/
def deadlocked (d : Dev) (b : List (Nat × List Wanted)) : List Nat :=
  let ks := (b.map (·.1)).filter fun k => (reaches d b k).contains k
  let ctxOf (k : Nat) : Nat := (getQueue d (k / 32) (k % 32)).ctx
  (List.range 128).flatMap fun i => ks.filter fun k => k / 32 == i / 16 && ctxOf k == i % 16

/-- The record of one queue of a cycle (R225, R355). -/
def deadlockRec (d : Dev) (b : List (Nat × List Wanted)) (k : Nat) : FaultRec :=
  let set := (reaches d b k).filter fun j => (reaches d b j).contains k
  let ws := match b.find? fun e => e.1 == k with
    | some e => e.2
    | none => []
  let w := (ws.find? fun w => match producerNo d w with
    | some p => set.contains p
    | none => false).getD (0, 0, 0)
  let p := (producerNo d w).getD 0
  let detail := natLe 2 (w.2.1 + 2048 * w.1) ++ natLe 2 (p % 32 + 32 * (p / 32)) ++ natLe 4 w.2.2.toNat ++
    natLe 4 (getObj d w.1 w.2.1).value.toNat ++ natLe 1 set.length
  { recAt d (k / 32) .deadlock 2 with
    action := 1, context := some (getQueue d (k / 32) (k % 32)).ctx, queue := some (k % 32), detail := detail }

/-- A stream of a command's item is held in an HWAIT whose deadline has come (R221). -/
def hwaitDue (d : Dev) (id : Nat) : Bool :=
  !itemHalted d id && (itemStreams d id).any fun e => match (getStream d e.1 e.2).wait with
    | .hwait _ _ _ left => left == 0
    | _ => false

/-- A transfer of a command's has come to its deadline and is neither done nor faulted (R138, R171). -/
def relayDue (d : Dev) (id : Nat) : Bool :=
  d.xfers.any fun x => x.cmd == id && !x.fabric && x.left == 0 && x.fault.isNone && (!x.allDone || withheld d x)

/-- A rally step of a command's faults at this boundary: the coordinator's at its deadline, another member's two boundaries
after its report (R252). -/
def rallyDue (d : Dev) (id : Nat) : Bool :=
  d.steps.any fun s => s.cmd == id &&
    (match s.lateLeft with
     | some n => n == 0
     | none => s.left == 0 && (getGroup d s.slot).self == 0)

/-- A deadline of a context has expired at this boundary: a command's wait, a stream's, the slip bound, a Relay transfer's or a
rally step's. Its fault precedes the walk (R30, log 22). -/
def deadlineDue (d : Dev) (o c : Nat) : Bool :=
  (ctxCmds d o c).any fun x =>
    (x.waitLeft == some 0 && waitState d x == .held) || hwaitDue d x.id || relayDue d x.id || rallyDue d x.id ||
    ((x.phase == .selected || x.phase == .active) && !x.retired && d.tck.count ≥ endTick d x + 2 && !itemHalted d x.id)

/-- The walk: one record for each queue of a cycle, and every context that owns one is faulted with DEADLOCK (R225). -/
def umpireWalk (d : Dev) : Dev :=
  let b := (blockedQueues d).filter fun e => !deadlineDue d (e.1 / 32) (getQueue d (e.1 / 32) (e.1 % 32)).ctx
  let ks := deadlocked d b
  let recs := ks.map (deadlockRec d b)
  let d' := recs.foldl (fun d r => record r true d) d
  ks.foldl (fun x k =>
    let c := (getQueue d (k / 32) (k % 32)).ctx
    if (getCtx x (k / 32) c).state = .running then killCtx (k / 32) c .deadlock x else x) d'

/-! ## The Louvre's sample (R30, R402, R404, R430) -/

/-- Ticks of a Louvre interval (R315). -/
def louvreTicks (d : Dev) : Nat := (1000000 + d.tck.units.live * 16 - 1) / (d.tck.units.live * 16)

/-- The power sample of a tick: the estimator's, or the latest measured mean while DRIFT is set (R402, R404). -/
def louvreSample (env : TickEnv) (d : Dev) : Dev :=
  let p := d.pwr
  let sample := if p.drift then p.measured else env.estimateW
  let full := p.lvTicks ≥ louvreTicks d
  let total := (env.rails.map fun r => r.2.1).foldl (· + ·) 0
  { d with pwr := { p with
      rails := env.rails.foldl (fun t r => put (0, 0, 0) r.1 (r.2.1, r.2.2.1, r.2.2.2) t) p.rails
      measured := if env.rails.isEmpty then p.measured else total
      lvDone := if full then some (p.lvSum, p.lvHot) else p.lvDone
      lvSum := if full then sample else p.lvSum + sample
      lvHot := if full then none else p.lvHot
      lvTicks := if full then 1 else p.lvTicks + 1
      lvLast := sample } }

/-! ## TICK_BOUNDARY -/

/-- The steps of R30 that are no command of their own, in order. -/
def tickBoundary (env : TickEnv) (d : Dev) : Dev :=
  let d := revertPlans (cycleTicks (sysclkReturn (tickCount d)))
  let d := resetSkips (ageDeadlines d)
  louvreSample env (umpireWalk d)

/-- TICK_BOUNDARY (R30): the generator runs from TCK_CTRL.ENABLE on (R29). -/
def execTickBoundary (env : TickEnv) (s : State) : Host.Outcome State Fault Refusal :=
  .next { s with dev := settled (fun d => guarded (getBlk d 0x10000).enable (tickBoundary env) d) s.dev }

/-- Sets that flip: the generation of each rises (R146, R149). -/
def flipGens (p : BitVec 8) (t : Tbl Word) : Tbl Word := (members8 p).foldl (fun t v => alter 0 v (· + 1) t) t

/-- An octant's pending flip takes place (R149). -/
def flipOne (o : Nat) (d : Dev) : Dev :=
  let p := (getSeq d o).pendFlip
  setSeq o (fun s => { s with
    active := s.active ^^^ p, pendFlip := 0
    gen := flipGens p s.gen, flips := s.flips + BitVec.ofNat 32 (members8 p).length }) d

/-- The COMMITs of a partition whose flip was pending complete at its boundary (R149, R216). -/
def flipDone (o : Nat) (d : Dev) : Dev :=
  let ids := (getSeq d o).flipCmds
  ids.foldl (fun d id => match cmdById d id with
    | some c => finish id .done .ok (slotInfo c) false d
    | none => d) (setSeq o (fun s => { s with flipCmds := [] }) d)

/-- The version pointers of a partition flip, unless an L2 of it runs (R30, R149, R362). -/
def versionFlip (v : Nat) (d : Dev) : Dev :=
  let octs := members8 (getPart d v).octants
  if (getPart d v).live ∧ !has8 d.ump.l2 v ∧ octs.any (fun o => (getSeq d o).pendFlip != 0) then
    octs.foldl (fun d o => flipDone o d) (octs.foldl (fun d o => flipOne o d) d)
  else d

/-- VERSION_FLIP (R149). -/
def execVersionFlip (v : Fin 8) (s : State) : Host.Outcome State Fault Refusal :=
  .next { s with dev := settled (versionFlip v) s.dev }

end Sys2Proof.Machine
end

