-- ==== Sys2Proof/Machine/RallyEvents.lean ====
section
/-!
DEFINITION. The commands of Rally (10): links, groups, the retirement of steps, the packets that arrive at a port, and the
engine's timers.
-/
namespace Sys2Proof.Machine

/-! ## Links (R233) -/

/-- A half-port's link bit. -/
def setHalf (half : Nat) (b : Bool) (x : Port) : Port := if half = 0 then { x with half0 := b } else { x with half1 := b }

/-- The groups loaded on a port. -/
def portGroups (d : Dev) (p : Nat) : List Nat := ((List.range 8).map (8 * p + ·)).filter fun s => (getGroup d s).loaded

/-- A half loses its link: a port that was up goes down at once, and its groups fail with PORT_DOWN (R233, R254). -/
def halfDown (p half : Nat) (d : Dev) : Dev :=
  let was := (getPort d p).up
  let d := setPort p (fun x => { setHalf half false x with up := false, downs := if x.up then (x.downs + 1) % 65536 else x.downs }) d
  if was then (portGroups d p).foldl (fun d s => failGroup s .portDown (getGroup d s).self false d) d else d

/-- FAB_HALF_LINK_DOWN (R233). -/
def execFabHalfLinkDown (p : Fin 8) (half : Fin 2) (s : State) : Host.Outcome State Fault Refusal :=
  .next { s with dev := settled (halfDown p half) s.dev }

/-- FAB_HALF_LINK_UP (R233): the half has retrained; the port is up only with both. -/
def execFabHalfLinkUp (p : Fin 8) (half : Fin 2) (s : State) : Host.Outcome State Fault Refusal :=
  .next { s with dev := whenLive (setPort p (setHalf half true)) s.dev }

/-- The port returns to service when both halves have retrained (R233). -/
def portUp (p : Nat) (d : Dev) : Dev :=
  let x := getPort d p
  if x.half0 && x.half1 then setPort p (fun x => { x with up := true }) d else d

/-- FAB_PORT_UP (R233). -/
def execFabPortUp (p : Fin 8) (s : State) : Host.Outcome State Fault Refusal :=
  .next { s with dev := whenLive (portUp p) s.dev }

/-! ## Leases (R261 to R265) -/

/-- A LEASE packet to the switch (R262). -/
def sendLease (slot sub lease : Nat) (payload : List Byte) (d : Dev) : Dev :=
  sendRel slot switchNo (withPayload payload { basePkt (getGroup d slot) switchNo 4 sub 0 0 with lease := lease }) d

/-- The coordinator requests a lease: SLOTS_WANT and SLOTS_MIN are its own choice (free values, log 9); FROM is its highest
dispatched COLL_SEQ plus 8 (R263). -/
def requestLease (slot : Nat) (d : Dev) : Dev :=
  let g := getGroup d slot
  if g.self = 0 ∧ g.failed.isNone ∧ g.switchOk ∧ (getPort d (slot / 8)).rally ∧ g.lease.isNone ∧ !g.requested then
    let want := Config.freeNat d.free % 4096
    let min_ := Config.freeNat (d.free + 1) % (want + 1)
    let payload := natBe 2 (memberCount g) ++ natBe 2 want ++ natBe 2 min_ ++ natBe 4 ((g.lastDisp + 8) % 2 ^ 32)
    sendLease slot 1 0 payload (setGroup slot (fun g => { g with requested := true }) { d with free := d.free + 2 })
  else d

/-- The chunks of a leased step from one on run device-side: their first phase starts (R265). -/
def unitsToDevice (raw : List Byte) (cut : Nat) (st : RStep) (d : Dev) : Dev :=
  let moved := st.units.filter fun u => u.leased && !u.done && u.chunk ≥ cut
  moved.foldl (fun d u =>
    let u' := { u with leased := false, phase := 1, got := [] }
    let d := setUnit st.cmd u' d
    match stepOf d st.cmd with
    | some st' => sendPhase st' raw u' d
    | none => d) d

/-- A lease has expired at a chunk of a collective: what follows runs device-side until a new GRANT (R265). -/
def expireLease (slot lease seq chunk : Nat) (d : Dev) : Dev :=
  let g := getGroup d slot
  let cutOf (s : Nat) : Option Nat := if s = seq then some chunk else if s > seq then some 0 else none
  let mine (c : Coll) : Bool := c.lease.any (fun l => l.id == lease) && (cutOf c.seq).isSome
  let hit := g.colls.any mine
  let d := setGroup slot (fun g => { g with
    lease := g.lease.filter fun l => l.id != lease, requested := false, leaseReason := .leaseExpired
    colls := g.colls.map fun c => if mine c then { c with cut := cutOf c.seq, fallback := true } else c }) d
  let d := if hit then raiseFallback g.vf d else d
  (d.steps.filter fun s => s.slot == slot && (leaseOf d s).any fun l => l.id == lease).foldl (fun d s =>
    let raw := rawOf d s.cmd
    match cutOf (raSeq raw) with
    | none => d
    | some k => progressAll s.cmd (unitsToDevice raw k s d)) d

/-- A lease is treated as expired at the first chunk not completed of the oldest collective that runs on it (R343). -/
def dropLease (slot : Nat) (d : Dev) : Dev :=
  let g := getGroup d slot
  match g.lease with
  | none => d
  | some l =>
    expireLease slot l.id (((g.colls.filter fun c => c.lease == some l).map (·.seq)).foldl min g.lastDisp) 0 d

/-! ## Loading and unloading groups (R241, R242) -/

/-- The fields of a descriptor are in range, the reserved ones zero (R241). -/
def descOk (h : List Byte) (ms : List (List Byte)) : Bool :=
  let m := field h 6 2
  let party (e : List Byte) : Bool := byteAt e 0x12 < 16 || byteAt e 0x12 == 0xFF
  field h 0 4 == 1 && 1 ≤ m && m ≤ 4096 && field h 8 2 < m && byteAt h 0xA < 8 && byteAt h 0xB < 4 &&
  1 ≤ byteAt h 0xE && byteAt h 0xE ≤ 16 && byteAt h 0xF == 0 && 64 ≤ field h 0x10 4 && field h 0x10 4 ≤ 65536 &&
  allZero (slice h 0x14 12) && allZero (slice h 0x32 14) && ms.all fun e => party e && allZero (slice e 0x13 13)

/-- Staging that a group reserves, in bytes (R240). -/
def groupStaging (g : Group) : Nat := g.creditInit * 64 * memberCount g

/-- The group that a descriptor describes; under an ACTIVE charter in Porter-managed mode Porter gives ADMIT and K, and
SWITCH_PERMITTED only for an attested switch (R241, R261, R275). -/
def descGroup (d : Dev) (v : Nat) (h : List Byte) (ms : List (List Byte)) : Group :=
  let ch := getCharter d v
  let active := ch.state == .active
  let p := byteAt h 0xA
  let entry (e : List Byte) : Member :=
    { addr := BitVec.ofNat 128 (beNat (slice e 0 16)), udp := field e 0x10 2
      party := if byteAt e 0x12 < 16 then some (byteAt e 0x12) else none }
  let m := ms.length
  let init := field h 0x10 4
  let id := field h 4 2
  let self := field h 8 2
  let job := look [] (65536 * v + id) d.ptr.jobKeys
  let fresh (e : Nat) : Pair :=
    { Pair.zero with credit := init, key := pairKey job id self e 0, keyNext := pairKey job id self e 1 }
  let sw : BitVec 128 := BitVec.ofNat 128 (beNat (slice h 0x20 16))
  let ends := ((List.range m).filter (· != self)) ++ (if sw = 0 then [] else [switchNo])
  let porter := active && ch.switchPermitted && switchAttested d p
  { Group.zero with
    loaded := true, id := id, self := self, vf := v, jobKey := job
    switchOk := if porterManaged d then porter else bitAt (byteAt h 0xB) 0
    payload := if bitAt (byteAt h 0xB) 1 then 8192 else 4096
    admitMask := if porterManaged d && active then ch.rallyAdmit else BitVec.ofNat 16 (field h 0xC 2)
    k := if porterManaged d && active then ch.k else byteAt h 0xE
    creditInit := init, switchAddr := sw, switchPort := field h 0x30 2, members := ms.map entry
    pairs := ends.foldl (fun t e => put Pair.zero e (fresh e) t) [] }

/-- The bytes lie in memory of a partition, in however many regions (R242). -/
def spanOwned (d : Dev) (v pa n : Nat) : Bool :=
  (pagesOf (2 ^ 21) pa n).all fun i =>
    let lo := max pa (i * 2 ^ 21)
    let hi := min (pa + n) ((i + 1) * 2 ^ 21)
    hi ≤ 2 ^ 40 && sectionOwned d v lo (hi - lo)

/-- The load's refusals in the order of R242; NOT_READY without the job key (R342) and during an L2
(R366). -/
def loadRefusal (d : Dev) (pa : Nat) (h : List Byte) (ms : List (List Byte)) : Option Reason :=
  let p := byteAt h 0xA
  let v := (getSht d p).vf
  let g := descGroup d v h ms
  let there := (portGroups d p).map (getGroup d)
  let lines := (List.range ((32 * ms.length + 64 + 2 ^ 21 - 1) / 2 ^ 21 + 1)).map fun i => regionOf (pa + i * 2 ^ 21)
  if !descOk h ms then some .fieldRange
  else if (octVf d p).isNone ∨ !spanOwned d v pa (64 + 32 * ms.length) then some .notOwner
  else if look [] (65536 * v + g.id) d.ptr.jobKeys = [] ∨ has8 d.ump.l2 v then some .notReady
  else if there.any (fun x => x.id == g.id) ∨ there.length ≥ 8 ∨
      (there.map memberCount).foldl (· + ·) (memberCount g) > 4096 ∨
      (there.map groupStaging).foldl (· + ·) (groupStaging g) > 33554432 then some .fieldConflict
  else if lines.any fun r => r / 65536 == pa / 2 ^ 37 && pa ≤ regionBase r + 2 ^ 21 - 1 &&
      regionBase r < pa + 64 + 32 * ms.length && (getRegion d r).label != 0 then some .labelDenied
  else none

/-- The descriptor at RLY_GBASE read by the Rally engine: its header and its member entries (R241, R242). -/
def readDesc (pa : Nat) (ev : LineEvent) (d : Dev) : HbmResult (List Byte × List (List Byte)) × Dev :=
  if !hbmPresent pa then (.error (.notOwner, []), d)
  else match hbmRead rallyRequester pa 64 ev d with
    | (.error e, d) => (.error e, d)
    | (.ok h, d) =>
      let m := field h 6 2
      if m = 0 ∨ m > 4096 then (.ok (h, []), d)
      else if !hbmPresent (pa + 64 + 32 * m - 1) then (.error (.notOwner, []), d)
      else match hbmRead rallyRequester (pa + 64) (32 * m) ev d with
        | (.error e, d) => (.error e, d)
        | (.ok bs, d) => (.ok (h, groupsOf 32 m bs), d)

def setResult (r : Reason) (d : Dev) : Dev := { d with rly := { d.rly with gresult := r } }

/-- LOAD (R241 to R244): the outcome, and the group in the port's first free slot. -/
def groupLoad (ev : LineEvent) (d : Dev) : Reason × Dev :=
  let pa := d.rly.gbase * 64
  match readDesc pa ev d with
  | (.error e, d) => (e.1, if live d then setResult e.1 d else d)
  | (.ok (h, ms), d) =>
    match loadRefusal d pa h ms with
    | some r => (r, setResult r d)
    | none =>
      let p := byteAt h 0xA
      match ((List.range 8).map (8 * p + ·)).find? fun s => !(getGroup d s).loaded with
      | none => (.fieldConflict, setResult .fieldConflict d)
      | some slot =>
        let g := descGroup d (getSht d p).vf h ms
        (.ok, requestLease slot (sendPairKeys slot (setResult .ok (setGroup slot (fun _ => g) d))))

/-- Some accepted RALLY command names a group (R242). -/
def groupNamed (d : Dev) (p id : Nat) : Bool :=
  d.cmds.any fun c => c.oct == p && cmdOpcode c.raw == 5 && raGroup c.raw == id

/-- A loaded group leaves its slot; its coordinator gives back the lease it holds, and a COMMIT that it has voted ends (R147,
R242, R263). -/
def unloadSlot (s : Nat) (d : Dev) : Dev :=
  let d := endVote s d
  let d := if (getGroup d s).lease.isSome ∧ (getGroup d s).self = 0 then
      sendLease s 5 (((getGroup d s).lease.map (·.id)).getD 0) [] d else d
  setGroup s (fun _ => Group.zero) d

/-- UNLOAD (R242): a group that is not loaded is out of range. -/
def groupUnload (p id : Nat) (d : Dev) : Reason × Dev :=
  match findGroup d p id with
  | none => (.fieldRange, setResult .fieldRange d)
  | some s =>
    if groupNamed d p id then (.busyUpdate, setResult .busyUpdate d)
    else (.ok, setResult .ok (unloadSlot s d))

/-- RLY_GCMD is written by the holder of management; another host write is dropped and logged (R241). -/
def groupCommand (i : Issuer) (f : Dev → Reason × Dev) (d : Dev) : Dev :=
  match i with
  | .host fn => if fn ≠ .pf ∨ porterManaged d then dropLog fn .notOwner (fieldIdOf 0x208 0) (rlyBase + 0x208) true d else (f d).2
  | .porter => if porterManaged d then (f d).2 else d

/-- GROUP_LOAD (R242). -/
def execGroupLoad (by_ : Issuer) (ev : LineEvent) (s : State) : Host.Outcome State Fault Refusal :=
  .next { s with dev := whenIssuer by_ (onBar (groupCommand by_ (groupLoad ev))) s.dev }

/-- GROUP_UNLOAD (R242). -/
def execGroupUnload (by_ : Issuer) (p : Fin 8) (group : Nat) (s : State) : Host.Outcome State Fault Refusal :=
  .next { s with dev := whenIssuer by_ (onBar (groupCommand by_ (groupUnload p group))) s.dev }

/-! ## Release and retirement of steps (R141, R247, R248, R251, R260) -/

/-- A held first step is free once collective n − 4 has completed (R247). -/
def releaseStep (id : Nat) (d : Dev) : Dev :=
  match cmdById d id with
  | some c => if c.limitHeld && !limitHolds d c.oct c.raw then setCmd id (fun x => { x with limitHeld := false }) d else d
  | none => d

/-- RALLY_STEP_RELEASE (R247). -/
def execRallyStepRelease (cmd : Nat) (ev : LineEvent) (s : State) : Host.Outcome State Fault Refusal :=
  .next { s with dev := meeting ev (settled (releaseStep cmd)) s.dev }

/-- Members that have not acknowledged a reliable packet of a step. -/
def owing (d : Dev) (slot : Nat) (raw : List Byte) : List Nat :=
  let mine (p : Packet) : Bool := p.collSeq == raSeq raw && p.step == raStep raw
  ((getGroup d slot).pairs.filter fun e => (e.2.unacked.map (·.pkt) ++ e.2.held).any mine).map (·.1)

/-- Every condition of a step's retirement holds (R149, R248, R269). -/
def mayRetire (d : Dev) (st : RStep) (raw : List Byte) : Bool :=
  let g := getGroup d st.slot
  if raColl raw = 6 then
    if raStep raw = 0 then
      if g.self = 0 then (List.range (memberCount g)).all fun i => (votesOf g (raSeq raw)).any fun v => v.1 == i
      else (owing d st.slot raw).isEmpty
    else (decisionOf g (raSeq raw)).isSome
  else st.units.all (·.done) && (owing d st.slot raw).isEmpty

/-- The drop report of an all-to-all (R268). -/
def dropReport (m : Nat) (rows : Tbl (Nat × Nat)) : List Byte :=
  let row (s : Nat) : Nat × Nat := look (0, 0) s rows
  let body := ((List.range m).map fun s => natLe 4 (row s).1 ++ natLe 4 (row s).2).flatten
  let map_ := (List.range ((m + 63) / 64 * 8)).map fun i =>
    (List.range 8).foldl (fun (b : Byte) j =>
      if (row (8 * i + j)).2 ≠ 0 then b ||| BitVec.ofNat 8 (2 ^ j) else b) 0
  body ++ map_

/-- Planes of a collective: those of its commands and the octant's own. -/
def planesOf (c : Coll) (o : Nat) : List Nat := (List.range 8).filter fun p => bitAt c.planes p || p == o

/-- The collective's record on another plane of the partition. -/
def planeColl (d : Dev) (vf seq p : Nat) : Option (Nat × Coll) :=
  ((List.range 8).map (8 * p + ·)).findSome? fun s =>
    let g := getGroup d s
    if g.loaded ∧ g.failed.isNone ∧ g.vf = vf then (getColl d s seq).map fun c => (s, c) else none

/-- FLAGS of the summary (R141). -/
def summaryFlags (l : List Coll) : Nat :=
  b2n (l.any fun c => !c.flagged.isEmpty) + 2 * b2n (l.any (·.capDrop)) + 4 * b2n (l.any (·.fallback)) + 8 * b2n (l.any (·.unmet))

/-- The merged summary (R141, R260). -/
def summaryOf (seq : Nat) (l : List Coll) : List Byte :=
  let n := (l.map (·.chunks)).foldl (· + ·) 0
  let m := (l.map (·.minContrib)).foldl min 0xFFFF
  natLe 4 (summaryFlags l) ++ natLe 2 (if n = 0 then 0 else m) ++ natLe 2 n ++ natLe 4 seq ++ natLe 4 0

/-- The coordinator keeps the arrivals of the last eight collectives: a member that is late in one may be named after the
coordinator's own has completed (R247, R252). -/
def recentArrivals (seq : Nat) (l : List (Nat × Nat × Nat)) : List (Nat × Nat × Nat) :=
  l.filter fun a => (seq + 2 ^ 32 - a.1) % 2 ^ 32 < 8 || 2 ^ 31 ≤ (seq + 2 ^ 32 - a.1) % 2 ^ 32

/-- One plane's LAST command ends: the summary is at its SUMMARY_ADDR, the collective has completed (R251, R260). -/
def endPlane (seq : Nat) (sum : List Byte) (l : Label) (r : Reason) (e : Nat × Coll) (d : Dev) : Dev :=
  match e.2.lastCmd with
  | none => d
  | some id =>
    let a := raSummary (rawOf d id)
    let d := { d with
      cmem := writeBytes d.cmem a sum
      cmemLabel := (pagesOf 65536 a 16).foldl (fun t p => alter 0 p (· ||| l) t) d.cmemLabel }
    let d := setGroup e.1 (fun g => { g with
      lastSeq := seq, colls := g.colls.filter fun c => c.seq != seq
      arrived := recentArrivals seq g.arrived }) d
    match cmdById d id with
    | some c => match c.errEnd with
      | some k => finish id .faulted k (slotInfo c) false d
      | none => finish id .done r (slotInfo c) false d
    | none => d

/-- The non-finite objects of the contexts of a collective's planes, each once (R141). -/
def nfObjects (d : Dev) (l : List (Nat × Coll)) : List Nat :=
  (l.filterMap fun e => (e.2.lastCmd.bind (cmdById d)).map fun c => (getCtx d c.oct c.ctx).nfObj).eraseDups

/-- The collective has completed on every plane. The NONFINITE bit of a labelled result exists in its summary alone (R141,
R251, R260, R285). -/
def endCollective (seq : Nat) (l : List (Nat × Coll)) (d : Dev) : Dev :=
  let cs := l.map (·.2)
  let lab := unionAll (cs.map (·.label))
  let open_ := cs.any (fun c => !c.flagged.isEmpty) && lab == 0
  let r := doneReason open_ (cs.any (·.unmet)) (cs.any (·.capDrop))
  let objs := if open_ then nfObjects d l else []
  let d := l.foldl (fun d e => endPlane seq (summaryOf seq cs) lab r e d) d
  objs.foldl (fun d n => signal { octant := objOct n, obj := objIx n, incr := 1, err := none } d) d

/-- LAST commands of a collective, one of which names the other's plane, carry the same PLANES (R251). -/
def planesAgree (d : Dev) (slot : Nat) (c : Coll) : Bool :=
  let g := getGroup d slot
  ((List.range 8).filterMap fun p => planeColl d g.vf c.seq p).all fun e =>
    e.2.lastCmd.isNone || e.1 == slot || !(bitAt c.planes (e.1 / 8) || bitAt e.2.planes (slot / 8)) ||
      planesOf e.2 (e.1 / 8) == planesOf c (slot / 8)

/-- A LAST step has retired: it waits for the other planes, whose PLANES must agree (R251). -/
def joinPlanes (slot seq : Nat) (d : Dev) : Dev :=
  let g := getGroup d slot
  match getColl d slot seq with
  | none => d
  | some c =>
    let all := (planesOf c (slot / 8)).map fun p => planeColl d g.vf seq p
    let there := all.filterMap id
    if !planesAgree d slot c then failLocal slot .fieldConflict d
    else if all.all (·.isSome) && there.all fun e => e.2.lastCmd.isSome then
      if !admitted (unionAll (there.map (·.2.label))) (onDieAdmit d g.vf) then failLocal slot .labelDenied d
      else endCollective seq there d
    else d

/-- A LAST step of a collective other than COMMIT (R248, R251, R268). -/
def retireLast (st : RStep) (raw : List Byte) (d : Dev) : Dev :=
  let g := getGroup d st.slot
  let rows := match getColl d st.slot (raSeq raw) with
    | some c => (c.rows, c.label)
    | none => ([], 0)
  let w := if raColl raw = 5 then
      rallyWrite (st.slot / 8) g.vf (raKind raw false) st.maps (raDrop raw) (dropReport (memberCount g) rows.1) rows.2 d
    else (.ok (), d)
  match w with
  | (.error e, d) => stepFault st e d
  | (.ok _, d) =>
    let d := retireItem st.cmd (dropStep st.cmd d)
    joinPlanes st.slot (raSeq raw) (setColl st.slot (raSeq raw) (fun c => { c with lastCmd := some st.cmd }) d)

/-- The second step of a COMMIT: the flip is pending until the boundary, or nothing flips (R149, R151, R251). -/
def retireCommit (c : Cmd) (st : RStep) (code : Nat) (d : Dev) : Dev :=
  let raw := c.raw
  let octs := members8 (octPart d c.oct)
  let d := retireItem c.id (dropStep c.id d)
  let d := setGroup st.slot (fun g => { g with
    lastSeq := raSeq raw, colls := g.colls.filter fun x => x.seq != raSeq raw
    votes := g.votes.filter fun x => x.1 != raSeq raw, arrived := recentArrivals (raSeq raw) g.arrived }) d
  if code = 0 then
    let d := setGroup st.slot (fun g => { g with voting := none }) d
    let d := octs.foldl (fun d o => setSeq o (fun s => { s with pendFlip := s.pendFlip ||| raVsets raw }) d)
      (markVoted c.oct (raVsets raw) false d)
    setSeq c.oct (fun s => { s with flipCmds := s.flipCmds ++ [c.id] }) d
  else finish c.id .done .nonfinite (slotInfo c) false (endCommit c.oct raw d)

/-- A step retires (R248). -/
def retireStep (id : Nat) (d : Dev) : Dev :=
  match stepOf d id, cmdById d id with
  | some st, some c =>
    if !mayRetire d st c.raw then d
    else if raColl c.raw = 6 ∧ raStep c.raw = 1 then
      retireCommit c st ((decisionOf (getGroup d st.slot) (raSeq c.raw)).getD 0) d
    else if raLast c.raw ∧ raColl c.raw ≠ 6 then retireLast st c.raw d
    else finish id .done .ok (slotInfo c) false (retireItem id (dropStep id d))
  | _, _ => d

/-- RALLY_STEP_RETIRE (R248). -/
def execRallyStepRetire (cmd : Nat) (ev : LineEvent) (s : State) : Host.Outcome State Fault Refusal :=
  .next { s with dev := meeting ev (settled (retireStep cmd)) s.dev }

/-! ## Reception (R238, R239) -/

/-- The pair moves to the epoch of a packet that carries the next one (R237). -/
def pairEpoch (g : Group) (m ep : Nat) (x : Pair) : Pair := if ep = x.epoch % 65536 then x else nextEpoch g m x

/-- The key of a packet's epoch: the current one or the next (R237). -/
def epochKey (ep : Nat) (x : Pair) : BitVec 256 := if ep = x.epoch % 65536 then x.key else x.keyNext

/-- A PSN at or below the highest minus 64, or one already marked (R238). -/
def replayed (x : Pair) (p : Packet) : Bool :=
  let high := if p.unreliable then x.rxUHigh else x.rxHigh
  let seen := if p.unreliable then x.rxUSeen else x.rxSeen
  p.psn + 65 ≤ high || seen.contains p.psn

/-- The next PSN of which one is missing, counting on over those marked, at most so many. -/
def nextMissing (seen : List Nat) : Nat → Nat → Nat
  | 0, n => n
  | k + 1, n => if seen.contains n then nextMissing seen k (n + 1) else n

/-- A packet accepted: its PSN is marked, and its sender has been heard (R238, R239, R254). -/
def markPsn (p : Packet) (x : Pair) : Pair :=
  let x := { x with heard := true }
  if p.unreliable then
    let high := max x.rxUHigh (p.psn + 1)
    { x with rxUHigh := high, rxUSeen := (p.psn :: x.rxUSeen).filter fun n => n + 64 ≥ high }
  else
    let high := max x.rxHigh (p.psn + 1)
    let seen := (p.psn :: x.rxSeen).filter fun n => n + 64 ≥ high
    { x with rxHigh := high, rxSeen := seen, rxNext := nextMissing seen 65 x.rxNext, toAck := x.toAck + 1 }

/-- Counts of dropped packets (R238). -/
def countDrop (p : Nat) (f : Port → Port) (d : Dev) : Dev := setPort p f d
def dropBadFrame (x : Port) : Port := { x with dropBad := satAdd 0xFFFF x.dropBad 1 }
def dropUnknownPkt (x : Port) : Port := { x with dropUnknown := satAdd 0xFFFF x.dropUnknown 1 }
def dropAuthPkt (x : Port) : Port := { x with dropAuth := satAdd 0xFFFFFFFF x.dropAuth 1 }
def dropReplayPkt (x : Port) : Port := { x with dropReplay := satAdd 0xFFFFFFFF x.dropReplay 1 }
def dropStalePkt (x : Port) : Port := { x with dropStale := satAdd 0xFFFFFFFF x.dropStale 1 }

/-- An ACK: CUM_PSN, SACK and CREDIT_LIMIT (R239), in network order, as HEARTBEAT and LEASE payloads are (DESIGN CHOICE,
log 82). -/
def ackPayload (x : Pair) (init : Nat) : List Byte :=
  let sack := (List.range 64).foldl (fun n i => if x.rxSeen.contains (x.rxNext + i) then n + 2 ^ i else n) 0
  natBe 4 (x.rxNext + 2 ^ 32 - 1) ++ natBe 8 sack ++ natBe 4 (x.drained + init)

def sendAck (slot m : Nat) (d : Dev) : Dev :=
  let g := getGroup d slot
  sendUnrel slot m (withPayload (ackPayload (getPair g m) g.creditInit) (basePkt g m 2 0 0 0))
    (setPair slot m (fun x => { x with toAck := 0 }) d)

/-- The ends of a packet are the group's: to this member, from another member or from the group's switch, in an epoch of the
pair (R238). -/
def endsOk (g : Group) (p : Packet) : Bool :=
  let x := getPair g p.src
  p.dst == g.self && p.src != g.self &&
  (p.src < memberCount g || (p.src == switchNo && g.switchAddr != 0)) &&
  (p.epoch == x.epoch % 65536 || p.epoch == (x.epoch + 1) % 65536)

/-- The packet of a frame, opened under its pair's key of its epoch (R236). -/
def packetOf (d : Dev) (slot : Nat) (f : Frame) : Packet :=
  let p := headPacket f.head []
  openPacket (epochKey p.epoch (getPair (getGroup d slot) p.src)) f

/-- The tag of a frame verifies under its pair's key of its epoch (R236, R238). -/
def tagOk (d : Dev) (slot : Nat) (f : Frame) : Bool :=
  let p := headPacket f.head []
  tagVerifies (epochKey p.epoch (getPair (getGroup d slot) p.src)) f

/-- The frame is addressed to the port, and its checksum is right (R232, R238). -/
def addressed (d : Dev) (f : Frame) : Bool :=
  let x := getPort d f.port
  f.addr == BitVec.ofNat 128 (x.ipHi.toNat * 2 ^ 64 + x.ipLo.toNat) && f.udp == d.rly.udpPort && f.sumOk

/-- Payload that does not wait in staging is drained as it is taken (R239, R240). -/
def markPayload (stages : Bool) (p : Packet) (x : Pair) : Pair :=
  if stages then { x with staged := x.staged + pktUnits p }
  else if p.unreliable then x
  else { x with drained := x.drained + pktUnits p }

/-- The receive checks of R238 in their order; a packet that passes them is marked, counted for its ACK and acted on.
`belongs` is check 6, `stages` whether the payload waits in the pair's staging (R240). -/
def receive (f : Frame) (belongs : Dev → Nat → Packet → Bool) (stages : Bool) (act : Nat → Packet → Dev → Dev)
    (d : Dev) : Dev :=
  let p := headPacket f.head []
  let port := f.port.val
  if f.pause ∨ !(getPort d port).up then d
  else if !addressed d f then countDrop port dropBadFrame d
  else if !headOk f.head ∨ f.rest.length < p.len + 16 then countDrop port dropUnknownPkt d
  else match findGroup d port p.group with
    | none => countDrop port dropUnknownPkt d
    | some slot =>
      let g := getGroup d slot
      if p.len > g.payload ∨ !endsOk g p then countDrop port dropUnknownPkt d
      else if !tagOk d slot f then countDrop port dropAuthPkt d
      else
        let x := pairEpoch g p.src p.epoch (getPair g p.src)
        if replayed x p then countDrop port dropReplayPkt d
        else
          let p := packetOf d slot f
          if g.failed.isSome ∨ !belongs d slot p ∨ (stages ∧ x.staged + pktUnits p > g.creditInit) then
            countDrop port dropStalePkt d
          else
            let d := act slot p (movedOn slot p.src (getPair g p.src).epoch
              (setPair slot p.src (fun _ => markPayload stages p (markPsn p x)) d))
            if (getPair (getGroup d slot) p.src).toAck ≥ 8 ∧ (getGroup d slot).failed.isNone then sendAck slot p.src d else d

/-- The frame is one of a row's: its type and, for CTRL and LEASE, its subtype. -/
def ofRow (f : Frame) (typ : Nat) (sub : Option Nat) : Bool := f.typ == typ && (match sub with
  | none => true
  | some s => f.sub == s)

/-- A frame of a row is received. -/
def receiveRow (f : Frame) (typ : Nat) (sub : Option Nat) (belongs : Dev → Nat → Packet → Bool)
    (act : Nat → Packet → Dev → Dev) (d : Dev) : Dev := guarded (ofRow f typ sub) (receive f belongs false act) d

/-- A step of the packet's collective and number is in flight on the group. -/
def stepOfPkt (d : Dev) (slot : Nat) (p : Packet) : Option RStep :=
  d.steps.find? fun s => s.slot == slot && raSeq (rawOf d s.cmd) == p.collSeq && raStep (rawOf d s.cmd) == p.step

/-- Data has come for a step whose delivery is parked (R169, R170). -/
def answerParked (id : Nat) (d : Dev) : Dev :=
  { d with xfers := d.xfers.map fun x => if x.fabric && x.cmd == id && x.partl then { x with answered := true } else x }

/-- Payload taken into a step, which moves on (R240, R247). -/
def takeData (slot : Nat) (p : Packet) (d : Dev) : Dev :=
  match stepOfPkt d slot p with
  | none => d
  | some st =>
    let e : Piece :=
      { phase := p.sub, chunk := p.chunk, src := p.src, off := p.offset, bytes := p.payload, contrib := p.contrib
        parties := p.parties, label := p.label, nonfinite := p.nonfinite, capDrop := p.capDrop, last := p.last
        arg := p.arg }
    progressAll st.cmd (answerParked st.cmd (setStep st.cmd (fun s => { s with pieces := s.pieces ++ [e] }) d))

/-- DATA of a step in flight; a CONTRIB, which only the switch takes in, belongs to no step of a member (R238, R264). -/
def dataBelongs (d : Dev) (slot : Nat) (p : Packet) : Bool := p.typ == 1 && (stepOfPkt d slot p).isSome

/-- DATA, and a CONTRIB that comes to a member (R238, R247, R257). -/
def receiveData (f : Frame) (d : Dev) : Dev :=
  guarded (f.typ == 1 || f.typ == 5) (receive f dataBelongs true takeData) d

def execData (f : Frame) (s : State) : Host.Outcome State Fault Refusal :=
  .next { s with dev := meeting f.ev (settled (receiveData f)) s.dev }

/-- A RESULT belongs to a step with a leased chunk in the switch. -/
def resultBelongs (d : Dev) (slot : Nat) (p : Packet) : Bool :=
  p.src == switchNo && (match stepOfPkt d slot p with
    | some st => st.units.any fun u => u.leased && !u.done && u.chunk == p.chunk
    | none => false)

/-- RESULT (R255, R258, R264). -/
def execResult (f : Frame) (s : State) : Host.Outcome State Fault Refusal :=
  .next { s with dev := meeting f.ev (settled (guarded (f.typ == 6) (receive f resultBelongs true takeData))) s.dev }

/-- What an ACK acknowledges: every PSN up to CUM_PSN, and those that SACK marks (R239). -/
def acked (p : Packet) (psn : Nat) : Bool :=
  let cum := beNat (slice p.payload 0 4)
  let sack := beNat (slice p.payload 4 8)
  let next := (cum + 1) % 2 ^ 32
  psn < next || (next ≤ psn && psn < next + 64 && bitAt sack (psn - next))

/-- An ACK is applied: acknowledged packets leave, those missing below the highest acknowledged PSN are resent at once, and
credit moves on (R239). -/
def takeAck (slot : Nat) (p : Packet) (d : Dev) : Dev :=
  let m := p.src
  let x := getPair (getGroup d slot) m
  let hit (q : Sent) : Bool := q.pkt.epoch == p.epoch && acked p q.pkt.psn
  let high := ((x.unacked.filter hit).map (·.pkt.psn)).foldl max 0
  let left := x.unacked.filter fun q => !hit q
  let again := left.filter fun q => q.pkt.epoch == p.epoch && q.pkt.psn < high
  let limit := beNat (slice p.payload 12 4)
  let delta := (limit + 2 ^ 32 - x.credit % 2 ^ 32) % 2 ^ 32
  let credit := if delta < 2 ^ 31 then x.credit + delta else x.credit - (2 ^ 32 - delta)
  let d := setPair slot m (fun x => { x with unacked := left, credit := credit }) d
  releaseHeld slot m (x.held.length + 1) (again.foldl (fun d q => transmit slot q d) d)

/-- ACK (R239). -/
def execAck (f : Frame) (s : State) : Host.Outcome State Fault Refusal :=
  .next { s with dev := settled (receiveRow f 2 none (fun _ _ p => p.len == 16) takeAck) s.dev }

/-! ## Lateness (R252) -/

/-- The coordinator lacks an ARRIVE for a step from these members. -/
def notArrived (g : Group) (seq step : Nat) : List Nat :=
  (List.range (memberCount g)).filter fun i => !g.arrived.contains (seq, step, i)

/-- The oldest leased chunk of a collective's step that is not complete. -/
def oldestLeased (d : Dev) (slot seq step : Nat) : Option (Nat × Nat) :=
  match d.steps.find? fun s => s.slot == slot && raSeq (rawOf d s.cmd) == seq && raStep (rawOf d s.cmd) == step with
  | none => none
  | some st => (st.units.find? fun u => u.leased && !u.done).map fun u => (u.chunk, st.cmd)

/-- The coordinator names the late member of a step, given the member that the first report names (R252). -/
def nameLate (slot seq step report : Nat) (boundary : Bool) (d : Dev) : Dev :=
  let g := getGroup d slot
  if g.query.isSome then d
  else match notArrived g seq step with
    | m :: _ => abortAll slot m boundary d
    | [] =>
      match oldestLeased d slot seq step with
      | some (chunk, cmd) =>
        sendLease slot 8 ((g.lease.map (·.id)).getD 0) (natBe 4 seq ++ natBe 4 chunk)
          (setGroup slot (fun g => { g with query := some (seq, chunk, cmd) }) d)
      | none => abortAll slot report boundary d

/-- The members from which a chunk's present and later phases of the step take data (R252). -/
def phaseSources (raw : List Byte) (g : Group) (u : RUnit) : List Nat :=
  (List.range (lastPhase raw (memberCount g) + 1 - u.phase)).filterMap fun i => (phaseIo raw g (u.phase + i)).src

/-- The lowest-numbered member whose data a step still lacks; 0xFFFF while a leased chunk is missing (R252). -/
def lacking (d : Dev) (st : RStep) (raw : List Byte) : Nat :=
  let g := getGroup d st.slot
  let m := memberCount g
  let open_ := st.units.filter fun u => !u.done
  let srcs := if raColl raw = 5 then open_.map fun u => a2aSrc g u.chunk else open_.flatMap (phaseSources raw g)
  let votes := (List.range m).filter fun i => !(votesOf g (raSeq raw)).any fun v => v.1 == i
  if raColl raw = 6 then
    if raStep raw = 1 ∨ g.self ≠ 0 then 0 else (votes.head?).getD 0
  else if open_.any (·.leased) then switchNo
  else match srcs ++ (if open_.isEmpty then owing d st.slot raw else []) with
    | [] => g.self
    | l => l.foldl min switchNo

/-- A late step reports to the coordinator, or the coordinator decides (R252). -/
def rallyLate (st : RStep) (d : Dev) : Dev :=
  let raw := rawOf d st.cmd
  let m := lacking d st raw
  if (getGroup d st.slot).self = 0 then
    nameLate st.slot (raSeq raw) (raStep raw) m true (setStep st.cmd (fun s => { s with lateLeft := some 2 }) d)
  else sendCtrl st.slot 0 2 (raSeq raw) (raStep raw) m (setStep st.cmd (fun s => { s with lateLeft := some 2 }) d)

/-- RLY_DEADLINE_EXPIRY's effect (R252). -/
def rallyDeadline (id : Nat) (d : Dev) : Dev :=
  match stepOf d id with
  | some st => if st.left = 0 ∧ st.lateLeft.isNone then rallyLate st d else d
  | none => d

/-- RLY_DEADLINE_EXPIRY (R252). -/
def execRlyDeadlineExpiry (cmd : Nat) (s : State) : Host.Outcome State Fault Refusal :=
  .next { s with dev := settled (rallyDeadline cmd) s.dev }

/-- A rally step whose fabric delivery reaches RLE_DEADLINE: it is late as if at its own deadline (R171, R250). -/
def deliveryExpiry (o e : Nat) (seq : Word) (d : Dev) : Dev :=
  match findXfer d o e seq with
  | none => d
  | some x =>
    if !x.fabric then rleExpiry o e seq d
    else match stepOf d x.cmd with
    | some st => if x.left = 0 ∧ st.lateLeft.isNone then rallyLate st d else d
    | none => d

/-- RLE_DEADLINE_EXPIRY (R171, R250). -/
def execRleDeadlineExpiry (o : Fin 8) (e : Fin 2) (seq : Word) (s : State) : Host.Outcome State Fault Refusal :=
  .next { s with dev := settled (deliveryExpiry o e seq) s.dev }

/-- A member with no ABORT at the second boundary after its LATE names the coordinator (R252). -/
def abortWait (id : Nat) (d : Dev) : Dev :=
  match stepOf d id with
  | some st =>
    if st.lateLeft = some 0 ∧ (getGroup d st.slot).self ≠ 0 then abortAll st.slot 0 true d else d
  | none => d

/-- ABORT_WAIT_EXPIRY (R252). -/
def execAbortWaitExpiry (cmd : Nat) (s : State) : Host.Outcome State Fault Refusal :=
  .next { s with dev := settled (abortWait cmd) s.dev }

/-- No MISSING answer has come: the switch is named (R252). -/
def queryTimeout (id : Nat) (d : Dev) : Dev :=
  match (List.range 64).find? fun s => (getGroup d s).query.any fun q => q.2.2 == id with
  | some slot => abortAll slot switchNo false d
  | none => d

/-- QUERY_TIMEOUT (R252). -/
def execQueryTimeout (cmd : Nat) (s : State) : Host.Outcome State Fault Refusal :=
  .next { s with dev := settled (queryTimeout cmd) s.dev }

/-! ## CTRL packets -/

/-- A CTRL packet of a live group from a member. -/
def fromMember (_d : Dev) (_slot : Nat) (p : Packet) : Bool := p.src != switchNo

/-- A LEASE packet of a live group from its switch, of which the group may hold leases (R261, R262). -/
def fromSwitch (d : Dev) (slot : Nat) (p : Packet) : Bool :=
  p.src == switchNo && (getGroup d slot).switchOk && (getPort d (slot / 8)).rally

/-- The coordinator records an arrival (R248, R252). -/
def takeArrive (slot : Nat) (p : Packet) (d : Dev) : Dev :=
  let g := getGroup d slot
  if g.self ≠ 0 ∨ g.arrived.contains (p.collSeq, p.step, p.src) then d
  else setGroup slot (fun g => { g with arrived := (p.collSeq, p.step, p.src) :: g.arrived }) d

/-- ARRIVE (R252). -/
def execArrive (f : Frame) (s : State) : Host.Outcome State Fault Refusal :=
  .next { s with dev := settled (receiveRow f 3 (some 1) fromMember takeArrive) s.dev }

/-- The first LATE report that the coordinator receives (R252). -/
def takeLate (slot : Nat) (p : Packet) (d : Dev) : Dev :=
  if (getGroup d slot).self = 0 then nameLate slot p.collSeq p.step (p.arg % 65536) false d else d

/-- LATE (R252). -/
def execLate (f : Frame) (s : State) : Host.Outcome State Fault Refusal :=
  .next { s with dev := settled (receiveRow f 3 (some 2) fromMember takeLate) s.dev }

/-- ABORT (R252, R253): the member that it carries is named. -/
def execAbort (f : Frame) (s : State) : Host.Outcome State Fault Refusal :=
  .next { s with dev := settled (receiveRow f 3 (some 3) fromMember
    fun slot p d => failGroup slot (reasonOfCode (p.arg % 256)) (p.arg / 256 % 65536) false d) s.dev }

/-- LOST (R254): the lost member is named. -/
def execLost (f : Frame) (s : State) : Host.Outcome State Fault Refusal :=
  .next { s with dev := settled (receiveRow f 3 (some 4) fromMember
    fun slot p d => failGroup slot .memberLost (p.arg % 65536) false d) s.dev }

/-- A HEARTBEAT of this member: TCK_COUNT and the ns since its boundary (R244). -/
def beatPkt (d : Dev) (slot m : Nat) : Packet :=
  withPayload (natBe 8 d.tck.count ++ natBe 8 (offsetNs d)) (basePkt (getGroup d slot) m 3 5 0 0)

/-- An offset in 10 ns units reduced to −P/2 to +P/2 (R244). -/
def reducePhase (p x : Int) : Int :=
  let r := x % p
  if 2 * r > p then r - p else r

/-- A HEARTBEAT: the coordinator answers it at once; the answer to this member's own gives its phase, exact in the model's time
units and truncated toward zero to units of 10 ns; P is the tick period without hold (R244, R428). -/
def takeBeat (slot : Nat) (p : Packet) (d : Dev) : Dev :=
  let g := getGroup d slot
  if g.self = 0 then sendUnrel slot p.src (beatPkt d slot p.src) d
  else if p.src ≠ 0 then d
  else match g.hbSent with
    | none => d
    | some t =>
      let transit : Int := ((d.tck.now - t : Nat) : Int)
      let theirs : Int := (beNat (slice p.payload 8 8) * nsUnits : Nat)
      let mine : Int := (d.tck.now - d.tck.start : Nat)
      let period : Int := (d.tck.units.live * 16000 * nsUnits : Nat)
      let phase2 := reducePhase (2 * period) (2 * theirs + transit - 2 * mine)
      setGroup slot (fun g => { g with hbSent := none, offset := phase2.tdiv (20 * nsUnits : Nat) }) d

/-- HEARTBEAT (R244). -/
def execHeartbeat (f : Frame) (s : State) : Host.Outcome State Fault Refusal :=
  .next { s with dev := settled (receiveRow f 3 (some 5) fromMember takeBeat) s.dev }

/-- A vote recorded by the coordinator (R149, R269). -/
def takeVote (slot : Nat) (p : Packet) (d : Dev) : Dev :=
  let g := getGroup d slot
  let gens := (List.range 8).map fun i => (BitVec.ofNat 32 (field p.payload (4 * i) 4) : Word)
  let nf := bitAt (field p.payload 32 4) 0
  if g.self ≠ 0 ∨ (votesOf g p.collSeq).any fun v => v.1 == p.src then d
  else coordinate slot p.collSeq (setGroup slot (fun g => { g with votes := g.votes ++ [(p.collSeq, p.src, gens, nf)] }) d)

/-- VOTE (R149, R269). -/
def execVote (f : Frame) (s : State) : Host.Outcome State Fault Refusal :=
  .next { s with dev := settled (receiveRow f 3 (some 6) fromMember takeVote) s.dev }

/-- A decision is forwarded once to every other member and taken (R149). -/
def takeDecide (slot : Nat) (p : Packet) (d : Dev) : Dev :=
  let named := field p.payload 0 4 % 65536
  if (decisionOf (getGroup d slot) p.collSeq).isSome then d
  else takeDecision slot p.collSeq p.arg named (sendDecide slot p.collSeq p.arg named d)

/-- DECIDE (R149, R269). -/
def execDecide (f : Frame) (s : State) : Host.Outcome State Fault Refusal :=
  .next { s with dev := settled (receiveRow f 3 (some 7) (fun d slot p => fromMember d slot p && p.arg ≤ 2) takeDecide) s.dev }

/-! ## LEASE packets (R262 to R265) -/

/-- A GRANT (R262, R263). -/
def takeGrant (slot : Nat) (p : Packet) (d : Dev) : Dev :=
  let l : Lease :=
    { id := p.lease, slots := beNat (slice p.payload 0 2), fromSeq := beNat (slice p.payload 2 4)
      ttl := beNat (slice p.payload 6 4), lat := beNat (slice p.payload 10 2) }
  setGroup slot (fun g => { g with lease := some l, leaseReason := .ok, requested := false }) d

/-- GRANT (R263). -/
def execGrant (f : Frame) (s : State) : Host.Outcome State Fault Refusal :=
  .next { s with dev := settled (receiveRow f 4 (some 2) fromSwitch takeGrant) s.dev }

/-- A REFUSE: collectives whose first step has not dispatched run device-side (R265). -/
def takeRefuse (slot : Nat) (_p : Packet) (d : Dev) : Dev :=
  setGroup slot (fun g => { g with lease := none, leaseReason := .leaseRefused, requested := false }) d

/-- REFUSE (R265). -/
def execRefuse (f : Frame) (s : State) : Host.Outcome State Fault Refusal :=
  .next { s with dev := settled (receiveRow f 4 (some 3) fromSwitch takeRefuse) s.dev }

/-- EXPIRED (R265): the chunk named and all later work fall back. -/
def execExpired (f : Frame) (s : State) : Host.Outcome State Fault Refusal :=
  .next { s with dev := settled (receiveRow f 4 (some 6) fromSwitch
    fun slot p d => expireLease slot p.lease (beNat (slice p.payload 0 4)) (beNat (slice p.payload 4 4)) d) s.dev }

/-- PEER_DOWN (R254): the member is declared lost. -/
def execPeerDown (f : Frame) (s : State) : Host.Outcome State Fault Refusal :=
  .next { s with dev := settled (receiveRow f 4 (some 7) (fun _ _ p => p.src == switchNo)
    fun slot p d => declareLost slot (beNat (slice p.payload 0 2)) d) s.dev }

/-- The switch's answer names the late member (R252). -/
def takeMissing (slot : Nat) (p : Packet) (d : Dev) : Dev :=
  match (getGroup d slot).query with
  | some q =>
    if q.1 = beNat (slice p.payload 0 4) ∧ q.2.1 = beNat (slice p.payload 4 4) then
      abortAll slot (beNat (slice p.payload 8 2)) false d
    else d
  | none => d

/-- MISSING (R252). -/
def execMissing (f : Frame) (s : State) : Host.Outcome State Fault Refusal :=
  .next { s with dev := settled (receiveRow f 4 (some 9) fromSwitch takeMissing) s.dev }

/-- A frame that is not addressed to the port, or of a reserved type: counted and dropped; PAUSE and PFC are ignored. A CTRL
or LEASE subtype that no row names runs the receive checks, and has no effect (R231, R232, R238). -/
def badFrame (f : Frame) (d : Dev) : Dev :=
  guarded (f.pause || !addressed d f || !headOk f.head || f.rowless)
    (receive f (fun _ _ p => p.typ == 3) false (fun _ _ d => d)) d

/-- BADFRAME (R238). -/
def execBadframe (f : Frame) (s : State) : Host.Outcome State Fault Refusal :=
  .next { s with dev := whenLive (badFrame f) s.dev }

/-! ## Timers (R239, R244, R254, R263) -/

/-- Heartbeats to the ring neighbours, or to the coordinator (R244). -/
def heartbeat (slot : Nat) (coord : Bool) (d : Dev) : Dev :=
  let g := getGroup d slot
  let m := memberCount g
  if !g.loaded then d
  else if coord then
    if g.self = 0 then d
    else sendUnrel slot 0 (beatPkt d slot 0) (setGroup slot (fun g => { g with hbSent := some d.tck.now }) d)
  else ([(g.self + 1) % m, (g.self + m - 1) % m].eraseDups.filter (· != g.self)).foldl
    (fun d n => sendUnrel slot n (beatPkt d slot n) d) d

/-- HEARTBEAT_TIMER (R244). -/
def execHeartbeatTimer (p : Fin 8) (slot : Fin 8) (toCoordinator : Bool) (s : State) : Host.Outcome State Fault Refusal :=
  .next { s with dev := whenLive (heartbeat (8 * p + slot) toCoordinator) s.dev }

/-- An ACK is due (R239). -/
def ackDue (slot m : Nat) (d : Dev) : Dev :=
  let g := getGroup d slot
  if g.loaded ∧ g.failed.isNone ∧ 0 < (getPair g m).toAck then sendAck slot m d else d

/-- ACK_TIMER (R239). -/
def execAckTimer (p : Fin 8) (slot : Fin 8) (member : Nat) (s : State) : Host.Outcome State Fault Refusal :=
  .next { s with dev := whenLive (ackDue (8 * p + slot) member) s.dev }

/-- A packet not acknowledged in time is resent byte for byte (R237, R239). -/
def retransmit (slot m psn : Nat) (d : Dev) : Dev :=
  ((getPair (getGroup d slot) m).unacked.filter fun q => q.pkt.psn == psn).foldl (fun d q => transmit slot q d) d

/-- RETRANSMIT_TIMEOUT (R239). -/
def execRetransmitTimeout (p : Fin 8) (slot : Fin 8) (member psn : Nat) (s : State) : Host.Outcome State Fault Refusal :=
  .next { s with dev := whenLive (retransmit (8 * p + slot) member psn) s.dev }

/-- A ring neighbour that has been heard is silent (R254). -/
def silence (slot m : Nat) (d : Dev) : Dev :=
  let g := getGroup d slot
  let n := memberCount g
  let neighbour := m == (g.self + 1) % n || m == (g.self + n - 1) % n
  if g.loaded ∧ neighbour ∧ m ≠ g.self ∧ (getPair g m).heard then declareLost slot m d else d

/-- NEIGHBOUR_SILENCE (R254). -/
def execNeighbourSilence (p : Fin 8) (slot : Fin 8) (member : Nat) (s : State) : Host.Outcome State Fault Refusal :=
  .next { s with dev := settled (silence (8 * p + slot) member) s.dev }

/-- The coordinator renews its lease (R263). -/
def renewLease (slot : Nat) (d : Dev) : Dev :=
  let g := getGroup d slot
  match g.lease with
  | some l => if g.loaded ∧ g.failed.isNone ∧ g.self = 0 then sendLease slot 4 l.id [] d else d
  | none => d

/-- LEASE_RENEW_TIMER (R263). -/
def execLeaseRenewTimer (p : Fin 8) (slot : Fin 8) (s : State) : Host.Outcome State Fault Refusal :=
  .next { s with dev := whenLive (renewLease (8 * p + slot)) s.dev }

/-- LEASE_REQUEST_RETRY (R263). -/
def execLeaseRequestRetry (p : Fin 8) (slot : Fin 8) (s : State) : Host.Outcome State Fault Refusal :=
  .next { s with dev := whenLive (fun d => guarded (getGroup d (8 * p + slot)).loaded (requestLease (8 * p + slot)) d) s.dev }

end Sys2Proof.Machine
end

