-- ==== Sys2Proof/Machine/Parties.lean ====
section
/-!
DEFINITION. Joint training (11): charters, approvals and withdrawals, job keys, Transom windows and Threshold pools.
-/
namespace Sys2Proof.Machine

/-! ## Charters (R271 to R273) -/

/-- The party entries of a charter. -/
def parseParties (b : List Byte) (n : Nat) : List PartyEnt :=
  (List.range n).map fun i =>
    let a := 64 + 112 * i
    { domain := byteAt b (a + 1), identity := BitVec.ofNat 384 (beNat (slice b (a + 0x10) 48)),
      codeKey := BitVec.ofNat 384 (beNat (slice b (a + 0x40) 48)) }

/-- The key domain that a region record names: a party's, or JOINT_DOMAIN for 0xFE. -/
def recordDomain (ps : List PartyEnt) (joint x : Nat) : Nat :=
  match ps[x]? with
  | some p => p.domain
  | none => joint

/-- The region records, from an offset. -/
def parseRegions (b : List Byte) (ps : List PartyEnt) (joint base n : Nat) : List RegionRec :=
  (List.range n).map fun i =>
    let a := base + 16 * i
    { octant := byteAt b a, context := byteAt b (a + 1), index := field b (a + 2) 2, count := field b (a + 4) 2,
      domain := recordDomain ps joint (byteAt b (a + 6)), write := bitAt (byteAt b (a + 7)) 0,
      versioned := bitAt (byteAt b (a + 7)) 1, vset := bits (byteAt b (a + 7)) 2 3,
      admitMask := BitVec.ofNat 16 (field b (a + 8) 2) }

/-- The window records, from an offset. -/
def parseWinRecs (b : List Byte) (base n : Nat) : List WinRec :=
  (List.range n).map fun i =>
    let a := base + 16 * i
    { window := byteAt b a, party := byteAt b (a + 1), ring := byteAt b (a + 2) == 1,
      hostWritten := byteAt b (a + 3) == 1, admitMask := BitVec.ofNat 16 (field b (a + 4) 2), size := field b (a + 8) 4 }

/-- The pool records, from an offset. -/
def parsePoolRecs (b : List Byte) (base n : Nat) : List PoolRec :=
  (List.range n).map fun i =>
    let a := base + 16 * i
    { pool := byteAt b a, octant := byteAt b (a + 1), cluster := byteAt b (a + 2), page := byteAt b (a + 3) % 64,
      count := byteAt b (a + 4) }

/-- The form of the party entries (R272, R273). -/
def partiesForm (b : List Byte) (n : Nat) : Bool :=
  (List.range n).all fun i => byteAt b (64 + 112 * i) == i && allZero (slice b (64 + 112 * i + 2) 14)

/-- The form of the region records. -/
def regionsForm (b : List Byte) (parties base n : Nat) : Bool :=
  (List.range n).all fun i =>
    let a := base + 16 * i
    byteAt b a < 8 && byteAt b (a + 1) < 16 && 1 ≤ field b (a + 4) 2 && field b (a + 2) 2 + field b (a + 4) 2 ≤ 4096 &&
    (byteAt b (a + 6) < parties || byteAt b (a + 6) == 0xFE) && byteAt b (a + 7) < 32 && allZero (slice b (a + 0xA) 6)

/-- The form of the window records. -/
def winRecsForm (b : List Byte) (parties base n : Nat) : Bool :=
  (List.range n).all fun i =>
    let a := base + 16 * i
    byteAt b a < 16 && (byteAt b (a + 1) < parties || byteAt b (a + 1) == 0xFF) && byteAt b (a + 2) < 2 &&
    byteAt b (a + 3) < 2 && 1 ≤ field b (a + 8) 4 && field b (a + 8) 4 ≤ (if byteAt b (a + 2) = 1 then 4096 else 65536) &&
    allZero (slice b (a + 6) 2) && allZero (slice b (a + 0xC) 4) &&
    (List.range i).all fun j => byteAt b (base + 16 * j) != byteAt b a

/-- The form of the pool records. -/
def poolRecsForm (b : List Byte) (base n : Nat) : Bool :=
  (List.range n).all fun i =>
    let a := base + 16 * i
    byteAt b a < 8 && byteAt b (a + 1) < 8 && byteAt b (a + 2) < 9 && byteAt b (a + 3) < 64 &&
    1 ≤ byteAt b (a + 4) && byteAt b (a + 4) ≤ 16 && allZero (slice b (a + 5) 11) &&
    (List.range i).all fun j => byteAt b (base + 16 * j) != byteAt b a

/-- The form of a charter: row 1 of R273. -/
def charterForm (b : List Byte) : Bool :=
  let n := byteAt b 0x18
  let r := byteAt b 0x1E
  let w := byteAt b 0x1F
  let p := byteAt b 0x20
  let regs := 64 + 112 * n
  let total := regs + 16 * (r + w + p)
  b.length == total && field b 0 4 == 1 && field b 4 4 == total && 1 ≤ n && n ≤ 16 && 1 ≤ byteAt b 0x19 &&
  byteAt b 0x19 ≤ n && 1 ≤ byteAt b 0x1A && byteAt b 0x1A ≤ n && w ≤ 16 && p ≤ 8 && byteAt b 0x21 < 8 &&
  allZero (slice b 0x22 30) && partiesForm b n && regionsForm b n regs r && winRecsForm b n (regs + 16 * r) w &&
  poolRecsForm b (regs + 16 * (r + w)) p

/-- The charter that bytes of the right form hold, PENDING (R271, R272). -/
def parseCharter (b : List Byte) : Charter :=
  let n := byteAt b 0x18
  let r := byteAt b 0x1E
  let w := byteAt b 0x1F
  let regs := 64 + 112 * n
  let ps := parseParties b n
  { state := .pending, hash := Config.sha384 b, n := n, k := byteAt b 0x19, signers := byteAt b 0x1A,
    jointDomain := byteAt b 0x1B, rallyAdmit := BitVec.ofNat 16 (field b 0x1C 2),
    switchPermitted := bitAt (byteAt b 0x21) 0, hostManagedOk := bitAt (byteAt b 0x21) 1,
    dumpLabelled := bitAt (byteAt b 0x21) 2, parties := ps, regions := parseRegions b ps (byteAt b 0x1B) regs r,
    windows := parseWinRecs b (regs + 16 * r) w, pools := parsePoolRecs b (regs + 16 * (r + w)) (byteAt b 0x20),
    approved := 0, withdrawing := [] }

/-- The key domains that a charter names (R273). -/
def charterDomains (c : Charter) : List Nat := (c.jointDomain :: c.parties.map (·.domain)).eraseDups

/-- Row 2 of R273: everything named belongs to the partition. -/
def charterOwned (d : Dev) (v : Nat) (c : Charter) : Bool :=
  let p := getPart d v
  p.live && (charterDomains c).all (fun k => p.kdBase ≤ k && k < p.kdBase + p.kdCount) &&
  c.regions.all (fun r => has8 p.octants r.octant) &&
  c.pools.all fun x => has8 p.octants x.octant && clusterPresent d x.cluster

/-- Two elements of a list, at different places, meet. -/
def anyPair {α : Type} (f : α → α → Bool) : List α → Bool
  | [] => false
  | x :: t => t.any (f x) || anyPair f t

/-- Row 3 of R273: conflicts within the charter. -/
def charterConflict (c : Charter) : Bool :=
  anyPair (fun (a b : PartyEnt) => a.domain == b.domain || a.identity == b.identity) c.parties ||
  c.parties.any (fun p => p.domain == c.jointDomain) ||
  anyPair (fun (a b : RegionRec) => a.octant == b.octant && a.context == b.context &&
    overlap a.index a.count b.index b.count) c.regions ||
  anyPair (fun (a b : PoolRec) => a.octant == b.octant && a.cluster == b.cluster && overlap a.page a.count b.page b.count)
    c.pools ||
  c.signers > (c.parties.filter fun p => p.codeKey != 0).length ||
  c.windows.any (fun w => w.ring && (w.party != 0xFF || w.admitMask != 0)) ||
  c.pools.any fun x => x.page + x.count > 64

/-- The checks of R273 in their order; a partition in L2 takes no charter (R366). -/
def charterCheck (d : Dev) (v : Nat) (b : List Byte) : Option Reason :=
  let c := parseCharter b
  if !charterForm b then some .fieldRange
  else if !charterOwned d v c then some .notOwner
  else if charterConflict c then some .fieldConflict
  else if !porterManaged d ∧ !c.hostManagedOk then some .charterMismatch
  else if !partIdle d v ∨ resetting d v then some .notReady
  else none

/-- A charter loaded: an earlier charter's domains rotate before it becomes PENDING (R273). -/
def charterLoad (v : Nat) (b : List Byte) (d : Dev) : Reason × Dev :=
  match charterCheck d v b with
  | some r => (r, d)
  | none =>
    let old := getCharter d v
    let d := if old.state = .none then d else (charterDomains old).foldl (fun d k => rotateDomain k d) d
    let d := setCharter v (fun _ => { parseCharter b with withdrawing := old.withdrawing }) { d with ptr := { d.ptr with erased := false } }
    (.ok, partChanged v d)

/-- A part of a charter: the final one is loaded, an earlier one is kept for what follows (R341, log 23). -/
def charterPart (v : Nat) (b : List Byte) (final : Bool) (d : Dev) : Reason × Dev :=
  if final then charterLoad v b { d with ptr := { d.ptr with loading := none } }
  else (.ok, { d with ptr := { d.ptr with loading := some (v, b) } })

/-- CHARTER_LOAD (R273). -/
def execCharterLoad (seq : Word) (v : Fin 8) (bytes : List Byte) (final : Bool) (s : State) :
    Host.Outcome State Fault Refusal :=
  .next { s with dev := tracked (mailbox 0x0001 seq (natLe 1 v.val ++ bytes)
    fun d => served (charterPart v.val bytes final) d) s.dev }

/-- A further part of the charter being loaded (R341). -/
def charterAppend (b : List Byte) (final : Bool) (d : Dev) : Reason × Dev :=
  match d.ptr.loading with
  | none => (.fieldConflict, d)
  | some (v, l) => charterPart v (l ++ b) final d

/-- CHARTER_APPEND (R341). -/
def execCharterAppend (seq : Word) (bytes : List Byte) (final : Bool) (s : State) : Host.Outcome State Fault Refusal :=
  .next { s with dev := tracked (mailbox 0x0002 seq bytes fun d => served (charterAppend bytes final) d) s.dev }

/-! ## Transom windows (R292, R299, R300) -/

/-- Offset of a word of TRS_WIN within the block. -/
def winOffset (v w word : Nat) : Nat := 0x1000 + 0x400 * v + 0x40 * w + 8 * word

/-- A session belongs to a VF's share. -/
def vfSession (d : Dev) (v slot : Nat) : Bool :=
  match sessOf d slot with
  | some x => x.fn == 1 + v
  | none => false

/-- The session's identity is that of a party of the charter. -/
def partySession (d : Dev) (v party slot : Nat) : Bool :=
  match (getCharter d v).parties[party]?, sessOf d slot with
  | some p, some x => p.identity == x.identity
  | _, _ => false

/-- In Porter-managed mode a window is bound only to the session of the party that the charter names, or to the VF's own for
PARTY 0xFF; under an ACTIVE charter it is one that the charter describes (R275, R300). -/
def winCharter (d : Dev) (v w : Nat) (x : Win) : Bool :=
  let c := getCharter d v
  let named := c.windows.any fun r => r.window == w && r.ring == x.ring && r.hostWritten == x.hostWritten &&
    r.size == x.size && r.admitMask == x.admitMask && r.party == (if x.partyValid then x.party else 0xFF)
  vfSession d v x.session && (!x.partyValid || (c.state != .none && partySession d v x.party x.session)) &&
    (c.state != .active || named)

/-- The check of a window at its EN (R292, R297, R300, R390). -/
def winCheck (d : Dev) (v w : Nat) (x : Win) : CheckFail :=
  let id (pos : Nat) : Nat := fieldIdOf (winOffset v w 2) pos
  if x.size = 0 ∨ x.size > (if x.ring then 4096 else 65536) then some (.fieldRange, id 0)
  else if x.ring ∧ x.partyValid then some (.fieldConflict, id 4)
  else if x.ring ∧ x.admitMask ≠ 0 then some (.fieldConflict, id 5)
  else if porterManaged d ∧ !winCharter d v w x then some (.charterMismatch, id 6)
  else if !vfSession d v x.session then some (.notOwner, id 6)
  else if !(getPart d v).live then some (.notOwner, id 7)
  else if x.live then some (.notReady, id 7)
  else none

/-- EN written as 1: the check, then the keys of its session, and a new epoch with its status record (R293, R299, R390). -/
def winEnable (v w : Nat) (d : Dev) : Reason × Dev :=
  if (getWin d v w).en then (.ok, d)
  else
    let f := winCheck d v w (getWin d v w)
    let d := setStatus 0x90000 f d
    match f with
    | some e => (e.1, d)
    | none =>
      (.ok, newEpoch v w (setWin v w (fun x => { x with
        en := true, live := true, ended := false, secret := sessionSecret d x.session }) d))

/-- A write that only the holder of management may make; another host write is dropped and logged (R319). -/
def byHolder (i : Issuer) (fieldId offset : Nat) (f : Dev → Dev) (d : Dev) : Dev :=
  match i with
  | .host fn => if fn ≠ .pf ∨ porterManaged d then dropLog fn .notOwner fieldId offset true d else f d
  | .porter => if porterManaged d then f d else d

/-- WINDOW_ENABLE (R299). -/
def execWindowEnable (by_ : Issuer) (v : Fin 8) (w : Fin 16) (s : State) : Host.Outcome State Fault Refusal :=
  .next { s with dev := whenIssuer by_ (byHolder by_ (fieldIdOf (winOffset v w 2) 7) (0x90000 + winOffset v w 2)
    fun d => (winEnable v w d).2) s.dev }

/-- EN written as 0 reads 0 at once; the window is disabled at the next boundary (R300). -/
def winClose (v w : Nat) (d : Dev) : Dev := setWin v w (fun x => { x with en := false }) d

/-- WINDOW_DISABLE_REQUEST (R300). -/
def execWindowDisableRequest (by_ : Issuer) (v : Fin 8) (w : Fin 16) (s : State) : Host.Outcome State Fault Refusal :=
  .next { s with dev := whenIssuer by_ (byHolder by_ (fieldIdOf (winOffset v w 2) 7) (0x90000 + winOffset v w 2)
    (winClose v w)) s.dev }

/-- A transfer's source or destination lies in a window of its VF. -/
def usesWin (d : Dev) (v w : Nat) (x : Xfer) : Bool :=
  let raw := xferRaw d x
  let inWin (src : Bool) : Bool := rdEpKind raw src == 3 &&
    (rdEpAddr raw src / 2 ^ 36 == w || (epRows raw src).any fun r => r.1 / 2 ^ 36 == w)
  !x.fabric && octVf d x.oct == some v && (inWin true || inWin false)

/-- Transfers that satisfy a test, one after another, fault with a reason at a boundary. -/
def faultXfers (p : Xfer → Bool) (r : Reason) (d : Dev) : Dev :=
  (d.xfers.filter fun x => xferOpen x && p x).foldl (fun d x => relayFault x 5 r [] true d) d

/-- A queue's ring lies in a window. -/
def ringIn (w : Nat) (q : Queue) : Bool := q.bound && q.transom && (ringWin q.cmdBase == w || ringWin q.cplBase == w)

/-- A window is disabled: its transfers fault and its queues stop with NOT_READY (R300). -/
def winDisable (v w : Nat) (d : Dev) : Dev :=
  let d := setWin v w (fun x => { x with
    en := false, live := false, ended := false, rearm := false, statusDue := false }) d
  let d := faultXfers (usesWin d v w) .notReady d
  (members8 (getPart d v).octants).foldl (fun d o => (List.range 32).foldl (fun d q =>
    if ringIn w (getQueue d o q) then stopQueue o q .notReady (getQueue d o q).fetch [] d else d) d) d

/-- WINDOW_DISABLE (R300). -/
def execWindowDisable (v : Fin 8) (w : Fin 16) (s : State) : Host.Outcome State Fault Refusal :=
  .next { s with dev := settled (fun d => guarded ((getWin d v w).live && (!(getWin d v w).en || (getWin d v w).ended))
    (winDisable v w) d) s.dev }

/-- Who may write a window's REARM: its VF, and the PF in host-managed mode (R299, R319, R419). -/
def mayRearm (d : Dev) (f : Fn) (v : Nat) : Bool :=
  match f with
  | .pf => !porterManaged d
  | .vf u => u.val == v && (getPart d v).live

/-- REARM: refused for a RING window and for one that is not enabled (R299). -/
def rearm (f : Fn) (v w : Nat) (d : Dev) : Dev :=
  let x := getWin d v w
  let id := fieldIdOf (winOffset v w 4) 0
  let off := 0x90000 + winOffset v w 4
  if !mayRearm d f v then dropLog f .notOwner id off true d
  else if x.ring then dropLog f .fieldConflict id off true d
  else if !x.en then dropLog f .notReady id off true d
  else setWin v w (fun x => { x with rearm := true }) d

/-- REARM (R299). -/
def execRearm (fn : Fn) (v : Fin 8) (w : Fin 16) (s : State) : Host.Outcome State Fault Refusal :=
  .next { s with dev := whenBar fn (rearm fn v w) s.dev }

/-- A REARM takes effect at a boundary at which no transfer of the window is ACTIVE or PARTIAL (R299, R388). -/
def rearmEffect (v w : Nat) (d : Dev) : Dev :=
  if (getWin d v w).rearm ∧ (getWin d v w).live ∧ !d.xfers.any (fun x => xferOpen x && usesWin d v w x) then
    partChanged v (newEpoch v w d)
  else d

/-- REARM_EFFECT (R299). -/
def execRearmEffect (v : Fin 8) (w : Fin 16) (s : State) : Host.Outcome State Fault Refusal :=
  .next { s with dev := whenLive (rearmEffect v w) s.dev }

/-! ## Threshold pools (R287) -/

/-- Offset of LBL_POOL_CFG within the block. -/
def poolOffset (n : Nat) : Nat := 0x400 + 0x20 * n

/-- The check of a pool at its EN (R273, R287, R390). -/
def poolCheck (d : Dev) (n : Nat) (p : Pool) : CheckFail :=
  let id (pos : Nat) : Nat := fieldIdOf (poolOffset n) pos
  let meets (m : Nat) : Bool := m != n && (getPool d m).en &&
    overlap (poolRange p).1 (poolRange p).2 (poolRange (getPool d m)).1 (poolRange (getPool d m)).2
  if p.cluster > 8 then some (.fieldRange, id 1)
  else if !((getPart d (n / 8)).live && has8 (getPart d (n / 8)).octants p.octant && clusterPresent d p.cluster) then
    some (.notOwner, id 0)
  else if p.page + p.count + 1 > 64 ∨ (List.range 64).any meets then some (.fieldConflict, id 3)
  else if p.vf ≠ n / 8 then some (.fieldConflict, id 4)
  else none

/-- A pool as it is configured: IDLE, with nothing counted (R287). -/
def freshPool (p : Pool) : Pool :=
  { p with en := true, state := .idle, unmet := false, nonfinite := false, parties := 0, contrib := 0, label := 0 }

/-- EN of a pool written as 1 (R287). -/
def poolEnable (n : Nat) (d : Dev) : Reason × Dev :=
  if (getPool d n).en then (.ok, d)
  else
    let f := poolCheck d n (getPool d n)
    let d := setStatus 0xA0000 f d
    match f with
    | some e => (e.1, d)
    | none => (.ok, setPool n freshPool d)

/-- POOL_CONFIGURE (R287). -/
def execPoolConfigure (by_ : Issuer) (n : Fin 64) (s : State) : Host.Outcome State Fault Refusal :=
  .next { s with dev := whenIssuer by_ (byHolder by_ (fieldIdOf (poolOffset n) 5) (0xA0000 + poolOffset n)
    fun d => (poolEnable n d).2) s.dev }

/-! ## Approval and withdrawal (R274 to R276) -/

/-- The windows that an ACTIVE charter describes, configured but not enabled (R275). -/
def installWindows (v : Nat) (c : Charter) (d : Dev) : Dev :=
  c.windows.foldl (fun d r =>
    if (getWin d v r.window).live then d
    else setWin v r.window (fun x => { x with
      size := r.size, ring := r.ring, hostWritten := r.hostWritten, party := r.party % 16, partyValid := r.party != 0xFF,
      admitMask := r.admitMask }) d) d

/-- The pools that an ACTIVE charter describes: they replace the VF's pools (R275, R287). -/
def installPools (v : Nat) (c : Charter) (d : Dev) : Dev :=
  let d := (List.range 8).foldl (fun d i => setPool (8 * v + i) (fun _ => Pool.zero) d) d
  c.pools.foldl (fun d r => setPool (8 * v + r.pool) (fun _ => { Pool.zero with
    octant := r.octant, cluster := r.cluster, page := r.page, count := r.count - 1, vf := v, en := true }) d) d

/-- A charter becomes ACTIVE: Porter keeps its hash for its key domains and, in Porter-managed mode, installs what it
describes (R271, R275, R364). -/
def activate (v : Nat) (d : Dev) : Dev :=
  let d := setCharter v (fun c => { c with state := .active }) d
  let c := getCharter d v
  let d := (charterDomains c).foldl (fun d k => useDomain v k d) d
  let d := { d with ret := { d.ret with
    domHash := (charterDomains c).foldl (fun t k => put none k (some c.hash) t) d.ret.domHash } }
  let d := if porterManaged d then installPools v c (installWindows v c d) else d
  partChanged v d

/-- The party of a charter whose identity a session has. -/
def charterParty (c : Charter) (x : Session) : Option Nat := c.parties.findIdx? fun p => p.identity == x.identity

/-- A party's approval (R274). -/
def charterApprove (x : Session) (digest : BitVec 384) (generation : Word) (d : Dev) : Dev :=
  match sessVf x with
  | none => vendorAnswer x.fn .charterMismatch d
  | some v =>
    let c := getCharter d v
    match charterParty c x with
    | none => vendorAnswer x.fn .charterMismatch d
    | some n =>
      if c.state ≠ .pending ∨ digest ≠ c.hash ∨ generation ≠ d.ret.generation then vendorAnswer x.fn .charterMismatch d
      else
        let d := setCharter v (fun c => { c with approved := c.approved ||| partyBit n }) d
        vendorAnswer x.fn .ok (if (getCharter d v).approved = onDieMask c.n then activate v d else d)

/-- CHARTER_APPROVE (R274). -/
def execCharterApprove (session : Nat) (digest : BitVec 384) (generation : Word) (s : State) :
    Host.Outcome State Fault Refusal :=
  .next { s with dev := tracked (inSession session fun x => charterApprove x digest generation) s.dev }

/-- A party withdraws: the charter is WITHDRAWN, and its effect comes at the next boundary (R271, R276). -/
def charterWithdraw (x : Session) (d : Dev) : Dev :=
  match sessVf x with
  | none => vendorAnswer x.fn .charterMismatch d
  | some v =>
    let c := getCharter d v
    match charterParty c x with
    | none => vendorAnswer x.fn .charterMismatch d
    | some n =>
      if c.state ≠ .active ∧ c.state ≠ .withdrawn then vendorAnswer x.fn .charterMismatch d
      else
        let d := setCharter v (fun c => { c with state := .withdrawn, withdrawing := c.withdrawing ++ (c.parties[n]?).toList }) d
        vendorAnswer x.fn .ok (if c.state = .active then partChanged v d else d)

/-- CHARTER_WITHDRAW (R276). -/
def execCharterWithdraw (session : Nat) (s : State) : Host.Outcome State Fault Refusal :=
  .next { s with dev := tracked (inSession session charterWithdraw) s.dev }

/-- Every context of a partition is faulted with a reason at a boundary (R276). -/
def faultPartition (v : Nat) (r : Reason) (rc : FaultRec) (d : Dev) : Dev :=
  (members8 (getPart d v).octants).foldl (fun d o => (List.range 16).foldl (fun d c => faultEach o c r rc true d) d) d

/-- A window is keyed to a session of a party's that has not ended (R276, R293). -/
def keyedTo (d : Dev) (v w : Nat) (p : PartyEnt) : Bool :=
  let x := getWin d v w
  x.live && match sessOf d x.session with
    | some y => y.identity == p.identity && y.secret == x.secret
    | none => false

/-- A withdrawal takes effect: contexts fault, the party's windows are disabled, and its key domain rotates (R276). -/
def withdrawEffect (v : Nat) (d : Dev) : Dev :=
  let c := getCharter d v
  if c.withdrawing.isEmpty then d
  else
    let d := setCharter v (fun c => { c with withdrawing := [] }) d
    let d := faultPartition v .charterMismatch { recBase with source := 10 } d
    c.withdrawing.foldl (fun d p =>
      rotateDomain p.domain ((List.range 16).foldl (fun d w => if keyedTo d v w p then winDisable v w d else d) d)) d

/-- WITHDRAW_EFFECT (R276). -/
def execWithdrawEffect (v : Fin 8) (s : State) : Host.Outcome State Fault Refusal :=
  .next { s with dev := settled (withdrawEffect v) s.dev }

/-! ## Job keys (R342) -/

/-- A loaded group of a VF has a number. -/
def groupLoaded (d : Dev) (v g : Nat) : Bool :=
  (List.range 64).any fun s => (getGroup d s).loaded && (getGroup d s).vf == v && (getGroup d s).id == g

/-- The job key of a group installed (R342). -/
def putJobKey (v g : Nat) (key : List Byte) (d : Dev) : Dev :=
  { d with ptr := { d.ptr with jobKeys := place (65536 * v + g) key d.ptr.jobKeys } }

/-- A party delivers a job key: only the session of the charter's party 0 may, or in host-managed mode the VF's own
(R342). -/
def jobKeyDeliver (x : Session) (g : Nat) (key : List Byte) (d : Dev) : Dev :=
  match sessVf x with
  | none => vendorAnswer x.fn .notOwner d
  | some v =>
    if porterManaged d ∧ charterParty (getCharter d v) x ≠ some 0 then vendorAnswer x.fn .notOwner d
    else if groupLoaded d v g then vendorAnswer x.fn .busyUpdate d
    else vendorAnswer x.fn .ok (putJobKey v g key d)

/-- JOB_KEY_DELIVER (R342). -/
def execJobKeyDeliver (session : Nat) (group : Nat) (key : List Byte) (s : State) : Host.Outcome State Fault Refusal :=
  .next { s with dev := inSession session (fun x => jobKeyDeliver x group key) s.dev }

end Sys2Proof.Machine
end

