-- ==== Sys2Proof/Machine/Shutter.lean ====
section
/-!
DEFINITION. Partitions, the Shutter's scrubs and the Louvre's views (12).
-/
namespace Sys2Proof.Machine

/-! ## Creation (R303 to R305) -/

/-- Identifier of a field of SHT_PART. -/
def partField (v pos : Nat) : Nat := fieldIdOf (0x40 + 8 * v) pos

/-- A partition holds its octants and domains: it exists, or its creation has been accepted. -/
def partHeld (p : Part) : Bool := p.live || p.en

/-- The creation checks of R304 in their order. -/
def createCheck (d : Dev) (v : Nat) (p : Part) : CheckFail :=
  let others := (List.range 8).filter fun u => u != v && partHeld (getPart d u)
  let turning := ((List.range 8).map fun u => (getPart d u).keyRange).flatten
  let octs := members8 p.octants
  if p.octants = 0 then some (.fieldRange, partField v 0)
  else if p.kdCount = 0 ∨ p.kdCount > 64 ∨ p.kdBase + p.kdCount > 256 then some (.fieldRange, partField v 2)
  else if others.any (fun u => (getPart d u).octants &&& p.octants != 0) ∨
      octs.any (fun o => (getSht d o).state == .failed || has8 d.pkg.octFailed o) then some (.fieldConflict, partField v 0)
  else if others.any (fun u => overlap p.kdBase p.kdCount (getPart d u).kdBase (getPart d u).kdCount) ∨
      turning.any (fun k => p.kdBase ≤ k && k < p.kdBase + p.kdCount) then some (.fieldConflict, partField v 1)
  else if octs.any fun o => !has8 d.pkg.octReady o then some (.notReady, partField v 0)
  else if d.pwr.switching then some (.notReady, partField v 4)
  else none

/-- SHT_PART.EN written from 0 to 1 with the fields given: the checks run, and the outcome is in SHT_STATUS (R304). The
entry of a partition that still exists is refused with FIELD_CONFLICT (log 24). -/
def partCreate (v octants kdBase kdCount : Nat) (zeroFill : Bool) (d : Dev) : Reason × Dev :=
  let old := getPart d v
  if old.en then (.ok, d)
  else if old.live then (.fieldConflict, setStatus 0x70000 (some (.fieldConflict, partField v 4)) d)
  else
    let p := { old with octants := BitVec.ofNat 8 octants, kdBase := kdBase, kdCount := kdCount, zeroFill := zeroFill }
    let f := createCheck d v p
    let d := setStatus 0x70000 f (setPart v (fun _ => { p with en := f.isNone }) d)
    (match f with | some e => e.1 | none => .ok, d)

/-- PARTITION_CREATE (R304). -/
def execPartitionCreate (by_ : Issuer) (v : Fin 8) (octants kdBase kdCount : Nat) (zeroFill : Bool) (s : State) :
    Host.Outcome State Fault Refusal :=
  .next { s with dev := whenIssuer by_ (byHolder by_ (partField v 4) (0x70040 + 8 * v)
    fun d => (partCreate v octants kdBase kdCount zeroFill d).2) s.dev }

/-- A block enabled by Porter, subject to its check (R48, R390). -/
def autoEnable (b : Block) (d : Dev) : Dev :=
  let f := blockCheck d b false
  setStatus (blkBase b) f (setBlk (blkBase b) (fun x => { x with enable := f.isNone, stopping := false }) d)

/-- The counts that a VF's view of a port leaves out (R311). -/
def portCounts (x : Port) : List Nat := [x.dropAuth, x.dropReplay, x.dropStale, x.dropUnknown, x.dropBad, x.downs]

/-- The counts that a VF's view of a stack leaves out (R311). -/
def stackCounts (x : Stack) : List Nat :=
  [x.corrected, x.uncorrectable, x.patrolPasses, x.tagFail, x.treeRepaired, x.taglineLost, x.bumps]

/-- An octant joins a partition: owned, its sequencer, Relay engines and clusters enabled (R305, R311, R390). -/
def joinOctant (v : Nat) (d : Dev) (o : Fin 8) : Dev :=
  let d := setSht o (fun x => { x with owned := true, vf := v }) d
  let d := setStack o (fun x => { x with baseCounts := stackCounts x, eccNew := false, errNew := false }) d
  let d := setPort o (fun x => { x with baseCounts := portCounts x }) d
  let d := setRle o (fun x => { x with baseCounts := [x.stale0, x.stale1] }) d
  let d := autoEnable (.rle o) (autoEnable (.seq o) d)
  ((List.finRange 9).filter fun (c : Fin 9) => clusterPresent d c.val).foldl (fun d c => autoEnable (.clu o c) d) d

/-- A creation takes effect (R305); its use of key domains ends SECRETS_ERASED (R349). -/
def createEffect (v : Nat) (d : Dev) : Dev :=
  let p := getPart d v
  if !p.en ∨ p.live then d
  else
    let d := setPart v (fun p => { p with live := true }) { d with ptr := { d.ptr with erased := false } }
    let d := (List.range 16).foldl (fun d w => setWin v w (fun x => { x with authBase := x.authFail }) d) d
    ((List.finRange 8).filter fun (o : Fin 8) => has8 p.octants o.val).foldl (joinOctant v) d

/-- PARTITION_CREATE_EFFECT (R305). -/
def execPartitionCreateEffect (v : Fin 8) (s : State) : Host.Outcome State Fault Refusal :=
  .next { s with dev := whenLive (tracked (createEffect v)) s.dev }

/-! ## Release (R306) -/

/-- SHT_PART.EN written from 1 to 0: refused while a context is not idle (R306) or the partition is in L2 (R366). -/
def partRelease (v : Nat) (d : Dev) : Reason × Dev :=
  let p := getPart d v
  if !p.en then (.ok, d)
  else if !p.live then (.ok, setStatus 0x70000 none (setPart v (fun p => { p with en := false }) d))
  else if !partIdle d v ∨ resetting d v then (.notReady, setStatus 0x70000 (some (.notReady, partField v 4)) d)
  else (.ok, setStatus 0x70000 none (setPart v (fun p => { p with en := false, releasing := true }) d))

/-- PARTITION_RELEASE (R306). -/
def execPartitionRelease (by_ : Issuer) (v : Fin 8) (s : State) : Host.Outcome State Fault Refusal :=
  .next { s with dev := whenIssuer by_ (byHolder by_ (partField v 4) (0x70040 + 8 * v)
    fun d => (partRelease v d).2) s.dev }

/-- Domains of a range under which a region of an octant's stack is recorded (R309). -/
def domainsIn (d : Dev) (o : Nat) (ks : List Nat) : List Nat :=
  ks.filter fun k => d.region.any fun e => e.1 / 65536 == o && e.2.domain == some k

/-- A pool that is no longer configured (R306). -/
def noPool (p : Pool) : Pool := { freshPool p with en := false }

/-- The slot of a VF is closed: EN cleared (R306). -/
def closeSlot (r : Rwt) : Rwt := { live := r.live % 2 ^ 63, shadow := r.shadow % 2 ^ 63 }

/-- A release takes effect (R306). -/
def releaseEffect (v : Nat) (d : Dev) : Dev :=
  let p := getPart d v
  if !(p.live && p.releasing && !p.en) then d
  else
    let octs := members8 p.octants
    let d := (List.range 16).foldl (fun d w => if (getWin d v w).live then winDisable v w d else d) d
    let d := setSlot v closeSlot d
    let d := (List.range 8).foldl (fun d i => setPool (8 * v + i) noPool d) d
    let d := (octs.flatMap (portGroups d)).foldl (fun d s => unloadSlot s d) d
    let d := octs.foldl (fun d o => dropApply .notOwner o d) d
    let d := setCharter v (fun _ => Charter.zero) { d with
      pwr := { d.pwr with fine := false }
      ump := { d.ump with vfRing := put Ring.zero v Ring.zero d.ump.vfRing } }
    let range := (List.range p.kdCount).map (p.kdBase + ·)
    let ks := range.filter fun k => octs.any fun o => !(domainsIn d o [k]).isEmpty
    let d := setPart v (fun p => { p with
      live := false, releasing := false, rotating := p.rotating ++ ks, keyRange := p.keyRange ++ range }) d
    octs.foldl (fun d o => setSht o (fun x => { x with
      owned := false, vf := 0, state := if x.state = .failed then .failed else .scrubbing
      zeroFill := p.zeroFill && x.state != .failed, oldVf := some v }) d) d

/-- PARTITION_RELEASE_EFFECT (R306). -/
def execPartitionReleaseEffect (v : Fin 8) (s : State) : Host.Outcome State Fault Refusal :=
  .next { s with dev := settled (tracked (releaseEffect v)) s.dev }

/-! ## Scrubs (R309 to R313) -/

/-- Step 2: the domains of the released partition that have regions in the octant's stack rotate, each once, and the range is
free once none is left (R306, R310). -/
def scrubDomains (o : Nat) (d : Dev) : Dev :=
  match (getSht d o).oldVf with
  | none => d
  | some v =>
    let ks := domainsIn d o (getPart d v).rotating
    let rest := (getPart d v).rotating.filter fun k => !ks.contains k
    setPart v (fun p => { p with rotating := rest, keyRange := if rest.isEmpty then [] else p.keyRange })
      (ks.foldl (fun d k => rotateDomain k d) d)

/-- Step 3: every core of an octant is cleared. -/
def clearCores (o : Nat) (d : Dev) : Dev :=
  let lo := coreNo o 0 0
  let hi := coreNo (o + 1) 0 0
  { d with
    core := dropRange lo hi d.core
    stream := dropRange (2 * lo) (2 * hi) d.stream
    acc := dropRange (lo * 16384) (hi * 16384) d.acc
    spad := dropRange (spadBase o 0 0) (spadBase (o + 1) 0 0) d.spad
    spadLabel := dropRange (spadBase o 0 0 / 4096) (spadBase (o + 1) 0 0 / 4096) d.spadLabel }

/-- Step 4: the cluster memories and their page labels are cleared; the octant's pools return to IDLE (R287). -/
def clearClusters (o : Nat) (d : Dev) : Dev :=
  let d := { d with
    cmem := dropRange (cmemBase o 0) (cmemBase (o + 1) 0) d.cmem
    cmemLabel := dropRange (cmemBase o 0 / 65536) (cmemBase (o + 1) 0 / 65536) d.cmemLabel }
  (List.range 64).foldl (fun d n =>
    if (getPool d n).en ∧ (getPool d n).octant = o then setPool n freshPool d else d) d

/-- Step 5: sequencer and board: contexts, region tables, image slots, queues, objects, versions, plan; the Relay engines'
staging and sequence state; the octant's PCI_QVEC entries (R309, R388). -/
def clearSequencer (o : Nat) (d : Dev) : Dev :=
  let d := { d with
    ctx := dropRange (16 * o) (16 * (o + 1)) d.ctx
    rtab := dropRange (16 * o * 4096) (16 * (o + 1) * 4096) d.rtab
    img := dropRange (16 * o * 16) (16 * (o + 1) * 16) d.img
    queue := dropRange (32 * o) (32 * (o + 1)) d.queue
    obj := dropRange (2048 * o) (2048 * (o + 1)) d.obj
    cmds := d.cmds.filter fun c => c.oct != o
    signals := d.signals.filter fun x => x.octant != o
    steps := d.steps.filter fun x => x.port != o
    xfers := d.xfers.filter fun x => x.oct != o
    ump := { d.ump with l0 := dropRange (16 * o) (16 * (o + 1)) d.ump.l0 }
    pkg := { d.pkg with qvec := dropRange (32 * o) (32 * (o + 1)) d.pkg.qvec } }
  let d := setRle o (fun r => { r with seq0 := 0, seq1 := 0 }) d
  setSeq o (fun s => { s with
    plan := none, withdrawn := false, cycleTick := 0, started := [], active := 0, voted := 0, pendFlip := 0, flips := 0, gen := [],
    flipCmds := [], lastReg := 0 }) d

/-- Steps 3 to 5 of a scrub (R309); a management command that still runs ends with NOT_READY (R226). -/
def scrubStores (o : Nat) (d : Dev) : Dev := endMgmt o .notReady (clearSequencer o (clearClusters o (clearCores o d)))

/-- An octant's state changes; the VF of its partition is told (R388). -/
def octState (o : Nat) (f : ShtOct → ShtOct) (d : Dev) : Dev :=
  let d := setSht o f d
  match octVf d o with
  | some v => partChanged v d
  | none => d

/-- A scrub that has cleared every store: CLEAN, or the zero-fill that was asked for (R309, R312). -/
def scrubPass (o : Nat) (d : Dev) : Dev :=
  octState o (fun x => { x with
    state := if x.zeroFill then .zeroFilling else .clean, reason := .ok, doneTick := tickLo d, oldVf := none }) d

/-- A second difference in step 6: the octant is FAILED, and recorded (R313, R376). -/
def scrubFail (o kind index : Nat) (d : Dev) : Dev :=
  let d := record { recAt d o .hungUnit 11 with action := 7, detail := hungDetail kind index } false d
  let d := { d with pkg := { d.pkg with octFailed := set8 d.pkg.octFailed o } }
  readyChanged (octState o (fun x => { x with
    state := .failed, reason := .hungUnit, zeroFill := false, oldVf := none }) d)

/-- The octant has nothing in flight, which is when a scrub starts (R309). -/
def octQuiet (d : Dev) (o : Nat) : Bool :=
  (d.cmds.all fun c => c.oct != o) && (d.xfers.all fun x => x.oct != o) && d.steps.all fun s => s.port != o

/-- The stores that steps 1 to 5 of a scrub clear: the metadata cache is written back and invalidated first (R196, R309). -/
def scrubSteps (o : Nat) (d : Dev) : Dev := scrubStores o (scrubDomains o (dropMeta o d))

/-- A release or power-on scrub of an octant; `differences` counts the comparisons of step 6 that found one (R309, R313). -/
def releaseScrub (o differences kind index : Nat) (d : Dev) : Dev :=
  let waits : Bool := match octVf d o with
    | some v => resetting d v
    | none => false
  if (getSht d o).state ≠ .scrubbing ∨ waits ∨ !(getStack d o).rootValid ∨ !octQuiet d o then d
  else
    let d := scrubSteps o d
    if differences < 2 then scrubPass o d else scrubFail o kind index d

/-- RELEASE_SCRUB (R309). -/
def execReleaseScrub (o : Fin 8) (differences : Nat) (storeKind storeIndex : Nat) (s : State) :
    Host.Outcome State Fault Refusal :=
  .next { s with dev := whenLive (tracked (releaseScrub o differences storeKind storeIndex)) s.dev }

/-- Every counter line of a stack in the zero state, with both tree copies, and its data zero; poison marks stay (R181, R195,
R311, R312). -/
def zeroStack (s : Nat) (d : Dev) : Dev :=
  let lo := s * 2 ^ 37
  let hi := (s + 1) * 2 ^ 37
  let d := zeroPages ((d.page.filter fun e => lo / 4096 ≤ e.1 && e.1 < hi / 4096).map (·.1)) d
  { d with
    hbm := dropRange lo hi d.hbm
    region := d.region.filterMap fun e =>
      if e.1 / 65536 = s then
        let x := { e.2 with initPending := false, label := 0, undef := 0 }
        if x = Region.zero then none else some (e.1, x)
      else some e }

/-- The zero-fill ends (R312). -/
def zeroFilled (o : Nat) (d : Dev) : Dev :=
  if (getSht d o).state ≠ .zeroFilling then d
  else octState o (fun x => { x with state := .clean, doneTick := tickLo d, zeroFill := false }) (zeroStack o d)

/-- ZERO_FILL_COMPLETE (R312). -/
def execZeroFillComplete (o : Fin 8) (s : State) : Host.Outcome State Fault Refusal :=
  .next { s with dev := whenLive (tracked (zeroFilled o)) s.dev }

/-! ## The Louvre (R315, R316, R430) -/

/-- The mean of an interval in 25 W units, ties rounded up (R315). -/
def powerQ (sum ticks : Nat) : Nat := (2 * sum + 25 * ticks) / (50 * ticks) % 256

/-- A temperature in 5 °C units, rounded down (R315): below 0 °C and without a sample the field has no stated value. -/
def tempQ (hot : Option Int) (free : Nat) : Nat :=
  match hot with
  | some t => if t < 0 then Config.freeNat free % 256 else t.toNat / 20 % 256
  | none => Config.freeNat free % 256

/-- The views are recomputed from the interval that has ended (R430). -/
def louvreUpdate (d : Dev) : Dev :=
  match d.pwr.lvDone with
  | none => d
  | some (sum, hot) =>
    let e := (powerQ sum (louvreTicks d), tempQ hot d.free, tickLo d)
    { d with
      pwr := { d.pwr with view := (List.range 8).foldl (fun t v => put (0, 0, 0) v e t) d.pwr.view, lvDone := none }
      free := d.free + 1 }

/-- LOUVRE_UPDATE (R430). -/
def execLouvreUpdate (s : State) : Host.Outcome State Fault Refusal := .next { s with dev := whenLive louvreUpdate s.dev }

/-- Fine timing needs one partition that owns all eight octants, and no ACTIVE charter (R275, R316). -/
def fineCheck (d : Dev) : Option Reason :=
  match partsLive d with
  | [v] =>
    if (getPart d v).octants ≠ 0xFF then some .fieldConflict
    else if (getCharter d v).state = .active then some .charterMismatch
    else none
  | _ => some .fieldConflict

/-- A write of PWR_LVR_CTRL.FINE; PWR_STATUS records its outcome (R316). -/
def fineWrite (on : Bool) (d : Dev) : Reason × Dev :=
  match if on then fineCheck d else none with
  | some r => (r, setStatus 0x20000 (some (r, fieldIdOf 0x200 0)) d)
  | none => (.ok, setStatus 0x20000 none { d with pwr := { d.pwr with fine := on } })

/-- A host's write of FINE: a refused one is a dropped access, logged as such too (R424). -/
def fineHost (i : Issuer) (on : Bool) (d : Dev) : Dev :=
  let (r, d) := fineWrite on d
  match i with
  | .host f => if r = .ok then d else dropLog f r (fieldIdOf 0x200 0) 0x20200 true d
  | .porter => d

/-- FINE_TIMING_WRITE (R316). -/
def execFineTimingWrite (by_ : Issuer) (on : Bool) (s : State) : Host.Outcome State Fault Refusal :=
  .next { s with dev := whenIssuer by_ (tracked (byHolder by_ (fieldIdOf 0x200 0) 0x20200 (fineHost by_ on))) s.dev }

end Sys2Proof.Machine
end

