-- ==== Sys2Proof/Machine/Power.lean ====
section
/-!
DEFINITION. Power modes, telemetry, thermal sampling and reference clocks (01, 16).
-/
namespace Sys2Proof.Machine

/-! ## Power-mode changes (R23, R24, R400, R401, R431) -/

/-- A Shutter scrub runs on an octant: its stack is initialised and it reads SCRUBBING. -/
def scrubRuns (d : Dev) (o : Nat) : Bool := (getSht d o).state == .scrubbing && (getStack d o).rootValid

/-- The checks of a change request (R4, R23): the mode to change to, none where nothing changes, or the refusal. A code that
names no mode is FIELD_RANGE (log 25). -/
def modeCheck (d : Dev) (target : Nat) : Except Reason (Option PowerMode) :=
  match modeOf target with
  | none => .error .fieldRange
  | some m =>
    if m = d.pwr.live then .ok none
    else if d.fuse.airLid ∧ m ≠ .steady then .error .modeMismatch
    else if 1 < (partsLive d).length then .error .busyUpdate
    else if (partsLive d).any (fun v => !partIdle d v) ∨ (List.range 8).any (scrubRuns d) then .error .notReady
    else .ok (some m)

/-- A change request: accepted, the switch interval opens at once (R24). -/
def modeRequest (target : Nat) (d : Dev) : Reason × Dev :=
  match modeCheck d target with
  | .error r => (r, d)
  | .ok none => (.ok, d)
  | .ok (some m) => (.ok, { d with pwr := { d.pwr with accepted := some m, switching := true } })

/-- POWER_MODE (R23). -/
def execPowerMode (seq : Word) (target : Nat) (s : State) : Host.Outcome State Fault Refusal :=
  .next { s with dev := mailbox 0x0011 seq (natLe 1 target) (fun d => served (modeRequest target) d) s.dev }

/-- GLB_MODE.REQ: from the PF in host-managed mode, and refused with NOT_READY during a switch interval (R421). -/
def glbModeReq (f : Fn) (target : Nat) (d : Dev) : Dev :=
  if f ≠ .pf ∨ porterManaged d then
    dropLog f .notOwner (fieldIdOf 0x18 (if target = 0 then 4 else 3)) 0x18 true d
  else
    let (r, d) := if d.pwr.switching then (.notReady, d) else modeRequest target d
    { d with pwr := { d.pwr with reqReason := r } }

/-- GLB_MODE_REQ (R421). -/
def execGlbModeReq (fn : Fn) (target : Nat) (s : State) : Host.Outcome State Fault Refusal :=
  .next { s with dev := whenBar fn (glbModeReq fn target) s.dev }

/-- The boundary after acceptance: the target is the live mode, plans are withdrawn, and a rising voltage begins its ramp
(R35, R400, R431). -/
def switchStart (d : Dev) : Dev :=
  match d.pwr.accepted with
  | none => d
  | some m =>
    let v := if modeMv d.pwr.mode < modeMv m then modeMv m else d.pwr.vref
    withdrawPlans { d with pwr := { d.pwr with live := m, accepted := none, ramping := true, vref := v } }

/-- MODE_SWITCH_START (R400). -/
def execModeSwitchStart (s : State) : Host.Outcome State Fault Refusal :=
  .next { s with dev := whenLive (tracked switchStart) s.dev }

/-- The clock is stable at the new frequency: SWITCHING clears, unless a further change has been accepted, and MODE names the
live mode (R24, R431). -/
def switchComplete (d : Dev) : Dev :=
  if d.pwr.ramping then
    alert 0 (setStatus 0x20000 none { d with pwr := { d.pwr with
      mode := d.pwr.live, switching := d.pwr.accepted.isSome, ramping := false, vref := modeMv d.pwr.live } })
  else d

/-- MODE_SWITCH_COMPLETE (R400). -/
def execModeSwitchComplete (s : State) : Host.Outcome State Fault Refusal :=
  .next { s with dev := whenLive switchComplete s.dev }

/-- A rail out of tolerance 400 µs after its ramp began: the old mode is live again (R401, R431). -/
def switchRevert (d : Dev) : Dev :=
  if d.pwr.ramping then
    alert 7 (setStatus 0x20000 (some (.notReady, 0)) { d with pwr := { d.pwr with
      live := d.pwr.mode, switching := d.pwr.accepted.isSome, ramping := false, vref := modeMv d.pwr.mode, railFault := true,
      reverted := true } })
  else d

/-- MODE_SWITCH_REVERT (R401). -/
def execModeSwitchRevert (s : State) : Host.Outcome State Fault Refusal :=
  .next { s with dev := whenLive (tracked switchRevert) s.dev }

/-! ## Telemetry (R403, R404) -/

/-- The once-a-second comparison (R404). -/
def driftCheck (est meas : Nat) (d : Dev) : Dev :=
  let diff : Int := (est : Int) - meas
  let out : Bool := 100 * diff.natAbs > 3 * envelope d.pwr.live
  let n := if out then min 3 (d.pwr.driftCount + 1) else 0
  let d' := { d with pwr := { d.pwr with diff := diff, driftCount := n, drift := d.pwr.drift || n == 3 } }
  if n = 3 ∧ !d.pwr.drift then alert 0 (alert 3 d') else d'

/-- DRIFT_CHECK (R404). -/
def execDriftCheck (estimateW measuredW : Nat) (s : State) : Host.Outcome State Fault Refusal :=
  .next { s with dev := whenLive (driftCheck estimateW measuredW) s.dev }

/-- No context of any partition is RUNNING. -/
def noneRunning (d : Dev) : Bool := d.ctx.all fun e => e.2.state != .running

/-- A calibration starts: the cores are clock-gated (R403). -/
def calibrate (d : Dev) : Dev := { d with pwr := { d.pwr with calibrating := true } }

/-- STATIC_CALIBRATION (R403). -/
def execStaticCalibration (s : State) : Host.Outcome State Fault Refusal :=
  .next { s with dev := whenLive (fun d => guarded (noneRunning d) calibrate d) s.dev }

/-- A CTX_START whose boundary fell in the calibration takes effect (R403). -/
def startDue (d : Dev) (o : Nat) : Dev :=
  match (getSeq d o).mgmt with
  | .start _ true => startEffect o d
  | _ => d

/-- A calibration ends (R403, R404). -/
def calibrated (measured dynamic : Nat) (d : Dev) : Dev :=
  if d.pwr.calibrating then
    let was := d.pwr.drift
    let d := { d with pwr := { d.pwr with
      static := measured - dynamic, calTick := d.tck.count % 2 ^ 30, drift := false, driftCount := 0,
      calibrating := false } }
    (List.range 8).foldl startDue (if was then alert 0 d else d)
  else d

/-- CALIBRATION_COMPLETE (R403). -/
def execCalibrationComplete (measuredW dynamicW : Nat) (s : State) : Host.Outcome State Fault Refusal :=
  .next { s with dev := settled (calibrated measuredW dynamicW) s.dev }

/-! ## Thermal (R405, R406) -/

/-- The device has power. -/
def powered (d : Dev) : Bool := d.pkg.phase != .unpowered

/-- What a sensor contributes to the hottest junction, in quarter degrees: a stack's reading counts 10 °C more (R405). -/
def junctionOf (i : Nat) (t : Int) : Int := if i < 36 then t else t + 40

/-- The hottest junction of a sample and the sensor that set it. -/
def hottestOf : Nat → List Int → Option (Nat × Int)
  | _, [] => none
  | i, t :: rest =>
    match hottestOf (i + 1) rest with
    | none => some (i, junctionOf i t)
    | some (j, x) => if junctionOf i t ≥ x then some (i, junctionOf i t) else some (j, x)

/-- The larger of an earlier value, if any, and a new one. -/
def maxOpt (old : Option Int) (t : Int) : Option Int :=
  match old with
  | none => some t
  | some x => some (max x t)

/-- The trip: THERMTRIP_N, then the steps of lockdown after its first row; no record is written (R406). -/
def thermalTrip (sensor temp : Nat) (d : Dev) : Dev :=
  if d.pkg.thermtrip then d
  else
    let d := stopAndZero .tripped d
    emit .errFatal { d with
      pkg := { d.pkg with thermtrip := true }
      ump := { d.ump with cycleCause := 4, tripSensor := sensor, tripTemp := temp } }

/-- A sample of every sensor (R49, R405, R406, R430). -/
def thermalSample (readings : List Int) (d : Dev) : Dev :=
  match hottestOf 0 readings with
  | none => d
  | some (i, t) =>
    let top := maxOpt d.tck.hottest t
    let d := { d with
      pwr := { d.pwr with
        sensors := (readings.mapIdx fun j x => (j, x)).foldl (fun s e => place e.1 (some e.2) s) d.pwr.sensors
        hotNow := if top = d.tck.hottest then d.pwr.hotNow else some i
        lvHot := maxOpt d.pwr.lvHot t }
      tck := { d.tck with hottest := top } }
    if t ≥ 460 then thermalTrip i (t / 4).toNat d else d

/-- THERMAL_SAMPLE (R405). -/
def execThermalSample (readings : List Int) (s : State) : Host.Outcome State Fault Refusal :=
  .next { s with dev := (fun d => guarded (powered d) (thermalSample readings) d) s.dev }

/-- A comparator trip: the spec names no sensor for it, so the one that TRIP_SENSOR shows is a free value (log 26). -/
def comparatorTrip (d : Dev) : Dev := thermalTrip (Config.freeNat d.free % 256) 125 { d with free := d.free + 1 }

/-- COMPARATOR_TRIP: the analog comparator of a die, at 125 °C (R406). -/
def execComparatorTrip (_die : Fin 3) (s : State) : Host.Outcome State Fault Refusal :=
  .next { s with dev := (fun d => guarded (powered d) comparatorTrip d) s.dev }

/-! ## Reference clocks (R409) -/

/-- FAB_REFCLK_LOSS: more than 10 µs takes down the four ports of the input, 0 to 3 for input 0 and 4 to 7 for input 1 (R408,
R409). -/
def execFabRefclkLoss (input : Fin 2) (ns : Nat) (s : State) : Host.Outcome State Fault Refusal :=
  .next { s with dev := guarded (ns > 10000) (settled fun d =>
    [0, 1, 2, 3].foldl (fun d i => halfDown (4 * input + i) 1 (halfDown (4 * input + i) 0 d)) d) s.dev }

/-- SYSCLK_25M lost for 1 µs or more: the internal oscillator takes over and REFLOST is set (R409). -/
def sysclkLoss (ns : Nat) (d : Dev) : Dev :=
  let d := { d with pkg := { d.pkg with sysclk := false, sysclkBack := false } }
  if ns ≥ 1000 ∧ powered d ∧ !d.pwr.refLost then alert 0 (alert 4 { d with pwr := { d.pwr with refLost := true } }) else d

/-- SYSCLK_LOSS (R409). -/
def execSysclkLoss (ns : Nat) (s : State) : Host.Outcome State Fault Refusal :=
  .next { s with dev := sysclkLoss ns s.dev }

/-- SYSCLK_25M is back; after 1 ms of stability the generator returns to it at the next boundary (R409). -/
def sysclkRestore (stableNs : Nat) (d : Dev) : Dev :=
  { d with pkg := { d.pkg with sysclk := true, sysclkBack := d.pwr.refLost && (d.pkg.sysclkBack || 1000000 ≤ stableNs) } }

/-- SYSCLK_RESTORE (R409). -/
def execSysclkRestore (stableNs : Nat) (s : State) : Host.Outcome State Fault Refusal :=
  .next { s with dev := sysclkRestore stableNs s.dev }

end Sys2Proof.Machine
end

