-- ==== Sys2Proof/Machine/Porter.lean ====
section
/-!
DEFINITION. Porter's own services (13): the Sill image, updates, lifecycle, secrets, code keys and kernel images, switch
sessions, and the mailbox requests that write the operator's configuration.
-/
namespace Sys2Proof.Machine

/-! ## The Sill image (R322 to R324) -/

/-- A record of a Sill image: its type, instance, and where its payload lies. -/
structure SilRec where
  typ : Nat
  inst : Nat
  len : Nat
  off : Nat
  deriving DecidableEq, Repr

/-- n bytes of a slot as a little-endian number. -/
def slotNat (m : Memory) (off n : Nat) : Nat := leNat (readBytes m off n)

/-- The records of an image from an offset to its end: so many of them, each framed as R324 says. -/
def silRecords (m : Memory) (fin : Nat) : Nat → Nat → Option (List SilRec)
  | 0, off => if off = fin then some [] else none
  | n + 1, off =>
    let len := slotNat m (off + 4) 4
    let padded := (len + 7) / 8 * 8
    if off + 8 + padded > fin ∨ slotNat m (off + 3) 1 ≠ 0 ∨ !allZero (readBytes m (off + 8 + len) (padded - len)) then none
    else (silRecords m fin n (off + 8 + padded)).map fun l =>
      { typ := slotNat m off 2, inst := slotNat m (off + 2) 1, len := len, off := off + 8 } :: l

/-- What an image's header and framing give (R322). -/
structure SilImage where
  length : Nat
  svn : Nat
  signer : Nat
  raise : Bool
  recs : List SilRec
  deriving DecidableEq, Repr

/-- A slot's image, when its FORMAT, LENGTH and record framing are valid (R322 to R324). -/
def silParse (m : Memory) : Option SilImage :=
  let len := slotNat m 8 4
  let n := slotNat m 6 2
  if slotNat m 0 4 ≠ 0x4C4C4953 ∨ slotNat m 4 2 ≠ 1 ∨ n < 2 ∨ n > 1024 ∨ len < 256 ∨ len > 25165824 ∨
      slotNat m 0xC 4 > 32 ∨ slotNat m 0x14 1 > 2 ∨ slotNat m 0x15 1 > 1 ∨ !allZero (readBytes m 0x16 42) then none
  else match silRecords m len n 256 with
    | none => none
    | some l =>
      let count (t : Nat) : Nat := (l.filter fun r => r.typ == t).length
      if count 1 = 1 ∧ count 2 = 1 then
        some { length := len, svn := slotNat m 0xC 4, signer := slotNat m 0x14 1, raise := slotNat m 0x15 1 == 1, recs := l }
      else none

/-- The bytes that the signature covers: the signed part with SIGNATURE zero (R322). -/
def signedBytes (m : Memory) (len : Nat) : List Byte :=
  readBytes m 0 0xA0 ++ List.replicate 96 0 ++ readBytes m 0x100 (len - 0x100)

/-- A valid signature: by the key whose digest the ROM or the fuses hold (R323). -/
def silSigned (f : Fuses) (m : Memory) (i : SilImage) : Bool :=
  let pub := readBytes m 0x40 96
  let key : Option (BitVec 384) := if i.signer = 1 then some Config.vrelsilDigest else if i.signer = 2 then f.opKey else none
  key == some (Config.sha384 pub) && Config.ecdsaOk pub (Config.sha384 (signedBytes m i.length)) (readBytes m 0xA0 96)

/-- R323: an acceptable image with whether it is validly signed, or why it is refused. -/
def silCheck (f : Fuses) (m : Memory) : Except Reason (SilImage × Bool) :=
  match silParse m with
  | none => .error .fieldRange
  | some i =>
    let ok := silSigned f m i
    if i.svn < f.svn ∨ (lcsState f = 2 ∧ !ok) then .error .unsignedCode else .ok (i, ok)

/-- The payload of an image's record of a type. -/
def silPayload (m : Memory) (i : SilImage) (t : Nat) : List Byte :=
  match i.recs.find? fun r => r.typ == t with
  | some r => readBytes m r.off r.len
  | none => []

/-- The digests that a report shows for an image: PORTER_FW, SEQ_FW and the image as stored (R322, R333). -/
def silDigests (m : Memory) (i : SilImage) : BitVec 384 × BitVec 384 × BitVec 384 :=
  (Config.sha384 (silPayload m i 1), Config.sha384 (silPayload m i 2), Config.sha384 (readBytes m 0 i.length))

/-! ## Updates (R336 to R339) -/

def setStg (g : Staging → Staging) (d : Dev) : Dev := { d with ptr := { d.ptr with stg := g d.ptr.stg } }

/-- UPDATE_BEGIN: staging opens into the inactive slot (R336); a LENGTH above the slot is FIELD_RANGE (log 29). -/
def updateBegin (length : Nat) (d : Dev) : Reason × Dev :=
  if d.ptr.stg.isOpen then (.busyUpdate, d)
  else if length > 25165824 then (.fieldRange, d)
  else (.ok, setStg (fun g => { g with isOpen := true, length := length, staged := false }) d)

/-- UPDATE_WRITE: bytes into the inactive slot; what was staged is staged no more (R336, R337). -/
def updateWrite (offset : Nat) (bs : List Byte) (d : Dev) : Reason × Dev :=
  if offset + bs.length > d.ptr.stg.length then (.fieldRange, d)
  else if d.ptr.trial then (.notReady, d)
  else
    let b := !d.ptr.slot
    (.ok, setStg (fun g => { g with isOpen := true, staged := false })
      { d with flash := setFlashSlot b (writeBytes (slotOf d.flash b) offset bs) d.flash })

/-- UPDATE_VERIFY: the inactive slot is read and checked under R323 (R337); success closes the staging (log 29). -/
def updateVerify (d : Dev) : Reason × Dev :=
  let m := slotOf d.flash (!d.ptr.slot)
  match silCheck d.fuse m with
  | .error r => (r, setStg (fun g => { g with staged := false }) d)
  | .ok (i, _) =>
    let (a, b, c) := silDigests m i
    (.ok, setStg (fun g => { g with isOpen := false, staged := true, d5 := a, d6 := b, d7 := c, svn := i.svn }) d)

/-- UPDATE_ACTIVATE: the pointer write starts (R321, R338); none while a switch is in progress. -/
def updateActivate (k : PtrSwitch) (d : Dev) : Option Reason × Dev :=
  if !d.ptr.stg.staged then (some .notReady, d)
  else if d.ptr.stg.switching.isSome then (some .busyUpdate, d)
  else (none, setStg (fun g => { g with switching := some k }) d)

/-- UPDATE_CANCEL: the inactive slot is left invalid and the staged state cleared (R336). -/
def updateCancel (d : Dev) : Reason × Dev :=
  (.ok, setStg (fun g => { g with isOpen := false, length := 0, staged := false })
    { d with flash := setFlashSlot (!d.ptr.slot) [] d.flash })

/-- UPDATE_BEGIN (R336). -/
def execUpdateBegin (seq : Word) (length : Nat) (s : State) : Host.Outcome State Fault Refusal :=
  .next { s with dev := tracked (mailbox 0x30 seq (natLe 4 length) fun d => served (updateBegin length) d) s.dev }

/-- UPDATE_WRITE (R336). -/
def execUpdateWrite (seq : Word) (offset : Nat) (bytes : List Byte) (s : State) : Host.Outcome State Fault Refusal :=
  .next { s with dev := tracked (mailbox 0x31 seq (natLe 4 offset ++ natLe 4 0 ++ bytes)
    fun d => served (updateWrite offset bytes) d) s.dev }

/-- UPDATE_VERIFY (R337). -/
def execUpdateVerify (seq : Word) (s : State) : Host.Outcome State Fault Refusal :=
  .next { s with dev := tracked (mailbox 0x32 seq [] fun d => served updateVerify d) s.dev }

/-- A mailbox activation: answered when the pointer write completes. -/
def activateMbox (d : Dev) : Served :=
  let (r, d) := updateActivate .mbox d
  (r.map fun x => (x, []), d)

/-- UPDATE_ACTIVATE (R338). -/
def execUpdateActivate (seq : Word) (s : State) : Host.Outcome State Fault Refusal :=
  .next { s with dev := tracked (mailbox 0x33 seq [] activateMbox) s.dev }

/-- UPDATE_CANCEL (R336). -/
def execUpdateCancel (seq : Word) (s : State) : Host.Outcome State Fault Refusal :=
  .next { s with dev := tracked (mailbox 0x34 seq [] fun d => served updateCancel d) s.dev }

/-- A staging command of the SMBus has finished (R413). -/
def stageDone (r : Reason) (d : Dev) : Dev := alert 5 { d with ump := { d.ump with stageReason := r, stageBusy := false } }

/-- The pointer of an activation: the staged slot on trial (R338). -/
def activated (d : Dev) : Dev :=
  setStg (fun g => { g with switching := none, activated := true })
    { d with flash := writePtr (!d.ptr.slot) true d.ptr.slot d.flash }

/-- The confirmation of a trial image: TRIAL clear, and the SVN fuses raised if the image asks (R339). -/
def confirmed (d : Dev) : Dev :=
  let prev := match ptrNow d.flash with
    | some p => p.previous
    | none => d.ptr.slot
  let svn := match d.ptr.raiseSvn with
    | some n => max d.fuse.svn n
    | none => d.fuse.svn
  setStg (fun g => { g with switching := none })
    { d with
      flash := writePtr d.ptr.slot false prev d.flash, fuse := { d.fuse with svn := svn },
      ptr := { d.ptr with trial := false } }

/-- A pointer-block write completes (R321). -/
def switchDone (d : Dev) : Dev :=
  match d.ptr.stg.switching with
  | none => d
  | some .mbox => mboxEnd .ok [] (activated d)
  | some .smbus => stageDone .ok (activated d)
  | some .silent => activated d
  | some .confirm => confirmed d

/-- SLOT_POINTER_SWITCH_COMPLETE (R321). -/
def execSlotPointerSwitchComplete (s : State) : Host.Outcome State Fault Refusal :=
  .next { s with dev := (fun d => guarded (d.pkg.phase == .running || d.pkg.phase == .recovery) (tracked switchDone) d) s.dev }

/-- Once every READY bit is set on a trial boot, Porter starts to confirm the image (R339). -/
def trialConfirm (d : Dev) : Dev :=
  if d.ptr.trial ∧ allReady d ∧ d.ptr.stg.switching.isNone then setStg (fun g => { g with switching := some .confirm }) d else d

/-- TRIAL_CONFIRM (R339). -/
def execTrialConfirm (s : State) : Host.Outcome State Fault Refusal := .next { s with dev := whenLive trialConfirm s.dev }

/-! ## Lifecycle (R345 to R350) -/

/-- LCS_STATUS.REASON records the outcome of an advance, an erase or a fusing (R347). -/
def lcsEnd (r : Reason × Dev) : Reason × Dev := (r.1, { r.2 with ptr := { r.2.ptr with lcsReason := r.1 } })

/-- The advance checks of R347 in their order. -/
def lcsCheck (d : Dev) (target : Nat) : Option Reason :=
  if target ≠ lcsCount d.fuse + 1 ∧ target ≠ 4 then some .lifecycleDenied
  else if target = 3 ∧ !d.ptr.erased then some .secretsPresent
  else if target ≠ 4 ∧ !(partsLive d).isEmpty then some .notReady
  else if d.ptr.stg.isOpen ∨ d.ptr.stg.switching.isSome then some .busyUpdate
  else none

/-- Bits blown in every copy up to a count (R347, R348). -/
def blowTo (n : Nat) (f : Fuses) : Fuses :=
  let m : Byte := BitVec.ofNat 8 (2 ^ n - 1)
  { f with lcs0 := f.lcs0 ||| m, lcs1 := f.lcs1 ||| m, lcs2 := f.lcs2 ||| m }

/-- An advance; to SCRAPPED, every key slot is zeroed and every engine stops (R347, R348). -/
def lcsAdvance (target : Nat) (d : Dev) : Reason × Dev :=
  lcsEnd (match lcsCheck d target with
    | some r => (r, d)
    | none =>
      let d := alert 0 { d with fuse := blowTo target d.fuse }
      (.ok, if target = 4 then stopAndZero .scrapped d else d))

/-- LCS_ADVANCE.TARGET written by a function: by the PF in host-managed mode (R347). -/
def lcsRegister (f : Fn) (target : Nat) (d : Dev) : Dev :=
  if f ≠ .pf ∨ porterManaged d then dropLog f .notOwner (fieldIdOf 0x48 0) 0x30048 true d else (lcsAdvance target d).2

/-- LCS_ADVANCE (R347): the register's write, or the mailbox request. -/
def execLcsAdvance (by_ : Issuer) (seq : Word) (target : Nat) (s : State) : Host.Outcome State Fault Refusal :=
  .next { s with dev := match by_ with
    | .host f => whenBar f (tracked (lcsRegister f target)) s.dev
    | .porter => tracked (mailbox 0x40 seq (natLe 1 target) fun d => served (lcsAdvance target) d) s.dev }

/-- UMP_DUMP_STATUS.STATE takes a value; a change interrupts the PF (R388). -/
def setDumpState (n : Nat) (d : Dev) : Dev :=
  if d.ump.dumpState = n then d else interrupt 0 4 { d with ump := { d.ump with dumpState := n } }

/-- An export that runs under a session stops with it; the dump stays held (R384). -/
def stopExport (s : Nat) (d : Dev) : Dev :=
  if d.ump.dumpState = 3 ∧ d.ump.exportSess = s then setDumpState 2 { d with ump := { d.ump with exporting := 0 } } else d

/-- A session ends: its windows are disabled at the next boundary, and its export stops (R300, R384). -/
def endSessionSlot (s : Nat) (d : Dev) : Dev :=
  stopExport s { d with
    ptr := { d.ptr with sess := put none s none d.ptr.sess }
    win := d.win.map fun e => if e.2.live ∧ e.2.session = s then (e.1, { e.2 with ended := true }) else e }

/-- Every session ends, as when it is asked to. -/
def endEverySession (d : Dev) : Dev := d.ptr.sess.foldl (fun d e => endSessionSlot e.1 d) d

/-- SECRETS_ERASE (R349): job, session and dump keys zeroed, every domain rotated, user records and charters gone. The
alias key stays, since the report that shows SECRETS_ERASED is signed with it (log 30). -/
def secretsErase (d : Dev) : Reason × Dev :=
  lcsEnd (if !(partsLive d).isEmpty then (.notReady, d)
    else
      let d := (List.range 256).foldl (fun d k => rotateDomain k d) (endEverySession d)
      (.ok, { d with
        ret := { d.ret with dumpKey := 0 }
        flash := writeUserRecs [] d.flash
        ptr := { d.ptr with
          jobKeys := [], sess := [], charter := [], loading := none, heldDoms := [], switchSess := [], erased := true } }))

/-- SECRETS_ERASE (R349). -/
def execSecretsErase (seq : Word) (s : State) : Host.Outcome State Fault Refusal :=
  .next { s with dev := tracked (mailbox 0x41 seq [] fun d => served secretsErase d) s.dev }

/-- OPKEY_FUSE (R350). -/
def opkeyFuse (key : List Byte) (d : Dev) : Reason × Dev :=
  lcsEnd (if lcsCount d.fuse ≥ 2 then (.lifecycleDenied, d)
    else if d.fuse.opKey.isSome then (.fieldConflict, d)
    else (.ok, { d with fuse := { d.fuse with opKey := some (Config.sha384 key) } }))

/-- OPKEY_FUSE (R350). -/
def execOpkeyFuse (seq : Word) (key : List Byte) (s : State) : Host.Outcome State Fault Refusal :=
  .next { s with dev := tracked (mailbox 0x42 seq key fun d => served (opkeyFuse key) d) s.dev }

/-- A reason that the spec does not name for a record: a free value (log 31). -/
def freeReason (n : Nat) : Reason :=
  ([.ok, .fieldRange, .fieldConflict, .lockedWhileEnabled, .notReady, .engineAbsent, .notOwner, .labelDenied,
    .thresholdUnmet, .lifecycleDenied, .secretsPresent, .busyUpdate, .tickOverrun, .waitTimeout, .deadlock, .memberLate,
    .memberLost, .leaseRefused, .integrityFail, .metadataFail, .illegalSlot, .inconsistentBundle, .nonfinite,
    .capacityDrop, .staleData, .hungUnit, .modeMismatch, .unsignedCode, .leaseExpired, .waitDeadline, .charterMismatch,
    .portDown, .scrubPending, .hostStall, .poisoned] : List Reason).getD (Config.freeNat n % 35) .ok

/-- Lockdown that Porter's own checks cause (R328, R345, R358). -/
def porterLockdown (d : Dev) : Dev :=
  lockdown { recBase with source := 10, reason := freeReason d.free } { d with free := d.free + 1 }

/-- The lifecycle copies as one check finds them (R345). -/
inductive FuseCheck where
  | agree
  | interrupted (count : Nat)
  | mismatch
  deriving DecidableEq, Repr

/-- Copies that differ only in the bit that the next advance blows show an interrupted advance (R345). -/
def fuseCheck (f : Fuses) : FuseCheck :=
  let both := f.lcs0 &&& f.lcs1 &&& f.lcs2
  let any := f.lcs0 ||| f.lcs1 ||| f.lcs2
  let k := blown both
  if any = both then .agree
  else if both = BitVec.ofNat 8 (2 ^ k - 1) ∧ any = BitVec.ofNat 8 (2 ^ (k + 1) - 1) then .interrupted (k + 1)
  else .mismatch

/-- The vote: an interrupted advance is completed, any other difference is lockdown (R345). -/
def lifecycleVote (d : Dev) : Dev :=
  match fuseCheck d.fuse with
  | .agree => d
  | .interrupted n => { d with fuse := blowTo n d.fuse }
  | .mismatch => porterLockdown d

/-- LIFECYCLE_FUSE_CHECK (R345). -/
def execLifecycleFuseCheck (s : State) : Host.Outcome State Fault Refusal :=
  .next { s with dev := whenLive (tracked lifecycleVote) s.dev }

/-- PERIODIC_SELF_TEST: a failure leads to lockdown (R328). -/
def execPeriodicSelfTest (r : CheckResult) (s : State) : Host.Outcome State Fault Refusal :=
  .next { s with dev := whenLive (fun d => guarded (r == .fail) porterLockdown d) s.dev }

/-! ## Code keys and kernel images (R344) -/

/-- CODE_KEY_REGISTER: a registration replaces an earlier one of its VF and index (R344, R349). -/
def codeKeyRegister (v index : Nat) (digest : BitVec 384) (d : Dev) : Reason × Dev :=
  let old := (userRecs d.flash).filter fun b => match keyReg d.fuse.uds b with
    | some k => !(k.1 == v && k.2.1 == index)
    | none => true
  let (n, d) := newDraw d
  let new := sealUser (Config.userKey d.fuse.uds) (natBe 12 ((Config.draw n).toNat % 2 ^ 96)) (keyText v index digest)
  (.ok, { d with flash := writeUserRecs (old ++ [new]) d.flash, ptr := { d.ptr with erased := false } })

/-- CODE_KEY_REGISTER (R344). -/
def execCodeKeyRegister (seq : Word) (v : Fin 8) (index : Fin 4) (digest : BitVec 384) (s : State) :
    Host.Outcome State Fault Refusal :=
  .next { s with dev := tracked (mailbox 0x50 seq (natLe 1 v.val ++ natLe 1 index.val ++ digestBytes digest)
    fun d => served (codeKeyRegister v.val index.val digest) d) s.dev }

/-- The keys whose signatures count for a partition: its charter's, or the VF's registered ones (R344). -/
def codeKeys (d : Dev) (v : Nat) : List (BitVec 384) :=
  let c := getCharter d v
  if c.state ≠ .none then (c.parties.map (·.codeKey)).filter (· != 0)
  else (((userRecs d.flash).filterMap (keyReg d.fuse.uds)).filter fun k => k.1 == v).map (·.2.2)

/-- The image in a cluster. -/
def clusterImage (d : Dev) (o c : Nat) (a : ImageArgs) : List Byte := readBytes d.cmem (cmemBase o c + a.offset) a.length

/-- The digest that a kernel signature covers (R344). -/
def kernelDigest (a : ImageArgs) (image : List Byte) : BitVec 384 :=
  Config.sha384 (ascii "TY2-KERNEL" ++ natLe 4 a.length ++ image)

/-- The distinct keys whose signatures of an image count (R344). -/
def signers (d : Dev) (v : Nat) (a : ImageArgs) (image : List Byte) (sigs : List (List Byte)) : List (BitVec 384) :=
  (sigs.filterMap fun s =>
    let pub := s.take 96
    let k := Config.sha384 pub
    if (codeKeys d v).contains k && Config.ecdsaOk pub (kernelDigest a image) (s.drop 96) then some k else none).eraseDups

/-- IMAGE_SIGNED_REGISTER (R344): the steps in order, after which Porter issues IMAGE_REGISTER with the slot SIGNED. -/
def imageSigned (o : Nat) (a : ImageArgs) (sigs : List (List Byte)) (d : Dev) : Reason × Dev :=
  match octVf d o with
  | none => (.notOwner, d)
  | some v =>
    let clus := (List.range 9).filter fun c => bitAt a.mask c
    let imgs := clus.map fun c => clusterImage d o c a
    let image := imgs.headD []
    let keys := signers d v a image sigs
    let ch := getCharter d v
    let need := if ch.state = .none then 1 else ch.signers
    if !partIdle d v then (.notReady, d)
    else if (getSeq d o).mgmt ≠ .none then (.busyUpdate, d)
    else if !mgmtRange (.imageRegister a) ∨ a.mask = 0 ∨ a.mask ≥ 512 ∨ a.offset + a.length > 2 ^ 22 then (.fieldRange, d)
    else if clus.any fun c => !clusterPresent d c then (.engineAbsent, d)
    else if imgs.any (· != image) then (.fieldConflict, d)
    else if keys.length < need then (.unsignedCode, d)
    else if !has8 d.pkg.octReady o then (.notReady, d)
    else match imageCheck d o a with
      | some r => (r, setSeq o (fun s => { s with mgmtReason := r }) d)
      | none => (.ok, setSeq o (fun s => { s with mgmtReason := .ok })
          (registerImage o a true keys d))

/-- The fields of an IMAGE_REGISTER as bytes (R227). -/
def imageBytes (a : ImageArgs) : List Byte :=
  natLe 1 a.ctx ++ natLe 1 a.slot ++ natLe 2 a.mask ++ natLe 4 a.offset ++ natLe 4 a.length

/-- IMAGE_SIGNED_REGISTER (R344). -/
def execImageSignedRegister (seq : Word) (o : Fin 8) (a : ImageArgs) (signatures : List (List Byte)) (s : State) :
    Host.Outcome State Fault Refusal :=
  .next { s with dev := mailbox 0x51 seq (natLe 1 o.val ++ imageBytes a ++ signatures.flatten)
                      (fun d => served (imageSigned o.val a signatures) d) s.dev }

/-! ## Switch sessions and job keys (R342, R343) -/

/-- A relayed SPDM message: Porter's answer toward the switch; `report` is the session that the message completes, and what
the switch reports in it. Once the switch counts as attested, the pair keys of the plane's groups are sent (R343). -/
def switchSpdm (p : Nat) (report : Option SwitchReport) (d : Dev) : Served :=
  let answer := Config.spdmBytes 0 d.free
  let d := { d with free := d.free + 1 }
  let d := match report with
    | some r => { d with ptr := { d.ptr with switchSess := put none p (some r) d.ptr.switchSess } }
    | none => d
  if report.isSome ∧ switchAttested d p then
    (some (.ok, answer), (portGroups d p).foldl (fun d s => sendPairKeys s d) d)
  else (some (.ok, answer), d)

/-- SWITCH_SPDM (R343). -/
def execSwitchSpdm (seq : Word) (p : Fin 8) (message : List Byte) (report : Option SwitchReport) (s : State) :
    Host.Outcome State Fault Refusal :=
  .next { s with dev := mailbox 0x60 seq (natLe 1 p.val ++ message) (switchSpdm p.val report) s.dev }

/-- The switch session ends: the plane is no longer attested, and its leases are treated as expired (R265, R343). -/
def switchSessionEnd (p : Nat) (d : Dev) : Dev :=
  let d := { d with ptr := { d.ptr with switchSess := put none p none d.ptr.switchSess } }
  (portGroups d p).foldl (fun d s =>
    let d := dropLease s d
    setGroup s (fun g => { g with lease := none, requested := false }) d) d

/-- SWITCH_SESSION_END (R343). -/
def execSwitchSessionEnd (p : Fin 8) (s : State) : Host.Outcome State Fault Refusal :=
  .next { s with dev := settled (switchSessionEnd p) s.dev }

/-- JOB_KEY: in host-managed mode, for the group of that number of every VF (R341, R342, log 32). -/
def jobKey (g : Nat) (key : List Byte) (d : Dev) : Reason × Dev :=
  if porterManaged d then (.notOwner, d)
  else if (List.range 8).any fun v => groupLoaded d v g then (.busyUpdate, d)
  else (.ok, (List.range 8).foldl (fun d v => putJobKey v g key d) d)

/-- JOB_KEY (R342). -/
def execJobKey (seq : Word) (group : Nat) (key : List Byte) (s : State) : Host.Outcome State Fault Refusal :=
  .next { s with dev := mailbox 0x61 seq (natLe 2 group ++ key) (fun d => served (jobKey group key) d) s.dev }

/-! ## Requests that write the operator's configuration (R28, R301, R303, R316, R341) -/

/-- TICK_PERIOD: the period is written and applied at the next boundary, when R27 and R28 allow it. -/
def tickPeriod (units : Nat) (d : Dev) : Reason × Dev :=
  match unitsCheck units, periodCheck d with
  | some x, _ => (x.1, d)
  | none, some r => (r, d)
  | none, none =>
    if (getBlk d 0x10000).apply then (.busyUpdate, d)
    else (.ok, setBlk 0x10000 (fun x => { x with apply := true })
      { d with tck := { d.tck with units := { d.tck.units with shadow := units } } })

/-- TICK_PERIOD (R28). -/
def execTickPeriod (seq : Word) (units : Nat) (s : State) : Host.Outcome State Fault Refusal :=
  .next { s with dev := mailbox 0x12 seq (natLe 1 units) (fun d => served (tickPeriod units) d) s.dev }

/-- FINE_TIMING (R316, R341). -/
def execFineTiming (seq : Word) (on : Bool) (s : State) : Host.Outcome State Fault Refusal :=
  .next { s with dev := tracked (mailbox 0x13 seq (natLe 1 (b2n on)) fun d => served (fineWrite on) d) s.dev }

/-- A whole image of SHT_PART written: EN from 0 to 1 creates, from 1 to 0 releases; the RWL fields are locked while the
partition is held (R45, R303 to R306, R312). -/
def partImage (v image : Nat) (d : Dev) : Reason × Dev :=
  let p := getPart d v
  let en := bitAt image 24
  let same : Bool := p.octants.toNat == bits image 0 8 && p.kdBase == bits image 8 8 && p.kdCount == bits image 16 7
  if !p.en && en then partCreate v (bits image 0 8) (bits image 8 8) (bits image 16 7) (bitAt image 23) d
  else
    let d := setPart v (fun p => { p with zeroFill := bitAt image 23 }) d
    if p.en && !en then partRelease v d
    else if same then (.ok, d)
    else if partHeld p then (.lockedWhileEnabled, d)
    else (.ok, setPart v (fun p => { p with
      octants := BitVec.ofNat 8 image, kdBase := bits image 8 8, kdCount := bits image 16 7 }) d)

/-- PART_SET (R303). -/
def execPartSet (seq : Word) (v : Fin 8) (image : DWord) (s : State) : Host.Outcome State Fault Refusal :=
  .next { s with dev := tracked (mailbox 0x10 seq (natLe 1 v.val ++ natLe 8 image.toNat)
    fun d => served (partImage v.val image.toNat) d) s.dev }

/-- SEQ_MGMT: Porter issues a management command; a request is answered when the command ends (R226, R275, R341). -/
def seqMgmt (o : Nat) (c : MgmtCmd) (d : Dev) : Served :=
  if (getSeq d o).mgmt ≠ .none then (some (.busyUpdate, []), d)
  else
    let r := mgmtStart o false c d
    (match r.1 with
      | .ended x => some (x, [])
      | .running _ => none, mgmtSettle o true r)

/-- SEQ_MGMT (R275). -/
def execSeqMgmt (seq : Word) (o : Fin 8) (c : MgmtCmd) (s : State) : Host.Outcome State Fault Refusal :=
  .next { s with dev := mailbox 0x20 seq (natLe 1 o.val ++ mgmtBytes c) (seqMgmt o.val c) s.dev }

/-- GROUP: Porter loads the group whose descriptor lies at an address, or unloads one (R241, R242). -/
def groupRequest (load : Bool) (gbase p g : Nat) (ev : LineEvent) (d : Dev) : Reason × Dev :=
  if load then groupLoad ev { d with rly := { d.rly with gbase := gbase % 2 ^ 34 } } else groupUnload p g d

/-- GROUP (R241). -/
def execGroup (seq : Word) (load : Bool) (gbase : Nat) (p : Fin 8) (group : Nat) (ev : LineEvent) (s : State) :
    Host.Outcome State Fault Refusal :=
  .next { s with dev := mailbox 0x21 seq (natLe 1 (b2n load) ++ natLe 1 p.val ++ natLe 2 group ++ natLe 8 gbase)
                      (fun d => served (groupRequest load gbase p.val group ev) d) s.dev }

/-- A slot's packed form (TRS_SLOT). -/
def packSlot (start fin : Nat) (en : Bool) : Nat := start % 2 ^ 17 + 2 ^ 32 * (fin % 2 ^ 17) + 2 ^ 63 * b2n en

/-- A slot written and applied at the next boundary (R301); what its check would refuse is refused at once. -/
def slotRequest (v x : Nat) (d : Dev) : Reason × Dev :=
  if (getBlk d 0x90000).apply then (.busyUpdate, d)
  else match slotCheck d fun u => if u = v then x else (getSlot d u).shadow with
    | some e => (e.1, d)
    | none => (.ok, setBlk 0x90000 (fun b => { b with apply := true }) (setSlot v (fun r => { r with shadow := x }) d))

/-- A window's fields written (R45): they are locked while it is enabled or until its disabling has taken effect. -/
def winWrite (v w : Nat) (x : Win) (d : Dev) : Reason × Dev :=
  let old := getWin d v w
  let new := { old with
    dataBase := x.dataBase, recordBase := x.recordBase, size := x.size, ring := x.ring, hostWritten := x.hostWritten,
    party := x.party, partyValid := x.partyValid, admitMask := x.admitMask, session := x.session }
  if new = old then (.ok, d)
  else if old.en || old.live then (.lockedWhileEnabled, d)
  else (.ok, setWin v w (fun _ => new) d)

/-- TRS_CONFIG: slot or window settings (R300, R301). -/
def trsConfig (a : TrsArgs) (d : Dev) : Reason × Dev :=
  match a with
  | .slot v s e en => slotRequest v.val (packSlot s e en) d
  | .window v w db rb sz ring hw party pv admitMask ss en =>
    let x := { Win.zero with
      dataBase := db, recordBase := rb, size := sz, ring := ring, hostWritten := hw, party := party, partyValid := pv,
      admitMask := admitMask, session := ss }
    if !en ∧ (getWin d v.val w.val).en then (.ok, winClose v.val w.val d)
    else
      let (r, d) := winWrite v.val w.val x d
      if r = .ok ∧ en then winEnable v.val w.val d else (r, d)

/-- The bytes of a TRS_CONFIG request. -/
def trsBytes : TrsArgs → List Byte
  | .slot v s e en => natLe 1 v.val ++ natLe 8 (packSlot s e en)
  | .window v w db rb sz ring hw party pv admitMask ss en =>
    natLe 1 v.val ++ natLe 1 w.val ++ natLe 8 (db * 4096) ++ natLe 8 (rb * 64) ++
    natLe 8 (sz + 2 ^ 17 * b2n ring + 2 ^ 18 * b2n hw + 2 ^ 19 * party + 2 ^ 23 * b2n pv + 2 ^ 24 * admitMask.toNat +
      2 ^ 40 * ss + 2 ^ 48 * b2n en)

/-- TRS_CONFIG (R301). -/
def execTrsConfig (seq : Word) (a : TrsArgs) (s : State) : Host.Outcome State Fault Refusal :=
  .next { s with dev := mailbox 0x22 seq (trsBytes a) (fun d => served (trsConfig a) d) s.dev }

/-- The RWL fields of an LBL_POOL_CFG image. -/
def poolFields (x : Nat) (p : Pool) : Pool :=
  { p with octant := bits x 0 3, cluster := bits x 3 4, page := bits x 8 6, count := bits x 14 4, vf := bits x 18 3 }

/-- A whole image of LBL_POOL_CFG written (R45, R287). -/
def poolImage (n x : Nat) (d : Dev) : Reason × Dev :=
  let p := getPool d n
  if p.en then
    if !bitAt x 21 then (.ok, setPool n (fun p => noPool (poolFields x p)) d)
    else if poolFields x p = p then (.ok, d)
    else (.lockedWhileEnabled, d)
  else
    let d := setPool n (poolFields x) d
    if bitAt x 21 then poolEnable n d else (.ok, d)

/-- POOL_CONFIG (R287, R341). -/
def execPoolConfig (seq : Word) (n : Fin 64) (config : DWord) (s : State) : Host.Outcome State Fault Refusal :=
  .next { s with dev := mailbox 0x23 seq (natLe 1 n.val ++ natLe 8 config.toNat)
                      (fun d => served (fun d => if porterManaged d then (.notOwner, d) else poolImage n.val config.toNat d) d) s.dev }

end Sys2Proof.Machine
end

