-- ==== Sys2Proof/Machine/Spdm.lean ====
section
/-!
DEFINITION. The SPDM responder (13): certificates, the measurement report and sessions. What SPDM 1.3 itself lays down of a
message's bytes is left uninterpreted (log 11).
-/
namespace Sys2Proof.Machine

/-! ## Answers -/

/-- ErrorCodes of SPDM 1.3 that the responder uses. PRESUMED from SPDM (log 11). -/
def errInvalid : Nat := 0x01
def errBusy : Nat := 0x03
def errDecrypt : Nat := 0x06

/-- A response whose bytes SPDM 1.3 alone determines. -/
def spdmPlain (f : Fn) (code : Nat) (d : Dev) : Dev :=
  spdmSay (fnIx f) code (Config.spdmBytes code d.free) { d with free := d.free + 1 }

/-- GET_VERSION (R331). -/
def execGetVersion (fn : Fn) (s : State) : Host.Outcome State Fault Refusal :=
  .next { s with dev := spdmRequest fn (spdmPlain fn 0x04) s.dev }

/-- GET_CAPABILITIES (R331). -/
def execGetCapabilities (fn : Fn) (s : State) : Host.Outcome State Fault Refusal :=
  .next { s with dev := spdmRequest fn (spdmPlain fn 0x61) s.dev }

/-- NEGOTIATE_ALGORITHMS: an offer without the one supported set is an error (R331). -/
def negotiate (f : Fn) (supported : Bool) (d : Dev) : Dev :=
  if supported then spdmPlain f 0x63 d else spdmError (fnIx f) errInvalid .ok d

/-- NEGOTIATE_ALGORITHMS (R331). -/
def execNegotiateAlgorithms (fn : Fn) (supported : Bool) (s : State) : Host.Outcome State Fault Refusal :=
  .next { s with dev := spdmRequest fn (negotiate fn supported) s.dev }

/-! ## Certificates (R330) -/

/-- The alias certificate: the alias key and the measured digests, signed by the DeviceID key (R330). -/
def aliasCert (d : Dev) : List Byte :=
  let tbs := Config.aliasTbs (Config.derivePub d.ptr.cdi1) [Config.romDigest, d.ptr.d2, d.ptr.d3, d.ptr.d4]
  Config.x509 tbs (Config.ecdsaSign d.ret.cdi0 (Config.sha384 tbs))

/-- The certificate chain of slot 0: the identity block's chain, or the DeviceID certificate alone when the block is ignored,
then the alias certificate (R330). -/
def certChain (d : Dev) : List Byte :=
  (if d.ptr.identityLost then Config.deviceCert d.ret.cdi0 else identityChain d.flash) ++ aliasCert d

/-- GET_DIGESTS (R331): the digest of slot 0's chain. -/
def execGetDigests (fn : Fn) (s : State) : Host.Outcome State Fault Refusal :=
  .next { s with dev := (spdmRequest fn fun d =>
    spdmSay (fnIx fn) 0x01 (digestBytes (Config.sha384 (certChain d))) d) s.dev }

/-- Bytes of a chain in one 4 KiB message: SPDM 1.3 puts 8 bytes before them (PRESUMED, log 90). -/
def portionMax : Nat := 4088

/-- GET_CERTIFICATE: a portion of slot 0's chain, within one 4 KiB message; no other slot holds one (R330, R331). -/
def getCertificate (f : Fn) (slot offset length : Nat) (d : Dev) : Dev :=
  if slot ≠ 0 ∨ offset ≥ (certChain d).length then spdmError (fnIx f) errInvalid .ok d
  else spdmSay (fnIx f) 0x02 ((certChain d).drop offset |>.take (min length portionMax)) d

/-- GET_CERTIFICATE (R330). -/
def execGetCertificate (fn : Fn) (slot offset length : Nat) (s : State) : Host.Outcome State Fault Refusal :=
  .next { s with dev := spdmRequest fn (getCertificate fn slot offset length) s.dev }

/-- Porter's own nonce, drawn for a signed response. -/
def ownNonce (d : Dev) : List Byte := natBe 32 (Config.draw (3 * (d.ret.rng + 1))).toNat

/-- A signed response: its content, Porter's nonce and the alias key's signature over the transcript, in which the requester's
nonce is bound (R333). -/
def signedSay (f : Fn) (code : Nat) (nonce : BitVec 256) (content : List Byte) (d : Dev) : Dev :=
  let body := content ++ ownNonce d
  let sig := Config.ecdsaSign d.ptr.cdi1 (Config.sha384 (natBe 32 nonce.toNat ++ body))
  spdmSay (fnIx f) code (body ++ sig) (newDraw d).2

/-- CHALLENGE: only slot 0 can be challenged (R331). -/
def challenge (f : Fn) (slot : Nat) (nonce : BitVec 256) (d : Dev) : Dev :=
  if slot ≠ 0 then spdmError (fnIx f) errInvalid .ok d
  else signedSay f 0x03 nonce (digestBytes (Config.sha384 (certChain d))) d

/-- CHALLENGE (R331). -/
def execChallenge (fn : Fn) (slot : Nat) (nonce : BitVec 256) (s : State) : Host.Outcome State Fault Refusal :=
  .next { s with dev := spdmRequest fn (challenge fn slot nonce) s.dev }

/-! ## The measurement report (R333, R335) -/

/-- The kind of a measurement's value in DMTF format: ROM, firmware, or the firmware's configuration (PRESUMED, log 90). -/
def measKind (index : Nat) : Nat := if index = 1 then 0 else if index < 8 then 1 else 3

/-- A measurement block in DMTF measurement format: index, specification 1 and size, then the value's type with bit 7 for a raw
bit stream, its size and the stream (R333; the layout is SPDM 1.3's, log 90). -/
def measBlock (index : Nat) (b : List Byte) : List Byte :=
  natLe 1 index ++ natLe 1 1 ++ natLe 2 (b.length + 3) ++ natLe 1 (0x80 + measKind index) ++ natLe 2 b.length ++ b

/-- The report-control block (R333); PENDING_SVN is that of the staged image, 0 without one. -/
def reportControl (d : Dev) : List Byte :=
  natLe 4 d.ret.generation.toNat ++ natLe 4 (reportFlags d) ++
    natLe 4 (if d.ptr.stg.staged then d.ptr.stg.svn else 0) ++ natLe 4 0

/-- The charter block of a VF (R333). -/
def charterBlock (c : Charter) : List Byte :=
  digestBytes c.hash ++ natLe 1 (charterCode c.state) ++ natLe 2 c.approved.toNat ++ natLe 13 0

/-- Block 0x12: only to a VF whose partition exists (R333, R387). -/
def charterPartOf (d : Dev) : Fn → List Byte
  | .pf => []
  | .vf v => if (getPart d v.val).live then measBlock 0x12 (charterBlock (getCharter d v.val)) else []

/-- The staged image's blocks (R333, R335). -/
def stagedBlocks (g : Staging) : List Byte :=
  if g.staged then measBlock 5 (digestBytes g.d5) ++ measBlock 6 (digestBytes g.d6) ++ measBlock 7 (digestBytes g.d7) else []

/-- The whole report, from one snapshot (R333, R334). -/
def reportBytes (d : Dev) (f : Fn) : List Byte :=
  measBlock 1 (digestBytes Config.romDigest) ++ measBlock 2 (digestBytes d.ptr.d2) ++ measBlock 3 (digestBytes d.ptr.d3) ++
  measBlock 4 (digestBytes d.ptr.d4) ++ stagedBlocks d.ptr.stg ++ measBlock 0x10 (deviceState d) ++
  measBlock 0x11 (layoutBlock d) ++ charterPartOf d f ++ measBlock 0x13 (reportControl d)

/-- The requester's own partition is in L2 (R335). -/
def ownResetting (d : Dev) : Fn → Bool
  | .pf => false
  | .vf v => resetting d v.val

/-- GET_MEASUREMENTS, by the outcomes of R335 in their order. -/
def getMeasurements (f : Fn) (nonce : BitVec 256) (d : Dev) : Dev :=
  if d.ptr.stg.switching.isSome then spdmError (fnIx f) vendorDefined .busyUpdate d
  else if ownResetting d f then spdmError (fnIx f) vendorDefined .notReady d
  else signedSay f 0x60 nonce (reportBytes d f) d

/-- GET_MEASUREMENTS (R335). -/
def execGetMeasurements (fn : Fn) (nonce : BitVec 256) (s : State) : Host.Outcome State Fault Refusal :=
  .next { s with dev := spdmRequest fn (getMeasurements fn nonce) s.dev }

/-! ## Sessions (R331, R300) -/

/-- The session slots of a function's share: 16 for the PF, 18 for each VF (R331). -/
def shareOf : Fn → List Nat
  | .pf => List.range 16
  | .vf v => (List.range 18).map (16 + 18 * v.val + ·)

/-- KEY_EXCHANGE: a session of the function's own share, or Busy (R331). -/
def keyExchange (f : Fn) (leaf : List Byte) (d : Dev) : Dev :=
  match (shareOf f).find? fun s => (look none s d.ptr.sess).isNone with
  | none => spdmError (fnIx f) errBusy .ok d
  | some s =>
    let (n, d) := newDraw d
    let x : Session :=
      { fn := fnIx f, done := false, identity := Config.sha384 leaf, keyGen := 0, exports := 0, secret := n }
    spdmSay (fnIx f) 0x64 (natLe 2 s) { d with ptr := { d.ptr with sess := put none s (some x) d.ptr.sess } }

/-- KEY_EXCHANGE (R331). -/
def execKeyExchange (fn : Fn) (leafKey : List Byte) (s : State) : Host.Outcome State Fault Refusal :=
  .next { s with dev := spdmRequest fn (keyExchange fn leafKey) s.dev }

/-- Every session of a function's DOE mailbox ends (R379, R384). -/
def endSessions (f : Fn) (d : Dev) : Dev :=
  (shareOf f).foldl (fun d s => if (look none s d.ptr.sess).isSome then endSessionSlot s d else d) d

/-- FINISH of a session whose KEY_EXCHANGE is done: mutual authentication completes it, or its failure ends it (R331). -/
def finishSession (s : Nat) (ok : Bool) (d : Dev) : Dev :=
  match look none s d.ptr.sess with
  | none => d
  | some x =>
    if x.done then d
    else spdmRequest (fnOf x.fn) (fun d =>
      if ok then spdmSay x.fn 0x65 [] { d with ptr := { d.ptr with sess := put none s (some { x with done := true }) d.ptr.sess } }
      else spdmError x.fn errDecrypt .ok (endSessionSlot s d)) d

/-- FINISH (R331). -/
def execFinish (session : Nat) (mutualOk : Bool) (s : State) : Host.Outcome State Fault Refusal :=
  .next { s with dev := finishSession session mutualOk s.dev }

/-- KEY_UPDATE: the session's keys move on (R331). -/
def keyUpdate (s : Nat) (x : Session) (d : Dev) : Dev :=
  spdmSay x.fn 0x69 []
    { d with ptr := { d.ptr with sess := put none s (some { x with keyGen := x.keyGen + 1 }) d.ptr.sess } }

/-- KEY_UPDATE (R331). -/
def execKeyUpdate (session : Nat) (s : State) : Host.Outcome State Fault Refusal :=
  .next { s with dev := inSession session (keyUpdate session) s.dev }

/-- HEARTBEAT (R331). -/
def execSpdmHeartbeat (session : Nat) (s : State) : Host.Outcome State Fault Refusal :=
  .next { s with dev := inSession session (fun x d => spdmSay x.fn 0x68 [] d) s.dev }

/-- END_SESSION (R300). -/
def execEndSession (session : Nat) (s : State) : Host.Outcome State Fault Refusal :=
  .next { s with dev := inSession session (fun x d => spdmSay x.fn 0x6C [] (endSessionSlot session d)) s.dev }

/-- DOE Discovery: the three data object protocols of PCI-SIG's vendor identifier, by their types (R387). -/
def doeDiscovery (f : Fn) (d : Dev) : Dev :=
  guarded (fnPresent d f && (d.pkg.phase == .running || d.pkg.phase == .recovery))
    (spdmSay (fnIx f) 0 (natLe 2 1 ++ natLe 1 0 ++ natLe 2 1 ++ natLe 1 1 ++ natLe 2 1 ++ natLe 1 2)) d

/-- DOE_DISCOVERY (R387). -/
def execDoeDiscovery (fn : Fn) (s : State) : Host.Outcome State Fault Refusal :=
  .next { s with dev := doeDiscovery fn s.dev }

end Sys2Proof.Machine
end

