-- ==== Sys2Proof/Machine/Dump.lean ====
section
/-!
DEFINITION. The crash dump (14): its sections, TRIGGER, time-outs, export and discard; and the layout of a stream's state,
which the debug block shares (R373, R425).
-/
namespace Sys2Proof.Machine

/-! ## A stream's 4,608 bytes (R373) -/

/-- A stage of a chain register as it stands in the dump: its function, operand, a mark that it is there, its immediate. The
spec gives the order of a stream's fields and not their places (log 33). -/
def stageBytes (s : Stage) : List Byte := natLe 1 s.fn ++ natLe 1 s.bsel ++ natLe 2 1 ++ natLe 4 s.imm.toNat

/-- The chain register's 64 bytes. -/
def chainBytes (l : List Stage) : List Byte := slice ((l.map stageBytes).flatten) 0 64

/-- The stages that 64 bytes of a chain register hold. -/
def chainOfBytes (b : List Byte) : List Stage :=
  (((List.range 8).map fun i => slice b (8 * i) 8).takeWhile fun e => byteAt e 2 != 0).map fun e =>
    { fn := byteAt e 0, bsel := byteAt e 1, imm := BitVec.ofNat 32 (field e 4 4) }

/-- A stream's state in the order of R373: PC, s0 to s31, p0 to p3, control label, t0 to t7, scale slots, chain register,
ROWPOS and COLPOS (log 33 gives the places). -/
def streamState (x : Stream) : List Byte :=
  natLe 4 x.pc ++ ((List.range 32).map fun r => natLe 4 (sreg x r).toNat).flatten ++
  ((List.range 4).map fun p => natLe 1 (b2n (predOf x p))).flatten ++ natLe 8 x.ctl.toNat ++
  readBytes x.tile 0 4096 ++ readBytes x.scale 0 256 ++ chainBytes x.chain ++
  natLe 4 x.rowPos ++ natLe 4 x.colPos ++ List.replicate 40 0

/-- Byte k of a 32-bit number replaced. -/
def setByteOf (w : Word) (k : Nat) (b : Byte) : Word :=
  BitVec.ofNat 32 (leNat ((natLe 4 w.toNat).set k b))

/-- One byte of a stream's state written (R425): s0, p0 and labels stay as they are. -/
def setStateByte (a : Nat) (b : Byte) (x : Stream) : Stream :=
  if a < 4 then { x with pc := (setByteOf (BitVec.ofNat 32 x.pc) a b).toNat % 2 ^ 15 / 2 * 2 }
  else if a < 8 then x
  else if a < 132 then
    let r := (a - 4) / 4
    { x with sreg := put 0 r (setByteOf (sreg x r) (a % 4) b) x.sreg }
  else if a < 133 then x
  else if a < 136 then { x with pred := put false (a - 132) (b.getLsbD 0) x.pred }
  else if a < 144 then x
  else if a < 4240 then { x with tile := writeByte x.tile (a - 144) b }
  else if a < 4496 then { x with scale := writeByte x.scale (a - 4240) b }
  else if a < 4560 then { x with chain := chainOfBytes ((chainBytes x.chain).set (a - 4496) b) }
  else if a < 4564 then { x with rowPos := (setByteOf (BitVec.ofNat 32 x.rowPos) (a - 4560) b).toNat }
  else if a < 4568 then { x with colPos := (setByteOf (BitVec.ofNat 32 x.colPos) (a - 4564) b).toNat }
  else x

/-- Bytes of a stream's state written. -/
def setStateBytes (a : Nat) : List Byte → Stream → Stream
  | [], x => x
  | b :: t, x => setStateBytes (a + 1) t (setStateByte a b x)

/-! ## Sections (R371 to R373) -/

/-- Labelled state of a stream replaced by zeros (R372). -/
def hideStream (x : Stream) : Stream :=
  let keep (l : Label) : Bool := l == 0
  { x with
    sreg := x.sreg.filter fun e => keep (look 0 e.1 x.slabel)
    pred := x.pred.filter fun e => keep (look 0 e.1 x.plabel)
    tile := x.tile.filter fun e => keep (look 0 (e.1 / 512) x.tlabel)
    scale := x.scale.filter fun e => keep (look 0 (e.1 / 32) x.sclabel)
    rowPos := if keep x.rowLabel then x.rowPos else 0
    colPos := if keep x.colLabel then x.colPos else 0 }

/-- The labels of a stream's 53 granules in order: s0 to s31, p0 to p3, C, t0 to t7, the scale slots. -/
def streamLabels (x : Stream) : List Label :=
  (List.range 32).map (slab x) ++ (List.range 4).map (plab x) ++ [x.ctl] ++
  (List.range 8).map (fun t => look 0 t x.tlabel) ++ (List.range 8).map (fun t => look 0 t x.sclabel)

/-- The entries of a list that are not zero, keyed from a number on. -/
def sparse {α : Type} [DecidableEq α] (z : α) : Nat → List α → Tbl α
  | _, [] => []
  | k, a :: t => if a = z then sparse z (k + 1) t else (k, a) :: sparse z (k + 1) t

/-- A table's range moved to a new base. -/
def moved {α : Type} (lo n base : Nat) (t : Tbl α) : Tbl α :=
  (t.filter fun e => lo ≤ e.1 && e.1 < lo + n).map fun e => (e.1 - lo + base, e.2)

/-- A cell of memory shown only if its granule has no label, or labelled contents are dumped (R372). -/
def shown (all : Bool) (size : Nat) (labels : Tbl Label) (m : Memory) : Memory :=
  m.filter fun e => all || look 0 (e.1 / size) labels == 0

/-- A section of a unit that answered. -/
def section_ (kind o c i granules length : Nat) (labels : Tbl Label) (cells : Memory) : DumpSec :=
  { kind := kind, hung := false, octant := o, cluster := c, index := i, granules := granules, labels := labels,
    length := length, cells := cells, free := none, lastStatus := 0 }

/-- The row state of an accumulator tile, in the layout of RSX (R125). -/
def rowStateBytes (c : Core) (t : Nat) : List Byte := ((List.range 16).map fun r => rowBytes (rowAt c t r)).flatten

/-- The cells of a core's accumulator tiles, each tile followed by its row state. -/
def accCells (d : Dev) (all : Bool) (n base : Nat) : Memory :=
  let c := getCore d n
  ((List.range 16).map fun t =>
    let at_ := base + t * 1536
    let tile : Memory := if all || look 0 t c.accLabel == 0 then moved (n * 16384 + t * 1024) 1024 at_ d.acc else []
    let rows : Memory := if c.rows.isEmpty || !(all || look 0 t c.rowLabel == 0) then []
      else sparse 0 (at_ + 1024) (rowStateBytes c t)
    tile ++ rows).flatten

/-- A core's section: 154 granules (R373). -/
def coreSection (d : Dev) (all : Bool) (o c k : Nat) : DumpSec :=
  let n := coreNo o c k
  let strm (st : Nat) : Memory :=
    let x := getStream d n st
    if x = Stream.zero then [(4608 * st + 132, 1)]
    else sparse 0 (4608 * st) (streamState (if all then x else hideStream x))
  let labels := streamLabels (getStream d n 0) ++ streamLabels (getStream d n 1) ++
    (List.range 16).map (fun t => look 0 t (getCore d n).accLabel)
  let pages := moved (spadBase o c k / 4096) 32 0 d.spadLabel
  section_ 1 o c k 154 (9216 + 16 * 1536 + 131072) (sparse 0 0 labels ++ moved 0 32 122 pages)
    (strm 0 ++ strm 1 ++ accCells d all n 9216 ++
      moved 0 131072 (9216 + 16 * 1536) (shown all 4096 pages (moved (spadBase o c k) 131072 0 d.spad)))

/-- A cluster memory's section. -/
def cmemSection (d : Dev) (all : Bool) (o c : Nat) : DumpSec :=
  let labels := moved (cmemBase o c / 65536) 64 0 d.cmemLabel
  section_ 2 o c 0 64 (2 ^ 22) labels (shown all 65536 labels (moved (cmemBase o c) (2 ^ 22) 0 d.cmem))

/-- The most bytes of a section whose length the spec leaves open: with it every octant's dump fits its area (log 28). -/
def freeSectionMax : Nat := 8000000

/-- A section whose contents the spec does not lay out: they and their length are free values (log 28). -/
def freeSection (kind o c i n : Nat) : DumpSec :=
  { section_ kind o c i 0 (Config.freeNat n % freeSectionMax) [] [] with free := some n }

/-- The units of an octant in the order in which they are dumped, as kind, cluster and index (R371, log 34). -/
def dumpUnits (d : Dev) (o : Nat) : List (Nat × Nat × Nat) :=
  let clus := (List.range 9).filter (clusterPresent d)
  (clus.flatMap fun c => ((List.range 64).map fun k => (1, c, k)) ++ [(2, c, 0), (6, c, 0)]) ++
  [(3, 0, 0), (4, 0, 0), (5, 0, 0), (5, 0, 1), (9, 0, o), (10, 0, o)] ++ (if o = 0 then [(7, 0, 0), (8, 0, 0)] else [])

/-- The partition's charter sets DUMP_LABELLED (R282, R372). -/
def dumpsLabelled (d : Dev) (o : Nat) : Bool :=
  match octVf d o with
  | some v => (getCharter d v).dumpLabelled
  | none => false

/-- The section of a unit: what was written when it did not answer, or what it holds now. -/
def unitSection (d : Dev) (o j : Nat) (u : Nat × Nat × Nat) : DumpSec :=
  match d.ump.dump.secs.find? fun s => s.octant == o && s.kind == u.1 && s.cluster == u.2.1 && s.index == u.2.2 with
  | some s => s
  | none =>
    if u.1 = 1 then coreSection d (dumpsLabelled d o) o u.2.1 u.2.2
    else if u.1 = 2 then cmemSection d (dumpsLabelled d o) o u.2.1
    else freeSection u.1 o u.2.1 u.2.2 (d.free + j)

/-- The sections of an octant's dump. -/
def octSections (d : Dev) (o : Nat) : List DumpSec := (dumpUnits d o).mapIdx fun j u => unitSection d o j u

/-- Bytes that a section takes: header, labels padded to 8 bytes, contents (R373). -/
def sectionBytes (s : DumpSec) : Nat := 32 + (2 * s.granules + 7) / 8 * 8 + s.length

/-- Bytes of a dump (R373). -/
def dumpBytes (x : Dump) : Nat := x.secs.foldl (fun n s => n + sectionBytes s) 64

/-- Blocks of a dump, 4,064 bytes in each (R373). -/
def dumpBlocks (x : Dump) : Nat := (dumpBytes x + 4063) / 4064

/-! ## Taking a dump (R370, R371) -/

def setUmp (f : Ump → Ump) (d : Dev) : Dev := { d with ump := f d.ump }

/-- The area holds a dump that was not yet exported or discarded (R370). -/
def areaBusy (d : Dev) : Bool := d.ump.dumpState != 0 && !d.ump.exported

/-- No octant is left to dump: the dump is held (R371). -/
def dumpHeld (d : Dev) : Dev := setDumpState 2 (setUmp (fun u => { u with dumpReason := .ok }) d)

/-- A dump starts, or its trigger is counted in SKIPPED; whether it started (R370). -/
def startDump (trigger : Nat) (scope : BitVec 8) (d : Dev) : Bool × Dev :=
  if areaBusy d ∧ !d.ump.overwrite then (false, setUmp (fun u => { u with skipped := satAdd 0xFFFF u.skipped 1 }) d)
  else
    let x : Dump := { Dump.zero with
      trigger := trigger, labelled := (members8 scope).any (dumpsLabelled d), tick := d.tck.count
      faultSeq := (d.ret.recSeq + 2 ^ 32 - 1) % 2 ^ 32, generation := d.ret.generation.toNat, octants := scope
      running := scope }
    let d := { d with ret := { d.ret with dumpCount := (d.ret.dumpCount + 1) % 2 ^ 32 } }
    let d := setUmp (fun u => { u with
      dump := x, dumpNo := d.ret.dumpCount, exported := false, exporting := 0, truncated := false }) d
    if scope = 0 then (false, dumpHeld d) else (true, setDumpState 1 d)

/-- An access to UMP_DUMP_CTRL: only the PF may write it (R419). -/
def dumpCtrl (f : Fn) (pos : Nat) (g : Dev → Dev) (d : Dev) : Dev :=
  match f with
  | .pf => g d
  | .vf _ => dropLog f .notOwner (fieldIdOf 0x80 pos) 0x60080 true d

/-- TRIGGER written: the octants of the access are dumped (R370). -/
def dumpTrigger (octants : Nat) (d : Dev) : Dev :=
  let scope := BitVec.ofNat 8 octants
  (startDump 0 scope (setUmp (fun u => { u with dumpOcts := scope }) d)).2

/-- DUMP_TRIGGER (R370). -/
def execDumpTrigger (fn : Fn) (octants : Nat) (s : State) : Host.Outcome State Fault Refusal :=
  .next { s with dev := whenBar fn (dumpCtrl fn 2 (dumpTrigger octants)) s.dev }

/-- A unit as the record codes of R432 name it, as the kind, cluster and index of a section. -/
def unitKey (kind index : Nat) : Nat × Nat × Nat :=
  if kind = 1 then (1, index / 64, index % 64) else if kind = 2 ∨ kind = 6 then (kind, index, 0) else (kind, 0, index)

/-- A unit that does not answer within 10 µs is written as a HUNG_UNIT section with its last status, which is a free value
(R371). -/
def unitTimeout (o kind index : Nat) (d : Dev) : Dev :=
  let u := unitKey kind index
  if d.ump.dumpState ≠ 1 ∨ !has8 d.ump.dump.running o ∨ !(dumpUnits d o).contains u then d
  else
    let s := { section_ kind o u.2.1 u.2.2 0 0 [] [] with hung := true, lastStatus := Config.freeNat d.free % 2 ^ 64 }
    setUmp (fun u => { u with dump := { u.dump with secs := u.dump.secs ++ [s] } }) { d with free := d.free + 1 }

/-- DUMP_UNIT_TIMEOUT (R371). -/
def execDumpUnitTimeout (o : Fin 8) (kind index : Nat) (s : State) : Host.Outcome State Fault Refusal :=
  .next { s with dev := whenLive (unitTimeout o.val kind index) s.dev }

/-- An octant's dump ends: its sections, a hung unit's in its place (R371). -/
def octDumped (o : Nat) (d : Dev) : Dev :=
  let secs := octSections d o
  setUmp (fun u => { u with dump := { u.dump with
      secs := (u.dump.secs.filter fun s => s.octant != o) ++ secs, running := clr8 u.dump.running o } })
    { d with free := d.free + secs.length }

/-! ## Export and discard (R370, R373) -/

/-- The 64-byte header of a dump (R373). -/
def dumpHeader (u : Ump) : List Byte :=
  let x := u.dump
  natLe 4 0x504D5544 ++ natLe 2 1 ++ natLe 1 x.trigger ++ natLe 1 (b2n x.labelled + 2 * b2n u.truncated) ++ natLe 8 x.tick ++
    natLe 4 x.faultSeq ++ natLe 4 x.generation ++ natLe 1 x.octants.toNat ++ natLe 1 (b2n (x.secs.any (·.hung))) ++
    natLe 4 x.secs.length ++ natLe 8 (dumpBytes x) ++ natLe 22 0

/-- Contents of a section: what the spec lays out, or free bytes (R373, log 28). -/
def sectionContents (s : DumpSec) : List Byte :=
  match s.free with
  | some n => (List.range s.length).map (Config.freeByte n)
  | none => readBytes s.cells 0 s.length

/-- A section as it stands in the dump: header, labels padded to 8 bytes, contents (R373). -/
def sectionImage (s : DumpSec) : List Byte :=
  let labels := ((List.range s.granules).map fun g => natLe 2 (look 0 g s.labels).toNat).flatten
  natLe 1 s.kind ++ natLe 1 (reasonCode (if s.hung then .hungUnit else .ok)) ++ natLe 1 s.octant ++ natLe 1 s.cluster ++
    natLe 1 s.index ++ natLe 3 0 ++ natLe 4 s.granules ++ natLe 4 0 ++ natLe 8 s.length ++ natLe 8 s.lastStatus ++
    slice labels 0 ((2 * s.granules + 7) / 8 * 8) ++ sectionContents s

/-- The bytes of the held dump (R373). -/
def dumpImage (u : Ump) : List Byte := dumpHeader u ++ (u.dump.secs.map sectionImage).flatten

/-- The 4,064 bytes of a block of the dump. -/
def dumpBlock (u : Ump) (b : Nat) : List Byte := slice (dumpImage u) (4064 * b) 4064

/-- A 4 KiB block of a stack's dump area, sealed under the dump key (R373). -/
def areaBlock (d : Dev) (stack b : Nat) : List Byte :=
  let key := Config.draw (3 * d.ret.dumpKey)
  let nonce := natLe 4 d.ump.dumpNo ++ natLe 4 b ++ natLe 4 stack
  let tail := natLe 4 d.ump.dumpNo ++ natLe 4 b ++ natLe 8 0
  let c := gcmText key nonce (dumpBlock d.ump b)
  c ++ tail ++ gcmTag key nonce tail c

/-- The PF dump window as UMP_DUMP_WIN gives it: a device-written DATA window (R373). -/
def dumpWin (u : Ump) : Win :=
  { Win.zero with dataBase := u.win0.toNat / 4096, recordBase := u.win1.toNat / 64, size := bits u.win2.toNat 0 20 }

/-- What the export of the held dump writes to the host for a block: the block re-sealed under the keys of the operator's
session, and its record (R294, R373). -/
def exportBlock (u : Ump) (secret epoch b : Nat) : List (Nat × List Byte) :=
  let r := sealed (windowKey secret 0xFF 0 0 epoch) b 0 (dumpBlock u b ++ natLe 32 0)
  [(blockAddr (dumpWin u) b, r.1), (recordAddr (dumpWin u) b, r.2)]

/-- The session slot and block count of the dump window. -/
def dumpWinSize (u : Ump) : Nat := bits u.win2.toNat 0 20
def dumpWinSession (u : Ump) : Nat := bits u.win2.toNat 20 8

/-- Why an EXPORT is refused, if it is: nothing held, a session that is not the PF's, a window too small (R373). That a device
that holds no dump answers NOT_READY is the model's choice (log 35). -/
def exportCheck (d : Dev) : Option Reason :=
  let mine : Bool := match sessOf d (dumpWinSession d.ump) with
    | some x => x.fn == 0
    | none => false
  if d.ump.dumpState ≠ 2 then some .notReady
  else if !mine then some .notOwner
  else if dumpWinSize d.ump = 0 ∨ dumpBlocks d.ump.dump > dumpWinSize d.ump then some .fieldRange
  else none

/-- The EXPORT of the held dump starts: a new epoch under its session, the status record, then the blocks (R373). -/
def exportStart (d : Dev) : Dev :=
  let slot := dumpWinSession d.ump
  let x := (sessOf d slot).getD { fn := 0, done := true, identity := 0, keyGen := 0, exports := 0, secret := 0 }
  let epoch := x.exports + 1
  let octs := if d.ump.dump.octants = 0 then 1 else d.ump.dump.octants
  let d := { d with ptr := { d.ptr with sess := put none slot (some { x with exports := epoch }) d.ptr.sess } }
  let d := setUmp (fun u => { u with dumpReason := .ok, exporting := octs, exportSess := slot }) d
  setDumpState 3 (emit (.dumpStream epoch d.ump.dumpNo d.ump.dump)
    (emit (.hostStatus 0xFF 0 epoch d.tck.count (dumpWinSize d.ump) false false 0 ((dumpWin d.ump).recordBase * 64)
      (statusRecord (windowKey x.secret 0xFF 0 2 epoch) epoch d.tck.count (dumpWinSize d.ump) 0xFF 0 false false 0)) d))

/-- EXPORT written (R373). -/
def dumpExport (d : Dev) : Dev :=
  match exportCheck d with
  | some r => setUmp (fun u => { u with dumpReason := r }) d
  | none => exportStart d

/-- DUMP_EXPORT (R373). -/
def execDumpExport (fn : Fn) (s : State) : Host.Outcome State Fault Refusal :=
  .next { s with dev := whenBar fn (dumpCtrl fn 3 dumpExport) s.dev }

/-- A stack's part of an export ends: with its last block, or with INTEGRITY_FAIL, which stops the export (R373). -/
def exportEnd (o : Nat) (r : CheckResult) (d : Dev) : Dev :=
  if d.ump.dumpState ≠ 3 ∨ !has8 d.ump.exporting o then d
  else if r = .fail then
    setDumpState 2 (setUmp (fun u => { u with dumpReason := .integrityFail, exporting := 0 }) d)
  else
    let left := clr8 d.ump.exporting o
    let d := setUmp (fun u => { u with exporting := left }) d
    if left = 0 then setDumpState 2 (setUmp (fun u => { u with dumpReason := .ok, exported := true }) d) else d

/-- DUMP_EXPORT_COMPLETE (R373): while the PF may master the bus and the link is up (R385). -/
def execDumpExportComplete (o : Fin 8) (result : CheckResult) (s : State) : Host.Outcome State Fault Refusal :=
  .next { s with dev := whenLive (fun d => guarded (result == .fail || (d.pkg.dlUp && look false 0 d.pkg.busMaster))
    (exportEnd o.val result) d) s.dev }

/-- DISCARD written: a held dump is released (R370). -/
def dumpDiscard (d : Dev) : Dev :=
  if d.ump.dumpState = 2 then
    setDumpState 0 (setUmp (fun u => { u with dump := Dump.zero, exported := false }) d)
  else d

/-- DUMP_DISCARD (R370). -/
def execDumpDiscard (fn : Fn) (s : State) : Host.Outcome State Fault Refusal :=
  .next { s with dev := whenBar fn (dumpCtrl fn 4 dumpDiscard) s.dev }

end Sys2Proof.Machine
end

