-- ==== Sys2Proof/Machine/Boot.lean ====
section
/-!
DEFINITION. Boot and bring-up (13, 15): Porter's steps, the configuration records, and the release of stacks, octants and
ports.
-/
namespace Sys2Proof.Machine

/-! ## Records of hung units (R355, R432) -/

/-- A HUNG_UNIT record of a unit, by its kind and index; LAST_STATUS, whose layout the spec does not give, is a free value
(log 36). -/
def recordHung (kind index : Nat) (r : FaultRec) (boundary : Bool) (d : Dev) : Dev :=
  record { r with
      reason := .hungUnit, detail := natLe 4 (kind + 256 * index) ++ natLe 8 (Config.freeNat d.free) } boundary
    { d with free := d.free + 1 }

/-! ## Steps 1 to 7 (R326) -/

/-- The link trains, unless PERST_N holds the controller in reset: its rate and width are what the partners agree on, which
are free values (log 37). A training after the first one since power-on is a retraining (R378). -/
def trainLink (d : Dev) : Dev :=
  if !d.pkg.config ∨ d.pkg.perst ∨ d.pkg.dlUp then d
  else { d with
    pkg := { d.pkg with
      dlUp := true, linkTrained := true, speed := 4 + Config.freeNat d.free % 4
      retrains := if d.pkg.linkTrained then (d.pkg.retrains + 1) % 65536 else d.pkg.retrains
      width := ([4, 8, 16] : List Nat).getD (Config.freeNat (d.free + 1) % 3) 16 }
    free := d.free + 2 }

/-- An operation that may change GLB_READY.ALL, which SMBus STATUS shows (R388, R413). -/
def readyStep (f : Dev → Dev) (d : Dev) : Dev :=
  let d' := readyChanged (f d)
  if allReady d' = allReady d then d' else alert 0 d'

/-- PCIe configuration space and the Porter mailbox are released (R375). -/
def releaseConfig (d : Dev) : Dev :=
  trainLink (readyStep (fun d => { d with pkg := { d.pkg with config := true, mailbox := true } }) d)

/-- The link-layer keys of the three die links, fresh for each link and direction at every chip reset (R16). -/
def drawDieKeys (d : Dev) : Dev :=
  (List.range 6).foldl (fun d _ =>
    let (n, d) := newDraw d
    { d with ptr := { d.ptr with dieKeys := d.ptr.dieKeys ++ [n] } }) { d with ptr := { d.ptr with dieKeys := [] } }

/-- Neither slot holds an acceptable image: recovery, in which ROM answers (R327). -/
def recovery (d : Dev) : Dev := releaseConfig (alert 0 { drawDieKeys d with pkg := { d.pkg with phase := .recovery } })

/-- The lifecycle count and the debug state as CDI_1 takes them (R329). -/
def dieState (d : Dev) : List Byte := natLe 1 (lcsCount d.fuse) ++ natLe 1 (b2n d.ptr.debugOpen)

/-- Step 7: a slot's image runs and is measured; the alias key follows (R326, R329, R333). -/
def runImage (slot trial fallback : Bool) (i : SilImage) (signedOk : Bool) (d : Dev) : Dev :=
  let (a, b, c) := silDigests (slotOf d.flash slot) i
  let all := Config.sha384 (digestBytes a ++ digestBytes b ++ digestBytes c)
  { d with
    flash := { d.flash with trialBegun := d.flash.trialBegun || trial }
    ptr := { d.ptr with
      slot := slot, trial := trial, fallback := fallback, unsigned := !signedOk
      raiseSvn := if i.raise then some i.svn else none
      identityLost := !identityMatches d.flash d.ret.cdi0, d2 := a, d3 := b, d4 := c
      cdi1 := Config.hmac384 d.ret.cdi0 (digestBytes all ++ dieState d) } }

/-- Steps 5 and 6: the slot that the pointer names, its predecessor after a trial that was not confirmed, or the other slot
when the check fails (R321, R326, R339). -/
def chooseSlot (f : Flash) : Bool × Bool × Bool :=
  match ptrNow f with
  | none => (false, false, false)
  | some p => if p.trial ∧ f.trialBegun then (p.previous, false, true) else (p.active, p.trial, false)

/-- The image that boots, or recovery. -/
def bootLoad (d : Dev) : Dev :=
  let (slot, trial, back) := chooseSlot d.flash
  match silCheck d.fuse (slotOf d.flash slot) with
  | .ok (i, ok) => runImage slot trial back i ok d
  | .error _ =>
    match silCheck d.fuse (slotOf d.flash (!slot)) with
    | .ok (i, ok) => runImage (!slot) false true i ok d
    | .error _ => recovery d

/-- CDI_0 from the UDS, which is readable only after power-on (R326, R329, R363). -/
def deriveCdi0 (cold : Bool) (d : Dev) : Dev :=
  if cold then { d with ret := { d.ret with cdi0 := Config.hmac384 d.fuse.uds (ascii "TY2-CDI0") } } else d

/-- Steps 1 to 7, from a device that is otherwise reset. -/
def bootRom (selfTest : CheckResult) (cold : Bool) (d : Dev) : Dev :=
  if selfTest = .fail then porterLockdown d
  else
    let d := lifecycleVote d
    if !live d then d
    else
      let n := lcsCount d.fuse
      let d := { d with ptr := { d.ptr with lcsAtReset := n, debugOpen := debugState n } }
      if n ≥ 4 then { d with pkg := { d.pkg with phase := .scrapped }, ptr := { d.ptr with keysZeroed := true } }
      else bootLoad (deriveCdi0 cold d)

/-! ## Step 8 (R16, R177, R363, R390) -/

/-- The lid and grade fuses agree with the ordering code (R1 to R3, R390). -/
def orderAgrees (f : Fuses) : Bool := f.order == 1 + b2n f.airLid + 2 * b2n f.grade64

/-- PCI is enabled if the fuses agree; the spec names no reason for a disagreement, so it is a free value (log 38). -/
def enablePci (d : Dev) : Dev :=
  if orderAgrees d.fuse then autoEnable .pci d
  else setStatus 0x80000 (some (freeReason d.free, Config.freeNat (d.free + 1) % 65536)) { d with free := d.free + 2 }

/-- Tree keys and the dump key of a power-on (R177, R373). -/
def coldKeys (d : Dev) : Dev :=
  let d := (List.range 8).foldl (fun d s =>
    let (n, d) := newDraw d
    { d with ret := { d.ret with treeKey := put 0 s n d.ret.treeKey } }) d
  let (n, d) := newDraw d
  { d with ret := { d.ret with dumpKey := n } }

/-- Step 8. GENERATION is 1 after a power-on and counts every later boot (R334). -/
def bootKeys (cold : Bool) (d : Dev) : Dev :=
  let d := drawDieKeys d
  let d := if cold then coldKeys d else d
  let d := { d with ret := { d.ret with generation := if cold then 1 else d.ret.generation + 1 } }
  releaseConfig (enablePci d)

/-! ## Step 9: the configuration records (R324, R325) -/

/-- The payload of a record as FAB_PORT lays it out: FAB_MODE, FAB_IPV6_HI, FAB_IPV6_LO, FAB_MAC, FAB_NEXTHOP of each half. -/
def fabRecord (b : List Byte) (x : Port) : Port :=
  let m := field b 0 4
  { x with
    rally := bitAt m 0, pmd := bits m 1 2, tagEn := bitAt m 3, vid := bits m 4 12, pcp := bits m 16 3, dscp := bits m 19 6
    ipHi := BitVec.ofNat 64 (field b 4 8), ipLo := BitVec.ofNat 64 (field b 12 8), mac := field b 20 8 % 2 ^ 48
    hop0 := field b 28 8 % 2 ^ 48, hop1 := field b 36 8 % 2 ^ 48, configured := true }

/-- SWITCH_ROOT: two counted lists of digests, of at most 8 and 16. -/
def switchLists (b : List Byte) : Bool :=
  let n := byteAt b 0
  let k := byteAt b (1 + 48 * n)
  1 ≤ b.length && n ≤ 8 && 1 + 48 * n < b.length && k ≤ 16 && b.length == 2 + 48 * (n + k)

/-- The digests of a counted list from an offset on. -/
def digestList (b : List Byte) (off : Nat) : List (BitVec 384) :=
  (List.range (byteAt b off)).map fun i => BitVec.ofNat 384 (beNat (slice b (off + 1 + 48 * i) 48))

/-- A record that passes its check, applied; or the reason of its failure (R4, R325). -/
def applyRecord (typ inst : Nat) (b : List Byte) (d : Dev) : Option Reason × Dev :=
  let x := byteAt b 0
  let y := field b 0 2
  let bad : Option Reason × Dev := (some .fieldRange, d)
  match typ with
  | 0x0001 => (none, d)
  | 0x0002 => (none, d)
  | 0x0010 => if b.length ≠ 1 ∨ x > 1 then bad else (none, { d with ptr := { d.ptr with hostManaged := x == 1 } })
  | 0x0011 =>
    match modeOf x with
    | none => bad
    | some m =>
      if b.length ≠ 1 then bad
      else if d.fuse.airLid ∧ m ≠ .steady then (some .modeMismatch, d)
      else (none, { d with pwr := { d.pwr with mode := m, live := m, vref := modeMv m } })
  | 0x0012 =>
    if b.length ≠ 1 ∨ (unitsCheck x).isSome then bad else (none, { d with tck := { d.tck with units := Rwt.of x } })
  | 0x0013 =>
    if b.length ≠ 2 ∨ y < 100 ∨ y > 10000 then bad
    else (none, (List.range 8).foldl (fun d s => setStack s (fun t => { t with alarmMs := y }) d) d)
  | 0x0014 => if b.length ≠ 2 ∨ y = 0 then bad else (none, { d with rly := { d.rly with udpPort := y } })
  | 0x0015 =>
    let p := fabRecord b (getPort d inst)
    if inst ≥ 8 ∨ b.length ≠ 44 then bad
    else match fabCheck p with
      | none => (none, setPort inst (fun _ => p) d)
      | some f => (some f.1, setStatus (fabBase inst) (some f) d)
  | 0x0016 =>
    if switchLists b then (none, { d with ptr := { d.ptr with
      switchRoots := digestList b 0, switchMeas := digestList b (1 + 48 * byteAt b 0) } })
    else bad
  | _ => bad

/-- The first failure stays in SIL_STATUS, with the record's index plus 1 (R325). -/
def silFail (i : Nat) (r : Reason) (d : Dev) : Dev :=
  if d.ptr.silReason = .ok then { d with ptr := { d.ptr with silReason := r, silField := (i + 1) % 65536 } } else d

/-- The records in their order; one whose TYPE and INSTANCE an earlier record had is a conflict (R325). -/
def applyRecords (m : Memory) (i : Nat) (seen : List (Nat × Nat)) : List SilRec → Dev → Dev
  | [], d => d
  | r :: t, d =>
    let known : Bool := r.typ == 1 || r.typ == 2 || (0x10 ≤ r.typ && r.typ ≤ 0x16)
    if !known then applyRecords m (i + 1) seen t (silFail i .fieldRange d)
    else if seen.contains (r.typ, r.inst) then applyRecords m (i + 1) seen t (silFail i .fieldConflict d)
    else match applyRecord r.typ r.inst (if r.typ < 0x10 then [] else readBytes m r.off r.len) d with
      | (none, d) => applyRecords m (i + 1) ((r.typ, r.inst) :: seen) t d
      | (some e, d) => applyRecords m (i + 1) ((r.typ, r.inst) :: seen) t (silFail i e d)

/-- User records whose seal fails are discarded and counted (R325). -/
def openUserRecs (d : Dev) : Dev :=
  let good (b : List Byte) : Bool := (openUser (Config.userKey d.fuse.uds) b).isSome
  let bad := ((userRecs d.flash).filter fun b => !good b).length
  { d with
    flash := if bad = 0 then d.flash else writeUserRecs ((userRecs d.flash).filter good) d.flash
    ptr := { d.ptr with sealedBad := satAdd 255 d.ptr.sealedBad bad } }

/-- The enables of step 9, TCK first; TCK_COUNT, the tick's time and the first Louvre interval start with it (R29, R390, R430).
No event stands for the power sample of tick 0: it is a free value (log 89). -/
def bootEnables (d : Dev) : Dev :=
  let d := autoEnable .tck { d with
    tck := { d.tck with start := d.tck.now }
    pwr := { d.pwr with lvSum := Config.freeNat d.free, lvTicks := 1 }
    free := d.free + 1 }
  autoEnable .lbl (autoEnable .trs (autoEnable .ump (autoEnable .pwr d)))

/-- Step 9. -/
def bootConfig (d : Dev) : Dev :=
  let m := slotOf d.flash d.ptr.slot
  let recs := match silParse m with
    | some i => i.recs
    | none => []
  bootEnables (openUserRecs (applyRecords m 0 [] recs d))

/-- POWER_ON_BOOT's effect: the steps in order, as far as they lead (R326, R374). -/
def powerOn (selfTest : CheckResult) (d : Dev) : Dev :=
  let d := { d with
    pkg := { d.pkg with phase := .running, pwrgd := true, pwrgdOut := true }
    tck := { d.tck with now := 0, start := 0 } }
  let d := bootRom selfTest true (alert 0 d)
  if live d then bootConfig (bootKeys true d) else d

/-- POWER_ON_BOOT (R374): a boot does not start while SYSCLK_25M is absent (R409). -/
def execPowerOnBoot (selfTest : CheckResult) (s : State) : Host.Outcome State Fault Refusal :=
  .next { s with dev := (fun d => guarded (d.pkg.phase == .unpowered && d.pkg.sysclk) (powerOn selfTest) d) s.dev }

/-! ## Step 10: readiness (R194, R375, R376, R390) -/

/-- Power-on initialisation of a stack: the zero state, no region pending and no domain recorded (R194). -/
def initStack (s : Nat) (d : Dev) : Dev :=
  if (getStack d s).inited then d
  else
    let d := zeroStack s d
    buildTree s { setStack s (fun x => { x with inited := true }) d with
      region := d.region.filter fun e => e.1 / 65536 != s
      page := d.page.filter fun e => e.1 / 2 ^ 25 != s }

/-- A stack is trained and its Casement engine initialised and enabled (R194, R363, R390). -/
def stackReady (s : Fin 8) (d : Dev) : Dev :=
  if has8 d.pkg.stackReady s ∨ has8 d.pkg.stackFailed s then d
  else
    let d := autoEnable (.cas s) (setStack s (fun x => { x with rootValid := true }) (initStack s d))
    if (getBlk d (blkBase (.cas s))).enable then
      readyStep (fun d => { d with pkg := { d.pkg with stackReady := set8 d.pkg.stackReady s } }) d
    else d

/-- STACK_READY (R375). -/
def execStackReady (s : Fin 8) (st : State) : Host.Outcome State Fault Refusal :=
  .next { st with dev := whenLive (stackReady s) st.dev }

/-- A stack fails training; at the third failure it and its octant are marked, and recorded (R376). -/
def stackTrainingFail (s : Nat) (d : Dev) : Dev :=
  if has8 d.pkg.stackReady s ∨ has8 d.pkg.stackFailed s then d
  else
    let n := look 0 s d.pkg.trainFails + 1
    let d := { d with pkg := { d.pkg with trainFails := put 0 s n d.pkg.trainFails } }
    if n < 3 then d
    else
      let d := recordHung 10 s { recAt d s .hungUnit 8 with engine := some s, action := 7 } false d
      readyChanged { d with pkg := { d.pkg with
        stackFailed := set8 d.pkg.stackFailed s, octFailed := set8 d.pkg.octFailed s } }

/-- STACK_TRAINING_FAIL (R376). -/
def execStackTrainingFail (s : Fin 8) (st : State) : Host.Outcome State Fault Refusal :=
  .next { st with dev := whenLive (stackTrainingFail s) st.dev }

/-- An octant whose stack is ready and whose power-on scrub has passed; the Shutter is enabled with the first (R375, R390). -/
def octantReady (o : Nat) (d : Dev) : Dev :=
  if has8 d.pkg.octReady o ∨ has8 d.pkg.octFailed o ∨ !has8 d.pkg.stackReady o ∨ (getSht d o).state ≠ .clean then d
  else
    let d := if (getBlk d 0x70000).enable then d else autoEnable .sht d
    readyStep (fun d => { d with pkg := { d.pkg with octReady := set8 d.pkg.octReady o } }) d

/-- OCTANT_READY (R375). -/
def execOctantReady (o : Fin 8) (s : State) : Host.Outcome State Fault Refusal :=
  .next { s with dev := whenLive (octantReady o) s.dev }

/-- Every port is ready or failed, so every FAB check is done: RLY is enabled (R390). -/
def enableRally (d : Dev) : Dev := if d.pkg.portReady ||| d.pkg.portFailed = 0xFF then autoEnable .rly d else d

/-- A port's SerDes are calibrated and its FAB block is loaded; without a FAB_PORT record it stays disabled (R375). -/
def portReady (p : Fin 8) (d : Dev) : Dev :=
  if has8 d.pkg.portReady p ∨ has8 d.pkg.portFailed p then d
  else
    let d := if (getPort d p).configured then autoEnable (.fab p) d else d
    enableRally (readyStep (fun d => { d with pkg := { d.pkg with portReady := set8 d.pkg.portReady p } }) d)

/-- PORT_READY (R375). -/
def execPortReady (p : Fin 8) (s : State) : Host.Outcome State Fault Refusal :=
  .next { s with dev := whenLive (portReady p) s.dev }

/-- A port's SerDes calibration fails: marked and recorded (R376). -/
def portCalibrationFail (p : Nat) (d : Dev) : Dev :=
  if has8 d.pkg.portReady p ∨ has8 d.pkg.portFailed p then d
  else
    let d := recordHung 14 p { recAt d p .hungUnit 4 with engine := some p } false d
    enableRally (readyChanged { d with pkg := { d.pkg with portFailed := set8 d.pkg.portFailed p } })

/-- PORT_CALIBRATION_FAIL (R376). -/
def execPortCalibrationFail (p : Fin 8) (s : State) : Host.Outcome State Fault Refusal :=
  .next { s with dev := whenLive (portCalibrationFail p) s.dev }

end Sys2Proof.Machine
end

