-- ==== Sys2Proof/Machine/Ladder.lean ====
section
/-!
DEFINITION. The escalation ladder (14): L0 to L4, their bounds and completions, lockdown, and the end of a crash dump, for
which a level may wait.
-/
namespace Sys2Proof.Machine

/-! ## Units (R361, R432) -/

/-- The octant of a unit: a Rally slice's is that of its port. -/
def unitOct : UnitId → Fin 8
  | .cluster o _ => o
  | .relay o _ => o
  | .rally p => p
  | .sequencer o => o
  | .core o _ _ => o

/-- Kind and index of a unit in a HUNG_UNIT record (R432). -/
def unitCode : UnitId → Nat × Nat
  | .core _ c k => (1, c * 64 + k)
  | .sequencer _ => (3, 0)
  | .relay _ e => (5, e)
  | .rally p => (9, p)
  | .cluster _ c => (11, c)

/-- The cluster of a unit, if it is one or lies in one. -/
def unitCluster : UnitId → Option Nat
  | .cluster _ c => some c
  | .core _ c _ => some c
  | _ => none

/-- The unit that holds a dispatched command's item: the resource of its window. -/
def itemUnit (o : Fin 8) (c : Cmd) : Option UnitId :=
  let r := resIndex (cmdResource c.raw)
  match cmdOpcode c.raw with
  | 3 => some (.cluster o ⟨r % 9, Nat.mod_lt _ (by decide)⟩)
  | 4 => some (.relay o ⟨r % 2, Nat.mod_lt _ (by decide)⟩)
  | 5 => some (.rally o)
  | _ => none

/-! ## L1 (R353, R361) -/

/-- The command-class record of an item that an L1 ends (R353, R358). -/
def hungItem (d : Dev) (c : Cmd) (source : Nat) : FaultRec :=
  { recAt d c.oct .hungUnit source with
    context := some c.ctx, queue := some c.q, tag := cmdTag c.raw, ringSlot := c.slot
    cluster := some (resIndex (cmdResource c.raw)) }

/-- A core that is reset: both streams, the accumulators with row state and labels, the instruction cache; the scratchpad is
cleared with its labels. The skip log belongs to the cluster's logs (R361). -/
def resetCore (o c k : Nat) (d : Dev) : Dev :=
  let n := coreNo o c k
  let clear (x : Stream) : Stream := { Stream.zero with halted := x.halted }
  let d := setStream n 1 clear (setStream n 0 clear d)
  let d := setCore n (fun x => { Core.zero with
    log := x.log, skips := x.skips, skipsTick := x.skipsTick, overflow := x.overflow, limit := x.limit }) d
  { d with
    acc := dropRange (n * 16384) ((n + 1) * 16384) d.acc
    spad := dropRange (spadBase o c k) (spadBase o c k + 131072) d.spad
    spadLabel := dropRange (spadBase o c k / 4096) (spadBase o c k / 4096 + 32) d.spadLabel }

/-- The items on a set of cores. -/
def itemsOn (d : Dev) (o c : Nat) (ks : List Nat) : List Nat :=
  (ks.filterMap fun k => (getCore d (coreNo o c k)).item).eraseDups

/-- An item that loses a core ends FAULTED with HUNG_UNIT, recorded unless its context's fault already killed it. -/
def hangItem (unit : Nat × Nat) (id : Nat) (d : Dev) : Dev :=
  match cmdById d id with
  | none => d
  | some c =>
    if c.errEnd.isSome then d
    else killItem id (setCmd id (fun x => { x with errEnd := some .hungUnit })
      (recordHung unit.1 unit.2 (hungItem d c 2) false d))

/-- An item that has no stream left ends. -/
def endIfIdle (id : Nat) (d : Dev) : Dev :=
  if (itemStreams d id).all fun e => !(getStream d e.1 e.2).live then endLaunch id d else d

/-- L1 of cores of a cluster. -/
def l1Cores (unit : Nat × Nat) (o c : Nat) (ks : List Nat) (d : Dev) : Dev :=
  let ids := itemsOn d o c ks
  let d := ids.foldl (fun d id => hangItem unit id d) d
  let d := ks.foldl (fun d k => resetCore o c k d) d
  ids.foldl (fun d id => endIfIdle id d) d

/-- The skip logs and counts of a cluster are lost (R361). -/
def clearSkips (o c : Nat) (d : Dev) : Dev :=
  (List.range 64).foldl (fun d k => setCore (coreNo o c k) (fun x => { x with
    log := [], skips := 0, skipsTick := 0, overflow := false, limit := 64 }) d) d

/-- A fabric delivery whose engine is reset: the step that it carries has failed for a local reason of this member (R250,
R253, R361). -/
def endDelivery (x : Xfer) (d : Dev) : Dev :=
  match stepOf d x.cmd with
  | some st => failLocal st.slot .hungUnit (dropXfer x d)
  | none => dropXfer x d

/-- L1 of a Relay engine: its transfers end, its sequence number advances by 2^16 (R361). -/
def l1Relay (o e : Nat) (d : Dev) : Dev :=
  let d := (d.xfers.filter fun x => x.oct == o && x.eng == e).foldl (fun d x =>
    if x.fabric then endDelivery x (recordHung 5 e (relayRec d o e x.cmd .hungUnit []) false d)
    else match x.fault with
    | some r => endXfer x .faulted r d
    | none => endXfer x .faulted .hungUnit (recordHung 5 e (relayRec d o e x.cmd .hungUnit []) false d)) d
  setRle o (fun r => if e = 0 then { r with seq0 := r.seq0 + 65536 } else { r with seq1 := r.seq1 + 65536 }) d

/-- A group whose slice is reset is lost with its pair keys (R368). -/
def loseSlice (slot : Nat) (d : Dev) : Dev := setGroup slot (fun _ => Group.zero) d

/-- L1 of the Rally slice of a port: every group fails, naming this member, and is lost (R361, R368). -/
def l1Rally (p : Nat) (d : Dev) : Dev :=
  (portGroups d p).foldl (fun d s => loseSlice s (failGroup s .memberLost (getGroup d s).self false d)) d

/-- Every context of an octant faulted with a reason, in order. -/
def faultOctant (o : Nat) (r : Reason) (rc : FaultRec) (d : Dev) : Dev :=
  (List.range 16).foldl (fun d c => faultEach o c r rc false d) d

/-- Commands that wait to write their completion records complete without one; their signals carry HUNG_UNIT (R361). -/
def dropRecords (o : Nat) (d : Dev) : Dev :=
  (d.cmds.filter fun c => c.oct == o && c.phase == .recording).foldl (fun d c => leaveFlight c (some .hungUnit) d) d

/-- L1 of a sequencer: contexts faulted, records dropped, the management command ends with NOT_READY (R361). -/
def l1Sequencer (o : Nat) (d : Dev) : Dev :=
  let n := d.free
  let rc : FaultRec := { recBase with source := 12, action := 1, detail := natLe 4 3 ++ natLe 8 (Config.freeNat n) }
  let d := faultOctant o .hungUnit rc { d with free := n + 1 }
  let d := { d with ump := { d.ump with l0 := dropRange (16 * o) (16 * o + 16) d.ump.l0 } }
  endMgmt o .notReady (dropRecords o d)

/-- An L1 starts: what the unit loses is lost, and it accepts no work until the L1 completes (R359, R361). -/
def l1Start (u : UnitId) (d : Dev) : Dev :=
  let d := { d with ump := { d.ump with l1 := u :: d.ump.l1 } }
  match u with
  | .core o c k => l1Cores (unitCode u) o c [k] d
  | .cluster o c => clearSkips o c (l1Cores (unitCode u) o c (List.range 64) d)
  | .relay o e => l1Relay o e d
  | .rally p => l1Rally p d
  | .sequencer o => l1Sequencer o d

/-- A running level of the same or a higher order covers an L1 of a unit (R366). -/
def l1Covered (d : Dev) (u : UnitId) : Bool :=
  let inCluster : Bool := match u with
    | .core o c _ => d.ump.l1.contains (.cluster o c)
    | _ => false
  let inL2 : Bool := match octVf d (unitOct u) with
    | some v => has8 d.ump.l2 v
    | none => false
  d.ump.l1.contains u || inCluster || inL2

/-- A request that a running level covers is recorded with SUBSUMED set; the spec names no reason for a host's request, so it
is a free value (R366, log 39). -/
def subsumed (r : FaultRec) (d : Dev) : Dev :=
  record { r with reason := freeReason d.free, source := 15, subsumed := true } false { d with free := d.free + 1 }

/-- The outcome of the last UMP_RESET_REQ (R433). -/
def setReq (r : Reason) (d : Dev) : Dev := { d with ump := { d.ump with reqReason := r } }

/-- A request that lies outside a function's partition, or above level 2 for a VF, is dropped (R433). -/
def reqDropped (f : Fn) (d : Dev) : Dev := dropLog f .notOwner (fieldIdOf 0x60 0) 0x60060 true d

/-- A function may reset what lies in an octant: the PF any, a VF its own partition's (R433). -/
def mayReset (d : Dev) (f : Fn) (o : Nat) : Bool := match f with
  | .pf => true
  | .vf v => octVf d o == some v.val

/-- A request for an L1 (R361, R433). -/
def requestL1 (f : Fn) (u : UnitId) (d : Dev) : Dev :=
  let o := unitOct u
  if !mayReset d f o then reqDropped f d
  else if (unitCluster u).any fun c => !clusterPresent d c then setReq .engineAbsent d
  else if l1Covered d u then subsumed { recAt d o .ok 15 with action := 2, cluster := unitCluster u } (setReq .ok d)
  else l1Start u (setReq .ok d)

/-- A sequencer's firmware faults: recorded, and L1 of that sequencer (R358). -/
def firmwareFault (u : UnitId) (d : Dev) : Dev :=
  match u with
  | .sequencer o =>
    let hide := l1Covered d u
    let d := recordHung 3 0 { recAt d o .hungUnit 12 with action := 2, subsumed := hide } false d
    if hide then d else l1Start u d
  | _ => d

/-- L1_RESET (R359, R361). -/
def execL1Reset (by_ : L1Cause) (u : UnitId) (s : State) : Host.Outcome State Fault Refusal :=
  .next { s with dev := match by_ with
    | .request f => whenBar f (onBar (requestL1 f u)) s.dev
    | .firmwareFault => settled (firmwareFault u) s.dev }

/-- A sequencer's octant has nothing dispatched. -/
def nothingActive (d : Dev) (o : Nat) : Bool := d.cmds.all fun c => c.oct != o || c.phase != .active

/-- The contexts of an octant whose sequencer restarts: FAULTED ones are STOPPED (R361). -/
def stopFaulted (o : Nat) (d : Dev) : Dev :=
  (List.range 16).foldl (fun d c =>
    if (getCtx d o c).state = .faulted then setCtx o c (fun x => { x with state := .stopped, overruns := 0 }) d else d) d

/-- An L1 completes: the unit accepts work again (R359, R361). -/
def l1Complete (u : UnitId) (d : Dev) : Dev :=
  if !d.ump.l1.contains u then d
  else
    let done (d : Dev) : Dev := { d with ump := { d.ump with l1 := d.ump.l1.filter (· != u) } }
    match u with
    | .sequencer o => if nothingActive d o then done (stopFaulted o (dropRecords o d)) else d
    | _ => done d

/-- L1_COMPLETE (R361). -/
def execL1Complete (u : UnitId) (s : State) : Host.Outcome State Fault Refusal :=
  .next { s with dev := settled (l1Complete u) s.dev }

/-! ## L0 (R360, R433) -/

/-- A request for an L0: of a RUNNING context, its fault; of a STOPPED one, nothing (R366, R433). The spec names no reason for
the fault, so it is a free value (log 39). -/
def requestL0 (f : Fn) (o c : Nat) (d : Dev) : Dev :=
  if !mayReset d f o then reqDropped f d
  else match (getCtx d o c).state with
    | .free => setReq .fieldConflict d
    | .stopped => setReq .ok d
    | _ =>
      faultCtx o c (freeReason d.free) { recBase with source := 15, action := 1 } false
        (setReq .ok { d with free := d.free + 1 })

/-- L0_KILL (R360). -/
def execL0Kill (fn : Fn) (o : Fin 8) (ctx : Fin 16) (s : State) : Host.Outcome State Fault Refusal :=
  .next { s with dev := whenBar fn (onBar (requestL0 fn o ctx)) s.dev }

/-- A level's bound has expired (R359). -/
def escalated (d : Dev) : Dev := { d with ump := { d.ump with escalations := (d.ump.escalations + 1) % 65536 } }

/-- The units that hold a killed context: those of its dispatched items, or else its octant's sequencer (R358). -/
def heldBy (d : Dev) (o : Fin 8) (c : Nat) : List UnitId :=
  match (((ctxCmds d o c).filter fun x => x.phase == .active).filterMap (itemUnit o)).eraseDups with
  | [] => [.sequencer o]
  | l => l

/-- The core that the record of a hung cluster names: the lowest-numbered of the quad in which the first stream that has not
ended runs, for a cluster holds its items past the bound where a quad's arbiter or mesh link fails (R18, log 86). -/
def hungQuad (d : Dev) (o : Fin 8) : UnitId → Option Nat
  | .cluster _ c => ((List.range 64).find? fun k => (List.range 2).any fun st =>
      (getStream d (coreNo o c k) st).live).map fun k => k / 4 * 4
  | _ => none

/-- The L0 bound: L1 of each unit that holds an item of the context, each recorded with ESCALATED set (R358, R359). -/
def l0Bound (o : Fin 8) (c : Nat) (d : Dev) : Dev :=
  if look 0 (16 * o + c) d.ump.l0 ≠ 1 ∨ (getCtx d o c).state ≠ .faulted then d
  else
    let us := heldBy d o c
    let d := escalated { d with ump := { d.ump with l0 := put 0 (16 * o + c) 0 d.ump.l0 } }
    us.foldl (fun d u =>
      let hide := l1Covered d u
      let d := recordHung (unitCode u).1 (unitCode u).2
        { recAt d o .hungUnit 13 with
          context := some c, action := 2, escalated := true, subsumed := hide, cluster := unitCluster u
          core := hungQuad d o u } true d
      if hide then d else l1Start u d) d

/-- L0_BOUND_EXPIRY (R358, R359). -/
def execL0BoundExpiry (o : Fin 8) (ctx : Fin 16) (s : State) : Host.Outcome State Fault Refusal :=
  .next { s with dev := settled (l0Bound o ctx) s.dev }

/-! ## L2 (R362) -/

/-- A group of a partition in L2: LOST naming this member goes to every member, and the group is unloaded with its job key;
no other packet of it is sent (R362, R369). -/
def loseGroup (slot : Nat) (d : Dev) : Dev :=
  let g := getGroup d slot
  let lost (d : Dev) (m : Nat) : Dev := pushRel slot m { basePkt g m 3 4 0 0 with arg := g.self } d
  let d := (otherMembers g).foldl lost d
  { setGroup slot (fun _ => Group.zero) d with
    ptr := { d.ptr with jobKeys := erase (65536 * g.vf + g.id) d.ptr.jobKeys } }

/-- The version flip that is pending does not take place; its bits go with the version state, at the scrub (R149, R362). -/
def dropFlip (o : Nat) (d : Dev) : Dev := setSeq o (fun s => { s with flipCmds := [] }) d

/-- L2 of a partition: its events at t and t + 0.1 µs, and the lower levels that it takes over (R362, R366). -/
def l2Run (v : Nat) (r : Reason) (source : Nat) (d : Dev) : Dev :=
  let octs := members8 (getPart d v).octants
  let d := octs.foldl (fun d o => faultOctant o r { recBase with action := 3, source := source } d) d
  let d := { d with ump := { d.ump with
    l2 := set8 d.ump.l2 v
    l1 := d.ump.l1.filter fun u => !octs.contains (unitOct u).val
    l0 := octs.foldl (fun t o => dropRange (16 * o) (16 * o + 16) t) d.ump.l0 } }
  let d := (octs.flatMap (portGroups d)).foldl (fun d s => loseGroup s d) d
  octs.foldl (fun d o => octState o (fun x => if x.state = .failed then x else { x with state := .scrubbing })
    (dropApply .notReady o (dropFlip o (flushMeta o d)))) d

/-- L2 starts: after its dump, when AUTO asks for one and the dump engine takes it (R370). -/
def l2Start (v : Nat) (r : Reason) (source : Nat) (d : Dev) : Dev :=
  if !d.ump.auto then tracked (l2Run v r source) d
  else
    let (started, d) := startDump 1 (getPart d v).octants d
    if started then { d with ump := { d.ump with l2Wait := put none v (some (r, source)) d.ump.l2Wait } }
    else tracked (l2Run v r source) d

/-- A running or waiting L2 of a partition, or a waiting L3, covers an L2 of it (R366). -/
def l2Covered (d : Dev) (v : Nat) : Bool :=
  has8 d.ump.l2 v || (look none v d.ump.l2Wait).isSome || d.ump.l3Wait.isSome

/-- An L2 of a partition that exists, by a host action: started, or recorded with SUBSUMED set (R362, R366). -/
def l2ByHost (v : Nat) (r : Reason) (d : Dev) : Dev :=
  if !(getPart d v).live then d
  else if l2Covered d v then record { recBase with
    reason := r, source := 15, action := 3, subsumed := true, vf := some v } false d
  else l2Start v r 15 d

/-- An L2 whose reason the spec does not name: a free value (log 39). -/
def l2Unnamed (v : Nat) (d : Dev) : Dev := l2ByHost v (freeReason d.free) { d with free := d.free + 1 }

/-- A request for an L2 (R362, R433). -/
def requestL2 (f : Fn) (v : Nat) (d : Dev) : Dev :=
  let mine : Bool := match f with
    | .pf => true
    | .vf u => u.val == v && (getPart d v).live
  if !mine then reqDropped f d
  else if !(getPart d v).live then setReq .fieldConflict d
  else l2Unnamed v (setReq .ok d)

/-- L2_RESET (R362). -/
def execL2Reset (fn : Fn) (v : Fin 8) (s : State) : Host.Outcome State Fault Refusal :=
  .next { s with dev := whenBar fn (onBar (requestL2 fn v)) s.dev }

/-- The reset scrub of an octant; a release scrub that the L2 overtook is done with it (R309, R362). -/
def resetScrub (diffs : List StoreDiff) (o : Nat) (d : Dev) : Dev :=
  let d := scrubSteps o d
  match diffs.find? fun x => x.oct == o with
  | some x => if (getSht d o).state = .failed then d else scrubFail o x.kind x.index d
  | none => octState o (fun x => if x.state = .failed then x else { x with
    state := if x.zeroFill then .zeroFilling else .clean, reason := .ok, doneTick := tickLo d, oldVf := none }) d

/-- Each DATA window of a VF that serves transfers moves to a new epoch (R362). -/
def renewWindows (v : Nat) (d : Dev) : Dev :=
  (List.range 16).foldl (fun d w => if (getWin d v w).live ∧ !(getWin d v w).ring then newEpoch v w d else d) d

/-- An L2 completes: the octants are scrubbed, RESETTING clears (R362). -/
def l2Complete (v : Nat) (diffs : List StoreDiff) (d : Dev) : Dev :=
  if !has8 d.ump.l2 v then d
  else
    let d := (members8 (getPart d v).octants).foldl (fun d o => resetScrub diffs o d) d
    let d := renewWindows v d
    { d with ump := { d.ump with l2 := clr8 d.ump.l2 v } }

/-- L2_COMPLETE (R362). -/
def execL2Complete (e : L2End) (s : State) : Host.Outcome State Fault Refusal :=
  .next { s with dev := settled (tracked (l2Complete e.vf e.diffs)) s.dev }

/-! ## L3 (R363, R364, R368) -/

/-- A held or exporting dump outlives L3 as a held one, with what its area tells of it; a dump that was being taken does not, and the
other fields of UMP_DUMP_STATUS take their reset values (R10, R368, log 40). -/
def keepDump (u : Ump) (x : Ump) : Ump :=
  if u.dumpState ≥ 2 then { x with
    dumpState := 2, truncated := u.truncated, dumpNo := u.dumpNo, dump := u.dump, exported := u.exported }
  else x

/-- What the chip holds after L3's reset: fuses, flash, retention SRAM, HBM in self-refresh with its metadata and regions, the
dump area, the pins and what counts since power-on; everything else is at reset (R363, R364, R368). -/
def warmReset (d : Dev) : Dev :=
  { Dev.reset with
    fuse := d.fuse, flash := d.flash, ret := d.ret, hbm := d.hbm, cas := d.cas, page := d.page, region := d.region
    stack := d.stack.filterMap fun e => if e.2.inited then some (e.1, { Stack.reset with inited := true }) else none
    pkg := { Pkg.reset with
      phase := .running, pwrgd := d.pkg.pwrgd, perst := d.pkg.perst, pwrgdOut := d.pkg.pwrgdOut, sysclk := d.pkg.sysclk
      sysclkBack := d.pkg.sysclkBack, warmResets := (d.pkg.warmResets + 1) % 256, retrains := d.pkg.retrains
      linkTrained := d.pkg.linkTrained }
    tck := { Tck.reset with now := d.tck.now, start := d.tck.now }
    pwr := { Pwr.reset with refLost := d.pwr.refLost }
    ptr := { Porter.reset with heldDoms := d.ret.domHash.map (·.1) }
    ump := keepDump d.ump { Ump.reset with
      escalations := d.ump.escalations, alert := d.ump.alert, cycleCause := d.ump.cycleCause }
    out := d.out, free := d.free }

/-- L3 runs: the chip is reset, and Porter boots to step 7; lockdown, SCRAPPED and recovery end there (R326, R363). -/
def l3Run (selfTest : CheckResult) (d : Dev) : Dev :=
  let d := bootRom selfTest false (alert 0 (warmReset ((List.range 8).foldl (fun d s => flushMeta s d) d)))
  if live d then { d with pkg := { d.pkg with phase := .l3 } } else d

/-- L3 starts: after its dump, when AUTO asks for one and the dump engine takes it (R370); one that already waits goes on. -/
def l3Start (selfTest : CheckResult) (d : Dev) : Dev :=
  if d.ump.l3Wait.isSome then d
  else if !d.ump.auto then l3Run selfTest d
  else
    let (started, d) := startDump 2 0xFF d
    if started then { d with ump := { d.ump with l3Wait := some selfTest } } else l3Run selfTest d

/-- A request for an L3: levels above 2 are the PF's alone (R433). -/
def requestL3 (f : Fn) (selfTest : CheckResult) (d : Dev) : Dev :=
  if f ≠ .pf then reqDropped f d
  else if d.ump.l3Wait.isSome then subsumed { recBase with action := 4 } (setReq .ok d)
  else l3Start selfTest (setReq .ok d)

/-- L3_RESET (R363). -/
def execL3Reset (fn : Fn) (selfTest : CheckResult) (s : State) : Host.Outcome State Fault Refusal :=
  .next { s with dev := whenBar fn (onBar (requestL3 fn selfTest)) s.dev }

/-- L3 completes: boot steps 8 and 9 (R359, R363, R378). -/
def l3Complete (d : Dev) : Dev :=
  if d.pkg.phase = .l3 then bootConfig (bootKeys false { d with pkg := { d.pkg with phase := .running } }) else d

/-- L3_COMPLETE (R363). -/
def execL3Complete (s : State) : Host.Outcome State Fault Refusal := .next { s with dev := l3Complete s.dev }

/-- A watchdog's record and the L3 that follows (R352). -/
def watchdog (source kind : Nat) (selfTest : CheckResult) (boundary : Bool) (d : Dev) : Dev :=
  l3Start selfTest (recordHung kind 0 { recBase with
    source := source, action := 4, subsumed := d.ump.l3Wait.isSome } boundary d)

/-- PORTER_WATCHDOG_EXPIRY (R352). -/
def execPorterWatchdogExpiry (selfTest : CheckResult) (s : State) : Host.Outcome State Fault Refusal :=
  .next { s with dev := settled (watchdog 10 12 selfTest false) s.dev }

/-- UMPIRE_WALK_MISSED: at two consecutive boundaries (R352). -/
def execUmpireWalkMissed (selfTest : CheckResult) (s : State) : Host.Outcome State Fault Refusal :=
  .next { s with dev := settled (watchdog 16 13 selfTest true) s.dev }

/-! ## L4 (R365, R410) -/

/-- L4: every engine stops, ports and link go down, every READY bit clears, CYCLE_REQ_N asserts (R365, R375, R410). -/
def l4Start (cause : Nat) (d : Dev) : Dev :=
  alert 2 (alert 0 { d with
    pkg := { d.pkg with
      phase := .l4, cycleReq := true, pwrgdOut := false, dlUp := false, speed := 0, width := 0, config := false
      mailbox := false, stackReady := 0, octReady := 0, portReady := 0 }
    port := d.port.map fun e => (e.1, { e.2 with half0 := false, half1 := false, up := false })
    ump := { d.ump with cycleCause := cause } })

/-- A request for an L4: the PF's alone (R433). -/
def requestL4 (f : Fn) (d : Dev) : Dev := if f ≠ .pf then reqDropped f d else l4Start 2 (setReq .ok d)

/-- L4_CYCLE (R365). -/
def execL4Cycle (fn : Fn) (s : State) : Host.Outcome State Fault Refusal :=
  .next { s with dev := whenBar fn (requestL4 fn) s.dev }

/-! ## Bounds of L1 to L3 (R358, R359) -/

/-- The L1 bound: L2 of the unit's partition, or L3 when it serves none (R358). -/
def l1Bound (u : UnitId) (selfTest : CheckResult) (d : Dev) : Dev :=
  if !d.ump.l1.contains u then d
  else
    let o := unitOct u
    let d := escalated { d with ump := { d.ump with l1 := d.ump.l1.filter (· != u) } }
    let rc : FaultRec := { recAt d o .hungUnit 13 with escalated := true }
    match octVf d o with
    | some v =>
      let hide := l2Covered d v
      let d := recordHung (unitCode u).1 (unitCode u).2 { rc with action := 3, subsumed := hide } false d
      if hide then d else l2Start v .hungUnit 13 d
    | none =>
      l3Start selfTest (recordHung (unitCode u).1 (unitCode u).2 { rc with
        action := 4, subsumed := d.ump.l3Wait.isSome } false d)

/-- L1_BOUND_EXPIRY (R358). -/
def execL1BoundExpiry (u : UnitId) (selfTest : CheckResult) (s : State) : Host.Outcome State Fault Refusal :=
  .next { s with dev := settled (l1Bound u selfTest) s.dev }

/-- The L2 bound: L3 (R358). Its record names the partition; the unit that it names is not given, so it is a free value
(log 36). -/
def l2Bound (v : Nat) (selfTest : CheckResult) (d : Dev) : Dev :=
  if !has8 d.ump.l2 v then d
  else
    let n := d.free
    let d := escalated { d with free := n + 1 }
    l3Start selfTest (recordHung (Config.freeNat n % 256) (Config.freeNat n / 256) { recBase with
      source := 13, vf := some v, action := 4, escalated := true, subsumed := d.ump.l3Wait.isSome } false d)

/-- L2_BOUND_EXPIRY (R358). -/
def execL2BoundExpiry (v : Fin 8) (selfTest : CheckResult) (s : State) : Host.Outcome State Fault Refusal :=
  .next { s with dev := settled (l2Bound v selfTest) s.dev }

/-- The L3 bound: L4 (R358). -/
def l3Bound (d : Dev) : Dev :=
  if d.pkg.phase ≠ .l3 then d
  else
    let n := d.free
    let d := escalated { d with free := n + 1 }
    l4Start 1 (recordHung (Config.freeNat n % 256) (Config.freeNat n / 256) { recBase with
      source := 13, action := 5, escalated := true } false d)

/-- L3_BOUND_EXPIRY (R358). -/
def execL3BoundExpiry (s : State) : Host.Outcome State Fault Refusal := .next { s with dev := l3Bound s.dev }

/-! ## Lockdown (R358, R367) -/

/-- Lockdown by its cause, with the record of the security fault (R355, R358). -/
def lockdownBy (c : SecurityCause) (d : Dev) : Dev :=
  match c with
  | .metadataFail line requester => metadataFail line requester d
  | .thirdAlarm line requester kind =>
    lockdown (casRec line .integrityFail (hbmDetail line requester kind 3)) (errLast line kind d)
  | .dieLink link direction =>
    lockdown { recBase with reason := .integrityFail, source := 9, detail := natLe 1 link ++ natLe 1 direction } d
  | .porterSelfTest => porterLockdown d
  | .lifecycleFuses => porterLockdown d

/-- LOCKDOWN (R367). -/
def execLockdown (cause : SecurityCause) (s : State) : Host.Outcome State Fault Refusal :=
  .next { s with dev := (fun d => guarded (d.pkg.phase == .running || d.pkg.phase == .recovery || d.pkg.phase == .l3)
    (lockdownBy cause) d) s.dev }

/-! ## The end of a dump (R370, R371) -/

/-- The levels that waited for their dump start: L2s in ascending VF, then L3 (R370). -/
def startWaiting (d : Dev) : Dev :=
  let ws := d.ump.l2Wait
  let third := d.ump.l3Wait
  let d := { d with ump := { d.ump with l2Wait := [], l3Wait := none } }
  let d := ws.foldl (fun d e => match e.2 with
    | some (r, source) => tracked (l2Run e.1 r source) d
    | none => d) d
  match third with
  | some t => l3Run t d
  | none => d

/-- An octant's dump ends; with the last, the dump is held (R371). -/
def dumpDone (o : Nat) (d : Dev) : Dev :=
  if d.ump.dumpState ≠ 1 ∨ !has8 d.ump.dump.running o then d
  else
    let d := octDumped o d
    if d.ump.dump.running = 0 then startWaiting (dumpHeld d) else d

/-- DUMP_COMPLETE (R371). -/
def execDumpComplete (o : Fin 8) (s : State) : Host.Outcome State Fault Refusal :=
  .next { s with dev := settled (dumpDone o) s.dev }

/-- A dump that still runs at 10 ms stops with TRUNCATED set (R371). -/
def dumpTruncate (d : Dev) : Dev :=
  if d.ump.dumpState ≠ 1 then d
  else startWaiting (dumpHeld (setUmp (fun u => { u with
    truncated := true, dump := { u.dump with running := 0 } }) d))

/-- DUMP_TRUNCATE (R371). -/
def execDumpTruncate (s : State) : Host.Outcome State Fault Refusal := .next { s with dev := settled dumpTruncate s.dev }

end Sys2Proof.Machine
end

