-- ==== Sys2Proof/Machine/HostIf.lean ====
section
/-!
DEFINITION. The host link and the board's signals (15, 16): power, PERST_N, link events, function-level resets,
configuration writes, and the interrupt vectors.
-/
namespace Sys2Proof.Machine

/-! ## Power and PERST_N (R374, R398) -/

/-- PWRGD falls: the device stops at once and nothing in it survives; fuses and the attached flash stay (R398). The key draws
go on being numbered, so that no later key is one of the lost ones (log 9). -/
def powerLost (d : Dev) : Dev :=
  { Dev.reset with
    fuse := d.fuse, flash := d.flash, ret := { Retention.reset with rng := d.ret.rng }
    pkg := { Pkg.reset with sysclk := d.pkg.sysclk, perst := d.pkg.perst }, out := d.out, free := d.free }

/-- PWRGD_FALL (R398). -/
def execPwrgdFall (s : State) : Host.Outcome State Fault Refusal :=
  .next { s with dev := (fun d => guarded d.pkg.pwrgd powerLost d) s.dev }

/-- PERST_N asserts: once boot has passed step 8, L3 starts; during an L3 the assertion adds nothing (R359, R366, R374). -/
def perstAssert (selfTest : CheckResult) (d : Dev) : Dev :=
  if d.pkg.perst then d
  else
    let d := { d with pkg := { d.pkg with perst := true } }
    if live d ∧ !d.ump.l3Wait.isSome then l3Start selfTest d
    else if d.pkg.phase = .recovery then l3Run selfTest d
    else if live d ∨ d.pkg.phase = .l3 then subsumed { recBase with action := 4 } d
    else d

/-- PERST_ASSERT (R374). -/
def execPerstAssert (selfTest : CheckResult) (s : State) : Host.Outcome State Fault Refusal :=
  .next { s with dev := perstAssert selfTest s.dev }

/-- PERST_N is released: the link trains if configuration space has been released (R374, R377). -/
def execPerstRelease (s : State) : Host.Outcome State Fault Refusal :=
  .next { s with dev := trainLink { s.dev with pkg := { s.dev.pkg with perst := false } } }

/-! ## The link (R379, R382, R409) -/

/-- The mailbox request in progress is aborted: its response is discarded, and what it started ends unanswered (R379). -/
def abortMailbox (d : Dev) : Dev :=
  let sw := d.ptr.stg.switching
  { d with
    ptr := { d.ptr with
      busy := false, discard := false
      stg := { d.ptr.stg with switching := if sw = some .mbox then some .silent else sw } }
    seq := d.seq.map fun e => (e.1, { e.2 with mgmtMbox := false }) }

/-- Configuration state of every function resets (R379). -/
def resetConfig (d : Dev) : Dev :=
  { d with pkg := { d.pkg with busMaster := [], memSpace := [], vfEnable := false, numVfs := 0, msixPend := [], msixTab := [] } }

/-- A DL_Down that the host causes: the steps of R379 in order. -/
def dlDown (d : Dev) : Dev :=
  let d := resetConfig { d with pkg := { d.pkg with dlUp := false, speed := 0, width := 0 } }
  let d := abortMailbox ((List.range 9).foldl (fun d i => endSessions (fnOf i) d) d)
  if live d then settle ((List.range 8).foldl (fun d v => l2ByHost v .hostStall d) d) else d

/-- HOST_DL_DOWN (R379). -/
def execHostDlDown (s : State) : Host.Outcome State Fault Refusal :=
  .next { s with dev := (fun d => guarded d.pkg.dlUp dlDown d) s.dev }

/-- PCIE_REFCLK_LOSS: more than 10 µs takes the link down (R409). -/
def execPcieRefclkLoss (ns : Nat) (s : State) : Host.Outcome State Fault Refusal :=
  .next { s with dev := (fun d => guarded (d.pkg.dlUp && ns > 10000) dlDown d) s.dev }

/-- PCIE_LINK_RETRAIN: the link comes up at a rate and width, or changes to them (R382). -/
def linkRetrain (speed width : Nat) (d : Dev) : Dev :=
  if d.pkg.perst ∨ !d.pkg.config ∨ speed < 4 ∨ speed > 7 ∨ !([4, 8, 16].contains width) then d
  else { d with pkg := { d.pkg with
    dlUp := true, linkTrained := true, speed := speed, width := width
    retrains := (d.pkg.retrains + 1) % 65536 } }

/-- PCIE_LINK_RETRAIN (R382). -/
def execPcieLinkRetrain (speed width : Nat) (s : State) : Host.Outcome State Fault Refusal :=
  .next { s with dev := linkRetrain speed width s.dev }

/-! ## Function-level resets and configuration writes (R384, R385) -/

/-- Configuration state of one function resets, with its MSI-X vectors (R384). -/
def resetFn (f : Fn) (d : Dev) : Dev :=
  { d with pkg := { d.pkg with
    busMaster := put false (fnIx f) false d.pkg.busMaster, memSpace := put false (fnIx f) false d.pkg.memSpace
    msixPend := d.pkg.msixPend.filter fun e => e.1 != fnIx f
    msixTab := dropRange (256 * fnIx f) (256 * fnIx f + 256) d.pkg.msixTab } }

/-- A VF's function-level reset starts L2 of its partition (R384). -/
def vfFlr (v : Fin 8) (d : Dev) : Dev :=
  let d := resetFn (.vf v) d
  if live d ∧ (getPart d v).live then settle (l2Unnamed v d) else d

/-- VF_FLR (R384). -/
def execVfFlr (v : Fin 8) (s : State) : Host.Outcome State Fault Refusal :=
  .next { s with dev := (fun d => guarded (fnPresent d (.vf v)) (vfFlr v) d) s.dev }

/-- The PF's function-level reset: its sessions end, and the answer to a request in progress is discarded (R384). -/
def pfFlr (d : Dev) : Dev :=
  let d := endSessions .pf (resetFn .pf d)
  { d with ptr := { d.ptr with discard := d.ptr.busy } }

/-- PF_FLR (R384). -/
def execPfFlr (s : State) : Host.Outcome State Fault Refusal :=
  .next { s with dev := (fun d => guarded (fnPresent d .pf) pfFlr d) s.dev }

/-- A configuration field that a command names; VF Enable and NumVFs are the PF's (R379, R385). -/
def configWrite (f : Fn) (field : CfgField) (value : Nat) (d : Dev) : Dev :=
  match field, f with
  | .busMaster, f => { d with pkg := { d.pkg with busMaster := put false (fnIx f) (bitAt value 0) d.pkg.busMaster } }
  | .memSpace, f => { d with pkg := { d.pkg with memSpace := put false (fnIx f) (bitAt value 0) d.pkg.memSpace } }
  | .vfEnable, .pf => { d with pkg := { d.pkg with vfEnable := bitAt value 0 } }
  | .numVfs, .pf => { d with pkg := { d.pkg with numVfs := value % 65536 } }
  | _, .vf _ => d

/-- CONFIG_SPACE_WRITE (R385): configuration space answers in lockdown too (R380). -/
def execConfigSpaceWrite (fn : Fn) (field : CfgField) (value : Nat) (s : State) : Host.Outcome State Fault Refusal :=
  .next { s with dev := (fun d => guarded (fnPresent d fn) (configWrite fn field value) d) s.dev }

/-! ## Vectors (R388, R389) -/

/-- A pending vector that is not masked sends its message in a tick in which it has sent none (R389). -/
def sendPending (fn vector : Nat) (d : Dev) : Dev :=
  if d.pkg.dlUp ∧ d.pkg.msixPend.contains (fn, vector) ∧ !d.pkg.msixSent.contains (fn, vector) ∧
      !(msixEnt d fn vector).masked then
    interrupt fn vector { d with pkg := { d.pkg with msixPend := d.pkg.msixPend.filter (· != (fn, vector)) } }
  else d

/-- MSIX_PENDING_SEND (R389). -/
def execMsixPendingSend (fn : Fn) (vector : Nat) (s : State) : Host.Outcome State Fault Refusal :=
  .next { s with dev := sendPending (fnIx fn) vector s.dev }

/-- The offsets of register accesses from which on they name BAR2 (R383). -/
def bar2Base : Nat := 0x4000000

/-- Vectors of a function (R388). -/
def vectorsOf : Fn → Nat
  | .pf => 256
  | .vf _ => 224

/-- A 32-bit word of a table entry written: address low and high, data, vector control. -/
def msixPut (word value : Nat) (e : MsixEnt) : MsixEnt :=
  match word with
  | 0 => { e with addr := BitVec.ofNat 64 (e.addr.toNat / 2 ^ 32 * 2 ^ 32 + value / 4 * 4) }
  | 1 => { e with addr := BitVec.ofNat 64 (e.addr.toNat % 2 ^ 32 + value * 2 ^ 32) }
  | 2 => { e with data := BitVec.ofNat 32 value }
  | _ => { e with masked := bitAt value 0 }

/-- A 32-bit word of a table entry. -/
def msixWord (e : MsixEnt) (word : Nat) : Nat :=
  match word with
  | 0 => e.addr.toNat % 2 ^ 32
  | 1 => e.addr.toNat / 2 ^ 32
  | 2 => e.data.toNat
  | _ => b2n e.masked

/-- A 32-bit write to BAR2: a table entry changes, and a vector that it unmasks sends what is pending (R383, R389, log 53). -/
def msixWrite32 (f : Fn) (off value : Nat) (d : Dev) : Dev :=
  let v := off / 16
  if v ≥ vectorsOf f then d
  else sendPending (fnIx f) v { d with pkg := { d.pkg with
    msixTab := alter MsixEnt.zero (256 * fnIx f + v) (msixPut (off / 4 % 4) value) d.pkg.msixTab } }

/-- A write to BAR2: the table at 0x0000; the PBA is read-only (R383). -/
def msixWrite (f : Fn) (off n value : Nat) (d : Dev) : Dev :=
  if !((n = 4 ∨ n = 8) ∧ off % n = 0) then d
  else
    let d := msixWrite32 f off (value % 2 ^ 32) d
    if n = 8 then msixWrite32 f (off + 4) (value / 2 ^ 32) d else d

/-- A 32-bit word of BAR2: the table at 0x0000, the pending bits at 0x2000 (R383). -/
def msixRead32 (d : Dev) (f : Fn) (off : Nat) : Nat :=
  if off / 16 < vectorsOf f then msixWord (msixEnt d (fnIx f) (off / 16)) (off / 4 % 4)
  else if 0x2000 ≤ off ∧ off < 0x2000 + vectorsOf f / 8 then
    (List.range 32).foldl (fun x i => x + if d.pkg.msixPend.contains (fnIx f, (off - 0x2000) * 8 + i) then 2 ^ i else 0) 0
  else 0

/-- A read of BAR2. -/
def msixRead (f : Fn) (off n : Nat) (d : Dev) : Dev :=
  emit (.readData (fnIx f) (BitVec.ofNat 64
    (if n = 4 ∧ off % 4 = 0 then msixRead32 d f off
     else if n = 8 ∧ off % 8 = 0 then msixRead32 d f off + 2 ^ 32 * msixRead32 d f (off + 4) else 0))) d

/-- Offset of a PCI_QVEC entry within the block, and the identifier of its VECTOR (R388, R423). -/
def qvecOffset (o q : Nat) : Nat := 0x100 + 4 * (32 * o + q)
def qvecField (o q : Nat) : Nat := fieldIdOf (qvecOffset o q) (2 * (q % 2))

/-- PCI_QVEC written: a vector that no completion may raise drops the write, which PCI_STATUS records too (R388, R424). -/
def qvecWrite (f : Fn) (o q vector : Nat) (en : Bool) (d : Dev) : Dev :=
  if !mayUseOctant d f o then dropLog f .notOwner (qvecField o q) (0x80000 + qvecOffset o q) true d
  else if vector < 3 ∨ vector > 223 then
    setStatus 0x80000 (some (.fieldRange, qvecField o q))
      (dropLog f .fieldRange (qvecField o q) (0x80000 + qvecOffset o q) true d)
  else { d with pkg := { d.pkg with qvec := put (0, false) (32 * o + q) (vector, en) d.pkg.qvec } }

/-- PCI_QVEC_WRITE (R388). -/
def execPciQvecWrite (fn : Fn) (o : Fin 8) (q : Fin 32) (vector : Nat) (en : Bool) (s : State) :
    Host.Outcome State Fault Refusal :=
  .next { s with dev := whenBar fn (qvecWrite fn o q vector en) s.dev }

end Sys2Proof.Machine
end

