-- ==== Sys2Proof/Machine/Smbus.lean ====
section
/-!
DEFINITION. The tray controller's SMBus target and the JTAG TAP (16).
-/
namespace Sys2Proof.Machine

/-! ## Fault records as bytes (R354, R355) -/

/-- A byte field that may not apply. -/
def optByte (x : Option Nat) : List Byte := natLe 1 (x.getD 0xFF)

/-- FLAGS of a record. -/
def recFlags (r : FaultRec) : Nat := b2n r.security + 2 * b2n r.escalated + 4 * b2n r.subsumed

/-- The 64 bytes of a record (R354). -/
def recordBytes (r : FaultRec) : List Byte :=
  natLe 4 r.seq ++ natLe 1 (reasonCode r.reason) ++ natLe 1 r.source ++ natLe 1 r.action ++ natLe 1 (recFlags r) ++
  natLe 8 r.tick ++ optByte r.vf ++ optByte r.octant ++ optByte r.context ++ optByte r.queue ++ optByte r.cluster ++
  optByte r.core ++ optByte r.streamSlot ++ optByte r.engine ++ natLe 4 r.pc ++ natLe 2 r.tag ++ natLe 2 r.ringSlot ++
  natLe 4 r.offsetNs ++ slice r.detail 0 28

/-- The record at a slot of a ring, zeros if none was written there. -/
def ringBytes (g : Ring) (slot : Nat) : List Byte :=
  if g.recs.any fun e => e.1 == slot then recordBytes (look recBase slot g.recs) else List.replicate 64 0

/-! ## Who answers (R412, R413) -/

/-- A transaction with a bad PEC is discarded; an unpowered device hears none. -/
def smbHeard (pecOk : Bool) (f : Dev → Dev) (d : Dev) : Dev := if pecOk ∧ powered d then f d else d

/-- A command marked "always": not in SCRAPPED, where only STATUS is answered. -/
def smbAlways (pecOk : Bool) (f : Dev → Dev) (d : Dev) : Dev :=
  smbHeard pecOk (fun d => if d.pkg.phase = .scrapped then emit .smbusNack d else f d) d

/-- Porter's firmware runs: in service, and in an L3 or L4, where RESET_REQ is still answered. -/
def firmwareRuns (d : Dev) : Bool := d.pkg.phase == .running || d.pkg.phase == .l3 || d.pkg.phase == .l4

/-- A command that the firmware answers. -/
def smbFirmware (pecOk : Bool) (f : Dev → Dev) (d : Dev) : Dev :=
  smbHeard pecOk (fun d => if firmwareRuns d then f d else emit .smbusNack d) d

/-- A command that the firmware or, in recovery, the ROM answers. -/
def smbStaging (pecOk : Bool) (f : Dev → Dev) (d : Dev) : Dev :=
  smbHeard pecOk (fun d => if firmwareRuns d ∨ d.pkg.phase = .recovery then f d else emit .smbusNack d) d

/-! ## Telemetry and faults (R413, R414) -/

/-- The 8 bytes of STATUS. -/
def statusBytes (d : Dev) : List Byte :=
  let p := d.pkg
  natLe 1 (b2n p.pwrgdOut + 2 * b2n p.halt + 4 * b2n (p.phase == .lockdown) + 8 * b2n (p.phase == .tripped) +
    16 * b2n p.cycleReq + 32 * b2n (allReady d) + 64 * modeCode d.pwr.mode) ++
  natLe 1 (b2n d.pwr.drift + 2 * b2n d.pwr.refLost + 4 * b2n (p.phase == .recovery) + 8 * lcsState d.fuse) ++
  natLe 1 d.tck.hold ++ natLe 1 0 ++ natLe 4 d.tck.count

/-- STATUS (R413). -/
def execStatus (pecOk : Bool) (s : State) : Host.Outcome State Fault Refusal :=
  .next { s with dev := smbHeard pecOk (fun d => emit (.smbus (statusBytes d)) d) s.dev }

/-- ALERT_CAUSE read (R413). -/
def execAlertCause (pecOk : Bool) (s : State) : Host.Outcome State Fault Refusal :=
  .next { s with dev := smbAlways pecOk (fun d => emit (.smbus (natLe 2 d.ump.alert.toNat)) d) s.dev }

/-- Bits of ALERT_CAUSE written as 1 clear (R413, R414). -/
def alertClear (x : BitVec 16) (d : Dev) : Dev := { d with ump := { d.ump with alert := d.ump.alert &&& ~~~ x } }

/-- ALERT_CAUSE write (R413). -/
def execAlertCauseClear (pecOk : Bool) (x : BitVec 16) (s : State) : Host.Outcome State Fault Refusal :=
  .next { s with dev := smbAlways pecOk (alertClear x) s.dev }

/-- ALERT_RESPONSE: the device answers the Alert Response Address with its own while it holds SMB_ALERT_N low (R412). -/
def alertResponse (d : Dev) : Dev :=
  if d.ump.alert ≠ 0 then emit (.smbus (natLe 1 (2 * (0x58 + Config.smbAddr.toNat)))) d else d

/-- ALERT_RESPONSE (R412). -/
def execAlertResponse (s : State) : Host.Outcome State Fault Refusal :=
  .next { s with dev := smbAlways true alertResponse s.dev }

/-- CYCLE_CAUSE (R413). -/
def execCycleCause (pecOk : Bool) (s : State) : Host.Outcome State Fault Refusal :=
  .next { s with dev := smbAlways pecOk (fun d => emit (.smbus (natLe 1 d.ump.cycleCause)) d) s.dev }

/-- TRIP_SENSOR (R413). -/
def execTripSensor (pecOk : Bool) (s : State) : Host.Outcome State Fault Refusal :=
  .next { s with dev := (smbAlways pecOk
    (fun d => emit (.smbus (natLe 1 d.ump.tripSensor ++ natLe 1 d.ump.tripTemp)) d)) s.dev }

/-- POWER of a rail in W (R402). -/
def railW (d : Dev) (r : Nat) : Nat := (look (0, 0, 0) r d.pwr.rails).1

/-- RAIL_POWER (R413). -/
def execRailPower (pecOk : Bool) (s : State) : Host.Outcome State Fault Refusal :=
  .next { s with dev := (smbAlways pecOk
    (fun d => emit (.smbus ((List.range 13).flatMap fun r => natLe 2 (railW d r))) d)) s.dev }

/-- TEMP of a sensor, 0 before its first sample (R405). -/
def sensorTemp (d : Dev) (n : Nat) : Int := (look none n d.pwr.sensors).getD 0

/-- TEMPS (R413): sign-extended from the 12 bits of the register. -/
def execTemps (pecOk : Bool) (s : State) : Host.Outcome State Fault Refusal :=
  .next { s with dev := smbAlways pecOk (fun d => emit (.smbus ((List.range 44).flatMap fun n =>
    natLe 2 (unsigned 16 (signed 12 (unsigned 12 (sensorTemp d n)))))) d) s.dev }

/-- DEVICE_POWER (R413). -/
def execDevicePower (pecOk : Bool) (s : State) : Host.Outcome State Fault Refusal :=
  .next { s with dev := (smbAlways pecOk
    (fun d => emit (.smbus (natLe 2 (((List.range 13).map (railW d)).foldl (· + ·) 0))) d)) s.dev }

/-- FAULT_SELECT: n from 0 to 15; another value selects nothing (log 41). -/
def faultSelect (n : Nat) (d : Dev) : Dev := if n < 16 then { d with ump := { d.ump with faultSel := n } } else d

/-- FAULT_SELECT (R413). -/
def execFaultSelect (pecOk : Bool) (n : Nat) (s : State) : Host.Outcome State Fault Refusal :=
  .next { s with dev := smbAlways pecOk (faultSelect n) s.dev }

/-- FAULT_READ: the (n + 1)-th newest record of the PF ring. -/
def faultRead (d : Dev) : Dev :=
  emit (.smbus (ringBytes d.ret.pfRing ((d.ret.pfRing.producer + 65535 - d.ump.faultSel) % 65536 % 512))) d

/-- FAULT_READ (R413). -/
def execFaultRead (pecOk : Bool) (s : State) : Host.Outcome State Fault Refusal :=
  .next { s with dev := smbAlways pecOk faultRead s.dev }

/-! ## Staging and reset (R336 to R338, R413) -/

/-- A staging command; while an activation's pointer write is in progress a further one is not taken (log 41). -/
def stage (f : Dev → Reason × Dev) (d : Dev) : Dev :=
  if d.ump.stageBusy then emit .smbusNack d else let (r, d) := f d; stageDone r d

/-- STAGE_BEGIN (R336). -/
def execStageBegin (pecOk : Bool) (length : Nat) (s : State) : Host.Outcome State Fault Refusal :=
  .next { s with dev := tracked (smbStaging pecOk (stage (updateBegin length))) s.dev }

/-- STAGE_WRITE's bytes: 1 to 240 of them (R413). -/
def stageWriting (offset : Nat) (bs : List Byte) (d : Dev) : Reason × Dev :=
  if bs.length < 1 ∨ bs.length > 240 then (.fieldRange, d) else updateWrite offset bs d

/-- STAGE_WRITE (R336). -/
def execStageWrite (pecOk : Bool) (offset : Nat) (bytes : List Byte) (s : State) : Host.Outcome State Fault Refusal :=
  .next { s with dev := tracked (smbStaging pecOk (stage (stageWriting offset bytes))) s.dev }

/-- STAGE_VERIFY (R337). -/
def execStageVerify (pecOk : Bool) (s : State) : Host.Outcome State Fault Refusal :=
  .next { s with dev := tracked (smbStaging pecOk (stage updateVerify)) s.dev }

/-- STAGE_ACTIVATE: busy until the pointer write completes (R338). -/
def stageActivate (d : Dev) : Dev :=
  if d.ump.stageBusy then emit .smbusNack d
  else match updateActivate .smbus d with
    | (some r, d) => stageDone r d
    | (none, d) => { d with ump := { d.ump with stageBusy := true } }

/-- STAGE_ACTIVATE (R338). -/
def execStageActivate (pecOk : Bool) (s : State) : Host.Outcome State Fault Refusal :=
  .next { s with dev := tracked (smbStaging pecOk stageActivate) s.dev }

/-- STAGE_CANCEL (R336). -/
def execStageCancel (pecOk : Bool) (s : State) : Host.Outcome State Fault Refusal :=
  .next { s with dev := tracked (smbStaging pecOk (stage updateCancel)) s.dev }

/-- STAGE_RESULT (R413). -/
def execStageResult (pecOk : Bool) (s : State) : Host.Outcome State Fault Refusal :=
  .next { s with dev := (smbStaging pecOk
    (fun d => emit (.smbus (natLe 1 (reasonCode d.ump.stageReason) ++ natLe 1 (b2n d.ump.stageBusy))) d)) s.dev }

/-- RESET_REQ: 1 starts L3, unless an L3 or L4 already runs (R413). -/
def smbReset (value : Nat) (selfTest : CheckResult) (d : Dev) : Dev :=
  let set (r : Reason) (d : Dev) : Dev := { d with ump := { d.ump with resetResult := r } }
  if value ≠ 1 then d
  else if !live d ∨ d.ump.l3Wait.isSome then set .notReady d
  else l3Start selfTest (set .ok d)

/-- RESET_REQ (R413). -/
def execResetReq (pecOk : Bool) (value : Nat) (selfTest : CheckResult) (s : State) : Host.Outcome State Fault Refusal :=
  .next { s with dev := smbFirmware pecOk (smbReset value selfTest) s.dev }

/-- RESET_RESULT (R413). -/
def execResetResult (pecOk : Bool) (s : State) : Host.Outcome State Fault Refusal :=
  .next { s with dev := smbFirmware pecOk (fun d => emit (.smbus (natLe 1 (reasonCode d.ump.resetResult))) d) s.dev }

/-! ## JTAG (R346, R415) -/

/-- The instruction that a state permits: another selects BYPASS. The rules in force are those of the last reset (R347). -/
def jtagPermitted (count : Nat) (op : JtagOp) : JtagOp :=
  match op with
  | .idcode => .idcode
  | .bypass => .bypass
  | .lifecycle => if debugState count ∨ count ≥ 4 then .lifecycle else .bypass
  | .boundaryScan => if debugState count then .boundaryScan else .bypass
  | .other => if debugState count then .other else .bypass

/-- IDCODE: 0x200_29A3 with the stepping above (R415). -/
def idcode (f : Fuses) : Word := BitVec.ofNat 32 (0x020029A3 + 2 ^ 28 * f.stepping)

/-- A boundary-scan instruction halts the device as lockdown does (R415). The spec speaks of no record, and CYCLE_CAUSE is that
of lockdown. -/
def boundaryHalt (d : Dev) : Dev :=
  let d := stopAndZero .lockdown d
  emit .errFatal { d with ump := { d.ump with cycleCause := 3 } }

/-- A JTAG instruction; what an instruction other than those the spec describes does is nothing of the device's state. -/
def jtag (op : JtagOp) (d : Dev) : Dev :=
  match jtagPermitted d.ptr.lcsAtReset op with
  | .idcode => emit (.jtag (idcode d.fuse)) d
  | .bypass => emit (.jtag 0) d
  | .lifecycle => emit (.jtag (BitVec.ofNat 32 (lcsState d.fuse))) (debugUsed d)
  | .boundaryScan =>
    if d.pkg.phase = .lockdown ∨ d.pkg.phase = .tripped then debugUsed d else boundaryHalt (debugUsed d)
  | .other => debugUsed d

/-- JTAG_INSTRUCTION (R415). -/
def execJtagInstruction (op : JtagOp) (s : State) : Host.Outcome State Fault Refusal :=
  .next { s with dev := (fun d => guarded (powered d) (tracked (jtag op)) d) s.dev }

end Sys2Proof.Machine
end

