-- ==== Sys2Proof/Machine/Debug.lean ====
section
/-!
DEFINITION. The debug block (17): the selected stream, halting and stepping it, and its state.
-/
namespace Sys2Proof.Machine

/-! ## The selected stream (R425) -/

/-- Core number and stream that DBG_SEL selects. -/
def dbgCore (d : Dev) : Nat := coreNo (bits d.dbgSel 0 3) (bits d.dbgSel 3 4) (bits d.dbgSel 7 6)
def dbgStrm (d : Dev) : Nat := bits d.dbgSel 13 1

/-- DBG_HALT.HALTED. -/
def dbgHalted (d : Dev) : Bool := (getStream d (dbgCore d) (dbgStrm d)).halted

/-- An access to the block at an offset: a VF's is not its own, and a closed block answers nothing. Every access to the
block sets DEBUG.USED (R333, R418, R425). -/
def dbgAccess (f : Fn) (offset pos : Nat) (write : Bool) (g : Dev → Dev) (d : Dev) : Dev :=
  let zero (d : Dev) : Dev := if write then d else emit (.readData (fnIx f) 0) d
  match f with
  | .vf _ => zero (dropLog f .notOwner (fieldIdOf offset pos) (0xB0000 + offset) write d)
  | .pf =>
    let d := debugUsed d
    if d.ptr.debugOpen then g d
    else zero (dropLog f .lifecycleDenied (fieldIdOf offset pos) (0xB0000 + offset) write d)

/-- HALT written: the selected stream stops at its next bundle, or goes on. -/
def dbgHalt (on : Bool) (d : Dev) : Dev := setStream (dbgCore d) (dbgStrm d) (fun x => { x with halted := on }) d

/-- HALT (R425). -/
def execHalt (fn : Fn) (on : Bool) (s : State) : Host.Outcome State Fault Refusal :=
  .next { s with dev := whenBar fn (onBar (tracked (dbgAccess fn 0x48 0 true (dbgHalt on)))) s.dev }

/-- STEP: a halted stream whose bundle is ready issues it, and is halted again. -/
def dbgStep (clk : Nat) (d : Dev) : Dev :=
  let n := dbgCore d
  let st := dbgStrm d
  let run := setStream n st (fun x => { x with halted := false }) d
  match (getCore d n).item, (getCore d n).ctx with
  | some item, some ctx =>
    if dbgHalted d && streamReady run n st clk && issueClock run n clk then
      setStream n st (fun x => { x with halted := true }) (issueOn n st clk item ctx run)
    else d
  | _, _ => d

/-- STEP (R425). -/
def execStep (fn : Fn) (clk : Nat) (s : State) : Host.Outcome State Fault Refusal :=
  .next { s with dev := whenBar fn (onBar (tracked (dbgAccess fn 0x48 1 true (dbgStep clk)))) s.dev }

/-- Bytes of the selected stream's state. -/
def dbgBytes (d : Dev) (offset n : Nat) : List Byte :=
  slice (streamState (getStream d (dbgCore d) (dbgStrm d))) offset n

/-- Bytes of DBG_STATE read or written, while the stream is halted; otherwise the access reads zero or is dropped with
NOT_READY, which is the model's choice (log 42). -/
def dbgState (f : Fn) (offset n : Nat) (write : Option Nat) (d : Dev) : Dev :=
  if dbgHalted d then
    match write with
    | none => emit (.readData (fnIx f) (BitVec.ofNat 64 (leNat (dbgBytes d offset n)))) d
    | some v => setStream (dbgCore d) (dbgStrm d) (setStateBytes offset (natLe n v)) d
  else
    let d := dropLog f .notReady (fieldIdOf (0x1000 + offset) 0) (0xB1000 + offset) write.isSome d
    if write.isSome then d else emit (.readData (fnIx f) 0) d

/-- A 64-bit access to DBG_STATE at an offset within it; one that does not lie in it is out of range (R7, R417). -/
def dbgStateAccess (f : Fn) (offset : Nat) (write : Option DWord) (d : Dev) : Dev :=
  if offset % 8 ≠ 0 ∨ offset ≥ 4608 then
    let d := dropLog f .fieldRange (fieldIdOf (0x1000 + offset) 0) (0xB1000 + offset) write.isSome d
    if write.isSome then d else emit (.readData (fnIx f) 0) d
  else dbgState f offset 8 (write.map (·.toNat)) d

/-- DBG_STATE_ACCESS (R425). -/
def execDbgStateAccess (fn : Fn) (offset : Nat) (write : Option DWord) (s : State) :
    Host.Outcome State Fault Refusal :=
  .next { s with dev := whenBar fn (tracked
    (dbgAccess fn (0x1000 + offset) 0 write.isSome (dbgStateAccess fn offset write))) s.dev }

end Sys2Proof.Machine
end

