-- ==== Sys2Proof/Machine/RegMap.lean ====
section
/-!
DEFINITION. The register map (17): the 64-bit words of BAR0 that registers occupy, the fields of each with their classes,
and what each function's view shows.
-/
namespace Sys2Proof.Machine

/-! ## Words and fields -/

/-- The classes of register fields (R45). -/
inductive Cls where
  | ro | rw | rwt | rwl | wo | w1c
  deriving DecidableEq, Repr

/-- A field of a word: its lowest bit, its width and its class. -/
structure Fld where
  lo : Nat
  width : Nat
  cls : Cls
  deriving DecidableEq, Repr

/-- How registers occupy a word: a 32-bit register in its low half, one 64-bit register, or two 32-bit registers. -/
inductive Shape where
  | low | whole | pair
  deriving DecidableEq, Repr

/-- The words that registers occupy (17, block summaries). -/
inductive Wd where
  | glbId | glbStatus | glbMode | glbDrop | glbReady | glbConfig (o : Nat)
  | tckCount | tckPeriod | tckHold
  | ctrl (b : Block) | status (b : Block)
  | pwrRail (r : Nat) | lvrCtrl | view (v : Nat) | sensors (n : Nat) | est
  | lcsStatus | lcsState | lcsAdvance
  | ptrGo | ptrStatus | ptrBuf (i : Nat)
  | silStatus | silBoot
  | overrun | ring | resetReq | resetStatus | dumpCtrl | dumpWin (i : Nat) | dumpStatus | rec_ (i j : Nat)
  | shtPart (v : Nat) | shtOct (o : Nat)
  | pciLink | qvec (n : Nat)
  | slot (v : Nat) | win (v w i : Nat)
  | lblPart (v : Nat) | poolCfg (n : Nat) | poolStat (n : Nat)
  | dbgSel | dbgHalt | dbgState (i : Nat)
  | udp | rlyDeadline (v : Nat) | gbase | gcmd | gresult | rlyDrop (p i : Nat) | gstat (n i : Nat)
  | fabMode (p : Nat) | fabLink (p : Nat) | ipHi (p : Nat) | ipLo (p : Nat) | mac (p : Nat) | hop (p h : Nat)
  | ecc (s i : Nat)
  | alarm (s : Nat) | casInit (s : Nat) | errCount (s : Nat) | errLast (s : Nat)
  | planBase (o : Nat) | inflight (o : Nat) | mgmtCmd (o i : Nat) | mgmtGo (o : Nat) | mgmtResult (o : Nat)
  | ctx (o c : Nat) | version (o : Nat) | vgen (o v : Nat)
  | qConfig (o q : Nat) | bells (o q : Nat) | qStatus (o q : Nat)
  | obj (o n i : Nat)
  | rleDeadline (o : Nat) | stale (o : Nat)
  | skipLimit (o c : Nat) | skipSel (o c : Nat) | skipCount (o c : Nat) | skipLog (o c n i : Nat)
  deriving DecidableEq, Repr

/-- Which of n entries of a stride from a base an offset is the start of. -/
def entryAt (base stride n a : Nat) : Option Nat :=
  if base ≤ a ∧ (a - base) % stride = 0 ∧ (a - base) / stride < n then some ((a - base) / stride) else none

def fin8 (n : Nat) : Fin 8 := ⟨n % 8, Nat.mod_lt _ (by decide)⟩
def fin9 (n : Nat) : Fin 9 := ⟨n % 9, Nat.mod_lt _ (by decide)⟩

/-- BLK_CTRL and BLK_STATUS at their places (R422). -/
def blkWord (b : Block) (a : Nat) : Option Wd :=
  if a = 0 then some (.ctrl b) else if a = 8 then some (.status b) else none

def glbWord (a : Nat) : Option Wd :=
  if a = 0 then some .glbId else if a = 8 then some .glbStatus else if a = 0x18 then some .glbMode
  else if a = 0x20 then some .glbDrop else if a = 0x40 then some .glbReady
  else (entryAt 0x80 8 8 a).map .glbConfig

def tckWord (a : Nat) : Option Wd :=
  if a = 0 then some .tckCount else if a = 8 then some .tckPeriod else if a = 0x10 then some (.ctrl .tck)
  else if a = 0x18 then some (.status .tck) else if a = 0x20 then some .tckHold else none

def pwrWord (a : Nat) : Option Wd :=
  if a = 0x200 then some .lvrCtrl else if a = 0x400 then some .est
  else blkWord .pwr a <|> (entryAt 0x100 8 13 a).map .pwrRail <|> (entryAt 0x210 8 8 a).map .view <|>
    (entryAt 0x300 8 22 a).map .sensors

def lcsWord (a : Nat) : Option Wd :=
  if a = 8 then some .lcsStatus else if a = 0x40 then some .lcsState else if a = 0x48 then some .lcsAdvance else none

def ptrWord (a : Nat) : Option Wd :=
  if a = 0x40 then some .ptrGo else if a = 0x48 then some .ptrStatus else (entryAt 0x1000 8 512 a).map .ptrBuf

def silWord (a : Nat) : Option Wd :=
  if a = 8 then some .silStatus else if a = 0x40 then some .silBoot else none

def umpWord (a : Nat) : Option Wd :=
  if a = 0x40 then some .overrun else if a = 0x48 then some .ring else if a = 0x60 then some .resetReq
  else if a = 0x68 then some .resetStatus else if a = 0x80 then some .dumpCtrl else if a = 0xA0 then some .dumpStatus
  else blkWord .ump a <|> (entryAt 0x88 8 3 a).map .dumpWin <|>
    (entryAt 0x8000 8 4096 a).map fun n => .rec_ (n / 8) (n % 8)

def shtWord (a : Nat) : Option Wd :=
  blkWord .sht a <|> (entryAt 0x40 8 8 a).map .shtPart <|> (entryAt 0x100 8 8 a).map .shtOct

def pciWord (a : Nat) : Option Wd :=
  if a = 0x40 then some .pciLink else blkWord .pci a <|> (entryAt 0x100 8 128 a).map .qvec

def trsWord (a : Nat) : Option Wd :=
  blkWord .trs a <|> (entryAt 0x40 8 8 a).map .slot <|>
    ((entryAt 0x1000 8 1024 a).bind fun n => if n % 8 < 5 then some (.win (n / 128) (n / 8 % 16) (n % 8)) else none)

def lblWord (a : Nat) : Option Wd :=
  blkWord .lbl a <|> (entryAt 0x40 0x10 8 a).map .lblPart <|> (entryAt 0x400 0x20 64 a).map .poolCfg <|>
    (entryAt 0x408 0x20 64 a).map .poolStat

/-- DBG: DBG_STATE from 0x1000 to 0x21FF. -/
def dbgWord (a : Nat) : Option Wd :=
  if a = 0x40 then some .dbgSel else if a = 0x48 then some .dbgHalt
  else blkWord .dbg a <|> (entryAt 0x1000 8 576 a).map .dbgState

def rlyWord (a : Nat) : Option Wd :=
  if a = 0x40 then some .udp else if a = 0x200 then some .gbase else if a = 0x208 then some .gcmd
  else if a = 0x210 then some .gresult
  else blkWord .rly a <|> (entryAt 0x100 8 8 a).map .rlyDeadline <|>
    (entryAt 0x300 8 16 a).map (fun n => .rlyDrop (n / 2) (n % 2)) <|>
    (entryAt 0x1000 8 128 a).map fun n => .gstat (n / 2) (n % 2)

def fabWord (p a : Nat) : Option Wd :=
  if a = 0x40 then some (.fabMode p) else if a = 0x48 then some (.fabLink p) else if a = 0x50 then some (.ipHi p)
  else if a = 0x58 then some (.ipLo p) else if a = 0x60 then some (.mac p)
  else blkWord (.fab (fin8 p)) a <|> (entryAt 0x68 8 2 a).map (.hop p)

def mchWord (s a : Nat) : Option Wd := (entryAt 0x100 8 2 a).map (.ecc s)

def casWord (s a : Nat) : Option Wd :=
  if a = 0x40 then some (.alarm s) else if a = 0x48 then some (.casInit s) else if a = 0x50 then some (.errCount s)
  else if a = 0x58 then some (.errLast s) else blkWord (.cas (fin8 s)) a

def seqWord (o a : Nat) : Option Wd :=
  if a = 0x40 then some (.planBase o) else if a = 0x48 then some (.inflight o) else if a = 0x180 then some (.mgmtGo o)
  else if a = 0x188 then some (.mgmtResult o) else if a = 0x400 then some (.version o)
  else blkWord (.seq (fin8 o)) a <|> (entryAt 0x100 8 16 a).map (.mgmtCmd o) <|> (entryAt 0x200 8 16 a).map (.ctx o) <|>
    (entryAt 0x440 8 8 a).map (.vgen o) <|> (entryAt 0x1000 0x40 32 a).map (.qConfig o) <|>
    (entryAt 0x1008 0x40 32 a).map (.bells o) <|> (entryAt 0x1010 0x40 32 a).map (.qStatus o)

def hudWord (o a : Nat) : Option Wd := (entryAt 0x1000 8 4096 a).map fun n => .obj o (n / 2) (n % 2)

def rleWord (o a : Nat) : Option Wd :=
  if a = 0x40 then some (.rleDeadline o) else if a = 0x48 then some (.stale o) else blkWord (.rle (fin8 o)) a

def cluWord (o c a : Nat) : Option Wd :=
  if a = 0x40 then some (.skipLimit o c) else if a = 0x48 then some (.skipSel o c)
  else if a = 0x50 then some (.skipCount o c)
  else blkWord (.clu (fin8 o) (fin9 c)) a <|> (entryAt 0x100 8 32 a).map fun n => .skipLog o c (n / 2) (n % 2)

/-- The base of the block in which an offset of BAR0 lies (R417). -/
def blockBase (a : Nat) : Nat :=
  if a < 0x110000 then a / 0x10000 * 0x10000
  else if a < 0x200000 then a / 0x1000 * 0x1000
  else if a < 0x400000 then a / 0x10000 * 0x10000
  else
    let r := a % 0x100000
    if r < 0x20000 then a - r else if r < 0x40000 then a - r + 0x20000 else if r < 0x80000 then a - r + 0x40000
    else a / 0x1000 * 0x1000

/-- The word at an offset of BAR0 that is a multiple of 8, where a register occupies it (R417). -/
def wordAt (a : Nat) : Option Wd :=
  let r := a % 0x10000
  if a < 0x110000 then
    match a / 0x10000 with
    | 0 => glbWord r | 1 => tckWord r | 2 => pwrWord r | 3 => lcsWord r | 4 => ptrWord r | 5 => silWord r | 6 => umpWord r
    | 7 => shtWord r | 8 => pciWord r | 9 => trsWord r | 10 => lblWord r | 11 => dbgWord r | 16 => rlyWord r
    | _ => none
  else if a < 0x118000 then fabWord ((a - 0x110000) / 0x1000) (a % 0x1000)
  else if a < 0x200000 then none
  else if a < 0x300000 then
    let s := (a - 0x200000) / 0x20000
    if a / 0x10000 % 2 = 0 then mchWord s r else casWord s r
  else if a < 0x400000 then none
  else if a < 0xC00000 then
    let o := (a - 0x400000) / 0x100000
    let r := a % 0x100000
    if r < 0x20000 then seqWord o r else if r < 0x40000 then hudWord o (r - 0x20000)
    else if r < 0x80000 then rleWord o (r - 0x40000)
    else if r < 0x89000 then cluWord o ((r - 0x80000) / 0x1000) (r % 0x1000) else none
  else none

/-! ## The fields of each word -/

/-- Fields of one class, given as (lowest bit, width). -/
def flds (c : Cls) (l : List (Nat × Nat)) : List Fld := l.map fun e => { lo := e.1, width := e.2, cls := c }

def ro : List (Nat × Nat) → List Fld := flds .ro
def rw_ : List (Nat × Nat) → List Fld := flds .rw

def bytes8 : List (Nat × Nat) := (List.range 8).map fun i => (8 * i, 8)

/-- The fields of a fault record's words (R354). -/
def recFields (j : Nat) : List Fld :=
  match j with
  | 0 => ro [(0, 32), (32, 8), (40, 8), (48, 8), (56, 8)]
  | 1 => ro [(0, 64)]
  | 2 => ro bytes8
  | 3 => ro [(0, 32), (32, 16), (48, 16)]
  | 4 => ro [(0, 32), (32, 32)]
  | _ => ro [(0, 64)]

def winFields (i : Nat) : List Fld :=
  match i with
  | 0 => flds .rwl [(12, 52)]
  | 1 => flds .rwl [(6, 58)]
  | 2 => flds .rwl [(0, 17), (17, 1), (18, 1), (19, 4), (23, 1), (24, 16), (40, 8)] ++ rw_ [(48, 1)]
  | 3 => ro [(0, 64)]
  | _ => flds .wo [(0, 1)] ++ ro [(1, 1), (32, 32)]

/-- The fields of a word that are not reserved, from bit 0 upward: a field's place in the list is its position (R423). -/
def fieldsOf : Wd → List Fld
  | .glbId => ro [(0, 4), (4, 1), (5, 1), (16, 16)]
  | .glbStatus => ro [(0, 8), (8, 16)]
  | .glbMode => ro [(0, 2), (2, 1), (3, 1)] ++ flds .wo [(4, 2), (6, 1)] ++ ro [(8, 8)]
  | .glbDrop => ro [(0, 26), (26, 1), (32, 32)]
  | .glbReady => ro [(0, 1), (1, 1), (2, 1), (8, 8), (16, 8), (24, 8), (32, 8), (40, 8), (48, 8), (56, 8)]
  | .glbConfig _ => ro [(0, 9)]
  | .tckCount => ro [(0, 64)]
  | .tckPeriod => flds .rwt [(0, 7)]
  | .tckHold => ro [(0, 4), (4, 1), (16, 16)]
  | .ctrl b => flds (if enableRo b then .ro else .rw) [(0, 1)] ++ rw_ [(1, 1)]
  | .status .rly => ro [(0, 8), (8, 16)] ++ flds .w1c [(24, 1)]
  | .status .pwr => ro [(0, 8), (8, 16), (24, 1), (25, 1)] ++ flds .w1c [(26, 1)]
  | .status _ => ro [(0, 8), (8, 16)]
  | .pwrRail _ => ro [(0, 16), (16, 16), (32, 16)]
  | .lvrCtrl => rw_ [(0, 1)]
  | .view _ => ro [(0, 8), (8, 8), (16, 1), (17, 1), (32, 32)]
  | .sensors _ => ro [(0, 12), (12, 1), (13, 1), (32, 12), (44, 1), (45, 1)]
  | .est => ro [(0, 16), (16, 16), (32, 2), (34, 30)]
  | .lcsStatus => ro [(0, 8), (8, 16), (24, 1)]
  | .lcsState => ro [(0, 3), (3, 8), (11, 1), (12, 1), (13, 6)]
  | .lcsAdvance => flds .wo [(0, 3)]
  | .ptrGo => flds .wo [(0, 1)]
  | .ptrStatus => ro [(0, 1), (8, 8), (16, 16)]
  | .ptrBuf _ => rw_ [(0, 64)]
  | .silStatus => ro [(0, 8), (8, 16)]
  | .silBoot => ro [(0, 1), (1, 1), (2, 1), (3, 1), (4, 1), (5, 1), (6, 1), (7, 1), (8, 8)]
  | .overrun => flds .rwt [(0, 4)]
  | .ring => ro [(0, 16)] ++ rw_ [(16, 16)] ++ ro [(32, 32)]
  | .resetReq => flds .wo [(0, 3), (3, 3), (6, 4), (10, 4), (14, 6), (20, 3)]
  | .resetStatus => ro [(0, 8), (8, 8), (16, 16)]
  | .dumpCtrl => rw_ [(0, 1), (1, 1)] ++ flds .wo [(2, 1), (3, 1), (4, 1)] ++ rw_ [(8, 8)]
  | .dumpWin 0 => rw_ [(12, 52)]
  | .dumpWin 1 => rw_ [(6, 58)]
  | .dumpWin _ => rw_ [(0, 20), (20, 8)]
  | .dumpStatus => ro [(0, 2), (2, 8), (10, 1), (11, 16), (32, 32)]
  | .rec_ _ j => recFields j
  | .shtPart _ => flds .rwl [(0, 8), (8, 8), (16, 7)] ++ rw_ [(23, 1), (24, 1)]
  | .shtOct _ => ro [(0, 2), (2, 1), (3, 3), (8, 8), (16, 32)]
  | .pciLink => ro [(0, 3), (3, 5), (8, 1), (9, 1), (16, 16)]
  | .qvec _ => rw_ [(0, 8), (8, 1), (32, 8), (40, 1)]
  | .slot _ => flds .rwt [(0, 17), (32, 17), (63, 1)]
  | .win _ _ i => winFields i
  | .lblPart _ => ro [(0, 2), (2, 5), (7, 5), (16, 16), (32, 16)]
  | .poolCfg _ => flds .rwl [(0, 3), (3, 4), (8, 6), (14, 4), (18, 3)] ++ rw_ [(21, 1)]
  | .poolStat _ => ro [(0, 2), (2, 1), (3, 1), (16, 16), (32, 16)]
  | .dbgSel => rw_ [(0, 3), (3, 4), (7, 6), (13, 1)]
  | .dbgHalt => rw_ [(0, 1)] ++ flds .wo [(1, 1)] ++ ro [(2, 1)]
  | .dbgState _ => rw_ [(0, 64)]
  | .udp => flds .rwl [(0, 16)]
  | .rlyDeadline _ => rw_ [(0, 8)]
  | .gbase => rw_ [(6, 34)]
  | .gcmd => flds .wo [(0, 2), (2, 3), (16, 16)]
  | .gresult => ro [(0, 8), (8, 1)]
  | .rlyDrop _ 0 => ro [(0, 32), (32, 32)]
  | .rlyDrop _ _ => ro [(0, 32), (32, 16), (48, 16)]
  | .gstat _ 0 => ro [(0, 16), (16, 1), (17, 2), (19, 8), (27, 16), (43, 1), (44, 12), (56, 8)]
  | .gstat _ _ => ro [(0, 32), (32, 24)]
  | .fabMode _ => flds .rwl [(0, 1), (1, 2), (3, 1), (4, 12), (16, 3), (19, 6)]
  | .fabLink _ => ro [(0, 1), (1, 1), (2, 1), (16, 16)]
  | .ipHi _ => flds .rwl [(0, 64)]
  | .ipLo _ => flds .rwl [(0, 64)]
  | .mac _ => flds .rwl [(0, 48)]
  | .hop _ _ => flds .rwl [(0, 48)]
  | .ecc _ 0 => ro [(0, 32), (32, 16), (48, 16)]
  | .ecc _ _ => ro [(0, 34), (34, 2), (36, 28)]
  | .alarm _ => flds .rwl [(0, 14)]
  | .casInit _ => ro [(0, 16), (16, 1)]
  | .errCount _ => ro [(0, 16), (16, 16), (32, 16), (48, 16)]
  | .errLast _ => ro [(0, 34), (34, 4), (38, 26)]
  | .planBase _ => flds .rwt [(6, 34)]
  | .inflight _ => ro [(0, 10), (10, 10)]
  | .mgmtCmd _ _ => flds .wo [(0, 64)]
  | .mgmtGo _ => flds .wo [(0, 1)]
  | .mgmtResult _ => ro [(0, 8), (8, 1)]
  | .ctx _ _ => ro [(0, 2), (2, 8), (16, 32)]
  | .version _ => ro [(0, 8), (8, 8), (16, 8), (32, 32)]
  | .vgen _ _ => ro [(0, 32)]
  | .qConfig _ _ => ro [(0, 1), (1, 4), (5, 1), (6, 4), (10, 4), (14, 7)]
  | .bells _ _ => rw_ [(0, 16), (32, 16)]
  | .qStatus _ _ => ro [(0, 16), (16, 16), (32, 7), (39, 2), (41, 8)]
  | .obj _ _ 0 => ro [(0, 32), (32, 1), (33, 1), (34, 8), (42, 4), (46, 1), (47, 3), (50, 5)]
  | .obj _ _ _ => ro [(0, 16), (16, 14), (30, 12)]
  | .rleDeadline _ => flds .rwt [(0, 11)]
  | .stale _ => ro [(0, 32), (32, 32)]
  | .skipLimit _ _ => flds .rwt [(0, 10)]
  | .skipSel _ _ => rw_ [(0, 6)] ++ flds .wo [(8, 1)]
  | .skipCount _ _ => ro [(0, 32), (32, 11), (43, 1), (44, 5)]
  | .skipLog _ _ _ 0 => ro [(0, 32), (32, 1), (33, 3), (36, 1), (40, 8), (48, 16)]
  | .skipLog _ _ _ _ => ro [(0, 64)]

/-- Whether the word holds one 64-bit register, a 32-bit one, or two 32-bit ones. The words of the PTR buffer, of the fault
records and of DBG_STATE, whose register width the spec does not state, are 64-bit registers, with R8's latch (DESIGN CHOICE,
log 91). -/
def shapeOf : Wd → Shape
  | .sensors _ => .pair
  | .qvec _ => .pair
  | .bells _ _ => .pair
  | .glbStatus => .low
  | .glbMode => .low
  | .tckPeriod => .low
  | .tckHold => .low
  | .ctrl _ => .low
  | .status _ => .low
  | .lvrCtrl => .low
  | .lcsStatus => .low
  | .lcsState => .low
  | .lcsAdvance => .low
  | .ptrGo => .low
  | .ptrStatus => .low
  | .silStatus => .low
  | .silBoot => .low
  | .overrun => .low
  | .resetReq => .low
  | .resetStatus => .low
  | .dumpCtrl => .low
  | .pciLink => .low
  | .dbgSel => .low
  | .dbgHalt => .low
  | .udp => .low
  | .rlyDeadline _ => .low
  | .gcmd => .low
  | .gresult => .low
  | .fabMode _ => .low
  | .fabLink _ => .low
  | .alarm _ => .low
  | .casInit _ => .low
  | .inflight _ => .low
  | .mgmtGo _ => .low
  | .mgmtResult _ => .low
  | .rleDeadline _ => .low
  | .skipLimit _ _ => .low
  | .skipSel _ _ => .low
  | _ => .whole

/-! ## What a view shows (R418) -/

/-- Whether a VF's alias shows an occupied word (17, block summaries; R315, R316). -/
def shownTo (d : Dev) (v : Fin 8) (w : Wd) : Bool :=
  let own (o : Nat) : Bool := octVf d o == some v.val
  match w with
  | .glbConfig o => own o
  | .glbId => true
  | .glbStatus => true
  | .glbMode => true
  | .glbDrop => true
  | .glbReady => true
  | .tckCount => true
  | .tckPeriod => true
  | .tckHold => true
  | .ctrl b => ctrlShown d (.vf v) b
  | .status .rly => true
  | .status b => ctrlShown d (.vf v) b
  | .pwrRail _ => d.pwr.fine
  | .sensors _ => d.pwr.fine
  | .view u => u == v.val
  | .ring => true
  | .rec_ i _ => i < 64
  | .resetReq => true
  | .resetStatus => true
  | .shtOct o => own o
  | .pciLink => true
  | .qvec n => own (n / 16)
  | .slot u => u == v.val
  | .win u _ i => u == v.val && 2 ≤ i
  | .lblPart u => u == v.val
  | .poolStat n => n / 8 == v.val
  | .rlyDeadline u => u == v.val
  | .rlyDrop p _ => own p
  | .gstat n _ => own (n / 8)
  | .fabMode p => own p
  | .fabLink p => own p
  | .ipHi p => own p
  | .ipLo p => own p
  | .mac p => own p
  | .hop p _ => own p
  | .ecc s _ => own s
  | .alarm s => own s
  | .casInit s => own s
  | .errCount s => own s
  | .errLast s => own s
  | .planBase o => own o
  | .inflight o => own o
  | .ctx o _ => own o
  | .version o => own o
  | .vgen o _ => own o
  | .qConfig o _ => own o
  | .bells o _ => own o
  | .qStatus o _ => own o
  | .obj o _ _ => own o
  | .rleDeadline o => own o
  | .stale o => own o
  | .skipLimit o _ => own o
  | .skipSel o _ => own o
  | .skipCount o _ => own o
  | .skipLog o _ _ _ => own o
  | _ => false

/-- The whole block at an offset is hidden from a VF, or is of an octant, stack or port that its partition does not own. -/
def hiddenBlock (d : Dev) (v : Fin 8) (a : Nat) : Bool :=
  let own (o : Nat) : Bool := octVf d o == some v.val
  if a < 0x110000 then [3, 4, 5, 11].contains (a / 0x10000)
  else if a < 0x118000 then !own ((a - 0x110000) / 0x1000)
  else if a < 0x200000 then false
  else if a < 0x300000 then !own ((a - 0x200000) / 0x20000)
  else if a < 0x400000 then false
  else if a < 0xC00000 then !own ((a - 0x400000) / 0x100000)
  else false

/-- What a function meets at a word of BAR0. -/
inductive Sight where
  | shown (w : Wd) | notOwner | vacant
  deriving DecidableEq, Repr

/-- The CLU block of the cluster that the -64 grade fuses off (R2). -/
def fusedBlock (d : Dev) (a : Nat) : Bool :=
  d.fuse.grade64 && 0x400000 ≤ a && a < 0xC00000 && (a - 0x400000) % 0x100000 / 0x1000 == 0x88

/-- The word of this device at an offset: none in a block that its grade fuses off, which reads as zero. -/
def wordHere (d : Dev) (a : Nat) : Option Wd := if fusedBlock d a then none else wordAt a

/-- The view of a function: an unoccupied offset of a block that it owns is vacant (R417, R418). -/
def sight (d : Dev) (f : Fn) (a : Nat) : Sight :=
  match f with
  | .pf => match wordHere d a with
    | some w => .shown w
    | none => .vacant
  | .vf v =>
    if a < 0x10000 ∨ (getPart d v).live then
      match wordHere d a with
      | some (.rec_ i j) => if i < 64 then .shown (.rec_ i j) else .vacant
      | some w => if shownTo d v w then .shown w else .notOwner
      | none => if hiddenBlock d v a then .notOwner else .vacant
    else .notOwner

/-! ## Identifiers of fields (R423) -/

/-- An access's bits of a word: n bytes from byte b. -/
def maskOf (b n : Nat) : Nat := (2 ^ (8 * n) - 1) * 2 ^ (8 * b) % 2 ^ 64

/-- A mask meets a field. -/
def meets (m : Nat) (x : Fld) : Bool := bits m x.lo x.width != 0

/-- The fields of a word with their positions. -/
def placed (w : Wd) : List (Nat × Fld) := (fieldsOf w).mapIdx fun i x => (i, x)

/-- The identifier of a word's field: DETAIL of a record begins in its fifth word. -/
def wordField (a : Nat) (w : Wd) (pos : Nat) : Nat :=
  match w with
  | .rec_ i j => if 5 ≤ j then fieldIdOf (0x8000 + 64 * i + 32) 1 else fieldIdOf (a - blockBase a) pos
  | _ => fieldIdOf (a - blockBase a) pos

/-- The first field that bytes of a word touch. -/
def touchedIn (a b n : Nat) : Option Nat :=
  match wordAt a with
  | none => none
  | some w => ((placed w).find? fun e => meets (maskOf b n) e.2).map fun e => wordField a w e.1

/-- The first field that an access of n bytes at an offset touches, in the words it reaches into (R424). -/
def touchedAt (off n : Nat) : Option Nat :=
  let a := off / 8 * 8
  let b := off % 8
  match touchedIn a b n with
  | some x => some x
  | none => match touchedIn (a + 8) 0 (b + n - 8) with
    | some x => some x
    | none => touchedIn (a + 16) 0 (b + n - 16)

/-- A dropped access, logged with the first field it touched; where it touched none the identifier is a free value. -/
def dropAccess (f : Fn) (r : Reason) (off n : Nat) (write : Bool) (d : Dev) : Dev :=
  match touchedAt off n with
  | some x => dropLog f r x off write d
  | none => dropLog f r (Config.freeNat d.free % 65536) off write { d with free := d.free + 1 }

/-- Bytes that a function's BAR0 spans (R417, R418). -/
def barSpan : Fn → Nat
  | .pf => 2 ^ 26
  | .vf _ => 2 ^ 24

/-- An access that R7 allows: 32 or 64 bits, naturally aligned. -/
def accessOk (off n : Nat) : Bool := (n == 4 || n == 8) && off % n == 0

end Sys2Proof.Machine
end

