-- ==== Sys2Proof/Machine/RegRead.lean ====
section
/-!
DEFINITION. Reads of BAR0 (00, 17): the value of every word as a function sees it, the latch of R8, and REGISTER_READ.
-/
namespace Sys2Proof.Machine

/-! ## Values -/

/-- A value placed at a field of a word. -/
def fld (lo width v : Nat) : Nat := v % 2 ^ width * 2 ^ lo

/-- A flag placed at a bit. -/
def flg (i : Nat) (b : Bool) : Nat := b2n b * 2 ^ i

/-- The octants, stacks and ports whose READY bits a function sees (17, GLB_READY). -/
def seenOctants (d : Dev) (f : Fn) : BitVec 8 :=
  match f with
  | .pf => 0xFF
  | .vf v => if (getPart d v).live then (getPart d v).octants else 0

def isPf : Fn → Bool
  | .pf => true
  | .vf _ => false

/-- GLB_READY (R375). -/
def readyValue (d : Dev) (f : Fn) : Nat :=
  let m := seenOctants d f
  let p := d.pkg
  flg 0 (isPf f && p.config) + flg 1 (isPf f && p.mailbox) + flg 2 (isPf f && allReady d) +
  fld 8 8 (p.stackReady &&& m).toNat + fld 16 8 (p.octReady &&& m).toNat + fld 24 8 (p.portReady &&& m).toNat +
  fld 32 8 p.warmResets + fld 40 8 (p.stackFailed &&& m).toNat + fld 48 8 (p.octFailed &&& m).toNat +
  fld 56 8 (p.portFailed &&& m).toNat

/-- GLB_MODE (R421). -/
def modeValue (d : Dev) : Nat :=
  fld 0 2 (modeCode d.pwr.mode) + flg 2 d.ptr.hostManaged + flg 3 d.pwr.switching + fld 8 8 (reasonCode d.pwr.reqReason)

/-- REASON and FIELD_ID as a STATUS register lays them out (R422). -/
def statusPair (r : Reason) (id : Nat) : Nat := fld 0 8 (reasonCode r) + fld 8 16 id

/-- RLY_STATUS.FALLBACK: any partition's in the PF, its own in a VF (R420). -/
def fallbackSeen (d : Dev) (f : Fn) : Bool :=
  match f with
  | .pf => d.rly.fallback != 0
  | .vf v => has8 d.rly.fallback v

/-- BLK_STATUS. -/
def statusValue (d : Dev) (f : Fn) (b : Block) : Nat :=
  let x := getBlk d (blkBase b)
  statusPair x.reason x.fieldId + match b with
    | .rly => flg 24 (fallbackSeen d f)
    | .pwr => flg 24 d.pwr.drift + flg 25 d.pwr.refLost + flg 26 d.pwr.railFault
    | _ => 0

/-- PWR_SENSOR of one sensor (R405). -/
def sensorValue (d : Dev) (n : Nat) : Nat :=
  match look none n d.pwr.sensors with
  | none => flg 13 (d.pwr.hotSensor == some n)
  | some t => fld 0 12 (unsigned 12 t) + flg 12 true + flg 13 (d.pwr.hotSensor == some n)

/-- PWR_TENANT_VIEW (R315). -/
def viewValue (d : Dev) (v : Nat) : Nat :=
  let (p, t, k) := look (0, 0, 0) v d.pwr.view
  fld 0 8 p + fld 8 8 t + flg 16 d.tck.heldLast + flg 17 (d.pwr.fine && partsLive d == [v]) + fld 32 32 k

/-- PWR_RAIL (R402). -/
def railValue (d : Dev) (r : Nat) : Nat :=
  let (p, i, u) := look (0, 0, 0) r d.pwr.rails
  fld 0 16 p + fld 16 16 i + fld 32 16 u

/-- LCS_STATE (R345). -/
def lcsValue (d : Dev) : Nat :=
  fld 0 3 (lcsState d.fuse) + fld 3 8 (lcsVote d.fuse).toNat + flg 11 d.fuse.opKey.isSome + flg 12 d.ptr.debugOpen +
  fld 13 6 d.fuse.svn

/-- SIL_BOOT. -/
def bootValue (d : Dev) : Nat :=
  let p := d.ptr
  flg 0 p.slot + flg 1 p.unsigned + flg 2 p.fallback + flg 3 (d.pkg.phase == .recovery) + flg 4 p.trial +
  flg 5 p.stg.staged + flg 6 p.stg.activated + flg 7 p.hostManaged + fld 8 8 (min 255 p.sealedBad)

/-- The record ring that a function sees, and its size (R356). -/
def ringOf (d : Dev) (f : Fn) : Ring :=
  match f with
  | .pf => d.ret.pfRing
  | .vf v => look Ring.zero v d.ump.vfRing

def ringValue (g : Ring) : Nat := fld 0 16 g.producer + fld 16 16 g.consumer + fld 32 32 g.lost

/-- UMP_RESET_STATUS: a bit for each level that runs (R433). -/
def resetValue (d : Dev) : Nat :=
  flg 0 (!d.ump.l0.isEmpty) + flg 1 (!d.ump.l1.isEmpty) + flg 2 (d.ump.l2 != 0) + flg 3 (d.pkg.phase == .l3) +
  flg 4 (d.pkg.phase == .l4) + fld 8 8 (reasonCode d.ump.reqReason) + fld 16 16 d.ump.escalations

def dumpStatusValue (u : Ump) : Nat :=
  fld 0 2 u.dumpState + fld 2 8 (reasonCode u.dumpReason) + flg 10 u.truncated + fld 11 16 u.skipped + fld 32 32 u.dumpNo

def partValue (p : Part) : Nat :=
  fld 0 8 p.octants.toNat + fld 8 8 p.kdBase + fld 16 7 p.kdCount + flg 23 p.zeroFill + flg 24 p.en

def shtValue (x : ShtOct) : Nat :=
  fld 0 2 (octCode x.state) + flg 2 x.owned + fld 3 3 (if x.owned then x.vf else 0) + fld 8 8 (reasonCode x.reason) +
  fld 16 32 x.doneTick

/-- PCI_LINK: FLIT mode is that of 64 and 128 GT/s (R382). -/
def linkValue (p : Pkg) : Nat :=
  fld 0 3 p.speed + fld 3 5 p.width + flg 8 (6 ≤ p.speed) + flg 9 p.dlUp + fld 16 16 p.retrains

/-- A PCI_QVEC entry. -/
def qvecValue (d : Dev) (n : Nat) : Nat :=
  let (v, en) := look (0, false) n d.pkg.qvec
  fld 0 8 v + flg 8 en

/-- A count as a function sees it: the PF the total, a VF what came since its octant joined, `base` being the counts then
(R311, log 88). -/
def sinceJoin (f : Fn) (base : List Nat) (i total : Nat) : Nat :=
  match f with
  | .pf => total
  | .vf _ => total - base.getD i 0

/-- A count modulo 65,536, as a function sees it (R311). -/
def sinceJoin16 (f : Fn) (base : List Nat) (i total : Nat) : Nat :=
  match f with
  | .pf => total
  | .vf _ => (total + 65536 - base.getD i 0) % 65536

/-- What came last, as a function sees it: a VF nothing until something came since its octant joined (R317, log 88). -/
def lastSince (f : Fn) (fresh : Bool) (x : Nat) : Nat :=
  match f with
  | .pf => x
  | .vf _ => if fresh then x else 0

def winValue (f : Fn) (x : Win) (i : Nat) : Nat :=
  match i with
  | 0 => fld 12 52 x.dataBase
  | 1 => fld 6 58 x.recordBase
  | 2 => fld 0 17 x.size + flg 17 x.ring + flg 18 x.hostWritten + fld 19 4 x.party + flg 23 x.partyValid +
    fld 24 16 x.admitMask.toNat + fld 40 8 x.session + flg 48 x.en
  | 3 => fld 0 64 x.epoch
  | _ => flg 1 x.rearm + fld 32 32 (sinceJoin f [x.authBase] 0 x.authFail)

def lblValue (d : Dev) (v : Nat) : Nat :=
  let c := getCharter d v
  fld 0 2 (charterCode c.state) + fld 2 5 c.n + fld 7 5 c.k + fld 16 16 c.approved.toNat + fld 32 16 (onDieAdmit d v).toNat

def poolCfgValue (p : Pool) : Nat :=
  fld 0 3 p.octant + fld 3 4 p.cluster + fld 8 6 p.page + fld 14 4 p.count + fld 18 3 p.vf + flg 21 p.en

def poolStatValue (p : Pool) : Nat :=
  fld 0 2 (poolCode p.state) + flg 2 p.unmet + flg 3 p.nonfinite + fld 16 16 p.parties.toNat + fld 32 16 p.contrib

/-- RLY_GSTAT: a slot is live while it holds a group that has not failed. -/
def gstatValue (g : Group) (i : Nat) : Nat :=
  let fail := g.failed.getD (.ok, 0)
  match i with
  | 0 => fld 0 16 g.id + flg 16 g.loaded + fld 17 2 (if !g.loaded then 0 else if g.failed.isSome then 2 else 1) +
    fld 19 8 (reasonCode fail.1) + fld 27 16 fail.2 + flg 43 g.lease.isSome +
    fld 44 12 (match g.lease with | some l => l.slots | none => 0) + fld 56 8 (reasonCode g.leaseReason)
  | _ => fld 0 32 g.lastSeq + fld 32 24 (unsigned 24 g.offset)

def dropValue (f : Fn) (p : Port) (i : Nat) : Nat :=
  let n (i total : Nat) : Nat := sinceJoin f p.baseCounts i total
  match i with
  | 0 => fld 0 32 (n 0 p.dropAuth) + fld 32 32 (n 1 p.dropReplay)
  | _ => fld 0 32 (n 2 p.dropStale) + fld 32 16 (n 3 p.dropUnknown) + fld 48 16 (n 4 p.dropBad)

def fabValue (p : Port) : Nat :=
  flg 0 p.rally + fld 1 2 p.pmd + flg 3 p.tagEn + fld 4 12 p.vid + fld 16 3 p.pcp + fld 19 6 p.dscp

def fabLinkValue (f : Fn) (p : Port) : Nat :=
  flg 0 p.half0 + flg 1 p.half1 + flg 2 p.up + fld 16 16 (sinceJoin16 f p.baseCounts 5 p.downs)

def eccValue (f : Fn) (x : Stack) (i : Nat) : Nat :=
  match i with
  | 0 => fld 0 32 (sinceJoin f x.baseCounts 0 x.corrected) + fld 32 16 (sinceJoin f x.baseCounts 1 x.uncorrectable) +
    fld 48 16 (sinceJoin16 f x.baseCounts 2 x.patrolPasses)
  | _ => lastSince f x.eccNew (fld 0 34 x.eccLine + fld 34 2 x.eccSource + fld 36 28 x.eccTick)

def errCountValue (f : Fn) (x : Stack) : Nat :=
  fld 0 16 (sinceJoin f x.baseCounts 3 x.tagFail) + fld 16 16 (sinceJoin f x.baseCounts 4 x.treeRepaired) +
  fld 32 16 (sinceJoin f x.baseCounts 5 x.taglineLost) + fld 48 16 (sinceJoin f x.baseCounts 6 x.bumps)

def errLastValue (f : Fn) (x : Stack) : Nat :=
  lastSince f x.errNew (fld 0 34 x.errLine + fld 34 4 x.errKind + fld 38 26 x.errTick)

/-- Queues bound to a context, as a set of bits. -/
def boundTo (d : Dev) (o c : Nat) : Nat :=
  (List.range 32).foldl (fun n q => n + flg q ((getQueue d o q).bound && (getQueue d o q).ctx == c)) 0

def ctxValue (d : Dev) (o c : Nat) : Nat :=
  let x := getCtx d o c
  fld 0 2 (ctxCode x.state) + fld 2 8 (reasonCode x.lastReason) + fld 16 32 (boundTo d o c)

/-- SEQ_VERSION (R146 to R149). -/
def versionValue (s : Seq) : Nat :=
  fld 0 8 s.active.toNat + fld 8 8 s.voted.toNat + fld 16 8 s.pendFlip.toNat + fld 32 32 s.flips.toNat

def qConfigValue (x : Queue) : Nat :=
  flg 0 x.bound + fld 1 4 x.ctx + flg 5 x.transom + fld 6 4 x.n + fld 10 4 x.m + fld 14 7 x.inFlightMax

/-- SEQ_Q_STATUS.STATE: 0 unbound, 1 active, 2 stopped by its context, 3 stopped with an error. -/
def queueState (d : Dev) (o q : Nat) : Nat :=
  let x := getQueue d o q
  if !x.bound then 0 else if x.stopped.isSome then 3 else if queueActive d o q then 1 else 2

def qStatusValue (d : Dev) (o q : Nat) : Nat :=
  let x := getQueue d o q
  fld 0 16 x.fetch + fld 16 16 x.cplProducer + fld 32 7 (queueCmds d o q).length + fld 39 2 (queueState d o q) +
  fld 41 8 (reasonCode (x.stopped.getD .ok))

/-- Accepted commands that name an object. -/
def refsOf (d : Dev) (o n : Nat) : Nat :=
  (d.cmds.filter fun c => (waitEn c.raw && waitObj c.raw == 2048 * o + n) || (sigEn c.raw && sigObj c.raw == 2048 * o + n)).length

def objValue (d : Dev) (o n i : Nat) : Nat :=
  let x := getObj d o n
  match i with
  | 0 => fld 0 32 x.value.toNat + flg 32 x.configured + flg 33 x.error + fld 34 8 (reasonCode x.errReason) +
    fld 42 4 x.owner + flg 46 x.producer.isSome + fld 47 3 (x.producer.getD (0, 0)).1 + fld 50 5 (x.producer.getD (0, 0)).2
  | _ => fld 0 16 x.deadline + fld 16 14 ((cmdWaits d o n).length + (streamWaits d o n).length) + fld 30 12 (refsOf d o n)

def skipCountValue (x : Core) : Nat :=
  fld 0 32 x.skips + fld 32 11 x.skipsTick + flg 43 x.overflow + fld 44 5 x.log.length

def skipLogValue (x : Core) (n i : Nat) : Nat :=
  match x.log[n]? with
  | none => 0
  | some e => match i with
    | 0 => fld 0 32 e.pc + fld 32 1 e.stream + fld 33 3 e.slot + flg 36 true + fld 40 8 (reasonCode e.reason) + fld 48 16 e.tick
    | _ => fld 0 64 e.syllable.toNat

/-- The core that CLU_SKIP_SEL selects. -/
def selCore (d : Dev) (o c : Nat) : Core := getCore d (coreNo o c (getClu d o c).sel)

/-- The RWT register that a word is, and what its field's value is multiplied by in the word. -/
def rwtOf (d : Dev) (w : Wd) : Option (Rwt × Nat) :=
  match w with
  | .tckPeriod => some (d.tck.units, 1)
  | .overrun => some (d.ump.limit, 1)
  | .slot v => some (getSlot d v, 1)
  | .planBase o => some ((getSeq d o).planBase, 64)
  | .rleDeadline o => some ((getRle d o).deadline, 1)
  | .skipLimit o c => some ((getClu d o c).limit, 1)
  | _ => none

/-- What stands in a word as a function sees it; RWT fields show their live value and WO fields 0 (R45). -/
def wordRaw (d : Dev) (f : Fn) (w : Wd) : Nat :=
  let log := look FnLog.zero (fnIx f) d.pkg.fnLog
  match w with
  | .glbId => fld 0 4 d.fuse.stepping + flg 4 d.fuse.grade64 + flg 5 d.fuse.airLid + fld 16 16 d.fuse.order
  | .glbStatus => statusPair log.reason log.fieldId
  | .glbMode => modeValue d
  | .glbDrop => fld 0 26 log.offset + flg 26 log.write + fld 32 32 log.count
  | .glbReady => readyValue d f
  | .glbConfig _ => if d.fuse.grade64 then 0x0FF else 0x1FF
  | .tckCount => fld 0 64 d.tck.count
  | .tckHold => if isPf f then fld 0 4 d.tck.hold + flg 4 d.tck.heldLast + fld 16 16 d.tck.heldCount
    else flg 4 d.tck.heldLast
  | .ctrl b => flg 0 (getBlk d (blkBase b)).enable + flg 1 (getBlk d (blkBase b)).apply
  | .status b => statusValue d f b
  | .pwrRail r => railValue d r
  | .lvrCtrl => flg 0 d.pwr.fine
  | .view v => viewValue d v
  | .sensors n => sensorValue d (2 * n) + 2 ^ 32 * sensorValue d (2 * n + 1)
  | .est => fld 0 16 d.pwr.static + fld 16 16 (unsigned 16 d.pwr.diff) + fld 32 2 d.pwr.driftCount + fld 34 30 d.pwr.calTick
  | .lcsStatus => statusPair d.ptr.lcsReason 0 + flg 24 d.ptr.erased
  | .lcsState => lcsValue d
  | .ptrStatus => flg 0 d.ptr.busy + fld 8 8 (reasonCode d.ptr.mboxReason) + fld 16 16 d.ptr.seqLo
  | .ptrBuf i => leNat (readBytes d.ptr.buf (8 * i) 8)
  | .silStatus => statusPair d.ptr.silReason d.ptr.silField
  | .silBoot => bootValue d
  | .ring => ringValue (ringOf d f)
  | .rec_ i j => field (ringBytes (ringOf d f) i) (8 * j) 8
  | .resetStatus => resetValue d
  | .dumpCtrl => flg 0 d.ump.auto + flg 1 d.ump.overwrite + fld 8 8 d.ump.dumpOcts.toNat
  | .dumpWin i => (if i = 0 then d.ump.win0 else if i = 1 then d.ump.win1 else d.ump.win2).toNat
  | .dumpStatus => dumpStatusValue d.ump
  | .shtPart v => partValue (getPart d v)
  | .shtOct o => shtValue (getSht d o)
  | .pciLink => linkValue d.pkg
  | .qvec n => qvecValue d (2 * n) + 2 ^ 32 * qvecValue d (2 * n + 1)
  | .win v w i => winValue f (getWin d v w) i
  | .lblPart v => lblValue d v
  | .poolCfg n => poolCfgValue (getPool d n)
  | .poolStat n => poolStatValue (getPool d n)
  | .dbgSel => fld 0 14 d.dbgSel
  | .dbgHalt => flg 0 (dbgHalted d) + flg 2 (dbgHalted d)
  | .dbgState i => leNat (dbgBytes d (8 * i) 8)
  | .udp => fld 0 16 d.rly.udpPort
  | .rlyDeadline v => fld 0 8 (look 4 v d.rly.deadline)
  | .gbase => fld 6 34 d.rly.gbase
  | .gresult => fld 0 8 (reasonCode d.rly.gresult)
  | .rlyDrop p i => dropValue f (getPort d p) i
  | .gstat n i => gstatValue (getGroup d n) i
  | .fabMode p => fabValue (getPort d p)
  | .fabLink p => fabLinkValue f (getPort d p)
  | .ipHi p => (getPort d p).ipHi.toNat
  | .ipLo p => (getPort d p).ipLo.toNat
  | .mac p => fld 0 48 (getPort d p).mac
  | .hop p h => fld 0 48 (if h = 0 then (getPort d p).hop0 else (getPort d p).hop1)
  | .ecc s i => eccValue f (getStack d s) i
  | .alarm s => fld 0 14 (getStack d s).alarmMs
  | .casInit s => fld 0 16 (initPendingCount d s) + flg 16 (getStack d s).rootValid
  | .errCount s => errCountValue f (getStack d s)
  | .errLast s => errLastValue f (getStack d s)
  | .inflight o => fld 0 10 (d.cmds.filter fun c => c.oct == o).length + fld 10 10 (committed d o)
  | .mgmtResult o => fld 0 8 (reasonCode (getSeq d o).mgmtReason) + flg 8 ((getSeq d o).mgmt != .none)
  | .ctx o c => ctxValue d o c
  | .version o => versionValue (getSeq d o)
  | .vgen o v => (look 0 v (getSeq d o).gen).toNat
  | .qConfig o q => qConfigValue (getQueue d o q)
  | .bells o q => fld 0 16 (getQueue d o q).producer + fld 32 16 (getQueue d o q).consumer
  | .qStatus o q => qStatusValue d o q
  | .obj o n i => objValue d o n i
  | .stale o => fld 0 32 (sinceJoin f (getRle d o).baseCounts 0 (getRle d o).stale0) +
      fld 32 32 (sinceJoin f (getRle d o).baseCounts 1 (getRle d o).stale1)
  | .skipSel o c => fld 0 6 (getClu d o c).sel
  | .skipCount o c => skipCountValue (selCore d o c)
  | .skipLog o c n i => skipLogValue (selCore d o c) n i
  | _ => match rwtOf d w with
    | some (r, k) => r.live * k
    | none => 0

/-- The bits of a word that its fields cover. -/
def fieldMask (w : Wd) : Nat := (fieldsOf w).foldl (fun m x => m ||| (2 ^ x.width - 1) * 2 ^ x.lo) 0

/-- The value of a word as a function reads it: reserved bits read 0 (R9). -/
def wordValue (d : Dev) (f : Fn) (w : Wd) : Nat := wordRaw d f w &&& fieldMask w

/-! ## Reads (R7, R8, R417, R418, R424) -/

/-- What a read returns. -/
def answer (f : Fn) (v : Nat) (d : Dev) : Dev := emit (.readData (fnIx f) (BitVec.ofNat 64 v)) d

/-- A read that is dropped returns zero and is logged. -/
def readDropped (f : Fn) (r : Reason) (off n : Nat) (d : Dev) : Dev := answer f 0 (dropAccess f r off n false d)

/-- Key of the latch of a register's high half (R8, R420). -/
def latchKey (f : Fn) (off : Nat) : Nat := 2 ^ 26 * fnIx f + off

def setLatch (f : Fn) (off : Nat) (x : Option Word) (d : Dev) : Dev :=
  { d with pkg := { d.pkg with latch := put none (latchKey f off) x d.pkg.latch } }

/-- A word read: whole, or by halves, of which the low one latches the high one of a 64-bit register (R8). -/
def readWord (f : Fn) (w : Wd) (off n : Nat) (d : Dev) : Dev :=
  let x := wordValue d f w
  if n = 8 then answer f x d
  else if off % 8 = 0 then
    answer f (x % 2 ^ 32)
      (if shapeOf w = .whole then setLatch f (off + 4) (some (BitVec.ofNat 32 (x / 2 ^ 32))) d else d)
  else match look none (latchKey f off) d.pkg.latch with
    | some h => if shapeOf w = .whole then answer f h.toNat (setLatch f off none d) else answer f (x / 2 ^ 32) d
    | none => answer f (x / 2 ^ 32) d

/-- The high half of a word that holds a 32-bit register alone is not occupied (R417). -/
def vacantHalf (w : Wd) (off : Nat) : Bool := shapeOf w == .low && off % 8 == 4

/-- DBG_STATE answers only while the selected stream is halted (R425, log 42). -/
def stateClosed (d : Dev) (w : Wd) : Bool :=
  match w with
  | .dbgState _ => !dbgHalted d
  | _ => false

/-- An access of the PF to the debug block sets DEBUG.USED, and a closed block answers none (R333, R425). -/
def dbgGate (f : Fn) (off : Nat) (closed g : Dev → Dev) (d : Dev) : Dev :=
  if f = .pf ∧ off / 0x10000 = 11 then
    let d := tracked debugUsed d
    if d.ptr.debugOpen then g d else closed d
  else g d

/-- A read of BAR0. -/
def regRead (f : Fn) (off n : Nat) (d : Dev) : Dev :=
  if bar2Base ≤ off then msixRead f (off - bar2Base) n d
  else if barSpan f ≤ off then d
  else dbgGate f off (readDropped f .lifecycleDenied off n) (fun d =>
    if !accessOk off n then readDropped f .fieldRange off n d
    else match sight d f (off / 8 * 8) with
      | .notOwner => readDropped f .notOwner off n d
      | .vacant => readDropped f .fieldRange off n d
      | .shown w =>
        if vacantHalf w off then readDropped f .fieldRange off n d
        else if stateClosed d w then readDropped f .notReady off n d
        else readWord f w off n d) d

/-- REGISTER_READ: in a device whose BARs do not answer the request completes as Unsupported Request (R7, R385, R417). -/
def execRegisterRead (fn : Fn) (offset size : Nat) (s : State) : Host.Outcome State Fault Refusal :=
  .next { s with dev := (fun d => if barAnswers d fn then regRead fn offset size d
                      else emit (.readRefused (fnIx fn)) d) s.dev }

end Sys2Proof.Machine
end

