-- ==== Sys2Proof/Machine/RegWrite.lean ====
section
/-!
DEFINITION. Writes of BAR0 (02, 17): which fields a function may change, what a write does to each word, and REGISTER_WRITE.
-/
namespace Sys2Proof.Machine

/-! ## Who may change what (R319, R419, R421, R429) -/

/-- The fields that a VF may change in the words that its alias shows (R419). -/
def vfMay (w : Wd) (pos : Nat) : Bool :=
  match w with
  | .planBase _ => true
  | .ctrl (.seq _) => pos == 1
  | .ctrl (.rle _) => pos == 1
  | .ctrl (.clu _ _) => pos == 1
  | .bells _ _ => true
  | .rleDeadline _ => true
  | .skipLimit _ _ => true
  | .skipSel _ _ => true
  | .rlyDeadline _ => true
  | .status .rly => true
  | .win _ _ i => i == 4
  | .ring => true
  | .resetReq => true
  | .qvec _ => true
  | _ => false

/-- The fields that only Porter changes in Porter-managed mode (R226, R241, R287, R299, R301, R303, R316, R319, R347,
R421). -/
def porterOnly (w : Wd) (pos : Nat) : Bool :=
  match w with
  | .tckPeriod => true
  | .glbMode => true
  | .lvrCtrl => true
  | .lcsAdvance => true
  | .shtPart _ => true
  | .slot _ => true
  | .win _ _ _ => true
  | .poolCfg _ => true
  | .gbase => true
  | .gcmd => true
  | .mgmtCmd _ _ => true
  | .mgmtGo _ => true
  | .ctrl (.seq _) => pos == 0
  | _ => false

/-- What acts as ENABLE for the RWL fields of a word reads 1 (R45); a window's fields stay locked until its disabling has
taken effect. -/
def locked (d : Dev) (w : Wd) : Bool :=
  match w with
  | .alarm s => (getBlk d (blkBase (.cas (fin8 s)))).enable
  | .udp => (getBlk d rlyBase).enable
  | .fabMode p => (getBlk d (fabBase p)).enable
  | .ipHi p => (getBlk d (fabBase p)).enable
  | .ipLo p => (getBlk d (fabBase p)).enable
  | .mac p => (getBlk d (fabBase p)).enable
  | .hop p _ => (getBlk d (fabBase p)).enable
  | .shtPart v => partHeld (getPart d v)
  | .win v w _ => (getWin d v w).en || (getWin d v w).live
  | .poolCfg n => (getPool d n).en
  | _ => false

/-- The block of an RWT word. -/
def rwtBase : Wd → Nat
  | .tckPeriod => 0x10000
  | .overrun => 0x60000
  | .slot _ => 0x90000
  | .planBase o => seqBase o
  | .rleDeadline o => rleBase o
  | .skipLimit o c => cluBase o c
  | _ => 0

/-- The shadow of an RWT word is sealed: APPLY is pending while ENABLE is 1 (R47). -/
def sealedNow (d : Dev) (w : Wd) : Bool :=
  (rwtOf d w).isSome && (getBlk d (rwtBase w)).apply && (getBlk d (rwtBase w)).enable

/-- Why a change of a field to a value is refused, if it is (R429). -/
def deny (d : Dev) (f : Fn) (w : Wd) (pos : Nat) (x : Fld) (new : Nat) : Option Reason :=
  if !isPf f && !vfMay w pos then some .notOwner
  else if isPf f && porterManaged d && porterOnly w pos then some .notOwner
  else if x.cls = .rwl ∧ locked d w then some .lockedWhileEnabled
  else if x.cls = .rwt ∧ sealedNow d w then some .busyUpdate
  else match w with
    | .rlyDeadline _ => if new = 0 then some .fieldRange else none
    | _ => none

/-- The value that a write is compared with: the shadow of an RWT field, what a read returns otherwise (R47, R429). -/
def presentValue (d : Dev) (f : Fn) (w : Wd) : Nat :=
  match rwtOf d w with
  | some (r, k) => r.shadow * k
  | none => wordValue d f w

/-- A value with the bits under a mask taken from another. -/
def merge (old new m : Nat) : Nat := (old ^^^ (old &&& m)) ||| (new &&& m)

/-- A write to a word that exists: the bytes written, their place in the word, and the bits of the word they cover. -/
structure Acc where
  f : Fn
  off : Nat
  n : Nat
  value : Nat
  deriving DecidableEq, Repr

def accMask (a : Acc) : Nat := maskOf (a.off % 8) a.n
def accBits (a : Acc) : Nat := a.value * 2 ^ (8 * (a.off % 8)) &&& accMask a

/-- The fields that a write touches and that are not RO. -/
def writable (a : Acc) (w : Wd) : List (Nat × Fld) :=
  (placed w).filter fun e => meets (accMask a) e.2 && e.2.cls != .ro

/-- The value that a write gives a field: a WO or W1C field takes the bits written. -/
def newValue (d : Dev) (a : Acc) (w : Wd) (x : Fld) : Nat :=
  if x.cls = .wo ∨ x.cls = .w1c then bits (accBits a) x.lo x.width
  else bits (merge (presentValue d a.f w) (accBits a) (accMask a)) x.lo x.width

/-- The present value of a field; that of a WO field counts as 0, and so does that of a W1C field, since writing 0 to it
changes nothing (R45, R429). -/
def oldValue (d : Dev) (a : Acc) (w : Wd) (x : Fld) : Nat :=
  if x.cls = .wo ∨ x.cls = .w1c then 0 else bits (presentValue d a.f w) x.lo x.width

/-- The fields that take the written value. -/
def taken (d : Dev) (a : Acc) (w : Wd) : List (Nat × Fld) :=
  (writable a w).filter fun e => (deny d a.f w e.1 e.2 (newValue d a w e.2)).isNone

/-- The first field whose change is refused, with its reason. -/
def refusedField (d : Dev) (a : Acc) (w : Wd) : Option (Nat × Reason) :=
  (writable a w).findSome? fun e =>
    if newValue d a w e.2 = oldValue d a w e.2 then none
    else (deny d a.f w e.1 e.2 (newValue d a w e.2)).map fun r => (e.1, r)

/-- The word after the write, field by field: WO and W1C fields as written, the others as they stand or as they change. -/
def imageOf (d : Dev) (a : Acc) (w : Wd) : Nat :=
  let old := (placed w).filter fun e => !(taken d a w).any fun t => t.1 == e.1
  old.foldl (fun n e => n + oldValue d a w e.2 * 2 ^ e.2.lo) ((taken d a w).foldl (fun n e => n + newValue d a w e.2 * 2 ^ e.2.lo) 0)

/-! ## The Porter mailbox (R340, R341) -/

/-- A request that Porter refuses at once. -/
def refuseReq (r : Reason) (d : Dev) : Served := (some (r, []), d)

/-- The fields of an IMAGE_REGISTER (R227). -/
def imageArgs (b : List Byte) : ImageArgs :=
  { ctx := byteAt b 0, slot := byteAt b 1, mask := field b 2 2, offset := field b 4 4, length := field b 8 4 }

/-- A TRS_CONFIG payload: a slot's image, or the three words of a window (log 43). -/
def trsArgs (b : List Byte) : Option TrsArgs :=
  let v := fin8 (byteAt b 0)
  let x := field b 1 8
  let y := field b 18 8
  if byteAt b 0 ≥ 8 then none
  else if b.length = 9 then some (.slot v (bits x 0 17) (bits x 32 17) (bitAt x 63))
  else if b.length = 26 ∧ byteAt b 1 < 16 then
    some (.window v ⟨byteAt b 1 % 16, Nat.mod_lt _ (by decide)⟩ (bits (field b 2 8) 12 52) (bits (field b 10 8) 6 58)
      (bits y 0 17) (bitAt y 17) (bitAt y 18) (bits y 19 4) (bitAt y 23) (BitVec.ofNat 16 (bits y 24 16)) (bits y 40 8)
      (bitAt y 48))
  else none

/-- Requests whose payload has one length (R341). -/
def fixedRequest (op : Nat) (b : List Byte) : Option (Dev → Served) :=
  match op, b.length with
  | 0x10, 9 => if byteAt b 0 < 8 then some (fun d => served (partImage (byteAt b 0) (field b 1 8)) d) else none
  | 0x11, 1 => some fun d => served (modeRequest (byteAt b 0)) d
  | 0x12, 1 => some fun d => served (tickPeriod (byteAt b 0)) d
  | 0x13, 1 => if byteAt b 0 < 2 then some (fun d => served (fineWrite (byteAt b 0 == 1)) d) else none
  | 0x20, 129 => if byteAt b 0 < 8 then (mgmtParse (b.drop 1)).map (fun c => seqMgmt (byteAt b 0) c) else none
  | 0x21, 12 =>
    if byteAt b 0 < 2 ∧ byteAt b 1 < 8 then
      some (fun d => served (groupRequest (byteAt b 0 == 1) (field b 4 8) (byteAt b 1) (field b 2 2) .clean) d)
    else none
  | 0x23, 9 =>
    if byteAt b 0 < 64 then
      some (fun d => served (fun d => if porterManaged d then (.notOwner, d) else poolImage (byteAt b 0) (field b 1 8) d) d)
    else none
  | 0x30, 4 => some fun d => served (updateBegin (field b 0 4)) d
  | 0x32, 0 => some fun d => served updateVerify d
  | 0x33, 0 => some activateMbox
  | 0x34, 0 => some fun d => served updateCancel d
  | 0x40, 1 => some fun d => served (lcsAdvance (byteAt b 0)) d
  | 0x41, 0 => some fun d => served secretsErase d
  | 0x42, 96 => some fun d => served (opkeyFuse b) d
  | 0x50, 50 =>
    if byteAt b 0 < 8 ∧ byteAt b 1 < 4 then
      some (fun d => served (codeKeyRegister (byteAt b 0) (byteAt b 1) (BitVec.ofNat 384 (beNat (b.drop 2)))) d)
    else none
  | 0x61, 50 => some fun d => served (jobKey (field b 0 2) (b.drop 2)) d
  | _, _ => none

/-- What a relayed message shows of the switch's session is a free value of its content (R343, log 90). -/
def freeReport (n : Nat) : Option SwitchReport :=
  if Config.freeNat n % 2 = 1 then
    some { mutualAuth := Config.freeNat (n + 1) % 2 == 1, root := BitVec.ofNat 384 (Config.freeNat (n + 2))
           measurements := (List.range (Config.freeNat (n + 3) % 17)).map fun i =>
             BitVec.ofNat 384 (Config.freeNat (n + 4 + i)) }
  else none

/-- A relayed SPDM message (R343). -/
def relayedSpdm (p : Nat) (d : Dev) : Served := switchSpdm p (freeReport d.free) { d with free := d.free + 21 }

/-- The request that an opcode and a payload spell, if any (R341). -/
def mboxRequestOf (op : Nat) (b : List Byte) : Option (Dev → Served) :=
  match op with
  | 0x01 =>
    if b ≠ [] ∧ byteAt b 0 < 8 then some (fun d => served (charterPart (byteAt b 0) (b.drop 1) (Config.finalPart b)) d) else none
  | 0x02 => some fun d => served (charterAppend b (Config.finalPart b)) d
  | 0x22 => (trsArgs b).map fun a d => served (trsConfig a) d
  | 0x31 =>
    if 8 ≤ b.length ∧ field b 4 4 = 0 ∧ b.length ≤ 4072 then some (fun d => served (updateWrite (field b 0 4) (b.drop 8)) d)
    else none
  | 0x51 =>
    let sigs := b.drop 13
    if byteAt b 0 < 8 ∧ sigs ≠ [] ∧ sigs.length % 192 = 0 ∧ sigs.length ≤ 3072 then
      some (fun d => served (imageSigned (byteAt b 0) (imageArgs (b.drop 1)) (groupsOf 192 (sigs.length / 192) sigs)) d)
    else none
  | 0x60 => if b ≠ [] ∧ byteAt b 0 < 8 then some (relayedSpdm (byteAt b 0)) else none
  | _ => fixedRequest op b

/-- GO written: the request in the buffer is submitted; one that spells no request is refused with FIELD_RANGE (R340,
R341). -/
def mboxSubmit (d : Dev) : Dev :=
  let h := readBytes d.ptr.buf 0 16
  let op := field h 0 2
  let len := field h 2 2
  let b := readBytes d.ptr.buf 16 (min len 4080)
  let f := if len > 4080 ∨ field h 8 8 ≠ 0 then refuseReq .fieldRange else (mboxRequestOf op b).getD (refuseReq .fieldRange)
  mailbox op (BitVec.ofNat 32 (field h 4 4)) b f d

/-! ## Words with effects of their own -/

/-- UMP_RESET_REQ written (R433). -/
def resetRequest (f : Fn) (x : Nat) (d : Dev) : Dev :=
  let o := fin8 (bits x 3 3)
  let c := bits x 6 4
  let u := bits x 10 4
  let range (d : Dev) : Dev := if mayReset d f o then setReq .fieldRange d else reqDropped f d
  match bits x 0 3 with
  | 0 => requestL0 f o c d
  | 1 =>
    if u < 9 then requestL1 f (.cluster o (fin9 u)) d
    else if u = 9 then requestL1 f (.relay o 0) d
    else if u = 10 then requestL1 f (.relay o 1) d
    else if u = 11 then requestL1 f (.rally o) d
    else if u = 12 then requestL1 f (.sequencer o) d
    else if u = 13 ∧ c < 9 then requestL1 f (.core o (fin9 c) ⟨bits x 14 6 % 64, Nat.mod_lt _ (by decide)⟩) d
    else range d
  | 2 => requestL2 f (bits x 20 3) d
  | 3 => requestL3 f (if Config.freeNat d.free % 2 = 0 then .pass else .fail) { d with free := d.free + 1 }
  | 4 => requestL4 f d
  | _ => if isPf f then setReq .fieldRange d else reqDropped f d

/-- UMP_DUMP_CTRL written: AUTO, OVERWRITE and OCTANTS, then what the WO bits ask for (R370, R373). -/
def dumpCtrlWrite (x : Nat) (d : Dev) : Dev :=
  let octs := bits x 8 8
  let d := setUmp (fun u => { u with auto := bitAt x 0, overwrite := bitAt x 1, dumpOcts := BitVec.ofNat 8 octs }) d
  let d := if bitAt x 2 then dumpTrigger octs d else d
  let d := if bitAt x 3 then dumpExport d else d
  if bitAt x 4 then dumpDiscard d else d

/-- The RWL fields of a window's word. -/
def winFieldsOf (i x : Nat) (y : Win) : Win :=
  match i with
  | 0 => { y with dataBase := bits x 12 52 }
  | 1 => { y with recordBase := bits x 6 58 }
  | _ => { y with
    size := bits x 0 17, ring := bitAt x 17, hostWritten := bitAt x 18, party := bits x 19 4, partyValid := bitAt x 23
    admitMask := BitVec.ofNat 16 (bits x 24 16), session := bits x 40 8 }

/-- A word of TRS_WIN written; EN of word 2 acts after its other fields (R299, R300). -/
def winWordWrite (f : Fn) (v w i x : Nat) (d : Dev) : Dev :=
  match i with
  | 4 => if bitAt x 0 then rearm f v w d else d
  | 2 =>
    let d := setWin v w (winFieldsOf 2 x) d
    if bitAt x 48 then (winEnable v w d).2 else if (getWin d v w).en then winClose v w d else d
  | _ => setWin v w (winFieldsOf i x) d

/-- RLY_GCMD written (R241, R242); a reserved OP is out of range. -/
def gcmdWrite (x : Nat) (d : Dev) : Dev :=
  match bits x 0 2 with
  | 1 => (groupLoad .clean d).2
  | 2 => (groupUnload (bits x 2 3) (bits x 16 16) d).2
  | _ => setResult .fieldRange d

/-- SEQ_MGMT_GO written (R226, R227): what spells no command is out of range. -/
def mgmtGoWrite (f : Fn) (o : Nat) (d : Dev) : Dev :=
  mgmtGo f o (fun d => match mgmtParse (readBytes (getSeq d o).mgmtBuf 0 128) with
    | some c => mgmtSettle o false (mgmtStart o false c d)
    | none => setSeq o (fun s => { s with mgmtReason := .fieldRange }) d) d

/-- BLK_CTRL written: ENABLE, then APPLY (R47, R48). -/
def ctrlWord (b : Block) (x : Nat) (d : Dev) : Dev :=
  let k := getBlk d (blkBase b)
  let d := if bitAt x 0 = k.enable then d else if bitAt x 0 then enableBlock b d else disableBlock b d
  if bitAt x 1 = (getBlk d (blkBase b)).apply then d else if bitAt x 1 then applySet b d else applyClear b d

/-- RLY_STATUS.FALLBACK: a PF clears every partition's bit, a VF its own (R420). -/
def clearFallback (f : Fn) (d : Dev) : Dev :=
  let hit := (members8 d.rly.fallback).filter fun v => isPf f || fnIx f == v + 1
  hit.foldl (fun d v => partChanged v { d with rly := { d.rly with fallback := clr8 d.rly.fallback v } }) d

/-- An RWT register written: the shadow, and the live copy too while the block's ENABLE is 0 (R45). -/
def rwtWrite (en : Bool) (x : Nat) (r : Rwt) : Rwt := if en then { r with shadow := x } else Rwt.of x

/-- The position of DBG_HALT.STEP's clock: the first after what the selected core has issued or made wait. -/
def stepClock (d : Dev) : Nat :=
  let n := dbgCore d
  let after (x : Stream) : Nat :=
    (x.busy.map (·.2)).foldl max (match x.lastIssue with | none => 0 | some t => t + 1)
  max (after (getStream d n 0)) (after (getStream d n 1))

/-- DBG_HALT written (R425). -/
def haltWrite (x : Nat) (d : Dev) : Dev :=
  let d := if bitAt x 0 = dbgHalted d then d else dbgHalt (bitAt x 0) d
  if bitAt x 1 then dbgStep (stepClock d) d else d

/-- A fabric port's RWL fields. -/
def fabWrite (x : Nat) (p : Port) : Port :=
  { p with
    rally := bitAt x 0, pmd := bits x 1 2, tagEn := bitAt x 3, vid := bits x 4 12, pcp := bits x 16 3, dscp := bits x 19 6 }

/-- CLU_SKIP_SEL: CORE, and CLEAR of the core that it then selects (R83). -/
def skipSelWrite (o c x : Nat) (d : Dev) : Dev :=
  let d := setClu o c (fun k => { k with sel := bits x 0 6 }) d
  if bitAt x 8 then
    setCore (coreNo o c (bits x 0 6)) (fun k => { k with log := [], skips := 0, overflow := false }) d
  else d

/-- The bytes of an access written to a memory of words. -/
def bytesAt (a : Acc) (base : Nat) (m : Memory) : Memory := writeBytes m (base + a.off % 8) (natLe a.n a.value)

/-- A field at a position takes the written value. -/
def takes (t : List (Nat × Fld)) (pos : Nat) : Bool := t.any fun e => e.1 == pos

/-- What a write does to a word, given the word's image and the fields that take their value. -/
def writeWord (a : Acc) (w : Wd) (x : Nat) (t : List (Nat × Fld)) (d : Dev) : Dev :=
  let en := (getBlk d (rwtBase w)).enable
  match w with
  | .glbMode => if takes t 4 && bitAt x 6 then glbModeReq a.f (bits x 4 2) d else d
  | .tckPeriod => { d with tck := { d.tck with units := rwtWrite en (bits x 0 7) d.tck.units } }
  | .ctrl b => ctrlWord b x d
  | .status .rly => if bitAt x 24 then clearFallback a.f d else d
  | .status .pwr => if bitAt x 26 then { d with pwr := { d.pwr with railFault := false } } else d
  | .lvrCtrl => fineHost (.host a.f) (bitAt x 0) d
  | .lcsAdvance => (lcsAdvance (bits x 0 3) d).2
  | .ptrGo => if bitAt x 0 then mboxSubmit d else d
  | .ptrBuf i => { d with ptr := { d.ptr with buf := bytesAt a (8 * i) d.ptr.buf } }
  | .overrun => { d with ump := { d.ump with limit := rwtWrite en (bits x 0 4) d.ump.limit } }
  | .ring => match a.f with
    | .pf => { d with ret := { d.ret with pfRing := { d.ret.pfRing with consumer := bits x 16 16 } } }
    | .vf v => { d with ump := { d.ump with
        vfRing := alter Ring.zero v (fun g => { g with consumer := bits x 16 16 }) d.ump.vfRing } }
  | .resetReq => resetRequest a.f x d
  | .dumpCtrl => dumpCtrlWrite x d
  | .dumpWin i => setUmp (fun u =>
      if i = 0 then { u with win0 := BitVec.ofNat 64 x } else if i = 1 then { u with win1 := BitVec.ofNat 64 x }
      else { u with win2 := BitVec.ofNat 64 x }) d
  | .shtPart v => (partImage v x d).2
  | .qvec n =>
    let d := if takes t 0 ∨ takes t 1 then
        qvecWrite a.f (n / 16) (2 * n % 32) (bits x 0 8) (bitAt x 8) d else d
    if takes t 2 ∨ takes t 3 then qvecWrite a.f (n / 16) ((2 * n + 1) % 32) (bits x 32 8) (bitAt x 40) d else d
  | .slot v => setSlot v (rwtWrite en x) d
  | .win v w i => winWordWrite a.f v w i x d
  | .poolCfg n => (poolImage n x d).2
  | .dbgSel => { d with dbgSel := bits x 0 14 }
  | .dbgHalt => haltWrite x d
  | .dbgState i => setStream (dbgCore d) (dbgStrm d) (setStateBytes (8 * i + a.off % 8) (natLe a.n a.value)) d
  | .udp => { d with rly := { d.rly with udpPort := bits x 0 16 } }
  | .rlyDeadline v => { d with rly := { d.rly with deadline := put 4 v (bits x 0 8) d.rly.deadline } }
  | .gbase => { d with rly := { d.rly with gbase := bits x 6 34 } }
  | .gcmd => gcmdWrite x d
  | .fabMode p => setPort p (fabWrite x) d
  | .ipHi p => setPort p (fun y => { y with ipHi := BitVec.ofNat 64 x }) d
  | .ipLo p => setPort p (fun y => { y with ipLo := BitVec.ofNat 64 x }) d
  | .mac p => setPort p (fun y => { y with mac := bits x 0 48 }) d
  | .hop p h => setPort p (fun y => if h = 0 then { y with hop0 := bits x 0 48 } else { y with hop1 := bits x 0 48 }) d
  | .alarm s => setStack s (fun y => { y with alarmMs := bits x 0 14 }) d
  | .planBase o => setSeq o (fun s => { s with planBase := rwtWrite en (bits x 6 34) s.planBase }) d
  | .mgmtCmd o i => setSeq o (fun s => { s with mgmtBuf := bytesAt a (8 * i) s.mgmtBuf }) d
  | .mgmtGo o => if bitAt x 0 then mgmtGoWrite a.f o d else d
  | .bells o q =>
    let d := if takes t 0 then doorbell a.f o q (bits x 0 16) d else d
    if takes t 1 then cdoorbell a.f o q (bits x 32 16) d else d
  | .rleDeadline o => setRle o (fun r => { r with deadline := rwtWrite en (bits x 0 11) r.deadline }) d
  | .skipLimit o c => setClu o c (fun k => { k with limit := rwtWrite en (bits x 0 10) k.limit }) d
  | .skipSel o c => skipSelWrite o c x d
  | _ => d

/-! ## Writes (R7, R45, R417, R418, R424, R429) -/

/-- A write to a register that exists, field by field (R429): an access that touches only RO fields and reserved bits is
dropped; a refused change is logged, and every other field takes its value. -/
def fieldWrite (a : Acc) (w : Wd) (d : Dev) : Dev :=
  match writable a w with
  | [] => dropAccess a.f .fieldRange a.off a.n true d
  | _ =>
    let t := taken d a w
    let d' := if t.isEmpty then d else writeWord a w (imageOf d a w) t d
    match refusedField d a w with
    | some (pos, r) => dropLog a.f r (wordField (a.off / 8 * 8) w pos) a.off true d'
    | none => d'

/-- A write of BAR0; a level that UMP_RESET_REQ starts counts its own change of the report (R334). -/
def regWrite (f : Fn) (off n value : Nat) (d : Dev) : Dev :=
  let dropped (r : Reason) (d : Dev) : Dev := dropAccess f r off n true d
  if bar2Base ≤ off then msixWrite f (off - bar2Base) n value d
  else if barSpan f ≤ off then d
  else dbgGate f off (dropped .lifecycleDenied) (fun d =>
    if !accessOk off n then dropped .fieldRange d
    else match sight d f (off / 8 * 8) with
      | .notOwner => dropped .notOwner d
      | .vacant => dropped .fieldRange d
      | .shown w =>
        if vacantHalf w off then dropped .fieldRange d
        else if stateClosed d w then dropped .notReady d
        else if w = .resetReq then fieldWrite { f := f, off := off, n := n, value := value } w d
        else tracked (fieldWrite { f := f, off := off, n := n, value := value } w) d) d

/-- REGISTER_WRITE (R7, R45, R429). -/
def execRegisterWrite (fn : Fn) (offset size : Nat) (value : DWord) (s : State) : Host.Outcome State Fault Refusal :=
  .next { s with dev := whenBar fn (onBar (regWrite fn offset size value.toNat)) s.dev }

end Sys2Proof.Machine
end

