-- ==== Sys2Proof/Machine/Dispatch.lean ====
section
/-!
DEFINITION. exec: one arm for each command, each arm one call of its meaning.
-/
namespace Sys2Proof.Machine

def exec (i : Instr) (s : State) : Host.Outcome State Fault Refusal :=
  match i with
  | .powerOnBoot selfTest => Sys2Proof.Machine.execPowerOnBoot selfTest s
  | .stackReady stk => Sys2Proof.Machine.execStackReady stk s
  | .stackTrainingFail stk => Sys2Proof.Machine.execStackTrainingFail stk s
  | .octantReady o => Sys2Proof.Machine.execOctantReady o s
  | .portReady p => Sys2Proof.Machine.execPortReady p s
  | .portCalibrationFail p => Sys2Proof.Machine.execPortCalibrationFail p s
  | .trialConfirm => Sys2Proof.Machine.execTrialConfirm s
  | .pwrgdFall => Sys2Proof.Machine.execPwrgdFall s
  | .perstAssert selfTest => Sys2Proof.Machine.execPerstAssert selfTest s
  | .hostDlDown => Sys2Proof.Machine.execHostDlDown s
  | .vfFlr v => Sys2Proof.Machine.execVfFlr v s
  | .pfFlr => Sys2Proof.Machine.execPfFlr s
  | .pcieLinkRetrain speed width => Sys2Proof.Machine.execPcieLinkRetrain speed width s
  | .completionTimeout o e seq => Sys2Proof.Machine.execCompletionTimeout o e seq s
  | .msixPendingSend fn vector => Sys2Proof.Machine.execMsixPendingSend fn vector s
  | .pcieRefclkLoss ns => Sys2Proof.Machine.execPcieRefclkLoss ns s
  | .fabRefclkLoss input ns => Sys2Proof.Machine.execFabRefclkLoss input ns s
  | .sysclkLoss ns => Sys2Proof.Machine.execSysclkLoss ns s
  | .sysclkRestore stableNs => Sys2Proof.Machine.execSysclkRestore stableNs s
  | .tickBoundary env => Sys2Proof.Machine.execTickBoundary env s
  | .applyCopy b => Sys2Proof.Machine.execApplyCopy b s
  | .planSwap v ev => Sys2Proof.Machine.execPlanSwap v ev s
  | .versionFlip v => Sys2Proof.Machine.execVersionFlip v s
  | .windowStart o record ev => Sys2Proof.Machine.execWindowStart o record ev s
  | .windowEnd cmd => Sys2Proof.Machine.execWindowEnd cmd s
  | .slipBoundExpiry cmd => Sys2Proof.Machine.execSlipBoundExpiry cmd s
  | .blockEnable fn b => Sys2Proof.Machine.execBlockEnable fn b s
  | .blockDisable fn b => Sys2Proof.Machine.execBlockDisable fn b s
  | .blockDisableComplete b => Sys2Proof.Machine.execBlockDisableComplete b s
  | .applyRequest fn b => Sys2Proof.Machine.execApplyRequest fn b s
  | .applyWithdraw fn b => Sys2Proof.Machine.execApplyWithdraw fn b s
  | .registerWrite fn offset size value => Sys2Proof.Machine.execRegisterWrite fn offset size value s
  | .bundleIssue o c k clk => Sys2Proof.Machine.execBundleIssue o c k clk s
  | .loadReturn o c k st index clk => Sys2Proof.Machine.execLoadReturn o c k st index clk s
  | .fenceComplete o c k st => Sys2Proof.Machine.execFenceComplete o c k st s
  | .streamEnd o c k st => Sys2Proof.Machine.execStreamEnd o c k st s
  | .xsyncComplete o c k => Sys2Proof.Machine.execXsyncComplete o c k s
  | .cbarComplete o c st => Sys2Proof.Machine.execCbarComplete o c st s
  | .mmaComplete o c k => Sys2Proof.Machine.execMmaComplete o c k s
  | .vectorComplete o c k => Sys2Proof.Machine.execVectorComplete o c k s
  | .commandFetch o q ev blk => Sys2Proof.Machine.execCommandFetch o q ev blk s
  | .seqQDoorbell fn o q producer => Sys2Proof.Machine.execSeqQDoorbell fn o q producer s
  | .seqQCdoorbell fn o q consumer => Sys2Proof.Machine.execSeqQCdoorbell fn o q consumer s
  | .relayChunk o e seq ev => Sys2Proof.Machine.execRelayChunk o e seq ev s
  | .relayResponse o e seq blk => Sys2Proof.Machine.execRelayResponse o e seq blk s
  | .relayPark o e seq => Sys2Proof.Machine.execRelayPark o e seq s
  | .rleDeadlineExpiry o e seq => Sys2Proof.Machine.execRleDeadlineExpiry o e seq s
  | .relayComplete o e seq => Sys2Proof.Machine.execRelayComplete o e seq s
  | .stowCompletionRelease o e seq => Sys2Proof.Machine.execStowCompletionRelease o e seq s
  | .commandComplete cmd ev => Sys2Proof.Machine.execCommandComplete cmd ev s
  | .completionRecordWrite cmd ev => Sys2Proof.Machine.execCompletionRecordWrite cmd ev s
  | .huddleSignalArrive index ev => Sys2Proof.Machine.execHuddleSignalArrive index ev s
  | .waitDeadlineExpiry w => Sys2Proof.Machine.execWaitDeadlineExpiry w s
  | .ctxCreate by_ o ctx seed nfObj => Sys2Proof.Machine.execCtxCreate by_ o ctx seed nfObj s
  | .ctxStart by_ o ctx => Sys2Proof.Machine.execCtxStart by_ o ctx s
  | .ctxStartEffect o => Sys2Proof.Machine.execCtxStartEffect o s
  | .ctxStopDrain by_ o ctx => Sys2Proof.Machine.execCtxStopDrain by_ o ctx s
  | .ctxStopPreempt by_ o ctx => Sys2Proof.Machine.execCtxStopPreempt by_ o ctx s
  | .preemptEffect o ctx => Sys2Proof.Machine.execPreemptEffect o ctx s
  | .contextStopped o ctx => Sys2Proof.Machine.execContextStopped o ctx s
  | .ctxDestroy by_ o ctx => Sys2Proof.Machine.execCtxDestroy by_ o ctx s
  | .queueBind by_ o a => Sys2Proof.Machine.execQueueBind by_ o a s
  | .queueUnbind by_ o queue => Sys2Proof.Machine.execQueueUnbind by_ o queue s
  | .regionSet by_ o ctx index word0 word1 => Sys2Proof.Machine.execRegionSet by_ o ctx index word0 word1 s
  | .regionClear by_ o ctx index => Sys2Proof.Machine.execRegionClear by_ o ctx index s
  | .regionEntryEffect o => Sys2Proof.Machine.execRegionEntryEffect o s
  | .regionCommandComplete o => Sys2Proof.Machine.execRegionCommandComplete o s
  | .objConfig by_ o a => Sys2Proof.Machine.execObjConfig by_ o a s
  | .objFree by_ o obj => Sys2Proof.Machine.execObjFree by_ o obj s
  | .imageRegister by_ o a => Sys2Proof.Machine.execImageRegister by_ o a s
  | .imageRelease by_ o ctx slot => Sys2Proof.Machine.execImageRelease by_ o ctx slot s
  | .imageReleaseComplete o => Sys2Proof.Machine.execImageReleaseComplete o s
  | .hbmRead requester pa ev => Sys2Proof.Machine.execHbmRead requester pa ev s
  | .hbmFullWrite requester pa data ev => Sys2Proof.Machine.execHbmFullWrite requester pa data ev s
  | .hbmPartialWrite requester pa data ev => Sys2Proof.Machine.execHbmPartialWrite requester pa data ev s
  | .patrolRead pa ev => Sys2Proof.Machine.execPatrolRead pa ev s
  | .regionInit stk region => Sys2Proof.Machine.execRegionInit stk region s
  | .fabHalfLinkDown p half => Sys2Proof.Machine.execFabHalfLinkDown p half s
  | .fabPortUp p => Sys2Proof.Machine.execFabPortUp p s
  | .groupLoad by_ ev => Sys2Proof.Machine.execGroupLoad by_ ev s
  | .groupUnload by_ p group => Sys2Proof.Machine.execGroupUnload by_ p group s
  | .rallyStepRelease cmd ev => Sys2Proof.Machine.execRallyStepRelease cmd ev s
  | .rallyStepRetire cmd ev => Sys2Proof.Machine.execRallyStepRetire cmd ev s
  | .data f => Sys2Proof.Machine.execData f s
  | .ack f => Sys2Proof.Machine.execAck f s
  | .arrive f => Sys2Proof.Machine.execArrive f s
  | .late f => Sys2Proof.Machine.execLate f s
  | .abort f => Sys2Proof.Machine.execAbort f s
  | .lost f => Sys2Proof.Machine.execLost f s
  | .heartbeat f => Sys2Proof.Machine.execHeartbeat f s
  | .vote f => Sys2Proof.Machine.execVote f s
  | .decide f => Sys2Proof.Machine.execDecide f s
  | .grant f => Sys2Proof.Machine.execGrant f s
  | .refuse f => Sys2Proof.Machine.execRefuse f s
  | .expired f => Sys2Proof.Machine.execExpired f s
  | .peerDown f => Sys2Proof.Machine.execPeerDown f s
  | .missing f => Sys2Proof.Machine.execMissing f s
  | .result f => Sys2Proof.Machine.execResult f s
  | .heartbeatTimer p slot toCoordinator => Sys2Proof.Machine.execHeartbeatTimer p slot toCoordinator s
  | .ackTimer p slot member => Sys2Proof.Machine.execAckTimer p slot member s
  | .retransmitTimeout p slot member psn => Sys2Proof.Machine.execRetransmitTimeout p slot member psn s
  | .neighbourSilence p slot member => Sys2Proof.Machine.execNeighbourSilence p slot member s
  | .rlyDeadlineExpiry cmd => Sys2Proof.Machine.execRlyDeadlineExpiry cmd s
  | .abortWaitExpiry cmd => Sys2Proof.Machine.execAbortWaitExpiry cmd s
  | .queryTimeout cmd => Sys2Proof.Machine.execQueryTimeout cmd s
  | .leaseRenewTimer p slot => Sys2Proof.Machine.execLeaseRenewTimer p slot s
  | .leaseRequestRetry p slot => Sys2Proof.Machine.execLeaseRequestRetry p slot s
  | .charterLoad seq v bytes final => Sys2Proof.Machine.execCharterLoad seq v bytes final s
  | .charterAppend seq bytes final => Sys2Proof.Machine.execCharterAppend seq bytes final s
  | .charterApprove session digest generation => Sys2Proof.Machine.execCharterApprove session digest generation s
  | .charterWithdraw session => Sys2Proof.Machine.execCharterWithdraw session s
  | .withdrawEffect v => Sys2Proof.Machine.execWithdrawEffect v s
  | .jobKeyDeliver session group key => Sys2Proof.Machine.execJobKeyDeliver session group key s
  | .windowEnable by_ v w => Sys2Proof.Machine.execWindowEnable by_ v w s
  | .windowDisableRequest by_ v w => Sys2Proof.Machine.execWindowDisableRequest by_ v w s
  | .windowDisable v w => Sys2Proof.Machine.execWindowDisable v w s
  | .rearm fn v w => Sys2Proof.Machine.execRearm fn v w s
  | .rearmEffect v w => Sys2Proof.Machine.execRearmEffect v w s
  | .poolConfigure by_ n => Sys2Proof.Machine.execPoolConfigure by_ n s
  | .partitionCreate by_ v octants kdBase kdCount zeroFill => Sys2Proof.Machine.execPartitionCreate by_ v octants kdBase kdCount zeroFill s
  | .partitionCreateEffect v => Sys2Proof.Machine.execPartitionCreateEffect v s
  | .partitionRelease by_ v => Sys2Proof.Machine.execPartitionRelease by_ v s
  | .partitionReleaseEffect v => Sys2Proof.Machine.execPartitionReleaseEffect v s
  | .releaseScrub o differences storeKind storeIndex => Sys2Proof.Machine.execReleaseScrub o differences storeKind storeIndex s
  | .zeroFillComplete o => Sys2Proof.Machine.execZeroFillComplete o s
  | .louvreUpdate => Sys2Proof.Machine.execLouvreUpdate s
  | .fineTimingWrite by_ on => Sys2Proof.Machine.execFineTimingWrite by_ on s
  | .powerMode seq target => Sys2Proof.Machine.execPowerMode seq target s
  | .glbModeReq fn target => Sys2Proof.Machine.execGlbModeReq fn target s
  | .modeSwitchStart => Sys2Proof.Machine.execModeSwitchStart s
  | .modeSwitchComplete => Sys2Proof.Machine.execModeSwitchComplete s
  | .modeSwitchRevert => Sys2Proof.Machine.execModeSwitchRevert s
  | .tickPeriod seq units => Sys2Proof.Machine.execTickPeriod seq units s
  | .fineTiming seq on => Sys2Proof.Machine.execFineTiming seq on s
  | .partSet seq v image => Sys2Proof.Machine.execPartSet seq v image s
  | .seqMgmt seq o c => Sys2Proof.Machine.execSeqMgmt seq o c s
  | .group seq load gbase p group ev => Sys2Proof.Machine.execGroup seq load gbase p group ev s
  | .trsConfig seq a => Sys2Proof.Machine.execTrsConfig seq a s
  | .poolConfig seq n config => Sys2Proof.Machine.execPoolConfig seq n config s
  | .updateBegin seq length => Sys2Proof.Machine.execUpdateBegin seq length s
  | .updateWrite seq offset bytes => Sys2Proof.Machine.execUpdateWrite seq offset bytes s
  | .updateVerify seq => Sys2Proof.Machine.execUpdateVerify seq s
  | .updateActivate seq => Sys2Proof.Machine.execUpdateActivate seq s
  | .updateCancel seq => Sys2Proof.Machine.execUpdateCancel seq s
  | .slotPointerSwitchComplete => Sys2Proof.Machine.execSlotPointerSwitchComplete s
  | .lcsAdvance by_ seq target => Sys2Proof.Machine.execLcsAdvance by_ seq target s
  | .secretsErase seq => Sys2Proof.Machine.execSecretsErase seq s
  | .opkeyFuse seq key => Sys2Proof.Machine.execOpkeyFuse seq key s
  | .codeKeyRegister seq v index digest => Sys2Proof.Machine.execCodeKeyRegister seq v index digest s
  | .imageSignedRegister seq o a signatures => Sys2Proof.Machine.execImageSignedRegister seq o a signatures s
  | .switchSpdm seq p message report => Sys2Proof.Machine.execSwitchSpdm seq p message report s
  | .switchSessionEnd p => Sys2Proof.Machine.execSwitchSessionEnd p s
  | .jobKey seq group key => Sys2Proof.Machine.execJobKey seq group key s
  | .getVersion fn => Sys2Proof.Machine.execGetVersion fn s
  | .getCapabilities fn => Sys2Proof.Machine.execGetCapabilities fn s
  | .negotiateAlgorithms fn supported => Sys2Proof.Machine.execNegotiateAlgorithms fn supported s
  | .getDigests fn => Sys2Proof.Machine.execGetDigests fn s
  | .getCertificate fn slot offset length => Sys2Proof.Machine.execGetCertificate fn slot offset length s
  | .challenge fn slot nonce => Sys2Proof.Machine.execChallenge fn slot nonce s
  | .getMeasurements fn nonce => Sys2Proof.Machine.execGetMeasurements fn nonce s
  | .keyExchange fn leafKey => Sys2Proof.Machine.execKeyExchange fn leafKey s
  | .finish session mutualOk => Sys2Proof.Machine.execFinish session mutualOk s
  | .keyUpdate session => Sys2Proof.Machine.execKeyUpdate session s
  | .spdmHeartbeat session => Sys2Proof.Machine.execSpdmHeartbeat session s
  | .endSession session => Sys2Proof.Machine.execEndSession session s
  | .periodicSelfTest r => Sys2Proof.Machine.execPeriodicSelfTest r s
  | .lifecycleFuseCheck => Sys2Proof.Machine.execLifecycleFuseCheck s
  | .driftCheck estimateW measuredW => Sys2Proof.Machine.execDriftCheck estimateW measuredW s
  | .staticCalibration => Sys2Proof.Machine.execStaticCalibration s
  | .porterWatchdogExpiry selfTest => Sys2Proof.Machine.execPorterWatchdogExpiry selfTest s
  | .umpireWalkMissed selfTest => Sys2Proof.Machine.execUmpireWalkMissed selfTest s
  | .l0Kill fn o ctx => Sys2Proof.Machine.execL0Kill fn o ctx s
  | .l1Reset by_ u => Sys2Proof.Machine.execL1Reset by_ u s
  | .l1Complete u => Sys2Proof.Machine.execL1Complete u s
  | .l2Reset fn v => Sys2Proof.Machine.execL2Reset fn v s
  | .l3Reset fn selfTest => Sys2Proof.Machine.execL3Reset fn selfTest s
  | .l4Cycle fn => Sys2Proof.Machine.execL4Cycle fn s
  | .l0BoundExpiry o ctx => Sys2Proof.Machine.execL0BoundExpiry o ctx s
  | .l1BoundExpiry u selfTest => Sys2Proof.Machine.execL1BoundExpiry u selfTest s
  | .l2BoundExpiry v selfTest => Sys2Proof.Machine.execL2BoundExpiry v selfTest s
  | .l3BoundExpiry => Sys2Proof.Machine.execL3BoundExpiry s
  | .lockdown cause => Sys2Proof.Machine.execLockdown cause s
  | .thermalSample readings => Sys2Proof.Machine.execThermalSample readings s
  | .dumpTrigger fn octants => Sys2Proof.Machine.execDumpTrigger fn octants s
  | .dumpUnitTimeout o kind index => Sys2Proof.Machine.execDumpUnitTimeout o kind index s
  | .dumpComplete o => Sys2Proof.Machine.execDumpComplete o s
  | .dumpTruncate => Sys2Proof.Machine.execDumpTruncate s
  | .dumpExport fn => Sys2Proof.Machine.execDumpExport fn s
  | .dumpDiscard fn => Sys2Proof.Machine.execDumpDiscard fn s
  | .pciQvecWrite fn o q vector en => Sys2Proof.Machine.execPciQvecWrite fn o q vector en s
  | .status pecOk => Sys2Proof.Machine.execStatus pecOk s
  | .alertCause pecOk => Sys2Proof.Machine.execAlertCause pecOk s
  | .alertCauseClear pecOk bits => Sys2Proof.Machine.execAlertCauseClear pecOk bits s
  | .alertResponse => Sys2Proof.Machine.execAlertResponse s
  | .cycleCause pecOk => Sys2Proof.Machine.execCycleCause pecOk s
  | .tripSensor pecOk => Sys2Proof.Machine.execTripSensor pecOk s
  | .railPower pecOk => Sys2Proof.Machine.execRailPower pecOk s
  | .temps pecOk => Sys2Proof.Machine.execTemps pecOk s
  | .devicePower pecOk => Sys2Proof.Machine.execDevicePower pecOk s
  | .faultSelect pecOk n => Sys2Proof.Machine.execFaultSelect pecOk n s
  | .faultRead pecOk => Sys2Proof.Machine.execFaultRead pecOk s
  | .stageBegin pecOk length => Sys2Proof.Machine.execStageBegin pecOk length s
  | .stageWrite pecOk offset bytes => Sys2Proof.Machine.execStageWrite pecOk offset bytes s
  | .stageVerify pecOk => Sys2Proof.Machine.execStageVerify pecOk s
  | .stageActivate pecOk => Sys2Proof.Machine.execStageActivate pecOk s
  | .stageCancel pecOk => Sys2Proof.Machine.execStageCancel pecOk s
  | .stageResult pecOk => Sys2Proof.Machine.execStageResult pecOk s
  | .resetReq pecOk value selfTest => Sys2Proof.Machine.execResetReq pecOk value selfTest s
  | .resetResult pecOk => Sys2Proof.Machine.execResetResult pecOk s
  | .jtagInstruction op => Sys2Proof.Machine.execJtagInstruction op s
  | .halt fn on => Sys2Proof.Machine.execHalt fn on s
  | .step fn clk => Sys2Proof.Machine.execStep fn clk s
  | .dbgStateAccess fn offset write => Sys2Proof.Machine.execDbgStateAccess fn offset write s
  | .registerRead fn offset size => Sys2Proof.Machine.execRegisterRead fn offset size s
  | .configSpaceWrite fn field value => Sys2Proof.Machine.execConfigSpaceWrite fn field value s
  | .perstRelease => Sys2Proof.Machine.execPerstRelease s
  | .fabHalfLinkUp p half => Sys2Proof.Machine.execFabHalfLinkUp p half s
  | .badframe f => Sys2Proof.Machine.execBadframe f s
  | .comparatorTrip die => Sys2Proof.Machine.execComparatorTrip die s
  | .doeDiscovery fn => Sys2Proof.Machine.execDoeDiscovery fn s
  | .l2Complete e => Sys2Proof.Machine.execL2Complete e s
  | .l3Complete => Sys2Proof.Machine.execL3Complete s
  | .dumpExportComplete o result => Sys2Proof.Machine.execDumpExportComplete o result s
  | .calibrationComplete measuredW dynamicW => Sys2Proof.Machine.execCalibrationComplete measuredW dynamicW s

end Sys2Proof.Machine
end

