-- ==== Sys2Proof/Safety.lean ====
section
/-!
DEFINITION. What counts as a safe step, in the terms that statements use: it ends in a next state.
-/
namespace Sys2Proof.Machine

/-- The outcome is a next state. -/
def completes (r : Host.Outcome State Fault Refusal) : Prop := ∃ t, r = .next t

/-- The outcome is a next state in which P holds. -/
def arrivesAt (r : Host.Outcome State Fault Refusal) (P : State → Prop) : Prop := ∃ t, r = .next t ∧ P t

/-- The queue of waiting commands is what it was. -/
def keepsQueue (s : State) (r : Host.Outcome State Fault Refusal) : Prop := ∀ t, r = .next t → t.pending = s.pending

/-- A mailbox request reaches Porter in service: the BARs of the PF answer, the mailbox is released, and no request is in
progress (R340, R375). -/
def mailboxOpen (d : Dev) : Bool := live d && barAnswers d .pf && d.pkg.mailbox && !d.ptr.busy

/-! ## The holder of management (R319) -/

/-- The issuer holds management now: the PF in host-managed mode while its BARs answer, or Porter in Porter-managed mode. -/
def holds (i : Issuer) (d : Dev) : Bool :=
  match i with
  | .host f => f == .pf && barAnswers d .pf && !porterManaged d
  | .porter => live d && porterManaged d

/-! ## Management commands (R226, R227) -/

/-- The row of a management command. -/
def ofMgmt (i : Issuer) (o : Fin 8) : MgmtCmd → Instr
  | .ctxCreate c seed nf => .ctxCreate i o c seed nf
  | .ctxStart c => .ctxStart i o c
  | .ctxStop c p => if p = 0 then .ctxStopDrain i o c else .ctxStopPreempt i o c
  | .ctxDestroy c => .ctxDestroy i o c
  | .queueBind a => .queueBind i o a
  | .queueUnbind q => .queueUnbind i o q
  | .regionSet c k w0 w1 => .regionSet i o c k w0 w1
  | .regionClear c k => .regionClear i o c k
  | .objConfig a => .objConfig i o a
  | .objFree n => .objFree i o n
  | .imageRegister a => .imageRegister i o a
  | .imageRelease c k => .imageRelease i o c k

/-- The issuer may give the octant's sequencer a management command now: the PF in host-managed mode, Porter in
Porter-managed mode, and no command runs (R226). -/
def mgmtMay (i : Issuer) (o : Nat) (d : Dev) : Bool :=
  live d && (getSeq d o).mgmt == .none &&
  match i with
  | .host f => f == .pf && barAnswers d .pf && !porterManaged d
  | .porter => porterManaged d

/-- The state in which the command is checked: a host has written it to SEQ_MGMT_CMD (R226). -/
def mgmtIn (i : Issuer) (o : Nat) (c : MgmtCmd) (d : Dev) : Dev :=
  match i with
  | .host _ => setMgmtBuf o (mgmtBytes c) d
  | .porter => d

/-- The issuer may give the command, and it passes the three checks of R227: values, ownership, and a ready octant. -/
def mgmtReady (i : Issuer) (o : Nat) (c : MgmtCmd) (d : Dev) : Bool :=
  mgmtMay i o d && mgmtRange c && (octVf d o).isSome && mgmtOwner d o c && has8 d.pkg.octReady o

/-! ## Mailbox requests (R340) -/

/-- The mailbox takes the update commands, in service and in recovery alike (R327). -/
def updateOpen (d : Dev) : Bool := barAnswers d .pf && d.pkg.mailbox && !d.ptr.busy

/-- A request taken, its effect, and its answer. -/
def mboxDone (op : Nat) (seq : Word) (payload : List Byte) (r : Reason) (answer : List Byte) (g : Dev → Dev) (d : Dev) : Dev :=
  mboxEnd r answer (g (mboxTake op seq payload d))

/-- LCS_STATUS.REASON (R347). -/
def lcsNote (r : Reason) (d : Dev) : Dev := { d with ptr := { d.ptr with lcsReason := r } }

/-- Job, session and dump keys, user records and charters are gone (R349). -/
def noSecrets (d : Dev) : Dev :=
  { d with
    ret := { d.ret with dumpKey := 0 }
    flash := writeUserRecs [] d.flash
    ptr := { d.ptr with
      jobKeys := [], sess := [], charter := [], loading := none, heldDoms := [], switchSess := [], erased := true } }

/-- RLY_GBASE (R241). -/
def setGbase (n : Nat) (d : Dev) : Dev := { d with rly := { d.rly with gbase := n % 2 ^ 34 } }

/-! ## Keys (R367) -/

/-- No key of a group, of a member, of a member-switch session or of a window is held (R236, R293, R343). -/
def linkKeysGone (d : Dev) : Bool :=
  d.ptr.switchSess == [] && d.win.all (fun e => e.2.secret == 0) &&
  d.group.all fun e => e.2.jobKey == [] && e.2.pairs.all fun x => x.2.key == 0 && x.2.keyNext == 0

/-- Every key is zeroed (R348, R367, R406). -/
def keysGone (d : Dev) : Bool :=
  d.ret.domKey == [] && d.ret.treeKey == [] && d.ret.cdi0 == 0 && d.ret.dumpKey == 0 && d.ptr.keysZeroed &&
  d.ptr.dieKeys == [] && d.ptr.cdi1 == 0 && d.ptr.jobKeys == [] && d.ptr.sess == [] && linkKeysGone d

/-! ## Parts of a charter (R341) -/

/-- Nothing of a charter waits for a further part. -/
def noCharterPart (d : Dev) : Dev := { d with ptr := { d.ptr with loading := none } }

/-- Bytes of a VF's charter wait for a further part. -/
def keepCharterPart (v : Nat) (b : List Byte) (d : Dev) : Dev := { d with ptr := { d.ptr with loading := some (v, b) } }

/-- SECRETS_ERASED is clear: a secret is held again (R349). -/
def secretsHeld (d : Dev) : Dev := { d with ptr := { d.ptr with erased := false } }

/-! ## Packets (R238) -/

/-- A frame passes checks 1 to 3 of R238 at its port, which is up, for the group in a slot: what stands before the tag check. -/
def packetReaches (f : Frame) (slot : Nat) (d : Dev) : Bool :=
  let p := headPacket f.head []
  let g := getGroup d slot
  !f.pause && (getPort d f.port.val).up && addressed d f && headOk f.head && p.len + 16 ≤ f.rest.length &&
  findGroup d f.port.val p.group == some slot && p.len ≤ g.payload && endsOk g p

/-- A frame passes checks 1 to 5 of R238 at its port, for the group in a slot that has not failed. -/
def packetPasses (f : Frame) (slot : Nat) (d : Dev) : Bool :=
  let p := headPacket f.head []
  let g := getGroup d slot
  packetReaches f slot d && tagOk d slot f && !replayed (pairEpoch g p.src p.epoch (getPair g p.src)) p && g.failed.isNone

/-- The pair of a frame's sender, in the epoch of the frame, with the packet marked. -/
def pairMarked (f : Frame) (slot : Nat) (d : Dev) : Pair :=
  let p := packetOf d slot f
  let g := getGroup d slot
  markPsn p (pairEpoch g p.src p.epoch (getPair g p.src))

/-- The packet is marked in the replay window of its pair, and a reliable payload is drained (R239). -/
def packetMarked (f : Frame) (slot : Nat) (d : Dev) : Dev :=
  let p := packetOf d slot f
  movedOn slot p.src (getPair (getGroup d slot) p.src).epoch
    (setPair slot p.src (fun _ => markPayload false p (pairMarked f slot d)) d)

/-- The packet is marked, and its payload waits in the pair's staging (R240). -/
def packetStaged (f : Frame) (slot : Nat) (d : Dev) : Dev :=
  let p := packetOf d slot f
  movedOn slot p.src (getPair (getGroup d slot) p.src).epoch
    (setPair slot p.src (fun _ => markPayload true p (pairMarked f slot d)) d)

/-- The payload fits into the pair's staging (R240). -/
def stagingFits (f : Frame) (slot : Nat) (d : Dev) : Bool :=
  let p := packetOf d slot f
  let g := getGroup d slot
  (pairEpoch g p.src p.epoch (getPair g p.src)).staged + pktUnits p ≤ g.creditInit

/-- An ACK goes out with the eighth packet that owes one (R239). -/
def ackSoon (slot m : Nat) (d : Dev) : Dev :=
  if (getPair (getGroup d slot) m).toAck ≥ 8 ∧ (getGroup d slot).failed.isNone then sendAck slot m d else d

/-! ## Encodings of management commands (R226, R227) -/

/-- Every operand of a management command fits into the bytes that its encoding gives it. -/
def mgmtFits : MgmtCmd → Bool
  | .ctxCreate c _ nf => c < 256 && nf < 65536
  | .ctxStart c => c < 256
  | .ctxStop c p => c < 256 && p < 256
  | .ctxDestroy c => c < 256
  | .queueBind a => a.queue < 256 && a.ctx < 256 && a.loc < 256 && a.n < 256 && a.m < 256 && a.inFlightMax < 256 &&
      a.cmdBase < 2 ^ 64 && a.cplBase < 2 ^ 64
  | .queueUnbind q => q < 256
  | .regionSet c i _ _ => c < 256 && i < 65536
  | .regionClear c i => c < 256 && i < 65536
  | .objConfig a => a.obj < 65536 && a.owner < 256 && a.producerOctant < 8 && a.producerQueue < 256 && a.deadline < 65536
  | .objFree n => n < 65536
  | .imageRegister a => a.ctx < 256 && a.slot < 256 && a.mask < 65536 && a.offset < 2 ^ 32 && a.length < 2 ^ 32
  | .imageRelease c k => c < 256 && k < 256

/-! ## A device that does not run (R348, R367, R374, R406) -/

/-- The device is unpowered, in lockdown, or tripped. -/
def stopped (d : Dev) : Bool := d.pkg.phase == .unpowered || d.pkg.phase == .lockdown || d.pkg.phase == .tripped

/-- No slot and no copy holds a key. -/
def holdsNoKey (d : Dev) : Bool :=
  d.ret.domKey == [] && d.ret.treeKey == [] && d.ret.cdi0 == 0 && d.ret.dumpKey == 0 &&
  d.ptr.dieKeys == [] && d.ptr.cdi1 == 0 && d.ptr.jobKeys == [] && d.ptr.sess == [] && linkKeysGone d

/-! ## Fault records (R354, R356) -/

/-- A fault record as it is numbered and stamped. -/
def stamped (r : FaultRec) (boundary : Bool) (d : Dev) : FaultRec :=
  { r with seq := d.ret.recSeq, tick := d.tck.count, offsetNs := if boundary then 0 else offsetNs d }

/-- The copy of a record in a VF's ring: OFFSET_NS reads 0 there unless fine timing is on. -/
def vfCopy (r : FaultRec) (d : Dev) : FaultRec := if d.pwr.fine then r else { r with offsetNs := 0 }

/-- A function's vector has sent its message of this tick, or holds one pending (R388, R389). -/
def interrupted (fn vector : Nat) (d : Dev) : Bool :=
  d.pkg.msixSent.contains (fn, vector) || d.pkg.msixPend.contains (fn, vector)

end Sys2Proof.Machine
end

