-- ==== Sys2Proof/Certificates/Slice0/Obligations.lean ====
section
/-!
DEFINITION. The statements for the provers. Each says what the model's step or a command does, with the rules of spec/ that it
rests on; where a clause rests on a choice of the model, the log entry is named.
-/

open Sys2Proof Sys2Proof.Machine

/-! ## The queue of commands -/

/-- A step runs the command at the front of the queue on the state with the queue's rest. On an empty queue one arithmetic clock
of the present mode passes on the time base, and nothing else changes. The queue, and what an empty one does, are the model's
choice (log 1). -/
def Obligations.StepRunsTheFrontCommand : Prop :=
  (∀ (c : Instr) (rest : List Instr) (s : State), s.pending = c :: rest → step s = exec c { s with pending := rest }) ∧
  (∀ s : State, s.pending = [] →
    step s = .next { s with dev := { s.dev with tck := { s.dev.tck with
      now := s.dev.tck.now + clockUnits s.dev.pwr.mode } } })

/-! ## Bring-up and readiness (13, 15) -/

/-- POWER_ON_BOOT with a self-test that passes, of an unpowered device with SYSCLK_25M present whose lifecycle copies agree
below SCRAPPED. When the image of the slot that the pointer block selects is acceptable, the device is in service with
PWRGD_OUT asserted, configuration space and the mailbox released and GENERATION 1; the running slot and the trial mark are the
selected ones, and the fuses keep. When the images of both slots are unacceptable, the device is in recovery with configuration
space and the mailbox released, and the fuses keep. With a self-test that fails, the device is in lockdown. -/
def Obligations.PowerOnBootRuns : Prop :=
  (∀ (s : State) (slot trial back : Bool) (i : SilImage) (ok : Bool),
    s.dev.pkg.phase = .unpowered → s.dev.pkg.sysclk = true → fuseCheck s.dev.fuse = .agree → lcsCount s.dev.fuse < 4 →
    chooseSlot s.dev.flash = (slot, trial, back) → silCheck s.dev.fuse (slotOf s.dev.flash slot) = .ok (i, ok) →
    ∃ t, exec (.powerOnBoot .pass) s = .next t ∧ t.pending = s.pending ∧ t.dev.pkg.phase = .running ∧
      t.dev.pkg.pwrgdOut = true ∧ t.dev.pkg.config = true ∧ t.dev.pkg.mailbox = true ∧ t.dev.ret.generation = 1 ∧
      t.dev.ptr.slot = slot ∧ t.dev.ptr.trial = trial ∧ t.dev.fuse = s.dev.fuse) ∧
  (∀ (s : State) (slot trial back : Bool) (r1 r2 : Reason),
    s.dev.pkg.phase = .unpowered → s.dev.pkg.sysclk = true → fuseCheck s.dev.fuse = .agree → lcsCount s.dev.fuse < 4 →
    chooseSlot s.dev.flash = (slot, trial, back) → silCheck s.dev.fuse (slotOf s.dev.flash slot) = .error r1 →
    silCheck s.dev.fuse (slotOf s.dev.flash (!slot)) = .error r2 →
    ∃ t, exec (.powerOnBoot .pass) s = .next t ∧ t.pending = s.pending ∧ t.dev.pkg.phase = .recovery ∧
      t.dev.pkg.config = true ∧ t.dev.pkg.mailbox = true ∧ t.dev.fuse = s.dev.fuse) ∧
  (∀ s : State, s.dev.pkg.phase = .unpowered → s.dev.pkg.sysclk = true →
    ∃ t, exec (.powerOnBoot .fail) s = .next t ∧ t.pending = s.pending ∧ t.dev.pkg.phase = .lockdown)

/-- STACK_READY sets the READY bit of a stack that is neither ready nor failed and whose Casement check passes, enables its
engine and makes its root valid; the bytes of the other stacks keep. OCTANT_READY sets it of an octant that is neither ready nor
failed, whose stack is ready and whose Shutter entry is CLEAN, and PORT_READY of a port that is neither ready nor failed; HBM
keeps. Each of the three leaves the other two READY fields and the three FAILED fields as they were.
The third STACK_TRAINING_FAIL of a stack sets STACK_FAILED of it and OCTANT_FAILED of its octant, an earlier one is only
counted, and PORT_CALIBRATION_FAIL sets PORT_FAILED. A failure that is recorded takes the next record number. -/
def Obligations.ReadinessIsMarked : Prop :=
  (∀ (k : Fin 8) (s : State), live s.dev = true → has8 s.dev.pkg.stackReady k = false →
    has8 s.dev.pkg.stackFailed k = false → casCheck s.dev k = none →
    ∃ t, exec (.stackReady k) s = .next t ∧ t.pending = s.pending ∧
      t.dev.pkg.stackReady = set8 s.dev.pkg.stackReady k ∧ t.dev.pkg.octReady = s.dev.pkg.octReady ∧
      t.dev.pkg.portReady = s.dev.pkg.portReady ∧ t.dev.pkg.stackFailed = s.dev.pkg.stackFailed ∧
      t.dev.pkg.octFailed = s.dev.pkg.octFailed ∧ t.dev.pkg.portFailed = s.dev.pkg.portFailed ∧
      (getBlk t.dev (blkBase (.cas k))).enable = true ∧ (getStack t.dev k).rootValid = true ∧
      ∀ pa : Nat, pa / 2 ^ 37 ≠ k.val → readByte t.dev.hbm pa = readByte s.dev.hbm pa) ∧
  (∀ (o : Fin 8) (s : State), live s.dev = true → has8 s.dev.pkg.octReady o = false → has8 s.dev.pkg.octFailed o = false →
    has8 s.dev.pkg.stackReady o = true → (getSht s.dev o).state = .clean →
    ∃ t, exec (.octantReady o) s = .next t ∧ t.pending = s.pending ∧
      t.dev.pkg.octReady = set8 s.dev.pkg.octReady o ∧ t.dev.pkg.stackReady = s.dev.pkg.stackReady ∧
      t.dev.pkg.portReady = s.dev.pkg.portReady ∧ t.dev.pkg.octFailed = s.dev.pkg.octFailed ∧
      t.dev.pkg.stackFailed = s.dev.pkg.stackFailed ∧ t.dev.pkg.portFailed = s.dev.pkg.portFailed ∧
      t.dev.hbm = s.dev.hbm) ∧
  (∀ (p : Fin 8) (s : State), live s.dev = true → has8 s.dev.pkg.portReady p = false →
    has8 s.dev.pkg.portFailed p = false →
    ∃ t, exec (.portReady p) s = .next t ∧ t.pending = s.pending ∧
      t.dev.pkg.portReady = set8 s.dev.pkg.portReady p ∧ t.dev.pkg.stackReady = s.dev.pkg.stackReady ∧
      t.dev.pkg.octReady = s.dev.pkg.octReady ∧ t.dev.pkg.portFailed = s.dev.pkg.portFailed ∧
      t.dev.pkg.stackFailed = s.dev.pkg.stackFailed ∧ t.dev.pkg.octFailed = s.dev.pkg.octFailed ∧
      t.dev.hbm = s.dev.hbm) ∧
  (∀ (k : Fin 8) (s : State), live s.dev = true → has8 s.dev.pkg.stackReady k = false →
    has8 s.dev.pkg.stackFailed k = false → 2 ≤ look 0 k s.dev.pkg.trainFails →
    ∃ t, exec (.stackTrainingFail k) s = .next t ∧ t.pending = s.pending ∧
      t.dev.pkg.stackFailed = set8 s.dev.pkg.stackFailed k ∧ t.dev.pkg.octFailed = set8 s.dev.pkg.octFailed k ∧
      t.dev.pkg.stackReady = s.dev.pkg.stackReady ∧ t.dev.ret.recSeq = (s.dev.ret.recSeq + 1) % 2 ^ 32) ∧
  (∀ (k : Fin 8) (s : State), live s.dev = true → has8 s.dev.pkg.stackReady k = false →
    has8 s.dev.pkg.stackFailed k = false → look 0 k s.dev.pkg.trainFails < 2 →
    exec (.stackTrainingFail k) s = .next { s with dev := { s.dev with pkg := { s.dev.pkg with
      trainFails := put 0 k (look 0 k s.dev.pkg.trainFails + 1) s.dev.pkg.trainFails } } }) ∧
  (∀ (p : Fin 8) (s : State), live s.dev = true → has8 s.dev.pkg.portReady p = false →
    has8 s.dev.pkg.portFailed p = false →
    ∃ t, exec (.portCalibrationFail p) s = .next t ∧ t.pending = s.pending ∧
      t.dev.pkg.portFailed = set8 s.dev.pkg.portFailed p ∧ t.dev.pkg.portReady = s.dev.pkg.portReady ∧
      t.dev.ret.recSeq = (s.dev.ret.recSeq + 1) % 2 ^ 32)

/-- TRIAL_CONFIRM on a trial boot with every READY bit set and no pointer switch in progress starts the pointer write, and
nothing else changes. SLOT_POINTER_SWITCH_COMPLETE of that write, with a pointer block that reads, clears TRIAL, writes the
running slot to the block with the previous slot that it named, and raises the SVN fuses to the image's SVN when the image asks
for it. PERIODIC_SELF_TEST that passes, and LIFECYCLE_FUSE_CHECK of copies that agree, change nothing; an advance that was
interrupted is completed in every copy; a failed self-test is lockdown. -/
def Obligations.PorterChecksRun : Prop :=
  (∀ s : State, live s.dev = true → s.dev.ptr.trial = true → allReady s.dev = true → s.dev.ptr.stg.switching = none →
    exec .trialConfirm s = .next { s with dev := { s.dev with ptr := { s.dev.ptr with
      stg := { s.dev.ptr.stg with switching := some .confirm } } } }) ∧
  (∀ (s : State) (p : PtrCopy), live s.dev = true → s.dev.ptr.stg.switching = some .confirm →
    ptrNow s.dev.flash = some p →
    ∃ t, exec .slotPointerSwitchComplete s = .next t ∧ t.pending = s.pending ∧ t.dev.ptr.trial = false ∧
      t.dev.ptr.stg.switching = none ∧ t.dev.flash = writePtr s.dev.ptr.slot false p.previous s.dev.flash ∧
      t.dev.fuse = { s.dev.fuse with svn := match s.dev.ptr.raiseSvn with
        | some n => max s.dev.fuse.svn n
        | none => s.dev.fuse.svn }) ∧
  (∀ s : State, live s.dev = true → exec (.periodicSelfTest .pass) s = .next s) ∧
  (∀ s : State, live s.dev = true →
    ∃ t, exec (.periodicSelfTest .fail) s = .next t ∧ t.pending = s.pending ∧ t.dev.pkg.phase = .lockdown) ∧
  (∀ s : State, live s.dev = true → fuseCheck s.dev.fuse = .agree → exec .lifecycleFuseCheck s = .next s) ∧
  (∀ (s : State) (n : Nat), live s.dev = true → fuseCheck s.dev.fuse = .interrupted n →
    exec .lifecycleFuseCheck s =
      .next { s with dev := tracked (fun d => { d with fuse := blowTo n d.fuse }) s.dev })

/-! ## The host link and the board's signals (15, 16) -/

/-- PWRGD_FALL of a powered device: it is unpowered, and what is left is the fuses, the flash, the two signals of the board that
stay as they are, the random source's count, and what was sent before. PERST_ASSERT in service with no L3 waiting and AUTO
clear asserts PERST_N and resets the chip by L3. PERST_RELEASE releases PERST_N, and the link trains where configuration space
is released. PCIE_LINK_RETRAIN to a rate and a width of R382 sets them and counts.
A DL_Down in a device out of service, or without a partition, a command and a Rally step: the link is down, every function's Bus
Master and Memory Space Enable, VF Enable and NumVFs are clear, and no mailbox request is in progress. HOST_DL_DOWN in service:
configuration state resets, every session ends, the mailbox request is aborted, and the L2 of each partition follows with
HOST_STALL. PCIE_REFCLK_LOSS of more than 10 µs acts as HOST_DL_DOWN, and a shorter loss changes nothing. -/
def Obligations.PowerAndLinkSignalsAct : Prop :=
  (∀ s : State, s.dev.pkg.pwrgd = true →
    exec .pwrgdFall s = .next { s with dev := { Dev.reset with
      fuse := s.dev.fuse, flash := s.dev.flash, ret := { Retention.reset with rng := s.dev.ret.rng }
      pkg := { Pkg.reset with sysclk := s.dev.pkg.sysclk, perst := s.dev.pkg.perst }
      out := s.dev.out, free := s.dev.free } }) ∧
  (∀ (r : CheckResult) (s : State), s.dev.pkg.perst = false → live s.dev = true → s.dev.ump.l3Wait = none →
    s.dev.ump.auto = false →
    exec (.perstAssert r) s =
      .next { s with dev := l3Run r { s.dev with pkg := { s.dev.pkg with perst := true } } }) ∧
  (∀ s : State, s.dev.pkg.config = true → s.dev.pkg.dlUp = false →
    ∃ t, exec .perstRelease s = .next t ∧ t.pending = s.pending ∧ t.dev.pkg.perst = false ∧ t.dev.pkg.dlUp = true) ∧
  (∀ s : State, s.dev.pkg.config = false →
    exec .perstRelease s = .next { s with dev := { s.dev with pkg := { s.dev.pkg with perst := false } } }) ∧
  (∀ (speed width : Nat) (s : State), s.dev.pkg.perst = false → s.dev.pkg.config = true → 4 ≤ speed → speed ≤ 7 →
    width ∈ [4, 8, 16] →
    exec (.pcieLinkRetrain speed width) s = .next { s with dev := { s.dev with pkg := { s.dev.pkg with
      dlUp := true, linkTrained := true, speed := speed, width := width
      retrains := (s.dev.pkg.retrains + 1) % 65536 } } }) ∧
  (∀ s : State, s.dev.pkg.dlUp = true →
    (live s.dev = false ∨ (partsLive s.dev = [] ∧ s.dev.cmds = [] ∧ s.dev.steps = [])) →
    ∃ t, exec .hostDlDown s = .next t ∧ t.pending = s.pending ∧ t.dev.pkg.dlUp = false ∧ t.dev.pkg.busMaster = [] ∧
      t.dev.pkg.memSpace = [] ∧ t.dev.pkg.vfEnable = false ∧ t.dev.pkg.numVfs = 0 ∧ t.dev.ptr.busy = false ∧
      t.dev.pkg.phase = s.dev.pkg.phase ∧ t.dev.hbm = s.dev.hbm) ∧
  (∀ s : State, s.dev.pkg.dlUp = true → live s.dev = true →
    exec .hostDlDown s = .next { s with dev := settle ((List.range 8).foldl (fun d v => l2ByHost v .hostStall d)
      (abortMailbox ((List.range 9).foldl (fun d i => endSessions (fnOf i) d)
        (resetConfig { s.dev with pkg := { s.dev.pkg with dlUp := false, speed := 0, width := 0 } })))) }) ∧
  (∀ (ns : Nat) (s : State), s.dev.pkg.dlUp = true → 10000 < ns → exec (.pcieRefclkLoss ns) s = exec .hostDlDown s) ∧
  (∀ (ns : Nat) (s : State), ns ≤ 10000 → exec (.pcieRefclkLoss ns) s = .next s)

/-- Of functions that are present. VF_FLR clears the VF's Bus Master and Memory Space Enable, its pending vectors and its
vector table; of a VF whose partition is not in force that is all, and of one whose partition is, in service, the L2 of the
partition follows (log 39 names its reason). PF_FLR clears the PF's two enables, ends its sessions, and marks the
answer of a mailbox request in progress as discarded; where no dump export runs, it leaves none of the PF's vectors pending. CONFIG_SPACE_WRITE of Bus Master or Memory Space Enable of any
function, and of VF Enable and NumVFs of the PF, sets that field and nothing else. -/
def Obligations.FunctionResetsAct : Prop :=
  (∀ (v : Fin 8) (s : State), fnPresent s.dev (.vf v) = true → (getPart s.dev v).live = false →
    exec (.vfFlr v) s = .next { s with dev := { s.dev with pkg := { s.dev.pkg with
      busMaster := put false (1 + v.val) false s.dev.pkg.busMaster, memSpace := put false (1 + v.val) false s.dev.pkg.memSpace
      msixPend := s.dev.pkg.msixPend.filter fun e => e.1 != 1 + v.val
      msixTab := dropRange (256 * (1 + v.val)) (256 * (1 + v.val) + 256) s.dev.pkg.msixTab } } }) ∧
  (∀ (v : Fin 8) (s : State), fnPresent s.dev (.vf v) = true → live s.dev = true → (getPart s.dev v).live = true →
    exec (.vfFlr v) s = .next { s with dev := settle (l2Unnamed v (resetFn (.vf v) s.dev)) }) ∧
  (∀ s : State, fnPresent s.dev .pf = true →
    ∃ t, exec .pfFlr s = .next t ∧ t.pending = s.pending ∧ t.dev.ptr.discard = s.dev.ptr.busy ∧
      look false 0 t.dev.pkg.busMaster = false ∧ look false 0 t.dev.pkg.memSpace = false ∧
      (s.dev.ump.dumpState ≠ 3 → ∀ e ∈ t.dev.pkg.msixPend, e.1 ≠ 0) ∧
      (∀ k, k < 16 → look none k t.dev.ptr.sess = none)) ∧
  (∀ (f : Fn) (v : Nat) (s : State), fnPresent s.dev f = true →
    exec (.configSpaceWrite f .busMaster v) s = .next { s with dev := { s.dev with pkg := { s.dev.pkg with
      busMaster := put false (fnIx f) (bitAt v 0) s.dev.pkg.busMaster } } } ∧
    exec (.configSpaceWrite f .memSpace v) s = .next { s with dev := { s.dev with pkg := { s.dev.pkg with
      memSpace := put false (fnIx f) (bitAt v 0) s.dev.pkg.memSpace } } }) ∧
  (∀ (v : Nat) (s : State), fnPresent s.dev .pf = true →
    exec (.configSpaceWrite .pf .vfEnable v) s = .next { s with dev := { s.dev with pkg := { s.dev.pkg with
      vfEnable := bitAt v 0 } } } ∧
    exec (.configSpaceWrite .pf .numVfs v) s = .next { s with dev := { s.dev with pkg := { s.dev.pkg with
      numVfs := v % 65536 } } })

/-- MSIX_PENDING_SEND of a pending vector that is not masked and has sent no message in this tick, with the link up, sends one
message, with the address and the data of its table entry, and marks it sent. PCI_QVEC_WRITE of a vector from 3 to 223 by a
function that may use the octant stores the queue's vector and its enable. SYSCLK_LOSS of 1 µs or more in a powered device sets
REFLOST and two causes of SMB_ALERT_N; SYSCLK_RESTORE with 1 ms of stability while REFLOST is set marks the clock as returned. -/
def Obligations.VectorsAndClocksAct : Prop :=
  (∀ (f : Fn) (n : Nat) (s : State), s.dev.pkg.dlUp = true → (fnIx f, n) ∈ s.dev.pkg.msixPend →
    (fnIx f, n) ∉ s.dev.pkg.msixSent → (msixEnt s.dev (fnIx f) n).masked = false →
    exec (.msixPendingSend f n) s = .next { s with dev := { s.dev with
      out := .msix (fnIx f) n (msixEnt s.dev (fnIx f) n).addr (msixEnt s.dev (fnIx f) n).data :: s.dev.out
      pkg := { s.dev.pkg with
        msixPend := s.dev.pkg.msixPend.filter (· != (fnIx f, n))
        msixSent := (fnIx f, n) :: s.dev.pkg.msixSent } } }) ∧
  (∀ (f : Fn) (o : Fin 8) (q : Fin 32) (v : Nat) (en : Bool) (s : State), barAnswers s.dev f = true →
    mayUseOctant s.dev f o = true → 3 ≤ v → v ≤ 223 →
    exec (.pciQvecWrite f o q v en) s = .next { s with dev := { s.dev with pkg := { s.dev.pkg with
      qvec := put (0, false) (32 * o.val + q.val) (v, en) s.dev.pkg.qvec } } }) ∧
  (∀ (ns : Nat) (s : State), 1000 ≤ ns → s.dev.pkg.phase ≠ .unpowered → s.dev.pwr.refLost = false →
    exec (.sysclkLoss ns) s = .next { s with dev := { s.dev with
      pkg := { s.dev.pkg with sysclk := false, sysclkBack := false }
      pwr := { s.dev.pwr with refLost := true }
      ump := { s.dev.ump with alert := s.dev.ump.alert ||| 0x10 ||| 0x1 } } }) ∧
  (∀ (ns : Nat) (s : State), 1000000 ≤ ns → s.dev.pwr.refLost = true →
    exec (.sysclkRestore ns) s = .next { s with dev := { s.dev with
      pkg := { s.dev.pkg with sysclk := true, sysclkBack := true } } })

/-! ## Power modes, telemetry and temperature (01, 16) -/

/-- A power-mode change in the steps of R24 and R400. POWER_MODE, and GLB_MODE.REQ of the PF in host-managed mode with no switch
in progress, for another mode that passes R23's checks: the target is accepted and the switch interval opens. MODE_SWITCH_START:
the accepted target is the live mode, the ramp begins with V_CORE at the higher of the two voltages, and the plans of another
mode are withdrawn. MODE_SWITCH_COMPLETE of a ramp: MODE names the live mode, V_CORE is its voltage, and SWITCHING reads 0 unless a
further request has been accepted. MODE_SWITCH_REVERT of a ramp: the old mode is the live mode again, RAIL_FAULT is set, and
PWR_STATUS says NOT_READY. -/
def Obligations.PowerModeChangeSteps : Prop :=
  (∀ (seq : Word) (target : Nat) (m : PowerMode) (s : State), mailboxOpen s.dev = true →
    modeCheck s.dev target = .ok (some m) →
    exec (.powerMode seq target) s = .next { s with dev := mboxEnd .ok [] { mboxTake 0x11 seq (natLe 1 target) s.dev with
      pwr := { s.dev.pwr with accepted := some m, switching := true } } }) ∧
  (∀ (target : Nat) (m : PowerMode) (s : State), barAnswers s.dev .pf = true → s.dev.ptr.hostManaged = true →
    s.dev.pwr.switching = false → modeCheck s.dev target = .ok (some m) →
    exec (.glbModeReq .pf target) s = .next { s with dev := { s.dev with
      pwr := { s.dev.pwr with accepted := some m, switching := true, reqReason := .ok } } }) ∧
  (∀ (m : PowerMode) (s : State), live s.dev = true → s.dev.pwr.accepted = some m →
    exec .modeSwitchStart s = .next { s with dev := (tracked (fun d => withdrawPlans { d with pwr := { d.pwr with
      live := m, accepted := none, ramping := true,
      vref := if modeMv d.pwr.mode < modeMv m then modeMv m else d.pwr.vref } }) s.dev) }) ∧
  (∀ s : State, live s.dev = true → s.dev.pwr.ramping = true →
    exec .modeSwitchComplete s = .next { s with dev := alert 0 (setStatus 0x20000 none { s.dev with pwr := { s.dev.pwr with
      mode := s.dev.pwr.live, switching := s.dev.pwr.accepted.isSome, ramping := false, vref := modeMv s.dev.pwr.live } }) }) ∧
  (∀ s : State, live s.dev = true → s.dev.pwr.ramping = true →
    exec .modeSwitchRevert s = .next { s with dev := (tracked (fun d => alert 7 (setStatus 0x20000 (some (.notReady, 0))
      { d with pwr := { d.pwr with
        live := d.pwr.mode, switching := d.pwr.accepted.isSome, ramping := false, vref := modeMv d.pwr.mode
        railFault := true, reverted := true } })) s.dev) })

/-- DRIFT_CHECK keeps the difference of the two powers. One of at most 3 % of the live mode's envelope clears the count; a larger
one counts; and the third in a row sets DRIFT and two causes of SMB_ALERT_N. STATIC_CALIBRATION while no context runs starts the
calibration; CALIBRATION_COMPLETE, with no start of a context due, stores the static power and the tick, and clears the drift
count. -/
def Obligations.DriftAndCalibrationAct : Prop :=
  (∀ (est meas : Nat) (s : State), live s.dev = true →
    100 * ((est : Int) - meas).natAbs ≤ 3 * envelope s.dev.pwr.live →
    exec (.driftCheck est meas) s = .next { s with dev := { s.dev with
      pwr := { s.dev.pwr with diff := (est : Int) - meas, driftCount := 0 } } }) ∧
  (∀ (est meas : Nat) (s : State), live s.dev = true →
    3 * envelope s.dev.pwr.live < 100 * ((est : Int) - meas).natAbs → s.dev.pwr.driftCount < 2 →
    exec (.driftCheck est meas) s = .next { s with dev := { s.dev with
      pwr := { s.dev.pwr with diff := (est : Int) - meas, driftCount := s.dev.pwr.driftCount + 1 } } }) ∧
  (∀ (est meas : Nat) (s : State), live s.dev = true →
    3 * envelope s.dev.pwr.live < 100 * ((est : Int) - meas).natAbs → 2 ≤ s.dev.pwr.driftCount →
    s.dev.pwr.drift = false →
    exec (.driftCheck est meas) s = .next { s with dev := alert 0 (alert 3 { s.dev with
      pwr := { s.dev.pwr with diff := (est : Int) - meas, driftCount := 3, drift := true } }) }) ∧
  (∀ s : State, live s.dev = true → noneRunning s.dev = true →
    exec .staticCalibration s = .next { s with dev := { s.dev with pwr := { s.dev.pwr with calibrating := true } } }) ∧
  (∀ (measured dynamic : Nat) (s : State), live s.dev = true → s.dev.pwr.calibrating = true → s.dev.pwr.drift = false →
    (∀ o c, (getSeq s.dev o).mgmt ≠ .start c true) →
    exec (.calibrationComplete measured dynamic) s = .next { s with dev := settle { s.dev with pwr := { s.dev.pwr with
      static := measured - dynamic, calTick := s.dev.tck.count % 2 ^ 30, drift := false, driftCount := 0,
      calibrating := false } } })

/-- THERMAL_SAMPLE whose hottest junction is below 115 °C, a stack's reading counting 10 °C more, stores every sensor's reading
and raises the hottest junction of the tick and of the Louvre interval to it; nothing else but the number of the hottest sensor
changes. One of 115 °C or more, and COMPARATOR_TRIP, of a powered device not yet tripped, is a thermal trip: THERMTRIP_N and HALT_N
assert, the cause of the cycle is kept, the domain and tree keys are gone and Porter's keys zeroed, and the PF's fault ring keeps.
The sensor that TRIP_SENSOR names after a comparator trip is free (log 26). -/
def Obligations.TemperatureTripsTheDevice : Prop :=
  (∀ (readings : List Int) (i : Nat) (t : Int) (s : State), s.dev.pkg.phase ≠ .unpowered →
    hottestOf 0 readings = some (i, t) → t < 460 →
    ∃ u, exec (.thermalSample readings) s = .next u ∧ u.pending = s.pending ∧
      u.dev.tck.hottest = maxOpt s.dev.tck.hottest t ∧
      (∀ j x, readings[j]? = some x → look none j u.dev.pwr.sensors = some x) ∧
      u.dev = { s.dev with tck := { s.dev.tck with hottest := u.dev.tck.hottest }, pwr := { s.dev.pwr with
        sensors := u.dev.pwr.sensors, hotNow := u.dev.pwr.hotNow, lvHot := maxOpt s.dev.pwr.lvHot t } }) ∧
  (∀ (readings : List Int) (i : Nat) (t : Int) (s : State), s.dev.pkg.phase ≠ .unpowered →
    hottestOf 0 readings = some (i, t) → 460 ≤ t → s.dev.pkg.thermtrip = false →
    ∃ u, exec (.thermalSample readings) s = .next u ∧ u.pending = s.pending ∧ u.dev.pkg.phase = .tripped ∧
      u.dev.pkg.thermtrip = true ∧ u.dev.pkg.halt = true ∧ u.dev.ump.cycleCause = 4 ∧ u.dev.ump.tripSensor = i ∧
      u.dev.ptr.keysZeroed = true ∧ u.dev.ret.domKey = [] ∧ u.dev.ret.treeKey = [] ∧ u.dev.ret.pfRing = s.dev.ret.pfRing) ∧
  (∀ (die : Fin 3) (s : State), s.dev.pkg.phase ≠ .unpowered → s.dev.pkg.thermtrip = false →
    ∃ u, exec (.comparatorTrip die) s = .next u ∧ u.pending = s.pending ∧ u.dev.pkg.phase = .tripped ∧
      u.dev.pkg.thermtrip = true ∧ u.dev.pkg.halt = true ∧ u.dev.ump.cycleCause = 4 ∧ u.dev.ump.tripTemp = 125 ∧
      u.dev.ptr.keysZeroed = true ∧ u.dev.ret.domKey = [] ∧ u.dev.ret.treeKey = [] ∧ u.dev.ret.pfRing = s.dev.ret.pfRing)

/-! ## Configuration timing (02) -/

/-- A write of 1 to ENABLE, by the PF where it may, of a block other than the debug block whose ENABLE software sets and reads 0:
when the block's check passes ENABLE reads 1 and STATUS OK, and when it fails ENABLE stays 0 and STATUS names the reason and the
field. A write of 0 while ENABLE reads 1: with nothing in flight ENABLE reads 0 at once, and otherwise the block is marked as
stopping. BLOCK_DISABLE_COMPLETE of a stopping block with nothing in flight clears ENABLE. A disable leaves APPLY as it was. -/
def Obligations.BlockEnableAndDisable : Prop :=
  (∀ (b : Block) (s : State), barAnswers s.dev .pf = true → enableRo b = false → b ≠ .dbg →
    enableDenied s.dev .pf b = none → (getBlk s.dev (blkBase b)).enable = false → blockCheck s.dev b false = none →
    exec (.blockEnable .pf b) s = .next { s with dev := (onBar (tracked fun d =>
      setStatus (blkBase b) none (setBlk (blkBase b) (fun x => { x with enable := true }) d)) s.dev) }) ∧
  (∀ (b : Block) (r : Reason) (i : Nat) (s : State), barAnswers s.dev .pf = true → enableRo b = false → b ≠ .dbg →
    enableDenied s.dev .pf b = none → (getBlk s.dev (blkBase b)).enable = false →
    blockCheck s.dev b false = some (r, i) →
    exec (.blockEnable .pf b) s = .next { s with dev := (onBar (tracked fun d =>
      setStatus (blkBase b) (some (r, i)) (setBlk (blkBase b) (fun x => { x with enable := false }) d)) s.dev) }) ∧
  (∀ (b : Block) (s : State), barAnswers s.dev .pf = true → enableRo b = false → b ≠ .dbg →
    enableDenied s.dev .pf b = none → (getBlk s.dev (blkBase b)).enable = true → blockItems s.dev b = 0 →
    exec (.blockDisable .pf b) s = .next { s with dev := (tracked (fun d =>
      setBlk (blkBase b) (fun x => { x with enable := false, stopping := false })
        (setBlk (blkBase b) (fun x => { x with stopping := true }) d)) s.dev) }) ∧
  (∀ (b : Block) (s : State), barAnswers s.dev .pf = true → enableRo b = false → b ≠ .dbg →
    enableDenied s.dev .pf b = none → (getBlk s.dev (blkBase b)).enable = true → blockItems s.dev b ≠ 0 →
    exec (.blockDisable .pf b) s = .next { s with dev := (tracked (setBlk (blkBase b) fun x =>
      { x with stopping := true }) s.dev) }) ∧
  (∀ (b : Block) (s : State), live s.dev = true → (getBlk s.dev (blkBase b)).stopping = true → blockItems s.dev b = 0 →
    exec (.blockDisableComplete b) s = .next { s with dev := (setBlk (blkBase b) (fun x =>
      { x with enable := false, stopping := false }) s.dev) })

/-- A write of 1 to APPLY by the PF, where it reads 0, sets it while ENABLE reads 1, and while ENABLE reads 0 leaves it 0 with
STATUS OK; a write of 0 to a pending APPLY clears it with STATUS OK. APPLY_COPY of a block other than SEQ whose APPLY is pending
and below whose base none pends clears APPLY: when the sealed shadow passes the check, it becomes the live set with STATUS OK;
when it fails, the live set stays and STATUS names the failure. The live set of UMP, of a Relay engine pair and of a cluster is
then the shadow. -/
def Obligations.ApplyTakesTheShadow : Prop :=
  (∀ (b : Block) (s : State), barAnswers s.dev .pf = true → b ≠ .dbg → (getBlk s.dev (blkBase b)).apply = false →
    (getBlk s.dev (blkBase b)).enable = true →
    exec (.applyRequest .pf b) s = .next { s with dev := (tracked (setBlk (blkBase b) fun x =>
      { x with apply := true }) s.dev) }) ∧
  (∀ (b : Block) (s : State), barAnswers s.dev .pf = true → b ≠ .dbg → (getBlk s.dev (blkBase b)).apply = false →
    (getBlk s.dev (blkBase b)).enable = false →
    exec (.applyRequest .pf b) s = .next { s with dev := (tracked (fun d =>
      setStatus (blkBase b) none (setBlk (blkBase b) (fun x => { x with apply := false }) d)) s.dev) }) ∧
  (∀ (b : Block) (s : State), barAnswers s.dev .pf = true → b ≠ .dbg → (getBlk s.dev (blkBase b)).apply = true →
    exec (.applyWithdraw .pf b) s = .next { s with dev := (tracked (fun d =>
      setStatus (blkBase b) none (setBlk (blkBase b) (fun x => { x with apply := false }) d)) s.dev) }) ∧
  (∀ (b : Block) (s : State), live s.dev = true → (∀ o, b ≠ .seq o) → (getBlk s.dev (blkBase b)).apply = true →
    earlierPending s.dev (blkBase b) = false → blockCheck s.dev b true = none →
    exec (.applyCopy b) s = .next { s with dev := (tracked (fun d => applyLive b
      (setStatus (blkBase b) none (setBlk (blkBase b) (fun x => { x with apply := false }) d))) s.dev) }) ∧
  (∀ (b : Block) (r : Reason) (i : Nat) (s : State), live s.dev = true → (∀ o, b ≠ .seq o) →
    (getBlk s.dev (blkBase b)).apply = true → earlierPending s.dev (blkBase b) = false →
    blockCheck s.dev b true = some (r, i) →
    exec (.applyCopy b) s = .next { s with dev := (tracked (fun d =>
      setStatus (blkBase b) (some (r, i)) (setBlk (blkBase b) (fun x => { x with apply := false }) d)) s.dev) }) ∧
  (∀ d : Dev, (applyLive .ump d).ump.limit.live = d.ump.limit.shadow) ∧
  (∀ (o : Fin 8) (d : Dev), (getRle (applyLive (.rle o) d) o).deadline.live = (getRle d o).deadline.shadow) ∧
  (∀ (o : Fin 8) (c : Fin 9) (d : Dev), (getClu (applyLive (.clu o c) d) o c).limit.live = (getClu d o c).limit.shadow)

/-- TICK_BOUNDARY with the generator enabled: TCK_COUNT counts, the time base's tick starts at the end of the tick that ended, the
hold step follows the hottest junction of that tick, which is then cleared, HELD_LAST says whether that tick was held, and the
tick period keeps; the count of the boundary unmarks every vector that has sent a message.
PLAN_SWAP of a partition in force whose octants all have APPLY pending and whose staged sections all pass: the plan of every
octant is its staged one, not withdrawn and at tick 0 of its cycle. VERSION_FLIP of a partition in force with a flip pending and
without an L2: on each of its octants ACTIVE is exclusive-ored with the pending bits, no flip is pending, and VOTED keeps. -/
def Obligations.BoundariesTakeEffect : Prop :=
  (∀ (env : TickEnv) (s : State), live s.dev = true → (getBlk s.dev 0x10000).enable = true →
    ∃ d, exec (.tickBoundary env) s = .next { s with dev := settle d } ∧ d.tck.count = s.dev.tck.count + 1 ∧
      d.tck.start = s.dev.tck.start + tickUnits s.dev ∧ d.tck.hold = nextHold s.dev.tck.hold s.dev.tck.hottest ∧
      d.tck.hottest = none ∧ (d.tck.heldLast = true ↔ 0 < s.dev.tck.hold) ∧ d.tck.units = s.dev.tck.units) ∧
  (∀ d : Dev, (tickCount d).pkg.msixSent = []) ∧
  (∀ (v : Fin 8) (ev : LineEvent) (rs : List (Nat × Except (Reason × Nat) Plan)) (d : Dev) (s : State), live s.dev = true →
    (getPart s.dev v).live = true → members8 (getPart s.dev v).octants ≠ [] →
    (∀ o ∈ members8 (getPart s.dev v).octants, (getBlk s.dev (seqBase o)).apply = true) →
    sectionChecks v ev (members8 (getPart s.dev v).octants) s.dev = (rs, d) → live d = true →
    (∀ e ∈ rs, ∃ p, e.2 = .ok p) →
    ∃ d', exec (.planSwap v ev) s = .next { s with dev := settle d' } ∧
      ∀ o p, (o, Except.ok p) ∈ rs → (getSeq d' o).withdrawn = false ∧ (getSeq d' o).cycleTick = 0 ∧
        (getSeq d' o).plan = some p) ∧
  (∀ (v : Fin 8) (s : State), live s.dev = true → (getPart s.dev v).live = true → has8 s.dev.ump.l2 v = false →
    (∃ o ∈ members8 (getPart s.dev v).octants, (getSeq s.dev o).pendFlip ≠ 0) →
    ∃ d, exec (.versionFlip v) s = .next { s with dev := settle d } ∧
      ∀ o ∈ members8 (getPart s.dev v).octants,
        (getSeq d o).active = (getSeq s.dev o).active ^^^ (getSeq s.dev o).pendFlip ∧ (getSeq d o).pendFlip = 0 ∧
        (getSeq d o).voted = (getSeq s.dev o).voted)

/-! ## The register map (00, 02, 17) -/

/-- REGISTER_READ by a function whose BARs answer, of a BAR0 word that the function sees outside the debug block. A 64-bit read
returns the word. A 32-bit read of the low half of a 64-bit register returns that half and latches the high half, and one of the
high half returns what is latched and empties the latch. A 64-bit read at an offset that holds no register for the function
returns zero with an entry in the function's drop log. A read in the closed debug block returns zero, is logged LIFECYCLE_DENIED,
and marks the debug block used. A read that no BAR answers is refused. Of BAR2, which offsets from 2^26 on name, a 32-bit read
returns a word of a vector's table entry (its layout is PCIe's, log 53). Nothing else changes. -/
def Obligations.RegisterReadAnswers : Prop :=
  (∀ (f : Fn) (off : Nat) (w : Wd) (s : State), barAnswers s.dev f = true → off < barSpan f → off / 0x10000 ≠ 11 →
    accessOk off 8 = true → sight s.dev f (off / 8 * 8) = .shown w → vacantHalf w off = false → stateClosed s.dev w = false →
    exec (.registerRead f off 8) s = .next { s with dev := { s.dev with
      out := .readData (fnIx f) (BitVec.ofNat 64 (wordValue s.dev f w)) :: s.dev.out } }) ∧
  (∀ (f : Fn) (off : Nat) (w : Wd) (s : State), barAnswers s.dev f = true → off < barSpan f → off / 0x10000 ≠ 11 →
    accessOk off 4 = true → off % 8 = 0 → sight s.dev f off = .shown w → shapeOf w = .whole → stateClosed s.dev w = false →
    exec (.registerRead f off 4) s = .next { s with dev := { s.dev with
      out := .readData (fnIx f) (BitVec.ofNat 64 (wordValue s.dev f w % 2 ^ 32)) :: s.dev.out
      pkg := { s.dev.pkg with
        latch := put none (latchKey f (off + 4)) (some (BitVec.ofNat 32 (wordValue s.dev f w / 2 ^ 32))) s.dev.pkg.latch } } }) ∧
  (∀ (f : Fn) (off : Nat) (w : Wd) (h : Word) (s : State), barAnswers s.dev f = true → off < barSpan f →
    off / 0x10000 ≠ 11 → accessOk off 4 = true → off % 8 = 4 → sight s.dev f (off / 8 * 8) = .shown w →
    shapeOf w = .whole → stateClosed s.dev w = false → look none (latchKey f off) s.dev.pkg.latch = some h →
    exec (.registerRead f off 4) s = .next { s with dev := { s.dev with
      out := .readData (fnIx f) (BitVec.ofNat 64 h.toNat) :: s.dev.out
      pkg := { s.dev.pkg with latch := put none (latchKey f off) none s.dev.pkg.latch } } }) ∧
  (∀ (f : Fn) (off : Nat) (s : State), barAnswers s.dev f = true → off < barSpan f → off / 0x10000 ≠ 11 →
    accessOk off 8 = true → sight s.dev f (off / 8 * 8) = .vacant →
    exec (.registerRead f off 8) s = .next { s with dev := (emit (.readData (fnIx f) 0)
      (dropAccess f .fieldRange off 8 false s.dev)) }) ∧
  (∀ (off n : Nat) (s : State), barAnswers s.dev .pf = true → off / 0x10000 = 11 →
    s.dev.ptr.debugOpen = false →
    exec (.registerRead .pf off n) s = .next { s with dev := (emit (.readData 0 0)
      (dropAccess .pf .lifecycleDenied off n false (tracked debugUsed s.dev))) }) ∧
  (∀ (f : Fn) (off n : Nat) (s : State), barAnswers s.dev f = false →
    exec (.registerRead f off n) s = .next { s with dev := { s.dev with out := .readRefused (fnIx f) :: s.dev.out } }) ∧
  (∀ (f : Fn) (v i : Nat) (s : State), barAnswers s.dev f = true → v < vectorsOf f → i < 4 →
    exec (.registerRead f (bar2Base + (16 * v + 4 * i)) 4) s = .next { s with dev := { s.dev with
      out := .readData (fnIx f) (BitVec.ofNat 64 (msixWord (msixEnt s.dev (fnIx f) v) i)) :: s.dev.out } })

/-- REGISTER_WRITE by a function whose BARs answer, in service, of a BAR0 word that the function sees outside the debug block,
other than UMP_RESET_REQ. When a change is taken and none is refused, writeWord stores the word's image at once; when none is
taken and one is refused, only the function's drop log changes, which names the first refused field and its reason. A write that
no BAR answers has no effect. Of BAR2, a 32-bit write changes its word of a vector's table entry, of a vector with nothing
pending (log 53). -/
def Obligations.RegisterWriteTakes : Prop :=
  (∀ (f : Fn) (off n : Nat) (v : DWord) (w : Wd) (s : State), live s.dev = true → barAnswers s.dev f = true →
    off < barSpan f → off / 0x10000 ≠ 11 → accessOk off n = true → sight s.dev f (off / 8 * 8) = .shown w →
    vacantHalf w off = false → stateClosed s.dev w = false → w ≠ .resetReq →
    taken s.dev { f := f, off := off, n := n, value := v.toNat } w ≠ [] →
    refusedField s.dev { f := f, off := off, n := n, value := v.toNat } w = none →
    exec (.registerWrite f off n v) s = .next { s with dev := (settle (tracked
      (writeWord { f := f, off := off, n := n, value := v.toNat } w
        (imageOf s.dev { f := f, off := off, n := n, value := v.toNat } w)
        (taken s.dev { f := f, off := off, n := n, value := v.toNat } w)) s.dev)) }) ∧
  (∀ (f : Fn) (off n : Nat) (v : DWord) (w : Wd) (pos : Nat) (r : Reason) (s : State), live s.dev = true →
    barAnswers s.dev f = true → off < barSpan f → off / 0x10000 ≠ 11 → accessOk off n = true →
    sight s.dev f (off / 8 * 8) = .shown w → vacantHalf w off = false → stateClosed s.dev w = false → w ≠ .resetReq →
    taken s.dev { f := f, off := off, n := n, value := v.toNat } w = [] →
    refusedField s.dev { f := f, off := off, n := n, value := v.toNat } w = some (pos, r) →
    exec (.registerWrite f off n v) s = .next { s with dev := (settle (tracked
      (dropLog f r (wordField (off / 8 * 8) w pos) off true) s.dev)) }) ∧
  (∀ (f : Fn) (off n : Nat) (v : DWord) (s : State), barAnswers s.dev f = false →
    exec (.registerWrite f off n v) s = .next s) ∧
  (∀ (f : Fn) (v i : Nat) (x : DWord) (s : State), live s.dev = true → barAnswers s.dev f = true → v < vectorsOf f → i < 4 →
    (fnIx f, v) ∉ s.dev.pkg.msixPend →
    exec (.registerWrite f (bar2Base + (16 * v + 4 * i)) 4 x) s = .next { s with dev := (settle { s.dev with
      pkg := { s.dev.pkg with msixTab := (alter MsixEnt.zero (256 * fnIx f + v) (msixPut i (x.toNat % 2 ^ 32))
        s.dev.pkg.msixTab) } }) })

/-! ## Cores (02 to 06) -/

/-- BUNDLE_ISSUE of a core that runs an item, at a clock at which it may issue and at which a stream is ready, issues the
bundle at that stream's pc; a bundle without syllables that names no predicate moves its stream past it and nothing else changes.
LOAD_RETURN at or after a load's earliest clock takes the load off the stream's outstanding ones and writes the scalar register that
it targets, with its label. MMA_COMPLETE writes the accumulator tile and its label and frees the matrix engine. VECTOR_COMPLETE
ends the oldest vector syllable in flight. -/
def Obligations.CoreIssuesAndCompletes : Prop :=
  (∀ (o : Fin 8) (c : Fin 9) (k : Fin 64) (clk item ctx st : Nat) (s : State), live s.dev = true →
    (getCore s.dev (coreNo o c k)).item = some item → (getCore s.dev (coreNo o c k)).ctx = some ctx →
    pickStream s.dev (coreNo o c k) clk = some st → issueClock s.dev (coreNo o c k) clk = true →
    exec (.bundleIssue o c k clk) s = .next { s with dev := issueOn (coreNo o c k) st clk item ctx s.dev }) ∧
  (∀ (n st clk item ctx : Nat) (b : Bundle) (d : Dev), fetchBundle (getCore d n).icache (getStream d n st).pc = some b →
    bits b.header 0 10 = 0 → b.slots = [] → (getStream d n st).pc + b.size < (getCore d n).icache.length →
    issueOn n st clk item ctx d = setStream n st (fun y => { y with
      pc := (getStream d n st).pc + b.size, lastIssue := some clk, busy := y.busy.filter fun e => clk < e.2 }) d) ∧
  (∀ (o : Fin 8) (c : Fin 9) (k : Fin 64) (st : Strm) (index clk r : Nat) (l : LoadOp) (s : State), live s.dev = true →
    (getStream s.dev (coreNo o c k) (strmIx st)).loads[index]? = some l → l.ready ≤ clk → l.target = .reg r →
    exec (.loadReturn o c k st index clk) s = .next { s with dev := (setStream (coreNo o c k) (strmIx st)
      (writeSreg r (BitVec.ofNat 32 (leNat l.bytes)) l.label)
      (setStream (coreNo o c k) (strmIx st) (fun y => { y with loads := y.loads.eraseIdx index }) s.dev)) }) ∧
  (∀ (o : Fin 8) (c : Fin 9) (k : Fin 64) (m : MmaOp) (s : State), live s.dev = true →
    (getCore s.dev (coreNo o c k)).mma = some m →
    exec (.mmaComplete o c k) s = .next { s with dev := (setCore (coreNo o c k) (fun x => { x with
      mma := none, accLabel := alter 0 m.acc (fun l => if m.clr then m.label else l ||| m.label) x.accLabel })
      (writeTile (coreNo o c k) m.acc (mmaTile m (readTile s.dev (coreNo o c k) m.acc)) s.dev)) }) ∧
  (∀ (o : Fin 8) (c : Fin 9) (k : Fin 64) (v : VecOp) (rest : List VecOp) (s : State), live s.dev = true →
    (getCore s.dev (coreNo o c k)).vec = v :: rest →
    exec (.vectorComplete o c k) s = .next { s with dev := (completeVecOp (coreNo o c k) v
      (setCore (coreNo o c k) (fun x => { x with vec := rest }) s.dev)) })

/-- FENCE_COMPLETE of a stream that waits on a FENCE, none of whose scopes an outstanding load keeps open, releases the stream.
STREAM_END of a stream that has executed its end and has no outstanding load ends the stream, and with the last stream of the
item the item ends: a LAUNCH that is not held back and met no error ends DONE, its cores free.
XSYNC_COMPLETE and CBAR_COMPLETE when a taking-part stream waits at the barrier and every one waits at it or has ended: the control
label of each becomes the union of theirs, those that wait are released, and nothing else changes. -/
def Obligations.StreamsMeetAndEnd : Prop :=
  (∀ (o : Fin 8) (c : Fin 9) (k : Fin 64) (st : Strm) (scopes : Nat) (s : State), live s.dev = true →
    (getStream s.dev (coreNo o c k) (strmIx st)).wait = .fence scopes →
    fenceHolds (getStream s.dev (coreNo o c k) (strmIx st)) scopes = true →
    exec (.fenceComplete o c k st) s = .next { s with dev := (setStream (coreNo o c k) (strmIx st)
      (fun y => { y with wait := .none }) s.dev) }) ∧
  (∀ (o : Fin 8) (c : Fin 9) (k : Fin 64) (st : Strm) (id : Nat) (s : State), live s.dev = true →
    (getStream s.dev (coreNo o c k) (strmIx st)).live = true →
    (getStream s.dev (coreNo o c k) (strmIx st)).wait = .ending →
    (getStream s.dev (coreNo o c k) (strmIx st)).loads = [] → (getCore s.dev (coreNo o c k)).item = some id →
    ∃ d, d = setStream (coreNo o c k) (strmIx st) (fun y => { y with live := false, wait := .none }) s.dev ∧
      ((∀ e ∈ itemStreams d id, (getStream d e.1 e.2).live = false) →
        exec (.streamEnd o c k st) s = .next { s with dev := settle (endLaunch id d) }) ∧
      ((∃ e ∈ itemStreams d id, (getStream d e.1 e.2).live = true) →
        exec (.streamEnd o c k st) s = .next { s with dev := settle d })) ∧
  (∀ (id : Nat) (c : Cmd) (d : Dev), cmdById d id = some c → c.errEnd = none → holdNeeded d c = false →
    endLaunch id d = finish id .done .ok (slotInfo c) false (freeCores id (retireItem id d))) ∧
  (∀ (o : Fin 8) (c : Fin 9) (k : Fin 64) (s : State), live s.dev = true →
    (∃ st : Strm, (getStream s.dev (coreNo o c k) (strmIx st)).part = true ∧
      (getStream s.dev (coreNo o c k) (strmIx st)).wait = .xsync) →
    (∀ st : Strm, (getStream s.dev (coreNo o c k) (strmIx st)).part = true →
      (getStream s.dev (coreNo o c k) (strmIx st)).wait = .xsync ∨
      (getStream s.dev (coreNo o c k) (strmIx st)).live = false) →
    ∃ t, exec (.xsyncComplete o c k) s = .next t ∧ t.pending = s.pending ∧ t.dev = { s.dev with stream := t.dev.stream } ∧
      ∀ n i : Nat, i < 2 → getStream t.dev n i =
        if n = coreNo o c k ∧ (getStream s.dev n i).part = true then { getStream s.dev n i with
          wait := if (getStream s.dev n i).wait = .xsync then .none else (getStream s.dev n i).wait
          ctl := unionAll (((List.range 2).filter fun j => (getStream s.dev n j).part).map fun j =>
            (getStream s.dev n j).ctl) }
        else getStream s.dev n i) ∧
  (∀ (o : Fin 8) (c : Fin 9) (st : Strm) (s : State), live s.dev = true →
    (∃ k : Fin 64, (getStream s.dev (coreNo o c k) (strmIx st)).part = true ∧
      (getStream s.dev (coreNo o c k) (strmIx st)).wait = .cbar) →
    (∀ k : Fin 64, (getStream s.dev (coreNo o c k) (strmIx st)).part = true →
      (getStream s.dev (coreNo o c k) (strmIx st)).wait = .cbar ∨
      (getStream s.dev (coreNo o c k) (strmIx st)).live = false) →
    ∃ t, exec (.cbarComplete o c st) s = .next t ∧ t.pending = s.pending ∧ t.dev = { s.dev with stream := t.dev.stream } ∧
      ∀ n i : Nat, i < 2 → getStream t.dev n i =
        if (∃ k : Fin 64, n = coreNo o c k) ∧ i = strmIx st ∧ (getStream s.dev n i).part = true then
          { getStream s.dev n i with
            wait := if (getStream s.dev n i).wait = .cbar then .none else (getStream s.dev n i).wait
            ctl := unionAll (((List.range 64).filter fun j => (getStream s.dev (coreNo o c j) (strmIx st)).part).map fun j =>
              (getStream s.dev (coreNo o c j) (strmIx st)).ctl) }
        else getStream s.dev n i)

/-! ## Windows and queues (02, 09) -/

/-- WINDOW_START of a window of the live plan in its tick, not yet started and not yet passed, marks the window started and brings
the time base to the window's start; parked transfers resume, and the oldest command that matches the window is selected.
WINDOW_END of a selected or active item that has not retired and has not been counted, in the tick of its window, and that no
overrunning item of another context delays, counts an overrun of its context, which stays at or below the limit. SLIP_BOUND_EXPIRY
two boundaries after the planned end of such an item faults a context that is not FAULTED with TICK_OVERRUN, when no wait of it
has expired. -/
def Obligations.WindowsSelectAndBound : Prop :=
  (∀ (o : Fin 8) (i : Nat) (ev : LineEvent) (p : Plan) (w : PlanWin) (c : Cmd) (s : State), live s.dev = true →
    (getSeq s.dev o).plan = some p → p.wins[i]? = some w → (getSeq s.dev o).withdrawn = false →
    w.tick = (getSeq s.dev o).cycleTick → dispatches s.dev (seqBase o) = true → i ∉ (getSeq s.dev o).started →
    s.dev.tck.now ≤ windowClock s.dev w.start → w.kind ≠ 4 →
    windowPick (resumeXfers o w (advanceTo (windowClock s.dev w.start)
      (setSeq o (fun q => { q with started := i :: q.started }) (withLine ev s.dev)))) o w = some c →
    exec (.windowStart o i ev) s = .next { s with dev := meeting ev (fun d => settle (selectCmd w c.id
      (resumeXfers o w (advanceTo (windowClock d w.start)
        (setSeq o (fun q => { q with started := i :: q.started }) d))))) s.dev }) ∧
  (∀ (id : Nat) (c : Cmd) (s : State), live s.dev = true → cmdById s.dev id = some c →
    (c.phase = .selected ∨ (c.phase = .active ∧ c.heldUntil = none)) → c.retired = false → c.endPassed = false →
    itemHalted s.dev id = false → delayed s.dev c = false → c.winTick = s.dev.tck.count →
    (getCtx s.dev c.oct c.ctx).overruns < s.dev.ump.limit.live →
    exec (.windowEnd id) s = .next { s with dev := (settle (setCtx c.oct c.ctx (fun x => { x with overruns := x.overruns + 1 })
      (setCmd c.id (fun x => { x with endPassed := true }) (advanceTo (clockAt s.dev (plannedEnd s.dev c)) s.dev)))) }) ∧
  (∀ (id : Nat) (c : Cmd) (s : State), live s.dev = true → cmdById s.dev id = some c →
    (c.phase = .selected ∨ c.phase = .active) → c.retired = false → itemHalted s.dev id = false → delayed s.dev c = false →
    (getCtx s.dev c.oct c.ctx).state ≠ .faulted → endTick s.dev c + 2 ≤ s.dev.tck.count → expiredWait s.dev c.oct c.ctx = none →
    (∀ e ∈ s.dev.stream, ∀ a b t, e.2.wait ≠ .hwait a b t 0) →
    exec (.slipBoundExpiry id) s = .next { s with dev := (settle
      (faultCtx c.oct c.ctx .tickOverrun (overrunRec s.dev c 1) true s.dev)) })

/-- SEQ_Q_DOORBELL of at most the ring's length of commands, and SEQ_Q_CDOORBELL, by a function that may use the octant set the
producer index (and, where no command was pending, from when the next fetch is due) and the consumer index; of a VF that may not, only its drop log changes.
COMMAND_FETCH of a queue that fetches. From a Transom ring whose host may be asked and whose slot has been open since the fetch was
due: a block of 128 bytes that opens, for the slot and with the write sequence number expected, is accepted. From an HBM ring: the
128 bytes that its parts give are accepted. An accepted command joins the commands in flight with the bytes fetched, the queue's
fetch index and write sequence number count, and one that an acceptance check refuses is refused with the check's reason. -/
def Obligations.QueueDoorbellsAndFetch : Prop :=
  (∀ (f : Fn) (o : Fin 8) (q : Fin 32) (p : Nat) (s : State), live s.dev = true → barAnswers s.dev f = true →
    mayUseOctant s.dev f o = true →
    ((p % 65536 + 65536 - (getQueue s.dev o q).fetch) % 65536 ≤ 2 ^ (getQueue s.dev o q).n) →
    exec (.seqQDoorbell f o q p) s = .next { s with dev := (settle
      (setQueue o q (fun x => { x with
        producer := p % 65536, fetchFrom := if pendingCmds x = 0 then s.dev.tck.now else x.fetchFrom }) s.dev)) }) ∧
  (∀ (f : Fn) (o : Fin 8) (q : Fin 32) (p : Nat) (s : State), live s.dev = true → barAnswers s.dev f = true →
    mayUseOctant s.dev f o = true →
    exec (.seqQCdoorbell f o q p) s = .next { s with dev := (settle
      (setQueue o q (fun x => { x with consumer := p % 65536 }) s.dev)) }) ∧
  (∀ (f : Fn) (o : Fin 8) (q : Fin 32) (p : Nat) (s : State), live s.dev = true → barAnswers s.dev f = true →
    mayUseOctant s.dev f o = false →
    exec (.seqQDoorbell f o q p) s = .next { s with dev := (settle
      (dropLog f .notOwner (fieldIdOf (0x1008 + 0x40 * q) 0) (seqBase o + 0x1008 + 0x40 * q) true s.dev)) } ∧
    exec (.seqQCdoorbell f o q p) s = .next { s with dev := (settle
      (dropLog f .notOwner (fieldIdOf (0x1008 + 0x40 * q) 1) (seqBase o + 0x100C + 0x40 * q) true s.dev)) }) ∧
  (∀ (o : Fin 8) (q : Fin 32) (ev : LineEvent) (b : HostBlock) (y : Opened) (s : State), live s.dev = true →
    fetching s.dev o q = true → pendingCmds (getQueue s.dev o q) ≤ 2 ^ (getQueue s.dev o q).n →
    (getQueue s.dev o q).transom = true → hostOpen s.dev (getSht s.dev o).vf = true →
    dispatches s.dev trsBase = true → slotSince s.dev (getSht s.dev o).vf (getQueue s.dev o q).fetchFrom = true →
    y = openBlock s.dev (getSht s.dev o).vf (ringWin (getQueue s.dev o q).cmdBase) b → y.tagOk = true → b.poisoned = false →
    y.block = (getQueue s.dev o q).fetch % 2 ^ (getQueue s.dev o q).n → y.wseq = (getQueue s.dev o q).wseqCmd →
    b.cipher.length = 128 →
    exec (.commandFetch o q ev b) s = .next { s with dev := settle (accept o q y.data s.dev) }) ∧
  (∀ (o : Fin 8) (q : Fin 32) (ev : LineEvent) (b : HostBlock) (ps : List (Nat × Nat)) (bs : List Byte) (d : Dev) (s : State),
    live s.dev = true → fetching s.dev o q = true → pendingCmds (getQueue s.dev o q) ≤ 2 ^ (getQueue s.dev o q).n →
    (getQueue s.dev o q).transom = false →
    ringParts s.dev o (getQueue s.dev o q).ctx false (cmdSlot (getQueue s.dev o q)) = .ok ps →
    readParts (20 + o.val) ev ps [] s.dev = (.ok bs, d) →
    exec (.commandFetch o q ev b) s = .next { s with dev := settle (accept o q bs d) }) ∧
  (∀ (o : Fin 8) (q : Fin 32) (raw : List Byte) (d : Dev), ∃ (c : Cmd) (e : Dev),
    c.id = d.nextCmd ∧ c.oct = o ∧ c.q = q ∧ c.ctx = (getQueue d o q).ctx ∧ c.raw = raw ∧ c.phase = .accepted ∧
    e = setQueue o q (fun y => { y with
      fetch := (y.fetch + 1) % 65536, fetchFrom := d.tck.now, wseqCmd := y.wseqCmd + 1 })
      { d with cmds := d.cmds ++ [c], nextCmd := d.nextCmd + 1 } ∧
    (acceptance e o q c.ctx raw = none → accept o q raw d = e) ∧
    (∀ r, acceptance e o q c.ctx raw = some r →
      accept o q raw d = refuseCmd c.id r (sigBad e o q raw || cmdOpcode raw == 6) e))

/-- COMMAND_COMPLETE of a command whose work has ended. One with NO_RECORD that ended DONE leaves flight. Of another, with room in
its completion ring, the record is written, into a Transom ring whose window is in force while the host may be reached, or into
an HBM ring whose write succeeds; the ring moves on and the command leaves flight, with its signal. COMPLETION_RECORD_WRITE does the
same for a record that was held back.
HUDDLE_SIGNAL_ARRIVE takes the signal and applies it: on a configured object on which no stream waits the increment is added, and
the first error marks the object. WAIT_DEADLINE_EXPIRY of a command that is held at its deadline, and of a stream whose HWAIT has
no boundary left, faults its context with WAIT_TIMEOUT. -/
def Obligations.CommandsCompleteAndSignal : Prop :=
  (∀ (id : Nat) (ev : LineEvent) (c : Cmd) (s : State), live s.dev = true → cmdById s.dev id = some c →
    c.phase = .recording → recordless c = true →
    exec (.commandComplete id ev) s = .next { s with dev := settle (leaveFlight c none s.dev) }) ∧
  (∀ (id : Nat) (ev : LineEvent) (c : Cmd) (s : State), live s.dev = true → cmdById s.dev id = some c →
    c.phase = .recording → recordless c = false → ringFull (getQueue s.dev c.oct c.q) = false →
    (getQueue s.dev c.oct c.q).transom = true → hostReach s.dev (getSht s.dev c.oct).vf = true →
    (getWin s.dev (getSht s.dev c.oct).vf (ringWin (getQueue s.dev c.oct c.q).cplBase)).live = true →
    exec (.commandComplete id ev) s = .next { s with dev := (settle
      (leaveFlight c (signalErr c) (recordTaken c (writeRecordHost c s.dev)))) } ∧
    exec (.completionRecordWrite id ev) s = .next { s with dev := (settle
      (leaveFlight c (signalErr c) (recordTaken c (writeRecordHost c s.dev)))) }) ∧
  (∀ (id : Nat) (ev : LineEvent) (c : Cmd) (d : Dev) (s : State), live s.dev = true → cmdById s.dev id = some c →
    c.phase = .recording → recordless c = false → ringFull (getQueue s.dev c.oct c.q) = false →
    (getQueue s.dev c.oct c.q).transom = false → writeRecordHbm c ev s.dev = (none, d) →
    exec (.commandComplete id ev) s = .next { s with dev := settle (leaveFlight c (signalErr c) (recordTaken c d)) } ∧
    exec (.completionRecordWrite id ev) s = .next { s with dev := (settle
      (leaveFlight c (signalErr c) (recordTaken c d))) }) ∧
  (∀ (i : Nat) (ev : LineEvent) (g : Signal) (s : State), live s.dev = true → s.dev.signals[i]? = some g →
    exec (.huddleSignalArrive i ev) s = .next { s with dev := meeting ev (fun d =>
      settle (applySignal g { d with signals := d.signals.eraseIdx i })) s.dev }) ∧
  (∀ (g : Signal) (d : Dev), (getObj d g.octant g.obj).configured = true →
    (∀ e ∈ d.stream, ∀ a b t n, e.2.wait ≠ .hwait a b t n) →
    (g.err = none → applySignal g d = setObj g.octant g.obj (fun x => { x with value := x.value + g.incr }) d) ∧
    (∀ r, g.err = some r → applySignal g d = setObj g.octant g.obj (fun x =>
      if x.error then { x with value := x.value + g.incr }
      else { x with value := x.value + g.incr, error := true, errReason := r }) d)) ∧
  (∀ (id : Nat) (c : Cmd) (s : State), live s.dev = true → cmdById s.dev id = some c → c.waitLeft = some 0 →
    waitState s.dev c = .held →
    exec (.waitDeadlineExpiry (.cmd id)) s = .next { s with dev := (settle (faultCtx c.oct c.ctx .waitTimeout
      { recBase with
        source := 6, queue := some c.q, tag := cmdTag c.raw, ringSlot := c.slot
        detail := waitDetail s.dev (objOct (waitObj c.raw)) (objIx (waitObj c.raw)) (waitValue c.raw) } true s.dev)) }) ∧
  (∀ (o : Fin 8) (c : Fin 9) (k : Fin 64) (st : Strm) (a b : Nat) (t : Word) (ctx : Nat) (s : State), live s.dev = true →
    (getStream s.dev (coreNo o c k) (strmIx st)).wait = .hwait a b t 0 →
    (getCore s.dev (coreNo o c k)).ctx = some ctx →
    exec (.waitDeadlineExpiry (.stream o c k st)) s = .next { s with dev := (settle (faultCtx o ctx .waitTimeout
      { coreRec s.dev (coreNo o c k) (strmIx st) 5 (getStream s.dev (coreNo o c k) (strmIx st)).pc 0 0 with
        source := 6, detail := waitDetail s.dev a b t } true s.dev)) })

/-! ## Relay engines (07) -/

/-- Of a transfer in an engine of a device in service. RELAY_CHUNK of an active one that is no fabric delivery moves its next
chunk (COPY, FILL), page (STOW.PACK) or piece of the stream (STOW.UNPACK), to a Transom window only while the host may be
reached. RELAY_RESPONSE: a block of 4 KiB that opens, for the block asked for and with WSEQ 0, enters the staging buffer of an
active transfer; one whose tag does not verify faults the transfer with INTEGRITY_FAIL and counts the window's failure; one
without a transfer is counted stale. RELAY_PARK of an active transfer to which the host owes something, or of a fabric delivery,
with fewer than four parked in its engine, parks it, and a command that had not retired retires. RLE_DEADLINE_EXPIRY of an open
transfer with no boundary left faults it, HOST_STALL where it waits for the host and TICK_OVERRUN otherwise, and of a fabric
delivery makes its rally step late. RELAY_COMPLETE: a faulted transfer ends its command FAULTED with the fault's reason, a
finished one DONE; that of a labelled STOW.PACK is held back, and ends DONE at STOW_COMPLETION_RELEASE. COMPLETION_TIMEOUT of a
transfer with a request outstanding is reported through AER of the octant's VF. -/
def Obligations.RelayTransfersMove : Prop :=
  (∀ (o : Fin 8) (e : Fin 2) (seq : Word) (ev : LineEvent) (x : Xfer) (s : State), live s.dev = true →
    findXfer s.dev o e seq = some x → x.partl = false → x.fabric = false → xferOpen x = true →
    (rdDstKind (xferRaw s.dev x) = 3 → hostReach s.dev (getSht s.dev o).vf = true) →
    (rdKind (xferRaw s.dev x) < 3 →
      exec (.relayChunk o e seq ev) s = .next { s with dev := moveChunk x (xferRaw s.dev x) ev s.dev }) ∧
    (rdKind (xferRaw s.dev x) = 3 →
      exec (.relayChunk o e seq ev) s = .next { s with dev := packPage x (xferRaw s.dev x) ev s.dev }) ∧
    (rdKind (xferRaw s.dev x) = 4 →
      exec (.relayChunk o e seq ev) s = .next { s with dev := unpackPage x (xferRaw s.dev x) ev s.dev })) ∧
  (∀ (o : Fin 8) (e : Fin 2) (seq : Word) (b : HostBlock) (x : Xfer) (blk : Nat) (y : Opened) (s : State),
    live s.dev = true → findXfer s.dev o e seq = some x → xferOpen x = true → x.waiting = some blk → x.partl = false →
    y = openBlock s.dev (getSht s.dev o).vf (blk / 2 ^ 24) b → y.tagOk = true → b.poisoned = false →
    y.block = blk % 2 ^ 24 → y.wseq = 0 → b.cipher.length = 4096 →
    exec (.relayResponse o e seq b) s = .next { s with dev := (setXfer { x with
      staging := place blk y.data x.staging, waiting := none, answered := false } s.dev) }) ∧
  (∀ (o : Fin 8) (e : Fin 2) (seq : Word) (b : HostBlock) (x : Xfer) (blk : Nat) (s : State), live s.dev = true →
    findXfer s.dev o e seq = some x → xferOpen x = true → x.waiting = some blk →
    (openBlock s.dev (getSht s.dev o).vf (blk / 2 ^ 24) b).tagOk = false →
    exec (.relayResponse o e seq b) s = .next { s with dev := (relayFault x 5 .integrityFail [] false
      (setWin (getSht s.dev o).vf (blk / 2 ^ 24) (fun w => { w with authFail := satAdd 0xFFFFFFFF w.authFail 1 }) s.dev)) }) ∧
  (∀ (o : Fin 8) (seq : Word) (b : HostBlock) (s : State), live s.dev = true →
    (findXfer s.dev o 0 seq = none →
      exec (.relayResponse o 0 seq b) s = .next { s with dev := (setRle o (fun r => { r with
        stale0 := satAdd 0xFFFFFFFF r.stale0 ((b.cipher.length + 63) / 64) }) s.dev) }) ∧
    (findXfer s.dev o 1 seq = none →
      exec (.relayResponse o 1 seq b) s = .next { s with dev := (setRle o (fun r => { r with
        stale1 := satAdd 0xFFFFFFFF r.stale1 ((b.cipher.length + 63) / 64) }) s.dev) })) ∧
  (∀ (o : Fin 8) (e : Fin 2) (seq : Word) (x : Xfer) (c : Cmd) (s : State), live s.dev = true →
    findXfer s.dev o e seq = some x → x.partl = false → xferOpen x = true → (x.fabric = true ∨ hostOwes s.dev x = true) →
    (s.dev.xfers.filter fun y => y.oct == o.val && y.eng == e.val && y.partl).length < 4 →
    cmdById s.dev x.cmd = some c →
    ((c.retired = true ∨ x.fabric = true) →
      exec (.relayPark o e seq) s = .next { s with dev := settle (setXfer { x with partl := true } s.dev) }) ∧
    (c.retired = false → x.fabric = false →
      exec (.relayPark o e seq) s = .next { s with dev := (settle
        (retireItem x.cmd (setXfer { x with partl := true } s.dev))) })) ∧
  (∀ (o : Fin 8) (e : Fin 2) (seq : Word) (x : Xfer) (s : State), live s.dev = true →
    findXfer s.dev o e seq = some x → x.left = 0 → xferOpen x = true → x.fabric = false →
    exec (.rleDeadlineExpiry o e seq) s = .next { s with dev := (settle (relayFault x 3
      (if x.partl ∨ waitsHost s.dev x then .hostStall else .tickOverrun) [] true s.dev)) }) ∧
  (∀ (o : Fin 8) (e : Fin 2) (seq : Word) (x : Xfer) (st : RStep) (s : State), live s.dev = true →
    findXfer s.dev o e seq = some x → x.left = 0 → x.fabric = true → stepOf s.dev x.cmd = some st → st.lateLeft = none →
    exec (.rleDeadlineExpiry o e seq) s = .next { s with dev := settle (rallyLate st s.dev) }) ∧
  (∀ (o : Fin 8) (e : Fin 2) (seq : Word) (x : Xfer) (s : State), live s.dev = true →
    findXfer s.dev o e seq = some x → x.fabric = false →
    (∀ r, x.fault = some r →
      exec (.relayComplete o e seq) s = .next { s with dev := settle (endXfer x .faulted r s.dev) }) ∧
    (x.fault = none → x.allDone = true → withheld s.dev x = false →
      exec (.relayComplete o e seq) s = .next { s with dev := settle (endXfer x .done .ok s.dev) }) ∧
    (∀ c, x.fault = none → x.allDone = true → withheld s.dev x = true → cmdById s.dev x.cmd = some c → c.heldUntil = none →
      c.retired = true →
      exec (.relayComplete o e seq) s = .next { s with dev := (settle
        (setCmd x.cmd (fun y => { y with heldUntil := some s.dev.tck.now }) s.dev)) })) ∧
  (∀ (o : Fin 8) (e : Fin 2) (seq : Word) (x : Xfer) (c : Cmd) (s : State), live s.dev = true →
    findXfer s.dev o e seq = some x → cmdById s.dev x.cmd = some c → c.heldUntil ≠ none → x.allDone = true →
    x.fault = none →
    exec (.stowCompletionRelease o e seq) s = .next { s with dev := settle (endXfer x .done .ok s.dev) }) ∧
  (∀ (o : Fin 8) (e : Fin 2) (seq : Word) (x : Xfer) (s : State), live s.dev = true →
    findXfer s.dev o e seq = some x → xferOpen x = true → x.waiting ≠ none →
    exec (.completionTimeout o e seq) s = .next { s with dev := { s.dev with
      out := .aer (1 + (getSht s.dev o).vf) true :: s.dev.out } })

/-! ## Management commands (09) -/

/-- A management command of the PF in host-managed mode, or of Porter in Porter-managed mode, while none runs, is checked and
started; of a VF, or of a host in Porter-managed mode, it is dropped with an entry in its function's drop log; a host's
while a command runs is dropped as BUSY_UPDATE. -/
def Obligations.MgmtCommandsAreChecked : Prop :=
  (∀ (i : Issuer) (o : Fin 8) (c : MgmtCmd) (s : State), (∀ x p, c = .ctxStop x p → p < 2) → mgmtMay i o s.dev = true →
    exec (ofMgmt i o c) s = .next { s with dev := mgmtSettle o false (mgmtStart o false c (mgmtIn i o c s.dev)) }) ∧
  (∀ (f : Fn) (o : Fin 8) (c : MgmtCmd) (s : State), barAnswers s.dev f = true → (f ≠ .pf ∨ porterManaged s.dev = true) →
    exec (ofMgmt (.host f) o c) s = .next { s with dev :=
      (dropLog f .notOwner (fieldIdOf 0x180 0) (seqBase o + 0x180) true s.dev) }) ∧
  (∀ (o : Fin 8) (c : MgmtCmd) (s : State), (∀ x p, c = .ctxStop x p → p < 2) → barAnswers s.dev .pf = true →
    porterManaged s.dev = false → (getSeq s.dev o).mgmt ≠ .none →
    exec (ofMgmt (.host .pf) o c) s = .next { s with dev :=
      (dropLog .pf .busyUpdate (fieldIdOf 0x180 0) (seqBase o + 0x180) true (mgmtIn (.host .pf) o c s.dev)) }) ∧
  (∀ (o : Nat) (c : MgmtCmd) (d : Dev), mgmtRange c = false → mgmtStart o false c d = (.ended .fieldRange, d)) ∧
  (∀ (o : Nat) (c : MgmtCmd) (d : Dev), mgmtRange c = true → mgmtOwner d o c = false →
    mgmtStart o false c d = (.ended .notOwner, d))

/-- The context commands in a ready octant: CTX_CREATE of a FREE context with a configured object that has no producer makes it
STOPPED with its seed; CTX_START that passes its checks waits for the boundary; CTX_STOP_DRAIN and CTX_STOP_PREEMPT of a RUNNING
context mark it; CTX_DESTROY of a STOPPED context begins to destroy it, and the command runs on until that is done. -/
def Obligations.ContextCommandsAct : Prop :=
  (∀ (i : Issuer) (o : Fin 8) (x : Nat) (seed : DWord) (nf : Nat) (s : State),
    mgmtReady i o (.ctxCreate x seed nf) s.dev = true → (getCtx s.dev o x).state = .free →
    (getObj s.dev (objOct nf) (objIx nf)).configured = true → (getObj s.dev (objOct nf) (objIx nf)).producer = none →
    exec (.ctxCreate i o x seed nf) s = .next { s with dev := (setSeq o (fun q => { q with mgmtReason := .ok })
      (setCtx o x (fun _ => { Ctx.zero with state := .stopped, seed := seed, nfObj := nf })
        (mgmtIn i o (.ctxCreate x seed nf) s.dev))) }) ∧
  (∀ (i : Issuer) (o : Fin 8) (x : Nat) (s : State), mgmtReady i o (.ctxStart x) s.dev = true →
    startCheck s.dev o x = none →
    exec (.ctxStart i o x) s = .next { s with dev := (setSeq o (fun q => { q with mgmt := .start x false, mgmtMbox := false })
      (mgmtIn i o (.ctxStart x) s.dev)) }) ∧
  (∀ (i : Issuer) (o : Fin 8) (x : Nat) (s : State), mgmtReady i o (.ctxStop x 0) s.dev = true →
    (getCtx s.dev o x).state = .running →
    exec (.ctxStopDrain i o x) s = .next { s with dev := (setSeq o (fun q => { q with mgmt := .stop x, mgmtMbox := false })
      (setCtx o x (fun y => { y with stopMode := .drain }) (mgmtIn i o (.ctxStop x 0) s.dev))) }) ∧
  (∀ (i : Issuer) (o : Fin 8) (x : Nat) (s : State), mgmtReady i o (.ctxStop x 1) s.dev = true →
    (getCtx s.dev o x).state = .running →
    exec (.ctxStopPreempt i o x) s = .next { s with dev := (setSeq o (fun q => { q with mgmt := .stop x, mgmtMbox := false })
      (setCtx o x (fun y => { y with stopMode := .preempt }) (mgmtIn i o (.ctxStop x 1) s.dev))) }) ∧
  (∀ (i : Issuer) (o : Fin 8) (x : Nat) (s : State), mgmtReady i o (.ctxDestroy x) s.dev = true →
    (getCtx s.dev o x).state = .stopped →
    exec (.ctxDestroy i o x) s = .next { s with dev := (setSeq o (fun q => { q with mgmt := .destroy x [], mgmtMbox := false })
      (destroyStart o x (mgmtIn i o (.ctxDestroy x) s.dev))) })

/-- The other management commands in a ready octant, each when its own refusals do not hold: QUEUE_BIND binds a fresh queue,
QUEUE_UNBIND frees an empty one, REGION_SET and REGION_CLEAR wait for the boundary with the entry to install, OBJ_CONFIG
and OBJ_FREE change an object not in use, IMAGE_REGISTER without a signer fills a slot, IMAGE_RELEASE frees one that no LAUNCH in flight names. Each but the two of regions ends at once with OK. -/
def Obligations.SequencerTableCommandsAct : Prop :=
  (∀ (i : Issuer) (o : Fin 8) (a : BindArgs) (s : State), mgmtReady i o (.queueBind a) s.dev = true →
    bindCheck s.dev o a = none →
    exec (.queueBind i o a) s = .next { s with dev := (setSeq o (fun q => { q with mgmtReason := .ok })
      (bindQueue o a (mgmtIn i o (.queueBind a) s.dev))) }) ∧
  (∀ (i : Issuer) (o : Fin 8) (k : Nat) (s : State), mgmtReady i o (.queueUnbind k) s.dev = true →
    (getQueue s.dev o k).bound = true → queueCmds s.dev o k = [] →
    exec (.queueUnbind i o k) s = .next { s with dev := (setSeq o (fun q => { q with mgmtReason := .ok })
      (setQueue o k (fun _ => Queue.zero) (mgmtIn i o (.queueUnbind k) s.dev))) }) ∧
  (∀ (i : Issuer) (o : Fin 8) (x k : Nat) (w0 w1 : DWord) (e : RegEntry) (s : State),
    mgmtReady i o (.regionSet x k w0 w1) s.dev = true → charterEntry s.dev o x k ⟨w0, w1⟩ = some e →
    entryCheck s.dev o e = none →
    exec (.regionSet i o x k w0 w1) s = .next { s with dev := (setSeq o (fun q => { q with
      mgmt := .region x k e false [], mgmtMbox := false }) (mgmtIn i o (.regionSet x k w0 w1) s.dev)) }) ∧
  (∀ (i : Issuer) (o : Fin 8) (x k : Nat) (s : State), mgmtReady i o (.regionClear x k) s.dev = true →
    exec (.regionClear i o x k) s = .next { s with dev := (setSeq o (fun q => { q with
      mgmt := .region x k RegEntry.zero false [], mgmtMbox := false }) (mgmtIn i o (.regionClear x k) s.dev)) }) ∧
  (∀ (i : Issuer) (o : Fin 8) (a : ObjArgs) (s : State), mgmtReady i o (.objConfig a) s.dev = true →
    objBusy s.dev (2048 * o.val + a.obj) = false →
    exec (.objConfig i o a) s = .next { s with dev := (setSeq o (fun q => { q with mgmtReason := .ok })
      (configObj o a (mgmtIn i o (.objConfig a) s.dev))) }) ∧
  (∀ (i : Issuer) (o : Fin 8) (n : Nat) (s : State), mgmtReady i o (.objFree n) s.dev = true →
    objBusy s.dev (2048 * o.val + n) = false →
    exec (.objFree i o n) s = .next { s with dev := (setSeq o (fun q => { q with mgmtReason := .ok })
      (setObj o n (fun _ => HudObj.zero) (mgmtIn i o (.objFree n) s.dev))) }) ∧
  (∀ (i : Issuer) (o : Fin 8) (a : ImageArgs) (s : State), mgmtReady i o (.imageRegister a) s.dev = true →
    imageCheck s.dev o a = none →
    exec (.imageRegister i o a) s = .next { s with dev := (setSeq o (fun q => { q with mgmtReason := .ok })
      (registerImage o a false [] (mgmtIn i o (.imageRegister a) s.dev))) }) ∧
  (∀ (i : Issuer) (o : Fin 8) (x k : Nat) (s : State), mgmtReady i o (.imageRelease x k) s.dev = true →
    launchesOf s.dev o x k = [] →
    exec (.imageRelease i o x k) s = .next { s with dev := (setSeq o (fun q => { q with mgmtReason := .ok })
      (setImg o x k (fun _ => ImgSlot.zero) (mgmtIn i o (.imageRelease x k) s.dev))) })

/-- The boundary events of management commands that no mailbox request waits for. CTX_START_EFFECT of a start that still passes its
checks, with no calibration running, makes the context RUNNING. PREEMPT_EFFECT of a preempting stop ends what has not dispatched
NOT_RUN with NOT_READY. CONTEXT_STOPPED of a context that is FAULTED or is being stopped, with nothing in flight, makes it STOPPED;
when a CTX_STOP of it waits, that command ends. REGION_ENTRY_EFFECT installs the entry and notes the commands that resolved the
old one, and REGION_COMMAND_COMPLETE ends the command when none of these runs. IMAGE_RELEASE_COMPLETE with no LAUNCH in flight that
names the slot frees it. -/
def Obligations.SequencerBoundaryEventsAct : Prop :=
  (∀ (o : Fin 8) (c : Nat) (due : Bool) (s : State), live s.dev = true → (getSeq s.dev o).mgmt = .start c due →
    (getSeq s.dev o).mgmtMbox = false → s.dev.pwr.calibrating = false → startCheck s.dev o c = none →
    exec (.ctxStartEffect o) s = .next { s with dev := (setSeq o (fun q => { q with
      mgmt := .none, mgmtReason := .ok, mgmtMbox := false })
      (setCtx o c (fun x => { x with state := .running, overruns := 0 }) s.dev)) }) ∧
  (∀ (o : Fin 8) (c : Fin 16) (s : State), live s.dev = true → (getCtx s.dev o c).state = .running →
    (getCtx s.dev o c).stopMode = .preempt →
    exec (.preemptEffect o c) s = .next { s with dev := settle (endUndispatched o c .notReady s.dev) }) ∧
  (∀ (o : Fin 8) (c : Fin 16) (s : State), live s.dev = true → ((getCtx s.dev o c).state = .faulted ∨ ((getCtx s.dev o c).state = .running ∧ (getCtx s.dev o c).stopMode ≠ .none)) →
    ctxCmds s.dev o c = [] →
    ∃ d, d = { setCtx o c (fun x => { x with state := .stopped, stopMode := .none, overruns := 0 }) s.dev with
        ump := { s.dev.ump with l0 := put 0 (16 * o.val + c.val) 0 s.dev.ump.l0 } } ∧
      ((getSeq s.dev o).mgmt ≠ .stop c → exec (.contextStopped o c) s = .next { s with dev := d }) ∧
      ((getSeq s.dev o).mgmt = .stop c → (getSeq s.dev o).mgmtMbox = false →
        exec (.contextStopped o c) s = .next { s with dev := (setSeq o (fun q => { q with
          mgmt := .none, mgmtReason := .ok, mgmtMbox := false }) d) })) ∧
  (∀ (o : Fin 8) (c i : Nat) (e : RegEntry) (l : List Nat) (s : State), live s.dev = true →
    (getSeq s.dev o).mgmt = .region c i e false l →
    exec (.regionEntryEffect o) s = .next { s with dev := (setSeq o (fun q => { q with
      mgmt := .region c i e true (resolvedBy s.dev o c i) }) (installEntry o c i e s.dev)) }) ∧
  (∀ (o : Fin 8) (c i : Nat) (e : RegEntry) (l : List Nat) (s : State), live s.dev = true →
    (getSeq s.dev o).mgmt = .region c i e true l → (getSeq s.dev o).mgmtMbox = false →
    (∀ id ∈ l, stillRuns s.dev id = false) →
    exec (.regionCommandComplete o) s = .next { s with dev := (setSeq o (fun q => { q with
      mgmt := .none, mgmtReason := .ok, mgmtMbox := false }) s.dev) }) ∧
  (∀ (o : Fin 8) (c k : Nat) (s : State), live s.dev = true → (getSeq s.dev o).mgmt = .imageRelease c k →
    (getSeq s.dev o).mgmtMbox = false → launchesOf s.dev o c k = [] →
    exec (.imageReleaseComplete o) s = .next { s with dev := (setSeq o (fun q => { q with
      mgmt := .none, mgmtReason := .ok, mgmtMbox := false }) (setImg o c k (fun _ => ImgSlot.zero) s.dev)) })

/-! ## HBM (07, 08) -/

/-- Of an address of protected data, in a stack whose root is valid. HBM_READ delivers the line that the read flow gives, or its
error, to the requester. HBM_FULL_WRITE and HBM_PARTIAL_WRITE leave the device as the write flow leaves it, and a partial write
reports its error to the requester. Where a flow ends in a lockdown, nothing is answered. A full write that meets no event, of a line whose counter does not overflow, in a region that is initialised and
holds no undefined bytes, writes its 64 bytes and no other byte of HBM, counts the line's write, and answers nothing.
PATROL_READ of a line with one or two bad symbols counts a correction and moves the patrol on. REGION_INIT of a region that is
INIT_PENDING puts it into the zero state: its bytes read 0 and it is pending no longer. An access to an address that does not
exist stops. -/
def Obligations.MemoryCommandsAct : Prop :=
  (∀ (r pa : Nat) (ev : LineEvent) (d : Dev) (s : State), live s.dev = true → hbmPresent pa = true →
    (getStack s.dev (stackOf pa)).rootValid = true → live d = true →
    (∀ bs, readLine pa r 1 ev s.dev = (.ok bs, d) →
      exec (.hbmRead r pa ev) s = .next { s with dev := { d with out := .busData r bs :: d.out } }) ∧
    (∀ e : Reason × List Byte, readLine pa r 1 ev s.dev = (.error e, d) →
      exec (.hbmRead r pa ev) s = .next { s with dev := { d with out := .busError r e.1 :: d.out } })) ∧
  (∀ (r pa : Nat) (data : List Byte) (ev : LineEvent) (d : Dev) (s : State), live s.dev = true → hbmPresent pa = true →
    (getStack s.dev (stackOf pa)).rootValid = true → live d = true →
    (writeLine pa r data ev s.dev = (.ok (), d) → exec (.hbmFullWrite r pa data ev) s = .next { s with dev := d }) ∧
    (writePart pa r data ev s.dev = (.ok (), d) → exec (.hbmPartialWrite r pa data ev) s = .next { s with dev := d }) ∧
    (∀ e : Reason × List Byte, writePart pa r data ev s.dev = (.error e, d) →
      exec (.hbmPartialWrite r pa data ev) s = .next { s with dev := { d with out := .busError r e.1 :: d.out } })) ∧
  (∀ (r pa : Nat) (data : List Byte) (ev : LineEvent) (d : Dev) (s : State), live s.dev = true → hbmPresent pa = true →
    (getStack s.dev (stackOf pa)).rootValid = true → live d = false →
    (∀ x : HbmResult (List Byte), readLine pa r 1 ev s.dev = (x, d) → exec (.hbmRead r pa ev) s = .next { s with dev := d }) ∧
    (∀ x : HbmResult Unit, writeLine pa r data ev s.dev = (x, d) → exec (.hbmFullWrite r pa data ev) s = .next { s with dev := d }) ∧
    (∀ x : HbmResult Unit, writePart pa r data ev s.dev = (x, d) → exec (.hbmPartialWrite r pa data ev) s = .next { s with dev := d })) ∧
  (∀ (r pa : Nat) (data : List Byte) (s : State), live s.dev = true → hbmPresent pa = true →
    (getStack s.dev (stackOf pa)).rootValid = true → (getRegion s.dev (regionOf pa)).initPending = false →
    (getRegion s.dev (regionOf pa)).undef = 0 → minorOf (getPage s.dev (pa / 64 / 64)) (pa / 64 % 64) < 126 →
    data.length = 64 →
    ∃ t, exec (.hbmFullWrite r pa data .clean) s = .next t ∧ t.pending = s.pending ∧ t.dev.out = s.dev.out ∧
      t.dev.page = (setPage (pa / 64 / 64) (countWrite (pa / 64 % 64)) s.dev).page ∧
      ∀ a : Nat, readByte t.dev.hbm a =
        if pa / 64 * 64 ≤ a ∧ a < pa / 64 * 64 + 64 then data.getD (a - pa / 64 * 64) 0 else readByte s.dev.hbm a) ∧
  (∀ (pa l n : Nat) (s : State), live s.dev = true → pa < 2 ^ 40 → areaOf (pa % 2 ^ 37) ≠ .absent →
    (getStack s.dev (stackOf pa)).rootValid = true → 1 ≤ n → n ≤ 2 →
    exec (.patrolRead pa (.dataSymbols l n)) s = .next { s with dev :=
      (setStack (pa / 2 ^ 37) (fun x => { x with corrected := satAdd 0xFFFFFFFF x.corrected 1 })
        (setStack (pa / 2 ^ 37) (fun x => if x.patrolPos + 1 = patrolLines
          then { x with patrolPos := 0, patrolPasses := (x.patrolPasses + 1) % 65536 }
          else { x with patrolPos := x.patrolPos + 1 }) s.dev)) }) ∧
  (∀ (r pa : Nat) (data : List Byte) (ev : LineEvent) (s : State), hbmPresent pa = false →
    exec (.hbmRead r pa ev) s = .fault (.absentAddress pa) ∧
    exec (.hbmFullWrite r pa data ev) s = .fault (.absentAddress pa) ∧
    exec (.hbmPartialWrite r pa data ev) s = .fault (.absentAddress pa)) ∧
  (∀ (k : Fin 8) (r : Nat) (s : State), live s.dev = true →
    (getRegion s.dev (65536 * k.val + r)).initPending = true →
    ∃ d, d = zeroRegion (65536 * k.val + r) s.dev ∧ exec (.regionInit k r) s = .next { s with dev := d } ∧
      (getRegion d (65536 * k.val + r)).initPending = false ∧
      ∀ a : Nat, regionBase (65536 * k.val + r) ≤ a → a < regionBase (65536 * k.val + r) + 2 ^ 21 → readByte d.hbm a = 0) ∧
  (∀ (pa : Nat) (ev : LineEvent) (s : State), (2 ^ 40 ≤ pa ∨ areaOf (pa % 2 ^ 37) = .absent) →
    exec (.patrolRead pa ev) s = .fault (.absentAddress pa))

/-! ## Rally (10) -/

/-- FAB_HALF_LINK_DOWN marks the half down and the port not up, and of a port that was up counts a loss and fails the port's groups
with PORT_DOWN; the other ports are as they were. FAB_HALF_LINK_UP marks the half, and FAB_PORT_UP of a port with both halves makes
it up; nothing else changes. FAB_REFCLK_LOSS of more than 10 µs takes both halves of the four ports of its input down, and a shorter
loss changes nothing. BADFRAME of a frame, at a port that is up: one not addressed to the port counts as BADFRAME, one addressed to it
whose header is not good counts as UNKNOWN, and nothing else changes; a PAUSE frame changes nothing. -/
def Obligations.FabricLinksAct : Prop :=
  (∀ (p : Fin 8) (h : Fin 2) (s : State), live s.dev = true → (getPort s.dev p).up = false →
    exec (.fabHalfLinkDown p h) s = .next { s with dev := (settle (setPort p (fun x => { setHalf h false x with
      up := false, downs := if x.up then (x.downs + 1) % 65536 else x.downs }) s.dev)) }) ∧
  (∀ (p : Fin 8) (h : Fin 2) (s : State), live s.dev = true → (getPort s.dev p).up = true →
    ∃ d, exec (.fabHalfLinkDown p h) s = .next { s with dev := (settle ((portGroups s.dev p).foldl
      (fun d k => failGroup k .portDown (getGroup d k).self false d) d)) } ∧
      getPort d p = { setHalf h false (getPort s.dev p) with up := false, downs := ((getPort s.dev p).downs + 1) % 65536 } ∧
      d = { s.dev with port := d.port } ∧ ∀ q : Nat, q ≠ p.val → getPort d q = getPort s.dev q) ∧
  (∀ (p : Fin 8) (h : Fin 2) (s : State), live s.dev = true →
    exec (.fabHalfLinkUp p h) s = .next { s with dev := setPort p (setHalf h true) s.dev }) ∧
  (∀ (p : Fin 8) (s : State), live s.dev = true → (getPort s.dev p).half0 = true → (getPort s.dev p).half1 = true →
    exec (.fabPortUp p) s = .next { s with dev := setPort p (fun x => { x with up := true }) s.dev }) ∧
  (∀ (i : Fin 2) (ns : Nat) (s : State), live s.dev = true → 10000 < ns →
    exec (.fabRefclkLoss i ns) s = .next { s with dev := (settle ([0, 1, 2, 3].foldl
      (fun d k => halfDown (4 * i + k) 1 (halfDown (4 * i + k) 0 d)) s.dev)) }) ∧
  (∀ (i : Fin 2) (ns : Nat) (s : State), ns ≤ 10000 → exec (.fabRefclkLoss i ns) s = .next s) ∧
  (∀ (f : Frame) (s : State), live s.dev = true → f.pause = false → (getPort s.dev f.port).up = true →
    (addressed s.dev f = false →
      exec (.badframe f) s = .next { s with dev := (setPort f.port (fun x => { x with
        dropBad := satAdd 0xFFFF x.dropBad 1 }) s.dev) }) ∧
    (addressed s.dev f = true → headOk f.head = false →
      exec (.badframe f) s = .next { s with dev := (setPort f.port (fun x => { x with
        dropUnknown := satAdd 0xFFFF x.dropUnknown 1 }) s.dev) })) ∧
  (∀ (f : Frame) (s : State), f.pause = true → exec (.badframe f) s = .next s)

/-- GROUP_LOAD and GROUP_UNLOAD by the PF in host-managed mode or by Porter in Porter-managed mode. A descriptor that reads and that
no check refuses fills the port's first free slot, RLY_GRESULT is OK, and requestLease follows (which asks for a lease where
this member is the coordinator); one that a check refuses leaves the check's reason there. An unload of a loaded group that no
accepted command names frees its slot. RALLY_STEP_RELEASE of a held first step releases it once the limit no longer holds it.
RALLY_STEP_RETIRE of a step whose conditions to retire hold, and that is neither the last of its collective nor a DECIDE, ends it
DONE. -/
def Obligations.GroupsLoadAndStepsRetire : Prop :=
  (∀ (i : Issuer) (ev : LineEvent) (h : List Byte) (ms : List (List Byte)) (d : Dev) (slot : Nat) (s : State),
    live s.dev = true →
    (i = .porter ∧ porterManaged s.dev = true ∨ i = .host .pf ∧ barAnswers s.dev .pf = true ∧ porterManaged s.dev = false) →
    readDesc (s.dev.rly.gbase * 64) ev s.dev = (.ok (h, ms), d) → loadRefusal d (s.dev.rly.gbase * 64) h ms = none →
    (((List.range 8).map (8 * byteAt h 0xA + ·)).find? fun k => !(getGroup d k).loaded) = some slot →
    exec (.groupLoad i ev) s = .next { s with dev := (settle
      (requestLease slot (sendPairKeys slot (setResult .ok (setGroup slot
        (fun _ => descGroup d (getSht d (byteAt h 0xA)).vf h ms) d))))) }) ∧
  (∀ (i : Issuer) (ev : LineEvent) (h : List Byte) (ms : List (List Byte)) (d : Dev) (r : Reason) (s : State),
    live s.dev = true →
    (i = .porter ∧ porterManaged s.dev = true ∨ i = .host .pf ∧ barAnswers s.dev .pf = true ∧ porterManaged s.dev = false) →
    readDesc (s.dev.rly.gbase * 64) ev s.dev = (.ok (h, ms), d) → loadRefusal d (s.dev.rly.gbase * 64) h ms = some r →
    exec (.groupLoad i ev) s = .next { s with dev := settle { d with rly := { d.rly with gresult := r } } }) ∧
  (∀ (i : Issuer) (p : Fin 8) (g slot : Nat) (s : State), live s.dev = true →
    (i = .porter ∧ porterManaged s.dev = true ∨ i = .host .pf ∧ barAnswers s.dev .pf = true ∧ porterManaged s.dev = false) →
    findGroup s.dev p g = some slot → groupNamed s.dev p g = false →
    exec (.groupUnload i p g) s = .next { s with dev := settle (setResult .ok (unloadSlot slot s.dev)) }) ∧
  (∀ (id : Nat) (ev : LineEvent) (c : Cmd) (s : State), live s.dev = true → cmdById s.dev id = some c →
    c.limitHeld = true → limitHolds s.dev c.oct c.raw = false →
    exec (.rallyStepRelease id ev) s = .next { s with dev := meeting ev (fun d => settle
      (setCmd id (fun x => { x with limitHeld := false }) d)) s.dev }) ∧
  (∀ (id : Nat) (ev : LineEvent) (c : Cmd) (st : RStep) (s : State), live s.dev = true → stepOf s.dev id = some st →
    cmdById s.dev id = some c → mayRetire s.dev st c.raw = true →
    (raLast c.raw = false ∨ raColl c.raw = 6) → ¬ (raColl c.raw = 6 ∧ raStep c.raw = 1) →
    exec (.rallyStepRetire id ev) s = .next { s with dev := meeting ev (fun d => settle
      (finish id .done .ok (slotInfo c) false (retireItem id (dropStep id d)))) s.dev })

/-- Packets of a group that pass the checks of R238. DATA and RESULT of a step in flight, whose staging fits, are staged and taken
into the step, and an ACK is applied to its pair; the pair's ACK follows when 8 packets are due. A DATA packet whose tag does not
verify counts as AUTH and one at a PSN already received as REPLAY; nothing else changes but what any command settles.
ACK_TIMER sends the ACK that a pair of a loaded group that has not failed owes, and RETRANSMIT_TIMEOUT sends the packet of the PSN
that is not acknowledged again. -/
def Obligations.DataAndAcksAct : Prop :=
  (∀ (f : Frame) (slot : Nat) (p : Packet) (s : State), live s.dev = true → packetPasses f slot s.dev = true →
    p = packetOf s.dev slot f → f.typ = 1 → stagingFits f slot s.dev = true → dataBelongs s.dev slot p = true →
    exec (.data f) s = .next { s with dev := meeting f.ev (fun d => settle (ackSoon slot p.src
      (takeData slot p (packetStaged f slot d)))) s.dev }) ∧
  (∀ (f : Frame) (slot : Nat) (p : Packet) (s : State), live s.dev = true → packetPasses f slot s.dev = true →
    p = packetOf s.dev slot f → f.typ = 6 → stagingFits f slot s.dev = true → resultBelongs s.dev slot p = true →
    exec (.result f) s = .next { s with dev := meeting f.ev (fun d => settle (ackSoon slot p.src
      (takeData slot p (packetStaged f slot d)))) s.dev }) ∧
  (∀ (f : Frame) (slot : Nat) (p : Packet) (s : State), live s.dev = true → packetPasses f slot s.dev = true →
    p = packetOf s.dev slot f → f.typ = 2 → p.len = 16 →
    exec (.ack f) s = .next { s with dev := settle (ackSoon slot p.src (takeAck slot p (packetMarked f slot s.dev))) }) ∧
  (∀ (f : Frame) (slot : Nat) (s : State), live s.dev = true → packetReaches f slot s.dev = true → f.typ = 1 →
    (tagOk s.dev slot f = false →
      exec (.data f) s = .next { s with dev := meeting f.ev (fun d => settle (setPort f.port (fun x => { x with
        dropAuth := satAdd 0xFFFFFFFF x.dropAuth 1 }) d)) s.dev }) ∧
    (tagOk s.dev slot f = true → replayed (pairEpoch (getGroup s.dev slot) (headPacket f.head []).src (headPacket f.head []).epoch
        (getPair (getGroup s.dev slot) (headPacket f.head []).src)) (headPacket f.head []) = true →
      exec (.data f) s = .next { s with dev := meeting f.ev (fun d => settle (setPort f.port (fun x => { x with
        dropReplay := satAdd 0xFFFFFFFF x.dropReplay 1 }) d)) s.dev })) ∧
  (∀ (p k : Fin 8) (m : Nat) (s : State), live s.dev = true → (getGroup s.dev (8 * p + k)).loaded = true →
    (getGroup s.dev (8 * p + k)).failed = none → 0 < (getPair (getGroup s.dev (8 * p + k)) m).toAck →
    exec (.ackTimer p k m) s = .next { s with dev := sendAck (8 * p + k) m s.dev }) ∧
  (∀ (p k : Fin 8) (m psn : Nat) (q : Sent) (s : State), live s.dev = true →
    ((getPair (getGroup s.dev (8 * p + k)) m).unacked.filter fun x => x.pkt.psn == psn) = [q] →
    exec (.retransmitTimeout p k m psn) s = .next { s with dev := transmit (8 * p + k) q s.dev })

/-- Control packets from a member of a group, that pass the checks of R238; the pair's ACK follows when 8 packets are due. ARRIVE,
LATE, HEARTBEAT, VOTE and DECIDE are taken by takeArrive, takeLate, takeBeat, takeVote and takeDecide; ABORT and LOST fail the group
with the member that they carry. The coordinator notes an ARRIVE that it has not noted, names the late member on a LATE, answers
a HEARTBEAT, and notes the first VOTE of a member, after which it decides when it can; a DECIDE of a vote whose decision is not
known is forwarded, and taken. -/
def Obligations.ControlPacketsAct : Prop :=
  (∀ (f : Frame) (slot : Nat) (p : Packet) (s : State), live s.dev = true → packetPasses f slot s.dev = true →
    p = packetOf s.dev slot f → p.src ≠ switchNo → f.typ = 3 →
    (f.sub = 1 → exec (.arrive f) s = .next { s with dev := (settle (ackSoon slot p.src
      (takeArrive slot p (packetMarked f slot s.dev)))) }) ∧
    (f.sub = 2 → exec (.late f) s = .next { s with dev := (settle (ackSoon slot p.src
      (takeLate slot p (packetMarked f slot s.dev)))) }) ∧
    (f.sub = 3 → exec (.abort f) s = .next { s with dev := (settle (ackSoon slot p.src
      (failGroup slot (reasonOfCode (p.arg % 256)) (p.arg / 256 % 65536) false (packetMarked f slot s.dev)))) }) ∧
    (f.sub = 4 → exec (.lost f) s = .next { s with dev := (settle (ackSoon slot p.src
      (failGroup slot .memberLost (p.arg % 65536) false (packetMarked f slot s.dev)))) }) ∧
    (f.sub = 5 → exec (.heartbeat f) s = .next { s with dev := (settle (ackSoon slot p.src
      (takeBeat slot p (packetMarked f slot s.dev)))) }) ∧
    (f.sub = 6 → exec (.vote f) s = .next { s with dev := (settle (ackSoon slot p.src
      (takeVote slot p (packetMarked f slot s.dev)))) }) ∧
    (f.sub = 7 → p.arg ≤ 2 → exec (.decide f) s = .next { s with dev := (settle (ackSoon slot p.src
      (takeDecide slot p (packetMarked f slot s.dev)))) })) ∧
  (∀ (slot : Nat) (p : Packet) (d : Dev), (getGroup d slot).self = 0 →
    ((getGroup d slot).arrived.contains (p.collSeq, p.step, p.src) = false →
      takeArrive slot p d = setGroup slot (fun g => { g with arrived := (p.collSeq, p.step, p.src) :: g.arrived }) d) ∧
    takeLate slot p d = nameLate slot p.collSeq p.step (p.arg % 65536) false d ∧
    takeBeat slot p d = sendUnrel slot p.src (beatPkt d slot p.src) d ∧
    (((votesOf (getGroup d slot) p.collSeq).any fun v => v.1 == p.src) = false →
      takeVote slot p d = coordinate slot p.collSeq (setGroup slot (fun g => { g with votes := g.votes ++ [(p.collSeq, p.src,
        (List.range 8).map (fun i => BitVec.ofNat 32 (field p.payload (4 * i) 4)), bitAt (field p.payload 32 4) 0)] }) d))) ∧
  (∀ (slot : Nat) (p : Packet) (d : Dev), decisionOf (getGroup d slot) p.collSeq = none →
    takeDecide slot p d = takeDecision slot p.collSeq p.arg (field p.payload 0 4 % 65536)
      (sendDecide slot p.collSeq p.arg (field p.payload 0 4 % 65536) d))

/-- Lease packets from the switch of a group whose session is attested, that pass the checks of R238; the pair's ACK follows when 8
packets are due. A GRANT gives the lease that its payload states, a REFUSE leaves none with LEASE_REFUSED, an EXPIRED ends the
lease that it names from its collective and chunk on, a PEER_DOWN declares its member lost, and a MISSING that answers the
outstanding query aborts with the member that it names. LEASE_RENEW_TIMER of the coordinator of a loaded group that has not failed
renews the lease that it holds, and LEASE_REQUEST_RETRY of a loaded group asks for one where it may. -/
def Obligations.LeasePacketsAct : Prop :=
  (∀ (f : Frame) (slot : Nat) (p : Packet) (s : State), live s.dev = true → packetPasses f slot s.dev = true →
    p = packetOf s.dev slot f → fromSwitch s.dev slot p = true → f.typ = 4 →
    (f.sub = 2 → exec (.grant f) s = .next { s with dev := (settle (ackSoon slot p.src
      (setGroup slot (fun g => { g with
        lease := some { id := p.lease, slots := beNat (slice p.payload 0 2), fromSeq := beNat (slice p.payload 2 4)
                        ttl := beNat (slice p.payload 6 4), lat := beNat (slice p.payload 10 2) }
        leaseReason := .ok, requested := false }) (packetMarked f slot s.dev)))) }) ∧
    (f.sub = 3 → exec (.refuse f) s = .next { s with dev := (settle (ackSoon slot p.src
      (setGroup slot (fun g => { g with lease := none, leaseReason := .leaseRefused, requested := false })
        (packetMarked f slot s.dev)))) }) ∧
    (f.sub = 6 → exec (.expired f) s = .next { s with dev := (settle (ackSoon slot p.src
      (expireLease slot p.lease (beNat (slice p.payload 0 4)) (beNat (slice p.payload 4 4))
        (packetMarked f slot s.dev)))) }) ∧
    (f.sub = 7 → exec (.peerDown f) s = .next { s with dev := (settle (ackSoon slot p.src
      (declareLost slot (beNat (slice p.payload 0 2)) (packetMarked f slot s.dev)))) }) ∧
    (∀ q, (getGroup s.dev slot).query = some q → q.1 = beNat (slice p.payload 0 4) →
      q.2.1 = beNat (slice p.payload 4 4) → f.sub = 9 →
      exec (.missing f) s = .next { s with dev := (settle (ackSoon slot p.src
        (abortAll slot (beNat (slice p.payload 8 2)) false (packetMarked f slot s.dev)))) })) ∧
  (∀ (p k : Fin 8) (l : Lease) (s : State), live s.dev = true → (getGroup s.dev (8 * p + k)).lease = some l →
    (getGroup s.dev (8 * p + k)).loaded = true → (getGroup s.dev (8 * p + k)).failed = none →
    (getGroup s.dev (8 * p + k)).self = 0 →
    exec (.leaseRenewTimer p k) s = .next { s with dev := sendLease (8 * p + k) 4 l.id [] s.dev }) ∧
  (∀ (p k : Fin 8) (s : State), live s.dev = true → (getGroup s.dev (8 * p + k)).loaded = true →
    exec (.leaseRequestRetry p k) s = .next { s with dev := requestLease (8 * p + k) s.dev })

/-- HEARTBEAT_TIMER of a loaded group: a member that is not the coordinator sends its heartbeat to it and keeps the moment, and any
member sends one to each of its ring neighbours. NEIGHBOUR_SILENCE of a ring neighbour that has been heard declares it lost.
RLY_DEADLINE_EXPIRY of a step with no boundary left that is not yet late makes it late. ABORT_WAIT_EXPIRY of a late step of a member
that is not the coordinator aborts with the coordinator's number, and QUERY_TIMEOUT of an unanswered query with the switch's. -/
def Obligations.RallyTimersAct : Prop :=
  (∀ (p k : Fin 8) (s : State), live s.dev = true → (getGroup s.dev (8 * p + k)).loaded = true →
    ((getGroup s.dev (8 * p + k)).self ≠ 0 →
      exec (.heartbeatTimer p k true) s = .next { s with dev := (sendUnrel (8 * p + k) 0 (beatPkt s.dev (8 * p + k) 0)
        (setGroup (8 * p + k) (fun g => { g with hbSent := some s.dev.tck.now }) s.dev)) }) ∧
    exec (.heartbeatTimer p k false) s = .next { s with dev :=
      (([((getGroup s.dev (8 * p + k)).self + 1) % memberCount (getGroup s.dev (8 * p + k)),
        ((getGroup s.dev (8 * p + k)).self + memberCount (getGroup s.dev (8 * p + k)) - 1) %
          memberCount (getGroup s.dev (8 * p + k))].eraseDups.filter (· != (getGroup s.dev (8 * p + k)).self)).foldl
        (fun d n => sendUnrel (8 * p + k) n (beatPkt d (8 * p + k) n) d) s.dev) }) ∧
  (∀ (p k : Fin 8) (m : Nat) (s : State), live s.dev = true → (getGroup s.dev (8 * p + k)).loaded = true →
    (m = ((getGroup s.dev (8 * p + k)).self + 1) % memberCount (getGroup s.dev (8 * p + k)) ∨
      m = ((getGroup s.dev (8 * p + k)).self + memberCount (getGroup s.dev (8 * p + k)) - 1) %
        memberCount (getGroup s.dev (8 * p + k))) →
    m ≠ (getGroup s.dev (8 * p + k)).self → (getPair (getGroup s.dev (8 * p + k)) m).heard = true →
    exec (.neighbourSilence p k m) s = .next { s with dev := settle (declareLost (8 * p + k) m s.dev) }) ∧
  (∀ (id : Nat) (st : RStep) (s : State), live s.dev = true → stepOf s.dev id = some st → st.left = 0 →
    st.lateLeft = none →
    exec (.rlyDeadlineExpiry id) s = .next { s with dev := settle (rallyLate st s.dev) }) ∧
  (∀ (id : Nat) (st : RStep) (s : State), live s.dev = true → stepOf s.dev id = some st → st.lateLeft = some 0 →
    (getGroup s.dev st.slot).self ≠ 0 →
    exec (.abortWaitExpiry id) s = .next { s with dev := settle (abortAll st.slot 0 true s.dev) }) ∧
  (∀ (id slot : Nat) (s : State), live s.dev = true →
    ((List.range 64).find? fun k => (getGroup s.dev k).query.any fun q => q.2.2 == id) = some slot →
    exec (.queryTimeout id) s = .next { s with dev := settle (abortAll slot switchNo false s.dev) })

/-! ## Partitions and views (12) -/

/-- PARTITION_CREATE by the holder of management, of a partition that is neither enabled nor in force, writes the fields; when
every check passes it is enabled and SHT_STATUS is OK, and otherwise it stays off and SHT_STATUS says why. PARTITION_CREATE_EFFECT
puts an enabled one in force: its octants join it, the others are as they were, and SECRETS_ERASED clears. PARTITION_RELEASE of one
in force, idle and in no L2, marks it as releasing. PARTITION_RELEASE_EFFECT of such a one ends it: its charter and fine timing are
gone, and its octants are owned no more and scrub, with the zero-fill that was asked for; a FAILED octant stays FAILED.
RELEASE_SCRUB of a scrubbing octant with nothing in flight, of no partition, whose stack's root is valid runs the steps of the
scrub; with at most one difference the octant is CLEAN, or ZERO_FILLING where that was asked for, and with two or more it is FAILED.
ZERO_FILL_COMPLETE of a zero-filling octant of no partition zeroes its stack and makes it CLEAN. -/
def Obligations.PartitionsAndScrubsAct : Prop :=
  (∀ (i : Issuer) (v : Fin 8) (octants kb kc : Nat) (z : Bool) (p : Part) (s : State), holds i s.dev = true →
    (getPart s.dev v).en = false → (getPart s.dev v).live = false →
    p = { getPart s.dev v with octants := BitVec.ofNat 8 octants, kdBase := kb, kdCount := kc, zeroFill := z } →
    exec (.partitionCreate i v octants kb kc z) s = .next { s with dev := (setStatus 0x70000 (createCheck s.dev v p)
      (setPart v (fun _ => { p with en := (createCheck s.dev v p).isNone }) s.dev)) }) ∧
  (∀ (v : Fin 8) (s : State), live s.dev = true → (getPart s.dev v).en = true → (getPart s.dev v).live = false →
    ∃ t, exec (.partitionCreateEffect v) s = .next t ∧ t.pending = s.pending ∧ (getPart t.dev v).live = true ∧
      t.dev.ptr.erased = false ∧ ∀ o : Fin 8,
        ((getPart s.dev v).octants.getLsbD o = true → (getSht t.dev o).owned = true ∧ (getSht t.dev o).vf = v) ∧
        ((getPart s.dev v).octants.getLsbD o = false → getSht t.dev o = getSht s.dev o)) ∧
  (∀ (i : Issuer) (v : Fin 8) (s : State), holds i s.dev = true → (getPart s.dev v).en = true →
    (getPart s.dev v).live = true → partIdle s.dev v = true → resetting s.dev v = false →
    exec (.partitionRelease i v) s = .next { s with dev := (setStatus 0x70000 none
      (setPart v (fun p => { p with en := false, releasing := true }) s.dev)) }) ∧
  (∀ (v : Fin 8) (s : State), live s.dev = true → (getPart s.dev v).live = true → (getPart s.dev v).releasing = true →
    (getPart s.dev v).en = false →
    ∃ d, exec (.partitionReleaseEffect v) s = .next { s with dev := settle d } ∧ (getPart d v).live = false ∧
      (getCharter d v) = Charter.zero ∧ d.pwr.fine = false ∧ ∀ o : Fin 8, (getPart s.dev v).octants.getLsbD o = true →
        (getSht d o).owned = false ∧ (getSht d o).oldVf = some v.val ∧
        ((getSht s.dev o).state ≠ .failed → (getSht d o).state = .scrubbing ∧
          (getSht d o).zeroFill = (getPart s.dev v).zeroFill) ∧
        ((getSht s.dev o).state = .failed → (getSht d o).state = .failed)) ∧
  (∀ (o : Fin 8) (n kind index : Nat) (s : State), live s.dev = true → (getSht s.dev o).state = .scrubbing →
    octVf s.dev o = none → (getStack s.dev o).rootValid = true → octQuiet s.dev o = true →
    (n < 2 → exec (.releaseScrub o n kind index) s = .next { s with dev := (tracked (fun d =>
      setSht o (fun x => { x with state := if x.zeroFill then .zeroFilling else .clean, reason := .ok, doneTick := tickLo d
                                  oldVf := none })
        (scrubSteps o d)) s.dev) }) ∧
    (2 ≤ n → ∃ t, exec (.releaseScrub o n kind index) s = .next t ∧ (getSht t.dev o).state = .failed ∧
      (getSht t.dev o).reason = .hungUnit ∧ has8 t.dev.pkg.octFailed o = true)) ∧
  (∀ (o : Fin 8) (s : State), live s.dev = true → (getSht s.dev o).state = .zeroFilling → octVf s.dev o = none →
    exec (.zeroFillComplete o) s = .next { s with dev := (tracked (fun d =>
      setSht o (fun x => { x with state := .clean, doneTick := tickLo d, zeroFill := false }) (zeroStack o d)) s.dev) })

/-- LOUVRE_UPDATE with an interval that has ended gives every VF its view: the quantised mean power and highest temperature of the
interval, and the tick; nothing else changes. FINE_TIMING_WRITE by the holder of management turns fine timing on where fineCheck finds
nothing against it, and off at any time, with PWR_STATUS OK; Porter's write of 1 that is refused leaves the reason in PWR_STATUS. -/
def Obligations.ViewsAndFineTimingAct : Prop :=
  (∀ (sum : Nat) (hot : Option Int) (s : State), live s.dev = true → s.dev.pwr.lvDone = some (sum, hot) →
    ∃ t, exec .louvreUpdate s = .next t ∧ t.pending = s.pending ∧ t.dev.pwr.lvDone = none ∧
      (∀ v : Fin 8, look (0, 0, 0) v.val t.dev.pwr.view =
        (powerQ sum (louvreTicks s.dev), tempQ hot s.dev.free, tickLo s.dev)) ∧
      t.dev = { s.dev with pwr := { s.dev.pwr with view := t.dev.pwr.view, lvDone := none }, free := s.dev.free + 1 }) ∧
  (∀ (i : Issuer) (s : State), holds i s.dev = true → fineCheck s.dev = none →
    exec (.fineTimingWrite i true) s = .next { s with dev := (tracked (fun d =>
      setStatus 0x20000 none { d with pwr := { d.pwr with fine := true } }) s.dev) }) ∧
  (∀ (i : Issuer) (s : State), holds i s.dev = true →
    exec (.fineTimingWrite i false) s = .next { s with dev := (tracked (fun d =>
      setStatus 0x20000 none { d with pwr := { d.pwr with fine := false } }) s.dev) }) ∧
  (∀ (r : Reason) (s : State), holds .porter s.dev = true → fineCheck s.dev = some r →
    exec (.fineTimingWrite .porter true) s = .next { s with dev := (tracked (fun d =>
      setStatus 0x20000 (some (r, fieldIdOf 0x200 0)) d) s.dev) })

/-! ## Joint training (11) -/

/-- A final CHARTER_LOAD or CHARTER_APPEND whose bytes pass the checks: SECRETS_ERASED clears, the domains of an earlier charter
rotate, the charter is the parsed one, PENDING, with the withdrawals that wait for the boundary kept, the VF is told, and the
answer is OK; one that fails a check is answered with its reason and nothing waits for further parts. A part that is not final is
kept for the rest. An append with no part waiting is answered FIELD_CONFLICT. -/
def Obligations.ChartersLoad : Prop :=
  (∀ (seq : Word) (v : Fin 8) (b : List Byte) (s : State), mailboxOpen s.dev = true → charterCheck s.dev v b = none →
    exec (.charterLoad seq v b true) s = .next { s with dev := (tracked (fun d => mboxEnd .ok [] (partChanged v
      (setCharter v (fun _ => { parseCharter b with withdrawing := (getCharter d v).withdrawing }) (secretsHeld ((if (getCharter d v).state = .none then id
        else fun d' => (charterDomains (getCharter d v)).foldl (fun d k => rotateDomain k d) d')
        (noCharterPart (mboxTake 0x0001 seq (natLe 1 v.val ++ b) d))))))) s.dev) }) ∧
  (∀ (seq : Word) (v : Fin 8) (b : List Byte) (r : Reason) (s : State), mailboxOpen s.dev = true →
    charterCheck s.dev v b = some r →
    exec (.charterLoad seq v b true) s = .next { s with dev := (tracked (fun d =>
      mboxEnd r [] (noCharterPart (mboxTake 0x0001 seq (natLe 1 v.val ++ b) d))) s.dev) }) ∧
  (∀ (seq : Word) (v : Fin 8) (b : List Byte) (s : State), mailboxOpen s.dev = true →
    exec (.charterLoad seq v b false) s = .next { s with dev := (tracked (fun d =>
      mboxEnd .ok [] (keepCharterPart v b (mboxTake 0x0001 seq (natLe 1 v.val ++ b) d))) s.dev) }) ∧
  (∀ (seq : Word) (v : Nat) (l b : List Byte) (s : State), mailboxOpen s.dev = true → s.dev.ptr.loading = some (v, l) →
    exec (.charterAppend seq b false) s = .next { s with dev := (tracked (fun d =>
      mboxEnd .ok [] (keepCharterPart v (l ++ b) (mboxTake 0x0002 seq b d))) s.dev) }) ∧
  (∀ (seq : Word) (v : Nat) (l b : List Byte) (s : State), mailboxOpen s.dev = true → s.dev.ptr.loading = some (v, l) →
    charterCheck s.dev v (l ++ b) = none →
    exec (.charterAppend seq b true) s = .next { s with dev := (tracked (fun d => mboxEnd .ok [] (partChanged v
      (setCharter v (fun _ => { parseCharter (l ++ b) with withdrawing := (getCharter d v).withdrawing }) (secretsHeld ((if (getCharter d v).state = .none then id
        else fun d' => (charterDomains (getCharter d v)).foldl (fun d k => rotateDomain k d) d')
        (noCharterPart (mboxTake 0x0002 seq b d))))))) s.dev) }) ∧
  (∀ (seq : Word) (b : List Byte) (final : Bool) (s : State), mailboxOpen s.dev = true → s.dev.ptr.loading = none →
    exec (.charterAppend seq b final) s = .next { s with dev := (tracked (fun d =>
      mboxEnd .fieldConflict [] (mboxTake 0x0002 seq b d)) s.dev) })

/-- In the session of a party, over a function that is present. CHARTER_APPROVE of a PENDING charter with its hash and the present
GENERATION records the approval, and the last party's makes the charter ACTIVE. CHARTER_WITHDRAW of an ACTIVE charter makes it
WITHDRAWN, notes the party for the boundary and tells the VF. WITHDRAW_EFFECT with parties noted faults every context of the
partition with CHARTER_MISMATCH, and for each of these parties disables the windows keyed to it and rotates its key domain.
JOB_KEY_DELIVER, in Porter-managed mode by party 0, installs the job key of a group that is not loaded. -/
def Obligations.PartiesDecide : Prop :=
  (∀ (k n : Nat) (x : Session) (v : Fin 8) (dig : BitVec 384) (gen : Word) (s : State), live s.dev = true →
    sessOf s.dev k = some x → x.fn = 1 + v.val → fnPresent s.dev (.vf v) = true →
    charterParty (getCharter s.dev v) x = some n → (getCharter s.dev v).state = .pending →
    dig = (getCharter s.dev v).hash → gen = s.dev.ret.generation →
    ((getCharter s.dev v).approved ||| partyBit n ≠ onDieMask (getCharter s.dev v).n →
      exec (.charterApprove k dig gen) s = .next { s with dev := (tracked (fun d => spdmSay x.fn 0x7E []
        (setCharter v (fun c => { c with approved := c.approved ||| partyBit n }) d)) s.dev) }) ∧
    ((getCharter s.dev v).approved ||| partyBit n = onDieMask (getCharter s.dev v).n →
      exec (.charterApprove k dig gen) s = .next { s with dev := (tracked (fun d => spdmSay x.fn 0x7E []
        (activate v (setCharter v (fun c => { c with approved := c.approved ||| partyBit n }) d))) s.dev) })) ∧
  (∀ (k n : Nat) (x : Session) (v : Fin 8) (s : State), live s.dev = true → sessOf s.dev k = some x → x.fn = 1 + v.val →
    fnPresent s.dev (.vf v) = true → charterParty (getCharter s.dev v) x = some n →
    (getCharter s.dev v).state = .active →
    exec (.charterWithdraw k) s = .next { s with dev := (tracked (fun d => spdmSay x.fn 0x7E [] (partChanged v
      (setCharter v (fun c => { c with state := .withdrawn, withdrawing := c.withdrawing ++ (c.parties[n]?).toList }) d))) s.dev) }) ∧
  (∀ (v : Fin 8) (s : State), live s.dev = true → (getCharter s.dev v).withdrawing ≠ [] →
    exec (.withdrawEffect v) s = .next { s with dev := (settle ((getCharter s.dev v).withdrawing.foldl (fun d p =>
      rotateDomain p.domain ((List.range 16).foldl (fun d w => if keyedTo d v w p then winDisable v w d else d) d))
        (faultPartition v .charterMismatch { recBase with source := 10 }
          (setCharter v (fun c => { c with withdrawing := [] }) s.dev)))) }) ∧
  (∀ (k g : Nat) (key : List Byte) (x : Session) (v : Fin 8) (s : State), live s.dev = true → sessOf s.dev k = some x →
    x.fn = 1 + v.val → fnPresent s.dev (.vf v) = true →
    (porterManaged s.dev = false ∨ charterParty (getCharter s.dev v) x = some 0) → groupLoaded s.dev v g = false →
    exec (.jobKeyDeliver k g key) s = .next { s with dev := (spdmSay x.fn 0x7E [] (putJobKey v g key s.dev)) })

/-- WINDOW_ENABLE by the holder of management, of a window whose EN reads 0: one that passes its check is in force, with its
session's secret, and starts an epoch, and of one that does not TRS_STATUS names the failure. WINDOW_DISABLE_REQUEST by the holder
makes EN read 0. WINDOW_DISABLE of a window in force whose EN reads 0, which no open transfer uses and no ring lies in, ends it.
REARM of an enabled window that is no ring, by a function that may, marks it, and REARM_EFFECT of a marked window in force that no
open transfer uses starts an epoch and tells the VF. POOL_CONFIGURE by the holder of a pool whose EN reads 0: one that passes its check
is IDLE and empty, and of one that does not LBL_STATUS names the failure. -/
def Obligations.WindowsAndPoolsAct : Prop :=
  (∀ (i : Issuer) (v : Fin 8) (w : Fin 16) (s : State), holds i s.dev = true → (getWin s.dev v w).en = false →
    winCheck s.dev v w (getWin s.dev v w) = none →
    exec (.windowEnable i v w) s = .next { s with dev := (newEpoch v w
      (setWin v w (fun x => { x with en := true, live := true, ended := false, secret := sessionSecret s.dev x.session })
        (setStatus 0x90000 none s.dev))) }) ∧
  (∀ (i : Issuer) (v : Fin 8) (w : Fin 16) (e : Reason × Nat) (s : State), holds i s.dev = true →
    (getWin s.dev v w).en = false → winCheck s.dev v w (getWin s.dev v w) = some e →
    exec (.windowEnable i v w) s = .next { s with dev := setStatus 0x90000 (some e) s.dev }) ∧
  (∀ (i : Issuer) (v : Fin 8) (w : Fin 16) (s : State), holds i s.dev = true →
    exec (.windowDisableRequest i v w) s = .next { s with dev := setWin v w (fun x => { x with en := false }) s.dev }) ∧
  (∀ (v : Fin 8) (w : Fin 16) (s : State), live s.dev = true → (getWin s.dev v w).live = true →
    (getWin s.dev v w).en = false → (∀ x ∈ s.dev.xfers, (xferOpen x && usesWin s.dev v w x) = false) →
    (∀ o q, ringIn w (getQueue s.dev o q) = false) →
    exec (.windowDisable v w) s = .next { s with dev := (settle (setWin v w (fun x => { x with
      en := false, live := false, ended := false, rearm := false, statusDue := false }) s.dev)) }) ∧
  (∀ (f : Fn) (v : Fin 8) (w : Fin 16) (s : State), barAnswers s.dev f = true → mayRearm s.dev f v = true →
    (getWin s.dev v w).ring = false → (getWin s.dev v w).en = true →
    exec (.rearm f v w) s = .next { s with dev := setWin v w (fun x => { x with rearm := true }) s.dev }) ∧
  (∀ (v : Fin 8) (w : Fin 16) (s : State), live s.dev = true → (getWin s.dev v w).rearm = true →
    (getWin s.dev v w).live = true → (s.dev.xfers.any fun x => xferOpen x && usesWin s.dev v w x) = false →
    exec (.rearmEffect v w) s = .next { s with dev := partChanged v (newEpoch v w s.dev) }) ∧
  (∀ (i : Issuer) (n : Fin 64) (s : State), holds i s.dev = true → (getPool s.dev n).en = false →
    poolCheck s.dev n (getPool s.dev n) = none →
    exec (.poolConfigure i n) s = .next { s with dev := setPool n freshPool (setStatus 0xA0000 none s.dev) }) ∧
  (∀ (i : Issuer) (n : Fin 64) (e : Reason × Nat) (s : State), holds i s.dev = true → (getPool s.dev n).en = false →
    poolCheck s.dev n (getPool s.dev n) = some e →
    exec (.poolConfigure i n) s = .next { s with dev := setStatus 0xA0000 (some e) s.dev })

/-! ## The Porter mailbox (13) -/

/-- Mailbox requests of an open mailbox, each answered OK. TICK_PERIOD of a legal period writes the shadow and sets APPLY where none
pends. FINE_TIMING on, where nothing is against it, and off write the bit. PART_SET of a partition neither enabled nor in force
creates it with its fields when the checks pass, or writes the fields, and nothing of another partition; with EN 0, of one in force,
idle and in no L2, it marks it as releasing. SEQ_MGMT of an octant in which no command runs does what mgmtStart does and answers with
its reason, or when the command ends. GROUP loads a descriptor that reads and that no check refuses into the port's first free slot, or
unloads a group that no accepted command names. TRS_CONFIG writes a slot's shadow with APPLY where the slots agree and none pends, and the
fields of a window neither enabled nor in force, which with EN 1 it also enables when its check passes; with EN 0 it closes an enabled
window. POOL_CONFIG in host-managed mode writes the fields of a pool whose EN reads 0, which with EN 1 it also enables when its check
passes. -/
def Obligations.MailboxConfigures : Prop :=
  (∀ (seq : Word) (u : Nat) (s : State), mailboxOpen s.dev = true → unitsCheck u = none → periodCheck s.dev = none →
    (getBlk s.dev 0x10000).apply = false →
    exec (.tickPeriod seq u) s = .next { s with dev := (mboxDone 0x12 seq (natLe 1 u) .ok [] (fun d =>
      setBlk 0x10000 (fun x => { x with apply := true })
        { d with tck := { d.tck with units := { d.tck.units with shadow := u } } }) s.dev) }) ∧
  (∀ (seq : Word) (s : State), mailboxOpen s.dev = true → fineCheck s.dev = none →
    exec (.fineTiming seq true) s = .next { s with dev := (tracked (mboxDone 0x13 seq (natLe 1 1) .ok [] (fun d =>
      setStatus 0x20000 none { d with pwr := { d.pwr with fine := true } })) s.dev) }) ∧
  (∀ (seq : Word) (s : State), mailboxOpen s.dev = true →
    exec (.fineTiming seq false) s = .next { s with dev := (tracked (mboxDone 0x13 seq (natLe 1 0) .ok [] (fun d =>
      setStatus 0x20000 none { d with pwr := { d.pwr with fine := false } })) s.dev) }) ∧
  (∀ (seq : Word) (v : Fin 8) (w : DWord) (p : Part) (s : State), mailboxOpen s.dev = true →
    (getPart s.dev v).en = false → (getPart s.dev v).live = false → bitAt w.toNat 24 = true →
    p = { getPart s.dev v with octants := BitVec.ofNat 8 (bits w.toNat 0 8), kdBase := bits w.toNat 8 8
                               kdCount := bits w.toNat 16 7, zeroFill := bitAt w.toNat 23 } →
    createCheck s.dev v p = none →
    exec (.partSet seq v w) s = .next { s with dev := (tracked (mboxDone 0x10 seq (natLe 1 v.val ++ natLe 8 w.toNat) .ok []
      (fun d => setStatus 0x70000 none (setPart v (fun _ => { p with en := true }) d))) s.dev) }) ∧
  (∀ (seq : Word) (v : Fin 8) (w : DWord) (s : State), mailboxOpen s.dev = true → (getPart s.dev v).en = false →
    (getPart s.dev v).live = false → bitAt w.toNat 24 = false →
    ∃ t, exec (.partSet seq v w) s = .next t ∧ t.pending = s.pending ∧ t.dev.ptr.busy = false ∧ t.dev.ptr.mboxReason = .ok ∧
      ∀ u : Nat, getPart t.dev u = if u = v.val then { getPart s.dev v with
        octants := BitVec.ofNat 8 w.toNat, kdBase := bits w.toNat 8 8, kdCount := bits w.toNat 16 7
        zeroFill := bitAt w.toNat 23 } else getPart s.dev u) ∧
  (∀ (seq : Word) (v : Fin 8) (w : DWord) (s : State), mailboxOpen s.dev = true → (getPart s.dev v).en = true →
    (getPart s.dev v).live = true → bitAt w.toNat 24 = false → partIdle s.dev v = true → resetting s.dev v = false →
    exec (.partSet seq v w) s = .next { s with dev := (tracked (mboxDone 0x10 seq (natLe 1 v.val ++ natLe 8 w.toNat) .ok []
      (fun d => setStatus 0x70000 none (setPart v (fun p => { p with en := false, releasing := true })
        (setPart v (fun p => { p with zeroFill := bitAt w.toNat 23 }) d)))) s.dev) }) ∧
  (∀ (seq : Word) (o : Fin 8) (c : MgmtCmd) (r : Reason) (d : Dev) (s : State), mailboxOpen s.dev = true →
    (getSeq s.dev o).mgmt = .none →
    mgmtStart o false c (mboxTake 0x20 seq (natLe 1 o.val ++ mgmtBytes c) s.dev) = (.ended r, d) →
    exec (.seqMgmt seq o c) s = .next { s with dev := (mboxEnd r [] (setSeq o (fun q => { q with mgmtReason := r }) d)) }) ∧
  (∀ (seq : Word) (o : Fin 8) (c : MgmtCmd) (m : MgmtRun) (d : Dev) (s : State), mailboxOpen s.dev = true →
    (getSeq s.dev o).mgmt = .none →
    mgmtStart o false c (mboxTake 0x20 seq (natLe 1 o.val ++ mgmtBytes c) s.dev) = (.running m, d) →
    exec (.seqMgmt seq o c) s = .next { s with dev := (setSeq o (fun q => { q with mgmt := m, mgmtMbox := true }) d) }) ∧
  (∀ (seq : Word) (gb slot : Nat) (p : Fin 8) (g : Nat) (ev : LineEvent) (h : List Byte) (ms : List (List Byte)) (d : Dev)
    (s : State), mailboxOpen s.dev = true →
    readDesc (gb % 2 ^ 34 * 64) ev (setGbase gb (mboxTake 0x21 seq (natLe 1 1 ++ natLe 1 p.val ++ natLe 2 g ++ natLe 8 gb)
      s.dev)) = (.ok (h, ms), d) → loadRefusal d (gb % 2 ^ 34 * 64) h ms = none →
    (((List.range 8).map (8 * byteAt h 0xA + ·)).find? fun k => !(getGroup d k).loaded) = some slot →
    exec (.group seq true gb p g ev) s = .next { s with dev := (mboxEnd .ok [] (requestLease slot (setResult .ok
      (setGroup slot (fun _ => descGroup d (getSht d (byteAt h 0xA)).vf h ms) d)))) }) ∧
  (∀ (seq : Word) (gb slot : Nat) (p : Fin 8) (g : Nat) (ev : LineEvent) (s : State), mailboxOpen s.dev = true →
    findGroup s.dev p g = some slot → groupNamed s.dev p g = false →
    exec (.group seq false gb p g ev) s = .next { s with dev := (mboxDone 0x21 seq
      (natLe 1 0 ++ natLe 1 p.val ++ natLe 2 g ++ natLe 8 gb) .ok [] (fun d => setResult .ok (unloadSlot slot d)) s.dev) }) ∧
  (∀ (seq : Word) (v : Fin 8) (a b : Nat) (en : Bool) (s : State), mailboxOpen s.dev = true →
    (getBlk s.dev 0x90000).apply = false →
    slotCheck s.dev (fun u => if u = v.val then packSlot a b en else (getSlot s.dev u).shadow) = none →
    exec (.trsConfig seq (.slot v a b en)) s = .next { s with dev := (mboxDone 0x22 seq
      (natLe 1 v.val ++ natLe 8 (packSlot a b en)) .ok [] (fun d => setBlk 0x90000 (fun x => { x with apply := true })
        (setSlot v (fun r => { r with shadow := packSlot a b en }) d)) s.dev) }) ∧
  (∀ (seq : Word) (v : Fin 8) (w : Fin 16) (db rb sz : Nat) (ring hw : Bool) (party : Nat) (pv : Bool) (m : Label) (ss : Nat)
    (x : Win) (s : State), mailboxOpen s.dev = true → (getWin s.dev v w).en = false → (getWin s.dev v w).live = false →
    x = { getWin s.dev v w with dataBase := db, recordBase := rb, size := sz, ring := ring, hostWritten := hw, party := party
                                partyValid := pv, admitMask := m, session := ss } →
    x ≠ getWin s.dev v w →
    exec (.trsConfig seq (.window v w db rb sz ring hw party pv m ss false)) s = .next { s with dev := (mboxDone 0x22 seq
      (trsBytes (.window v w db rb sz ring hw party pv m ss false)) .ok [] (setWin v w (fun _ => x)) s.dev) } ∧
    (winCheck s.dev v w x = none →
      exec (.trsConfig seq (.window v w db rb sz ring hw party pv m ss true)) s = .next { s with dev := (mboxDone 0x22 seq
        (trsBytes (.window v w db rb sz ring hw party pv m ss true)) .ok [] (fun d => newEpoch v w
          (setWin v w (fun y => { y with
              en := true, live := true, ended := false, secret := sessionSecret d y.session })
            (setStatus 0x90000 none (setWin v w (fun _ => x) d)))) s.dev) })) ∧
  (∀ (seq : Word) (v : Fin 8) (w : Fin 16) (db rb sz : Nat) (ring hw : Bool) (party : Nat) (pv : Bool) (m : Label) (ss : Nat)
    (s : State), mailboxOpen s.dev = true → (getWin s.dev v w).en = true →
    exec (.trsConfig seq (.window v w db rb sz ring hw party pv m ss false)) s = .next { s with dev := (mboxDone 0x22 seq
      (trsBytes (.window v w db rb sz ring hw party pv m ss false)) .ok []
      (setWin v w (fun x => { x with en := false })) s.dev) }) ∧
  (∀ (seq : Word) (n : Fin 64) (w : DWord) (s : State), mailboxOpen s.dev = true → porterManaged s.dev = false →
    (getPool s.dev n).en = false →
    (bitAt w.toNat 21 = false →
      exec (.poolConfig seq n w) s = .next { s with dev := (mboxDone 0x23 seq (natLe 1 n.val ++ natLe 8 w.toNat) .ok []
        (setPool n (poolFields w.toNat)) s.dev) }) ∧
    (bitAt w.toNat 21 = true → poolCheck s.dev n (poolFields w.toNat (getPool s.dev n)) = none →
      exec (.poolConfig seq n w) s = .next { s with dev := (mboxDone 0x23 seq (natLe 1 n.val ++ natLe 8 w.toNat) .ok []
        (fun d => setPool n freshPool (setStatus 0xA0000 none (setPool n (poolFields w.toNat) d))) s.dev) }))

/-- Update requests of a mailbox that takes them, in service and in recovery. UPDATE_BEGIN of at most 24 MiB opens staging, and while
staging is open it is answered BUSY_UPDATE. UPDATE_WRITE within the length, not on a trial boot, writes the inactive slot.
UPDATE_VERIFY of an acceptable image stages it with its digests and SVN, and of another is answered with the reason. UPDATE_ACTIVATE of
a staged image with no pointer switch in progress starts the pointer write, and the request stays in progress. UPDATE_CANCEL leaves the
inactive slot empty. -/
def Obligations.UpdatesAreStaged : Prop :=
  (∀ (seq : Word) (n : Nat) (s : State), updateOpen s.dev = true → s.dev.ptr.stg.isOpen = false → n ≤ 25165824 →
    exec (.updateBegin seq n) s = .next { s with dev := (tracked (mboxDone 0x30 seq (natLe 4 n) .ok []
      (setStg fun g => { g with isOpen := true, length := n, staged := false })) s.dev) }) ∧
  (∀ (seq : Word) (n : Nat) (s : State), updateOpen s.dev = true → s.dev.ptr.stg.isOpen = true →
    exec (.updateBegin seq n) s = .next { s with dev := (tracked (mboxDone 0x30 seq (natLe 4 n) .busyUpdate [] id) s.dev) }) ∧
  (∀ (seq : Word) (off : Nat) (bs : List Byte) (s : State), updateOpen s.dev = true → s.dev.ptr.trial = false →
    off + bs.length ≤ s.dev.ptr.stg.length →
    exec (.updateWrite seq off bs) s = .next { s with dev := (tracked (mboxDone 0x31 seq (natLe 4 off ++ natLe 4 0 ++ bs)
      .ok [] (fun d => setStg (fun g => { g with isOpen := true, staged := false }) { d with
        flash := setFlashSlot (!d.ptr.slot) (writeBytes (slotOf d.flash (!d.ptr.slot)) off bs) d.flash })) s.dev) }) ∧
  (∀ (seq : Word) (i : SilImage) (b : Bool) (s : State), updateOpen s.dev = true →
    silCheck s.dev.fuse (slotOf s.dev.flash (!s.dev.ptr.slot)) = .ok (i, b) →
    exec (.updateVerify seq) s = .next { s with dev := (tracked (mboxDone 0x32 seq [] .ok [] (setStg fun g => { g with
      isOpen := false, staged := true, d5 := (silDigests (slotOf s.dev.flash (!s.dev.ptr.slot)) i).1
      d6 := (silDigests (slotOf s.dev.flash (!s.dev.ptr.slot)) i).2.1
      d7 := (silDigests (slotOf s.dev.flash (!s.dev.ptr.slot)) i).2.2, svn := i.svn })) s.dev) }) ∧
  (∀ (seq : Word) (r : Reason) (s : State), updateOpen s.dev = true →
    silCheck s.dev.fuse (slotOf s.dev.flash (!s.dev.ptr.slot)) = .error r →
    exec (.updateVerify seq) s = .next { s with dev := (tracked (mboxDone 0x32 seq [] r []
      (setStg fun g => { g with staged := false })) s.dev) }) ∧
  (∀ (seq : Word) (s : State), updateOpen s.dev = true → s.dev.ptr.stg.staged = true → s.dev.ptr.stg.switching = none →
    exec (.updateActivate seq) s = .next { s with dev := (tracked (fun d =>
      setStg (fun g => { g with switching := some .mbox }) (mboxTake 0x33 seq [] d)) s.dev) }) ∧
  (∀ (seq : Word) (s : State), updateOpen s.dev = true →
    exec (.updateCancel seq) s = .next { s with dev := (tracked (mboxDone 0x34 seq [] .ok []
      (fun d => setStg (fun g => { g with isOpen := false, length := 0, staged := false })
        { d with flash := setFlashSlot (!d.ptr.slot) [] d.flash })) s.dev) })

/-- LCS_ADVANCE that passes its checks, by the mailbox, or by the PF's register in host-managed mode for a target below SCRAPPED, blows
the fuses up to the target, and to SCRAPPED stops the device with its keys zeroed; one that fails a check is answered with the
reason. SECRETS_ERASE with no partition in force rotates every domain and removes the keys, the user records and the charters, and
is NOT_READY otherwise. OPKEY_FUSE in MAKER or INTEGRATOR fuses a key that is not fused, and in a later state is LIFECYCLE_DENIED.
Each records its outcome in LCS_STATUS. -/
def Obligations.LifecycleRequestsAct : Prop :=
  (∀ (seq : Word) (n : Nat) (s : State), mailboxOpen s.dev = true → lcsCheck s.dev n = none → n ≠ 4 →
    exec (.lcsAdvance .porter seq n) s = .next { s with dev := (tracked (mboxDone 0x40 seq (natLe 1 n) .ok []
      (fun d => lcsNote .ok (alert 0 { d with fuse := blowTo n d.fuse }))) s.dev) }) ∧
  (∀ (seq : Word) (s : State), mailboxOpen s.dev = true → lcsCheck s.dev 4 = none →
    exec (.lcsAdvance .porter seq 4) s = .next { s with dev := (tracked (mboxDone 0x40 seq (natLe 1 4) .ok []
      (fun d => lcsNote .ok (stopAndZero .scrapped (alert 0 { d with fuse := blowTo 4 d.fuse })))) s.dev) }) ∧
  (∀ (seq : Word) (n : Nat) (r : Reason) (s : State), mailboxOpen s.dev = true → lcsCheck s.dev n = some r →
    exec (.lcsAdvance .porter seq n) s = .next { s with dev := (tracked (mboxDone 0x40 seq (natLe 1 n) r []
      (lcsNote r)) s.dev) }) ∧
  (∀ (seq : Word) (n : Nat) (s : State), barAnswers s.dev .pf = true → porterManaged s.dev = false →
    lcsCheck s.dev n = none → n ≠ 4 →
    exec (.lcsAdvance (.host .pf) seq n) s = .next { s with dev := (tracked (fun d =>
      lcsNote .ok (alert 0 { d with fuse := blowTo n d.fuse })) s.dev) }) ∧
  (∀ (seq : Word) (s : State), mailboxOpen s.dev = true → partsLive s.dev = [] →
    exec (.secretsErase seq) s = .next { s with dev := (tracked (mboxDone 0x41 seq [] .ok [] (fun d =>
      lcsNote .ok (noSecrets ((List.range 256).foldl (fun d k => rotateDomain k d) (endEverySession d))))) s.dev) }) ∧
  (∀ (seq : Word) (s : State), mailboxOpen s.dev = true → partsLive s.dev ≠ [] →
    exec (.secretsErase seq) s = .next { s with dev := (tracked (mboxDone 0x41 seq [] .notReady []
      (lcsNote .notReady)) s.dev) }) ∧
  (∀ (seq : Word) (key : List Byte) (s : State), mailboxOpen s.dev = true → lcsCount s.dev.fuse < 2 →
    s.dev.fuse.opKey = none →
    exec (.opkeyFuse seq key) s = .next { s with dev := (tracked (mboxDone 0x42 seq key .ok [] (fun d =>
      lcsNote .ok { d with fuse := { d.fuse with opKey := some (Config.sha384 key) } })) s.dev) }) ∧
  (∀ (seq : Word) (key : List Byte) (s : State), mailboxOpen s.dev = true → 2 ≤ lcsCount s.dev.fuse →
    exec (.opkeyFuse seq key) s = .next { s with dev := (tracked (mboxDone 0x42 seq key .lifecycleDenied []
      (lcsNote .lifecycleDenied)) s.dev) })

/-- Requests of an open mailbox. CODE_KEY_REGISTER seals the key's digest into the user records, in place of the registration of
its VF and index, and clears SECRETS_ERASED. IMAGE_SIGNED_REGISTER of an image that every cluster named holds alike, that passes the
checks and has enough valid signatures fills its slot as SIGNED by its signers. SWITCH_SPDM answers with bytes that the spec leaves
open, and keeps a session that the message establishes; where its report is attested the pair keys of the port's groups are sent.
SWITCH_SESSION_END ends the session, and each lease of the port's groups. JOB_KEY in host-managed mode installs the key of a group
that is not loaded for every VF. -/
def Obligations.KeysAndSwitchesAct : Prop :=
  (∀ (seq : Word) (v : Fin 8) (k : Fin 4) (dig : BitVec 384) (s : State), mailboxOpen s.dev = true →
    exec (.codeKeyRegister seq v k dig) s = .next { s with dev := (tracked (mboxDone 0x50 seq
      (natLe 1 v.val ++ natLe 1 k.val ++ digestBytes dig) .ok [] (fun d => secretsHeld { d with
        ret := { d.ret with rng := d.ret.rng + 1 }
        flash := writeUserRecs ((userRecs d.flash).filter (fun b =>
            !((keyReg d.fuse.uds b).any fun r => r.1 == v.val && r.2.1 == k.val)) ++
          [sealUser (Config.userKey d.fuse.uds) (natBe 12 ((Config.draw (d.ret.rng + 1)).toNat % 2 ^ 96))
            (keyText v k dig)]) d.flash })) s.dev) }) ∧
  (∀ (seq : Word) (o v : Fin 8) (a : ImageArgs) (sigs : List (List Byte)) (image : List Byte) (need : Nat) (s : State),
    mailboxOpen s.dev = true → octVf s.dev o = some v.val → partIdle s.dev v = true → (getSeq s.dev o).mgmt = .none →
    mgmtRange (.imageRegister a) = true → imageCheck s.dev o a = none → has8 s.dev.pkg.octReady o = true →
    image = (((List.range 9).filter fun c => bitAt a.mask c).map fun c => clusterImage s.dev o c a).headD [] →
    (∀ c < 9, bitAt a.mask c = true → clusterImage s.dev o c a = image) →
    need = (if (getCharter s.dev v).state = .none then 1 else (getCharter s.dev v).signers) →
    need ≤ (signers s.dev v a image sigs).length →
    exec (.imageSignedRegister seq o a sigs) s = .next { s with dev := (mboxDone 0x51 seq
      (natLe 1 o.val ++ imageBytes a ++ sigs.flatten) .ok [] (fun d => setSeq o (fun q => { q with mgmtReason := .ok })
        (registerImage o a true (signers s.dev v a image sigs) d)) s.dev) }) ∧
  (∀ (seq : Word) (p : Fin 8) (m : List Byte) (s : State), mailboxOpen s.dev = true →
    exec (.switchSpdm seq p m none) s = .next { s with dev := (mboxDone 0x60 seq (natLe 1 p.val ++ m) .ok
      (Config.spdmBytes 0 s.dev.free) (fun d => { d with free := d.free + 1 }) s.dev) }) ∧
  (∀ (seq : Word) (p : Fin 8) (m : List Byte) (r : SwitchReport) (f : Dev → Dev) (s : State), mailboxOpen s.dev = true →
    f = (fun d => { d with free := d.free + 1, ptr := { d.ptr with switchSess := put none p.val (some r) d.ptr.switchSess } }) →
    (switchAttested (f s.dev) p = false →
      exec (.switchSpdm seq p m (some r)) s = .next { s with dev := (mboxDone 0x60 seq (natLe 1 p.val ++ m) .ok
        (Config.spdmBytes 0 s.dev.free) f s.dev) }) ∧
    (switchAttested (f s.dev) p = true →
      exec (.switchSpdm seq p m (some r)) s = .next { s with dev := (mboxDone 0x60 seq (natLe 1 p.val ++ m) .ok
        (Config.spdmBytes 0 s.dev.free) (fun d => (portGroups s.dev p).foldl (fun d k =>
          sendPairKeys k d) (f d)) s.dev) })) ∧
  (∀ (p : Fin 8) (s : State), live s.dev = true →
    exec (.switchSessionEnd p) s = .next { s with dev := (settle ((portGroups s.dev p).foldl (fun d k =>
      setGroup k (fun g => { g with lease := none, requested := false }) (dropLease k d))
        { s.dev with ptr := { s.dev.ptr with switchSess := put none p.val none s.dev.ptr.switchSess } })) }) ∧
  (∀ (seq : Word) (g : Nat) (key : List Byte) (s : State), mailboxOpen s.dev = true → porterManaged s.dev = false →
    ((List.range 8).any fun v => groupLoaded s.dev v g) = false →
    exec (.jobKey seq g key) s = .next { s with dev := (mboxDone 0x61 seq (natLe 2 g ++ key) .ok []
      (fun d => (List.range 8).foldl (fun d v => putJobKey v g key d) d) s.dev) })

/-! ## SPDM (13) -/

/-- SPDM requests outside a session over the DOE mailbox of a function that exists. In service: GET_VERSION, GET_CAPABILITIES
and NEGOTIATE_ALGORITHMS with a common choice answer with response bytes that the spec leaves open; GET_DIGESTS answers with the
digest of slot 0's certificate chain, GET_CERTIFICATE with the chain's bytes from an offset inside it, up to 4 088 of them in one
answer (the model's choice, log 90); CHALLENGE with a signed answer; GET_MEASUREMENTS with the signed report, or with BUSY_UPDATE
during a pointer write, or with NOT_READY to a VF whose partition is in L2; and DOE_DISCOVERY with the three data-object protocols.
A signed answer is its content, the device's nonce, and the signature over the requester's nonce, the content and the device's
nonce. In recovery each of the eight requests is answered with the vendor-defined error NOT_READY. -/
def Obligations.SpdmRequestsAreAnswered : Prop :=
  (∀ (f : Fn) (s : State), live s.dev = true → fnPresent s.dev f = true →
    exec (.getVersion f) s = .next { s with dev := (spdmSay (fnIx f) 0x04 (Config.spdmBytes 0x04 s.dev.free)
      { s.dev with free := s.dev.free + 1 }) } ∧
    exec (.getCapabilities f) s = .next { s with dev := (spdmSay (fnIx f) 0x61 (Config.spdmBytes 0x61 s.dev.free)
      { s.dev with free := s.dev.free + 1 }) } ∧
    exec (.negotiateAlgorithms f true) s = .next { s with dev := (spdmSay (fnIx f) 0x63 (Config.spdmBytes 0x63 s.dev.free)
      { s.dev with free := s.dev.free + 1 }) } ∧
    exec (.getDigests f) s = .next { s with dev := (spdmSay (fnIx f) 0x01 (digestBytes (Config.sha384 (certChain s.dev)))
      s.dev) }) ∧
  (∀ (f : Fn) (off n : Nat) (s : State), live s.dev = true → fnPresent s.dev f = true → off < (certChain s.dev).length →
    exec (.getCertificate f 0 off n) s = .next { s with dev := (spdmSay (fnIx f) 0x02
      (((certChain s.dev).drop off).take (min n portionMax)) s.dev) }) ∧
  (∀ (f : Fn) (nonce : BitVec 256) (s : State), live s.dev = true → fnPresent s.dev f = true →
    exec (.challenge f 0 nonce) s = .next { s with dev := (signedSay f 0x03 nonce
      (digestBytes (Config.sha384 (certChain s.dev))) s.dev) }) ∧
  (∀ (f : Fn) (nonce : BitVec 256) (s : State), live s.dev = true → fnPresent s.dev f = true →
    s.dev.ptr.stg.switching = none → ownResetting s.dev f = false →
    exec (.getMeasurements f nonce) s = .next { s with dev := signedSay f 0x60 nonce (reportBytes s.dev f) s.dev }) ∧
  (∀ (f : Fn) (nonce : BitVec 256) (s : State), live s.dev = true → fnPresent s.dev f = true →
    s.dev.ptr.stg.switching ≠ none →
    exec (.getMeasurements f nonce) s = .next { s with dev := spdmError (fnIx f) vendorDefined .busyUpdate s.dev }) ∧
  (∀ (v : Fin 8) (nonce : BitVec 256) (s : State), live s.dev = true → fnPresent s.dev (.vf v) = true →
    s.dev.ptr.stg.switching = none → resetting s.dev v = true →
    exec (.getMeasurements (.vf v) nonce) s = .next { s with dev := spdmError (1 + v) vendorDefined .notReady s.dev }) ∧
  (∀ (f : Fn) (code : Nat) (nonce : BitVec 256) (content : List Byte) (d : Dev), ∃ sig,
    signedSay f code nonce content d = spdmSay (fnIx f) code (content ++ ownNonce d ++ sig) { d with
      ret := { d.ret with rng := d.ret.rng + 1 } } ∧
    sig = Config.ecdsaSign d.ptr.cdi1 (Config.sha384 (natBe 32 nonce.toNat ++ (content ++ ownNonce d)))) ∧
  (∀ (f : Fn) (nonce : BitVec 256) (leaf : List Byte) (s : State), s.dev.pkg.phase = .recovery → fnPresent s.dev f = true →
    ∀ c ∈ [Instr.getVersion f, .getCapabilities f, .negotiateAlgorithms f true, .getDigests f, .getCertificate f 0 0 64,
      .challenge f 0 nonce, .getMeasurements f nonce, .keyExchange f leaf],
    exec c s = .next { s with dev := spdmError (fnIx f) vendorDefined .notReady s.dev }) ∧
  (∀ (f : Fn) (s : State), live s.dev = true → fnPresent s.dev f = true →
    exec (.doeDiscovery f) s = .next { s with dev := (spdmSay (fnIx f) 0
      (natLe 2 1 ++ natLe 1 0 ++ natLe 2 1 ++ natLe 1 1 ++ natLe 2 1 ++ natLe 1 2) s.dev) })

/-- Sessions. KEY_EXCHANGE opens one in the first free slot of the function's share, with the requester's identity and a fresh
secret, and is answered Busy where the share has no free slot. FINISH completes it, or ends it where mutual authentication failed.
In a completed session KEY_UPDATE moves its keys to the next generation, HEARTBEAT is answered, and END_SESSION ends it. Ending one
frees its slot and marks the windows that are live under it; of a session under which no dump export runs it does nothing else. -/
def Obligations.SessionsAct : Prop :=
  (∀ (f : Fn) (leaf : List Byte) (k : Nat) (s : State), live s.dev = true → fnPresent s.dev f = true →
    ((shareOf f).find? fun k => (look none k s.dev.ptr.sess).isNone) = some k →
    exec (.keyExchange f leaf) s = .next { s with dev := (spdmSay (fnIx f) 0x64 (natLe 2 k) { s.dev with
      ret := { s.dev.ret with rng := s.dev.ret.rng + 1 }
      ptr := { s.dev.ptr with sess := put none k (some
        { fn := fnIx f, done := false, identity := Config.sha384 leaf, keyGen := 0, exports := 0
          secret := s.dev.ret.rng + 1 }) s.dev.ptr.sess } }) }) ∧
  (∀ (f : Fn) (leaf : List Byte) (s : State), live s.dev = true → fnPresent s.dev f = true →
    ((shareOf f).find? fun k => (look none k s.dev.ptr.sess).isNone) = none →
    exec (.keyExchange f leaf) s = .next { s with dev := spdmError (fnIx f) errBusy .ok s.dev }) ∧
  (∀ (k : Nat) (x : Session) (s : State), live s.dev = true → look none k s.dev.ptr.sess = some x → x.done = false →
    fnPresent s.dev (fnOf x.fn) = true →
    exec (.finish k true) s = .next { s with dev := (spdmSay x.fn 0x65 [] { s.dev with
      ptr := { s.dev.ptr with sess := put none k (some { x with done := true }) s.dev.ptr.sess } }) } ∧
    exec (.finish k false) s = .next { s with dev := spdmError x.fn errDecrypt .ok (endSessionSlot k s.dev) }) ∧
  (∀ (k : Nat) (x : Session) (s : State), live s.dev = true → sessOf s.dev k = some x → fnPresent s.dev (fnOf x.fn) = true →
    exec (.keyUpdate k) s = .next { s with dev := (spdmSay x.fn 0x69 [] { s.dev with ptr := { s.dev.ptr with
      sess := put none k (some { x with keyGen := x.keyGen + 1 }) s.dev.ptr.sess } }) } ∧
    exec (.spdmHeartbeat k) s = .next { s with dev := spdmSay x.fn 0x68 [] s.dev } ∧
    exec (.endSession k) s = .next { s with dev := spdmSay x.fn 0x6C [] (endSessionSlot k s.dev) }) ∧
  (∀ (k : Nat) (d : Dev), (d.ump.dumpState ≠ 3 ∨ d.ump.exportSess ≠ k) → endSessionSlot k d = { d with
    ptr := { d.ptr with sess := put none k none d.ptr.sess }
    win := d.win.map fun e => if e.2.live ∧ e.2.session = k then (e.1, { e.2 with ended := true }) else e })

/-! ## The crash dump (14) -/

/-- DUMP_TRIGGER by the PF starts a dump of the octants given and numbers it one above the count of dumps; while a dump that was
not exported is held and OVERWRITE is 0 it only counts as skipped; a VF's is dropped and logged. In a running dump, a unit of a
running octant that does not answer becomes a section marked hung. An octant's end leaves the others running; the last octant's,
or the time limit, which sets TRUNCATED, makes the dump held (where no octant's or device's reset waits for it). EXPORT by the PF
starts the export when its check passes and gives the check's reason otherwise; its last octant ends it, with the dump exported,
and a failure ends it with INTEGRITY_FAIL. DISCARD by the PF of a held dump releases it. -/
def Obligations.DumpCommandsAct : Prop :=
  (∀ (n : Nat) (d : Dev) (s : State), barAnswers s.dev .pf = true →
    startDump 0 (BitVec.ofNat 8 n) { s.dev with ump := { s.dev.ump with dumpOcts := BitVec.ofNat 8 n } } = (true, d) →
    exec (.dumpTrigger .pf n) s = .next { s with dev := d } ∧ d.ump.dumpState = 1 ∧
      d.ump.dump.running = BitVec.ofNat 8 n ∧ d.ump.dumpNo = (s.dev.ret.dumpCount + 1) % 2 ^ 32) ∧
  (∀ (n : Nat) (s : State), barAnswers s.dev .pf = true → areaBusy s.dev = true → s.dev.ump.overwrite = false →
    exec (.dumpTrigger .pf n) s = .next { s with dev := { s.dev with ump := { s.dev.ump with
      dumpOcts := BitVec.ofNat 8 n, skipped := satAdd 0xFFFF s.dev.ump.skipped 1 } } }) ∧
  (∀ (v : Fin 8) (n : Nat) (s : State), barAnswers s.dev (.vf v) = true →
    exec (.dumpTrigger (.vf v) n) s = .next { s with dev := (dropLog (.vf v) .notOwner (fieldIdOf 0x80 2) 0x60080 true
      s.dev) }) ∧
  (∀ (o : Fin 8) (kind index : Nat) (s : State), live s.dev = true → s.dev.ump.dumpState = 1 →
    has8 s.dev.ump.dump.running o = true → (dumpUnits s.dev o).contains (unitKey kind index) = true →
    ∃ t x, exec (.dumpUnitTimeout o kind index) s = .next t ∧ t.dev.ump.dump.secs = s.dev.ump.dump.secs ++ [x] ∧
      x.hung = true ∧ x.kind = kind ∧ x.octant = o.val ∧
      t.dev = { s.dev with ump := { s.dev.ump with dump := t.dev.ump.dump }, free := s.dev.free + 1 }) ∧
  (∀ (o : Fin 8) (s : State), live s.dev = true → s.dev.ump.dumpState = 1 → has8 s.dev.ump.dump.running o = true →
    clr8 s.dev.ump.dump.running o ≠ 0 →
    exec (.dumpComplete o) s = .next { s with dev := settle (octDumped o s.dev) }) ∧
  (∀ (o : Fin 8) (s : State), live s.dev = true → s.dev.ump.dumpState = 1 → has8 s.dev.ump.dump.running o = true →
    clr8 s.dev.ump.dump.running o = 0 → s.dev.ump.l2Wait = [] → s.dev.ump.l3Wait = none →
    exec (.dumpComplete o) s = .next { s with dev := settle (dumpHeld (octDumped o s.dev)) }) ∧
  (∀ (s : State), live s.dev = true → s.dev.ump.dumpState = 1 → s.dev.ump.l2Wait = [] → s.dev.ump.l3Wait = none →
    exec .dumpTruncate s = .next { s with dev := (settle (dumpHeld { s.dev with ump := { s.dev.ump with
      truncated := true, dump := { s.dev.ump.dump with running := 0 } } })) }) ∧
  (∀ (s : State), barAnswers s.dev .pf = true → exportCheck s.dev = none →
    exec (.dumpExport .pf) s = .next { s with dev := exportStart s.dev }) ∧
  (∀ (r : Reason) (s : State), barAnswers s.dev .pf = true → exportCheck s.dev = some r →
    exec (.dumpExport .pf) s = .next { s with dev := { s.dev with ump := { s.dev.ump with dumpReason := r } } }) ∧
  (∀ (o : Fin 8) (s : State), live s.dev = true → s.dev.ump.dumpState = 3 → has8 s.dev.ump.exporting o = true →
    s.dev.pkg.dlUp = true → look false 0 s.dev.pkg.busMaster = true → clr8 s.dev.ump.exporting o = 0 →
    exec (.dumpExportComplete o .pass) s = .next { s with dev := (setDumpState 2 { s.dev with ump := { s.dev.ump with
      exporting := 0, dumpReason := .ok, exported := true } }) }) ∧
  (∀ (o : Fin 8) (s : State), live s.dev = true → s.dev.ump.dumpState = 3 → has8 s.dev.ump.exporting o = true →
    exec (.dumpExportComplete o .fail) s = .next { s with dev := (setDumpState 2 { s.dev with ump := { s.dev.ump with
      exporting := 0, dumpReason := .integrityFail } }) }) ∧
  (∀ (s : State), barAnswers s.dev .pf = true → s.dev.ump.dumpState = 2 →
    exec (.dumpDiscard .pf) s = .next { s with dev := (setDumpState 0 { s.dev with ump := { s.dev.ump with
      dump := Dump.zero, exported := false } }) })

/-! ## SMBus, JTAG and debug (16, 17) -/

/-- The SMBus target. STATUS of a powered device answers. In every powered phase but SCRAPPED, ALERT_CAUSE answers with the pending
causes and its write clears those written as 1; ALERT_RESPONSE answers with the target's address while a cause is pending;
CYCLE_CAUSE, TRIP_SENSOR, RAIL_POWER, TEMPS and DEVICE_POWER answer with their registers; FAULT_SELECT takes n from 0 to 15, and
FAULT_READ answers with the selected record of the PF ring. STAGE_RESULT answers in service and in recovery, and RESET_RESULT in
service. Each of the eighteen transactions with a bad PEC changes nothing. -/
def Obligations.SmbusReadsAnswer : Prop :=
  (∀ (s : State), powered s.dev = true →
    exec (.status true) s = .next { s with dev := { s.dev with out := .smbus (statusBytes s.dev) :: s.dev.out } }) ∧
  (∀ (s : State), powered s.dev = true → s.dev.pkg.phase ≠ .scrapped →
    exec (.alertCause true) s = .next { s with dev := (emit (.smbus (natLe 2 s.dev.ump.alert.toNat)) s.dev) } ∧
    (∀ x, exec (.alertCauseClear true x) s = .next { s with dev := { s.dev with
      ump := { s.dev.ump with alert := s.dev.ump.alert &&& ~~~ x } } }) ∧
    (s.dev.ump.alert ≠ 0 → exec .alertResponse s = .next { s with dev := (emit
      (.smbus (natLe 1 (2 * (0x58 + Config.smbAddr.toNat)))) s.dev) }) ∧
    exec (.cycleCause true) s = .next { s with dev := emit (.smbus (natLe 1 s.dev.ump.cycleCause)) s.dev } ∧
    exec (.tripSensor true) s = .next { s with dev := (emit
      (.smbus (natLe 1 s.dev.ump.tripSensor ++ natLe 1 s.dev.ump.tripTemp)) s.dev) } ∧
    exec (.railPower true) s = .next { s with dev := (emit
      (.smbus ((List.range 13).flatMap fun r => natLe 2 (railW s.dev r))) s.dev) } ∧
    exec (.temps true) s = .next { s with dev := (emit (.smbus ((List.range 44).flatMap fun n =>
      natLe 2 (unsigned 16 (signed 12 (unsigned 12 (sensorTemp s.dev n)))))) s.dev) } ∧
    exec (.devicePower true) s = .next { s with dev := (emit
      (.smbus (natLe 2 (((List.range 13).map (railW s.dev)).foldl (· + ·) 0))) s.dev) } ∧
    (∀ n < 16, exec (.faultSelect true n) s = .next { s with dev := { s.dev with
      ump := { s.dev.ump with faultSel := n } } }) ∧
    exec (.faultRead true) s = .next { s with dev := (emit (.smbus (ringBytes s.dev.ret.pfRing
      ((s.dev.ret.pfRing.producer + 65535 - s.dev.ump.faultSel) % 65536 % 512))) s.dev) }) ∧
  (∀ (s : State), live s.dev = true ∨ s.dev.pkg.phase = .recovery →
    exec (.stageResult true) s = .next { s with dev := (emit
      (.smbus (natLe 1 (reasonCode s.dev.ump.stageReason) ++ natLe 1 (b2n s.dev.ump.stageBusy))) s.dev) }) ∧
  (∀ (s : State), live s.dev = true →
    exec (.resetResult true) s = .next { s with dev := (emit
      (.smbus (natLe 1 (reasonCode s.dev.ump.resetResult))) s.dev) }) ∧
  (∀ (s : State) (x : BitVec 16) (n : Nat) (bs : List Byte) (r : CheckResult),
    ∀ c ∈ [Instr.status false, .alertCause false, .alertCauseClear false x, .cycleCause false, .tripSensor false,
      .railPower false, .temps false, .devicePower false, .faultSelect false n, .faultRead false, .stageBegin false n,
      .stageWrite false n bs, .stageVerify false, .stageActivate false, .stageCancel false, .stageResult false,
      .resetReq false n r, .resetResult false],
    ∃ t, exec c s = .next t ∧ t = s)

/-- The SMBus staging commands, in service or in recovery while no activation is in progress. STAGE_BEGIN of up to 25 165 824 bytes
opens an update, STAGE_WRITE of 1 to 240 bytes inside it stores them in the inactive slot, STAGE_VERIFY records the check's outcome
and, where the image passes, the staged digests, and STAGE_CANCEL closes the update and empties the inactive slot; each records its
outcome for STAGE_RESULT and raises its alert. STAGE_ACTIVATE of a staged image starts the pointer write and makes the target busy.
RESET_REQ of 1 starts an L3 in service where none waits and AUTO is 0, and records NOT_READY in an L3 or L4. -/
def Obligations.SmbusCommandsAct : Prop :=
  (∀ (n : Nat) (s : State), (live s.dev = true ∨ s.dev.pkg.phase = .recovery) → s.dev.ump.stageBusy = false →
    s.dev.ptr.stg.isOpen = false → n ≤ 25165824 →
    exec (.stageBegin true n) s = .next { s with dev := (tracked (fun d => stageDone .ok
      (setStg (fun g => { g with isOpen := true, length := n, staged := false }) d)) s.dev) }) ∧
  (∀ (off : Nat) (bs : List Byte) (s : State), (live s.dev = true ∨ s.dev.pkg.phase = .recovery) →
    s.dev.ump.stageBusy = false → 1 ≤ bs.length → bs.length ≤ 240 → off + bs.length ≤ s.dev.ptr.stg.length →
    s.dev.ptr.trial = false →
    exec (.stageWrite true off bs) s = .next { s with dev := (tracked (fun d => stageDone .ok
      (setStg (fun g => { g with isOpen := true, staged := false }) { d with
        flash := setFlashSlot (!d.ptr.slot) (writeBytes (slotOf d.flash (!d.ptr.slot)) off bs) d.flash })) s.dev) }) ∧
  (∀ (r : Reason) (s : State), (live s.dev = true ∨ s.dev.pkg.phase = .recovery) → s.dev.ump.stageBusy = false →
    silCheck s.dev.fuse (slotOf s.dev.flash (!s.dev.ptr.slot)) = .error r →
    exec (.stageVerify true) s = .next { s with dev := (tracked (fun d => stageDone r
      (setStg (fun g => { g with staged := false }) d)) s.dev) }) ∧
  (∀ (i : SilImage) (b : Bool) (s : State), (live s.dev = true ∨ s.dev.pkg.phase = .recovery) →
    s.dev.ump.stageBusy = false → silCheck s.dev.fuse (slotOf s.dev.flash (!s.dev.ptr.slot)) = .ok (i, b) →
    exec (.stageVerify true) s = .next { s with dev := (tracked (fun d => stageDone .ok (setStg (fun g => { g with
      isOpen := false, staged := true, d5 := (silDigests (slotOf s.dev.flash (!s.dev.ptr.slot)) i).1
      d6 := (silDigests (slotOf s.dev.flash (!s.dev.ptr.slot)) i).2.1
      d7 := (silDigests (slotOf s.dev.flash (!s.dev.ptr.slot)) i).2.2, svn := i.svn }) d)) s.dev) }) ∧
  (∀ (s : State), (live s.dev = true ∨ s.dev.pkg.phase = .recovery) → s.dev.ump.stageBusy = false →
    s.dev.ptr.stg.staged = true → s.dev.ptr.stg.switching = none →
    exec (.stageActivate true) s = .next { s with dev := (tracked (fun d => setUmp (fun u => { u with stageBusy := true })
      (setStg (fun g => { g with switching := some .smbus }) d)) s.dev) }) ∧
  (∀ (s : State), (live s.dev = true ∨ s.dev.pkg.phase = .recovery) → s.dev.ump.stageBusy = false →
    exec (.stageCancel true) s = .next { s with dev := (tracked (fun d => stageDone .ok
      (setStg (fun g => { g with isOpen := false, length := 0, staged := false })
        { d with flash := setFlashSlot (!d.ptr.slot) [] d.flash })) s.dev) }) ∧
  (∀ (r : CheckResult) (s : State), live s.dev = true → s.dev.ump.l3Wait = none → s.dev.ump.auto = false →
    exec (.resetReq true 1 r) s = .next { s with dev := (l3Run r { s.dev with ump := { s.dev.ump with
      resetResult := .ok } }) }) ∧
  (∀ (r : CheckResult) (s : State), (s.dev.pkg.phase = .l3 ∨ s.dev.pkg.phase = .l4) →
    exec (.resetReq true 1 r) s = .next { s with dev := { s.dev with ump := { s.dev.ump with resetResult := .notReady } } })

/-- JTAG of a powered device: IDCODE answers with the identification and BYPASS with 0; in a lifecycle state (other than SCRAP)
without debug every instruction but IDCODE answers as BYPASS; in one with debug LIFECYCLE answers with the state and marks debug as
used, and boundary scan stops a device that is not stopped yet, with every key zeroed and the fatal error signalled. Of the PF's
accesses to an open debug block, each marking debug as used: HALT halts or resumes the selected stream; STEP issues the bundle of a
halted stream that can issue at the clock, and halts it again; and a 64-bit word of the halted stream's state is read or written. -/
def Obligations.DebugCommandsAct : Prop :=
  (∀ (s : State), powered s.dev = true →
    exec (.jtagInstruction .idcode) s = .next { s with dev := emit (.jtag (idcode s.dev.fuse)) s.dev } ∧
    exec (.jtagInstruction .bypass) s = .next { s with dev := emit (.jtag 0) s.dev }) ∧
  (∀ (op : JtagOp) (s : State), powered s.dev = true → debugState s.dev.ptr.lcsAtReset = false →
    s.dev.ptr.lcsAtReset < 4 → op ≠ .idcode →
    exec (.jtagInstruction op) s = .next { s with dev := emit (.jtag 0) s.dev }) ∧
  (∀ (s : State), powered s.dev = true → debugState s.dev.ptr.lcsAtReset = true →
    exec (.jtagInstruction .lifecycle) s = .next { s with dev := (tracked (fun d =>
      emit (.jtag (BitVec.ofNat 32 (lcsState d.fuse))) (debugUsed d)) s.dev) }) ∧
  (∀ (s : State), powered s.dev = true → debugState s.dev.ptr.lcsAtReset = true → s.dev.pkg.phase ≠ .lockdown →
    s.dev.pkg.phase ≠ .tripped →
    ∃ t, exec (.jtagInstruction .boundaryScan) s = .next t ∧ t.dev.pkg.phase = .lockdown ∧ keysGone t.dev = true ∧
      .errFatal ∈ t.dev.out ∧ t.dev.ptr.debugUsed = true) ∧
  (∀ (on : Bool) (s : State), live s.dev = true → barAnswers s.dev .pf = true → s.dev.ptr.debugOpen = true →
    exec (.halt .pf on) s = .next { s with dev := (settle (tracked (fun d =>
      setStream (dbgCore d) (dbgStrm d) (fun x => { x with halted := on }) (debugUsed d)) s.dev)) }) ∧
  (∀ (clk item ctx : Nat) (d : Dev) (s : State), live s.dev = true → barAnswers s.dev .pf = true →
    s.dev.ptr.debugOpen = true → dbgHalted s.dev = true → (getCore s.dev (dbgCore s.dev)).item = some item →
    (getCore s.dev (dbgCore s.dev)).ctx = some ctx →
    d = setStream (dbgCore s.dev) (dbgStrm s.dev) (fun x => { x with halted := false }) (debugUsed s.dev) →
    streamReady d (dbgCore s.dev) (dbgStrm s.dev) clk = true → issueClock d (dbgCore s.dev) clk = true →
    exec (.step .pf clk) s = .next { s with dev := (settle (tracked (fun _ =>
      setStream (dbgCore s.dev) (dbgStrm s.dev) (fun x => { x with halted := true })
        (issueOn (dbgCore s.dev) (dbgStrm s.dev) clk item ctx d)) s.dev)) }) ∧
  (∀ (off : Nat) (s : State), barAnswers s.dev .pf = true → s.dev.ptr.debugOpen = true → dbgHalted s.dev = true →
    off % 8 = 0 → off < 4608 →
    exec (.dbgStateAccess .pf off none) s = .next { s with dev := (tracked (fun d => emit
      (.readData 0 (BitVec.ofNat 64 (leNat (dbgBytes d off 8)))) (debugUsed d)) s.dev) } ∧
    ∀ w : DWord, exec (.dbgStateAccess .pf off (some w)) s = .next { s with dev := (tracked (fun d =>
      setStream (dbgCore d) (dbgStrm d) (setStateBytes off (natLe 8 w.toNat)) (debugUsed d)) s.dev) })

/-! ## The escalation ladder (14) -/

/-- L0_KILL by a function that may reset the octant: of a RUNNING context it faults that context with a reason the spec leaves
open; of a STOPPED one it leaves only the outcome OK, and of a FREE one FIELD_CONFLICT; a VF's for an octant outside its partition
is dropped and logged. The fault of a RUNNING context leaves it FAULTED. At the L0 bound of a FAULTED context, where one unit
holds its items and no running level covers that unit, the L1 of the unit is recorded, counted as an escalation, and started. -/
def Obligations.ContextKillsAct : Prop :=
  (∀ (f : Fn) (o : Fin 8) (c : Fin 16) (s : State), live s.dev = true → barAnswers s.dev f = true →
    mayReset s.dev f o = true →
    ((getCtx s.dev o c).state = .running → exec (.l0Kill f o c) s = .next { s with dev := (settle
      (faultCtx o c (freeReason s.dev.free) { recBase with source := 15, action := 1 } false
        (setReq .ok { s.dev with free := s.dev.free + 1 }))) }) ∧
    ((getCtx s.dev o c).state = .stopped → exec (.l0Kill f o c) s = .next { s with dev := settle (setReq .ok s.dev) }) ∧
    ((getCtx s.dev o c).state = .free → exec (.l0Kill f o c) s = .next { s with dev := settle (setReq .fieldConflict s.dev) })) ∧
  (∀ (v o : Fin 8) (c : Fin 16) (s : State), live s.dev = true → barAnswers s.dev (.vf v) = true →
    octVf s.dev o ≠ some v.val →
    exec (.l0Kill (.vf v) o c) s = .next { s with dev := (settle (dropLog (.vf v) .notOwner (fieldIdOf 0x60 0) 0x60060 true
      s.dev)) }) ∧
  (∀ (o c : Nat) (r : Reason) (rc : FaultRec) (b : Bool) (d : Dev), (getCtx d o c).state = .running →
    (getCtx (faultCtx o c r rc b d) o c).state = .faulted) ∧
  (∀ (o : Fin 8) (c : Fin 16) (u : UnitId) (s : State), live s.dev = true → look 0 (16 * o.val + c.val) s.dev.ump.l0 = 1 →
    (getCtx s.dev o c).state = .faulted → heldBy s.dev o c = [u] → l1Covered s.dev u = false →
    exec (.l0BoundExpiry o c) s = .next { s with dev := (settle (l1Start u (recordHung (unitCode u).1 (unitCode u).2
      { recAt s.dev o .hungUnit 13 with
        context := some c.val, action := 2, escalated := true, cluster := unitCluster u
        core := hungQuad (escalated { s.dev with ump := { s.dev.ump with
          l0 := put 0 (16 * o.val + c.val) 0 s.dev.ump.l0 } }) o u } true
      (escalated { s.dev with ump := { s.dev.ump with l0 := put 0 (16 * o.val + c.val) 0 s.dev.ump.l0 } })))) })

/-- L1 of a unit on the request of a function that may reset its octant. A Relay engine without transfers advances its sequence
number by 2^16, and a core without an item is cleared; a unit that a running level covers is recorded SUBSUMED, and one of a cluster
that is not present answers ENGINE_ABSENT. A sequencer whose firmware faults, and which no running level covers, is recorded and
reset. L1_COMPLETE ends the level of a unit that is no sequencer; of a sequencer with no command active in its octant it drops the
records that wait, stops the FAULTED contexts and ends the level. -/
def Obligations.UnitResetsAct : Prop :=
  (∀ (f : Fn) (o : Fin 8) (e : Fin 2) (s : State), live s.dev = true → barAnswers s.dev f = true →
    mayReset s.dev f o = true → l1Covered s.dev (.relay o e) = false →
    (∀ x ∈ s.dev.xfers, (x.oct == o.val && x.eng == e.val) = false) →
    exec (.l1Reset (.request f) (.relay o e)) s = .next { s with dev := (settle (setRle o (fun r =>
      if e.val = 0 then { r with seq0 := r.seq0 + 65536 } else { r with seq1 := r.seq1 + 65536 })
      (setReq .ok { s.dev with ump := { s.dev.ump with l1 := .relay o e :: s.dev.ump.l1 } }))) }) ∧
  (∀ (f : Fn) (o : Fin 8) (c : Fin 9) (k : Fin 64) (s : State), live s.dev = true → barAnswers s.dev f = true →
    mayReset s.dev f o = true → clusterPresent s.dev c = true → l1Covered s.dev (.core o c k) = false →
    (getCore s.dev (coreNo o c k)).item = none →
    exec (.l1Reset (.request f) (.core o c k)) s = .next { s with dev := (settle (resetCore o c k
      (setReq .ok { s.dev with ump := { s.dev.ump with l1 := .core o c k :: s.dev.ump.l1 } }))) }) ∧
  (∀ (f : Fn) (u : UnitId) (s : State), live s.dev = true → barAnswers s.dev f = true →
    mayReset s.dev f (unitOct u) = true → (unitCluster u).any (fun c => !clusterPresent s.dev c) = false →
    l1Covered s.dev u = true →
    exec (.l1Reset (.request f) u) s = .next { s with dev := (settle (record { recAt s.dev (unitOct u) .ok 15 with
      reason := freeReason s.dev.free, action := 2, subsumed := true, cluster := unitCluster u } false
      (setReq .ok { s.dev with free := s.dev.free + 1 }))) }) ∧
  (∀ (f : Fn) (u : UnitId) (s : State), live s.dev = true → barAnswers s.dev f = true →
    mayReset s.dev f (unitOct u) = true → (unitCluster u).any (fun c => !clusterPresent s.dev c) = true →
    exec (.l1Reset (.request f) u) s = .next { s with dev := settle (setReq .engineAbsent s.dev) }) ∧
  (∀ (o : Fin 8) (s : State), live s.dev = true → l1Covered s.dev (.sequencer o) = false →
    exec (.l1Reset .firmwareFault (.sequencer o)) s = .next { s with dev := (settle (l1Start (.sequencer o)
      (recordHung 3 0 { recAt s.dev o .hungUnit 12 with action := 2 } false s.dev))) }) ∧
  (∀ (u : UnitId) (s : State), live s.dev = true → s.dev.ump.l1.contains u = true → (∀ o, u ≠ .sequencer o) →
    exec (.l1Complete u) s = .next { s with dev := (settle { s.dev with ump := { s.dev.ump with
      l1 := s.dev.ump.l1.filter (· != u) } }) }) ∧
  (∀ (o : Fin 8) (s : State), live s.dev = true → s.dev.ump.l1.contains (.sequencer o) = true →
    nothingActive s.dev o = true →
    ∃ d, d = stopFaulted o (dropRecords o s.dev) ∧ exec (.l1Complete (.sequencer o)) s = .next { s with dev := (settle
      { d with ump := { d.ump with l1 := d.ump.l1.filter (· != UnitId.sequencer o) } }) })

/-- L2 of a live partition on the PF's request: with AUTO 0 and no running level that covers it, the level runs; a covered
request is recorded SUBSUMED. A partition that is not live answers FIELD_CONFLICT, and a VF's request for another partition is dropped
and logged. A level that runs is marked. Its completion, with no difference reported in its octants, clears the mark and makes each
octant that was not FAILED CLEAN, or ZERO_FILLING where it has regions to zero. -/
def Obligations.PartitionResetsAct : Prop :=
  (∀ (v : Fin 8) (s : State), live s.dev = true → barAnswers s.dev .pf = true → (getPart s.dev v).live = true →
    l2Covered s.dev v = false → s.dev.ump.auto = false →
    exec (.l2Reset .pf v) s = .next { s with dev := (settle (tracked (fun d => l2Run v (freeReason s.dev.free) 15 d)
      (setReq .ok { s.dev with free := s.dev.free + 1 }))) }) ∧
  (∀ (v : Fin 8) (s : State), live s.dev = true → barAnswers s.dev .pf = true → (getPart s.dev v).live = true →
    l2Covered s.dev v = true →
    exec (.l2Reset .pf v) s = .next { s with dev := (settle (record { recBase with
      reason := freeReason s.dev.free, source := 15, action := 3, subsumed := true, vf := some v.val } false
      (setReq .ok { s.dev with free := s.dev.free + 1 }))) }) ∧
  (∀ (v : Fin 8) (s : State), live s.dev = true → barAnswers s.dev .pf = true → (getPart s.dev v).live = false →
    exec (.l2Reset .pf v) s = .next { s with dev := settle (setReq .fieldConflict s.dev) }) ∧
  (∀ (v u : Fin 8) (s : State), live s.dev = true → barAnswers s.dev (.vf u) = true → u ≠ v →
    exec (.l2Reset (.vf u) v) s = .next { s with dev := (settle (dropLog (.vf u) .notOwner (fieldIdOf 0x60 0) 0x60060 true
      s.dev)) }) ∧
  (∀ (v : Nat) (r : Reason) (source : Nat) (d : Dev), v < 8 → has8 (l2Run v r source d).ump.l2 v = true) ∧
  (∀ (v : Fin 8) (s : State), live s.dev = true → has8 s.dev.ump.l2 v = true →
    ∃ d, exec (.l2Complete ⟨v, []⟩) s = .next { s with dev := settle (tracked (fun _ => d) s.dev) } ∧ has8 d.ump.l2 v = false ∧
      ∀ o : Fin 8, (getPart s.dev v).octants.getLsbD o = true → (getSht s.dev o).state ≠ .failed →
        (getSht d o).state = (if (getSht s.dev o).zeroFill then .zeroFilling else .clean))

/-- L3 with AUTO 0 and no L3 waiting for a dump: on the PF's request, or, recorded first, when Porter's watchdog expires or a walk
is missed; a VF's request is dropped and logged. The chip's reset leaves the device out of service with no context, command or
partition, and HBM, its page counters and its regions as they were; L3_COMPLETE draws the die-link keys anew and takes the device
through the rest of the boot. -/
def Obligations.WarmResetsAct : Prop :=
  (∀ (r : CheckResult) (s : State), live s.dev = true → barAnswers s.dev .pf = true → s.dev.ump.l3Wait = none →
    s.dev.ump.auto = false →
    exec (.l3Reset .pf r) s = .next { s with dev := l3Run r (setReq .ok s.dev) }) ∧
  (∀ (v : Fin 8) (r : CheckResult) (s : State), live s.dev = true → barAnswers s.dev (.vf v) = true →
    exec (.l3Reset (.vf v) r) s = .next { s with dev := (settle (dropLog (.vf v) .notOwner (fieldIdOf 0x60 0) 0x60060 true
      s.dev)) }) ∧
  (∀ (r : CheckResult) (s : State), live s.dev = true → s.dev.ump.l3Wait = none → s.dev.ump.auto = false →
    exec (.porterWatchdogExpiry r) s = .next { s with dev := (l3Run r
      (recordHung 12 0 { recBase with source := 10, action := 4 } false s.dev)) } ∧
    exec (.umpireWalkMissed r) s = .next { s with dev := (l3Run r
      (recordHung 13 0 { recBase with source := 16, action := 4 } true s.dev)) }) ∧
  (∀ (r : CheckResult) (d : Dev), live (l3Run r d) = false ∧ (l3Run r d).hbm = d.hbm ∧ (l3Run r d).page = d.page ∧ (l3Run r d).region = d.region ∧
    (l3Run r d).ctx = [] ∧ (l3Run r d).cmds = [] ∧ (l3Run r d).part = []) ∧
  (∀ (s : State), s.dev.pkg.phase = .l3 →
    exec .l3Complete s = .next { s with dev := (bootConfig (bootKeys false { s.dev with
      pkg := { s.dev.pkg with phase := .running } })) })

/-- L4_CYCLE by the PF requests a power cycle with cause 2, and a VF's is dropped and logged. The cycle takes the link and every READY
bit down and asserts CYCLE_REQ_N. With AUTO 0: the bound of an L1 starts the L2 of the unit's partition where no running level covers
it, or an L3 where the unit's octant serves none, and the bound of an L2 starts an L3; the bound of an L3 starts an L4. Each is recorded
with ESCALATED set and counted. (No L3 waits for a dump in these.) -/
def Obligations.LevelsEscalate : Prop :=
  (∀ (s : State), barAnswers s.dev .pf = true →
    exec (.l4Cycle .pf) s = .next { s with dev := l4Start 2 (setReq .ok s.dev) }) ∧
  (∀ (v : Fin 8) (s : State), barAnswers s.dev (.vf v) = true →
    exec (.l4Cycle (.vf v)) s = .next { s with dev := (dropLog (.vf v) .notOwner (fieldIdOf 0x60 0) 0x60060 true s.dev) }) ∧
  (∀ (n : Nat) (d : Dev), (l4Start n d).pkg.phase = .l4 ∧ (l4Start n d).pkg.cycleReq = true ∧
    (l4Start n d).pkg.dlUp = false ∧ (l4Start n d).pkg.stackReady = 0 ∧ (l4Start n d).pkg.octReady = 0 ∧
    (l4Start n d).pkg.portReady = 0 ∧ (l4Start n d).ump.cycleCause = n) ∧
  (∀ (u : UnitId) (v : Nat) (r : CheckResult) (s : State), live s.dev = true → s.dev.ump.l1.contains u = true →
    octVf s.dev (unitOct u) = some v → l2Covered s.dev v = false → s.dev.ump.auto = false →
    exec (.l1BoundExpiry u r) s = .next { s with dev := (settle (tracked (fun d => l2Run v .hungUnit 13 d)
      (recordHung (unitCode u).1 (unitCode u).2 { recAt s.dev (unitOct u) .hungUnit 13 with escalated := true, action := 3 }
        false (escalated { s.dev with ump := { s.dev.ump with l1 := s.dev.ump.l1.filter (· != u) } })))) }) ∧
  (∀ (u : UnitId) (r : CheckResult) (s : State), live s.dev = true → s.dev.ump.l1.contains u = true →
    octVf s.dev (unitOct u) = none → s.dev.ump.l3Wait = none → s.dev.ump.auto = false →
    exec (.l1BoundExpiry u r) s = .next { s with dev := (l3Run r
      (recordHung (unitCode u).1 (unitCode u).2 { recAt s.dev (unitOct u) .hungUnit 13 with escalated := true, action := 4 }
        false (escalated { s.dev with ump := { s.dev.ump with l1 := s.dev.ump.l1.filter (· != u) } }))) }) ∧
  (∀ (v : Fin 8) (r : CheckResult) (s : State), live s.dev = true → has8 s.dev.ump.l2 v = true → s.dev.ump.l3Wait = none →
    s.dev.ump.auto = false →
    exec (.l2BoundExpiry v r) s = .next { s with dev := (l3Run r (recordHung (Config.freeNat s.dev.free % 256)
      (Config.freeNat s.dev.free / 256) { recBase with source := 13, vf := some v.val, action := 4, escalated := true } false
      (escalated { s.dev with free := s.dev.free + 1 }))) }) ∧
  (∀ (s : State), s.dev.pkg.phase = .l3 →
    exec .l3BoundExpiry s = .next { s with dev := (l4Start 1 (recordHung (Config.freeNat s.dev.free % 256)
      (Config.freeNat s.dev.free / 256) { recBase with source := 13, action := 5, escalated := true } false
      (escalated { s.dev with free := s.dev.free + 1 }))) })

/-- Lockdown, whatever its cause, from service, recovery or an L3: the phase, HALT_N, every key zeroed, ERR_FATAL, and
CYCLE_CAUSE 3; HBM, the fuses and the flash stay as they were. -/
def Obligations.LockdownZeroesKeys : Prop :=
  ∀ (c : SecurityCause) (s : State),
    (s.dev.pkg.phase = .running ∨ s.dev.pkg.phase = .recovery ∨ s.dev.pkg.phase = .l3) →
    ∃ t, exec (.lockdown c) s = .next t ∧ t.pending = s.pending ∧ t.dev.pkg.phase = .lockdown ∧ t.dev.pkg.halt = true ∧
      keysGone t.dev = true ∧ .errFatal ∈ t.dev.out ∧ t.dev.ump.cycleCause = 3 ∧ t.dev.hbm = s.dev.hbm ∧
      t.dev.fuse = s.dev.fuse ∧ t.dev.flash = s.dev.flash

/-! ## What reset leaves, and devices that do not run (13 to 16) -/

/-- Before power-on no command waits, the device is unpowered and holds no key, the tick count is 0, no block is enabled or waits
for its APPLY, every READY bit is clear, no context, queue, command, partition or transfer exists, HBM lists nothing and its table is in
canonical form, and a word of HBM that nothing has written reads zero (the last is the model's choice, log 4). -/
def Obligations.ResetHoldsNothing : Prop :=
  State.reset.pending = [] ∧ State.reset.dev.pkg.phase = .unpowered ∧ stopped State.reset.dev = true ∧
  holdsNoKey State.reset.dev = true ∧ State.reset.dev.tck.count = 0 ∧ Memory.wf State.reset.dev.hbm ∧
  State.reset.dev.hbm = [] ∧ State.reset.dev.ctx = [] ∧ State.reset.dev.cmds = [] ∧ State.reset.dev.part = [] ∧
  State.reset.dev.xfers = [] ∧ State.reset.dev.queue = [] ∧ State.reset.dev.pkg.config = false ∧
  State.reset.dev.pkg.mailbox = false ∧ State.reset.dev.ret.generation = 0 ∧ State.reset.dev.pkg.octReady = 0 ∧
  State.reset.dev.pkg.stackReady = 0 ∧ State.reset.dev.pkg.portReady = 0 ∧
  (∀ b : Block, (getBlk State.reset.dev (blkBase b)).enable = false ∧ (getBlk State.reset.dev (blkBase b)).apply = false) ∧
  ∀ a : Nat, readByte State.reset.dev.hbm a = 0

/-- A device that is unpowered, in lockdown or tripped holds no key, and no step changes that but POWER_ON_BOOT of an unpowered
device. -/
def Obligations.StoppedDeviceKeepsNoKey : Prop :=
  ∀ (s t : State), stopped s.dev = true → holdsNoKey s.dev = true →
    (∀ (r : CheckResult) (rest : List Instr), s.pending = .powerOnBoot r :: rest → s.dev.pkg.phase ≠ .unpowered) →
    step s = .next t → stopped t.dev = true ∧ holdsNoKey t.dev = true

/-! ## Encodings (09) -/

/-- The 128 bytes of a management command spell that command again, for every command of R227 whose operands fit into the bytes that
its encoding gives them. -/
def Obligations.MgmtEncodingRoundTrips : Prop :=
  ∀ c : MgmtCmd, mgmtFits c = true → mgmtParse (mgmtBytes c) = some c

/-! ## Rules of registers and of bundles (00, 03) -/

/-- Every bit of a register that no field covers reads 0. Of two writes to a word that a function sees that differ only in such
bits, each leaves exactly the state that the other leaves. -/
def Obligations.ReservedBitsAreIgnored : Prop :=
  (∀ (d : Dev) (f : Fn) (w : Wd) (i : Nat), (fieldMask w).testBit i = false → (wordValue d f w).testBit i = false) ∧
  (∀ (f : Fn) (off n : Nat) (v x : DWord) (w : Wd) (s : State), accessOk off n = true →
    sight s.dev f (off / 8 * 8) = .shown w →
    (∀ i, i < 8 * n → (fieldMask w).testBit (8 * (off % 8) + i) = true → v.getLsbD i = x.getLsbD i) →
    ∃ t, exec (.registerWrite f off n v) s = .next t ∧ exec (.registerWrite f off n x) s = .next t)

/-- A bundle whose header is good and whose PRED names a false predicate issues in one clock: the stream is past it, the
predicate's label is in the control label, and nothing else changes, whatever syllables the bundle holds. -/
def Obligations.FalsePredicateIssuesNothing : Prop :=
  ∀ (o : Fin 8) (c : Fin 9) (k : Fin 64) (clk item ctx st : Nat) (b : Bundle) (s : State), live s.dev = true →
    (getCore s.dev (coreNo o c k)).item = some item → (getCore s.dev (coreNo o c k)).ctx = some ctx →
    pickStream s.dev (coreNo o c k) clk = some st → issueClock s.dev (coreNo o c k) clk = true →
    fetchBundle (getCore s.dev (coreNo o c k)).icache (getStream s.dev (coreNo o c k) st).pc = some b →
    bits b.header 0 8 = 0 → predOf (getStream s.dev (coreNo o c k) st) (bundlePred b) = false →
    (getStream s.dev (coreNo o c k) st).pc + b.size < (getCore s.dev (coreNo o c k)).icache.length →
    exec (.bundleIssue o c k clk) s = .next { s with dev := (setStream (coreNo o c k) st (fun y => { y with
      ctl := y.ctl ||| plab (getStream s.dev (coreNo o c k) st) (bundlePred b) })
      (setStream (coreNo o c k) st (fun y => { y with
        pc := (getStream s.dev (coreNo o c k) st).pc + b.size, lastIssue := some clk,
        busy := y.busy.filter fun e => clk < e.2 }) s.dev)) }

/-! ## Fault records and the mailbox (13, 14) -/

/-- A fault record takes the next number and is entered in the PF ring, with the fault interrupt; a record that names a VF is
entered in that VF's ring too, and no other VF's ring changes. A full ring does not take the record: its LOST count rises
and its records and producer index stay; otherwise the record is the newest of the ring. -/
def Obligations.FaultRecordsAreEntered : Prop :=
  (∀ (r : FaultRec) (b : Bool) (d : Dev), ringsOpen d = true →
    (record r b d).ret.pfRing = ringAdd 512 (stamped r b d) d.ret.pfRing ∧
    (record r b d).ret.recSeq = (d.ret.recSeq + 1) % 2 ^ 32 ∧ interrupted 0 0 (record r b d) = true ∧
    (∀ v, r.vf = some v → look Ring.zero v (record r b d).ump.vfRing =
        ringAdd 64 (vfCopy (stamped r b d) d) (look Ring.zero v d.ump.vfRing) ∧
      interrupted (1 + v) 0 (record r b d) = true) ∧
    (∀ v, r.vf ≠ some v → look Ring.zero v (record r b d).ump.vfRing = look Ring.zero v d.ump.vfRing)) ∧
  (∀ (size : Nat) (r : FaultRec) (g : Ring), size ≤ (g.producer + 65536 - g.consumer) % 65536 →
    (ringAdd size r g).recs = g.recs ∧ (ringAdd size r g).producer = g.producer ∧
    (ringAdd size r g).lost = min 0xFFFFFFFF (g.lost + 1)) ∧
  (∀ (size : Nat) (r : FaultRec) (g : Ring), (g.producer + 65536 - g.consumer) % 65536 < size →
    look recBase (g.producer % size) (ringAdd size r g).recs = r ∧ (ringAdd size r g).lost = g.lost ∧
    (ringAdd size r g).producer = (g.producer + 1) % 65536)

/-- A mailbox request given while BUSY is set is dropped and logged with BUSY_UPDATE. A request that ends clears BUSY and sets the reason and the low half of SEQ in PTR_MBOX_STATUS; unless its response is discarded, the
response carries the request's header, its reason in byte 8 and the payload from byte 16. -/
def Obligations.MailboxAnswers : Prop :=
  (∀ (op : Nat) (seq : Word) (payload : List Byte) (f : Dev → Served) (d : Dev), barAnswers d .pf = true →
    d.pkg.mailbox = true → d.ptr.busy = true →
    mailbox op seq payload f d = dropLog .pf .busyUpdate 8 mboxGo true d) ∧
  (∀ (seq : Word) (s : State), barAnswers s.dev .pf = true → s.dev.pkg.mailbox = true → s.dev.ptr.busy = true →
    ∀ i ∈ [Instr.updateVerify seq, .updateActivate seq, .updateCancel seq, .secretsErase seq],
      exec i s = .next { s with dev := dropLog .pf .busyUpdate 8 mboxGo true s.dev }) ∧
  (∀ (r : Reason) (payload : List Byte) (d : Dev), d.ptr.busy = true →
    (mboxEnd r payload d).ptr.busy = false ∧ (mboxEnd r payload d).ptr.mboxReason = r ∧
    (mboxEnd r payload d).ptr.seqLo = d.ptr.curSeq.toNat % 65536 ∧ (mboxEnd r payload d).hbm = d.hbm) ∧
  (∀ (r : Reason) (payload : List Byte) (d : Dev), d.ptr.busy = true → d.ptr.discard = false →
    interrupted 0 2 (mboxEnd r payload d) = true ∧ (mboxEnd r payload d).ptr.buf =
      writeBytes (writeByte d.ptr.buf 8 (BitVec.ofNat 8 (reasonCode r))) 16 payload) ∧
  (∀ (r : Reason) (payload : List Byte) (d : Dev), d.ptr.busy = true → d.ptr.discard = true →
    (mboxEnd r payload d).ptr.buf = d.ptr.buf ∧ (mboxEnd r payload d).out = d.out)
end

