-- ==== Sys2Proof/Laws/Tables.lean ====
section
/-!
SUPPORT. Laws of the sparse tables and memories: a look after a write, and the canonical form that every operation keeps.
-/
namespace Sys2Proof.Machine

variable {α : Type}

/-! ## Looking -/

theorem look_place_same (d : α) (k : Nat) (v : α) (t : Tbl α) : look d k (place k v t) = v := by
  induction t with
  | nil => simp [place, look]
  | cons e t ih =>
    obtain ⟨k', v'⟩ := e
    simp only [place]
    split
    · simp [look]
    · split
      · simp [look]
      · next h => simp only [look]; rw [if_neg (by omega)]; exact ih

theorem look_place_other (d : α) (k j : Nat) (v : α) (t : Tbl α) (h : j ≠ k) :
    look d j (place k v t) = look d j t := by
  induction t with
  | nil => simp [place, look, Ne.symm h]
  | cons e t ih =>
    obtain ⟨k', v'⟩ := e
    simp only [place]
    split
    · simp [look, Ne.symm h]
    · split
      · next h1 h2 => subst h2; simp [look, Ne.symm h]
      · simp only [look, ih]

theorem look_filter_keep (d : α) (j : Nat) (p : Nat → Bool) (t : Tbl α) (h : p j = true) :
    look d j (t.filter fun e => p e.1) = look d j t := by
  induction t with
  | nil => rfl
  | cons e t ih =>
    obtain ⟨k', v'⟩ := e
    by_cases hp : p k' = true
    · simp only [List.filter_cons, hp, if_true, look, ih]
    · have : k' ≠ j := fun e => hp (e ▸ h)
      simp only [List.filter_cons, hp, if_false, look, if_neg this, ih, Bool.false_eq_true]

theorem look_filter_drop (d : α) (j : Nat) (p : Nat → Bool) (t : Tbl α) (h : p j = false) :
    look d j (t.filter fun e => p e.1) = d := by
  induction t with
  | nil => rfl
  | cons e t ih =>
    obtain ⟨k', v'⟩ := e
    by_cases hp : p k' = true
    · have : k' ≠ j := fun e => by rw [e, h] at hp; cases hp
      simp only [List.filter_cons, hp, if_true, look, if_neg this, ih]
    · simp only [List.filter_cons, hp, if_false, ih, Bool.false_eq_true]

@[simp] theorem look_erase_same (d : α) (k : Nat) (t : Tbl α) : look d k (erase k t) = d :=
  look_filter_drop d k (fun i => i != k) t (by simp)

theorem look_erase_other (d : α) (k j : Nat) (t : Tbl α) (h : j ≠ k) : look d j (erase k t) = look d j t :=
  look_filter_keep d j (fun i => i != k) t (by simp [h])

@[simp] theorem look_put_same [DecidableEq α] (d : α) (k : Nat) (v : α) (t : Tbl α) : look d k (put d k v t) = v := by
  unfold put
  split
  · next h => rw [look_erase_same, h]
  · exact look_place_same d k v t

theorem look_put_other [DecidableEq α] (d : α) (k j : Nat) (v : α) (t : Tbl α) (h : j ≠ k) :
    look d j (put d k v t) = look d j t := by
  unfold put
  split
  · exact look_erase_other d k j t h
  · exact look_place_other d k j v t h

theorem look_put [DecidableEq α] (d : α) (k j : Nat) (v : α) (t : Tbl α) :
    look d j (put d k v t) = if j = k then v else look d j t := by
  split
  · next h => subst h; simp
  · next h => exact look_put_other d k j v t h

@[simp] theorem look_alter_same [DecidableEq α] (d : α) (k : Nat) (f : α → α) (t : Tbl α) :
    look d k (alter d k f t) = f (look d k t) := look_put_same d k _ t

theorem look_alter_other [DecidableEq α] (d : α) (k j : Nat) (f : α → α) (t : Tbl α) (h : j ≠ k) :
    look d j (alter d k f t) = look d j t := look_put_other d k j _ t h

theorem look_dropRange (d : α) (lo hi j : Nat) (t : Tbl α) :
    look d j (dropRange lo hi t) = if lo ≤ j ∧ j < hi then d else look d j t := by
  unfold dropRange
  split
  · next h => exact look_filter_drop d j (fun i => decide (i < lo) || decide (hi ≤ i)) t (by simp; omega)
  · next h => exact look_filter_keep d j (fun i => decide (i < lo) || decide (hi ≤ i)) t (by simp; omega)

/-! ## The canonical form -/

/-- A table is canonical when its head is not a default and lies below a canonical tail. -/
theorem Tbl.wf_cons [DecidableEq α] (d : α) (k : Nat) (v : α) (t : Tbl α) :
    Tbl.wf d ((k, v) :: t) = true ↔ v ≠ d ∧ Tbl.wf d t = true ∧ ∀ e ∈ t.head?, k < e.1 := by
  cases t with
  | nil => simp [Tbl.wf]
  | cons e t =>
    obtain ⟨k', v'⟩ := e
    simp only [Tbl.wf, Bool.and_eq_true, bne_iff_ne, decide_eq_true_eq, List.head?_cons, Option.mem_def, Option.some.injEq,
      forall_eq']
    tauto

/-- Every key of a canonical table after its head lies above the head's. -/
theorem Tbl.wf_above [DecidableEq α] (d : α) (k : Nat) (v : α) (t : Tbl α) (h : Tbl.wf d ((k, v) :: t) = true) :
    ∀ e ∈ t, k < e.1 := by
  induction t generalizing k v with
  | nil => simp
  | cons e t ih =>
    obtain ⟨k', v'⟩ := e
    rw [Tbl.wf_cons] at h
    have hk : k < k' := h.2.2 (k', v') (by simp)
    intro x hx
    rcases List.mem_cons.mp hx with rfl | hx
    · exact hk
    · exact Nat.lt_trans hk (ih k' v' h.2.1 x hx)

theorem Tbl.wf_of_above [DecidableEq α] (d : α) (k : Nat) (v : α) (t : Tbl α) (hv : v ≠ d) (ht : Tbl.wf d t = true)
    (h : ∀ e ∈ t, k < e.1) : Tbl.wf d ((k, v) :: t) = true := by
  rw [Tbl.wf_cons]
  exact ⟨hv, ht, fun e he => h e (List.mem_of_mem_head? he)⟩

theorem Tbl.wf_filter [DecidableEq α] (d : α) (p : Nat × α → Bool) (t : Tbl α) (h : Tbl.wf d t = true) :
    Tbl.wf d (t.filter p) = true := by
  induction t with
  | nil => rfl
  | cons e t ih =>
    obtain ⟨k, v⟩ := e
    have hc := (Tbl.wf_cons d k v t).mp h
    rw [List.filter_cons]
    split
    · exact Tbl.wf_of_above d k v _ hc.1 (ih hc.2.1)
        fun e he => Tbl.wf_above d k v t h e (List.mem_of_mem_filter he)
    · exact ih hc.2.1

theorem Tbl.wf_erase [DecidableEq α] (d : α) (k : Nat) (t : Tbl α) (h : Tbl.wf d t = true) :
    Tbl.wf d (erase k t) = true := Tbl.wf_filter d _ t h

theorem Tbl.wf_dropRange [DecidableEq α] (d : α) (lo hi : Nat) (t : Tbl α) (h : Tbl.wf d t = true) :
    Tbl.wf d (dropRange lo hi t) = true := Tbl.wf_filter d _ t h

theorem mem_place (k : Nat) (v : α) (t : Tbl α) (e : Nat × α) (h : e ∈ place k v t) : e = (k, v) ∨ e ∈ t := by
  induction t with
  | nil => simpa [place] using h
  | cons x t ih =>
    obtain ⟨k', v'⟩ := x
    simp only [place] at h
    split at h
    · simpa using h
    · split at h
      · rcases List.mem_cons.mp h with h | h
        · exact .inl h
        · exact .inr (List.mem_cons_of_mem _ h)
      · rcases List.mem_cons.mp h with h | h
        · exact .inr (by simp [h])
        · rcases ih h with h | h
          · exact .inl h
          · exact .inr (List.mem_cons_of_mem _ h)

theorem Tbl.wf_place [DecidableEq α] (d : α) (k : Nat) (v : α) (t : Tbl α) (hv : v ≠ d) (h : Tbl.wf d t = true) :
    Tbl.wf d (place k v t) = true := by
  induction t with
  | nil => simp [place, Tbl.wf, hv]
  | cons e t ih =>
    obtain ⟨k', v'⟩ := e
    have hc := (Tbl.wf_cons d k' v' t).mp h
    simp only [place]
    split
    · next hk =>
      refine Tbl.wf_of_above d k v _ hv h fun e he => ?_
      rcases List.mem_cons.mp he with rfl | he
      · exact hk
      · exact Nat.lt_trans hk (Tbl.wf_above d k' v' t h e he)
    · split
      · next hk => subst hk; exact Tbl.wf_of_above d k v _ hv hc.2.1 (Tbl.wf_above d k v' t h)
      · refine Tbl.wf_of_above d k' v' _ hc.1 (ih hc.2.1) fun e he => ?_
        rcases mem_place k v t e he with rfl | he
        · simp only; omega
        · exact Tbl.wf_above d k' v' t h e he

theorem Tbl.wf_put [DecidableEq α] (d : α) (k : Nat) (v : α) (t : Tbl α) (h : Tbl.wf d t = true) :
    Tbl.wf d (put d k v t) = true := by
  unfold put
  split
  · exact Tbl.wf_erase d k t h
  · next hv => exact Tbl.wf_place d k v t hv h

theorem Tbl.wf_alter [DecidableEq α] (d : α) (k : Nat) (f : α → α) (t : Tbl α) (h : Tbl.wf d t = true) :
    Tbl.wf d (alter d k f t) = true := Tbl.wf_put d k _ t h

/-! ## Memories: a read after a write, and the canonical form -/

@[simp] theorem readByte_writeByte_same (m : Memory) (a : Nat) (b : Byte) : readByte (writeByte m a b) a = b :=
  look_put_same 0 a b m

theorem readByte_writeByte_other (m : Memory) (a c : Nat) (b : Byte) (h : c ≠ a) :
    readByte (writeByte m a b) c = readByte m c := look_put_other 0 a c b m h

/-- A byte after a write of a list: the list's byte inside the written range, the old one outside. -/
theorem readByte_writeBytes (l : List Byte) (m : Memory) (a c : Nat) :
    readByte (writeBytes m a l) c = if a ≤ c ∧ c < a + l.length then l.getD (c - a) 0 else readByte m c := by
  induction l generalizing m a with
  | nil => simp [writeBytes]
  | cons b t ih =>
    simp only [writeBytes, ih, List.length_cons]
    by_cases hc : c = a
    · subst hc; simp
    · by_cases hr : a + 1 ≤ c ∧ c < a + 1 + t.length
      · rw [if_pos hr, if_pos (by omega)]
        obtain ⟨n, rfl⟩ : ∃ n, c = a + 1 + n := ⟨c - (a + 1), by omega⟩
        rw [show a + 1 + n - (a + 1) = n by omega, show a + 1 + n - a = n + 1 by omega, List.getD_cons_succ]
      · rw [if_neg hr, if_neg (by omega), readByte_writeByte_other m a c b hc]

theorem readByte_zeroRange (m : Memory) (lo hi a : Nat) :
    readByte (zeroRange m lo hi) a = if lo ≤ a ∧ a < hi then 0 else readByte m a := look_dropRange 0 lo hi a m

theorem Memory.wf_writeByte (m : Memory) (a : Nat) (b : Byte) (h : Memory.wf m) : Memory.wf (writeByte m a b) :=
  Tbl.wf_put 0 a b m h

theorem Memory.wf_writeBytes (l : List Byte) (m : Memory) (a : Nat) (h : Memory.wf m) : Memory.wf (writeBytes m a l) := by
  induction l generalizing m a with
  | nil => exact h
  | cons b t ih => exact ih _ _ (Memory.wf_writeByte m a b h)

theorem Memory.wf_zeroRange (m : Memory) (lo hi : Nat) (h : Memory.wf m) : Memory.wf (zeroRange m lo hi) :=
  Tbl.wf_dropRange 0 lo hi m h

/-- The memories of the device are canonical at reset. -/
theorem reset_memories_wf :
    Memory.wf Dev.reset.hbm ∧ Memory.wf Dev.reset.cmem ∧ Memory.wf Dev.reset.spad ∧ Memory.wf Dev.reset.acc ∧
      Memory.wf Dev.reset.ptr.buf := by decide

end Sys2Proof.Machine
end

