-- ==== Sys2Proof/Laws/State.lean ====
section
/-!
SUPPORT. The updates of State and what they leave alone: for each update and each field of the device one lemma, true by
definition, and for each table what its entry reads after an update. Generated in one pattern; proofs cite them instead of
unfolding a record update.
-/
namespace Sys2Proof.Machine

/-! ## setPart -/

@[simp] theorem setPart_fuse (v : Nat) (f : Part → Part) (d : Dev) : (setPart v f d).fuse = d.fuse := rfl
@[simp] theorem setPart_flash (v : Nat) (f : Part → Part) (d : Dev) : (setPart v f d).flash = d.flash := rfl
@[simp] theorem setPart_ret (v : Nat) (f : Part → Part) (d : Dev) : (setPart v f d).ret = d.ret := rfl
@[simp] theorem setPart_pkg (v : Nat) (f : Part → Part) (d : Dev) : (setPart v f d).pkg = d.pkg := rfl
@[simp] theorem setPart_blk (v : Nat) (f : Part → Part) (d : Dev) : (setPart v f d).blk = d.blk := rfl
@[simp] theorem setPart_tck (v : Nat) (f : Part → Part) (d : Dev) : (setPart v f d).tck = d.tck := rfl
@[simp] theorem setPart_pwr (v : Nat) (f : Part → Part) (d : Dev) : (setPart v f d).pwr = d.pwr := rfl
@[simp] theorem setPart_ptr (v : Nat) (f : Part → Part) (d : Dev) : (setPart v f d).ptr = d.ptr := rfl
@[simp] theorem setPart_ump (v : Nat) (f : Part → Part) (d : Dev) : (setPart v f d).ump = d.ump := rfl
@[simp] theorem setPart_sht (v : Nat) (f : Part → Part) (d : Dev) : (setPart v f d).sht = d.sht := rfl
@[simp] theorem setPart_slot (v : Nat) (f : Part → Part) (d : Dev) : (setPart v f d).slot = d.slot := rfl
@[simp] theorem setPart_win (v : Nat) (f : Part → Part) (d : Dev) : (setPart v f d).win = d.win := rfl
@[simp] theorem setPart_pool (v : Nat) (f : Part → Part) (d : Dev) : (setPart v f d).pool = d.pool := rfl
@[simp] theorem setPart_stack (v : Nat) (f : Part → Part) (d : Dev) : (setPart v f d).stack = d.stack := rfl
@[simp] theorem setPart_region (v : Nat) (f : Part → Part) (d : Dev) : (setPart v f d).region = d.region := rfl
@[simp] theorem setPart_page (v : Nat) (f : Part → Part) (d : Dev) : (setPart v f d).page = d.page := rfl
@[simp] theorem setPart_hbm (v : Nat) (f : Part → Part) (d : Dev) : (setPart v f d).hbm = d.hbm := rfl
@[simp] theorem setPart_cas (v : Nat) (f : Part → Part) (d : Dev) : (setPart v f d).cas = d.cas := rfl
@[simp] theorem setPart_cmem (v : Nat) (f : Part → Part) (d : Dev) : (setPart v f d).cmem = d.cmem := rfl
@[simp] theorem setPart_cmemLabel (v : Nat) (f : Part → Part) (d : Dev) : (setPart v f d).cmemLabel = d.cmemLabel := rfl
@[simp] theorem setPart_spad (v : Nat) (f : Part → Part) (d : Dev) : (setPart v f d).spad = d.spad := rfl
@[simp] theorem setPart_spadLabel (v : Nat) (f : Part → Part) (d : Dev) : (setPart v f d).spadLabel = d.spadLabel := rfl
@[simp] theorem setPart_acc (v : Nat) (f : Part → Part) (d : Dev) : (setPart v f d).acc = d.acc := rfl
@[simp] theorem setPart_seq (v : Nat) (f : Part → Part) (d : Dev) : (setPart v f d).seq = d.seq := rfl
@[simp] theorem setPart_ctx (v : Nat) (f : Part → Part) (d : Dev) : (setPart v f d).ctx = d.ctx := rfl
@[simp] theorem setPart_rtab (v : Nat) (f : Part → Part) (d : Dev) : (setPart v f d).rtab = d.rtab := rfl
@[simp] theorem setPart_img (v : Nat) (f : Part → Part) (d : Dev) : (setPart v f d).img = d.img := rfl
@[simp] theorem setPart_queue (v : Nat) (f : Part → Part) (d : Dev) : (setPart v f d).queue = d.queue := rfl
@[simp] theorem setPart_obj (v : Nat) (f : Part → Part) (d : Dev) : (setPart v f d).obj = d.obj := rfl
@[simp] theorem setPart_cmds (v : Nat) (f : Part → Part) (d : Dev) : (setPart v f d).cmds = d.cmds := rfl
@[simp] theorem setPart_nextCmd (v : Nat) (f : Part → Part) (d : Dev) : (setPart v f d).nextCmd = d.nextCmd := rfl
@[simp] theorem setPart_signals (v : Nat) (f : Part → Part) (d : Dev) : (setPart v f d).signals = d.signals := rfl
@[simp] theorem setPart_core (v : Nat) (f : Part → Part) (d : Dev) : (setPart v f d).core = d.core := rfl
@[simp] theorem setPart_stream (v : Nat) (f : Part → Part) (d : Dev) : (setPart v f d).stream = d.stream := rfl
@[simp] theorem setPart_clu (v : Nat) (f : Part → Part) (d : Dev) : (setPart v f d).clu = d.clu := rfl
@[simp] theorem setPart_rle (v : Nat) (f : Part → Part) (d : Dev) : (setPart v f d).rle = d.rle := rfl
@[simp] theorem setPart_xfers (v : Nat) (f : Part → Part) (d : Dev) : (setPart v f d).xfers = d.xfers := rfl
@[simp] theorem setPart_rly (v : Nat) (f : Part → Part) (d : Dev) : (setPart v f d).rly = d.rly := rfl
@[simp] theorem setPart_port (v : Nat) (f : Part → Part) (d : Dev) : (setPart v f d).port = d.port := rfl
@[simp] theorem setPart_group (v : Nat) (f : Part → Part) (d : Dev) : (setPart v f d).group = d.group := rfl
@[simp] theorem setPart_steps (v : Nat) (f : Part → Part) (d : Dev) : (setPart v f d).steps = d.steps := rfl
@[simp] theorem setPart_dbgSel (v : Nat) (f : Part → Part) (d : Dev) : (setPart v f d).dbgSel = d.dbgSel := rfl
@[simp] theorem setPart_out (v : Nat) (f : Part → Part) (d : Dev) : (setPart v f d).out = d.out := rfl
@[simp] theorem setPart_free (v : Nat) (f : Part → Part) (d : Dev) : (setPart v f d).free = d.free := rfl

@[simp] theorem getPart_setPart (v : Nat) (f : Part → Part) (d : Dev) : getPart (setPart v f d) v = f (getPart d v) :=
  look_alter_same _ _ _ _

theorem getPart_setPart_ne (u : Nat) (v : Nat) (f : Part → Part) (d : Dev) (h : u ≠ v) : getPart (setPart v f d) u = getPart d u :=
  look_alter_other _ _ _ _ _ h

/-! ## setSht -/

@[simp] theorem setSht_fuse (o : Nat) (f : ShtOct → ShtOct) (d : Dev) : (setSht o f d).fuse = d.fuse := rfl
@[simp] theorem setSht_flash (o : Nat) (f : ShtOct → ShtOct) (d : Dev) : (setSht o f d).flash = d.flash := rfl
@[simp] theorem setSht_ret (o : Nat) (f : ShtOct → ShtOct) (d : Dev) : (setSht o f d).ret = d.ret := rfl
@[simp] theorem setSht_pkg (o : Nat) (f : ShtOct → ShtOct) (d : Dev) : (setSht o f d).pkg = d.pkg := rfl
@[simp] theorem setSht_blk (o : Nat) (f : ShtOct → ShtOct) (d : Dev) : (setSht o f d).blk = d.blk := rfl
@[simp] theorem setSht_tck (o : Nat) (f : ShtOct → ShtOct) (d : Dev) : (setSht o f d).tck = d.tck := rfl
@[simp] theorem setSht_pwr (o : Nat) (f : ShtOct → ShtOct) (d : Dev) : (setSht o f d).pwr = d.pwr := rfl
@[simp] theorem setSht_ptr (o : Nat) (f : ShtOct → ShtOct) (d : Dev) : (setSht o f d).ptr = d.ptr := rfl
@[simp] theorem setSht_ump (o : Nat) (f : ShtOct → ShtOct) (d : Dev) : (setSht o f d).ump = d.ump := rfl
@[simp] theorem setSht_part (o : Nat) (f : ShtOct → ShtOct) (d : Dev) : (setSht o f d).part = d.part := rfl
@[simp] theorem setSht_slot (o : Nat) (f : ShtOct → ShtOct) (d : Dev) : (setSht o f d).slot = d.slot := rfl
@[simp] theorem setSht_win (o : Nat) (f : ShtOct → ShtOct) (d : Dev) : (setSht o f d).win = d.win := rfl
@[simp] theorem setSht_pool (o : Nat) (f : ShtOct → ShtOct) (d : Dev) : (setSht o f d).pool = d.pool := rfl
@[simp] theorem setSht_stack (o : Nat) (f : ShtOct → ShtOct) (d : Dev) : (setSht o f d).stack = d.stack := rfl
@[simp] theorem setSht_region (o : Nat) (f : ShtOct → ShtOct) (d : Dev) : (setSht o f d).region = d.region := rfl
@[simp] theorem setSht_page (o : Nat) (f : ShtOct → ShtOct) (d : Dev) : (setSht o f d).page = d.page := rfl
@[simp] theorem setSht_hbm (o : Nat) (f : ShtOct → ShtOct) (d : Dev) : (setSht o f d).hbm = d.hbm := rfl
@[simp] theorem setSht_cas (o : Nat) (f : ShtOct → ShtOct) (d : Dev) : (setSht o f d).cas = d.cas := rfl
@[simp] theorem setSht_cmem (o : Nat) (f : ShtOct → ShtOct) (d : Dev) : (setSht o f d).cmem = d.cmem := rfl
@[simp] theorem setSht_cmemLabel (o : Nat) (f : ShtOct → ShtOct) (d : Dev) : (setSht o f d).cmemLabel = d.cmemLabel := rfl
@[simp] theorem setSht_spad (o : Nat) (f : ShtOct → ShtOct) (d : Dev) : (setSht o f d).spad = d.spad := rfl
@[simp] theorem setSht_spadLabel (o : Nat) (f : ShtOct → ShtOct) (d : Dev) : (setSht o f d).spadLabel = d.spadLabel := rfl
@[simp] theorem setSht_acc (o : Nat) (f : ShtOct → ShtOct) (d : Dev) : (setSht o f d).acc = d.acc := rfl
@[simp] theorem setSht_seq (o : Nat) (f : ShtOct → ShtOct) (d : Dev) : (setSht o f d).seq = d.seq := rfl
@[simp] theorem setSht_ctx (o : Nat) (f : ShtOct → ShtOct) (d : Dev) : (setSht o f d).ctx = d.ctx := rfl
@[simp] theorem setSht_rtab (o : Nat) (f : ShtOct → ShtOct) (d : Dev) : (setSht o f d).rtab = d.rtab := rfl
@[simp] theorem setSht_img (o : Nat) (f : ShtOct → ShtOct) (d : Dev) : (setSht o f d).img = d.img := rfl
@[simp] theorem setSht_queue (o : Nat) (f : ShtOct → ShtOct) (d : Dev) : (setSht o f d).queue = d.queue := rfl
@[simp] theorem setSht_obj (o : Nat) (f : ShtOct → ShtOct) (d : Dev) : (setSht o f d).obj = d.obj := rfl
@[simp] theorem setSht_cmds (o : Nat) (f : ShtOct → ShtOct) (d : Dev) : (setSht o f d).cmds = d.cmds := rfl
@[simp] theorem setSht_nextCmd (o : Nat) (f : ShtOct → ShtOct) (d : Dev) : (setSht o f d).nextCmd = d.nextCmd := rfl
@[simp] theorem setSht_signals (o : Nat) (f : ShtOct → ShtOct) (d : Dev) : (setSht o f d).signals = d.signals := rfl
@[simp] theorem setSht_core (o : Nat) (f : ShtOct → ShtOct) (d : Dev) : (setSht o f d).core = d.core := rfl
@[simp] theorem setSht_stream (o : Nat) (f : ShtOct → ShtOct) (d : Dev) : (setSht o f d).stream = d.stream := rfl
@[simp] theorem setSht_clu (o : Nat) (f : ShtOct → ShtOct) (d : Dev) : (setSht o f d).clu = d.clu := rfl
@[simp] theorem setSht_rle (o : Nat) (f : ShtOct → ShtOct) (d : Dev) : (setSht o f d).rle = d.rle := rfl
@[simp] theorem setSht_xfers (o : Nat) (f : ShtOct → ShtOct) (d : Dev) : (setSht o f d).xfers = d.xfers := rfl
@[simp] theorem setSht_rly (o : Nat) (f : ShtOct → ShtOct) (d : Dev) : (setSht o f d).rly = d.rly := rfl
@[simp] theorem setSht_port (o : Nat) (f : ShtOct → ShtOct) (d : Dev) : (setSht o f d).port = d.port := rfl
@[simp] theorem setSht_group (o : Nat) (f : ShtOct → ShtOct) (d : Dev) : (setSht o f d).group = d.group := rfl
@[simp] theorem setSht_steps (o : Nat) (f : ShtOct → ShtOct) (d : Dev) : (setSht o f d).steps = d.steps := rfl
@[simp] theorem setSht_dbgSel (o : Nat) (f : ShtOct → ShtOct) (d : Dev) : (setSht o f d).dbgSel = d.dbgSel := rfl
@[simp] theorem setSht_out (o : Nat) (f : ShtOct → ShtOct) (d : Dev) : (setSht o f d).out = d.out := rfl
@[simp] theorem setSht_free (o : Nat) (f : ShtOct → ShtOct) (d : Dev) : (setSht o f d).free = d.free := rfl

@[simp] theorem getSht_setSht (o : Nat) (f : ShtOct → ShtOct) (d : Dev) : getSht (setSht o f d) o = f (getSht d o) :=
  look_alter_same _ _ _ _

theorem getSht_setSht_ne (u : Nat) (o : Nat) (f : ShtOct → ShtOct) (d : Dev) (h : u ≠ o) : getSht (setSht o f d) u = getSht d u :=
  look_alter_other _ _ _ _ _ h

/-! ## setCtx -/

@[simp] theorem setCtx_fuse (o c : Nat) (f : Ctx → Ctx) (d : Dev) : (setCtx o c f d).fuse = d.fuse := rfl
@[simp] theorem setCtx_flash (o c : Nat) (f : Ctx → Ctx) (d : Dev) : (setCtx o c f d).flash = d.flash := rfl
@[simp] theorem setCtx_ret (o c : Nat) (f : Ctx → Ctx) (d : Dev) : (setCtx o c f d).ret = d.ret := rfl
@[simp] theorem setCtx_pkg (o c : Nat) (f : Ctx → Ctx) (d : Dev) : (setCtx o c f d).pkg = d.pkg := rfl
@[simp] theorem setCtx_blk (o c : Nat) (f : Ctx → Ctx) (d : Dev) : (setCtx o c f d).blk = d.blk := rfl
@[simp] theorem setCtx_tck (o c : Nat) (f : Ctx → Ctx) (d : Dev) : (setCtx o c f d).tck = d.tck := rfl
@[simp] theorem setCtx_pwr (o c : Nat) (f : Ctx → Ctx) (d : Dev) : (setCtx o c f d).pwr = d.pwr := rfl
@[simp] theorem setCtx_ptr (o c : Nat) (f : Ctx → Ctx) (d : Dev) : (setCtx o c f d).ptr = d.ptr := rfl
@[simp] theorem setCtx_ump (o c : Nat) (f : Ctx → Ctx) (d : Dev) : (setCtx o c f d).ump = d.ump := rfl
@[simp] theorem setCtx_part (o c : Nat) (f : Ctx → Ctx) (d : Dev) : (setCtx o c f d).part = d.part := rfl
@[simp] theorem setCtx_sht (o c : Nat) (f : Ctx → Ctx) (d : Dev) : (setCtx o c f d).sht = d.sht := rfl
@[simp] theorem setCtx_slot (o c : Nat) (f : Ctx → Ctx) (d : Dev) : (setCtx o c f d).slot = d.slot := rfl
@[simp] theorem setCtx_win (o c : Nat) (f : Ctx → Ctx) (d : Dev) : (setCtx o c f d).win = d.win := rfl
@[simp] theorem setCtx_pool (o c : Nat) (f : Ctx → Ctx) (d : Dev) : (setCtx o c f d).pool = d.pool := rfl
@[simp] theorem setCtx_stack (o c : Nat) (f : Ctx → Ctx) (d : Dev) : (setCtx o c f d).stack = d.stack := rfl
@[simp] theorem setCtx_region (o c : Nat) (f : Ctx → Ctx) (d : Dev) : (setCtx o c f d).region = d.region := rfl
@[simp] theorem setCtx_page (o c : Nat) (f : Ctx → Ctx) (d : Dev) : (setCtx o c f d).page = d.page := rfl
@[simp] theorem setCtx_hbm (o c : Nat) (f : Ctx → Ctx) (d : Dev) : (setCtx o c f d).hbm = d.hbm := rfl
@[simp] theorem setCtx_cas (o c : Nat) (f : Ctx → Ctx) (d : Dev) : (setCtx o c f d).cas = d.cas := rfl
@[simp] theorem setCtx_cmem (o c : Nat) (f : Ctx → Ctx) (d : Dev) : (setCtx o c f d).cmem = d.cmem := rfl
@[simp] theorem setCtx_cmemLabel (o c : Nat) (f : Ctx → Ctx) (d : Dev) : (setCtx o c f d).cmemLabel = d.cmemLabel := rfl
@[simp] theorem setCtx_spad (o c : Nat) (f : Ctx → Ctx) (d : Dev) : (setCtx o c f d).spad = d.spad := rfl
@[simp] theorem setCtx_spadLabel (o c : Nat) (f : Ctx → Ctx) (d : Dev) : (setCtx o c f d).spadLabel = d.spadLabel := rfl
@[simp] theorem setCtx_acc (o c : Nat) (f : Ctx → Ctx) (d : Dev) : (setCtx o c f d).acc = d.acc := rfl
@[simp] theorem setCtx_seq (o c : Nat) (f : Ctx → Ctx) (d : Dev) : (setCtx o c f d).seq = d.seq := rfl
@[simp] theorem setCtx_rtab (o c : Nat) (f : Ctx → Ctx) (d : Dev) : (setCtx o c f d).rtab = d.rtab := rfl
@[simp] theorem setCtx_img (o c : Nat) (f : Ctx → Ctx) (d : Dev) : (setCtx o c f d).img = d.img := rfl
@[simp] theorem setCtx_queue (o c : Nat) (f : Ctx → Ctx) (d : Dev) : (setCtx o c f d).queue = d.queue := rfl
@[simp] theorem setCtx_obj (o c : Nat) (f : Ctx → Ctx) (d : Dev) : (setCtx o c f d).obj = d.obj := rfl
@[simp] theorem setCtx_cmds (o c : Nat) (f : Ctx → Ctx) (d : Dev) : (setCtx o c f d).cmds = d.cmds := rfl
@[simp] theorem setCtx_nextCmd (o c : Nat) (f : Ctx → Ctx) (d : Dev) : (setCtx o c f d).nextCmd = d.nextCmd := rfl
@[simp] theorem setCtx_signals (o c : Nat) (f : Ctx → Ctx) (d : Dev) : (setCtx o c f d).signals = d.signals := rfl
@[simp] theorem setCtx_core (o c : Nat) (f : Ctx → Ctx) (d : Dev) : (setCtx o c f d).core = d.core := rfl
@[simp] theorem setCtx_stream (o c : Nat) (f : Ctx → Ctx) (d : Dev) : (setCtx o c f d).stream = d.stream := rfl
@[simp] theorem setCtx_clu (o c : Nat) (f : Ctx → Ctx) (d : Dev) : (setCtx o c f d).clu = d.clu := rfl
@[simp] theorem setCtx_rle (o c : Nat) (f : Ctx → Ctx) (d : Dev) : (setCtx o c f d).rle = d.rle := rfl
@[simp] theorem setCtx_xfers (o c : Nat) (f : Ctx → Ctx) (d : Dev) : (setCtx o c f d).xfers = d.xfers := rfl
@[simp] theorem setCtx_rly (o c : Nat) (f : Ctx → Ctx) (d : Dev) : (setCtx o c f d).rly = d.rly := rfl
@[simp] theorem setCtx_port (o c : Nat) (f : Ctx → Ctx) (d : Dev) : (setCtx o c f d).port = d.port := rfl
@[simp] theorem setCtx_group (o c : Nat) (f : Ctx → Ctx) (d : Dev) : (setCtx o c f d).group = d.group := rfl
@[simp] theorem setCtx_steps (o c : Nat) (f : Ctx → Ctx) (d : Dev) : (setCtx o c f d).steps = d.steps := rfl
@[simp] theorem setCtx_dbgSel (o c : Nat) (f : Ctx → Ctx) (d : Dev) : (setCtx o c f d).dbgSel = d.dbgSel := rfl
@[simp] theorem setCtx_out (o c : Nat) (f : Ctx → Ctx) (d : Dev) : (setCtx o c f d).out = d.out := rfl
@[simp] theorem setCtx_free (o c : Nat) (f : Ctx → Ctx) (d : Dev) : (setCtx o c f d).free = d.free := rfl

@[simp] theorem getCtx_setCtx (o c : Nat) (f : Ctx → Ctx) (d : Dev) : getCtx (setCtx o c f d) o c = f (getCtx d o c) :=
  look_alter_same _ _ _ _

/-! ## setQueue -/

@[simp] theorem setQueue_fuse (o q : Nat) (f : Queue → Queue) (d : Dev) : (setQueue o q f d).fuse = d.fuse := rfl
@[simp] theorem setQueue_flash (o q : Nat) (f : Queue → Queue) (d : Dev) : (setQueue o q f d).flash = d.flash := rfl
@[simp] theorem setQueue_ret (o q : Nat) (f : Queue → Queue) (d : Dev) : (setQueue o q f d).ret = d.ret := rfl
@[simp] theorem setQueue_pkg (o q : Nat) (f : Queue → Queue) (d : Dev) : (setQueue o q f d).pkg = d.pkg := rfl
@[simp] theorem setQueue_blk (o q : Nat) (f : Queue → Queue) (d : Dev) : (setQueue o q f d).blk = d.blk := rfl
@[simp] theorem setQueue_tck (o q : Nat) (f : Queue → Queue) (d : Dev) : (setQueue o q f d).tck = d.tck := rfl
@[simp] theorem setQueue_pwr (o q : Nat) (f : Queue → Queue) (d : Dev) : (setQueue o q f d).pwr = d.pwr := rfl
@[simp] theorem setQueue_ptr (o q : Nat) (f : Queue → Queue) (d : Dev) : (setQueue o q f d).ptr = d.ptr := rfl
@[simp] theorem setQueue_ump (o q : Nat) (f : Queue → Queue) (d : Dev) : (setQueue o q f d).ump = d.ump := rfl
@[simp] theorem setQueue_part (o q : Nat) (f : Queue → Queue) (d : Dev) : (setQueue o q f d).part = d.part := rfl
@[simp] theorem setQueue_sht (o q : Nat) (f : Queue → Queue) (d : Dev) : (setQueue o q f d).sht = d.sht := rfl
@[simp] theorem setQueue_slot (o q : Nat) (f : Queue → Queue) (d : Dev) : (setQueue o q f d).slot = d.slot := rfl
@[simp] theorem setQueue_win (o q : Nat) (f : Queue → Queue) (d : Dev) : (setQueue o q f d).win = d.win := rfl
@[simp] theorem setQueue_pool (o q : Nat) (f : Queue → Queue) (d : Dev) : (setQueue o q f d).pool = d.pool := rfl
@[simp] theorem setQueue_stack (o q : Nat) (f : Queue → Queue) (d : Dev) : (setQueue o q f d).stack = d.stack := rfl
@[simp] theorem setQueue_region (o q : Nat) (f : Queue → Queue) (d : Dev) : (setQueue o q f d).region = d.region := rfl
@[simp] theorem setQueue_page (o q : Nat) (f : Queue → Queue) (d : Dev) : (setQueue o q f d).page = d.page := rfl
@[simp] theorem setQueue_hbm (o q : Nat) (f : Queue → Queue) (d : Dev) : (setQueue o q f d).hbm = d.hbm := rfl
@[simp] theorem setQueue_cas (o q : Nat) (f : Queue → Queue) (d : Dev) : (setQueue o q f d).cas = d.cas := rfl
@[simp] theorem setQueue_cmem (o q : Nat) (f : Queue → Queue) (d : Dev) : (setQueue o q f d).cmem = d.cmem := rfl
@[simp] theorem setQueue_cmemLabel (o q : Nat) (f : Queue → Queue) (d : Dev) : (setQueue o q f d).cmemLabel = d.cmemLabel := rfl
@[simp] theorem setQueue_spad (o q : Nat) (f : Queue → Queue) (d : Dev) : (setQueue o q f d).spad = d.spad := rfl
@[simp] theorem setQueue_spadLabel (o q : Nat) (f : Queue → Queue) (d : Dev) : (setQueue o q f d).spadLabel = d.spadLabel := rfl
@[simp] theorem setQueue_acc (o q : Nat) (f : Queue → Queue) (d : Dev) : (setQueue o q f d).acc = d.acc := rfl
@[simp] theorem setQueue_seq (o q : Nat) (f : Queue → Queue) (d : Dev) : (setQueue o q f d).seq = d.seq := rfl
@[simp] theorem setQueue_ctx (o q : Nat) (f : Queue → Queue) (d : Dev) : (setQueue o q f d).ctx = d.ctx := rfl
@[simp] theorem setQueue_rtab (o q : Nat) (f : Queue → Queue) (d : Dev) : (setQueue o q f d).rtab = d.rtab := rfl
@[simp] theorem setQueue_img (o q : Nat) (f : Queue → Queue) (d : Dev) : (setQueue o q f d).img = d.img := rfl
@[simp] theorem setQueue_obj (o q : Nat) (f : Queue → Queue) (d : Dev) : (setQueue o q f d).obj = d.obj := rfl
@[simp] theorem setQueue_cmds (o q : Nat) (f : Queue → Queue) (d : Dev) : (setQueue o q f d).cmds = d.cmds := rfl
@[simp] theorem setQueue_nextCmd (o q : Nat) (f : Queue → Queue) (d : Dev) : (setQueue o q f d).nextCmd = d.nextCmd := rfl
@[simp] theorem setQueue_signals (o q : Nat) (f : Queue → Queue) (d : Dev) : (setQueue o q f d).signals = d.signals := rfl
@[simp] theorem setQueue_core (o q : Nat) (f : Queue → Queue) (d : Dev) : (setQueue o q f d).core = d.core := rfl
@[simp] theorem setQueue_stream (o q : Nat) (f : Queue → Queue) (d : Dev) : (setQueue o q f d).stream = d.stream := rfl
@[simp] theorem setQueue_clu (o q : Nat) (f : Queue → Queue) (d : Dev) : (setQueue o q f d).clu = d.clu := rfl
@[simp] theorem setQueue_rle (o q : Nat) (f : Queue → Queue) (d : Dev) : (setQueue o q f d).rle = d.rle := rfl
@[simp] theorem setQueue_xfers (o q : Nat) (f : Queue → Queue) (d : Dev) : (setQueue o q f d).xfers = d.xfers := rfl
@[simp] theorem setQueue_rly (o q : Nat) (f : Queue → Queue) (d : Dev) : (setQueue o q f d).rly = d.rly := rfl
@[simp] theorem setQueue_port (o q : Nat) (f : Queue → Queue) (d : Dev) : (setQueue o q f d).port = d.port := rfl
@[simp] theorem setQueue_group (o q : Nat) (f : Queue → Queue) (d : Dev) : (setQueue o q f d).group = d.group := rfl
@[simp] theorem setQueue_steps (o q : Nat) (f : Queue → Queue) (d : Dev) : (setQueue o q f d).steps = d.steps := rfl
@[simp] theorem setQueue_dbgSel (o q : Nat) (f : Queue → Queue) (d : Dev) : (setQueue o q f d).dbgSel = d.dbgSel := rfl
@[simp] theorem setQueue_out (o q : Nat) (f : Queue → Queue) (d : Dev) : (setQueue o q f d).out = d.out := rfl
@[simp] theorem setQueue_free (o q : Nat) (f : Queue → Queue) (d : Dev) : (setQueue o q f d).free = d.free := rfl

@[simp] theorem getQueue_setQueue (o q : Nat) (f : Queue → Queue) (d : Dev) : getQueue (setQueue o q f d) o q = f (getQueue d o q) :=
  look_alter_same _ _ _ _

/-! ## setObj -/

@[simp] theorem setObj_fuse (o n : Nat) (f : HudObj → HudObj) (d : Dev) : (setObj o n f d).fuse = d.fuse := rfl
@[simp] theorem setObj_flash (o n : Nat) (f : HudObj → HudObj) (d : Dev) : (setObj o n f d).flash = d.flash := rfl
@[simp] theorem setObj_ret (o n : Nat) (f : HudObj → HudObj) (d : Dev) : (setObj o n f d).ret = d.ret := rfl
@[simp] theorem setObj_pkg (o n : Nat) (f : HudObj → HudObj) (d : Dev) : (setObj o n f d).pkg = d.pkg := rfl
@[simp] theorem setObj_blk (o n : Nat) (f : HudObj → HudObj) (d : Dev) : (setObj o n f d).blk = d.blk := rfl
@[simp] theorem setObj_tck (o n : Nat) (f : HudObj → HudObj) (d : Dev) : (setObj o n f d).tck = d.tck := rfl
@[simp] theorem setObj_pwr (o n : Nat) (f : HudObj → HudObj) (d : Dev) : (setObj o n f d).pwr = d.pwr := rfl
@[simp] theorem setObj_ptr (o n : Nat) (f : HudObj → HudObj) (d : Dev) : (setObj o n f d).ptr = d.ptr := rfl
@[simp] theorem setObj_ump (o n : Nat) (f : HudObj → HudObj) (d : Dev) : (setObj o n f d).ump = d.ump := rfl
@[simp] theorem setObj_part (o n : Nat) (f : HudObj → HudObj) (d : Dev) : (setObj o n f d).part = d.part := rfl
@[simp] theorem setObj_sht (o n : Nat) (f : HudObj → HudObj) (d : Dev) : (setObj o n f d).sht = d.sht := rfl
@[simp] theorem setObj_slot (o n : Nat) (f : HudObj → HudObj) (d : Dev) : (setObj o n f d).slot = d.slot := rfl
@[simp] theorem setObj_win (o n : Nat) (f : HudObj → HudObj) (d : Dev) : (setObj o n f d).win = d.win := rfl
@[simp] theorem setObj_pool (o n : Nat) (f : HudObj → HudObj) (d : Dev) : (setObj o n f d).pool = d.pool := rfl
@[simp] theorem setObj_stack (o n : Nat) (f : HudObj → HudObj) (d : Dev) : (setObj o n f d).stack = d.stack := rfl
@[simp] theorem setObj_region (o n : Nat) (f : HudObj → HudObj) (d : Dev) : (setObj o n f d).region = d.region := rfl
@[simp] theorem setObj_page (o n : Nat) (f : HudObj → HudObj) (d : Dev) : (setObj o n f d).page = d.page := rfl
@[simp] theorem setObj_hbm (o n : Nat) (f : HudObj → HudObj) (d : Dev) : (setObj o n f d).hbm = d.hbm := rfl
@[simp] theorem setObj_cas (o n : Nat) (f : HudObj → HudObj) (d : Dev) : (setObj o n f d).cas = d.cas := rfl
@[simp] theorem setObj_cmem (o n : Nat) (f : HudObj → HudObj) (d : Dev) : (setObj o n f d).cmem = d.cmem := rfl
@[simp] theorem setObj_cmemLabel (o n : Nat) (f : HudObj → HudObj) (d : Dev) : (setObj o n f d).cmemLabel = d.cmemLabel := rfl
@[simp] theorem setObj_spad (o n : Nat) (f : HudObj → HudObj) (d : Dev) : (setObj o n f d).spad = d.spad := rfl
@[simp] theorem setObj_spadLabel (o n : Nat) (f : HudObj → HudObj) (d : Dev) : (setObj o n f d).spadLabel = d.spadLabel := rfl
@[simp] theorem setObj_acc (o n : Nat) (f : HudObj → HudObj) (d : Dev) : (setObj o n f d).acc = d.acc := rfl
@[simp] theorem setObj_seq (o n : Nat) (f : HudObj → HudObj) (d : Dev) : (setObj o n f d).seq = d.seq := rfl
@[simp] theorem setObj_ctx (o n : Nat) (f : HudObj → HudObj) (d : Dev) : (setObj o n f d).ctx = d.ctx := rfl
@[simp] theorem setObj_rtab (o n : Nat) (f : HudObj → HudObj) (d : Dev) : (setObj o n f d).rtab = d.rtab := rfl
@[simp] theorem setObj_img (o n : Nat) (f : HudObj → HudObj) (d : Dev) : (setObj o n f d).img = d.img := rfl
@[simp] theorem setObj_queue (o n : Nat) (f : HudObj → HudObj) (d : Dev) : (setObj o n f d).queue = d.queue := rfl
@[simp] theorem setObj_cmds (o n : Nat) (f : HudObj → HudObj) (d : Dev) : (setObj o n f d).cmds = d.cmds := rfl
@[simp] theorem setObj_nextCmd (o n : Nat) (f : HudObj → HudObj) (d : Dev) : (setObj o n f d).nextCmd = d.nextCmd := rfl
@[simp] theorem setObj_signals (o n : Nat) (f : HudObj → HudObj) (d : Dev) : (setObj o n f d).signals = d.signals := rfl
@[simp] theorem setObj_core (o n : Nat) (f : HudObj → HudObj) (d : Dev) : (setObj o n f d).core = d.core := rfl
@[simp] theorem setObj_stream (o n : Nat) (f : HudObj → HudObj) (d : Dev) : (setObj o n f d).stream = d.stream := rfl
@[simp] theorem setObj_clu (o n : Nat) (f : HudObj → HudObj) (d : Dev) : (setObj o n f d).clu = d.clu := rfl
@[simp] theorem setObj_rle (o n : Nat) (f : HudObj → HudObj) (d : Dev) : (setObj o n f d).rle = d.rle := rfl
@[simp] theorem setObj_xfers (o n : Nat) (f : HudObj → HudObj) (d : Dev) : (setObj o n f d).xfers = d.xfers := rfl
@[simp] theorem setObj_rly (o n : Nat) (f : HudObj → HudObj) (d : Dev) : (setObj o n f d).rly = d.rly := rfl
@[simp] theorem setObj_port (o n : Nat) (f : HudObj → HudObj) (d : Dev) : (setObj o n f d).port = d.port := rfl
@[simp] theorem setObj_group (o n : Nat) (f : HudObj → HudObj) (d : Dev) : (setObj o n f d).group = d.group := rfl
@[simp] theorem setObj_steps (o n : Nat) (f : HudObj → HudObj) (d : Dev) : (setObj o n f d).steps = d.steps := rfl
@[simp] theorem setObj_dbgSel (o n : Nat) (f : HudObj → HudObj) (d : Dev) : (setObj o n f d).dbgSel = d.dbgSel := rfl
@[simp] theorem setObj_out (o n : Nat) (f : HudObj → HudObj) (d : Dev) : (setObj o n f d).out = d.out := rfl
@[simp] theorem setObj_free (o n : Nat) (f : HudObj → HudObj) (d : Dev) : (setObj o n f d).free = d.free := rfl

@[simp] theorem getObj_setObj (o n : Nat) (f : HudObj → HudObj) (d : Dev) : getObj (setObj o n f d) o n = f (getObj d o n) :=
  look_alter_same _ _ _ _

/-! ## setSeq -/

@[simp] theorem setSeq_fuse (o : Nat) (f : Seq → Seq) (d : Dev) : (setSeq o f d).fuse = d.fuse := rfl
@[simp] theorem setSeq_flash (o : Nat) (f : Seq → Seq) (d : Dev) : (setSeq o f d).flash = d.flash := rfl
@[simp] theorem setSeq_ret (o : Nat) (f : Seq → Seq) (d : Dev) : (setSeq o f d).ret = d.ret := rfl
@[simp] theorem setSeq_pkg (o : Nat) (f : Seq → Seq) (d : Dev) : (setSeq o f d).pkg = d.pkg := rfl
@[simp] theorem setSeq_blk (o : Nat) (f : Seq → Seq) (d : Dev) : (setSeq o f d).blk = d.blk := rfl
@[simp] theorem setSeq_tck (o : Nat) (f : Seq → Seq) (d : Dev) : (setSeq o f d).tck = d.tck := rfl
@[simp] theorem setSeq_pwr (o : Nat) (f : Seq → Seq) (d : Dev) : (setSeq o f d).pwr = d.pwr := rfl
@[simp] theorem setSeq_ptr (o : Nat) (f : Seq → Seq) (d : Dev) : (setSeq o f d).ptr = d.ptr := rfl
@[simp] theorem setSeq_ump (o : Nat) (f : Seq → Seq) (d : Dev) : (setSeq o f d).ump = d.ump := rfl
@[simp] theorem setSeq_part (o : Nat) (f : Seq → Seq) (d : Dev) : (setSeq o f d).part = d.part := rfl
@[simp] theorem setSeq_sht (o : Nat) (f : Seq → Seq) (d : Dev) : (setSeq o f d).sht = d.sht := rfl
@[simp] theorem setSeq_slot (o : Nat) (f : Seq → Seq) (d : Dev) : (setSeq o f d).slot = d.slot := rfl
@[simp] theorem setSeq_win (o : Nat) (f : Seq → Seq) (d : Dev) : (setSeq o f d).win = d.win := rfl
@[simp] theorem setSeq_pool (o : Nat) (f : Seq → Seq) (d : Dev) : (setSeq o f d).pool = d.pool := rfl
@[simp] theorem setSeq_stack (o : Nat) (f : Seq → Seq) (d : Dev) : (setSeq o f d).stack = d.stack := rfl
@[simp] theorem setSeq_region (o : Nat) (f : Seq → Seq) (d : Dev) : (setSeq o f d).region = d.region := rfl
@[simp] theorem setSeq_page (o : Nat) (f : Seq → Seq) (d : Dev) : (setSeq o f d).page = d.page := rfl
@[simp] theorem setSeq_hbm (o : Nat) (f : Seq → Seq) (d : Dev) : (setSeq o f d).hbm = d.hbm := rfl
@[simp] theorem setSeq_cas (o : Nat) (f : Seq → Seq) (d : Dev) : (setSeq o f d).cas = d.cas := rfl
@[simp] theorem setSeq_cmem (o : Nat) (f : Seq → Seq) (d : Dev) : (setSeq o f d).cmem = d.cmem := rfl
@[simp] theorem setSeq_cmemLabel (o : Nat) (f : Seq → Seq) (d : Dev) : (setSeq o f d).cmemLabel = d.cmemLabel := rfl
@[simp] theorem setSeq_spad (o : Nat) (f : Seq → Seq) (d : Dev) : (setSeq o f d).spad = d.spad := rfl
@[simp] theorem setSeq_spadLabel (o : Nat) (f : Seq → Seq) (d : Dev) : (setSeq o f d).spadLabel = d.spadLabel := rfl
@[simp] theorem setSeq_acc (o : Nat) (f : Seq → Seq) (d : Dev) : (setSeq o f d).acc = d.acc := rfl
@[simp] theorem setSeq_ctx (o : Nat) (f : Seq → Seq) (d : Dev) : (setSeq o f d).ctx = d.ctx := rfl
@[simp] theorem setSeq_rtab (o : Nat) (f : Seq → Seq) (d : Dev) : (setSeq o f d).rtab = d.rtab := rfl
@[simp] theorem setSeq_img (o : Nat) (f : Seq → Seq) (d : Dev) : (setSeq o f d).img = d.img := rfl
@[simp] theorem setSeq_queue (o : Nat) (f : Seq → Seq) (d : Dev) : (setSeq o f d).queue = d.queue := rfl
@[simp] theorem setSeq_obj (o : Nat) (f : Seq → Seq) (d : Dev) : (setSeq o f d).obj = d.obj := rfl
@[simp] theorem setSeq_cmds (o : Nat) (f : Seq → Seq) (d : Dev) : (setSeq o f d).cmds = d.cmds := rfl
@[simp] theorem setSeq_nextCmd (o : Nat) (f : Seq → Seq) (d : Dev) : (setSeq o f d).nextCmd = d.nextCmd := rfl
@[simp] theorem setSeq_signals (o : Nat) (f : Seq → Seq) (d : Dev) : (setSeq o f d).signals = d.signals := rfl
@[simp] theorem setSeq_core (o : Nat) (f : Seq → Seq) (d : Dev) : (setSeq o f d).core = d.core := rfl
@[simp] theorem setSeq_stream (o : Nat) (f : Seq → Seq) (d : Dev) : (setSeq o f d).stream = d.stream := rfl
@[simp] theorem setSeq_clu (o : Nat) (f : Seq → Seq) (d : Dev) : (setSeq o f d).clu = d.clu := rfl
@[simp] theorem setSeq_rle (o : Nat) (f : Seq → Seq) (d : Dev) : (setSeq o f d).rle = d.rle := rfl
@[simp] theorem setSeq_xfers (o : Nat) (f : Seq → Seq) (d : Dev) : (setSeq o f d).xfers = d.xfers := rfl
@[simp] theorem setSeq_rly (o : Nat) (f : Seq → Seq) (d : Dev) : (setSeq o f d).rly = d.rly := rfl
@[simp] theorem setSeq_port (o : Nat) (f : Seq → Seq) (d : Dev) : (setSeq o f d).port = d.port := rfl
@[simp] theorem setSeq_group (o : Nat) (f : Seq → Seq) (d : Dev) : (setSeq o f d).group = d.group := rfl
@[simp] theorem setSeq_steps (o : Nat) (f : Seq → Seq) (d : Dev) : (setSeq o f d).steps = d.steps := rfl
@[simp] theorem setSeq_dbgSel (o : Nat) (f : Seq → Seq) (d : Dev) : (setSeq o f d).dbgSel = d.dbgSel := rfl
@[simp] theorem setSeq_out (o : Nat) (f : Seq → Seq) (d : Dev) : (setSeq o f d).out = d.out := rfl
@[simp] theorem setSeq_free (o : Nat) (f : Seq → Seq) (d : Dev) : (setSeq o f d).free = d.free := rfl

@[simp] theorem getSeq_setSeq (o : Nat) (f : Seq → Seq) (d : Dev) : getSeq (setSeq o f d) o = f (getSeq d o) :=
  look_alter_same _ _ _ _

theorem getSeq_setSeq_ne (u : Nat) (o : Nat) (f : Seq → Seq) (d : Dev) (h : u ≠ o) : getSeq (setSeq o f d) u = getSeq d u :=
  look_alter_other _ _ _ _ _ h

/-! ## setImg -/

@[simp] theorem setImg_fuse (o c s : Nat) (f : ImgSlot → ImgSlot) (d : Dev) : (setImg o c s f d).fuse = d.fuse := rfl
@[simp] theorem setImg_flash (o c s : Nat) (f : ImgSlot → ImgSlot) (d : Dev) : (setImg o c s f d).flash = d.flash := rfl
@[simp] theorem setImg_ret (o c s : Nat) (f : ImgSlot → ImgSlot) (d : Dev) : (setImg o c s f d).ret = d.ret := rfl
@[simp] theorem setImg_pkg (o c s : Nat) (f : ImgSlot → ImgSlot) (d : Dev) : (setImg o c s f d).pkg = d.pkg := rfl
@[simp] theorem setImg_blk (o c s : Nat) (f : ImgSlot → ImgSlot) (d : Dev) : (setImg o c s f d).blk = d.blk := rfl
@[simp] theorem setImg_tck (o c s : Nat) (f : ImgSlot → ImgSlot) (d : Dev) : (setImg o c s f d).tck = d.tck := rfl
@[simp] theorem setImg_pwr (o c s : Nat) (f : ImgSlot → ImgSlot) (d : Dev) : (setImg o c s f d).pwr = d.pwr := rfl
@[simp] theorem setImg_ptr (o c s : Nat) (f : ImgSlot → ImgSlot) (d : Dev) : (setImg o c s f d).ptr = d.ptr := rfl
@[simp] theorem setImg_ump (o c s : Nat) (f : ImgSlot → ImgSlot) (d : Dev) : (setImg o c s f d).ump = d.ump := rfl
@[simp] theorem setImg_part (o c s : Nat) (f : ImgSlot → ImgSlot) (d : Dev) : (setImg o c s f d).part = d.part := rfl
@[simp] theorem setImg_sht (o c s : Nat) (f : ImgSlot → ImgSlot) (d : Dev) : (setImg o c s f d).sht = d.sht := rfl
@[simp] theorem setImg_slot (o c s : Nat) (f : ImgSlot → ImgSlot) (d : Dev) : (setImg o c s f d).slot = d.slot := rfl
@[simp] theorem setImg_win (o c s : Nat) (f : ImgSlot → ImgSlot) (d : Dev) : (setImg o c s f d).win = d.win := rfl
@[simp] theorem setImg_pool (o c s : Nat) (f : ImgSlot → ImgSlot) (d : Dev) : (setImg o c s f d).pool = d.pool := rfl
@[simp] theorem setImg_stack (o c s : Nat) (f : ImgSlot → ImgSlot) (d : Dev) : (setImg o c s f d).stack = d.stack := rfl
@[simp] theorem setImg_region (o c s : Nat) (f : ImgSlot → ImgSlot) (d : Dev) : (setImg o c s f d).region = d.region := rfl
@[simp] theorem setImg_page (o c s : Nat) (f : ImgSlot → ImgSlot) (d : Dev) : (setImg o c s f d).page = d.page := rfl
@[simp] theorem setImg_hbm (o c s : Nat) (f : ImgSlot → ImgSlot) (d : Dev) : (setImg o c s f d).hbm = d.hbm := rfl
@[simp] theorem setImg_cas (o c s : Nat) (f : ImgSlot → ImgSlot) (d : Dev) : (setImg o c s f d).cas = d.cas := rfl
@[simp] theorem setImg_cmem (o c s : Nat) (f : ImgSlot → ImgSlot) (d : Dev) : (setImg o c s f d).cmem = d.cmem := rfl
@[simp] theorem setImg_cmemLabel (o c s : Nat) (f : ImgSlot → ImgSlot) (d : Dev) : (setImg o c s f d).cmemLabel = d.cmemLabel := rfl
@[simp] theorem setImg_spad (o c s : Nat) (f : ImgSlot → ImgSlot) (d : Dev) : (setImg o c s f d).spad = d.spad := rfl
@[simp] theorem setImg_spadLabel (o c s : Nat) (f : ImgSlot → ImgSlot) (d : Dev) : (setImg o c s f d).spadLabel = d.spadLabel := rfl
@[simp] theorem setImg_acc (o c s : Nat) (f : ImgSlot → ImgSlot) (d : Dev) : (setImg o c s f d).acc = d.acc := rfl
@[simp] theorem setImg_seq (o c s : Nat) (f : ImgSlot → ImgSlot) (d : Dev) : (setImg o c s f d).seq = d.seq := rfl
@[simp] theorem setImg_ctx (o c s : Nat) (f : ImgSlot → ImgSlot) (d : Dev) : (setImg o c s f d).ctx = d.ctx := rfl
@[simp] theorem setImg_rtab (o c s : Nat) (f : ImgSlot → ImgSlot) (d : Dev) : (setImg o c s f d).rtab = d.rtab := rfl
@[simp] theorem setImg_queue (o c s : Nat) (f : ImgSlot → ImgSlot) (d : Dev) : (setImg o c s f d).queue = d.queue := rfl
@[simp] theorem setImg_obj (o c s : Nat) (f : ImgSlot → ImgSlot) (d : Dev) : (setImg o c s f d).obj = d.obj := rfl
@[simp] theorem setImg_cmds (o c s : Nat) (f : ImgSlot → ImgSlot) (d : Dev) : (setImg o c s f d).cmds = d.cmds := rfl
@[simp] theorem setImg_nextCmd (o c s : Nat) (f : ImgSlot → ImgSlot) (d : Dev) : (setImg o c s f d).nextCmd = d.nextCmd := rfl
@[simp] theorem setImg_signals (o c s : Nat) (f : ImgSlot → ImgSlot) (d : Dev) : (setImg o c s f d).signals = d.signals := rfl
@[simp] theorem setImg_core (o c s : Nat) (f : ImgSlot → ImgSlot) (d : Dev) : (setImg o c s f d).core = d.core := rfl
@[simp] theorem setImg_stream (o c s : Nat) (f : ImgSlot → ImgSlot) (d : Dev) : (setImg o c s f d).stream = d.stream := rfl
@[simp] theorem setImg_clu (o c s : Nat) (f : ImgSlot → ImgSlot) (d : Dev) : (setImg o c s f d).clu = d.clu := rfl
@[simp] theorem setImg_rle (o c s : Nat) (f : ImgSlot → ImgSlot) (d : Dev) : (setImg o c s f d).rle = d.rle := rfl
@[simp] theorem setImg_xfers (o c s : Nat) (f : ImgSlot → ImgSlot) (d : Dev) : (setImg o c s f d).xfers = d.xfers := rfl
@[simp] theorem setImg_rly (o c s : Nat) (f : ImgSlot → ImgSlot) (d : Dev) : (setImg o c s f d).rly = d.rly := rfl
@[simp] theorem setImg_port (o c s : Nat) (f : ImgSlot → ImgSlot) (d : Dev) : (setImg o c s f d).port = d.port := rfl
@[simp] theorem setImg_group (o c s : Nat) (f : ImgSlot → ImgSlot) (d : Dev) : (setImg o c s f d).group = d.group := rfl
@[simp] theorem setImg_steps (o c s : Nat) (f : ImgSlot → ImgSlot) (d : Dev) : (setImg o c s f d).steps = d.steps := rfl
@[simp] theorem setImg_dbgSel (o c s : Nat) (f : ImgSlot → ImgSlot) (d : Dev) : (setImg o c s f d).dbgSel = d.dbgSel := rfl
@[simp] theorem setImg_out (o c s : Nat) (f : ImgSlot → ImgSlot) (d : Dev) : (setImg o c s f d).out = d.out := rfl
@[simp] theorem setImg_free (o c s : Nat) (f : ImgSlot → ImgSlot) (d : Dev) : (setImg o c s f d).free = d.free := rfl

@[simp] theorem getImg_setImg (o c s : Nat) (f : ImgSlot → ImgSlot) (d : Dev) : getImg (setImg o c s f d) o c s = f (getImg d o c s) :=
  look_alter_same _ _ _ _

/-! ## setWin -/

@[simp] theorem setWin_fuse (v w : Nat) (f : Win → Win) (d : Dev) : (setWin v w f d).fuse = d.fuse := rfl
@[simp] theorem setWin_flash (v w : Nat) (f : Win → Win) (d : Dev) : (setWin v w f d).flash = d.flash := rfl
@[simp] theorem setWin_ret (v w : Nat) (f : Win → Win) (d : Dev) : (setWin v w f d).ret = d.ret := rfl
@[simp] theorem setWin_pkg (v w : Nat) (f : Win → Win) (d : Dev) : (setWin v w f d).pkg = d.pkg := rfl
@[simp] theorem setWin_blk (v w : Nat) (f : Win → Win) (d : Dev) : (setWin v w f d).blk = d.blk := rfl
@[simp] theorem setWin_tck (v w : Nat) (f : Win → Win) (d : Dev) : (setWin v w f d).tck = d.tck := rfl
@[simp] theorem setWin_pwr (v w : Nat) (f : Win → Win) (d : Dev) : (setWin v w f d).pwr = d.pwr := rfl
@[simp] theorem setWin_ptr (v w : Nat) (f : Win → Win) (d : Dev) : (setWin v w f d).ptr = d.ptr := rfl
@[simp] theorem setWin_ump (v w : Nat) (f : Win → Win) (d : Dev) : (setWin v w f d).ump = d.ump := rfl
@[simp] theorem setWin_part (v w : Nat) (f : Win → Win) (d : Dev) : (setWin v w f d).part = d.part := rfl
@[simp] theorem setWin_sht (v w : Nat) (f : Win → Win) (d : Dev) : (setWin v w f d).sht = d.sht := rfl
@[simp] theorem setWin_slot (v w : Nat) (f : Win → Win) (d : Dev) : (setWin v w f d).slot = d.slot := rfl
@[simp] theorem setWin_pool (v w : Nat) (f : Win → Win) (d : Dev) : (setWin v w f d).pool = d.pool := rfl
@[simp] theorem setWin_stack (v w : Nat) (f : Win → Win) (d : Dev) : (setWin v w f d).stack = d.stack := rfl
@[simp] theorem setWin_region (v w : Nat) (f : Win → Win) (d : Dev) : (setWin v w f d).region = d.region := rfl
@[simp] theorem setWin_page (v w : Nat) (f : Win → Win) (d : Dev) : (setWin v w f d).page = d.page := rfl
@[simp] theorem setWin_hbm (v w : Nat) (f : Win → Win) (d : Dev) : (setWin v w f d).hbm = d.hbm := rfl
@[simp] theorem setWin_cas (v w : Nat) (f : Win → Win) (d : Dev) : (setWin v w f d).cas = d.cas := rfl
@[simp] theorem setWin_cmem (v w : Nat) (f : Win → Win) (d : Dev) : (setWin v w f d).cmem = d.cmem := rfl
@[simp] theorem setWin_cmemLabel (v w : Nat) (f : Win → Win) (d : Dev) : (setWin v w f d).cmemLabel = d.cmemLabel := rfl
@[simp] theorem setWin_spad (v w : Nat) (f : Win → Win) (d : Dev) : (setWin v w f d).spad = d.spad := rfl
@[simp] theorem setWin_spadLabel (v w : Nat) (f : Win → Win) (d : Dev) : (setWin v w f d).spadLabel = d.spadLabel := rfl
@[simp] theorem setWin_acc (v w : Nat) (f : Win → Win) (d : Dev) : (setWin v w f d).acc = d.acc := rfl
@[simp] theorem setWin_seq (v w : Nat) (f : Win → Win) (d : Dev) : (setWin v w f d).seq = d.seq := rfl
@[simp] theorem setWin_ctx (v w : Nat) (f : Win → Win) (d : Dev) : (setWin v w f d).ctx = d.ctx := rfl
@[simp] theorem setWin_rtab (v w : Nat) (f : Win → Win) (d : Dev) : (setWin v w f d).rtab = d.rtab := rfl
@[simp] theorem setWin_img (v w : Nat) (f : Win → Win) (d : Dev) : (setWin v w f d).img = d.img := rfl
@[simp] theorem setWin_queue (v w : Nat) (f : Win → Win) (d : Dev) : (setWin v w f d).queue = d.queue := rfl
@[simp] theorem setWin_obj (v w : Nat) (f : Win → Win) (d : Dev) : (setWin v w f d).obj = d.obj := rfl
@[simp] theorem setWin_cmds (v w : Nat) (f : Win → Win) (d : Dev) : (setWin v w f d).cmds = d.cmds := rfl
@[simp] theorem setWin_nextCmd (v w : Nat) (f : Win → Win) (d : Dev) : (setWin v w f d).nextCmd = d.nextCmd := rfl
@[simp] theorem setWin_signals (v w : Nat) (f : Win → Win) (d : Dev) : (setWin v w f d).signals = d.signals := rfl
@[simp] theorem setWin_core (v w : Nat) (f : Win → Win) (d : Dev) : (setWin v w f d).core = d.core := rfl
@[simp] theorem setWin_stream (v w : Nat) (f : Win → Win) (d : Dev) : (setWin v w f d).stream = d.stream := rfl
@[simp] theorem setWin_clu (v w : Nat) (f : Win → Win) (d : Dev) : (setWin v w f d).clu = d.clu := rfl
@[simp] theorem setWin_rle (v w : Nat) (f : Win → Win) (d : Dev) : (setWin v w f d).rle = d.rle := rfl
@[simp] theorem setWin_xfers (v w : Nat) (f : Win → Win) (d : Dev) : (setWin v w f d).xfers = d.xfers := rfl
@[simp] theorem setWin_rly (v w : Nat) (f : Win → Win) (d : Dev) : (setWin v w f d).rly = d.rly := rfl
@[simp] theorem setWin_port (v w : Nat) (f : Win → Win) (d : Dev) : (setWin v w f d).port = d.port := rfl
@[simp] theorem setWin_group (v w : Nat) (f : Win → Win) (d : Dev) : (setWin v w f d).group = d.group := rfl
@[simp] theorem setWin_steps (v w : Nat) (f : Win → Win) (d : Dev) : (setWin v w f d).steps = d.steps := rfl
@[simp] theorem setWin_dbgSel (v w : Nat) (f : Win → Win) (d : Dev) : (setWin v w f d).dbgSel = d.dbgSel := rfl
@[simp] theorem setWin_out (v w : Nat) (f : Win → Win) (d : Dev) : (setWin v w f d).out = d.out := rfl
@[simp] theorem setWin_free (v w : Nat) (f : Win → Win) (d : Dev) : (setWin v w f d).free = d.free := rfl

@[simp] theorem getWin_setWin (v w : Nat) (f : Win → Win) (d : Dev) : getWin (setWin v w f d) v w = f (getWin d v w) :=
  look_alter_same _ _ _ _

/-! ## setPool -/

@[simp] theorem setPool_fuse (n : Nat) (f : Pool → Pool) (d : Dev) : (setPool n f d).fuse = d.fuse := rfl
@[simp] theorem setPool_flash (n : Nat) (f : Pool → Pool) (d : Dev) : (setPool n f d).flash = d.flash := rfl
@[simp] theorem setPool_ret (n : Nat) (f : Pool → Pool) (d : Dev) : (setPool n f d).ret = d.ret := rfl
@[simp] theorem setPool_pkg (n : Nat) (f : Pool → Pool) (d : Dev) : (setPool n f d).pkg = d.pkg := rfl
@[simp] theorem setPool_blk (n : Nat) (f : Pool → Pool) (d : Dev) : (setPool n f d).blk = d.blk := rfl
@[simp] theorem setPool_tck (n : Nat) (f : Pool → Pool) (d : Dev) : (setPool n f d).tck = d.tck := rfl
@[simp] theorem setPool_pwr (n : Nat) (f : Pool → Pool) (d : Dev) : (setPool n f d).pwr = d.pwr := rfl
@[simp] theorem setPool_ptr (n : Nat) (f : Pool → Pool) (d : Dev) : (setPool n f d).ptr = d.ptr := rfl
@[simp] theorem setPool_ump (n : Nat) (f : Pool → Pool) (d : Dev) : (setPool n f d).ump = d.ump := rfl
@[simp] theorem setPool_part (n : Nat) (f : Pool → Pool) (d : Dev) : (setPool n f d).part = d.part := rfl
@[simp] theorem setPool_sht (n : Nat) (f : Pool → Pool) (d : Dev) : (setPool n f d).sht = d.sht := rfl
@[simp] theorem setPool_slot (n : Nat) (f : Pool → Pool) (d : Dev) : (setPool n f d).slot = d.slot := rfl
@[simp] theorem setPool_win (n : Nat) (f : Pool → Pool) (d : Dev) : (setPool n f d).win = d.win := rfl
@[simp] theorem setPool_stack (n : Nat) (f : Pool → Pool) (d : Dev) : (setPool n f d).stack = d.stack := rfl
@[simp] theorem setPool_region (n : Nat) (f : Pool → Pool) (d : Dev) : (setPool n f d).region = d.region := rfl
@[simp] theorem setPool_page (n : Nat) (f : Pool → Pool) (d : Dev) : (setPool n f d).page = d.page := rfl
@[simp] theorem setPool_hbm (n : Nat) (f : Pool → Pool) (d : Dev) : (setPool n f d).hbm = d.hbm := rfl
@[simp] theorem setPool_cas (n : Nat) (f : Pool → Pool) (d : Dev) : (setPool n f d).cas = d.cas := rfl
@[simp] theorem setPool_cmem (n : Nat) (f : Pool → Pool) (d : Dev) : (setPool n f d).cmem = d.cmem := rfl
@[simp] theorem setPool_cmemLabel (n : Nat) (f : Pool → Pool) (d : Dev) : (setPool n f d).cmemLabel = d.cmemLabel := rfl
@[simp] theorem setPool_spad (n : Nat) (f : Pool → Pool) (d : Dev) : (setPool n f d).spad = d.spad := rfl
@[simp] theorem setPool_spadLabel (n : Nat) (f : Pool → Pool) (d : Dev) : (setPool n f d).spadLabel = d.spadLabel := rfl
@[simp] theorem setPool_acc (n : Nat) (f : Pool → Pool) (d : Dev) : (setPool n f d).acc = d.acc := rfl
@[simp] theorem setPool_seq (n : Nat) (f : Pool → Pool) (d : Dev) : (setPool n f d).seq = d.seq := rfl
@[simp] theorem setPool_ctx (n : Nat) (f : Pool → Pool) (d : Dev) : (setPool n f d).ctx = d.ctx := rfl
@[simp] theorem setPool_rtab (n : Nat) (f : Pool → Pool) (d : Dev) : (setPool n f d).rtab = d.rtab := rfl
@[simp] theorem setPool_img (n : Nat) (f : Pool → Pool) (d : Dev) : (setPool n f d).img = d.img := rfl
@[simp] theorem setPool_queue (n : Nat) (f : Pool → Pool) (d : Dev) : (setPool n f d).queue = d.queue := rfl
@[simp] theorem setPool_obj (n : Nat) (f : Pool → Pool) (d : Dev) : (setPool n f d).obj = d.obj := rfl
@[simp] theorem setPool_cmds (n : Nat) (f : Pool → Pool) (d : Dev) : (setPool n f d).cmds = d.cmds := rfl
@[simp] theorem setPool_nextCmd (n : Nat) (f : Pool → Pool) (d : Dev) : (setPool n f d).nextCmd = d.nextCmd := rfl
@[simp] theorem setPool_signals (n : Nat) (f : Pool → Pool) (d : Dev) : (setPool n f d).signals = d.signals := rfl
@[simp] theorem setPool_core (n : Nat) (f : Pool → Pool) (d : Dev) : (setPool n f d).core = d.core := rfl
@[simp] theorem setPool_stream (n : Nat) (f : Pool → Pool) (d : Dev) : (setPool n f d).stream = d.stream := rfl
@[simp] theorem setPool_clu (n : Nat) (f : Pool → Pool) (d : Dev) : (setPool n f d).clu = d.clu := rfl
@[simp] theorem setPool_rle (n : Nat) (f : Pool → Pool) (d : Dev) : (setPool n f d).rle = d.rle := rfl
@[simp] theorem setPool_xfers (n : Nat) (f : Pool → Pool) (d : Dev) : (setPool n f d).xfers = d.xfers := rfl
@[simp] theorem setPool_rly (n : Nat) (f : Pool → Pool) (d : Dev) : (setPool n f d).rly = d.rly := rfl
@[simp] theorem setPool_port (n : Nat) (f : Pool → Pool) (d : Dev) : (setPool n f d).port = d.port := rfl
@[simp] theorem setPool_group (n : Nat) (f : Pool → Pool) (d : Dev) : (setPool n f d).group = d.group := rfl
@[simp] theorem setPool_steps (n : Nat) (f : Pool → Pool) (d : Dev) : (setPool n f d).steps = d.steps := rfl
@[simp] theorem setPool_dbgSel (n : Nat) (f : Pool → Pool) (d : Dev) : (setPool n f d).dbgSel = d.dbgSel := rfl
@[simp] theorem setPool_out (n : Nat) (f : Pool → Pool) (d : Dev) : (setPool n f d).out = d.out := rfl
@[simp] theorem setPool_free (n : Nat) (f : Pool → Pool) (d : Dev) : (setPool n f d).free = d.free := rfl

@[simp] theorem getPool_setPool (n : Nat) (f : Pool → Pool) (d : Dev) : getPool (setPool n f d) n = f (getPool d n) :=
  look_alter_same _ _ _ _

theorem getPool_setPool_ne (u : Nat) (n : Nat) (f : Pool → Pool) (d : Dev) (h : u ≠ n) : getPool (setPool n f d) u = getPool d u :=
  look_alter_other _ _ _ _ _ h

/-! ## setStack -/

@[simp] theorem setStack_fuse (s : Nat) (f : Stack → Stack) (d : Dev) : (setStack s f d).fuse = d.fuse := rfl
@[simp] theorem setStack_flash (s : Nat) (f : Stack → Stack) (d : Dev) : (setStack s f d).flash = d.flash := rfl
@[simp] theorem setStack_ret (s : Nat) (f : Stack → Stack) (d : Dev) : (setStack s f d).ret = d.ret := rfl
@[simp] theorem setStack_pkg (s : Nat) (f : Stack → Stack) (d : Dev) : (setStack s f d).pkg = d.pkg := rfl
@[simp] theorem setStack_blk (s : Nat) (f : Stack → Stack) (d : Dev) : (setStack s f d).blk = d.blk := rfl
@[simp] theorem setStack_tck (s : Nat) (f : Stack → Stack) (d : Dev) : (setStack s f d).tck = d.tck := rfl
@[simp] theorem setStack_pwr (s : Nat) (f : Stack → Stack) (d : Dev) : (setStack s f d).pwr = d.pwr := rfl
@[simp] theorem setStack_ptr (s : Nat) (f : Stack → Stack) (d : Dev) : (setStack s f d).ptr = d.ptr := rfl
@[simp] theorem setStack_ump (s : Nat) (f : Stack → Stack) (d : Dev) : (setStack s f d).ump = d.ump := rfl
@[simp] theorem setStack_part (s : Nat) (f : Stack → Stack) (d : Dev) : (setStack s f d).part = d.part := rfl
@[simp] theorem setStack_sht (s : Nat) (f : Stack → Stack) (d : Dev) : (setStack s f d).sht = d.sht := rfl
@[simp] theorem setStack_slot (s : Nat) (f : Stack → Stack) (d : Dev) : (setStack s f d).slot = d.slot := rfl
@[simp] theorem setStack_win (s : Nat) (f : Stack → Stack) (d : Dev) : (setStack s f d).win = d.win := rfl
@[simp] theorem setStack_pool (s : Nat) (f : Stack → Stack) (d : Dev) : (setStack s f d).pool = d.pool := rfl
@[simp] theorem setStack_region (s : Nat) (f : Stack → Stack) (d : Dev) : (setStack s f d).region = d.region := rfl
@[simp] theorem setStack_page (s : Nat) (f : Stack → Stack) (d : Dev) : (setStack s f d).page = d.page := rfl
@[simp] theorem setStack_hbm (s : Nat) (f : Stack → Stack) (d : Dev) : (setStack s f d).hbm = d.hbm := rfl
@[simp] theorem setStack_cas (s : Nat) (f : Stack → Stack) (d : Dev) : (setStack s f d).cas = d.cas := rfl
@[simp] theorem setStack_cmem (s : Nat) (f : Stack → Stack) (d : Dev) : (setStack s f d).cmem = d.cmem := rfl
@[simp] theorem setStack_cmemLabel (s : Nat) (f : Stack → Stack) (d : Dev) : (setStack s f d).cmemLabel = d.cmemLabel := rfl
@[simp] theorem setStack_spad (s : Nat) (f : Stack → Stack) (d : Dev) : (setStack s f d).spad = d.spad := rfl
@[simp] theorem setStack_spadLabel (s : Nat) (f : Stack → Stack) (d : Dev) : (setStack s f d).spadLabel = d.spadLabel := rfl
@[simp] theorem setStack_acc (s : Nat) (f : Stack → Stack) (d : Dev) : (setStack s f d).acc = d.acc := rfl
@[simp] theorem setStack_seq (s : Nat) (f : Stack → Stack) (d : Dev) : (setStack s f d).seq = d.seq := rfl
@[simp] theorem setStack_ctx (s : Nat) (f : Stack → Stack) (d : Dev) : (setStack s f d).ctx = d.ctx := rfl
@[simp] theorem setStack_rtab (s : Nat) (f : Stack → Stack) (d : Dev) : (setStack s f d).rtab = d.rtab := rfl
@[simp] theorem setStack_img (s : Nat) (f : Stack → Stack) (d : Dev) : (setStack s f d).img = d.img := rfl
@[simp] theorem setStack_queue (s : Nat) (f : Stack → Stack) (d : Dev) : (setStack s f d).queue = d.queue := rfl
@[simp] theorem setStack_obj (s : Nat) (f : Stack → Stack) (d : Dev) : (setStack s f d).obj = d.obj := rfl
@[simp] theorem setStack_cmds (s : Nat) (f : Stack → Stack) (d : Dev) : (setStack s f d).cmds = d.cmds := rfl
@[simp] theorem setStack_nextCmd (s : Nat) (f : Stack → Stack) (d : Dev) : (setStack s f d).nextCmd = d.nextCmd := rfl
@[simp] theorem setStack_signals (s : Nat) (f : Stack → Stack) (d : Dev) : (setStack s f d).signals = d.signals := rfl
@[simp] theorem setStack_core (s : Nat) (f : Stack → Stack) (d : Dev) : (setStack s f d).core = d.core := rfl
@[simp] theorem setStack_stream (s : Nat) (f : Stack → Stack) (d : Dev) : (setStack s f d).stream = d.stream := rfl
@[simp] theorem setStack_clu (s : Nat) (f : Stack → Stack) (d : Dev) : (setStack s f d).clu = d.clu := rfl
@[simp] theorem setStack_rle (s : Nat) (f : Stack → Stack) (d : Dev) : (setStack s f d).rle = d.rle := rfl
@[simp] theorem setStack_xfers (s : Nat) (f : Stack → Stack) (d : Dev) : (setStack s f d).xfers = d.xfers := rfl
@[simp] theorem setStack_rly (s : Nat) (f : Stack → Stack) (d : Dev) : (setStack s f d).rly = d.rly := rfl
@[simp] theorem setStack_port (s : Nat) (f : Stack → Stack) (d : Dev) : (setStack s f d).port = d.port := rfl
@[simp] theorem setStack_group (s : Nat) (f : Stack → Stack) (d : Dev) : (setStack s f d).group = d.group := rfl
@[simp] theorem setStack_steps (s : Nat) (f : Stack → Stack) (d : Dev) : (setStack s f d).steps = d.steps := rfl
@[simp] theorem setStack_dbgSel (s : Nat) (f : Stack → Stack) (d : Dev) : (setStack s f d).dbgSel = d.dbgSel := rfl
@[simp] theorem setStack_out (s : Nat) (f : Stack → Stack) (d : Dev) : (setStack s f d).out = d.out := rfl
@[simp] theorem setStack_free (s : Nat) (f : Stack → Stack) (d : Dev) : (setStack s f d).free = d.free := rfl

@[simp] theorem getStack_setStack (s : Nat) (f : Stack → Stack) (d : Dev) : getStack (setStack s f d) s = f (getStack d s) :=
  look_alter_same _ _ _ _

theorem getStack_setStack_ne (u : Nat) (s : Nat) (f : Stack → Stack) (d : Dev) (h : u ≠ s) : getStack (setStack s f d) u = getStack d u :=
  look_alter_other _ _ _ _ _ h

/-! ## setCharter -/

@[simp] theorem setCharter_fuse (v : Nat) (f : Charter → Charter) (d : Dev) : (setCharter v f d).fuse = d.fuse := rfl
@[simp] theorem setCharter_flash (v : Nat) (f : Charter → Charter) (d : Dev) : (setCharter v f d).flash = d.flash := rfl
@[simp] theorem setCharter_ret (v : Nat) (f : Charter → Charter) (d : Dev) : (setCharter v f d).ret = d.ret := rfl
@[simp] theorem setCharter_pkg (v : Nat) (f : Charter → Charter) (d : Dev) : (setCharter v f d).pkg = d.pkg := rfl
@[simp] theorem setCharter_blk (v : Nat) (f : Charter → Charter) (d : Dev) : (setCharter v f d).blk = d.blk := rfl
@[simp] theorem setCharter_tck (v : Nat) (f : Charter → Charter) (d : Dev) : (setCharter v f d).tck = d.tck := rfl
@[simp] theorem setCharter_pwr (v : Nat) (f : Charter → Charter) (d : Dev) : (setCharter v f d).pwr = d.pwr := rfl
@[simp] theorem setCharter_ump (v : Nat) (f : Charter → Charter) (d : Dev) : (setCharter v f d).ump = d.ump := rfl
@[simp] theorem setCharter_part (v : Nat) (f : Charter → Charter) (d : Dev) : (setCharter v f d).part = d.part := rfl
@[simp] theorem setCharter_sht (v : Nat) (f : Charter → Charter) (d : Dev) : (setCharter v f d).sht = d.sht := rfl
@[simp] theorem setCharter_slot (v : Nat) (f : Charter → Charter) (d : Dev) : (setCharter v f d).slot = d.slot := rfl
@[simp] theorem setCharter_win (v : Nat) (f : Charter → Charter) (d : Dev) : (setCharter v f d).win = d.win := rfl
@[simp] theorem setCharter_pool (v : Nat) (f : Charter → Charter) (d : Dev) : (setCharter v f d).pool = d.pool := rfl
@[simp] theorem setCharter_stack (v : Nat) (f : Charter → Charter) (d : Dev) : (setCharter v f d).stack = d.stack := rfl
@[simp] theorem setCharter_region (v : Nat) (f : Charter → Charter) (d : Dev) : (setCharter v f d).region = d.region := rfl
@[simp] theorem setCharter_page (v : Nat) (f : Charter → Charter) (d : Dev) : (setCharter v f d).page = d.page := rfl
@[simp] theorem setCharter_hbm (v : Nat) (f : Charter → Charter) (d : Dev) : (setCharter v f d).hbm = d.hbm := rfl
@[simp] theorem setCharter_cas (v : Nat) (f : Charter → Charter) (d : Dev) : (setCharter v f d).cas = d.cas := rfl
@[simp] theorem setCharter_cmem (v : Nat) (f : Charter → Charter) (d : Dev) : (setCharter v f d).cmem = d.cmem := rfl
@[simp] theorem setCharter_cmemLabel (v : Nat) (f : Charter → Charter) (d : Dev) : (setCharter v f d).cmemLabel = d.cmemLabel := rfl
@[simp] theorem setCharter_spad (v : Nat) (f : Charter → Charter) (d : Dev) : (setCharter v f d).spad = d.spad := rfl
@[simp] theorem setCharter_spadLabel (v : Nat) (f : Charter → Charter) (d : Dev) : (setCharter v f d).spadLabel = d.spadLabel := rfl
@[simp] theorem setCharter_acc (v : Nat) (f : Charter → Charter) (d : Dev) : (setCharter v f d).acc = d.acc := rfl
@[simp] theorem setCharter_seq (v : Nat) (f : Charter → Charter) (d : Dev) : (setCharter v f d).seq = d.seq := rfl
@[simp] theorem setCharter_ctx (v : Nat) (f : Charter → Charter) (d : Dev) : (setCharter v f d).ctx = d.ctx := rfl
@[simp] theorem setCharter_rtab (v : Nat) (f : Charter → Charter) (d : Dev) : (setCharter v f d).rtab = d.rtab := rfl
@[simp] theorem setCharter_img (v : Nat) (f : Charter → Charter) (d : Dev) : (setCharter v f d).img = d.img := rfl
@[simp] theorem setCharter_queue (v : Nat) (f : Charter → Charter) (d : Dev) : (setCharter v f d).queue = d.queue := rfl
@[simp] theorem setCharter_obj (v : Nat) (f : Charter → Charter) (d : Dev) : (setCharter v f d).obj = d.obj := rfl
@[simp] theorem setCharter_cmds (v : Nat) (f : Charter → Charter) (d : Dev) : (setCharter v f d).cmds = d.cmds := rfl
@[simp] theorem setCharter_nextCmd (v : Nat) (f : Charter → Charter) (d : Dev) : (setCharter v f d).nextCmd = d.nextCmd := rfl
@[simp] theorem setCharter_signals (v : Nat) (f : Charter → Charter) (d : Dev) : (setCharter v f d).signals = d.signals := rfl
@[simp] theorem setCharter_core (v : Nat) (f : Charter → Charter) (d : Dev) : (setCharter v f d).core = d.core := rfl
@[simp] theorem setCharter_stream (v : Nat) (f : Charter → Charter) (d : Dev) : (setCharter v f d).stream = d.stream := rfl
@[simp] theorem setCharter_clu (v : Nat) (f : Charter → Charter) (d : Dev) : (setCharter v f d).clu = d.clu := rfl
@[simp] theorem setCharter_rle (v : Nat) (f : Charter → Charter) (d : Dev) : (setCharter v f d).rle = d.rle := rfl
@[simp] theorem setCharter_xfers (v : Nat) (f : Charter → Charter) (d : Dev) : (setCharter v f d).xfers = d.xfers := rfl
@[simp] theorem setCharter_rly (v : Nat) (f : Charter → Charter) (d : Dev) : (setCharter v f d).rly = d.rly := rfl
@[simp] theorem setCharter_port (v : Nat) (f : Charter → Charter) (d : Dev) : (setCharter v f d).port = d.port := rfl
@[simp] theorem setCharter_group (v : Nat) (f : Charter → Charter) (d : Dev) : (setCharter v f d).group = d.group := rfl
@[simp] theorem setCharter_steps (v : Nat) (f : Charter → Charter) (d : Dev) : (setCharter v f d).steps = d.steps := rfl
@[simp] theorem setCharter_dbgSel (v : Nat) (f : Charter → Charter) (d : Dev) : (setCharter v f d).dbgSel = d.dbgSel := rfl
@[simp] theorem setCharter_out (v : Nat) (f : Charter → Charter) (d : Dev) : (setCharter v f d).out = d.out := rfl
@[simp] theorem setCharter_free (v : Nat) (f : Charter → Charter) (d : Dev) : (setCharter v f d).free = d.free := rfl

@[simp] theorem getCharter_setCharter (v : Nat) (f : Charter → Charter) (d : Dev) : getCharter (setCharter v f d) v = f (getCharter d v) :=
  look_alter_same _ _ _ _
@[simp] theorem setCharter_ptr_hostManaged (v : Nat) (f : Charter → Charter) (d : Dev) : (setCharter v f d).ptr.hostManaged = d.ptr.hostManaged := rfl
@[simp] theorem setCharter_ptr_debugOpen (v : Nat) (f : Charter → Charter) (d : Dev) : (setCharter v f d).ptr.debugOpen = d.ptr.debugOpen := rfl
@[simp] theorem setCharter_ptr_busy (v : Nat) (f : Charter → Charter) (d : Dev) : (setCharter v f d).ptr.busy = d.ptr.busy := rfl
@[simp] theorem setCharter_ptr_curSeq (v : Nat) (f : Charter → Charter) (d : Dev) : (setCharter v f d).ptr.curSeq = d.ptr.curSeq := rfl
@[simp] theorem setCharter_ptr_discard (v : Nat) (f : Charter → Charter) (d : Dev) : (setCharter v f d).ptr.discard = d.ptr.discard := rfl
@[simp] theorem setCharter_ptr_buf (v : Nat) (f : Charter → Charter) (d : Dev) : (setCharter v f d).ptr.buf = d.ptr.buf := rfl
@[simp] theorem setCharter_ptr_stg (v : Nat) (f : Charter → Charter) (d : Dev) : (setCharter v f d).ptr.stg = d.ptr.stg := rfl
@[simp] theorem setCharter_ptr_loading (v : Nat) (f : Charter → Charter) (d : Dev) : (setCharter v f d).ptr.loading = d.ptr.loading := rfl
@[simp] theorem setCharter_ptr_sess (v : Nat) (f : Charter → Charter) (d : Dev) : (setCharter v f d).ptr.sess = d.ptr.sess := rfl
@[simp] theorem setCharter_ptr_jobKeys (v : Nat) (f : Charter → Charter) (d : Dev) : (setCharter v f d).ptr.jobKeys = d.ptr.jobKeys := rfl

theorem getCharter_setCharter_ne (u : Nat) (v : Nat) (f : Charter → Charter) (d : Dev) (h : u ≠ v) : getCharter (setCharter v f d) u = getCharter d u :=
  look_alter_other _ _ _ _ _ h

/-! ## setRle -/

@[simp] theorem setRle_fuse (o : Nat) (f : Rle → Rle) (d : Dev) : (setRle o f d).fuse = d.fuse := rfl
@[simp] theorem setRle_flash (o : Nat) (f : Rle → Rle) (d : Dev) : (setRle o f d).flash = d.flash := rfl
@[simp] theorem setRle_ret (o : Nat) (f : Rle → Rle) (d : Dev) : (setRle o f d).ret = d.ret := rfl
@[simp] theorem setRle_pkg (o : Nat) (f : Rle → Rle) (d : Dev) : (setRle o f d).pkg = d.pkg := rfl
@[simp] theorem setRle_blk (o : Nat) (f : Rle → Rle) (d : Dev) : (setRle o f d).blk = d.blk := rfl
@[simp] theorem setRle_tck (o : Nat) (f : Rle → Rle) (d : Dev) : (setRle o f d).tck = d.tck := rfl
@[simp] theorem setRle_pwr (o : Nat) (f : Rle → Rle) (d : Dev) : (setRle o f d).pwr = d.pwr := rfl
@[simp] theorem setRle_ptr (o : Nat) (f : Rle → Rle) (d : Dev) : (setRle o f d).ptr = d.ptr := rfl
@[simp] theorem setRle_ump (o : Nat) (f : Rle → Rle) (d : Dev) : (setRle o f d).ump = d.ump := rfl
@[simp] theorem setRle_part (o : Nat) (f : Rle → Rle) (d : Dev) : (setRle o f d).part = d.part := rfl
@[simp] theorem setRle_sht (o : Nat) (f : Rle → Rle) (d : Dev) : (setRle o f d).sht = d.sht := rfl
@[simp] theorem setRle_slot (o : Nat) (f : Rle → Rle) (d : Dev) : (setRle o f d).slot = d.slot := rfl
@[simp] theorem setRle_win (o : Nat) (f : Rle → Rle) (d : Dev) : (setRle o f d).win = d.win := rfl
@[simp] theorem setRle_pool (o : Nat) (f : Rle → Rle) (d : Dev) : (setRle o f d).pool = d.pool := rfl
@[simp] theorem setRle_stack (o : Nat) (f : Rle → Rle) (d : Dev) : (setRle o f d).stack = d.stack := rfl
@[simp] theorem setRle_region (o : Nat) (f : Rle → Rle) (d : Dev) : (setRle o f d).region = d.region := rfl
@[simp] theorem setRle_page (o : Nat) (f : Rle → Rle) (d : Dev) : (setRle o f d).page = d.page := rfl
@[simp] theorem setRle_hbm (o : Nat) (f : Rle → Rle) (d : Dev) : (setRle o f d).hbm = d.hbm := rfl
@[simp] theorem setRle_cas (o : Nat) (f : Rle → Rle) (d : Dev) : (setRle o f d).cas = d.cas := rfl
@[simp] theorem setRle_cmem (o : Nat) (f : Rle → Rle) (d : Dev) : (setRle o f d).cmem = d.cmem := rfl
@[simp] theorem setRle_cmemLabel (o : Nat) (f : Rle → Rle) (d : Dev) : (setRle o f d).cmemLabel = d.cmemLabel := rfl
@[simp] theorem setRle_spad (o : Nat) (f : Rle → Rle) (d : Dev) : (setRle o f d).spad = d.spad := rfl
@[simp] theorem setRle_spadLabel (o : Nat) (f : Rle → Rle) (d : Dev) : (setRle o f d).spadLabel = d.spadLabel := rfl
@[simp] theorem setRle_acc (o : Nat) (f : Rle → Rle) (d : Dev) : (setRle o f d).acc = d.acc := rfl
@[simp] theorem setRle_seq (o : Nat) (f : Rle → Rle) (d : Dev) : (setRle o f d).seq = d.seq := rfl
@[simp] theorem setRle_ctx (o : Nat) (f : Rle → Rle) (d : Dev) : (setRle o f d).ctx = d.ctx := rfl
@[simp] theorem setRle_rtab (o : Nat) (f : Rle → Rle) (d : Dev) : (setRle o f d).rtab = d.rtab := rfl
@[simp] theorem setRle_img (o : Nat) (f : Rle → Rle) (d : Dev) : (setRle o f d).img = d.img := rfl
@[simp] theorem setRle_queue (o : Nat) (f : Rle → Rle) (d : Dev) : (setRle o f d).queue = d.queue := rfl
@[simp] theorem setRle_obj (o : Nat) (f : Rle → Rle) (d : Dev) : (setRle o f d).obj = d.obj := rfl
@[simp] theorem setRle_cmds (o : Nat) (f : Rle → Rle) (d : Dev) : (setRle o f d).cmds = d.cmds := rfl
@[simp] theorem setRle_nextCmd (o : Nat) (f : Rle → Rle) (d : Dev) : (setRle o f d).nextCmd = d.nextCmd := rfl
@[simp] theorem setRle_signals (o : Nat) (f : Rle → Rle) (d : Dev) : (setRle o f d).signals = d.signals := rfl
@[simp] theorem setRle_core (o : Nat) (f : Rle → Rle) (d : Dev) : (setRle o f d).core = d.core := rfl
@[simp] theorem setRle_stream (o : Nat) (f : Rle → Rle) (d : Dev) : (setRle o f d).stream = d.stream := rfl
@[simp] theorem setRle_clu (o : Nat) (f : Rle → Rle) (d : Dev) : (setRle o f d).clu = d.clu := rfl
@[simp] theorem setRle_xfers (o : Nat) (f : Rle → Rle) (d : Dev) : (setRle o f d).xfers = d.xfers := rfl
@[simp] theorem setRle_rly (o : Nat) (f : Rle → Rle) (d : Dev) : (setRle o f d).rly = d.rly := rfl
@[simp] theorem setRle_port (o : Nat) (f : Rle → Rle) (d : Dev) : (setRle o f d).port = d.port := rfl
@[simp] theorem setRle_group (o : Nat) (f : Rle → Rle) (d : Dev) : (setRle o f d).group = d.group := rfl
@[simp] theorem setRle_steps (o : Nat) (f : Rle → Rle) (d : Dev) : (setRle o f d).steps = d.steps := rfl
@[simp] theorem setRle_dbgSel (o : Nat) (f : Rle → Rle) (d : Dev) : (setRle o f d).dbgSel = d.dbgSel := rfl
@[simp] theorem setRle_out (o : Nat) (f : Rle → Rle) (d : Dev) : (setRle o f d).out = d.out := rfl
@[simp] theorem setRle_free (o : Nat) (f : Rle → Rle) (d : Dev) : (setRle o f d).free = d.free := rfl

@[simp] theorem getRle_setRle (o : Nat) (f : Rle → Rle) (d : Dev) : getRle (setRle o f d) o = f (getRle d o) :=
  look_alter_same _ _ _ _

theorem getRle_setRle_ne (u : Nat) (o : Nat) (f : Rle → Rle) (d : Dev) (h : u ≠ o) : getRle (setRle o f d) u = getRle d u :=
  look_alter_other _ _ _ _ _ h

/-! ## setClu -/

@[simp] theorem setClu_fuse (o c : Nat) (f : Clu → Clu) (d : Dev) : (setClu o c f d).fuse = d.fuse := rfl
@[simp] theorem setClu_flash (o c : Nat) (f : Clu → Clu) (d : Dev) : (setClu o c f d).flash = d.flash := rfl
@[simp] theorem setClu_ret (o c : Nat) (f : Clu → Clu) (d : Dev) : (setClu o c f d).ret = d.ret := rfl
@[simp] theorem setClu_pkg (o c : Nat) (f : Clu → Clu) (d : Dev) : (setClu o c f d).pkg = d.pkg := rfl
@[simp] theorem setClu_blk (o c : Nat) (f : Clu → Clu) (d : Dev) : (setClu o c f d).blk = d.blk := rfl
@[simp] theorem setClu_tck (o c : Nat) (f : Clu → Clu) (d : Dev) : (setClu o c f d).tck = d.tck := rfl
@[simp] theorem setClu_pwr (o c : Nat) (f : Clu → Clu) (d : Dev) : (setClu o c f d).pwr = d.pwr := rfl
@[simp] theorem setClu_ptr (o c : Nat) (f : Clu → Clu) (d : Dev) : (setClu o c f d).ptr = d.ptr := rfl
@[simp] theorem setClu_ump (o c : Nat) (f : Clu → Clu) (d : Dev) : (setClu o c f d).ump = d.ump := rfl
@[simp] theorem setClu_part (o c : Nat) (f : Clu → Clu) (d : Dev) : (setClu o c f d).part = d.part := rfl
@[simp] theorem setClu_sht (o c : Nat) (f : Clu → Clu) (d : Dev) : (setClu o c f d).sht = d.sht := rfl
@[simp] theorem setClu_slot (o c : Nat) (f : Clu → Clu) (d : Dev) : (setClu o c f d).slot = d.slot := rfl
@[simp] theorem setClu_win (o c : Nat) (f : Clu → Clu) (d : Dev) : (setClu o c f d).win = d.win := rfl
@[simp] theorem setClu_pool (o c : Nat) (f : Clu → Clu) (d : Dev) : (setClu o c f d).pool = d.pool := rfl
@[simp] theorem setClu_stack (o c : Nat) (f : Clu → Clu) (d : Dev) : (setClu o c f d).stack = d.stack := rfl
@[simp] theorem setClu_region (o c : Nat) (f : Clu → Clu) (d : Dev) : (setClu o c f d).region = d.region := rfl
@[simp] theorem setClu_page (o c : Nat) (f : Clu → Clu) (d : Dev) : (setClu o c f d).page = d.page := rfl
@[simp] theorem setClu_hbm (o c : Nat) (f : Clu → Clu) (d : Dev) : (setClu o c f d).hbm = d.hbm := rfl
@[simp] theorem setClu_cas (o c : Nat) (f : Clu → Clu) (d : Dev) : (setClu o c f d).cas = d.cas := rfl
@[simp] theorem setClu_cmem (o c : Nat) (f : Clu → Clu) (d : Dev) : (setClu o c f d).cmem = d.cmem := rfl
@[simp] theorem setClu_cmemLabel (o c : Nat) (f : Clu → Clu) (d : Dev) : (setClu o c f d).cmemLabel = d.cmemLabel := rfl
@[simp] theorem setClu_spad (o c : Nat) (f : Clu → Clu) (d : Dev) : (setClu o c f d).spad = d.spad := rfl
@[simp] theorem setClu_spadLabel (o c : Nat) (f : Clu → Clu) (d : Dev) : (setClu o c f d).spadLabel = d.spadLabel := rfl
@[simp] theorem setClu_acc (o c : Nat) (f : Clu → Clu) (d : Dev) : (setClu o c f d).acc = d.acc := rfl
@[simp] theorem setClu_seq (o c : Nat) (f : Clu → Clu) (d : Dev) : (setClu o c f d).seq = d.seq := rfl
@[simp] theorem setClu_ctx (o c : Nat) (f : Clu → Clu) (d : Dev) : (setClu o c f d).ctx = d.ctx := rfl
@[simp] theorem setClu_rtab (o c : Nat) (f : Clu → Clu) (d : Dev) : (setClu o c f d).rtab = d.rtab := rfl
@[simp] theorem setClu_img (o c : Nat) (f : Clu → Clu) (d : Dev) : (setClu o c f d).img = d.img := rfl
@[simp] theorem setClu_queue (o c : Nat) (f : Clu → Clu) (d : Dev) : (setClu o c f d).queue = d.queue := rfl
@[simp] theorem setClu_obj (o c : Nat) (f : Clu → Clu) (d : Dev) : (setClu o c f d).obj = d.obj := rfl
@[simp] theorem setClu_cmds (o c : Nat) (f : Clu → Clu) (d : Dev) : (setClu o c f d).cmds = d.cmds := rfl
@[simp] theorem setClu_nextCmd (o c : Nat) (f : Clu → Clu) (d : Dev) : (setClu o c f d).nextCmd = d.nextCmd := rfl
@[simp] theorem setClu_signals (o c : Nat) (f : Clu → Clu) (d : Dev) : (setClu o c f d).signals = d.signals := rfl
@[simp] theorem setClu_core (o c : Nat) (f : Clu → Clu) (d : Dev) : (setClu o c f d).core = d.core := rfl
@[simp] theorem setClu_stream (o c : Nat) (f : Clu → Clu) (d : Dev) : (setClu o c f d).stream = d.stream := rfl
@[simp] theorem setClu_rle (o c : Nat) (f : Clu → Clu) (d : Dev) : (setClu o c f d).rle = d.rle := rfl
@[simp] theorem setClu_xfers (o c : Nat) (f : Clu → Clu) (d : Dev) : (setClu o c f d).xfers = d.xfers := rfl
@[simp] theorem setClu_rly (o c : Nat) (f : Clu → Clu) (d : Dev) : (setClu o c f d).rly = d.rly := rfl
@[simp] theorem setClu_port (o c : Nat) (f : Clu → Clu) (d : Dev) : (setClu o c f d).port = d.port := rfl
@[simp] theorem setClu_group (o c : Nat) (f : Clu → Clu) (d : Dev) : (setClu o c f d).group = d.group := rfl
@[simp] theorem setClu_steps (o c : Nat) (f : Clu → Clu) (d : Dev) : (setClu o c f d).steps = d.steps := rfl
@[simp] theorem setClu_dbgSel (o c : Nat) (f : Clu → Clu) (d : Dev) : (setClu o c f d).dbgSel = d.dbgSel := rfl
@[simp] theorem setClu_out (o c : Nat) (f : Clu → Clu) (d : Dev) : (setClu o c f d).out = d.out := rfl
@[simp] theorem setClu_free (o c : Nat) (f : Clu → Clu) (d : Dev) : (setClu o c f d).free = d.free := rfl

@[simp] theorem getClu_setClu (o c : Nat) (f : Clu → Clu) (d : Dev) : getClu (setClu o c f d) o c = f (getClu d o c) :=
  look_alter_same _ _ _ _

/-! ## setPort -/

@[simp] theorem setPort_fuse (p : Nat) (f : Port → Port) (d : Dev) : (setPort p f d).fuse = d.fuse := rfl
@[simp] theorem setPort_flash (p : Nat) (f : Port → Port) (d : Dev) : (setPort p f d).flash = d.flash := rfl
@[simp] theorem setPort_ret (p : Nat) (f : Port → Port) (d : Dev) : (setPort p f d).ret = d.ret := rfl
@[simp] theorem setPort_pkg (p : Nat) (f : Port → Port) (d : Dev) : (setPort p f d).pkg = d.pkg := rfl
@[simp] theorem setPort_blk (p : Nat) (f : Port → Port) (d : Dev) : (setPort p f d).blk = d.blk := rfl
@[simp] theorem setPort_tck (p : Nat) (f : Port → Port) (d : Dev) : (setPort p f d).tck = d.tck := rfl
@[simp] theorem setPort_pwr (p : Nat) (f : Port → Port) (d : Dev) : (setPort p f d).pwr = d.pwr := rfl
@[simp] theorem setPort_ptr (p : Nat) (f : Port → Port) (d : Dev) : (setPort p f d).ptr = d.ptr := rfl
@[simp] theorem setPort_ump (p : Nat) (f : Port → Port) (d : Dev) : (setPort p f d).ump = d.ump := rfl
@[simp] theorem setPort_part (p : Nat) (f : Port → Port) (d : Dev) : (setPort p f d).part = d.part := rfl
@[simp] theorem setPort_sht (p : Nat) (f : Port → Port) (d : Dev) : (setPort p f d).sht = d.sht := rfl
@[simp] theorem setPort_slot (p : Nat) (f : Port → Port) (d : Dev) : (setPort p f d).slot = d.slot := rfl
@[simp] theorem setPort_win (p : Nat) (f : Port → Port) (d : Dev) : (setPort p f d).win = d.win := rfl
@[simp] theorem setPort_pool (p : Nat) (f : Port → Port) (d : Dev) : (setPort p f d).pool = d.pool := rfl
@[simp] theorem setPort_stack (p : Nat) (f : Port → Port) (d : Dev) : (setPort p f d).stack = d.stack := rfl
@[simp] theorem setPort_region (p : Nat) (f : Port → Port) (d : Dev) : (setPort p f d).region = d.region := rfl
@[simp] theorem setPort_page (p : Nat) (f : Port → Port) (d : Dev) : (setPort p f d).page = d.page := rfl
@[simp] theorem setPort_hbm (p : Nat) (f : Port → Port) (d : Dev) : (setPort p f d).hbm = d.hbm := rfl
@[simp] theorem setPort_cas (p : Nat) (f : Port → Port) (d : Dev) : (setPort p f d).cas = d.cas := rfl
@[simp] theorem setPort_cmem (p : Nat) (f : Port → Port) (d : Dev) : (setPort p f d).cmem = d.cmem := rfl
@[simp] theorem setPort_cmemLabel (p : Nat) (f : Port → Port) (d : Dev) : (setPort p f d).cmemLabel = d.cmemLabel := rfl
@[simp] theorem setPort_spad (p : Nat) (f : Port → Port) (d : Dev) : (setPort p f d).spad = d.spad := rfl
@[simp] theorem setPort_spadLabel (p : Nat) (f : Port → Port) (d : Dev) : (setPort p f d).spadLabel = d.spadLabel := rfl
@[simp] theorem setPort_acc (p : Nat) (f : Port → Port) (d : Dev) : (setPort p f d).acc = d.acc := rfl
@[simp] theorem setPort_seq (p : Nat) (f : Port → Port) (d : Dev) : (setPort p f d).seq = d.seq := rfl
@[simp] theorem setPort_ctx (p : Nat) (f : Port → Port) (d : Dev) : (setPort p f d).ctx = d.ctx := rfl
@[simp] theorem setPort_rtab (p : Nat) (f : Port → Port) (d : Dev) : (setPort p f d).rtab = d.rtab := rfl
@[simp] theorem setPort_img (p : Nat) (f : Port → Port) (d : Dev) : (setPort p f d).img = d.img := rfl
@[simp] theorem setPort_queue (p : Nat) (f : Port → Port) (d : Dev) : (setPort p f d).queue = d.queue := rfl
@[simp] theorem setPort_obj (p : Nat) (f : Port → Port) (d : Dev) : (setPort p f d).obj = d.obj := rfl
@[simp] theorem setPort_cmds (p : Nat) (f : Port → Port) (d : Dev) : (setPort p f d).cmds = d.cmds := rfl
@[simp] theorem setPort_nextCmd (p : Nat) (f : Port → Port) (d : Dev) : (setPort p f d).nextCmd = d.nextCmd := rfl
@[simp] theorem setPort_signals (p : Nat) (f : Port → Port) (d : Dev) : (setPort p f d).signals = d.signals := rfl
@[simp] theorem setPort_core (p : Nat) (f : Port → Port) (d : Dev) : (setPort p f d).core = d.core := rfl
@[simp] theorem setPort_stream (p : Nat) (f : Port → Port) (d : Dev) : (setPort p f d).stream = d.stream := rfl
@[simp] theorem setPort_clu (p : Nat) (f : Port → Port) (d : Dev) : (setPort p f d).clu = d.clu := rfl
@[simp] theorem setPort_rle (p : Nat) (f : Port → Port) (d : Dev) : (setPort p f d).rle = d.rle := rfl
@[simp] theorem setPort_xfers (p : Nat) (f : Port → Port) (d : Dev) : (setPort p f d).xfers = d.xfers := rfl
@[simp] theorem setPort_rly (p : Nat) (f : Port → Port) (d : Dev) : (setPort p f d).rly = d.rly := rfl
@[simp] theorem setPort_group (p : Nat) (f : Port → Port) (d : Dev) : (setPort p f d).group = d.group := rfl
@[simp] theorem setPort_steps (p : Nat) (f : Port → Port) (d : Dev) : (setPort p f d).steps = d.steps := rfl
@[simp] theorem setPort_dbgSel (p : Nat) (f : Port → Port) (d : Dev) : (setPort p f d).dbgSel = d.dbgSel := rfl
@[simp] theorem setPort_out (p : Nat) (f : Port → Port) (d : Dev) : (setPort p f d).out = d.out := rfl
@[simp] theorem setPort_free (p : Nat) (f : Port → Port) (d : Dev) : (setPort p f d).free = d.free := rfl

@[simp] theorem getPort_setPort (p : Nat) (f : Port → Port) (d : Dev) : getPort (setPort p f d) p = f (getPort d p) :=
  look_alter_same _ _ _ _

theorem getPort_setPort_ne (u : Nat) (p : Nat) (f : Port → Port) (d : Dev) (h : u ≠ p) : getPort (setPort p f d) u = getPort d u :=
  look_alter_other _ _ _ _ _ h

/-! ## setGroup -/

@[simp] theorem setGroup_fuse (n : Nat) (f : Group → Group) (d : Dev) : (setGroup n f d).fuse = d.fuse := rfl
@[simp] theorem setGroup_flash (n : Nat) (f : Group → Group) (d : Dev) : (setGroup n f d).flash = d.flash := rfl
@[simp] theorem setGroup_ret (n : Nat) (f : Group → Group) (d : Dev) : (setGroup n f d).ret = d.ret := rfl
@[simp] theorem setGroup_pkg (n : Nat) (f : Group → Group) (d : Dev) : (setGroup n f d).pkg = d.pkg := rfl
@[simp] theorem setGroup_blk (n : Nat) (f : Group → Group) (d : Dev) : (setGroup n f d).blk = d.blk := rfl
@[simp] theorem setGroup_tck (n : Nat) (f : Group → Group) (d : Dev) : (setGroup n f d).tck = d.tck := rfl
@[simp] theorem setGroup_pwr (n : Nat) (f : Group → Group) (d : Dev) : (setGroup n f d).pwr = d.pwr := rfl
@[simp] theorem setGroup_ptr (n : Nat) (f : Group → Group) (d : Dev) : (setGroup n f d).ptr = d.ptr := rfl
@[simp] theorem setGroup_ump (n : Nat) (f : Group → Group) (d : Dev) : (setGroup n f d).ump = d.ump := rfl
@[simp] theorem setGroup_part (n : Nat) (f : Group → Group) (d : Dev) : (setGroup n f d).part = d.part := rfl
@[simp] theorem setGroup_sht (n : Nat) (f : Group → Group) (d : Dev) : (setGroup n f d).sht = d.sht := rfl
@[simp] theorem setGroup_slot (n : Nat) (f : Group → Group) (d : Dev) : (setGroup n f d).slot = d.slot := rfl
@[simp] theorem setGroup_win (n : Nat) (f : Group → Group) (d : Dev) : (setGroup n f d).win = d.win := rfl
@[simp] theorem setGroup_pool (n : Nat) (f : Group → Group) (d : Dev) : (setGroup n f d).pool = d.pool := rfl
@[simp] theorem setGroup_stack (n : Nat) (f : Group → Group) (d : Dev) : (setGroup n f d).stack = d.stack := rfl
@[simp] theorem setGroup_region (n : Nat) (f : Group → Group) (d : Dev) : (setGroup n f d).region = d.region := rfl
@[simp] theorem setGroup_page (n : Nat) (f : Group → Group) (d : Dev) : (setGroup n f d).page = d.page := rfl
@[simp] theorem setGroup_hbm (n : Nat) (f : Group → Group) (d : Dev) : (setGroup n f d).hbm = d.hbm := rfl
@[simp] theorem setGroup_cas (n : Nat) (f : Group → Group) (d : Dev) : (setGroup n f d).cas = d.cas := rfl
@[simp] theorem setGroup_cmem (n : Nat) (f : Group → Group) (d : Dev) : (setGroup n f d).cmem = d.cmem := rfl
@[simp] theorem setGroup_cmemLabel (n : Nat) (f : Group → Group) (d : Dev) : (setGroup n f d).cmemLabel = d.cmemLabel := rfl
@[simp] theorem setGroup_spad (n : Nat) (f : Group → Group) (d : Dev) : (setGroup n f d).spad = d.spad := rfl
@[simp] theorem setGroup_spadLabel (n : Nat) (f : Group → Group) (d : Dev) : (setGroup n f d).spadLabel = d.spadLabel := rfl
@[simp] theorem setGroup_acc (n : Nat) (f : Group → Group) (d : Dev) : (setGroup n f d).acc = d.acc := rfl
@[simp] theorem setGroup_seq (n : Nat) (f : Group → Group) (d : Dev) : (setGroup n f d).seq = d.seq := rfl
@[simp] theorem setGroup_ctx (n : Nat) (f : Group → Group) (d : Dev) : (setGroup n f d).ctx = d.ctx := rfl
@[simp] theorem setGroup_rtab (n : Nat) (f : Group → Group) (d : Dev) : (setGroup n f d).rtab = d.rtab := rfl
@[simp] theorem setGroup_img (n : Nat) (f : Group → Group) (d : Dev) : (setGroup n f d).img = d.img := rfl
@[simp] theorem setGroup_queue (n : Nat) (f : Group → Group) (d : Dev) : (setGroup n f d).queue = d.queue := rfl
@[simp] theorem setGroup_obj (n : Nat) (f : Group → Group) (d : Dev) : (setGroup n f d).obj = d.obj := rfl
@[simp] theorem setGroup_cmds (n : Nat) (f : Group → Group) (d : Dev) : (setGroup n f d).cmds = d.cmds := rfl
@[simp] theorem setGroup_nextCmd (n : Nat) (f : Group → Group) (d : Dev) : (setGroup n f d).nextCmd = d.nextCmd := rfl
@[simp] theorem setGroup_signals (n : Nat) (f : Group → Group) (d : Dev) : (setGroup n f d).signals = d.signals := rfl
@[simp] theorem setGroup_core (n : Nat) (f : Group → Group) (d : Dev) : (setGroup n f d).core = d.core := rfl
@[simp] theorem setGroup_stream (n : Nat) (f : Group → Group) (d : Dev) : (setGroup n f d).stream = d.stream := rfl
@[simp] theorem setGroup_clu (n : Nat) (f : Group → Group) (d : Dev) : (setGroup n f d).clu = d.clu := rfl
@[simp] theorem setGroup_rle (n : Nat) (f : Group → Group) (d : Dev) : (setGroup n f d).rle = d.rle := rfl
@[simp] theorem setGroup_xfers (n : Nat) (f : Group → Group) (d : Dev) : (setGroup n f d).xfers = d.xfers := rfl
@[simp] theorem setGroup_rly (n : Nat) (f : Group → Group) (d : Dev) : (setGroup n f d).rly = d.rly := rfl
@[simp] theorem setGroup_port (n : Nat) (f : Group → Group) (d : Dev) : (setGroup n f d).port = d.port := rfl
@[simp] theorem setGroup_steps (n : Nat) (f : Group → Group) (d : Dev) : (setGroup n f d).steps = d.steps := rfl
@[simp] theorem setGroup_dbgSel (n : Nat) (f : Group → Group) (d : Dev) : (setGroup n f d).dbgSel = d.dbgSel := rfl
@[simp] theorem setGroup_out (n : Nat) (f : Group → Group) (d : Dev) : (setGroup n f d).out = d.out := rfl
@[simp] theorem setGroup_free (n : Nat) (f : Group → Group) (d : Dev) : (setGroup n f d).free = d.free := rfl

@[simp] theorem getGroup_setGroup (n : Nat) (f : Group → Group) (d : Dev) : getGroup (setGroup n f d) n = f (getGroup d n) :=
  look_alter_same _ _ _ _

theorem getGroup_setGroup_ne (u : Nat) (n : Nat) (f : Group → Group) (d : Dev) (h : u ≠ n) : getGroup (setGroup n f d) u = getGroup d u :=
  look_alter_other _ _ _ _ _ h

/-! ## setBlk -/

@[simp] theorem setBlk_fuse (b : Nat) (f : BlkCtl → BlkCtl) (d : Dev) : (setBlk b f d).fuse = d.fuse := rfl
@[simp] theorem setBlk_flash (b : Nat) (f : BlkCtl → BlkCtl) (d : Dev) : (setBlk b f d).flash = d.flash := rfl
@[simp] theorem setBlk_ret (b : Nat) (f : BlkCtl → BlkCtl) (d : Dev) : (setBlk b f d).ret = d.ret := rfl
@[simp] theorem setBlk_pkg (b : Nat) (f : BlkCtl → BlkCtl) (d : Dev) : (setBlk b f d).pkg = d.pkg := rfl
@[simp] theorem setBlk_tck (b : Nat) (f : BlkCtl → BlkCtl) (d : Dev) : (setBlk b f d).tck = d.tck := rfl
@[simp] theorem setBlk_pwr (b : Nat) (f : BlkCtl → BlkCtl) (d : Dev) : (setBlk b f d).pwr = d.pwr := rfl
@[simp] theorem setBlk_ptr (b : Nat) (f : BlkCtl → BlkCtl) (d : Dev) : (setBlk b f d).ptr = d.ptr := rfl
@[simp] theorem setBlk_ump (b : Nat) (f : BlkCtl → BlkCtl) (d : Dev) : (setBlk b f d).ump = d.ump := rfl
@[simp] theorem setBlk_part (b : Nat) (f : BlkCtl → BlkCtl) (d : Dev) : (setBlk b f d).part = d.part := rfl
@[simp] theorem setBlk_sht (b : Nat) (f : BlkCtl → BlkCtl) (d : Dev) : (setBlk b f d).sht = d.sht := rfl
@[simp] theorem setBlk_slot (b : Nat) (f : BlkCtl → BlkCtl) (d : Dev) : (setBlk b f d).slot = d.slot := rfl
@[simp] theorem setBlk_win (b : Nat) (f : BlkCtl → BlkCtl) (d : Dev) : (setBlk b f d).win = d.win := rfl
@[simp] theorem setBlk_pool (b : Nat) (f : BlkCtl → BlkCtl) (d : Dev) : (setBlk b f d).pool = d.pool := rfl
@[simp] theorem setBlk_stack (b : Nat) (f : BlkCtl → BlkCtl) (d : Dev) : (setBlk b f d).stack = d.stack := rfl
@[simp] theorem setBlk_region (b : Nat) (f : BlkCtl → BlkCtl) (d : Dev) : (setBlk b f d).region = d.region := rfl
@[simp] theorem setBlk_page (b : Nat) (f : BlkCtl → BlkCtl) (d : Dev) : (setBlk b f d).page = d.page := rfl
@[simp] theorem setBlk_hbm (b : Nat) (f : BlkCtl → BlkCtl) (d : Dev) : (setBlk b f d).hbm = d.hbm := rfl
@[simp] theorem setBlk_cas (b : Nat) (f : BlkCtl → BlkCtl) (d : Dev) : (setBlk b f d).cas = d.cas := rfl
@[simp] theorem setBlk_cmem (b : Nat) (f : BlkCtl → BlkCtl) (d : Dev) : (setBlk b f d).cmem = d.cmem := rfl
@[simp] theorem setBlk_cmemLabel (b : Nat) (f : BlkCtl → BlkCtl) (d : Dev) : (setBlk b f d).cmemLabel = d.cmemLabel := rfl
@[simp] theorem setBlk_spad (b : Nat) (f : BlkCtl → BlkCtl) (d : Dev) : (setBlk b f d).spad = d.spad := rfl
@[simp] theorem setBlk_spadLabel (b : Nat) (f : BlkCtl → BlkCtl) (d : Dev) : (setBlk b f d).spadLabel = d.spadLabel := rfl
@[simp] theorem setBlk_acc (b : Nat) (f : BlkCtl → BlkCtl) (d : Dev) : (setBlk b f d).acc = d.acc := rfl
@[simp] theorem setBlk_seq (b : Nat) (f : BlkCtl → BlkCtl) (d : Dev) : (setBlk b f d).seq = d.seq := rfl
@[simp] theorem setBlk_ctx (b : Nat) (f : BlkCtl → BlkCtl) (d : Dev) : (setBlk b f d).ctx = d.ctx := rfl
@[simp] theorem setBlk_rtab (b : Nat) (f : BlkCtl → BlkCtl) (d : Dev) : (setBlk b f d).rtab = d.rtab := rfl
@[simp] theorem setBlk_img (b : Nat) (f : BlkCtl → BlkCtl) (d : Dev) : (setBlk b f d).img = d.img := rfl
@[simp] theorem setBlk_queue (b : Nat) (f : BlkCtl → BlkCtl) (d : Dev) : (setBlk b f d).queue = d.queue := rfl
@[simp] theorem setBlk_obj (b : Nat) (f : BlkCtl → BlkCtl) (d : Dev) : (setBlk b f d).obj = d.obj := rfl
@[simp] theorem setBlk_cmds (b : Nat) (f : BlkCtl → BlkCtl) (d : Dev) : (setBlk b f d).cmds = d.cmds := rfl
@[simp] theorem setBlk_nextCmd (b : Nat) (f : BlkCtl → BlkCtl) (d : Dev) : (setBlk b f d).nextCmd = d.nextCmd := rfl
@[simp] theorem setBlk_signals (b : Nat) (f : BlkCtl → BlkCtl) (d : Dev) : (setBlk b f d).signals = d.signals := rfl
@[simp] theorem setBlk_core (b : Nat) (f : BlkCtl → BlkCtl) (d : Dev) : (setBlk b f d).core = d.core := rfl
@[simp] theorem setBlk_stream (b : Nat) (f : BlkCtl → BlkCtl) (d : Dev) : (setBlk b f d).stream = d.stream := rfl
@[simp] theorem setBlk_clu (b : Nat) (f : BlkCtl → BlkCtl) (d : Dev) : (setBlk b f d).clu = d.clu := rfl
@[simp] theorem setBlk_rle (b : Nat) (f : BlkCtl → BlkCtl) (d : Dev) : (setBlk b f d).rle = d.rle := rfl
@[simp] theorem setBlk_xfers (b : Nat) (f : BlkCtl → BlkCtl) (d : Dev) : (setBlk b f d).xfers = d.xfers := rfl
@[simp] theorem setBlk_rly (b : Nat) (f : BlkCtl → BlkCtl) (d : Dev) : (setBlk b f d).rly = d.rly := rfl
@[simp] theorem setBlk_port (b : Nat) (f : BlkCtl → BlkCtl) (d : Dev) : (setBlk b f d).port = d.port := rfl
@[simp] theorem setBlk_group (b : Nat) (f : BlkCtl → BlkCtl) (d : Dev) : (setBlk b f d).group = d.group := rfl
@[simp] theorem setBlk_steps (b : Nat) (f : BlkCtl → BlkCtl) (d : Dev) : (setBlk b f d).steps = d.steps := rfl
@[simp] theorem setBlk_dbgSel (b : Nat) (f : BlkCtl → BlkCtl) (d : Dev) : (setBlk b f d).dbgSel = d.dbgSel := rfl
@[simp] theorem setBlk_out (b : Nat) (f : BlkCtl → BlkCtl) (d : Dev) : (setBlk b f d).out = d.out := rfl
@[simp] theorem setBlk_free (b : Nat) (f : BlkCtl → BlkCtl) (d : Dev) : (setBlk b f d).free = d.free := rfl

@[simp] theorem getBlk_setBlk (b : Nat) (f : BlkCtl → BlkCtl) (d : Dev) : getBlk (setBlk b f d) b = f (getBlk d b) :=
  look_alter_same _ _ _ _

theorem getBlk_setBlk_ne (u : Nat) (b : Nat) (f : BlkCtl → BlkCtl) (d : Dev) (h : u ≠ b) : getBlk (setBlk b f d) u = getBlk d u :=
  look_alter_other _ _ _ _ _ h

/-! ## setEntry -/

@[simp] theorem setEntry_fuse (o c i : Nat) (e : RegEntry) (d : Dev) : (setEntry o c i e d).fuse = d.fuse := rfl
@[simp] theorem setEntry_flash (o c i : Nat) (e : RegEntry) (d : Dev) : (setEntry o c i e d).flash = d.flash := rfl
@[simp] theorem setEntry_ret (o c i : Nat) (e : RegEntry) (d : Dev) : (setEntry o c i e d).ret = d.ret := rfl
@[simp] theorem setEntry_pkg (o c i : Nat) (e : RegEntry) (d : Dev) : (setEntry o c i e d).pkg = d.pkg := rfl
@[simp] theorem setEntry_blk (o c i : Nat) (e : RegEntry) (d : Dev) : (setEntry o c i e d).blk = d.blk := rfl
@[simp] theorem setEntry_tck (o c i : Nat) (e : RegEntry) (d : Dev) : (setEntry o c i e d).tck = d.tck := rfl
@[simp] theorem setEntry_pwr (o c i : Nat) (e : RegEntry) (d : Dev) : (setEntry o c i e d).pwr = d.pwr := rfl
@[simp] theorem setEntry_ptr (o c i : Nat) (e : RegEntry) (d : Dev) : (setEntry o c i e d).ptr = d.ptr := rfl
@[simp] theorem setEntry_ump (o c i : Nat) (e : RegEntry) (d : Dev) : (setEntry o c i e d).ump = d.ump := rfl
@[simp] theorem setEntry_part (o c i : Nat) (e : RegEntry) (d : Dev) : (setEntry o c i e d).part = d.part := rfl
@[simp] theorem setEntry_sht (o c i : Nat) (e : RegEntry) (d : Dev) : (setEntry o c i e d).sht = d.sht := rfl
@[simp] theorem setEntry_slot (o c i : Nat) (e : RegEntry) (d : Dev) : (setEntry o c i e d).slot = d.slot := rfl
@[simp] theorem setEntry_win (o c i : Nat) (e : RegEntry) (d : Dev) : (setEntry o c i e d).win = d.win := rfl
@[simp] theorem setEntry_pool (o c i : Nat) (e : RegEntry) (d : Dev) : (setEntry o c i e d).pool = d.pool := rfl
@[simp] theorem setEntry_stack (o c i : Nat) (e : RegEntry) (d : Dev) : (setEntry o c i e d).stack = d.stack := rfl
@[simp] theorem setEntry_region (o c i : Nat) (e : RegEntry) (d : Dev) : (setEntry o c i e d).region = d.region := rfl
@[simp] theorem setEntry_page (o c i : Nat) (e : RegEntry) (d : Dev) : (setEntry o c i e d).page = d.page := rfl
@[simp] theorem setEntry_hbm (o c i : Nat) (e : RegEntry) (d : Dev) : (setEntry o c i e d).hbm = d.hbm := rfl
@[simp] theorem setEntry_cas (o c i : Nat) (e : RegEntry) (d : Dev) : (setEntry o c i e d).cas = d.cas := rfl
@[simp] theorem setEntry_cmem (o c i : Nat) (e : RegEntry) (d : Dev) : (setEntry o c i e d).cmem = d.cmem := rfl
@[simp] theorem setEntry_cmemLabel (o c i : Nat) (e : RegEntry) (d : Dev) : (setEntry o c i e d).cmemLabel = d.cmemLabel := rfl
@[simp] theorem setEntry_spad (o c i : Nat) (e : RegEntry) (d : Dev) : (setEntry o c i e d).spad = d.spad := rfl
@[simp] theorem setEntry_spadLabel (o c i : Nat) (e : RegEntry) (d : Dev) : (setEntry o c i e d).spadLabel = d.spadLabel := rfl
@[simp] theorem setEntry_acc (o c i : Nat) (e : RegEntry) (d : Dev) : (setEntry o c i e d).acc = d.acc := rfl
@[simp] theorem setEntry_seq (o c i : Nat) (e : RegEntry) (d : Dev) : (setEntry o c i e d).seq = d.seq := rfl
@[simp] theorem setEntry_ctx (o c i : Nat) (e : RegEntry) (d : Dev) : (setEntry o c i e d).ctx = d.ctx := rfl
@[simp] theorem setEntry_img (o c i : Nat) (e : RegEntry) (d : Dev) : (setEntry o c i e d).img = d.img := rfl
@[simp] theorem setEntry_queue (o c i : Nat) (e : RegEntry) (d : Dev) : (setEntry o c i e d).queue = d.queue := rfl
@[simp] theorem setEntry_obj (o c i : Nat) (e : RegEntry) (d : Dev) : (setEntry o c i e d).obj = d.obj := rfl
@[simp] theorem setEntry_cmds (o c i : Nat) (e : RegEntry) (d : Dev) : (setEntry o c i e d).cmds = d.cmds := rfl
@[simp] theorem setEntry_nextCmd (o c i : Nat) (e : RegEntry) (d : Dev) : (setEntry o c i e d).nextCmd = d.nextCmd := rfl
@[simp] theorem setEntry_signals (o c i : Nat) (e : RegEntry) (d : Dev) : (setEntry o c i e d).signals = d.signals := rfl
@[simp] theorem setEntry_core (o c i : Nat) (e : RegEntry) (d : Dev) : (setEntry o c i e d).core = d.core := rfl
@[simp] theorem setEntry_stream (o c i : Nat) (e : RegEntry) (d : Dev) : (setEntry o c i e d).stream = d.stream := rfl
@[simp] theorem setEntry_clu (o c i : Nat) (e : RegEntry) (d : Dev) : (setEntry o c i e d).clu = d.clu := rfl
@[simp] theorem setEntry_rle (o c i : Nat) (e : RegEntry) (d : Dev) : (setEntry o c i e d).rle = d.rle := rfl
@[simp] theorem setEntry_xfers (o c i : Nat) (e : RegEntry) (d : Dev) : (setEntry o c i e d).xfers = d.xfers := rfl
@[simp] theorem setEntry_rly (o c i : Nat) (e : RegEntry) (d : Dev) : (setEntry o c i e d).rly = d.rly := rfl
@[simp] theorem setEntry_port (o c i : Nat) (e : RegEntry) (d : Dev) : (setEntry o c i e d).port = d.port := rfl
@[simp] theorem setEntry_group (o c i : Nat) (e : RegEntry) (d : Dev) : (setEntry o c i e d).group = d.group := rfl
@[simp] theorem setEntry_steps (o c i : Nat) (e : RegEntry) (d : Dev) : (setEntry o c i e d).steps = d.steps := rfl
@[simp] theorem setEntry_dbgSel (o c i : Nat) (e : RegEntry) (d : Dev) : (setEntry o c i e d).dbgSel = d.dbgSel := rfl
@[simp] theorem setEntry_out (o c i : Nat) (e : RegEntry) (d : Dev) : (setEntry o c i e d).out = d.out := rfl
@[simp] theorem setEntry_free (o c i : Nat) (e : RegEntry) (d : Dev) : (setEntry o c i e d).free = d.free := rfl

@[simp] theorem getEntry_setEntry (o c i : Nat) (e : RegEntry) (d : Dev) : getEntry (setEntry o c i e d) o c i = e :=
  look_put_same _ _ _ _

/-! ## setSlot -/

@[simp] theorem setSlot_fuse (v : Nat) (f : Rwt → Rwt) (d : Dev) : (setSlot v f d).fuse = d.fuse := rfl
@[simp] theorem setSlot_flash (v : Nat) (f : Rwt → Rwt) (d : Dev) : (setSlot v f d).flash = d.flash := rfl
@[simp] theorem setSlot_ret (v : Nat) (f : Rwt → Rwt) (d : Dev) : (setSlot v f d).ret = d.ret := rfl
@[simp] theorem setSlot_pkg (v : Nat) (f : Rwt → Rwt) (d : Dev) : (setSlot v f d).pkg = d.pkg := rfl
@[simp] theorem setSlot_blk (v : Nat) (f : Rwt → Rwt) (d : Dev) : (setSlot v f d).blk = d.blk := rfl
@[simp] theorem setSlot_tck (v : Nat) (f : Rwt → Rwt) (d : Dev) : (setSlot v f d).tck = d.tck := rfl
@[simp] theorem setSlot_pwr (v : Nat) (f : Rwt → Rwt) (d : Dev) : (setSlot v f d).pwr = d.pwr := rfl
@[simp] theorem setSlot_ptr (v : Nat) (f : Rwt → Rwt) (d : Dev) : (setSlot v f d).ptr = d.ptr := rfl
@[simp] theorem setSlot_ump (v : Nat) (f : Rwt → Rwt) (d : Dev) : (setSlot v f d).ump = d.ump := rfl
@[simp] theorem setSlot_part (v : Nat) (f : Rwt → Rwt) (d : Dev) : (setSlot v f d).part = d.part := rfl
@[simp] theorem setSlot_sht (v : Nat) (f : Rwt → Rwt) (d : Dev) : (setSlot v f d).sht = d.sht := rfl
@[simp] theorem setSlot_win (v : Nat) (f : Rwt → Rwt) (d : Dev) : (setSlot v f d).win = d.win := rfl
@[simp] theorem setSlot_pool (v : Nat) (f : Rwt → Rwt) (d : Dev) : (setSlot v f d).pool = d.pool := rfl
@[simp] theorem setSlot_stack (v : Nat) (f : Rwt → Rwt) (d : Dev) : (setSlot v f d).stack = d.stack := rfl
@[simp] theorem setSlot_region (v : Nat) (f : Rwt → Rwt) (d : Dev) : (setSlot v f d).region = d.region := rfl
@[simp] theorem setSlot_page (v : Nat) (f : Rwt → Rwt) (d : Dev) : (setSlot v f d).page = d.page := rfl
@[simp] theorem setSlot_hbm (v : Nat) (f : Rwt → Rwt) (d : Dev) : (setSlot v f d).hbm = d.hbm := rfl
@[simp] theorem setSlot_cas (v : Nat) (f : Rwt → Rwt) (d : Dev) : (setSlot v f d).cas = d.cas := rfl
@[simp] theorem setSlot_cmem (v : Nat) (f : Rwt → Rwt) (d : Dev) : (setSlot v f d).cmem = d.cmem := rfl
@[simp] theorem setSlot_cmemLabel (v : Nat) (f : Rwt → Rwt) (d : Dev) : (setSlot v f d).cmemLabel = d.cmemLabel := rfl
@[simp] theorem setSlot_spad (v : Nat) (f : Rwt → Rwt) (d : Dev) : (setSlot v f d).spad = d.spad := rfl
@[simp] theorem setSlot_spadLabel (v : Nat) (f : Rwt → Rwt) (d : Dev) : (setSlot v f d).spadLabel = d.spadLabel := rfl
@[simp] theorem setSlot_acc (v : Nat) (f : Rwt → Rwt) (d : Dev) : (setSlot v f d).acc = d.acc := rfl
@[simp] theorem setSlot_seq (v : Nat) (f : Rwt → Rwt) (d : Dev) : (setSlot v f d).seq = d.seq := rfl
@[simp] theorem setSlot_ctx (v : Nat) (f : Rwt → Rwt) (d : Dev) : (setSlot v f d).ctx = d.ctx := rfl
@[simp] theorem setSlot_rtab (v : Nat) (f : Rwt → Rwt) (d : Dev) : (setSlot v f d).rtab = d.rtab := rfl
@[simp] theorem setSlot_img (v : Nat) (f : Rwt → Rwt) (d : Dev) : (setSlot v f d).img = d.img := rfl
@[simp] theorem setSlot_queue (v : Nat) (f : Rwt → Rwt) (d : Dev) : (setSlot v f d).queue = d.queue := rfl
@[simp] theorem setSlot_obj (v : Nat) (f : Rwt → Rwt) (d : Dev) : (setSlot v f d).obj = d.obj := rfl
@[simp] theorem setSlot_cmds (v : Nat) (f : Rwt → Rwt) (d : Dev) : (setSlot v f d).cmds = d.cmds := rfl
@[simp] theorem setSlot_nextCmd (v : Nat) (f : Rwt → Rwt) (d : Dev) : (setSlot v f d).nextCmd = d.nextCmd := rfl
@[simp] theorem setSlot_signals (v : Nat) (f : Rwt → Rwt) (d : Dev) : (setSlot v f d).signals = d.signals := rfl
@[simp] theorem setSlot_core (v : Nat) (f : Rwt → Rwt) (d : Dev) : (setSlot v f d).core = d.core := rfl
@[simp] theorem setSlot_stream (v : Nat) (f : Rwt → Rwt) (d : Dev) : (setSlot v f d).stream = d.stream := rfl
@[simp] theorem setSlot_clu (v : Nat) (f : Rwt → Rwt) (d : Dev) : (setSlot v f d).clu = d.clu := rfl
@[simp] theorem setSlot_rle (v : Nat) (f : Rwt → Rwt) (d : Dev) : (setSlot v f d).rle = d.rle := rfl
@[simp] theorem setSlot_xfers (v : Nat) (f : Rwt → Rwt) (d : Dev) : (setSlot v f d).xfers = d.xfers := rfl
@[simp] theorem setSlot_rly (v : Nat) (f : Rwt → Rwt) (d : Dev) : (setSlot v f d).rly = d.rly := rfl
@[simp] theorem setSlot_port (v : Nat) (f : Rwt → Rwt) (d : Dev) : (setSlot v f d).port = d.port := rfl
@[simp] theorem setSlot_group (v : Nat) (f : Rwt → Rwt) (d : Dev) : (setSlot v f d).group = d.group := rfl
@[simp] theorem setSlot_steps (v : Nat) (f : Rwt → Rwt) (d : Dev) : (setSlot v f d).steps = d.steps := rfl
@[simp] theorem setSlot_dbgSel (v : Nat) (f : Rwt → Rwt) (d : Dev) : (setSlot v f d).dbgSel = d.dbgSel := rfl
@[simp] theorem setSlot_out (v : Nat) (f : Rwt → Rwt) (d : Dev) : (setSlot v f d).out = d.out := rfl
@[simp] theorem setSlot_free (v : Nat) (f : Rwt → Rwt) (d : Dev) : (setSlot v f d).free = d.free := rfl

@[simp] theorem getSlot_setSlot (v : Nat) (f : Rwt → Rwt) (d : Dev) : getSlot (setSlot v f d) v = f (getSlot d v) :=
  look_alter_same _ _ _ _

theorem getSlot_setSlot_ne (u : Nat) (v : Nat) (f : Rwt → Rwt) (d : Dev) (h : u ≠ v) : getSlot (setSlot v f d) u = getSlot d u :=
  look_alter_other _ _ _ _ _ h

/-! ## setCore -/

@[simp] theorem setCore_fuse (n : Nat) (f : Core → Core) (d : Dev) : (setCore n f d).fuse = d.fuse := rfl
@[simp] theorem setCore_flash (n : Nat) (f : Core → Core) (d : Dev) : (setCore n f d).flash = d.flash := rfl
@[simp] theorem setCore_ret (n : Nat) (f : Core → Core) (d : Dev) : (setCore n f d).ret = d.ret := rfl
@[simp] theorem setCore_pkg (n : Nat) (f : Core → Core) (d : Dev) : (setCore n f d).pkg = d.pkg := rfl
@[simp] theorem setCore_blk (n : Nat) (f : Core → Core) (d : Dev) : (setCore n f d).blk = d.blk := rfl
@[simp] theorem setCore_tck (n : Nat) (f : Core → Core) (d : Dev) : (setCore n f d).tck = d.tck := rfl
@[simp] theorem setCore_pwr (n : Nat) (f : Core → Core) (d : Dev) : (setCore n f d).pwr = d.pwr := rfl
@[simp] theorem setCore_ptr (n : Nat) (f : Core → Core) (d : Dev) : (setCore n f d).ptr = d.ptr := rfl
@[simp] theorem setCore_ump (n : Nat) (f : Core → Core) (d : Dev) : (setCore n f d).ump = d.ump := rfl
@[simp] theorem setCore_part (n : Nat) (f : Core → Core) (d : Dev) : (setCore n f d).part = d.part := rfl
@[simp] theorem setCore_sht (n : Nat) (f : Core → Core) (d : Dev) : (setCore n f d).sht = d.sht := rfl
@[simp] theorem setCore_slot (n : Nat) (f : Core → Core) (d : Dev) : (setCore n f d).slot = d.slot := rfl
@[simp] theorem setCore_win (n : Nat) (f : Core → Core) (d : Dev) : (setCore n f d).win = d.win := rfl
@[simp] theorem setCore_pool (n : Nat) (f : Core → Core) (d : Dev) : (setCore n f d).pool = d.pool := rfl
@[simp] theorem setCore_stack (n : Nat) (f : Core → Core) (d : Dev) : (setCore n f d).stack = d.stack := rfl
@[simp] theorem setCore_region (n : Nat) (f : Core → Core) (d : Dev) : (setCore n f d).region = d.region := rfl
@[simp] theorem setCore_page (n : Nat) (f : Core → Core) (d : Dev) : (setCore n f d).page = d.page := rfl
@[simp] theorem setCore_hbm (n : Nat) (f : Core → Core) (d : Dev) : (setCore n f d).hbm = d.hbm := rfl
@[simp] theorem setCore_cas (n : Nat) (f : Core → Core) (d : Dev) : (setCore n f d).cas = d.cas := rfl
@[simp] theorem setCore_cmem (n : Nat) (f : Core → Core) (d : Dev) : (setCore n f d).cmem = d.cmem := rfl
@[simp] theorem setCore_cmemLabel (n : Nat) (f : Core → Core) (d : Dev) : (setCore n f d).cmemLabel = d.cmemLabel := rfl
@[simp] theorem setCore_spad (n : Nat) (f : Core → Core) (d : Dev) : (setCore n f d).spad = d.spad := rfl
@[simp] theorem setCore_spadLabel (n : Nat) (f : Core → Core) (d : Dev) : (setCore n f d).spadLabel = d.spadLabel := rfl
@[simp] theorem setCore_acc (n : Nat) (f : Core → Core) (d : Dev) : (setCore n f d).acc = d.acc := rfl
@[simp] theorem setCore_seq (n : Nat) (f : Core → Core) (d : Dev) : (setCore n f d).seq = d.seq := rfl
@[simp] theorem setCore_ctx (n : Nat) (f : Core → Core) (d : Dev) : (setCore n f d).ctx = d.ctx := rfl
@[simp] theorem setCore_rtab (n : Nat) (f : Core → Core) (d : Dev) : (setCore n f d).rtab = d.rtab := rfl
@[simp] theorem setCore_img (n : Nat) (f : Core → Core) (d : Dev) : (setCore n f d).img = d.img := rfl
@[simp] theorem setCore_queue (n : Nat) (f : Core → Core) (d : Dev) : (setCore n f d).queue = d.queue := rfl
@[simp] theorem setCore_obj (n : Nat) (f : Core → Core) (d : Dev) : (setCore n f d).obj = d.obj := rfl
@[simp] theorem setCore_cmds (n : Nat) (f : Core → Core) (d : Dev) : (setCore n f d).cmds = d.cmds := rfl
@[simp] theorem setCore_nextCmd (n : Nat) (f : Core → Core) (d : Dev) : (setCore n f d).nextCmd = d.nextCmd := rfl
@[simp] theorem setCore_signals (n : Nat) (f : Core → Core) (d : Dev) : (setCore n f d).signals = d.signals := rfl
@[simp] theorem setCore_stream (n : Nat) (f : Core → Core) (d : Dev) : (setCore n f d).stream = d.stream := rfl
@[simp] theorem setCore_clu (n : Nat) (f : Core → Core) (d : Dev) : (setCore n f d).clu = d.clu := rfl
@[simp] theorem setCore_rle (n : Nat) (f : Core → Core) (d : Dev) : (setCore n f d).rle = d.rle := rfl
@[simp] theorem setCore_xfers (n : Nat) (f : Core → Core) (d : Dev) : (setCore n f d).xfers = d.xfers := rfl
@[simp] theorem setCore_rly (n : Nat) (f : Core → Core) (d : Dev) : (setCore n f d).rly = d.rly := rfl
@[simp] theorem setCore_port (n : Nat) (f : Core → Core) (d : Dev) : (setCore n f d).port = d.port := rfl
@[simp] theorem setCore_group (n : Nat) (f : Core → Core) (d : Dev) : (setCore n f d).group = d.group := rfl
@[simp] theorem setCore_steps (n : Nat) (f : Core → Core) (d : Dev) : (setCore n f d).steps = d.steps := rfl
@[simp] theorem setCore_dbgSel (n : Nat) (f : Core → Core) (d : Dev) : (setCore n f d).dbgSel = d.dbgSel := rfl
@[simp] theorem setCore_out (n : Nat) (f : Core → Core) (d : Dev) : (setCore n f d).out = d.out := rfl
@[simp] theorem setCore_free (n : Nat) (f : Core → Core) (d : Dev) : (setCore n f d).free = d.free := rfl

@[simp] theorem getCore_setCore (n : Nat) (f : Core → Core) (d : Dev) : getCore (setCore n f d) n = f (getCore d n) :=
  look_alter_same _ _ _ _

theorem getCore_setCore_ne (u : Nat) (n : Nat) (f : Core → Core) (d : Dev) (h : u ≠ n) : getCore (setCore n f d) u = getCore d u :=
  look_alter_other _ _ _ _ _ h

/-! ## setStream -/

@[simp] theorem setStream_fuse (n st : Nat) (f : Stream → Stream) (d : Dev) : (setStream n st f d).fuse = d.fuse := rfl
@[simp] theorem setStream_flash (n st : Nat) (f : Stream → Stream) (d : Dev) : (setStream n st f d).flash = d.flash := rfl
@[simp] theorem setStream_ret (n st : Nat) (f : Stream → Stream) (d : Dev) : (setStream n st f d).ret = d.ret := rfl
@[simp] theorem setStream_pkg (n st : Nat) (f : Stream → Stream) (d : Dev) : (setStream n st f d).pkg = d.pkg := rfl
@[simp] theorem setStream_blk (n st : Nat) (f : Stream → Stream) (d : Dev) : (setStream n st f d).blk = d.blk := rfl
@[simp] theorem setStream_tck (n st : Nat) (f : Stream → Stream) (d : Dev) : (setStream n st f d).tck = d.tck := rfl
@[simp] theorem setStream_pwr (n st : Nat) (f : Stream → Stream) (d : Dev) : (setStream n st f d).pwr = d.pwr := rfl
@[simp] theorem setStream_ptr (n st : Nat) (f : Stream → Stream) (d : Dev) : (setStream n st f d).ptr = d.ptr := rfl
@[simp] theorem setStream_ump (n st : Nat) (f : Stream → Stream) (d : Dev) : (setStream n st f d).ump = d.ump := rfl
@[simp] theorem setStream_part (n st : Nat) (f : Stream → Stream) (d : Dev) : (setStream n st f d).part = d.part := rfl
@[simp] theorem setStream_sht (n st : Nat) (f : Stream → Stream) (d : Dev) : (setStream n st f d).sht = d.sht := rfl
@[simp] theorem setStream_slot (n st : Nat) (f : Stream → Stream) (d : Dev) : (setStream n st f d).slot = d.slot := rfl
@[simp] theorem setStream_win (n st : Nat) (f : Stream → Stream) (d : Dev) : (setStream n st f d).win = d.win := rfl
@[simp] theorem setStream_pool (n st : Nat) (f : Stream → Stream) (d : Dev) : (setStream n st f d).pool = d.pool := rfl
@[simp] theorem setStream_stack (n st : Nat) (f : Stream → Stream) (d : Dev) : (setStream n st f d).stack = d.stack := rfl
@[simp] theorem setStream_region (n st : Nat) (f : Stream → Stream) (d : Dev) : (setStream n st f d).region = d.region := rfl
@[simp] theorem setStream_page (n st : Nat) (f : Stream → Stream) (d : Dev) : (setStream n st f d).page = d.page := rfl
@[simp] theorem setStream_hbm (n st : Nat) (f : Stream → Stream) (d : Dev) : (setStream n st f d).hbm = d.hbm := rfl
@[simp] theorem setStream_cas (n st : Nat) (f : Stream → Stream) (d : Dev) : (setStream n st f d).cas = d.cas := rfl
@[simp] theorem setStream_cmem (n st : Nat) (f : Stream → Stream) (d : Dev) : (setStream n st f d).cmem = d.cmem := rfl
@[simp] theorem setStream_cmemLabel (n st : Nat) (f : Stream → Stream) (d : Dev) : (setStream n st f d).cmemLabel = d.cmemLabel := rfl
@[simp] theorem setStream_spad (n st : Nat) (f : Stream → Stream) (d : Dev) : (setStream n st f d).spad = d.spad := rfl
@[simp] theorem setStream_spadLabel (n st : Nat) (f : Stream → Stream) (d : Dev) : (setStream n st f d).spadLabel = d.spadLabel := rfl
@[simp] theorem setStream_acc (n st : Nat) (f : Stream → Stream) (d : Dev) : (setStream n st f d).acc = d.acc := rfl
@[simp] theorem setStream_seq (n st : Nat) (f : Stream → Stream) (d : Dev) : (setStream n st f d).seq = d.seq := rfl
@[simp] theorem setStream_ctx (n st : Nat) (f : Stream → Stream) (d : Dev) : (setStream n st f d).ctx = d.ctx := rfl
@[simp] theorem setStream_rtab (n st : Nat) (f : Stream → Stream) (d : Dev) : (setStream n st f d).rtab = d.rtab := rfl
@[simp] theorem setStream_img (n st : Nat) (f : Stream → Stream) (d : Dev) : (setStream n st f d).img = d.img := rfl
@[simp] theorem setStream_queue (n st : Nat) (f : Stream → Stream) (d : Dev) : (setStream n st f d).queue = d.queue := rfl
@[simp] theorem setStream_obj (n st : Nat) (f : Stream → Stream) (d : Dev) : (setStream n st f d).obj = d.obj := rfl
@[simp] theorem setStream_cmds (n st : Nat) (f : Stream → Stream) (d : Dev) : (setStream n st f d).cmds = d.cmds := rfl
@[simp] theorem setStream_nextCmd (n st : Nat) (f : Stream → Stream) (d : Dev) : (setStream n st f d).nextCmd = d.nextCmd := rfl
@[simp] theorem setStream_signals (n st : Nat) (f : Stream → Stream) (d : Dev) : (setStream n st f d).signals = d.signals := rfl
@[simp] theorem setStream_core (n st : Nat) (f : Stream → Stream) (d : Dev) : (setStream n st f d).core = d.core := rfl
@[simp] theorem setStream_clu (n st : Nat) (f : Stream → Stream) (d : Dev) : (setStream n st f d).clu = d.clu := rfl
@[simp] theorem setStream_rle (n st : Nat) (f : Stream → Stream) (d : Dev) : (setStream n st f d).rle = d.rle := rfl
@[simp] theorem setStream_xfers (n st : Nat) (f : Stream → Stream) (d : Dev) : (setStream n st f d).xfers = d.xfers := rfl
@[simp] theorem setStream_rly (n st : Nat) (f : Stream → Stream) (d : Dev) : (setStream n st f d).rly = d.rly := rfl
@[simp] theorem setStream_port (n st : Nat) (f : Stream → Stream) (d : Dev) : (setStream n st f d).port = d.port := rfl
@[simp] theorem setStream_group (n st : Nat) (f : Stream → Stream) (d : Dev) : (setStream n st f d).group = d.group := rfl
@[simp] theorem setStream_steps (n st : Nat) (f : Stream → Stream) (d : Dev) : (setStream n st f d).steps = d.steps := rfl
@[simp] theorem setStream_dbgSel (n st : Nat) (f : Stream → Stream) (d : Dev) : (setStream n st f d).dbgSel = d.dbgSel := rfl
@[simp] theorem setStream_out (n st : Nat) (f : Stream → Stream) (d : Dev) : (setStream n st f d).out = d.out := rfl
@[simp] theorem setStream_free (n st : Nat) (f : Stream → Stream) (d : Dev) : (setStream n st f d).free = d.free := rfl

@[simp] theorem getStream_setStream (n st : Nat) (f : Stream → Stream) (d : Dev) : getStream (setStream n st f d) n st = f (getStream d n st) :=
  look_alter_same _ _ _ _

end Sys2Proof.Machine
end

