-- ==== Sys2Proof/Laws/Ops.lean ====
section
/-!
SUPPORT. What each shared operation can do, said once: the guards of a meaning, the report's count, the mailbox, interrupts,
records and command ends, with the fields of the device that each leaves alone.
-/
namespace Sys2Proof.Machine

/-! ## Guards -/

theorem whenLive_live (f : Dev → Dev) (d : Dev) (h : live d = true) : whenLive f d = f d := by simp [whenLive, h]

theorem whenLive_dead (f : Dev → Dev) (d : Dev) (h : live d = false) : whenLive f d = d := by simp [whenLive, h]

theorem settled_live (f : Dev → Dev) (d : Dev) (h : live d = true) : settled f d = settle (f d) := by simp [settled, h]

theorem settled_dead (f : Dev → Dev) (d : Dev) (h : live d = false) : settled f d = d := by simp [settled, h]

theorem onBar_live (f : Dev → Dev) (d : Dev) (h : live d = true) : onBar f d = settle (f d) := by simp [onBar, h]

theorem onBar_dead (f : Dev → Dev) (d : Dev) (h : live d = false) : onBar f d = f d := by simp [onBar, h]

theorem guarded_true (b : Bool) (f : Dev → Dev) (d : Dev) (h : b = true) : guarded b f d = f d := by simp [guarded, h]

theorem guarded_false (b : Bool) (f : Dev → Dev) (d : Dev) (h : b = false) : guarded b f d = d := by simp [guarded, h]

theorem whenBar_answers (f : Fn) (g : Dev → Dev) (d : Dev) (h : barAnswers d f = true) : whenBar f g d = g d := by
  simp [whenBar, h]

theorem whenBar_silent (f : Fn) (g : Dev → Dev) (d : Dev) (h : barAnswers d f = false) : whenBar f g d = d := by
  simp [whenBar, h]

@[simp] theorem whenIssuer_host (f : Fn) (g : Dev → Dev) (d : Dev) : whenIssuer (.host f) g d = whenBar f g d := rfl

@[simp] theorem whenIssuer_porter (g : Dev → Dev) (d : Dev) : whenIssuer .porter g d = whenLive g d := rfl

/-- A BAR answers only in service or in recovery. -/
theorem barAnswers_phase (d : Dev) (f : Fn) (h : barAnswers d f = true) :
    d.pkg.phase = .running ∨ d.pkg.phase = .recovery := by
  simp only [barAnswers, Bool.and_eq_true, Bool.or_eq_true, beq_iff_eq] at h
  exact h.1.1

theorem live_iff (d : Dev) : live d = true ↔ d.pkg.phase = .running := by simp [live]

/-! ## The report's count -/

theorem tracked_congr (f g : Dev → Dev) (d : Dev) (h : f d = g d) : tracked f d = tracked g d := by
  simp [tracked, h]

/-- An operation that changes nothing is not counted. -/
theorem tracked_same (f : Dev → Dev) (d : Dev) (h : f d = d) : tracked f d = d := by simp [tracked, h]

/-- A counted operation moves GENERATION by one or leaves it. -/
theorem tracked_cases (f : Dev → Dev) (d : Dev) : tracked f d = f d ∨ tracked f d = genUp (f d) := by
  unfold tracked; dsimp only; split
  · exact .inl rfl
  · exact .inr rfl

/-! ## The mailbox -/

theorem mailbox_open (op : Nat) (seq : Word) (payload : List Byte) (f : Dev → Served) (d : Dev)
    (h : mailboxOpen d = true) :
    mailbox op seq payload f d =
      match f (mboxTake op seq payload d) with
      | (some (r, answer), d) => mboxEnd r answer d
      | (none, d) => d := by
  simp only [mailboxOpen, Bool.and_eq_true, Bool.not_eq_true', live, beq_iff_eq] at h
  obtain ⟨⟨⟨h1, h2⟩, h3⟩, h4⟩ := h
  simp only [mailbox, h1, h2, h3, h4, Bool.not_true, Bool.false_eq_true, if_false, reduceCtorEq, false_and]
  try rfl

theorem mailbox_served (op : Nat) (seq : Word) (payload : List Byte) (f : Dev → Reason × Dev) (d : Dev)
    (h : mailboxOpen d = true) :
    mailbox op seq payload (fun d => served f d) d =
      mboxEnd (f (mboxTake op seq payload d)).1 [] (f (mboxTake op seq payload d)).2 := by
  rw [mailbox_open _ _ _ _ _ h]; rfl

/-! ## The sequencers -/

/-- With no accepted command and no rally step there is nothing to do at once. -/
theorem settleN_quiet (n : Nat) (d : Dev) (h : d.cmds = []) (h' : d.steps = []) : settleN n d = d := by
  cases n with
  | zero => rfl
  | succ n => simp [settleN, settleStep, h, h']

/-- With no status record due none is written. -/
theorem writeStatuses_quiet (d : Dev) (h : (d.win.filter fun e => e.2.statusDue) = []) : writeStatuses d = d := by
  simp [writeStatuses, h]

theorem settle_quiet (d : Dev) (h : d.cmds = []) (h' : d.steps = []) (h'' : (d.win.filter fun e => e.2.statusDue) = []) :
    settle d = d := by
  unfold settle; split
  · rw [settleN_quiet _ d h h']; exact writeStatuses_quiet d h''
  · rfl

theorem settle_dead (d : Dev) (h : live d = false) : settle d = d := by simp [settle, h]

/-! ## emit -/

@[simp] theorem emit_fuse (x : Out) (d : Dev) : (emit x d).fuse = d.fuse := rfl
@[simp] theorem emit_flash (x : Out) (d : Dev) : (emit x d).flash = d.flash := rfl
@[simp] theorem emit_ret (x : Out) (d : Dev) : (emit x d).ret = d.ret := rfl
@[simp] theorem emit_pkg (x : Out) (d : Dev) : (emit x d).pkg = d.pkg := rfl
@[simp] theorem emit_blk (x : Out) (d : Dev) : (emit x d).blk = d.blk := rfl
@[simp] theorem emit_tck (x : Out) (d : Dev) : (emit x d).tck = d.tck := rfl
@[simp] theorem emit_pwr (x : Out) (d : Dev) : (emit x d).pwr = d.pwr := rfl
@[simp] theorem emit_ptr (x : Out) (d : Dev) : (emit x d).ptr = d.ptr := rfl
@[simp] theorem emit_ump (x : Out) (d : Dev) : (emit x d).ump = d.ump := rfl
@[simp] theorem emit_part (x : Out) (d : Dev) : (emit x d).part = d.part := rfl
@[simp] theorem emit_sht (x : Out) (d : Dev) : (emit x d).sht = d.sht := rfl
@[simp] theorem emit_slot (x : Out) (d : Dev) : (emit x d).slot = d.slot := rfl
@[simp] theorem emit_win (x : Out) (d : Dev) : (emit x d).win = d.win := rfl
@[simp] theorem emit_pool (x : Out) (d : Dev) : (emit x d).pool = d.pool := rfl
@[simp] theorem emit_stack (x : Out) (d : Dev) : (emit x d).stack = d.stack := rfl
@[simp] theorem emit_region (x : Out) (d : Dev) : (emit x d).region = d.region := rfl
@[simp] theorem emit_page (x : Out) (d : Dev) : (emit x d).page = d.page := rfl
@[simp] theorem emit_hbm (x : Out) (d : Dev) : (emit x d).hbm = d.hbm := rfl
@[simp] theorem emit_cas (x : Out) (d : Dev) : (emit x d).cas = d.cas := rfl
@[simp] theorem emit_cmem (x : Out) (d : Dev) : (emit x d).cmem = d.cmem := rfl
@[simp] theorem emit_cmemLabel (x : Out) (d : Dev) : (emit x d).cmemLabel = d.cmemLabel := rfl
@[simp] theorem emit_spad (x : Out) (d : Dev) : (emit x d).spad = d.spad := rfl
@[simp] theorem emit_spadLabel (x : Out) (d : Dev) : (emit x d).spadLabel = d.spadLabel := rfl
@[simp] theorem emit_acc (x : Out) (d : Dev) : (emit x d).acc = d.acc := rfl
@[simp] theorem emit_seq (x : Out) (d : Dev) : (emit x d).seq = d.seq := rfl
@[simp] theorem emit_ctx (x : Out) (d : Dev) : (emit x d).ctx = d.ctx := rfl
@[simp] theorem emit_rtab (x : Out) (d : Dev) : (emit x d).rtab = d.rtab := rfl
@[simp] theorem emit_img (x : Out) (d : Dev) : (emit x d).img = d.img := rfl
@[simp] theorem emit_queue (x : Out) (d : Dev) : (emit x d).queue = d.queue := rfl
@[simp] theorem emit_obj (x : Out) (d : Dev) : (emit x d).obj = d.obj := rfl
@[simp] theorem emit_cmds (x : Out) (d : Dev) : (emit x d).cmds = d.cmds := rfl
@[simp] theorem emit_nextCmd (x : Out) (d : Dev) : (emit x d).nextCmd = d.nextCmd := rfl
@[simp] theorem emit_signals (x : Out) (d : Dev) : (emit x d).signals = d.signals := rfl
@[simp] theorem emit_core (x : Out) (d : Dev) : (emit x d).core = d.core := rfl
@[simp] theorem emit_stream (x : Out) (d : Dev) : (emit x d).stream = d.stream := rfl
@[simp] theorem emit_clu (x : Out) (d : Dev) : (emit x d).clu = d.clu := rfl
@[simp] theorem emit_rle (x : Out) (d : Dev) : (emit x d).rle = d.rle := rfl
@[simp] theorem emit_xfers (x : Out) (d : Dev) : (emit x d).xfers = d.xfers := rfl
@[simp] theorem emit_rly (x : Out) (d : Dev) : (emit x d).rly = d.rly := rfl
@[simp] theorem emit_port (x : Out) (d : Dev) : (emit x d).port = d.port := rfl
@[simp] theorem emit_group (x : Out) (d : Dev) : (emit x d).group = d.group := rfl
@[simp] theorem emit_steps (x : Out) (d : Dev) : (emit x d).steps = d.steps := rfl
@[simp] theorem emit_dbgSel (x : Out) (d : Dev) : (emit x d).dbgSel = d.dbgSel := rfl
@[simp] theorem emit_free (x : Out) (d : Dev) : (emit x d).free = d.free := rfl

/-! ## alert -/

@[simp] theorem alert_fuse (n : Nat) (d : Dev) : (alert n d).fuse = d.fuse := rfl
@[simp] theorem alert_flash (n : Nat) (d : Dev) : (alert n d).flash = d.flash := rfl
@[simp] theorem alert_ret (n : Nat) (d : Dev) : (alert n d).ret = d.ret := rfl
@[simp] theorem alert_pkg (n : Nat) (d : Dev) : (alert n d).pkg = d.pkg := rfl
@[simp] theorem alert_blk (n : Nat) (d : Dev) : (alert n d).blk = d.blk := rfl
@[simp] theorem alert_tck (n : Nat) (d : Dev) : (alert n d).tck = d.tck := rfl
@[simp] theorem alert_pwr (n : Nat) (d : Dev) : (alert n d).pwr = d.pwr := rfl
@[simp] theorem alert_ptr (n : Nat) (d : Dev) : (alert n d).ptr = d.ptr := rfl
@[simp] theorem alert_part (n : Nat) (d : Dev) : (alert n d).part = d.part := rfl
@[simp] theorem alert_sht (n : Nat) (d : Dev) : (alert n d).sht = d.sht := rfl
@[simp] theorem alert_slot (n : Nat) (d : Dev) : (alert n d).slot = d.slot := rfl
@[simp] theorem alert_win (n : Nat) (d : Dev) : (alert n d).win = d.win := rfl
@[simp] theorem alert_pool (n : Nat) (d : Dev) : (alert n d).pool = d.pool := rfl
@[simp] theorem alert_stack (n : Nat) (d : Dev) : (alert n d).stack = d.stack := rfl
@[simp] theorem alert_region (n : Nat) (d : Dev) : (alert n d).region = d.region := rfl
@[simp] theorem alert_page (n : Nat) (d : Dev) : (alert n d).page = d.page := rfl
@[simp] theorem alert_hbm (n : Nat) (d : Dev) : (alert n d).hbm = d.hbm := rfl
@[simp] theorem alert_cas (n : Nat) (d : Dev) : (alert n d).cas = d.cas := rfl
@[simp] theorem alert_cmem (n : Nat) (d : Dev) : (alert n d).cmem = d.cmem := rfl
@[simp] theorem alert_cmemLabel (n : Nat) (d : Dev) : (alert n d).cmemLabel = d.cmemLabel := rfl
@[simp] theorem alert_spad (n : Nat) (d : Dev) : (alert n d).spad = d.spad := rfl
@[simp] theorem alert_spadLabel (n : Nat) (d : Dev) : (alert n d).spadLabel = d.spadLabel := rfl
@[simp] theorem alert_acc (n : Nat) (d : Dev) : (alert n d).acc = d.acc := rfl
@[simp] theorem alert_seq (n : Nat) (d : Dev) : (alert n d).seq = d.seq := rfl
@[simp] theorem alert_ctx (n : Nat) (d : Dev) : (alert n d).ctx = d.ctx := rfl
@[simp] theorem alert_rtab (n : Nat) (d : Dev) : (alert n d).rtab = d.rtab := rfl
@[simp] theorem alert_img (n : Nat) (d : Dev) : (alert n d).img = d.img := rfl
@[simp] theorem alert_queue (n : Nat) (d : Dev) : (alert n d).queue = d.queue := rfl
@[simp] theorem alert_obj (n : Nat) (d : Dev) : (alert n d).obj = d.obj := rfl
@[simp] theorem alert_cmds (n : Nat) (d : Dev) : (alert n d).cmds = d.cmds := rfl
@[simp] theorem alert_nextCmd (n : Nat) (d : Dev) : (alert n d).nextCmd = d.nextCmd := rfl
@[simp] theorem alert_signals (n : Nat) (d : Dev) : (alert n d).signals = d.signals := rfl
@[simp] theorem alert_core (n : Nat) (d : Dev) : (alert n d).core = d.core := rfl
@[simp] theorem alert_stream (n : Nat) (d : Dev) : (alert n d).stream = d.stream := rfl
@[simp] theorem alert_clu (n : Nat) (d : Dev) : (alert n d).clu = d.clu := rfl
@[simp] theorem alert_rle (n : Nat) (d : Dev) : (alert n d).rle = d.rle := rfl
@[simp] theorem alert_xfers (n : Nat) (d : Dev) : (alert n d).xfers = d.xfers := rfl
@[simp] theorem alert_rly (n : Nat) (d : Dev) : (alert n d).rly = d.rly := rfl
@[simp] theorem alert_port (n : Nat) (d : Dev) : (alert n d).port = d.port := rfl
@[simp] theorem alert_group (n : Nat) (d : Dev) : (alert n d).group = d.group := rfl
@[simp] theorem alert_steps (n : Nat) (d : Dev) : (alert n d).steps = d.steps := rfl
@[simp] theorem alert_dbgSel (n : Nat) (d : Dev) : (alert n d).dbgSel = d.dbgSel := rfl
@[simp] theorem alert_out (n : Nat) (d : Dev) : (alert n d).out = d.out := rfl
@[simp] theorem alert_free (n : Nat) (d : Dev) : (alert n d).free = d.free := rfl

/-! ## interrupt -/

@[simp] theorem interrupt_fuse (fn n : Nat) (d : Dev) : (interrupt fn n d).fuse = d.fuse := by unfold interrupt; (repeat' split) <;> rfl
@[simp] theorem interrupt_flash (fn n : Nat) (d : Dev) : (interrupt fn n d).flash = d.flash := by unfold interrupt; (repeat' split) <;> rfl
@[simp] theorem interrupt_ret (fn n : Nat) (d : Dev) : (interrupt fn n d).ret = d.ret := by unfold interrupt; (repeat' split) <;> rfl
@[simp] theorem interrupt_blk (fn n : Nat) (d : Dev) : (interrupt fn n d).blk = d.blk := by unfold interrupt; (repeat' split) <;> rfl
@[simp] theorem interrupt_tck (fn n : Nat) (d : Dev) : (interrupt fn n d).tck = d.tck := by unfold interrupt; (repeat' split) <;> rfl
@[simp] theorem interrupt_pwr (fn n : Nat) (d : Dev) : (interrupt fn n d).pwr = d.pwr := by unfold interrupt; (repeat' split) <;> rfl
@[simp] theorem interrupt_ptr (fn n : Nat) (d : Dev) : (interrupt fn n d).ptr = d.ptr := by unfold interrupt; (repeat' split) <;> rfl
@[simp] theorem interrupt_ump (fn n : Nat) (d : Dev) : (interrupt fn n d).ump = d.ump := by unfold interrupt; (repeat' split) <;> rfl
@[simp] theorem interrupt_part (fn n : Nat) (d : Dev) : (interrupt fn n d).part = d.part := by unfold interrupt; (repeat' split) <;> rfl
@[simp] theorem interrupt_sht (fn n : Nat) (d : Dev) : (interrupt fn n d).sht = d.sht := by unfold interrupt; (repeat' split) <;> rfl
@[simp] theorem interrupt_slot (fn n : Nat) (d : Dev) : (interrupt fn n d).slot = d.slot := by unfold interrupt; (repeat' split) <;> rfl
@[simp] theorem interrupt_win (fn n : Nat) (d : Dev) : (interrupt fn n d).win = d.win := by unfold interrupt; (repeat' split) <;> rfl
@[simp] theorem interrupt_pool (fn n : Nat) (d : Dev) : (interrupt fn n d).pool = d.pool := by unfold interrupt; (repeat' split) <;> rfl
@[simp] theorem interrupt_stack (fn n : Nat) (d : Dev) : (interrupt fn n d).stack = d.stack := by unfold interrupt; (repeat' split) <;> rfl
@[simp] theorem interrupt_region (fn n : Nat) (d : Dev) : (interrupt fn n d).region = d.region := by unfold interrupt; (repeat' split) <;> rfl
@[simp] theorem interrupt_page (fn n : Nat) (d : Dev) : (interrupt fn n d).page = d.page := by unfold interrupt; (repeat' split) <;> rfl
@[simp] theorem interrupt_hbm (fn n : Nat) (d : Dev) : (interrupt fn n d).hbm = d.hbm := by unfold interrupt; (repeat' split) <;> rfl
@[simp] theorem interrupt_cas (fn n : Nat) (d : Dev) : (interrupt fn n d).cas = d.cas := by unfold interrupt; (repeat' split) <;> rfl
@[simp] theorem interrupt_cmem (fn n : Nat) (d : Dev) : (interrupt fn n d).cmem = d.cmem := by unfold interrupt; (repeat' split) <;> rfl
@[simp] theorem interrupt_cmemLabel (fn n : Nat) (d : Dev) : (interrupt fn n d).cmemLabel = d.cmemLabel := by unfold interrupt; (repeat' split) <;> rfl
@[simp] theorem interrupt_spad (fn n : Nat) (d : Dev) : (interrupt fn n d).spad = d.spad := by unfold interrupt; (repeat' split) <;> rfl
@[simp] theorem interrupt_spadLabel (fn n : Nat) (d : Dev) : (interrupt fn n d).spadLabel = d.spadLabel := by unfold interrupt; (repeat' split) <;> rfl
@[simp] theorem interrupt_acc (fn n : Nat) (d : Dev) : (interrupt fn n d).acc = d.acc := by unfold interrupt; (repeat' split) <;> rfl
@[simp] theorem interrupt_seq (fn n : Nat) (d : Dev) : (interrupt fn n d).seq = d.seq := by unfold interrupt; (repeat' split) <;> rfl
@[simp] theorem interrupt_ctx (fn n : Nat) (d : Dev) : (interrupt fn n d).ctx = d.ctx := by unfold interrupt; (repeat' split) <;> rfl
@[simp] theorem interrupt_rtab (fn n : Nat) (d : Dev) : (interrupt fn n d).rtab = d.rtab := by unfold interrupt; (repeat' split) <;> rfl
@[simp] theorem interrupt_img (fn n : Nat) (d : Dev) : (interrupt fn n d).img = d.img := by unfold interrupt; (repeat' split) <;> rfl
@[simp] theorem interrupt_queue (fn n : Nat) (d : Dev) : (interrupt fn n d).queue = d.queue := by unfold interrupt; (repeat' split) <;> rfl
@[simp] theorem interrupt_obj (fn n : Nat) (d : Dev) : (interrupt fn n d).obj = d.obj := by unfold interrupt; (repeat' split) <;> rfl
@[simp] theorem interrupt_cmds (fn n : Nat) (d : Dev) : (interrupt fn n d).cmds = d.cmds := by unfold interrupt; (repeat' split) <;> rfl
@[simp] theorem interrupt_nextCmd (fn n : Nat) (d : Dev) : (interrupt fn n d).nextCmd = d.nextCmd := by unfold interrupt; (repeat' split) <;> rfl
@[simp] theorem interrupt_signals (fn n : Nat) (d : Dev) : (interrupt fn n d).signals = d.signals := by unfold interrupt; (repeat' split) <;> rfl
@[simp] theorem interrupt_core (fn n : Nat) (d : Dev) : (interrupt fn n d).core = d.core := by unfold interrupt; (repeat' split) <;> rfl
@[simp] theorem interrupt_stream (fn n : Nat) (d : Dev) : (interrupt fn n d).stream = d.stream := by unfold interrupt; (repeat' split) <;> rfl
@[simp] theorem interrupt_clu (fn n : Nat) (d : Dev) : (interrupt fn n d).clu = d.clu := by unfold interrupt; (repeat' split) <;> rfl
@[simp] theorem interrupt_rle (fn n : Nat) (d : Dev) : (interrupt fn n d).rle = d.rle := by unfold interrupt; (repeat' split) <;> rfl
@[simp] theorem interrupt_xfers (fn n : Nat) (d : Dev) : (interrupt fn n d).xfers = d.xfers := by unfold interrupt; (repeat' split) <;> rfl
@[simp] theorem interrupt_rly (fn n : Nat) (d : Dev) : (interrupt fn n d).rly = d.rly := by unfold interrupt; (repeat' split) <;> rfl
@[simp] theorem interrupt_port (fn n : Nat) (d : Dev) : (interrupt fn n d).port = d.port := by unfold interrupt; (repeat' split) <;> rfl
@[simp] theorem interrupt_group (fn n : Nat) (d : Dev) : (interrupt fn n d).group = d.group := by unfold interrupt; (repeat' split) <;> rfl
@[simp] theorem interrupt_steps (fn n : Nat) (d : Dev) : (interrupt fn n d).steps = d.steps := by unfold interrupt; (repeat' split) <;> rfl
@[simp] theorem interrupt_dbgSel (fn n : Nat) (d : Dev) : (interrupt fn n d).dbgSel = d.dbgSel := by unfold interrupt; (repeat' split) <;> rfl
@[simp] theorem interrupt_free (fn n : Nat) (d : Dev) : (interrupt fn n d).free = d.free := by unfold interrupt; (repeat' split) <;> rfl

/-! ## readyChanged -/

@[simp] theorem readyChanged_fuse (d : Dev) : (readyChanged d).fuse = d.fuse := by simp [readyChanged]
@[simp] theorem readyChanged_flash (d : Dev) : (readyChanged d).flash = d.flash := by simp [readyChanged]
@[simp] theorem readyChanged_ret (d : Dev) : (readyChanged d).ret = d.ret := by simp [readyChanged]
@[simp] theorem readyChanged_blk (d : Dev) : (readyChanged d).blk = d.blk := by simp [readyChanged]
@[simp] theorem readyChanged_tck (d : Dev) : (readyChanged d).tck = d.tck := by simp [readyChanged]
@[simp] theorem readyChanged_pwr (d : Dev) : (readyChanged d).pwr = d.pwr := by simp [readyChanged]
@[simp] theorem readyChanged_ptr (d : Dev) : (readyChanged d).ptr = d.ptr := by simp [readyChanged]
@[simp] theorem readyChanged_ump (d : Dev) : (readyChanged d).ump = d.ump := by simp [readyChanged]
@[simp] theorem readyChanged_part (d : Dev) : (readyChanged d).part = d.part := by simp [readyChanged]
@[simp] theorem readyChanged_sht (d : Dev) : (readyChanged d).sht = d.sht := by simp [readyChanged]
@[simp] theorem readyChanged_slot (d : Dev) : (readyChanged d).slot = d.slot := by simp [readyChanged]
@[simp] theorem readyChanged_win (d : Dev) : (readyChanged d).win = d.win := by simp [readyChanged]
@[simp] theorem readyChanged_pool (d : Dev) : (readyChanged d).pool = d.pool := by simp [readyChanged]
@[simp] theorem readyChanged_stack (d : Dev) : (readyChanged d).stack = d.stack := by simp [readyChanged]
@[simp] theorem readyChanged_region (d : Dev) : (readyChanged d).region = d.region := by simp [readyChanged]
@[simp] theorem readyChanged_page (d : Dev) : (readyChanged d).page = d.page := by simp [readyChanged]
@[simp] theorem readyChanged_hbm (d : Dev) : (readyChanged d).hbm = d.hbm := by simp [readyChanged]
@[simp] theorem readyChanged_cas (d : Dev) : (readyChanged d).cas = d.cas := by simp [readyChanged]
@[simp] theorem readyChanged_cmem (d : Dev) : (readyChanged d).cmem = d.cmem := by simp [readyChanged]
@[simp] theorem readyChanged_cmemLabel (d : Dev) : (readyChanged d).cmemLabel = d.cmemLabel := by simp [readyChanged]
@[simp] theorem readyChanged_spad (d : Dev) : (readyChanged d).spad = d.spad := by simp [readyChanged]
@[simp] theorem readyChanged_spadLabel (d : Dev) : (readyChanged d).spadLabel = d.spadLabel := by simp [readyChanged]
@[simp] theorem readyChanged_acc (d : Dev) : (readyChanged d).acc = d.acc := by simp [readyChanged]
@[simp] theorem readyChanged_seq (d : Dev) : (readyChanged d).seq = d.seq := by simp [readyChanged]
@[simp] theorem readyChanged_ctx (d : Dev) : (readyChanged d).ctx = d.ctx := by simp [readyChanged]
@[simp] theorem readyChanged_rtab (d : Dev) : (readyChanged d).rtab = d.rtab := by simp [readyChanged]
@[simp] theorem readyChanged_img (d : Dev) : (readyChanged d).img = d.img := by simp [readyChanged]
@[simp] theorem readyChanged_queue (d : Dev) : (readyChanged d).queue = d.queue := by simp [readyChanged]
@[simp] theorem readyChanged_obj (d : Dev) : (readyChanged d).obj = d.obj := by simp [readyChanged]
@[simp] theorem readyChanged_cmds (d : Dev) : (readyChanged d).cmds = d.cmds := by simp [readyChanged]
@[simp] theorem readyChanged_nextCmd (d : Dev) : (readyChanged d).nextCmd = d.nextCmd := by simp [readyChanged]
@[simp] theorem readyChanged_signals (d : Dev) : (readyChanged d).signals = d.signals := by simp [readyChanged]
@[simp] theorem readyChanged_core (d : Dev) : (readyChanged d).core = d.core := by simp [readyChanged]
@[simp] theorem readyChanged_stream (d : Dev) : (readyChanged d).stream = d.stream := by simp [readyChanged]
@[simp] theorem readyChanged_clu (d : Dev) : (readyChanged d).clu = d.clu := by simp [readyChanged]
@[simp] theorem readyChanged_rle (d : Dev) : (readyChanged d).rle = d.rle := by simp [readyChanged]
@[simp] theorem readyChanged_xfers (d : Dev) : (readyChanged d).xfers = d.xfers := by simp [readyChanged]
@[simp] theorem readyChanged_rly (d : Dev) : (readyChanged d).rly = d.rly := by simp [readyChanged]
@[simp] theorem readyChanged_port (d : Dev) : (readyChanged d).port = d.port := by simp [readyChanged]
@[simp] theorem readyChanged_group (d : Dev) : (readyChanged d).group = d.group := by simp [readyChanged]
@[simp] theorem readyChanged_steps (d : Dev) : (readyChanged d).steps = d.steps := by simp [readyChanged]
@[simp] theorem readyChanged_dbgSel (d : Dev) : (readyChanged d).dbgSel = d.dbgSel := by simp [readyChanged]
@[simp] theorem readyChanged_free (d : Dev) : (readyChanged d).free = d.free := by simp [readyChanged]

/-! ## partChanged -/

@[simp] theorem partChanged_fuse (v : Nat) (d : Dev) : (partChanged v d).fuse = d.fuse := by simp [partChanged]
@[simp] theorem partChanged_flash (v : Nat) (d : Dev) : (partChanged v d).flash = d.flash := by simp [partChanged]
@[simp] theorem partChanged_ret (v : Nat) (d : Dev) : (partChanged v d).ret = d.ret := by simp [partChanged]
@[simp] theorem partChanged_blk (v : Nat) (d : Dev) : (partChanged v d).blk = d.blk := by simp [partChanged]
@[simp] theorem partChanged_tck (v : Nat) (d : Dev) : (partChanged v d).tck = d.tck := by simp [partChanged]
@[simp] theorem partChanged_pwr (v : Nat) (d : Dev) : (partChanged v d).pwr = d.pwr := by simp [partChanged]
@[simp] theorem partChanged_ptr (v : Nat) (d : Dev) : (partChanged v d).ptr = d.ptr := by simp [partChanged]
@[simp] theorem partChanged_ump (v : Nat) (d : Dev) : (partChanged v d).ump = d.ump := by simp [partChanged]
@[simp] theorem partChanged_part (v : Nat) (d : Dev) : (partChanged v d).part = d.part := by simp [partChanged]
@[simp] theorem partChanged_sht (v : Nat) (d : Dev) : (partChanged v d).sht = d.sht := by simp [partChanged]
@[simp] theorem partChanged_slot (v : Nat) (d : Dev) : (partChanged v d).slot = d.slot := by simp [partChanged]
@[simp] theorem partChanged_win (v : Nat) (d : Dev) : (partChanged v d).win = d.win := by simp [partChanged]
@[simp] theorem partChanged_pool (v : Nat) (d : Dev) : (partChanged v d).pool = d.pool := by simp [partChanged]
@[simp] theorem partChanged_stack (v : Nat) (d : Dev) : (partChanged v d).stack = d.stack := by simp [partChanged]
@[simp] theorem partChanged_region (v : Nat) (d : Dev) : (partChanged v d).region = d.region := by simp [partChanged]
@[simp] theorem partChanged_page (v : Nat) (d : Dev) : (partChanged v d).page = d.page := by simp [partChanged]
@[simp] theorem partChanged_hbm (v : Nat) (d : Dev) : (partChanged v d).hbm = d.hbm := by simp [partChanged]
@[simp] theorem partChanged_cas (v : Nat) (d : Dev) : (partChanged v d).cas = d.cas := by simp [partChanged]
@[simp] theorem partChanged_cmem (v : Nat) (d : Dev) : (partChanged v d).cmem = d.cmem := by simp [partChanged]
@[simp] theorem partChanged_cmemLabel (v : Nat) (d : Dev) : (partChanged v d).cmemLabel = d.cmemLabel := by simp [partChanged]
@[simp] theorem partChanged_spad (v : Nat) (d : Dev) : (partChanged v d).spad = d.spad := by simp [partChanged]
@[simp] theorem partChanged_spadLabel (v : Nat) (d : Dev) : (partChanged v d).spadLabel = d.spadLabel := by simp [partChanged]
@[simp] theorem partChanged_acc (v : Nat) (d : Dev) : (partChanged v d).acc = d.acc := by simp [partChanged]
@[simp] theorem partChanged_seq (v : Nat) (d : Dev) : (partChanged v d).seq = d.seq := by simp [partChanged]
@[simp] theorem partChanged_ctx (v : Nat) (d : Dev) : (partChanged v d).ctx = d.ctx := by simp [partChanged]
@[simp] theorem partChanged_rtab (v : Nat) (d : Dev) : (partChanged v d).rtab = d.rtab := by simp [partChanged]
@[simp] theorem partChanged_img (v : Nat) (d : Dev) : (partChanged v d).img = d.img := by simp [partChanged]
@[simp] theorem partChanged_queue (v : Nat) (d : Dev) : (partChanged v d).queue = d.queue := by simp [partChanged]
@[simp] theorem partChanged_obj (v : Nat) (d : Dev) : (partChanged v d).obj = d.obj := by simp [partChanged]
@[simp] theorem partChanged_cmds (v : Nat) (d : Dev) : (partChanged v d).cmds = d.cmds := by simp [partChanged]
@[simp] theorem partChanged_nextCmd (v : Nat) (d : Dev) : (partChanged v d).nextCmd = d.nextCmd := by simp [partChanged]
@[simp] theorem partChanged_signals (v : Nat) (d : Dev) : (partChanged v d).signals = d.signals := by simp [partChanged]
@[simp] theorem partChanged_core (v : Nat) (d : Dev) : (partChanged v d).core = d.core := by simp [partChanged]
@[simp] theorem partChanged_stream (v : Nat) (d : Dev) : (partChanged v d).stream = d.stream := by simp [partChanged]
@[simp] theorem partChanged_clu (v : Nat) (d : Dev) : (partChanged v d).clu = d.clu := by simp [partChanged]
@[simp] theorem partChanged_rle (v : Nat) (d : Dev) : (partChanged v d).rle = d.rle := by simp [partChanged]
@[simp] theorem partChanged_xfers (v : Nat) (d : Dev) : (partChanged v d).xfers = d.xfers := by simp [partChanged]
@[simp] theorem partChanged_rly (v : Nat) (d : Dev) : (partChanged v d).rly = d.rly := by simp [partChanged]
@[simp] theorem partChanged_port (v : Nat) (d : Dev) : (partChanged v d).port = d.port := by simp [partChanged]
@[simp] theorem partChanged_group (v : Nat) (d : Dev) : (partChanged v d).group = d.group := by simp [partChanged]
@[simp] theorem partChanged_steps (v : Nat) (d : Dev) : (partChanged v d).steps = d.steps := by simp [partChanged]
@[simp] theorem partChanged_dbgSel (v : Nat) (d : Dev) : (partChanged v d).dbgSel = d.dbgSel := by simp [partChanged]
@[simp] theorem partChanged_free (v : Nat) (d : Dev) : (partChanged v d).free = d.free := by simp [partChanged]

/-! ## dropLog -/

@[simp] theorem dropLog_fuse (f : Fn) (r : Reason) (i a : Nat) (w : Bool) (d : Dev) : (dropLog f r i a w d).fuse = d.fuse := rfl
@[simp] theorem dropLog_flash (f : Fn) (r : Reason) (i a : Nat) (w : Bool) (d : Dev) : (dropLog f r i a w d).flash = d.flash := rfl
@[simp] theorem dropLog_ret (f : Fn) (r : Reason) (i a : Nat) (w : Bool) (d : Dev) : (dropLog f r i a w d).ret = d.ret := rfl
@[simp] theorem dropLog_blk (f : Fn) (r : Reason) (i a : Nat) (w : Bool) (d : Dev) : (dropLog f r i a w d).blk = d.blk := rfl
@[simp] theorem dropLog_tck (f : Fn) (r : Reason) (i a : Nat) (w : Bool) (d : Dev) : (dropLog f r i a w d).tck = d.tck := rfl
@[simp] theorem dropLog_pwr (f : Fn) (r : Reason) (i a : Nat) (w : Bool) (d : Dev) : (dropLog f r i a w d).pwr = d.pwr := rfl
@[simp] theorem dropLog_ptr (f : Fn) (r : Reason) (i a : Nat) (w : Bool) (d : Dev) : (dropLog f r i a w d).ptr = d.ptr := rfl
@[simp] theorem dropLog_ump (f : Fn) (r : Reason) (i a : Nat) (w : Bool) (d : Dev) : (dropLog f r i a w d).ump = d.ump := rfl
@[simp] theorem dropLog_part (f : Fn) (r : Reason) (i a : Nat) (w : Bool) (d : Dev) : (dropLog f r i a w d).part = d.part := rfl
@[simp] theorem dropLog_sht (f : Fn) (r : Reason) (i a : Nat) (w : Bool) (d : Dev) : (dropLog f r i a w d).sht = d.sht := rfl
@[simp] theorem dropLog_slot (f : Fn) (r : Reason) (i a : Nat) (w : Bool) (d : Dev) : (dropLog f r i a w d).slot = d.slot := rfl
@[simp] theorem dropLog_win (f : Fn) (r : Reason) (i a : Nat) (w : Bool) (d : Dev) : (dropLog f r i a w d).win = d.win := rfl
@[simp] theorem dropLog_pool (f : Fn) (r : Reason) (i a : Nat) (w : Bool) (d : Dev) : (dropLog f r i a w d).pool = d.pool := rfl
@[simp] theorem dropLog_stack (f : Fn) (r : Reason) (i a : Nat) (w : Bool) (d : Dev) : (dropLog f r i a w d).stack = d.stack := rfl
@[simp] theorem dropLog_region (f : Fn) (r : Reason) (i a : Nat) (w : Bool) (d : Dev) : (dropLog f r i a w d).region = d.region := rfl
@[simp] theorem dropLog_page (f : Fn) (r : Reason) (i a : Nat) (w : Bool) (d : Dev) : (dropLog f r i a w d).page = d.page := rfl
@[simp] theorem dropLog_hbm (f : Fn) (r : Reason) (i a : Nat) (w : Bool) (d : Dev) : (dropLog f r i a w d).hbm = d.hbm := rfl
@[simp] theorem dropLog_cas (f : Fn) (r : Reason) (i a : Nat) (w : Bool) (d : Dev) : (dropLog f r i a w d).cas = d.cas := rfl
@[simp] theorem dropLog_cmem (f : Fn) (r : Reason) (i a : Nat) (w : Bool) (d : Dev) : (dropLog f r i a w d).cmem = d.cmem := rfl
@[simp] theorem dropLog_cmemLabel (f : Fn) (r : Reason) (i a : Nat) (w : Bool) (d : Dev) : (dropLog f r i a w d).cmemLabel = d.cmemLabel := rfl
@[simp] theorem dropLog_spad (f : Fn) (r : Reason) (i a : Nat) (w : Bool) (d : Dev) : (dropLog f r i a w d).spad = d.spad := rfl
@[simp] theorem dropLog_spadLabel (f : Fn) (r : Reason) (i a : Nat) (w : Bool) (d : Dev) : (dropLog f r i a w d).spadLabel = d.spadLabel := rfl
@[simp] theorem dropLog_acc (f : Fn) (r : Reason) (i a : Nat) (w : Bool) (d : Dev) : (dropLog f r i a w d).acc = d.acc := rfl
@[simp] theorem dropLog_seq (f : Fn) (r : Reason) (i a : Nat) (w : Bool) (d : Dev) : (dropLog f r i a w d).seq = d.seq := rfl
@[simp] theorem dropLog_ctx (f : Fn) (r : Reason) (i a : Nat) (w : Bool) (d : Dev) : (dropLog f r i a w d).ctx = d.ctx := rfl
@[simp] theorem dropLog_rtab (f : Fn) (r : Reason) (i a : Nat) (w : Bool) (d : Dev) : (dropLog f r i a w d).rtab = d.rtab := rfl
@[simp] theorem dropLog_img (f : Fn) (r : Reason) (i a : Nat) (w : Bool) (d : Dev) : (dropLog f r i a w d).img = d.img := rfl
@[simp] theorem dropLog_queue (f : Fn) (r : Reason) (i a : Nat) (w : Bool) (d : Dev) : (dropLog f r i a w d).queue = d.queue := rfl
@[simp] theorem dropLog_obj (f : Fn) (r : Reason) (i a : Nat) (w : Bool) (d : Dev) : (dropLog f r i a w d).obj = d.obj := rfl
@[simp] theorem dropLog_cmds (f : Fn) (r : Reason) (i a : Nat) (w : Bool) (d : Dev) : (dropLog f r i a w d).cmds = d.cmds := rfl
@[simp] theorem dropLog_nextCmd (f : Fn) (r : Reason) (i a : Nat) (w : Bool) (d : Dev) : (dropLog f r i a w d).nextCmd = d.nextCmd := rfl
@[simp] theorem dropLog_signals (f : Fn) (r : Reason) (i a : Nat) (w : Bool) (d : Dev) : (dropLog f r i a w d).signals = d.signals := rfl
@[simp] theorem dropLog_core (f : Fn) (r : Reason) (i a : Nat) (w : Bool) (d : Dev) : (dropLog f r i a w d).core = d.core := rfl
@[simp] theorem dropLog_stream (f : Fn) (r : Reason) (i a : Nat) (w : Bool) (d : Dev) : (dropLog f r i a w d).stream = d.stream := rfl
@[simp] theorem dropLog_clu (f : Fn) (r : Reason) (i a : Nat) (w : Bool) (d : Dev) : (dropLog f r i a w d).clu = d.clu := rfl
@[simp] theorem dropLog_rle (f : Fn) (r : Reason) (i a : Nat) (w : Bool) (d : Dev) : (dropLog f r i a w d).rle = d.rle := rfl
@[simp] theorem dropLog_xfers (f : Fn) (r : Reason) (i a : Nat) (w : Bool) (d : Dev) : (dropLog f r i a w d).xfers = d.xfers := rfl
@[simp] theorem dropLog_rly (f : Fn) (r : Reason) (i a : Nat) (w : Bool) (d : Dev) : (dropLog f r i a w d).rly = d.rly := rfl
@[simp] theorem dropLog_port (f : Fn) (r : Reason) (i a : Nat) (w : Bool) (d : Dev) : (dropLog f r i a w d).port = d.port := rfl
@[simp] theorem dropLog_group (f : Fn) (r : Reason) (i a : Nat) (w : Bool) (d : Dev) : (dropLog f r i a w d).group = d.group := rfl
@[simp] theorem dropLog_steps (f : Fn) (r : Reason) (i a : Nat) (w : Bool) (d : Dev) : (dropLog f r i a w d).steps = d.steps := rfl
@[simp] theorem dropLog_dbgSel (f : Fn) (r : Reason) (i a : Nat) (w : Bool) (d : Dev) : (dropLog f r i a w d).dbgSel = d.dbgSel := rfl
@[simp] theorem dropLog_out (f : Fn) (r : Reason) (i a : Nat) (w : Bool) (d : Dev) : (dropLog f r i a w d).out = d.out := rfl
@[simp] theorem dropLog_free (f : Fn) (r : Reason) (i a : Nat) (w : Bool) (d : Dev) : (dropLog f r i a w d).free = d.free := rfl

/-! ## recordPf -/

@[simp] theorem recordPf_fuse (r : FaultRec) (d : Dev) : (recordPf r d).fuse = d.fuse := by simp [recordPf]
@[simp] theorem recordPf_flash (r : FaultRec) (d : Dev) : (recordPf r d).flash = d.flash := by simp [recordPf]
@[simp] theorem recordPf_blk (r : FaultRec) (d : Dev) : (recordPf r d).blk = d.blk := by simp [recordPf]
@[simp] theorem recordPf_tck (r : FaultRec) (d : Dev) : (recordPf r d).tck = d.tck := by simp [recordPf]
@[simp] theorem recordPf_pwr (r : FaultRec) (d : Dev) : (recordPf r d).pwr = d.pwr := by simp [recordPf]
@[simp] theorem recordPf_ptr (r : FaultRec) (d : Dev) : (recordPf r d).ptr = d.ptr := by simp [recordPf]
@[simp] theorem recordPf_part (r : FaultRec) (d : Dev) : (recordPf r d).part = d.part := by simp [recordPf]
@[simp] theorem recordPf_sht (r : FaultRec) (d : Dev) : (recordPf r d).sht = d.sht := by simp [recordPf]
@[simp] theorem recordPf_slot (r : FaultRec) (d : Dev) : (recordPf r d).slot = d.slot := by simp [recordPf]
@[simp] theorem recordPf_win (r : FaultRec) (d : Dev) : (recordPf r d).win = d.win := by simp [recordPf]
@[simp] theorem recordPf_pool (r : FaultRec) (d : Dev) : (recordPf r d).pool = d.pool := by simp [recordPf]
@[simp] theorem recordPf_stack (r : FaultRec) (d : Dev) : (recordPf r d).stack = d.stack := by simp [recordPf]
@[simp] theorem recordPf_region (r : FaultRec) (d : Dev) : (recordPf r d).region = d.region := by simp [recordPf]
@[simp] theorem recordPf_page (r : FaultRec) (d : Dev) : (recordPf r d).page = d.page := by simp [recordPf]
@[simp] theorem recordPf_hbm (r : FaultRec) (d : Dev) : (recordPf r d).hbm = d.hbm := by simp [recordPf]
@[simp] theorem recordPf_cas (r : FaultRec) (d : Dev) : (recordPf r d).cas = d.cas := by simp [recordPf]
@[simp] theorem recordPf_cmem (r : FaultRec) (d : Dev) : (recordPf r d).cmem = d.cmem := by simp [recordPf]
@[simp] theorem recordPf_cmemLabel (r : FaultRec) (d : Dev) : (recordPf r d).cmemLabel = d.cmemLabel := by simp [recordPf]
@[simp] theorem recordPf_spad (r : FaultRec) (d : Dev) : (recordPf r d).spad = d.spad := by simp [recordPf]
@[simp] theorem recordPf_spadLabel (r : FaultRec) (d : Dev) : (recordPf r d).spadLabel = d.spadLabel := by simp [recordPf]
@[simp] theorem recordPf_acc (r : FaultRec) (d : Dev) : (recordPf r d).acc = d.acc := by simp [recordPf]
@[simp] theorem recordPf_seq (r : FaultRec) (d : Dev) : (recordPf r d).seq = d.seq := by simp [recordPf]
@[simp] theorem recordPf_ctx (r : FaultRec) (d : Dev) : (recordPf r d).ctx = d.ctx := by simp [recordPf]
@[simp] theorem recordPf_rtab (r : FaultRec) (d : Dev) : (recordPf r d).rtab = d.rtab := by simp [recordPf]
@[simp] theorem recordPf_img (r : FaultRec) (d : Dev) : (recordPf r d).img = d.img := by simp [recordPf]
@[simp] theorem recordPf_queue (r : FaultRec) (d : Dev) : (recordPf r d).queue = d.queue := by simp [recordPf]
@[simp] theorem recordPf_obj (r : FaultRec) (d : Dev) : (recordPf r d).obj = d.obj := by simp [recordPf]
@[simp] theorem recordPf_cmds (r : FaultRec) (d : Dev) : (recordPf r d).cmds = d.cmds := by simp [recordPf]
@[simp] theorem recordPf_nextCmd (r : FaultRec) (d : Dev) : (recordPf r d).nextCmd = d.nextCmd := by simp [recordPf]
@[simp] theorem recordPf_signals (r : FaultRec) (d : Dev) : (recordPf r d).signals = d.signals := by simp [recordPf]
@[simp] theorem recordPf_core (r : FaultRec) (d : Dev) : (recordPf r d).core = d.core := by simp [recordPf]
@[simp] theorem recordPf_stream (r : FaultRec) (d : Dev) : (recordPf r d).stream = d.stream := by simp [recordPf]
@[simp] theorem recordPf_clu (r : FaultRec) (d : Dev) : (recordPf r d).clu = d.clu := by simp [recordPf]
@[simp] theorem recordPf_rle (r : FaultRec) (d : Dev) : (recordPf r d).rle = d.rle := by simp [recordPf]
@[simp] theorem recordPf_xfers (r : FaultRec) (d : Dev) : (recordPf r d).xfers = d.xfers := by simp [recordPf]
@[simp] theorem recordPf_rly (r : FaultRec) (d : Dev) : (recordPf r d).rly = d.rly := by simp [recordPf]
@[simp] theorem recordPf_port (r : FaultRec) (d : Dev) : (recordPf r d).port = d.port := by simp [recordPf]
@[simp] theorem recordPf_group (r : FaultRec) (d : Dev) : (recordPf r d).group = d.group := by simp [recordPf]
@[simp] theorem recordPf_steps (r : FaultRec) (d : Dev) : (recordPf r d).steps = d.steps := by simp [recordPf]
@[simp] theorem recordPf_dbgSel (r : FaultRec) (d : Dev) : (recordPf r d).dbgSel = d.dbgSel := by simp [recordPf]
@[simp] theorem recordPf_free (r : FaultRec) (d : Dev) : (recordPf r d).free = d.free := by simp [recordPf]

/-! ## recordVf -/

@[simp] theorem recordVf_fuse (r : FaultRec) (v : Nat) (d : Dev) : (recordVf r v d).fuse = d.fuse := by simp [recordVf]
@[simp] theorem recordVf_flash (r : FaultRec) (v : Nat) (d : Dev) : (recordVf r v d).flash = d.flash := by simp [recordVf]
@[simp] theorem recordVf_ret (r : FaultRec) (v : Nat) (d : Dev) : (recordVf r v d).ret = d.ret := by simp [recordVf]
@[simp] theorem recordVf_blk (r : FaultRec) (v : Nat) (d : Dev) : (recordVf r v d).blk = d.blk := by simp [recordVf]
@[simp] theorem recordVf_tck (r : FaultRec) (v : Nat) (d : Dev) : (recordVf r v d).tck = d.tck := by simp [recordVf]
@[simp] theorem recordVf_pwr (r : FaultRec) (v : Nat) (d : Dev) : (recordVf r v d).pwr = d.pwr := by simp [recordVf]
@[simp] theorem recordVf_ptr (r : FaultRec) (v : Nat) (d : Dev) : (recordVf r v d).ptr = d.ptr := by simp [recordVf]
@[simp] theorem recordVf_part (r : FaultRec) (v : Nat) (d : Dev) : (recordVf r v d).part = d.part := by simp [recordVf]
@[simp] theorem recordVf_sht (r : FaultRec) (v : Nat) (d : Dev) : (recordVf r v d).sht = d.sht := by simp [recordVf]
@[simp] theorem recordVf_slot (r : FaultRec) (v : Nat) (d : Dev) : (recordVf r v d).slot = d.slot := by simp [recordVf]
@[simp] theorem recordVf_win (r : FaultRec) (v : Nat) (d : Dev) : (recordVf r v d).win = d.win := by simp [recordVf]
@[simp] theorem recordVf_pool (r : FaultRec) (v : Nat) (d : Dev) : (recordVf r v d).pool = d.pool := by simp [recordVf]
@[simp] theorem recordVf_stack (r : FaultRec) (v : Nat) (d : Dev) : (recordVf r v d).stack = d.stack := by simp [recordVf]
@[simp] theorem recordVf_region (r : FaultRec) (v : Nat) (d : Dev) : (recordVf r v d).region = d.region := by simp [recordVf]
@[simp] theorem recordVf_page (r : FaultRec) (v : Nat) (d : Dev) : (recordVf r v d).page = d.page := by simp [recordVf]
@[simp] theorem recordVf_hbm (r : FaultRec) (v : Nat) (d : Dev) : (recordVf r v d).hbm = d.hbm := by simp [recordVf]
@[simp] theorem recordVf_cas (r : FaultRec) (v : Nat) (d : Dev) : (recordVf r v d).cas = d.cas := by simp [recordVf]
@[simp] theorem recordVf_cmem (r : FaultRec) (v : Nat) (d : Dev) : (recordVf r v d).cmem = d.cmem := by simp [recordVf]
@[simp] theorem recordVf_cmemLabel (r : FaultRec) (v : Nat) (d : Dev) : (recordVf r v d).cmemLabel = d.cmemLabel := by simp [recordVf]
@[simp] theorem recordVf_spad (r : FaultRec) (v : Nat) (d : Dev) : (recordVf r v d).spad = d.spad := by simp [recordVf]
@[simp] theorem recordVf_spadLabel (r : FaultRec) (v : Nat) (d : Dev) : (recordVf r v d).spadLabel = d.spadLabel := by simp [recordVf]
@[simp] theorem recordVf_acc (r : FaultRec) (v : Nat) (d : Dev) : (recordVf r v d).acc = d.acc := by simp [recordVf]
@[simp] theorem recordVf_seq (r : FaultRec) (v : Nat) (d : Dev) : (recordVf r v d).seq = d.seq := by simp [recordVf]
@[simp] theorem recordVf_ctx (r : FaultRec) (v : Nat) (d : Dev) : (recordVf r v d).ctx = d.ctx := by simp [recordVf]
@[simp] theorem recordVf_rtab (r : FaultRec) (v : Nat) (d : Dev) : (recordVf r v d).rtab = d.rtab := by simp [recordVf]
@[simp] theorem recordVf_img (r : FaultRec) (v : Nat) (d : Dev) : (recordVf r v d).img = d.img := by simp [recordVf]
@[simp] theorem recordVf_queue (r : FaultRec) (v : Nat) (d : Dev) : (recordVf r v d).queue = d.queue := by simp [recordVf]
@[simp] theorem recordVf_obj (r : FaultRec) (v : Nat) (d : Dev) : (recordVf r v d).obj = d.obj := by simp [recordVf]
@[simp] theorem recordVf_cmds (r : FaultRec) (v : Nat) (d : Dev) : (recordVf r v d).cmds = d.cmds := by simp [recordVf]
@[simp] theorem recordVf_nextCmd (r : FaultRec) (v : Nat) (d : Dev) : (recordVf r v d).nextCmd = d.nextCmd := by simp [recordVf]
@[simp] theorem recordVf_signals (r : FaultRec) (v : Nat) (d : Dev) : (recordVf r v d).signals = d.signals := by simp [recordVf]
@[simp] theorem recordVf_core (r : FaultRec) (v : Nat) (d : Dev) : (recordVf r v d).core = d.core := by simp [recordVf]
@[simp] theorem recordVf_stream (r : FaultRec) (v : Nat) (d : Dev) : (recordVf r v d).stream = d.stream := by simp [recordVf]
@[simp] theorem recordVf_clu (r : FaultRec) (v : Nat) (d : Dev) : (recordVf r v d).clu = d.clu := by simp [recordVf]
@[simp] theorem recordVf_rle (r : FaultRec) (v : Nat) (d : Dev) : (recordVf r v d).rle = d.rle := by simp [recordVf]
@[simp] theorem recordVf_xfers (r : FaultRec) (v : Nat) (d : Dev) : (recordVf r v d).xfers = d.xfers := by simp [recordVf]
@[simp] theorem recordVf_rly (r : FaultRec) (v : Nat) (d : Dev) : (recordVf r v d).rly = d.rly := by simp [recordVf]
@[simp] theorem recordVf_port (r : FaultRec) (v : Nat) (d : Dev) : (recordVf r v d).port = d.port := by simp [recordVf]
@[simp] theorem recordVf_group (r : FaultRec) (v : Nat) (d : Dev) : (recordVf r v d).group = d.group := by simp [recordVf]
@[simp] theorem recordVf_steps (r : FaultRec) (v : Nat) (d : Dev) : (recordVf r v d).steps = d.steps := by simp [recordVf]
@[simp] theorem recordVf_dbgSel (r : FaultRec) (v : Nat) (d : Dev) : (recordVf r v d).dbgSel = d.dbgSel := by simp [recordVf]
@[simp] theorem recordVf_free (r : FaultRec) (v : Nat) (d : Dev) : (recordVf r v d).free = d.free := by simp [recordVf]

/-! ## record -/

@[simp] theorem record_fuse (r : FaultRec) (b : Bool) (d : Dev) : (record r b d).fuse = d.fuse := by
  unfold record; split
  · rfl
  · dsimp only; split <;> simp
@[simp] theorem record_flash (r : FaultRec) (b : Bool) (d : Dev) : (record r b d).flash = d.flash := by
  unfold record; split
  · rfl
  · dsimp only; split <;> simp
@[simp] theorem record_blk (r : FaultRec) (b : Bool) (d : Dev) : (record r b d).blk = d.blk := by
  unfold record; split
  · rfl
  · dsimp only; split <;> simp
@[simp] theorem record_tck (r : FaultRec) (b : Bool) (d : Dev) : (record r b d).tck = d.tck := by
  unfold record; split
  · rfl
  · dsimp only; split <;> simp
@[simp] theorem record_pwr (r : FaultRec) (b : Bool) (d : Dev) : (record r b d).pwr = d.pwr := by
  unfold record; split
  · rfl
  · dsimp only; split <;> simp
@[simp] theorem record_ptr (r : FaultRec) (b : Bool) (d : Dev) : (record r b d).ptr = d.ptr := by
  unfold record; split
  · rfl
  · dsimp only; split <;> simp
@[simp] theorem record_part (r : FaultRec) (b : Bool) (d : Dev) : (record r b d).part = d.part := by
  unfold record; split
  · rfl
  · dsimp only; split <;> simp
@[simp] theorem record_sht (r : FaultRec) (b : Bool) (d : Dev) : (record r b d).sht = d.sht := by
  unfold record; split
  · rfl
  · dsimp only; split <;> simp
@[simp] theorem record_slot (r : FaultRec) (b : Bool) (d : Dev) : (record r b d).slot = d.slot := by
  unfold record; split
  · rfl
  · dsimp only; split <;> simp
@[simp] theorem record_win (r : FaultRec) (b : Bool) (d : Dev) : (record r b d).win = d.win := by
  unfold record; split
  · rfl
  · dsimp only; split <;> simp
@[simp] theorem record_pool (r : FaultRec) (b : Bool) (d : Dev) : (record r b d).pool = d.pool := by
  unfold record; split
  · rfl
  · dsimp only; split <;> simp
@[simp] theorem record_stack (r : FaultRec) (b : Bool) (d : Dev) : (record r b d).stack = d.stack := by
  unfold record; split
  · rfl
  · dsimp only; split <;> simp
@[simp] theorem record_region (r : FaultRec) (b : Bool) (d : Dev) : (record r b d).region = d.region := by
  unfold record; split
  · rfl
  · dsimp only; split <;> simp
@[simp] theorem record_page (r : FaultRec) (b : Bool) (d : Dev) : (record r b d).page = d.page := by
  unfold record; split
  · rfl
  · dsimp only; split <;> simp
@[simp] theorem record_hbm (r : FaultRec) (b : Bool) (d : Dev) : (record r b d).hbm = d.hbm := by
  unfold record; split
  · rfl
  · dsimp only; split <;> simp
@[simp] theorem record_cas (r : FaultRec) (b : Bool) (d : Dev) : (record r b d).cas = d.cas := by
  unfold record; split
  · rfl
  · dsimp only; split <;> simp
@[simp] theorem record_cmem (r : FaultRec) (b : Bool) (d : Dev) : (record r b d).cmem = d.cmem := by
  unfold record; split
  · rfl
  · dsimp only; split <;> simp
@[simp] theorem record_cmemLabel (r : FaultRec) (b : Bool) (d : Dev) : (record r b d).cmemLabel = d.cmemLabel := by
  unfold record; split
  · rfl
  · dsimp only; split <;> simp
@[simp] theorem record_spad (r : FaultRec) (b : Bool) (d : Dev) : (record r b d).spad = d.spad := by
  unfold record; split
  · rfl
  · dsimp only; split <;> simp
@[simp] theorem record_spadLabel (r : FaultRec) (b : Bool) (d : Dev) : (record r b d).spadLabel = d.spadLabel := by
  unfold record; split
  · rfl
  · dsimp only; split <;> simp
@[simp] theorem record_acc (r : FaultRec) (b : Bool) (d : Dev) : (record r b d).acc = d.acc := by
  unfold record; split
  · rfl
  · dsimp only; split <;> simp
@[simp] theorem record_seq (r : FaultRec) (b : Bool) (d : Dev) : (record r b d).seq = d.seq := by
  unfold record; split
  · rfl
  · dsimp only; split <;> simp
@[simp] theorem record_ctx (r : FaultRec) (b : Bool) (d : Dev) : (record r b d).ctx = d.ctx := by
  unfold record; split
  · rfl
  · dsimp only; split <;> simp
@[simp] theorem record_rtab (r : FaultRec) (b : Bool) (d : Dev) : (record r b d).rtab = d.rtab := by
  unfold record; split
  · rfl
  · dsimp only; split <;> simp
@[simp] theorem record_img (r : FaultRec) (b : Bool) (d : Dev) : (record r b d).img = d.img := by
  unfold record; split
  · rfl
  · dsimp only; split <;> simp
@[simp] theorem record_queue (r : FaultRec) (b : Bool) (d : Dev) : (record r b d).queue = d.queue := by
  unfold record; split
  · rfl
  · dsimp only; split <;> simp
@[simp] theorem record_obj (r : FaultRec) (b : Bool) (d : Dev) : (record r b d).obj = d.obj := by
  unfold record; split
  · rfl
  · dsimp only; split <;> simp
@[simp] theorem record_cmds (r : FaultRec) (b : Bool) (d : Dev) : (record r b d).cmds = d.cmds := by
  unfold record; split
  · rfl
  · dsimp only; split <;> simp
@[simp] theorem record_nextCmd (r : FaultRec) (b : Bool) (d : Dev) : (record r b d).nextCmd = d.nextCmd := by
  unfold record; split
  · rfl
  · dsimp only; split <;> simp
@[simp] theorem record_signals (r : FaultRec) (b : Bool) (d : Dev) : (record r b d).signals = d.signals := by
  unfold record; split
  · rfl
  · dsimp only; split <;> simp
@[simp] theorem record_core (r : FaultRec) (b : Bool) (d : Dev) : (record r b d).core = d.core := by
  unfold record; split
  · rfl
  · dsimp only; split <;> simp
@[simp] theorem record_stream (r : FaultRec) (b : Bool) (d : Dev) : (record r b d).stream = d.stream := by
  unfold record; split
  · rfl
  · dsimp only; split <;> simp
@[simp] theorem record_clu (r : FaultRec) (b : Bool) (d : Dev) : (record r b d).clu = d.clu := by
  unfold record; split
  · rfl
  · dsimp only; split <;> simp
@[simp] theorem record_rle (r : FaultRec) (b : Bool) (d : Dev) : (record r b d).rle = d.rle := by
  unfold record; split
  · rfl
  · dsimp only; split <;> simp
@[simp] theorem record_xfers (r : FaultRec) (b : Bool) (d : Dev) : (record r b d).xfers = d.xfers := by
  unfold record; split
  · rfl
  · dsimp only; split <;> simp
@[simp] theorem record_rly (r : FaultRec) (b : Bool) (d : Dev) : (record r b d).rly = d.rly := by
  unfold record; split
  · rfl
  · dsimp only; split <;> simp
@[simp] theorem record_port (r : FaultRec) (b : Bool) (d : Dev) : (record r b d).port = d.port := by
  unfold record; split
  · rfl
  · dsimp only; split <;> simp
@[simp] theorem record_group (r : FaultRec) (b : Bool) (d : Dev) : (record r b d).group = d.group := by
  unfold record; split
  · rfl
  · dsimp only; split <;> simp
@[simp] theorem record_steps (r : FaultRec) (b : Bool) (d : Dev) : (record r b d).steps = d.steps := by
  unfold record; split
  · rfl
  · dsimp only; split <;> simp
@[simp] theorem record_dbgSel (r : FaultRec) (b : Bool) (d : Dev) : (record r b d).dbgSel = d.dbgSel := by
  unfold record; split
  · rfl
  · dsimp only; split <;> simp
@[simp] theorem record_free (r : FaultRec) (b : Bool) (d : Dev) : (record r b d).free = d.free := by
  unfold record; split
  · rfl
  · dsimp only; split <;> simp

/-! ## setCmd -/

@[simp] theorem setCmd_fuse (i : Nat) (f : Cmd → Cmd) (d : Dev) : (setCmd i f d).fuse = d.fuse := rfl
@[simp] theorem setCmd_flash (i : Nat) (f : Cmd → Cmd) (d : Dev) : (setCmd i f d).flash = d.flash := rfl
@[simp] theorem setCmd_ret (i : Nat) (f : Cmd → Cmd) (d : Dev) : (setCmd i f d).ret = d.ret := rfl
@[simp] theorem setCmd_pkg (i : Nat) (f : Cmd → Cmd) (d : Dev) : (setCmd i f d).pkg = d.pkg := rfl
@[simp] theorem setCmd_blk (i : Nat) (f : Cmd → Cmd) (d : Dev) : (setCmd i f d).blk = d.blk := rfl
@[simp] theorem setCmd_tck (i : Nat) (f : Cmd → Cmd) (d : Dev) : (setCmd i f d).tck = d.tck := rfl
@[simp] theorem setCmd_pwr (i : Nat) (f : Cmd → Cmd) (d : Dev) : (setCmd i f d).pwr = d.pwr := rfl
@[simp] theorem setCmd_ptr (i : Nat) (f : Cmd → Cmd) (d : Dev) : (setCmd i f d).ptr = d.ptr := rfl
@[simp] theorem setCmd_ump (i : Nat) (f : Cmd → Cmd) (d : Dev) : (setCmd i f d).ump = d.ump := rfl
@[simp] theorem setCmd_part (i : Nat) (f : Cmd → Cmd) (d : Dev) : (setCmd i f d).part = d.part := rfl
@[simp] theorem setCmd_sht (i : Nat) (f : Cmd → Cmd) (d : Dev) : (setCmd i f d).sht = d.sht := rfl
@[simp] theorem setCmd_slot (i : Nat) (f : Cmd → Cmd) (d : Dev) : (setCmd i f d).slot = d.slot := rfl
@[simp] theorem setCmd_win (i : Nat) (f : Cmd → Cmd) (d : Dev) : (setCmd i f d).win = d.win := rfl
@[simp] theorem setCmd_pool (i : Nat) (f : Cmd → Cmd) (d : Dev) : (setCmd i f d).pool = d.pool := rfl
@[simp] theorem setCmd_stack (i : Nat) (f : Cmd → Cmd) (d : Dev) : (setCmd i f d).stack = d.stack := rfl
@[simp] theorem setCmd_region (i : Nat) (f : Cmd → Cmd) (d : Dev) : (setCmd i f d).region = d.region := rfl
@[simp] theorem setCmd_page (i : Nat) (f : Cmd → Cmd) (d : Dev) : (setCmd i f d).page = d.page := rfl
@[simp] theorem setCmd_hbm (i : Nat) (f : Cmd → Cmd) (d : Dev) : (setCmd i f d).hbm = d.hbm := rfl
@[simp] theorem setCmd_cas (i : Nat) (f : Cmd → Cmd) (d : Dev) : (setCmd i f d).cas = d.cas := rfl
@[simp] theorem setCmd_cmem (i : Nat) (f : Cmd → Cmd) (d : Dev) : (setCmd i f d).cmem = d.cmem := rfl
@[simp] theorem setCmd_cmemLabel (i : Nat) (f : Cmd → Cmd) (d : Dev) : (setCmd i f d).cmemLabel = d.cmemLabel := rfl
@[simp] theorem setCmd_spad (i : Nat) (f : Cmd → Cmd) (d : Dev) : (setCmd i f d).spad = d.spad := rfl
@[simp] theorem setCmd_spadLabel (i : Nat) (f : Cmd → Cmd) (d : Dev) : (setCmd i f d).spadLabel = d.spadLabel := rfl
@[simp] theorem setCmd_acc (i : Nat) (f : Cmd → Cmd) (d : Dev) : (setCmd i f d).acc = d.acc := rfl
@[simp] theorem setCmd_seq (i : Nat) (f : Cmd → Cmd) (d : Dev) : (setCmd i f d).seq = d.seq := rfl
@[simp] theorem setCmd_ctx (i : Nat) (f : Cmd → Cmd) (d : Dev) : (setCmd i f d).ctx = d.ctx := rfl
@[simp] theorem setCmd_rtab (i : Nat) (f : Cmd → Cmd) (d : Dev) : (setCmd i f d).rtab = d.rtab := rfl
@[simp] theorem setCmd_img (i : Nat) (f : Cmd → Cmd) (d : Dev) : (setCmd i f d).img = d.img := rfl
@[simp] theorem setCmd_queue (i : Nat) (f : Cmd → Cmd) (d : Dev) : (setCmd i f d).queue = d.queue := rfl
@[simp] theorem setCmd_obj (i : Nat) (f : Cmd → Cmd) (d : Dev) : (setCmd i f d).obj = d.obj := rfl
@[simp] theorem setCmd_nextCmd (i : Nat) (f : Cmd → Cmd) (d : Dev) : (setCmd i f d).nextCmd = d.nextCmd := rfl
@[simp] theorem setCmd_signals (i : Nat) (f : Cmd → Cmd) (d : Dev) : (setCmd i f d).signals = d.signals := rfl
@[simp] theorem setCmd_core (i : Nat) (f : Cmd → Cmd) (d : Dev) : (setCmd i f d).core = d.core := rfl
@[simp] theorem setCmd_stream (i : Nat) (f : Cmd → Cmd) (d : Dev) : (setCmd i f d).stream = d.stream := rfl
@[simp] theorem setCmd_clu (i : Nat) (f : Cmd → Cmd) (d : Dev) : (setCmd i f d).clu = d.clu := rfl
@[simp] theorem setCmd_rle (i : Nat) (f : Cmd → Cmd) (d : Dev) : (setCmd i f d).rle = d.rle := rfl
@[simp] theorem setCmd_xfers (i : Nat) (f : Cmd → Cmd) (d : Dev) : (setCmd i f d).xfers = d.xfers := rfl
@[simp] theorem setCmd_rly (i : Nat) (f : Cmd → Cmd) (d : Dev) : (setCmd i f d).rly = d.rly := rfl
@[simp] theorem setCmd_port (i : Nat) (f : Cmd → Cmd) (d : Dev) : (setCmd i f d).port = d.port := rfl
@[simp] theorem setCmd_group (i : Nat) (f : Cmd → Cmd) (d : Dev) : (setCmd i f d).group = d.group := rfl
@[simp] theorem setCmd_steps (i : Nat) (f : Cmd → Cmd) (d : Dev) : (setCmd i f d).steps = d.steps := rfl
@[simp] theorem setCmd_dbgSel (i : Nat) (f : Cmd → Cmd) (d : Dev) : (setCmd i f d).dbgSel = d.dbgSel := rfl
@[simp] theorem setCmd_out (i : Nat) (f : Cmd → Cmd) (d : Dev) : (setCmd i f d).out = d.out := rfl
@[simp] theorem setCmd_free (i : Nat) (f : Cmd → Cmd) (d : Dev) : (setCmd i f d).free = d.free := rfl

/-! ## passDelay -/

@[simp] theorem passDelay_fuse (c : Cmd) (d : Dev) : (passDelay c d).fuse = d.fuse := rfl
@[simp] theorem passDelay_flash (c : Cmd) (d : Dev) : (passDelay c d).flash = d.flash := rfl
@[simp] theorem passDelay_ret (c : Cmd) (d : Dev) : (passDelay c d).ret = d.ret := rfl
@[simp] theorem passDelay_pkg (c : Cmd) (d : Dev) : (passDelay c d).pkg = d.pkg := rfl
@[simp] theorem passDelay_blk (c : Cmd) (d : Dev) : (passDelay c d).blk = d.blk := rfl
@[simp] theorem passDelay_tck (c : Cmd) (d : Dev) : (passDelay c d).tck = d.tck := rfl
@[simp] theorem passDelay_pwr (c : Cmd) (d : Dev) : (passDelay c d).pwr = d.pwr := rfl
@[simp] theorem passDelay_ptr (c : Cmd) (d : Dev) : (passDelay c d).ptr = d.ptr := rfl
@[simp] theorem passDelay_ump (c : Cmd) (d : Dev) : (passDelay c d).ump = d.ump := rfl
@[simp] theorem passDelay_part (c : Cmd) (d : Dev) : (passDelay c d).part = d.part := rfl
@[simp] theorem passDelay_sht (c : Cmd) (d : Dev) : (passDelay c d).sht = d.sht := rfl
@[simp] theorem passDelay_slot (c : Cmd) (d : Dev) : (passDelay c d).slot = d.slot := rfl
@[simp] theorem passDelay_win (c : Cmd) (d : Dev) : (passDelay c d).win = d.win := rfl
@[simp] theorem passDelay_pool (c : Cmd) (d : Dev) : (passDelay c d).pool = d.pool := rfl
@[simp] theorem passDelay_stack (c : Cmd) (d : Dev) : (passDelay c d).stack = d.stack := rfl
@[simp] theorem passDelay_region (c : Cmd) (d : Dev) : (passDelay c d).region = d.region := rfl
@[simp] theorem passDelay_page (c : Cmd) (d : Dev) : (passDelay c d).page = d.page := rfl
@[simp] theorem passDelay_hbm (c : Cmd) (d : Dev) : (passDelay c d).hbm = d.hbm := rfl
@[simp] theorem passDelay_cas (c : Cmd) (d : Dev) : (passDelay c d).cas = d.cas := rfl
@[simp] theorem passDelay_cmem (c : Cmd) (d : Dev) : (passDelay c d).cmem = d.cmem := rfl
@[simp] theorem passDelay_cmemLabel (c : Cmd) (d : Dev) : (passDelay c d).cmemLabel = d.cmemLabel := rfl
@[simp] theorem passDelay_spad (c : Cmd) (d : Dev) : (passDelay c d).spad = d.spad := rfl
@[simp] theorem passDelay_spadLabel (c : Cmd) (d : Dev) : (passDelay c d).spadLabel = d.spadLabel := rfl
@[simp] theorem passDelay_acc (c : Cmd) (d : Dev) : (passDelay c d).acc = d.acc := rfl
@[simp] theorem passDelay_seq (c : Cmd) (d : Dev) : (passDelay c d).seq = d.seq := rfl
@[simp] theorem passDelay_ctx (c : Cmd) (d : Dev) : (passDelay c d).ctx = d.ctx := rfl
@[simp] theorem passDelay_rtab (c : Cmd) (d : Dev) : (passDelay c d).rtab = d.rtab := rfl
@[simp] theorem passDelay_img (c : Cmd) (d : Dev) : (passDelay c d).img = d.img := rfl
@[simp] theorem passDelay_queue (c : Cmd) (d : Dev) : (passDelay c d).queue = d.queue := rfl
@[simp] theorem passDelay_obj (c : Cmd) (d : Dev) : (passDelay c d).obj = d.obj := rfl
@[simp] theorem passDelay_nextCmd (c : Cmd) (d : Dev) : (passDelay c d).nextCmd = d.nextCmd := rfl
@[simp] theorem passDelay_signals (c : Cmd) (d : Dev) : (passDelay c d).signals = d.signals := rfl
@[simp] theorem passDelay_core (c : Cmd) (d : Dev) : (passDelay c d).core = d.core := rfl
@[simp] theorem passDelay_stream (c : Cmd) (d : Dev) : (passDelay c d).stream = d.stream := rfl
@[simp] theorem passDelay_clu (c : Cmd) (d : Dev) : (passDelay c d).clu = d.clu := rfl
@[simp] theorem passDelay_rle (c : Cmd) (d : Dev) : (passDelay c d).rle = d.rle := rfl
@[simp] theorem passDelay_xfers (c : Cmd) (d : Dev) : (passDelay c d).xfers = d.xfers := rfl
@[simp] theorem passDelay_rly (c : Cmd) (d : Dev) : (passDelay c d).rly = d.rly := rfl
@[simp] theorem passDelay_port (c : Cmd) (d : Dev) : (passDelay c d).port = d.port := rfl
@[simp] theorem passDelay_group (c : Cmd) (d : Dev) : (passDelay c d).group = d.group := rfl
@[simp] theorem passDelay_steps (c : Cmd) (d : Dev) : (passDelay c d).steps = d.steps := rfl
@[simp] theorem passDelay_dbgSel (c : Cmd) (d : Dev) : (passDelay c d).dbgSel = d.dbgSel := rfl
@[simp] theorem passDelay_out (c : Cmd) (d : Dev) : (passDelay c d).out = d.out := rfl
@[simp] theorem passDelay_free (c : Cmd) (d : Dev) : (passDelay c d).free = d.free := rfl

/-! ## finish -/

@[simp] theorem finish_fuse (i : Nat) (e : EndState) (r : Reason) (l : List Byte) (n : Bool) (d : Dev) : (finish i e r l n d).fuse = d.fuse := by
  unfold finish; split
  · rfl
  · split
    · rfl
    · dsimp only; split <;> simp
@[simp] theorem finish_flash (i : Nat) (e : EndState) (r : Reason) (l : List Byte) (n : Bool) (d : Dev) : (finish i e r l n d).flash = d.flash := by
  unfold finish; split
  · rfl
  · split
    · rfl
    · dsimp only; split <;> simp
@[simp] theorem finish_ret (i : Nat) (e : EndState) (r : Reason) (l : List Byte) (n : Bool) (d : Dev) : (finish i e r l n d).ret = d.ret := by
  unfold finish; split
  · rfl
  · split
    · rfl
    · dsimp only; split <;> simp
@[simp] theorem finish_pkg (i : Nat) (e : EndState) (r : Reason) (l : List Byte) (n : Bool) (d : Dev) : (finish i e r l n d).pkg = d.pkg := by
  unfold finish; split
  · rfl
  · split
    · rfl
    · dsimp only; split <;> simp
@[simp] theorem finish_blk (i : Nat) (e : EndState) (r : Reason) (l : List Byte) (n : Bool) (d : Dev) : (finish i e r l n d).blk = d.blk := by
  unfold finish; split
  · rfl
  · split
    · rfl
    · dsimp only; split <;> simp
@[simp] theorem finish_tck (i : Nat) (e : EndState) (r : Reason) (l : List Byte) (n : Bool) (d : Dev) : (finish i e r l n d).tck = d.tck := by
  unfold finish; split
  · rfl
  · split
    · rfl
    · dsimp only; split <;> simp
@[simp] theorem finish_pwr (i : Nat) (e : EndState) (r : Reason) (l : List Byte) (n : Bool) (d : Dev) : (finish i e r l n d).pwr = d.pwr := by
  unfold finish; split
  · rfl
  · split
    · rfl
    · dsimp only; split <;> simp
@[simp] theorem finish_ptr (i : Nat) (e : EndState) (r : Reason) (l : List Byte) (n : Bool) (d : Dev) : (finish i e r l n d).ptr = d.ptr := by
  unfold finish; split
  · rfl
  · split
    · rfl
    · dsimp only; split <;> simp
@[simp] theorem finish_ump (i : Nat) (e : EndState) (r : Reason) (l : List Byte) (n : Bool) (d : Dev) : (finish i e r l n d).ump = d.ump := by
  unfold finish; split
  · rfl
  · split
    · rfl
    · dsimp only; split <;> simp
@[simp] theorem finish_part (i : Nat) (e : EndState) (r : Reason) (l : List Byte) (n : Bool) (d : Dev) : (finish i e r l n d).part = d.part := by
  unfold finish; split
  · rfl
  · split
    · rfl
    · dsimp only; split <;> simp
@[simp] theorem finish_sht (i : Nat) (e : EndState) (r : Reason) (l : List Byte) (n : Bool) (d : Dev) : (finish i e r l n d).sht = d.sht := by
  unfold finish; split
  · rfl
  · split
    · rfl
    · dsimp only; split <;> simp
@[simp] theorem finish_slot (i : Nat) (e : EndState) (r : Reason) (l : List Byte) (n : Bool) (d : Dev) : (finish i e r l n d).slot = d.slot := by
  unfold finish; split
  · rfl
  · split
    · rfl
    · dsimp only; split <;> simp
@[simp] theorem finish_win (i : Nat) (e : EndState) (r : Reason) (l : List Byte) (n : Bool) (d : Dev) : (finish i e r l n d).win = d.win := by
  unfold finish; split
  · rfl
  · split
    · rfl
    · dsimp only; split <;> simp
@[simp] theorem finish_pool (i : Nat) (e : EndState) (r : Reason) (l : List Byte) (n : Bool) (d : Dev) : (finish i e r l n d).pool = d.pool := by
  unfold finish; split
  · rfl
  · split
    · rfl
    · dsimp only; split <;> simp
@[simp] theorem finish_stack (i : Nat) (e : EndState) (r : Reason) (l : List Byte) (n : Bool) (d : Dev) : (finish i e r l n d).stack = d.stack := by
  unfold finish; split
  · rfl
  · split
    · rfl
    · dsimp only; split <;> simp
@[simp] theorem finish_region (i : Nat) (e : EndState) (r : Reason) (l : List Byte) (n : Bool) (d : Dev) : (finish i e r l n d).region = d.region := by
  unfold finish; split
  · rfl
  · split
    · rfl
    · dsimp only; split <;> simp
@[simp] theorem finish_page (i : Nat) (e : EndState) (r : Reason) (l : List Byte) (n : Bool) (d : Dev) : (finish i e r l n d).page = d.page := by
  unfold finish; split
  · rfl
  · split
    · rfl
    · dsimp only; split <;> simp
@[simp] theorem finish_hbm (i : Nat) (e : EndState) (r : Reason) (l : List Byte) (n : Bool) (d : Dev) : (finish i e r l n d).hbm = d.hbm := by
  unfold finish; split
  · rfl
  · split
    · rfl
    · dsimp only; split <;> simp
@[simp] theorem finish_cas (i : Nat) (e : EndState) (r : Reason) (l : List Byte) (n : Bool) (d : Dev) : (finish i e r l n d).cas = d.cas := by
  unfold finish; split
  · rfl
  · split
    · rfl
    · dsimp only; split <;> simp
@[simp] theorem finish_cmem (i : Nat) (e : EndState) (r : Reason) (l : List Byte) (n : Bool) (d : Dev) : (finish i e r l n d).cmem = d.cmem := by
  unfold finish; split
  · rfl
  · split
    · rfl
    · dsimp only; split <;> simp
@[simp] theorem finish_cmemLabel (i : Nat) (e : EndState) (r : Reason) (l : List Byte) (n : Bool) (d : Dev) : (finish i e r l n d).cmemLabel = d.cmemLabel := by
  unfold finish; split
  · rfl
  · split
    · rfl
    · dsimp only; split <;> simp
@[simp] theorem finish_spad (i : Nat) (e : EndState) (r : Reason) (l : List Byte) (n : Bool) (d : Dev) : (finish i e r l n d).spad = d.spad := by
  unfold finish; split
  · rfl
  · split
    · rfl
    · dsimp only; split <;> simp
@[simp] theorem finish_spadLabel (i : Nat) (e : EndState) (r : Reason) (l : List Byte) (n : Bool) (d : Dev) : (finish i e r l n d).spadLabel = d.spadLabel := by
  unfold finish; split
  · rfl
  · split
    · rfl
    · dsimp only; split <;> simp
@[simp] theorem finish_acc (i : Nat) (e : EndState) (r : Reason) (l : List Byte) (n : Bool) (d : Dev) : (finish i e r l n d).acc = d.acc := by
  unfold finish; split
  · rfl
  · split
    · rfl
    · dsimp only; split <;> simp
@[simp] theorem finish_seq (i : Nat) (e : EndState) (r : Reason) (l : List Byte) (n : Bool) (d : Dev) : (finish i e r l n d).seq = d.seq := by
  unfold finish; split
  · rfl
  · split
    · rfl
    · dsimp only; split <;> simp
@[simp] theorem finish_ctx (i : Nat) (e : EndState) (r : Reason) (l : List Byte) (n : Bool) (d : Dev) : (finish i e r l n d).ctx = d.ctx := by
  unfold finish; split
  · rfl
  · split
    · rfl
    · dsimp only; split <;> simp
@[simp] theorem finish_rtab (i : Nat) (e : EndState) (r : Reason) (l : List Byte) (n : Bool) (d : Dev) : (finish i e r l n d).rtab = d.rtab := by
  unfold finish; split
  · rfl
  · split
    · rfl
    · dsimp only; split <;> simp
@[simp] theorem finish_img (i : Nat) (e : EndState) (r : Reason) (l : List Byte) (n : Bool) (d : Dev) : (finish i e r l n d).img = d.img := by
  unfold finish; split
  · rfl
  · split
    · rfl
    · dsimp only; split <;> simp
@[simp] theorem finish_obj (i : Nat) (e : EndState) (r : Reason) (l : List Byte) (n : Bool) (d : Dev) : (finish i e r l n d).obj = d.obj := by
  unfold finish; split
  · rfl
  · split
    · rfl
    · dsimp only; split <;> simp
@[simp] theorem finish_nextCmd (i : Nat) (e : EndState) (r : Reason) (l : List Byte) (n : Bool) (d : Dev) : (finish i e r l n d).nextCmd = d.nextCmd := by
  unfold finish; split
  · rfl
  · split
    · rfl
    · dsimp only; split <;> simp
@[simp] theorem finish_signals (i : Nat) (e : EndState) (r : Reason) (l : List Byte) (n : Bool) (d : Dev) : (finish i e r l n d).signals = d.signals := by
  unfold finish; split
  · rfl
  · split
    · rfl
    · dsimp only; split <;> simp
@[simp] theorem finish_core (i : Nat) (e : EndState) (r : Reason) (l : List Byte) (n : Bool) (d : Dev) : (finish i e r l n d).core = d.core := by
  unfold finish; split
  · rfl
  · split
    · rfl
    · dsimp only; split <;> simp
@[simp] theorem finish_stream (i : Nat) (e : EndState) (r : Reason) (l : List Byte) (n : Bool) (d : Dev) : (finish i e r l n d).stream = d.stream := by
  unfold finish; split
  · rfl
  · split
    · rfl
    · dsimp only; split <;> simp
@[simp] theorem finish_clu (i : Nat) (e : EndState) (r : Reason) (l : List Byte) (n : Bool) (d : Dev) : (finish i e r l n d).clu = d.clu := by
  unfold finish; split
  · rfl
  · split
    · rfl
    · dsimp only; split <;> simp
@[simp] theorem finish_rle (i : Nat) (e : EndState) (r : Reason) (l : List Byte) (n : Bool) (d : Dev) : (finish i e r l n d).rle = d.rle := by
  unfold finish; split
  · rfl
  · split
    · rfl
    · dsimp only; split <;> simp
@[simp] theorem finish_xfers (i : Nat) (e : EndState) (r : Reason) (l : List Byte) (n : Bool) (d : Dev) : (finish i e r l n d).xfers = d.xfers := by
  unfold finish; split
  · rfl
  · split
    · rfl
    · dsimp only; split <;> simp
@[simp] theorem finish_rly (i : Nat) (e : EndState) (r : Reason) (l : List Byte) (n : Bool) (d : Dev) : (finish i e r l n d).rly = d.rly := by
  unfold finish; split
  · rfl
  · split
    · rfl
    · dsimp only; split <;> simp
@[simp] theorem finish_port (i : Nat) (e : EndState) (r : Reason) (l : List Byte) (n : Bool) (d : Dev) : (finish i e r l n d).port = d.port := by
  unfold finish; split
  · rfl
  · split
    · rfl
    · dsimp only; split <;> simp
@[simp] theorem finish_group (i : Nat) (e : EndState) (r : Reason) (l : List Byte) (n : Bool) (d : Dev) : (finish i e r l n d).group = d.group := by
  unfold finish; split
  · rfl
  · split
    · rfl
    · dsimp only; split <;> simp
@[simp] theorem finish_steps (i : Nat) (e : EndState) (r : Reason) (l : List Byte) (n : Bool) (d : Dev) : (finish i e r l n d).steps = d.steps := by
  unfold finish; split
  · rfl
  · split
    · rfl
    · dsimp only; split <;> simp
@[simp] theorem finish_dbgSel (i : Nat) (e : EndState) (r : Reason) (l : List Byte) (n : Bool) (d : Dev) : (finish i e r l n d).dbgSel = d.dbgSel := by
  unfold finish; split
  · rfl
  · split
    · rfl
    · dsimp only; split <;> simp
@[simp] theorem finish_out (i : Nat) (e : EndState) (r : Reason) (l : List Byte) (n : Bool) (d : Dev) : (finish i e r l n d).out = d.out := by
  unfold finish; split
  · rfl
  · split
    · rfl
    · dsimp only; split <;> simp
@[simp] theorem finish_free (i : Nat) (e : EndState) (r : Reason) (l : List Byte) (n : Bool) (d : Dev) : (finish i e r l n d).free = d.free := by
  unfold finish; split
  · rfl
  · split
    · rfl
    · dsimp only; split <;> simp

/-! ## genUp -/

@[simp] theorem genUp_fuse (d : Dev) : (genUp d).fuse = d.fuse := rfl
@[simp] theorem genUp_flash (d : Dev) : (genUp d).flash = d.flash := rfl
@[simp] theorem genUp_pkg (d : Dev) : (genUp d).pkg = d.pkg := rfl
@[simp] theorem genUp_blk (d : Dev) : (genUp d).blk = d.blk := rfl
@[simp] theorem genUp_tck (d : Dev) : (genUp d).tck = d.tck := rfl
@[simp] theorem genUp_pwr (d : Dev) : (genUp d).pwr = d.pwr := rfl
@[simp] theorem genUp_ptr (d : Dev) : (genUp d).ptr = d.ptr := rfl
@[simp] theorem genUp_ump (d : Dev) : (genUp d).ump = d.ump := rfl
@[simp] theorem genUp_part (d : Dev) : (genUp d).part = d.part := rfl
@[simp] theorem genUp_sht (d : Dev) : (genUp d).sht = d.sht := rfl
@[simp] theorem genUp_slot (d : Dev) : (genUp d).slot = d.slot := rfl
@[simp] theorem genUp_win (d : Dev) : (genUp d).win = d.win := rfl
@[simp] theorem genUp_pool (d : Dev) : (genUp d).pool = d.pool := rfl
@[simp] theorem genUp_stack (d : Dev) : (genUp d).stack = d.stack := rfl
@[simp] theorem genUp_region (d : Dev) : (genUp d).region = d.region := rfl
@[simp] theorem genUp_page (d : Dev) : (genUp d).page = d.page := rfl
@[simp] theorem genUp_hbm (d : Dev) : (genUp d).hbm = d.hbm := rfl
@[simp] theorem genUp_cas (d : Dev) : (genUp d).cas = d.cas := rfl
@[simp] theorem genUp_cmem (d : Dev) : (genUp d).cmem = d.cmem := rfl
@[simp] theorem genUp_cmemLabel (d : Dev) : (genUp d).cmemLabel = d.cmemLabel := rfl
@[simp] theorem genUp_spad (d : Dev) : (genUp d).spad = d.spad := rfl
@[simp] theorem genUp_spadLabel (d : Dev) : (genUp d).spadLabel = d.spadLabel := rfl
@[simp] theorem genUp_acc (d : Dev) : (genUp d).acc = d.acc := rfl
@[simp] theorem genUp_seq (d : Dev) : (genUp d).seq = d.seq := rfl
@[simp] theorem genUp_ctx (d : Dev) : (genUp d).ctx = d.ctx := rfl
@[simp] theorem genUp_rtab (d : Dev) : (genUp d).rtab = d.rtab := rfl
@[simp] theorem genUp_img (d : Dev) : (genUp d).img = d.img := rfl
@[simp] theorem genUp_queue (d : Dev) : (genUp d).queue = d.queue := rfl
@[simp] theorem genUp_obj (d : Dev) : (genUp d).obj = d.obj := rfl
@[simp] theorem genUp_cmds (d : Dev) : (genUp d).cmds = d.cmds := rfl
@[simp] theorem genUp_nextCmd (d : Dev) : (genUp d).nextCmd = d.nextCmd := rfl
@[simp] theorem genUp_signals (d : Dev) : (genUp d).signals = d.signals := rfl
@[simp] theorem genUp_core (d : Dev) : (genUp d).core = d.core := rfl
@[simp] theorem genUp_stream (d : Dev) : (genUp d).stream = d.stream := rfl
@[simp] theorem genUp_clu (d : Dev) : (genUp d).clu = d.clu := rfl
@[simp] theorem genUp_rle (d : Dev) : (genUp d).rle = d.rle := rfl
@[simp] theorem genUp_xfers (d : Dev) : (genUp d).xfers = d.xfers := rfl
@[simp] theorem genUp_rly (d : Dev) : (genUp d).rly = d.rly := rfl
@[simp] theorem genUp_port (d : Dev) : (genUp d).port = d.port := rfl
@[simp] theorem genUp_group (d : Dev) : (genUp d).group = d.group := rfl
@[simp] theorem genUp_steps (d : Dev) : (genUp d).steps = d.steps := rfl
@[simp] theorem genUp_dbgSel (d : Dev) : (genUp d).dbgSel = d.dbgSel := rfl
@[simp] theorem genUp_out (d : Dev) : (genUp d).out = d.out := rfl
@[simp] theorem genUp_free (d : Dev) : (genUp d).free = d.free := rfl

/-! ## tracked -/

@[simp] theorem tracked_fuse (f : Dev → Dev) (d : Dev) : (tracked f d).fuse = (f d).fuse := by
  unfold tracked; dsimp only; split <;> simp
@[simp] theorem tracked_flash (f : Dev → Dev) (d : Dev) : (tracked f d).flash = (f d).flash := by
  unfold tracked; dsimp only; split <;> simp
@[simp] theorem tracked_pkg (f : Dev → Dev) (d : Dev) : (tracked f d).pkg = (f d).pkg := by
  unfold tracked; dsimp only; split <;> simp
@[simp] theorem tracked_blk (f : Dev → Dev) (d : Dev) : (tracked f d).blk = (f d).blk := by
  unfold tracked; dsimp only; split <;> simp
@[simp] theorem tracked_tck (f : Dev → Dev) (d : Dev) : (tracked f d).tck = (f d).tck := by
  unfold tracked; dsimp only; split <;> simp
@[simp] theorem tracked_pwr (f : Dev → Dev) (d : Dev) : (tracked f d).pwr = (f d).pwr := by
  unfold tracked; dsimp only; split <;> simp
@[simp] theorem tracked_ptr (f : Dev → Dev) (d : Dev) : (tracked f d).ptr = (f d).ptr := by
  unfold tracked; dsimp only; split <;> simp
@[simp] theorem tracked_ump (f : Dev → Dev) (d : Dev) : (tracked f d).ump = (f d).ump := by
  unfold tracked; dsimp only; split <;> simp
@[simp] theorem tracked_part (f : Dev → Dev) (d : Dev) : (tracked f d).part = (f d).part := by
  unfold tracked; dsimp only; split <;> simp
@[simp] theorem tracked_sht (f : Dev → Dev) (d : Dev) : (tracked f d).sht = (f d).sht := by
  unfold tracked; dsimp only; split <;> simp
@[simp] theorem tracked_slot (f : Dev → Dev) (d : Dev) : (tracked f d).slot = (f d).slot := by
  unfold tracked; dsimp only; split <;> simp
@[simp] theorem tracked_win (f : Dev → Dev) (d : Dev) : (tracked f d).win = (f d).win := by
  unfold tracked; dsimp only; split <;> simp
@[simp] theorem tracked_pool (f : Dev → Dev) (d : Dev) : (tracked f d).pool = (f d).pool := by
  unfold tracked; dsimp only; split <;> simp
@[simp] theorem tracked_stack (f : Dev → Dev) (d : Dev) : (tracked f d).stack = (f d).stack := by
  unfold tracked; dsimp only; split <;> simp
@[simp] theorem tracked_region (f : Dev → Dev) (d : Dev) : (tracked f d).region = (f d).region := by
  unfold tracked; dsimp only; split <;> simp
@[simp] theorem tracked_page (f : Dev → Dev) (d : Dev) : (tracked f d).page = (f d).page := by
  unfold tracked; dsimp only; split <;> simp
@[simp] theorem tracked_hbm (f : Dev → Dev) (d : Dev) : (tracked f d).hbm = (f d).hbm := by
  unfold tracked; dsimp only; split <;> simp
@[simp] theorem tracked_cas (f : Dev → Dev) (d : Dev) : (tracked f d).cas = (f d).cas := by
  unfold tracked; dsimp only; split <;> simp
@[simp] theorem tracked_cmem (f : Dev → Dev) (d : Dev) : (tracked f d).cmem = (f d).cmem := by
  unfold tracked; dsimp only; split <;> simp
@[simp] theorem tracked_cmemLabel (f : Dev → Dev) (d : Dev) : (tracked f d).cmemLabel = (f d).cmemLabel := by
  unfold tracked; dsimp only; split <;> simp
@[simp] theorem tracked_spad (f : Dev → Dev) (d : Dev) : (tracked f d).spad = (f d).spad := by
  unfold tracked; dsimp only; split <;> simp
@[simp] theorem tracked_spadLabel (f : Dev → Dev) (d : Dev) : (tracked f d).spadLabel = (f d).spadLabel := by
  unfold tracked; dsimp only; split <;> simp
@[simp] theorem tracked_acc (f : Dev → Dev) (d : Dev) : (tracked f d).acc = (f d).acc := by
  unfold tracked; dsimp only; split <;> simp
@[simp] theorem tracked_seq (f : Dev → Dev) (d : Dev) : (tracked f d).seq = (f d).seq := by
  unfold tracked; dsimp only; split <;> simp
@[simp] theorem tracked_ctx (f : Dev → Dev) (d : Dev) : (tracked f d).ctx = (f d).ctx := by
  unfold tracked; dsimp only; split <;> simp
@[simp] theorem tracked_rtab (f : Dev → Dev) (d : Dev) : (tracked f d).rtab = (f d).rtab := by
  unfold tracked; dsimp only; split <;> simp
@[simp] theorem tracked_img (f : Dev → Dev) (d : Dev) : (tracked f d).img = (f d).img := by
  unfold tracked; dsimp only; split <;> simp
@[simp] theorem tracked_queue (f : Dev → Dev) (d : Dev) : (tracked f d).queue = (f d).queue := by
  unfold tracked; dsimp only; split <;> simp
@[simp] theorem tracked_obj (f : Dev → Dev) (d : Dev) : (tracked f d).obj = (f d).obj := by
  unfold tracked; dsimp only; split <;> simp
@[simp] theorem tracked_cmds (f : Dev → Dev) (d : Dev) : (tracked f d).cmds = (f d).cmds := by
  unfold tracked; dsimp only; split <;> simp
@[simp] theorem tracked_nextCmd (f : Dev → Dev) (d : Dev) : (tracked f d).nextCmd = (f d).nextCmd := by
  unfold tracked; dsimp only; split <;> simp
@[simp] theorem tracked_signals (f : Dev → Dev) (d : Dev) : (tracked f d).signals = (f d).signals := by
  unfold tracked; dsimp only; split <;> simp
@[simp] theorem tracked_core (f : Dev → Dev) (d : Dev) : (tracked f d).core = (f d).core := by
  unfold tracked; dsimp only; split <;> simp
@[simp] theorem tracked_stream (f : Dev → Dev) (d : Dev) : (tracked f d).stream = (f d).stream := by
  unfold tracked; dsimp only; split <;> simp
@[simp] theorem tracked_clu (f : Dev → Dev) (d : Dev) : (tracked f d).clu = (f d).clu := by
  unfold tracked; dsimp only; split <;> simp
@[simp] theorem tracked_rle (f : Dev → Dev) (d : Dev) : (tracked f d).rle = (f d).rle := by
  unfold tracked; dsimp only; split <;> simp
@[simp] theorem tracked_xfers (f : Dev → Dev) (d : Dev) : (tracked f d).xfers = (f d).xfers := by
  unfold tracked; dsimp only; split <;> simp
@[simp] theorem tracked_rly (f : Dev → Dev) (d : Dev) : (tracked f d).rly = (f d).rly := by
  unfold tracked; dsimp only; split <;> simp
@[simp] theorem tracked_port (f : Dev → Dev) (d : Dev) : (tracked f d).port = (f d).port := by
  unfold tracked; dsimp only; split <;> simp
@[simp] theorem tracked_group (f : Dev → Dev) (d : Dev) : (tracked f d).group = (f d).group := by
  unfold tracked; dsimp only; split <;> simp
@[simp] theorem tracked_steps (f : Dev → Dev) (d : Dev) : (tracked f d).steps = (f d).steps := by
  unfold tracked; dsimp only; split <;> simp
@[simp] theorem tracked_dbgSel (f : Dev → Dev) (d : Dev) : (tracked f d).dbgSel = (f d).dbgSel := by
  unfold tracked; dsimp only; split <;> simp
@[simp] theorem tracked_out (f : Dev → Dev) (d : Dev) : (tracked f d).out = (f d).out := by
  unfold tracked; dsimp only; split <;> simp
@[simp] theorem tracked_free (f : Dev → Dev) (d : Dev) : (tracked f d).free = (f d).free := by
  unfold tracked; dsimp only; split <;> simp

/-! ## mboxTake -/

@[simp] theorem mboxTake_fuse (op : Nat) (seq : Word) (l : List Byte) (d : Dev) : (mboxTake op seq l d).fuse = d.fuse := rfl
@[simp] theorem mboxTake_flash (op : Nat) (seq : Word) (l : List Byte) (d : Dev) : (mboxTake op seq l d).flash = d.flash := rfl
@[simp] theorem mboxTake_ret (op : Nat) (seq : Word) (l : List Byte) (d : Dev) : (mboxTake op seq l d).ret = d.ret := rfl
@[simp] theorem mboxTake_pkg (op : Nat) (seq : Word) (l : List Byte) (d : Dev) : (mboxTake op seq l d).pkg = d.pkg := rfl
@[simp] theorem mboxTake_blk (op : Nat) (seq : Word) (l : List Byte) (d : Dev) : (mboxTake op seq l d).blk = d.blk := rfl
@[simp] theorem mboxTake_tck (op : Nat) (seq : Word) (l : List Byte) (d : Dev) : (mboxTake op seq l d).tck = d.tck := rfl
@[simp] theorem mboxTake_pwr (op : Nat) (seq : Word) (l : List Byte) (d : Dev) : (mboxTake op seq l d).pwr = d.pwr := rfl
@[simp] theorem mboxTake_ump (op : Nat) (seq : Word) (l : List Byte) (d : Dev) : (mboxTake op seq l d).ump = d.ump := rfl
@[simp] theorem mboxTake_part (op : Nat) (seq : Word) (l : List Byte) (d : Dev) : (mboxTake op seq l d).part = d.part := rfl
@[simp] theorem mboxTake_sht (op : Nat) (seq : Word) (l : List Byte) (d : Dev) : (mboxTake op seq l d).sht = d.sht := rfl
@[simp] theorem mboxTake_slot (op : Nat) (seq : Word) (l : List Byte) (d : Dev) : (mboxTake op seq l d).slot = d.slot := rfl
@[simp] theorem mboxTake_win (op : Nat) (seq : Word) (l : List Byte) (d : Dev) : (mboxTake op seq l d).win = d.win := rfl
@[simp] theorem mboxTake_pool (op : Nat) (seq : Word) (l : List Byte) (d : Dev) : (mboxTake op seq l d).pool = d.pool := rfl
@[simp] theorem mboxTake_stack (op : Nat) (seq : Word) (l : List Byte) (d : Dev) : (mboxTake op seq l d).stack = d.stack := rfl
@[simp] theorem mboxTake_region (op : Nat) (seq : Word) (l : List Byte) (d : Dev) : (mboxTake op seq l d).region = d.region := rfl
@[simp] theorem mboxTake_page (op : Nat) (seq : Word) (l : List Byte) (d : Dev) : (mboxTake op seq l d).page = d.page := rfl
@[simp] theorem mboxTake_hbm (op : Nat) (seq : Word) (l : List Byte) (d : Dev) : (mboxTake op seq l d).hbm = d.hbm := rfl
@[simp] theorem mboxTake_cas (op : Nat) (seq : Word) (l : List Byte) (d : Dev) : (mboxTake op seq l d).cas = d.cas := rfl
@[simp] theorem mboxTake_cmem (op : Nat) (seq : Word) (l : List Byte) (d : Dev) : (mboxTake op seq l d).cmem = d.cmem := rfl
@[simp] theorem mboxTake_cmemLabel (op : Nat) (seq : Word) (l : List Byte) (d : Dev) : (mboxTake op seq l d).cmemLabel = d.cmemLabel := rfl
@[simp] theorem mboxTake_spad (op : Nat) (seq : Word) (l : List Byte) (d : Dev) : (mboxTake op seq l d).spad = d.spad := rfl
@[simp] theorem mboxTake_spadLabel (op : Nat) (seq : Word) (l : List Byte) (d : Dev) : (mboxTake op seq l d).spadLabel = d.spadLabel := rfl
@[simp] theorem mboxTake_acc (op : Nat) (seq : Word) (l : List Byte) (d : Dev) : (mboxTake op seq l d).acc = d.acc := rfl
@[simp] theorem mboxTake_seq (op : Nat) (seq : Word) (l : List Byte) (d : Dev) : (mboxTake op seq l d).seq = d.seq := rfl
@[simp] theorem mboxTake_ctx (op : Nat) (seq : Word) (l : List Byte) (d : Dev) : (mboxTake op seq l d).ctx = d.ctx := rfl
@[simp] theorem mboxTake_rtab (op : Nat) (seq : Word) (l : List Byte) (d : Dev) : (mboxTake op seq l d).rtab = d.rtab := rfl
@[simp] theorem mboxTake_img (op : Nat) (seq : Word) (l : List Byte) (d : Dev) : (mboxTake op seq l d).img = d.img := rfl
@[simp] theorem mboxTake_queue (op : Nat) (seq : Word) (l : List Byte) (d : Dev) : (mboxTake op seq l d).queue = d.queue := rfl
@[simp] theorem mboxTake_obj (op : Nat) (seq : Word) (l : List Byte) (d : Dev) : (mboxTake op seq l d).obj = d.obj := rfl
@[simp] theorem mboxTake_cmds (op : Nat) (seq : Word) (l : List Byte) (d : Dev) : (mboxTake op seq l d).cmds = d.cmds := rfl
@[simp] theorem mboxTake_nextCmd (op : Nat) (seq : Word) (l : List Byte) (d : Dev) : (mboxTake op seq l d).nextCmd = d.nextCmd := rfl
@[simp] theorem mboxTake_signals (op : Nat) (seq : Word) (l : List Byte) (d : Dev) : (mboxTake op seq l d).signals = d.signals := rfl
@[simp] theorem mboxTake_core (op : Nat) (seq : Word) (l : List Byte) (d : Dev) : (mboxTake op seq l d).core = d.core := rfl
@[simp] theorem mboxTake_stream (op : Nat) (seq : Word) (l : List Byte) (d : Dev) : (mboxTake op seq l d).stream = d.stream := rfl
@[simp] theorem mboxTake_clu (op : Nat) (seq : Word) (l : List Byte) (d : Dev) : (mboxTake op seq l d).clu = d.clu := rfl
@[simp] theorem mboxTake_rle (op : Nat) (seq : Word) (l : List Byte) (d : Dev) : (mboxTake op seq l d).rle = d.rle := rfl
@[simp] theorem mboxTake_xfers (op : Nat) (seq : Word) (l : List Byte) (d : Dev) : (mboxTake op seq l d).xfers = d.xfers := rfl
@[simp] theorem mboxTake_rly (op : Nat) (seq : Word) (l : List Byte) (d : Dev) : (mboxTake op seq l d).rly = d.rly := rfl
@[simp] theorem mboxTake_port (op : Nat) (seq : Word) (l : List Byte) (d : Dev) : (mboxTake op seq l d).port = d.port := rfl
@[simp] theorem mboxTake_group (op : Nat) (seq : Word) (l : List Byte) (d : Dev) : (mboxTake op seq l d).group = d.group := rfl
@[simp] theorem mboxTake_steps (op : Nat) (seq : Word) (l : List Byte) (d : Dev) : (mboxTake op seq l d).steps = d.steps := rfl
@[simp] theorem mboxTake_dbgSel (op : Nat) (seq : Word) (l : List Byte) (d : Dev) : (mboxTake op seq l d).dbgSel = d.dbgSel := rfl
@[simp] theorem mboxTake_out (op : Nat) (seq : Word) (l : List Byte) (d : Dev) : (mboxTake op seq l d).out = d.out := rfl
@[simp] theorem mboxTake_free (op : Nat) (seq : Word) (l : List Byte) (d : Dev) : (mboxTake op seq l d).free = d.free := rfl

/-! ## mboxEnd -/

@[simp] theorem mboxEnd_fuse (r : Reason) (l : List Byte) (d : Dev) : (mboxEnd r l d).fuse = d.fuse := by
  unfold mboxEnd; split
  · rfl
  · dsimp only; split <;> simp
@[simp] theorem mboxEnd_flash (r : Reason) (l : List Byte) (d : Dev) : (mboxEnd r l d).flash = d.flash := by
  unfold mboxEnd; split
  · rfl
  · dsimp only; split <;> simp
@[simp] theorem mboxEnd_ret (r : Reason) (l : List Byte) (d : Dev) : (mboxEnd r l d).ret = d.ret := by
  unfold mboxEnd; split
  · rfl
  · dsimp only; split <;> simp
@[simp] theorem mboxEnd_blk (r : Reason) (l : List Byte) (d : Dev) : (mboxEnd r l d).blk = d.blk := by
  unfold mboxEnd; split
  · rfl
  · dsimp only; split <;> simp
@[simp] theorem mboxEnd_tck (r : Reason) (l : List Byte) (d : Dev) : (mboxEnd r l d).tck = d.tck := by
  unfold mboxEnd; split
  · rfl
  · dsimp only; split <;> simp
@[simp] theorem mboxEnd_pwr (r : Reason) (l : List Byte) (d : Dev) : (mboxEnd r l d).pwr = d.pwr := by
  unfold mboxEnd; split
  · rfl
  · dsimp only; split <;> simp
@[simp] theorem mboxEnd_ump (r : Reason) (l : List Byte) (d : Dev) : (mboxEnd r l d).ump = d.ump := by
  unfold mboxEnd; split
  · rfl
  · dsimp only; split <;> simp
@[simp] theorem mboxEnd_part (r : Reason) (l : List Byte) (d : Dev) : (mboxEnd r l d).part = d.part := by
  unfold mboxEnd; split
  · rfl
  · dsimp only; split <;> simp
@[simp] theorem mboxEnd_sht (r : Reason) (l : List Byte) (d : Dev) : (mboxEnd r l d).sht = d.sht := by
  unfold mboxEnd; split
  · rfl
  · dsimp only; split <;> simp
@[simp] theorem mboxEnd_slot (r : Reason) (l : List Byte) (d : Dev) : (mboxEnd r l d).slot = d.slot := by
  unfold mboxEnd; split
  · rfl
  · dsimp only; split <;> simp
@[simp] theorem mboxEnd_win (r : Reason) (l : List Byte) (d : Dev) : (mboxEnd r l d).win = d.win := by
  unfold mboxEnd; split
  · rfl
  · dsimp only; split <;> simp
@[simp] theorem mboxEnd_pool (r : Reason) (l : List Byte) (d : Dev) : (mboxEnd r l d).pool = d.pool := by
  unfold mboxEnd; split
  · rfl
  · dsimp only; split <;> simp
@[simp] theorem mboxEnd_stack (r : Reason) (l : List Byte) (d : Dev) : (mboxEnd r l d).stack = d.stack := by
  unfold mboxEnd; split
  · rfl
  · dsimp only; split <;> simp
@[simp] theorem mboxEnd_region (r : Reason) (l : List Byte) (d : Dev) : (mboxEnd r l d).region = d.region := by
  unfold mboxEnd; split
  · rfl
  · dsimp only; split <;> simp
@[simp] theorem mboxEnd_page (r : Reason) (l : List Byte) (d : Dev) : (mboxEnd r l d).page = d.page := by
  unfold mboxEnd; split
  · rfl
  · dsimp only; split <;> simp
@[simp] theorem mboxEnd_hbm (r : Reason) (l : List Byte) (d : Dev) : (mboxEnd r l d).hbm = d.hbm := by
  unfold mboxEnd; split
  · rfl
  · dsimp only; split <;> simp
@[simp] theorem mboxEnd_cas (r : Reason) (l : List Byte) (d : Dev) : (mboxEnd r l d).cas = d.cas := by
  unfold mboxEnd; split
  · rfl
  · dsimp only; split <;> simp
@[simp] theorem mboxEnd_cmem (r : Reason) (l : List Byte) (d : Dev) : (mboxEnd r l d).cmem = d.cmem := by
  unfold mboxEnd; split
  · rfl
  · dsimp only; split <;> simp
@[simp] theorem mboxEnd_cmemLabel (r : Reason) (l : List Byte) (d : Dev) : (mboxEnd r l d).cmemLabel = d.cmemLabel := by
  unfold mboxEnd; split
  · rfl
  · dsimp only; split <;> simp
@[simp] theorem mboxEnd_spad (r : Reason) (l : List Byte) (d : Dev) : (mboxEnd r l d).spad = d.spad := by
  unfold mboxEnd; split
  · rfl
  · dsimp only; split <;> simp
@[simp] theorem mboxEnd_spadLabel (r : Reason) (l : List Byte) (d : Dev) : (mboxEnd r l d).spadLabel = d.spadLabel := by
  unfold mboxEnd; split
  · rfl
  · dsimp only; split <;> simp
@[simp] theorem mboxEnd_acc (r : Reason) (l : List Byte) (d : Dev) : (mboxEnd r l d).acc = d.acc := by
  unfold mboxEnd; split
  · rfl
  · dsimp only; split <;> simp
@[simp] theorem mboxEnd_seq (r : Reason) (l : List Byte) (d : Dev) : (mboxEnd r l d).seq = d.seq := by
  unfold mboxEnd; split
  · rfl
  · dsimp only; split <;> simp
@[simp] theorem mboxEnd_ctx (r : Reason) (l : List Byte) (d : Dev) : (mboxEnd r l d).ctx = d.ctx := by
  unfold mboxEnd; split
  · rfl
  · dsimp only; split <;> simp
@[simp] theorem mboxEnd_rtab (r : Reason) (l : List Byte) (d : Dev) : (mboxEnd r l d).rtab = d.rtab := by
  unfold mboxEnd; split
  · rfl
  · dsimp only; split <;> simp
@[simp] theorem mboxEnd_img (r : Reason) (l : List Byte) (d : Dev) : (mboxEnd r l d).img = d.img := by
  unfold mboxEnd; split
  · rfl
  · dsimp only; split <;> simp
@[simp] theorem mboxEnd_queue (r : Reason) (l : List Byte) (d : Dev) : (mboxEnd r l d).queue = d.queue := by
  unfold mboxEnd; split
  · rfl
  · dsimp only; split <;> simp
@[simp] theorem mboxEnd_obj (r : Reason) (l : List Byte) (d : Dev) : (mboxEnd r l d).obj = d.obj := by
  unfold mboxEnd; split
  · rfl
  · dsimp only; split <;> simp
@[simp] theorem mboxEnd_cmds (r : Reason) (l : List Byte) (d : Dev) : (mboxEnd r l d).cmds = d.cmds := by
  unfold mboxEnd; split
  · rfl
  · dsimp only; split <;> simp
@[simp] theorem mboxEnd_nextCmd (r : Reason) (l : List Byte) (d : Dev) : (mboxEnd r l d).nextCmd = d.nextCmd := by
  unfold mboxEnd; split
  · rfl
  · dsimp only; split <;> simp
@[simp] theorem mboxEnd_signals (r : Reason) (l : List Byte) (d : Dev) : (mboxEnd r l d).signals = d.signals := by
  unfold mboxEnd; split
  · rfl
  · dsimp only; split <;> simp
@[simp] theorem mboxEnd_core (r : Reason) (l : List Byte) (d : Dev) : (mboxEnd r l d).core = d.core := by
  unfold mboxEnd; split
  · rfl
  · dsimp only; split <;> simp
@[simp] theorem mboxEnd_stream (r : Reason) (l : List Byte) (d : Dev) : (mboxEnd r l d).stream = d.stream := by
  unfold mboxEnd; split
  · rfl
  · dsimp only; split <;> simp
@[simp] theorem mboxEnd_clu (r : Reason) (l : List Byte) (d : Dev) : (mboxEnd r l d).clu = d.clu := by
  unfold mboxEnd; split
  · rfl
  · dsimp only; split <;> simp
@[simp] theorem mboxEnd_rle (r : Reason) (l : List Byte) (d : Dev) : (mboxEnd r l d).rle = d.rle := by
  unfold mboxEnd; split
  · rfl
  · dsimp only; split <;> simp
@[simp] theorem mboxEnd_xfers (r : Reason) (l : List Byte) (d : Dev) : (mboxEnd r l d).xfers = d.xfers := by
  unfold mboxEnd; split
  · rfl
  · dsimp only; split <;> simp
@[simp] theorem mboxEnd_rly (r : Reason) (l : List Byte) (d : Dev) : (mboxEnd r l d).rly = d.rly := by
  unfold mboxEnd; split
  · rfl
  · dsimp only; split <;> simp
@[simp] theorem mboxEnd_port (r : Reason) (l : List Byte) (d : Dev) : (mboxEnd r l d).port = d.port := by
  unfold mboxEnd; split
  · rfl
  · dsimp only; split <;> simp
@[simp] theorem mboxEnd_group (r : Reason) (l : List Byte) (d : Dev) : (mboxEnd r l d).group = d.group := by
  unfold mboxEnd; split
  · rfl
  · dsimp only; split <;> simp
@[simp] theorem mboxEnd_steps (r : Reason) (l : List Byte) (d : Dev) : (mboxEnd r l d).steps = d.steps := by
  unfold mboxEnd; split
  · rfl
  · dsimp only; split <;> simp
@[simp] theorem mboxEnd_dbgSel (r : Reason) (l : List Byte) (d : Dev) : (mboxEnd r l d).dbgSel = d.dbgSel := by
  unfold mboxEnd; split
  · rfl
  · dsimp only; split <;> simp
@[simp] theorem mboxEnd_free (r : Reason) (l : List Byte) (d : Dev) : (mboxEnd r l d).free = d.free := by
  unfold mboxEnd; split
  · rfl
  · dsimp only; split <;> simp

/-! ## What the package keeps through interrupts and the drop log -/

@[simp] theorem interrupt_pkg_phase (fn n : Nat) (d : Dev) : (interrupt fn n d).pkg.phase = d.pkg.phase := by unfold interrupt; (repeat' split) <;> rfl
@[simp] theorem interrupt_pkg_pwrgd (fn n : Nat) (d : Dev) : (interrupt fn n d).pkg.pwrgd = d.pkg.pwrgd := by unfold interrupt; (repeat' split) <;> rfl
@[simp] theorem interrupt_pkg_perst (fn n : Nat) (d : Dev) : (interrupt fn n d).pkg.perst = d.pkg.perst := by unfold interrupt; (repeat' split) <;> rfl
@[simp] theorem interrupt_pkg_pwrgdOut (fn n : Nat) (d : Dev) : (interrupt fn n d).pkg.pwrgdOut = d.pkg.pwrgdOut := by unfold interrupt; (repeat' split) <;> rfl
@[simp] theorem interrupt_pkg_halt (fn n : Nat) (d : Dev) : (interrupt fn n d).pkg.halt = d.pkg.halt := by unfold interrupt; (repeat' split) <;> rfl
@[simp] theorem interrupt_pkg_thermtrip (fn n : Nat) (d : Dev) : (interrupt fn n d).pkg.thermtrip = d.pkg.thermtrip := by unfold interrupt; (repeat' split) <;> rfl
@[simp] theorem interrupt_pkg_cycleReq (fn n : Nat) (d : Dev) : (interrupt fn n d).pkg.cycleReq = d.pkg.cycleReq := by unfold interrupt; (repeat' split) <;> rfl
@[simp] theorem interrupt_pkg_sysclk (fn n : Nat) (d : Dev) : (interrupt fn n d).pkg.sysclk = d.pkg.sysclk := by unfold interrupt; (repeat' split) <;> rfl
@[simp] theorem interrupt_pkg_sysclkBack (fn n : Nat) (d : Dev) : (interrupt fn n d).pkg.sysclkBack = d.pkg.sysclkBack := by unfold interrupt; (repeat' split) <;> rfl
@[simp] theorem interrupt_pkg_config (fn n : Nat) (d : Dev) : (interrupt fn n d).pkg.config = d.pkg.config := by unfold interrupt; (repeat' split) <;> rfl
@[simp] theorem interrupt_pkg_mailbox (fn n : Nat) (d : Dev) : (interrupt fn n d).pkg.mailbox = d.pkg.mailbox := by unfold interrupt; (repeat' split) <;> rfl
@[simp] theorem interrupt_pkg_stackReady (fn n : Nat) (d : Dev) : (interrupt fn n d).pkg.stackReady = d.pkg.stackReady := by unfold interrupt; (repeat' split) <;> rfl
@[simp] theorem interrupt_pkg_octReady (fn n : Nat) (d : Dev) : (interrupt fn n d).pkg.octReady = d.pkg.octReady := by unfold interrupt; (repeat' split) <;> rfl
@[simp] theorem interrupt_pkg_portReady (fn n : Nat) (d : Dev) : (interrupt fn n d).pkg.portReady = d.pkg.portReady := by unfold interrupt; (repeat' split) <;> rfl
@[simp] theorem interrupt_pkg_warmResets (fn n : Nat) (d : Dev) : (interrupt fn n d).pkg.warmResets = d.pkg.warmResets := by unfold interrupt; (repeat' split) <;> rfl
@[simp] theorem interrupt_pkg_stackFailed (fn n : Nat) (d : Dev) : (interrupt fn n d).pkg.stackFailed = d.pkg.stackFailed := by unfold interrupt; (repeat' split) <;> rfl
@[simp] theorem interrupt_pkg_octFailed (fn n : Nat) (d : Dev) : (interrupt fn n d).pkg.octFailed = d.pkg.octFailed := by unfold interrupt; (repeat' split) <;> rfl
@[simp] theorem interrupt_pkg_portFailed (fn n : Nat) (d : Dev) : (interrupt fn n d).pkg.portFailed = d.pkg.portFailed := by unfold interrupt; (repeat' split) <;> rfl
@[simp] theorem interrupt_pkg_trainFails (fn n : Nat) (d : Dev) : (interrupt fn n d).pkg.trainFails = d.pkg.trainFails := by unfold interrupt; (repeat' split) <;> rfl
@[simp] theorem interrupt_pkg_speed (fn n : Nat) (d : Dev) : (interrupt fn n d).pkg.speed = d.pkg.speed := by unfold interrupt; (repeat' split) <;> rfl
@[simp] theorem interrupt_pkg_width (fn n : Nat) (d : Dev) : (interrupt fn n d).pkg.width = d.pkg.width := by unfold interrupt; (repeat' split) <;> rfl
@[simp] theorem interrupt_pkg_dlUp (fn n : Nat) (d : Dev) : (interrupt fn n d).pkg.dlUp = d.pkg.dlUp := by unfold interrupt; (repeat' split) <;> rfl
@[simp] theorem interrupt_pkg_retrains (fn n : Nat) (d : Dev) : (interrupt fn n d).pkg.retrains = d.pkg.retrains := by unfold interrupt; (repeat' split) <;> rfl
@[simp] theorem interrupt_pkg_linkTrained (fn n : Nat) (d : Dev) : (interrupt fn n d).pkg.linkTrained = d.pkg.linkTrained := by unfold interrupt; (repeat' split) <;> rfl
@[simp] theorem interrupt_pkg_busMaster (fn n : Nat) (d : Dev) : (interrupt fn n d).pkg.busMaster = d.pkg.busMaster := by unfold interrupt; (repeat' split) <;> rfl
@[simp] theorem interrupt_pkg_memSpace (fn n : Nat) (d : Dev) : (interrupt fn n d).pkg.memSpace = d.pkg.memSpace := by unfold interrupt; (repeat' split) <;> rfl
@[simp] theorem interrupt_pkg_vfEnable (fn n : Nat) (d : Dev) : (interrupt fn n d).pkg.vfEnable = d.pkg.vfEnable := by unfold interrupt; (repeat' split) <;> rfl
@[simp] theorem interrupt_pkg_numVfs (fn n : Nat) (d : Dev) : (interrupt fn n d).pkg.numVfs = d.pkg.numVfs := by unfold interrupt; (repeat' split) <;> rfl
@[simp] theorem interrupt_pkg_fnLog (fn n : Nat) (d : Dev) : (interrupt fn n d).pkg.fnLog = d.pkg.fnLog := by unfold interrupt; (repeat' split) <;> rfl
@[simp] theorem interrupt_pkg_latch (fn n : Nat) (d : Dev) : (interrupt fn n d).pkg.latch = d.pkg.latch := by unfold interrupt; (repeat' split) <;> rfl
@[simp] theorem interrupt_pkg_msixTab (fn n : Nat) (d : Dev) : (interrupt fn n d).pkg.msixTab = d.pkg.msixTab := by unfold interrupt; (repeat' split) <;> rfl
@[simp] theorem interrupt_pkg_qvec (fn n : Nat) (d : Dev) : (interrupt fn n d).pkg.qvec = d.pkg.qvec := by unfold interrupt; (repeat' split) <;> rfl

@[simp] theorem readyChanged_pkg_phase (d : Dev) : (readyChanged d).pkg.phase = d.pkg.phase := by simp [readyChanged]
@[simp] theorem readyChanged_pkg_pwrgd (d : Dev) : (readyChanged d).pkg.pwrgd = d.pkg.pwrgd := by simp [readyChanged]
@[simp] theorem readyChanged_pkg_perst (d : Dev) : (readyChanged d).pkg.perst = d.pkg.perst := by simp [readyChanged]
@[simp] theorem readyChanged_pkg_pwrgdOut (d : Dev) : (readyChanged d).pkg.pwrgdOut = d.pkg.pwrgdOut := by simp [readyChanged]
@[simp] theorem readyChanged_pkg_halt (d : Dev) : (readyChanged d).pkg.halt = d.pkg.halt := by simp [readyChanged]
@[simp] theorem readyChanged_pkg_thermtrip (d : Dev) : (readyChanged d).pkg.thermtrip = d.pkg.thermtrip := by simp [readyChanged]
@[simp] theorem readyChanged_pkg_cycleReq (d : Dev) : (readyChanged d).pkg.cycleReq = d.pkg.cycleReq := by simp [readyChanged]
@[simp] theorem readyChanged_pkg_sysclk (d : Dev) : (readyChanged d).pkg.sysclk = d.pkg.sysclk := by simp [readyChanged]
@[simp] theorem readyChanged_pkg_sysclkBack (d : Dev) : (readyChanged d).pkg.sysclkBack = d.pkg.sysclkBack := by simp [readyChanged]
@[simp] theorem readyChanged_pkg_config (d : Dev) : (readyChanged d).pkg.config = d.pkg.config := by simp [readyChanged]
@[simp] theorem readyChanged_pkg_mailbox (d : Dev) : (readyChanged d).pkg.mailbox = d.pkg.mailbox := by simp [readyChanged]
@[simp] theorem readyChanged_pkg_stackReady (d : Dev) : (readyChanged d).pkg.stackReady = d.pkg.stackReady := by simp [readyChanged]
@[simp] theorem readyChanged_pkg_octReady (d : Dev) : (readyChanged d).pkg.octReady = d.pkg.octReady := by simp [readyChanged]
@[simp] theorem readyChanged_pkg_portReady (d : Dev) : (readyChanged d).pkg.portReady = d.pkg.portReady := by simp [readyChanged]
@[simp] theorem readyChanged_pkg_warmResets (d : Dev) : (readyChanged d).pkg.warmResets = d.pkg.warmResets := by simp [readyChanged]
@[simp] theorem readyChanged_pkg_stackFailed (d : Dev) : (readyChanged d).pkg.stackFailed = d.pkg.stackFailed := by simp [readyChanged]
@[simp] theorem readyChanged_pkg_octFailed (d : Dev) : (readyChanged d).pkg.octFailed = d.pkg.octFailed := by simp [readyChanged]
@[simp] theorem readyChanged_pkg_portFailed (d : Dev) : (readyChanged d).pkg.portFailed = d.pkg.portFailed := by simp [readyChanged]
@[simp] theorem readyChanged_pkg_trainFails (d : Dev) : (readyChanged d).pkg.trainFails = d.pkg.trainFails := by simp [readyChanged]
@[simp] theorem readyChanged_pkg_speed (d : Dev) : (readyChanged d).pkg.speed = d.pkg.speed := by simp [readyChanged]
@[simp] theorem readyChanged_pkg_width (d : Dev) : (readyChanged d).pkg.width = d.pkg.width := by simp [readyChanged]
@[simp] theorem readyChanged_pkg_dlUp (d : Dev) : (readyChanged d).pkg.dlUp = d.pkg.dlUp := by simp [readyChanged]
@[simp] theorem readyChanged_pkg_retrains (d : Dev) : (readyChanged d).pkg.retrains = d.pkg.retrains := by simp [readyChanged]
@[simp] theorem readyChanged_pkg_linkTrained (d : Dev) : (readyChanged d).pkg.linkTrained = d.pkg.linkTrained := by simp [readyChanged]
@[simp] theorem readyChanged_pkg_busMaster (d : Dev) : (readyChanged d).pkg.busMaster = d.pkg.busMaster := by simp [readyChanged]
@[simp] theorem readyChanged_pkg_memSpace (d : Dev) : (readyChanged d).pkg.memSpace = d.pkg.memSpace := by simp [readyChanged]
@[simp] theorem readyChanged_pkg_vfEnable (d : Dev) : (readyChanged d).pkg.vfEnable = d.pkg.vfEnable := by simp [readyChanged]
@[simp] theorem readyChanged_pkg_numVfs (d : Dev) : (readyChanged d).pkg.numVfs = d.pkg.numVfs := by simp [readyChanged]
@[simp] theorem readyChanged_pkg_fnLog (d : Dev) : (readyChanged d).pkg.fnLog = d.pkg.fnLog := by simp [readyChanged]
@[simp] theorem readyChanged_pkg_latch (d : Dev) : (readyChanged d).pkg.latch = d.pkg.latch := by simp [readyChanged]
@[simp] theorem readyChanged_pkg_msixTab (d : Dev) : (readyChanged d).pkg.msixTab = d.pkg.msixTab := by simp [readyChanged]
@[simp] theorem readyChanged_pkg_qvec (d : Dev) : (readyChanged d).pkg.qvec = d.pkg.qvec := by simp [readyChanged]

@[simp] theorem partChanged_pkg_phase (v : Nat) (d : Dev) : (partChanged v d).pkg.phase = d.pkg.phase := by simp [partChanged]
@[simp] theorem partChanged_pkg_pwrgd (v : Nat) (d : Dev) : (partChanged v d).pkg.pwrgd = d.pkg.pwrgd := by simp [partChanged]
@[simp] theorem partChanged_pkg_perst (v : Nat) (d : Dev) : (partChanged v d).pkg.perst = d.pkg.perst := by simp [partChanged]
@[simp] theorem partChanged_pkg_pwrgdOut (v : Nat) (d : Dev) : (partChanged v d).pkg.pwrgdOut = d.pkg.pwrgdOut := by simp [partChanged]
@[simp] theorem partChanged_pkg_halt (v : Nat) (d : Dev) : (partChanged v d).pkg.halt = d.pkg.halt := by simp [partChanged]
@[simp] theorem partChanged_pkg_thermtrip (v : Nat) (d : Dev) : (partChanged v d).pkg.thermtrip = d.pkg.thermtrip := by simp [partChanged]
@[simp] theorem partChanged_pkg_cycleReq (v : Nat) (d : Dev) : (partChanged v d).pkg.cycleReq = d.pkg.cycleReq := by simp [partChanged]
@[simp] theorem partChanged_pkg_sysclk (v : Nat) (d : Dev) : (partChanged v d).pkg.sysclk = d.pkg.sysclk := by simp [partChanged]
@[simp] theorem partChanged_pkg_sysclkBack (v : Nat) (d : Dev) : (partChanged v d).pkg.sysclkBack = d.pkg.sysclkBack := by simp [partChanged]
@[simp] theorem partChanged_pkg_config (v : Nat) (d : Dev) : (partChanged v d).pkg.config = d.pkg.config := by simp [partChanged]
@[simp] theorem partChanged_pkg_mailbox (v : Nat) (d : Dev) : (partChanged v d).pkg.mailbox = d.pkg.mailbox := by simp [partChanged]
@[simp] theorem partChanged_pkg_stackReady (v : Nat) (d : Dev) : (partChanged v d).pkg.stackReady = d.pkg.stackReady := by simp [partChanged]
@[simp] theorem partChanged_pkg_octReady (v : Nat) (d : Dev) : (partChanged v d).pkg.octReady = d.pkg.octReady := by simp [partChanged]
@[simp] theorem partChanged_pkg_portReady (v : Nat) (d : Dev) : (partChanged v d).pkg.portReady = d.pkg.portReady := by simp [partChanged]
@[simp] theorem partChanged_pkg_warmResets (v : Nat) (d : Dev) : (partChanged v d).pkg.warmResets = d.pkg.warmResets := by simp [partChanged]
@[simp] theorem partChanged_pkg_stackFailed (v : Nat) (d : Dev) : (partChanged v d).pkg.stackFailed = d.pkg.stackFailed := by simp [partChanged]
@[simp] theorem partChanged_pkg_octFailed (v : Nat) (d : Dev) : (partChanged v d).pkg.octFailed = d.pkg.octFailed := by simp [partChanged]
@[simp] theorem partChanged_pkg_portFailed (v : Nat) (d : Dev) : (partChanged v d).pkg.portFailed = d.pkg.portFailed := by simp [partChanged]
@[simp] theorem partChanged_pkg_trainFails (v : Nat) (d : Dev) : (partChanged v d).pkg.trainFails = d.pkg.trainFails := by simp [partChanged]
@[simp] theorem partChanged_pkg_speed (v : Nat) (d : Dev) : (partChanged v d).pkg.speed = d.pkg.speed := by simp [partChanged]
@[simp] theorem partChanged_pkg_width (v : Nat) (d : Dev) : (partChanged v d).pkg.width = d.pkg.width := by simp [partChanged]
@[simp] theorem partChanged_pkg_dlUp (v : Nat) (d : Dev) : (partChanged v d).pkg.dlUp = d.pkg.dlUp := by simp [partChanged]
@[simp] theorem partChanged_pkg_retrains (v : Nat) (d : Dev) : (partChanged v d).pkg.retrains = d.pkg.retrains := by simp [partChanged]
@[simp] theorem partChanged_pkg_linkTrained (v : Nat) (d : Dev) : (partChanged v d).pkg.linkTrained = d.pkg.linkTrained := by simp [partChanged]
@[simp] theorem partChanged_pkg_busMaster (v : Nat) (d : Dev) : (partChanged v d).pkg.busMaster = d.pkg.busMaster := by simp [partChanged]
@[simp] theorem partChanged_pkg_memSpace (v : Nat) (d : Dev) : (partChanged v d).pkg.memSpace = d.pkg.memSpace := by simp [partChanged]
@[simp] theorem partChanged_pkg_vfEnable (v : Nat) (d : Dev) : (partChanged v d).pkg.vfEnable = d.pkg.vfEnable := by simp [partChanged]
@[simp] theorem partChanged_pkg_numVfs (v : Nat) (d : Dev) : (partChanged v d).pkg.numVfs = d.pkg.numVfs := by simp [partChanged]
@[simp] theorem partChanged_pkg_fnLog (v : Nat) (d : Dev) : (partChanged v d).pkg.fnLog = d.pkg.fnLog := by simp [partChanged]
@[simp] theorem partChanged_pkg_latch (v : Nat) (d : Dev) : (partChanged v d).pkg.latch = d.pkg.latch := by simp [partChanged]
@[simp] theorem partChanged_pkg_msixTab (v : Nat) (d : Dev) : (partChanged v d).pkg.msixTab = d.pkg.msixTab := by simp [partChanged]
@[simp] theorem partChanged_pkg_qvec (v : Nat) (d : Dev) : (partChanged v d).pkg.qvec = d.pkg.qvec := by simp [partChanged]

@[simp] theorem recordPf_pkg_phase (r : FaultRec) (d : Dev) : (recordPf r d).pkg.phase = d.pkg.phase := by simp [recordPf]
@[simp] theorem recordPf_pkg_pwrgd (r : FaultRec) (d : Dev) : (recordPf r d).pkg.pwrgd = d.pkg.pwrgd := by simp [recordPf]
@[simp] theorem recordPf_pkg_perst (r : FaultRec) (d : Dev) : (recordPf r d).pkg.perst = d.pkg.perst := by simp [recordPf]
@[simp] theorem recordPf_pkg_pwrgdOut (r : FaultRec) (d : Dev) : (recordPf r d).pkg.pwrgdOut = d.pkg.pwrgdOut := by simp [recordPf]
@[simp] theorem recordPf_pkg_halt (r : FaultRec) (d : Dev) : (recordPf r d).pkg.halt = d.pkg.halt := by simp [recordPf]
@[simp] theorem recordPf_pkg_thermtrip (r : FaultRec) (d : Dev) : (recordPf r d).pkg.thermtrip = d.pkg.thermtrip := by simp [recordPf]
@[simp] theorem recordPf_pkg_cycleReq (r : FaultRec) (d : Dev) : (recordPf r d).pkg.cycleReq = d.pkg.cycleReq := by simp [recordPf]
@[simp] theorem recordPf_pkg_sysclk (r : FaultRec) (d : Dev) : (recordPf r d).pkg.sysclk = d.pkg.sysclk := by simp [recordPf]
@[simp] theorem recordPf_pkg_sysclkBack (r : FaultRec) (d : Dev) : (recordPf r d).pkg.sysclkBack = d.pkg.sysclkBack := by simp [recordPf]
@[simp] theorem recordPf_pkg_config (r : FaultRec) (d : Dev) : (recordPf r d).pkg.config = d.pkg.config := by simp [recordPf]
@[simp] theorem recordPf_pkg_mailbox (r : FaultRec) (d : Dev) : (recordPf r d).pkg.mailbox = d.pkg.mailbox := by simp [recordPf]
@[simp] theorem recordPf_pkg_stackReady (r : FaultRec) (d : Dev) : (recordPf r d).pkg.stackReady = d.pkg.stackReady := by simp [recordPf]
@[simp] theorem recordPf_pkg_octReady (r : FaultRec) (d : Dev) : (recordPf r d).pkg.octReady = d.pkg.octReady := by simp [recordPf]
@[simp] theorem recordPf_pkg_portReady (r : FaultRec) (d : Dev) : (recordPf r d).pkg.portReady = d.pkg.portReady := by simp [recordPf]
@[simp] theorem recordPf_pkg_warmResets (r : FaultRec) (d : Dev) : (recordPf r d).pkg.warmResets = d.pkg.warmResets := by simp [recordPf]
@[simp] theorem recordPf_pkg_stackFailed (r : FaultRec) (d : Dev) : (recordPf r d).pkg.stackFailed = d.pkg.stackFailed := by simp [recordPf]
@[simp] theorem recordPf_pkg_octFailed (r : FaultRec) (d : Dev) : (recordPf r d).pkg.octFailed = d.pkg.octFailed := by simp [recordPf]
@[simp] theorem recordPf_pkg_portFailed (r : FaultRec) (d : Dev) : (recordPf r d).pkg.portFailed = d.pkg.portFailed := by simp [recordPf]
@[simp] theorem recordPf_pkg_trainFails (r : FaultRec) (d : Dev) : (recordPf r d).pkg.trainFails = d.pkg.trainFails := by simp [recordPf]
@[simp] theorem recordPf_pkg_speed (r : FaultRec) (d : Dev) : (recordPf r d).pkg.speed = d.pkg.speed := by simp [recordPf]
@[simp] theorem recordPf_pkg_width (r : FaultRec) (d : Dev) : (recordPf r d).pkg.width = d.pkg.width := by simp [recordPf]
@[simp] theorem recordPf_pkg_dlUp (r : FaultRec) (d : Dev) : (recordPf r d).pkg.dlUp = d.pkg.dlUp := by simp [recordPf]
@[simp] theorem recordPf_pkg_retrains (r : FaultRec) (d : Dev) : (recordPf r d).pkg.retrains = d.pkg.retrains := by simp [recordPf]
@[simp] theorem recordPf_pkg_linkTrained (r : FaultRec) (d : Dev) : (recordPf r d).pkg.linkTrained = d.pkg.linkTrained := by simp [recordPf]
@[simp] theorem recordPf_pkg_busMaster (r : FaultRec) (d : Dev) : (recordPf r d).pkg.busMaster = d.pkg.busMaster := by simp [recordPf]
@[simp] theorem recordPf_pkg_memSpace (r : FaultRec) (d : Dev) : (recordPf r d).pkg.memSpace = d.pkg.memSpace := by simp [recordPf]
@[simp] theorem recordPf_pkg_vfEnable (r : FaultRec) (d : Dev) : (recordPf r d).pkg.vfEnable = d.pkg.vfEnable := by simp [recordPf]
@[simp] theorem recordPf_pkg_numVfs (r : FaultRec) (d : Dev) : (recordPf r d).pkg.numVfs = d.pkg.numVfs := by simp [recordPf]
@[simp] theorem recordPf_pkg_fnLog (r : FaultRec) (d : Dev) : (recordPf r d).pkg.fnLog = d.pkg.fnLog := by simp [recordPf]
@[simp] theorem recordPf_pkg_latch (r : FaultRec) (d : Dev) : (recordPf r d).pkg.latch = d.pkg.latch := by simp [recordPf]
@[simp] theorem recordPf_pkg_msixTab (r : FaultRec) (d : Dev) : (recordPf r d).pkg.msixTab = d.pkg.msixTab := by simp [recordPf]
@[simp] theorem recordPf_pkg_qvec (r : FaultRec) (d : Dev) : (recordPf r d).pkg.qvec = d.pkg.qvec := by simp [recordPf]

@[simp] theorem recordVf_pkg_phase (r : FaultRec) (v : Nat) (d : Dev) : (recordVf r v d).pkg.phase = d.pkg.phase := by simp [recordVf]
@[simp] theorem recordVf_pkg_pwrgd (r : FaultRec) (v : Nat) (d : Dev) : (recordVf r v d).pkg.pwrgd = d.pkg.pwrgd := by simp [recordVf]
@[simp] theorem recordVf_pkg_perst (r : FaultRec) (v : Nat) (d : Dev) : (recordVf r v d).pkg.perst = d.pkg.perst := by simp [recordVf]
@[simp] theorem recordVf_pkg_pwrgdOut (r : FaultRec) (v : Nat) (d : Dev) : (recordVf r v d).pkg.pwrgdOut = d.pkg.pwrgdOut := by simp [recordVf]
@[simp] theorem recordVf_pkg_halt (r : FaultRec) (v : Nat) (d : Dev) : (recordVf r v d).pkg.halt = d.pkg.halt := by simp [recordVf]
@[simp] theorem recordVf_pkg_thermtrip (r : FaultRec) (v : Nat) (d : Dev) : (recordVf r v d).pkg.thermtrip = d.pkg.thermtrip := by simp [recordVf]
@[simp] theorem recordVf_pkg_cycleReq (r : FaultRec) (v : Nat) (d : Dev) : (recordVf r v d).pkg.cycleReq = d.pkg.cycleReq := by simp [recordVf]
@[simp] theorem recordVf_pkg_sysclk (r : FaultRec) (v : Nat) (d : Dev) : (recordVf r v d).pkg.sysclk = d.pkg.sysclk := by simp [recordVf]
@[simp] theorem recordVf_pkg_sysclkBack (r : FaultRec) (v : Nat) (d : Dev) : (recordVf r v d).pkg.sysclkBack = d.pkg.sysclkBack := by simp [recordVf]
@[simp] theorem recordVf_pkg_config (r : FaultRec) (v : Nat) (d : Dev) : (recordVf r v d).pkg.config = d.pkg.config := by simp [recordVf]
@[simp] theorem recordVf_pkg_mailbox (r : FaultRec) (v : Nat) (d : Dev) : (recordVf r v d).pkg.mailbox = d.pkg.mailbox := by simp [recordVf]
@[simp] theorem recordVf_pkg_stackReady (r : FaultRec) (v : Nat) (d : Dev) : (recordVf r v d).pkg.stackReady = d.pkg.stackReady := by simp [recordVf]
@[simp] theorem recordVf_pkg_octReady (r : FaultRec) (v : Nat) (d : Dev) : (recordVf r v d).pkg.octReady = d.pkg.octReady := by simp [recordVf]
@[simp] theorem recordVf_pkg_portReady (r : FaultRec) (v : Nat) (d : Dev) : (recordVf r v d).pkg.portReady = d.pkg.portReady := by simp [recordVf]
@[simp] theorem recordVf_pkg_warmResets (r : FaultRec) (v : Nat) (d : Dev) : (recordVf r v d).pkg.warmResets = d.pkg.warmResets := by simp [recordVf]
@[simp] theorem recordVf_pkg_stackFailed (r : FaultRec) (v : Nat) (d : Dev) : (recordVf r v d).pkg.stackFailed = d.pkg.stackFailed := by simp [recordVf]
@[simp] theorem recordVf_pkg_octFailed (r : FaultRec) (v : Nat) (d : Dev) : (recordVf r v d).pkg.octFailed = d.pkg.octFailed := by simp [recordVf]
@[simp] theorem recordVf_pkg_portFailed (r : FaultRec) (v : Nat) (d : Dev) : (recordVf r v d).pkg.portFailed = d.pkg.portFailed := by simp [recordVf]
@[simp] theorem recordVf_pkg_trainFails (r : FaultRec) (v : Nat) (d : Dev) : (recordVf r v d).pkg.trainFails = d.pkg.trainFails := by simp [recordVf]
@[simp] theorem recordVf_pkg_speed (r : FaultRec) (v : Nat) (d : Dev) : (recordVf r v d).pkg.speed = d.pkg.speed := by simp [recordVf]
@[simp] theorem recordVf_pkg_width (r : FaultRec) (v : Nat) (d : Dev) : (recordVf r v d).pkg.width = d.pkg.width := by simp [recordVf]
@[simp] theorem recordVf_pkg_dlUp (r : FaultRec) (v : Nat) (d : Dev) : (recordVf r v d).pkg.dlUp = d.pkg.dlUp := by simp [recordVf]
@[simp] theorem recordVf_pkg_retrains (r : FaultRec) (v : Nat) (d : Dev) : (recordVf r v d).pkg.retrains = d.pkg.retrains := by simp [recordVf]
@[simp] theorem recordVf_pkg_linkTrained (r : FaultRec) (v : Nat) (d : Dev) : (recordVf r v d).pkg.linkTrained = d.pkg.linkTrained := by simp [recordVf]
@[simp] theorem recordVf_pkg_busMaster (r : FaultRec) (v : Nat) (d : Dev) : (recordVf r v d).pkg.busMaster = d.pkg.busMaster := by simp [recordVf]
@[simp] theorem recordVf_pkg_memSpace (r : FaultRec) (v : Nat) (d : Dev) : (recordVf r v d).pkg.memSpace = d.pkg.memSpace := by simp [recordVf]
@[simp] theorem recordVf_pkg_vfEnable (r : FaultRec) (v : Nat) (d : Dev) : (recordVf r v d).pkg.vfEnable = d.pkg.vfEnable := by simp [recordVf]
@[simp] theorem recordVf_pkg_numVfs (r : FaultRec) (v : Nat) (d : Dev) : (recordVf r v d).pkg.numVfs = d.pkg.numVfs := by simp [recordVf]
@[simp] theorem recordVf_pkg_fnLog (r : FaultRec) (v : Nat) (d : Dev) : (recordVf r v d).pkg.fnLog = d.pkg.fnLog := by simp [recordVf]
@[simp] theorem recordVf_pkg_latch (r : FaultRec) (v : Nat) (d : Dev) : (recordVf r v d).pkg.latch = d.pkg.latch := by simp [recordVf]
@[simp] theorem recordVf_pkg_msixTab (r : FaultRec) (v : Nat) (d : Dev) : (recordVf r v d).pkg.msixTab = d.pkg.msixTab := by simp [recordVf]
@[simp] theorem recordVf_pkg_qvec (r : FaultRec) (v : Nat) (d : Dev) : (recordVf r v d).pkg.qvec = d.pkg.qvec := by simp [recordVf]

@[simp] theorem record_pkg_phase (r : FaultRec) (b : Bool) (d : Dev) : (record r b d).pkg.phase = d.pkg.phase := by
  unfold record; split
  · rfl
  · dsimp only; split <;> simp
@[simp] theorem record_pkg_pwrgd (r : FaultRec) (b : Bool) (d : Dev) : (record r b d).pkg.pwrgd = d.pkg.pwrgd := by
  unfold record; split
  · rfl
  · dsimp only; split <;> simp
@[simp] theorem record_pkg_perst (r : FaultRec) (b : Bool) (d : Dev) : (record r b d).pkg.perst = d.pkg.perst := by
  unfold record; split
  · rfl
  · dsimp only; split <;> simp
@[simp] theorem record_pkg_pwrgdOut (r : FaultRec) (b : Bool) (d : Dev) : (record r b d).pkg.pwrgdOut = d.pkg.pwrgdOut := by
  unfold record; split
  · rfl
  · dsimp only; split <;> simp
@[simp] theorem record_pkg_halt (r : FaultRec) (b : Bool) (d : Dev) : (record r b d).pkg.halt = d.pkg.halt := by
  unfold record; split
  · rfl
  · dsimp only; split <;> simp
@[simp] theorem record_pkg_thermtrip (r : FaultRec) (b : Bool) (d : Dev) : (record r b d).pkg.thermtrip = d.pkg.thermtrip := by
  unfold record; split
  · rfl
  · dsimp only; split <;> simp
@[simp] theorem record_pkg_cycleReq (r : FaultRec) (b : Bool) (d : Dev) : (record r b d).pkg.cycleReq = d.pkg.cycleReq := by
  unfold record; split
  · rfl
  · dsimp only; split <;> simp
@[simp] theorem record_pkg_sysclk (r : FaultRec) (b : Bool) (d : Dev) : (record r b d).pkg.sysclk = d.pkg.sysclk := by
  unfold record; split
  · rfl
  · dsimp only; split <;> simp
@[simp] theorem record_pkg_sysclkBack (r : FaultRec) (b : Bool) (d : Dev) : (record r b d).pkg.sysclkBack = d.pkg.sysclkBack := by
  unfold record; split
  · rfl
  · dsimp only; split <;> simp
@[simp] theorem record_pkg_config (r : FaultRec) (b : Bool) (d : Dev) : (record r b d).pkg.config = d.pkg.config := by
  unfold record; split
  · rfl
  · dsimp only; split <;> simp
@[simp] theorem record_pkg_mailbox (r : FaultRec) (b : Bool) (d : Dev) : (record r b d).pkg.mailbox = d.pkg.mailbox := by
  unfold record; split
  · rfl
  · dsimp only; split <;> simp
@[simp] theorem record_pkg_stackReady (r : FaultRec) (b : Bool) (d : Dev) : (record r b d).pkg.stackReady = d.pkg.stackReady := by
  unfold record; split
  · rfl
  · dsimp only; split <;> simp
@[simp] theorem record_pkg_octReady (r : FaultRec) (b : Bool) (d : Dev) : (record r b d).pkg.octReady = d.pkg.octReady := by
  unfold record; split
  · rfl
  · dsimp only; split <;> simp
@[simp] theorem record_pkg_portReady (r : FaultRec) (b : Bool) (d : Dev) : (record r b d).pkg.portReady = d.pkg.portReady := by
  unfold record; split
  · rfl
  · dsimp only; split <;> simp
@[simp] theorem record_pkg_warmResets (r : FaultRec) (b : Bool) (d : Dev) : (record r b d).pkg.warmResets = d.pkg.warmResets := by
  unfold record; split
  · rfl
  · dsimp only; split <;> simp
@[simp] theorem record_pkg_stackFailed (r : FaultRec) (b : Bool) (d : Dev) : (record r b d).pkg.stackFailed = d.pkg.stackFailed := by
  unfold record; split
  · rfl
  · dsimp only; split <;> simp
@[simp] theorem record_pkg_octFailed (r : FaultRec) (b : Bool) (d : Dev) : (record r b d).pkg.octFailed = d.pkg.octFailed := by
  unfold record; split
  · rfl
  · dsimp only; split <;> simp
@[simp] theorem record_pkg_portFailed (r : FaultRec) (b : Bool) (d : Dev) : (record r b d).pkg.portFailed = d.pkg.portFailed := by
  unfold record; split
  · rfl
  · dsimp only; split <;> simp
@[simp] theorem record_pkg_trainFails (r : FaultRec) (b : Bool) (d : Dev) : (record r b d).pkg.trainFails = d.pkg.trainFails := by
  unfold record; split
  · rfl
  · dsimp only; split <;> simp
@[simp] theorem record_pkg_speed (r : FaultRec) (b : Bool) (d : Dev) : (record r b d).pkg.speed = d.pkg.speed := by
  unfold record; split
  · rfl
  · dsimp only; split <;> simp
@[simp] theorem record_pkg_width (r : FaultRec) (b : Bool) (d : Dev) : (record r b d).pkg.width = d.pkg.width := by
  unfold record; split
  · rfl
  · dsimp only; split <;> simp
@[simp] theorem record_pkg_dlUp (r : FaultRec) (b : Bool) (d : Dev) : (record r b d).pkg.dlUp = d.pkg.dlUp := by
  unfold record; split
  · rfl
  · dsimp only; split <;> simp
@[simp] theorem record_pkg_retrains (r : FaultRec) (b : Bool) (d : Dev) : (record r b d).pkg.retrains = d.pkg.retrains := by
  unfold record; split
  · rfl
  · dsimp only; split <;> simp
@[simp] theorem record_pkg_linkTrained (r : FaultRec) (b : Bool) (d : Dev) : (record r b d).pkg.linkTrained = d.pkg.linkTrained := by
  unfold record; split
  · rfl
  · dsimp only; split <;> simp
@[simp] theorem record_pkg_busMaster (r : FaultRec) (b : Bool) (d : Dev) : (record r b d).pkg.busMaster = d.pkg.busMaster := by
  unfold record; split
  · rfl
  · dsimp only; split <;> simp
@[simp] theorem record_pkg_memSpace (r : FaultRec) (b : Bool) (d : Dev) : (record r b d).pkg.memSpace = d.pkg.memSpace := by
  unfold record; split
  · rfl
  · dsimp only; split <;> simp
@[simp] theorem record_pkg_vfEnable (r : FaultRec) (b : Bool) (d : Dev) : (record r b d).pkg.vfEnable = d.pkg.vfEnable := by
  unfold record; split
  · rfl
  · dsimp only; split <;> simp
@[simp] theorem record_pkg_numVfs (r : FaultRec) (b : Bool) (d : Dev) : (record r b d).pkg.numVfs = d.pkg.numVfs := by
  unfold record; split
  · rfl
  · dsimp only; split <;> simp
@[simp] theorem record_pkg_fnLog (r : FaultRec) (b : Bool) (d : Dev) : (record r b d).pkg.fnLog = d.pkg.fnLog := by
  unfold record; split
  · rfl
  · dsimp only; split <;> simp
@[simp] theorem record_pkg_latch (r : FaultRec) (b : Bool) (d : Dev) : (record r b d).pkg.latch = d.pkg.latch := by
  unfold record; split
  · rfl
  · dsimp only; split <;> simp
@[simp] theorem record_pkg_msixTab (r : FaultRec) (b : Bool) (d : Dev) : (record r b d).pkg.msixTab = d.pkg.msixTab := by
  unfold record; split
  · rfl
  · dsimp only; split <;> simp
@[simp] theorem record_pkg_qvec (r : FaultRec) (b : Bool) (d : Dev) : (record r b d).pkg.qvec = d.pkg.qvec := by
  unfold record; split
  · rfl
  · dsimp only; split <;> simp

@[simp] theorem dropLog_pkg_phase (f : Fn) (r : Reason) (i a : Nat) (w : Bool) (d : Dev) : (dropLog f r i a w d).pkg.phase = d.pkg.phase := rfl
@[simp] theorem dropLog_pkg_pwrgd (f : Fn) (r : Reason) (i a : Nat) (w : Bool) (d : Dev) : (dropLog f r i a w d).pkg.pwrgd = d.pkg.pwrgd := rfl
@[simp] theorem dropLog_pkg_perst (f : Fn) (r : Reason) (i a : Nat) (w : Bool) (d : Dev) : (dropLog f r i a w d).pkg.perst = d.pkg.perst := rfl
@[simp] theorem dropLog_pkg_pwrgdOut (f : Fn) (r : Reason) (i a : Nat) (w : Bool) (d : Dev) : (dropLog f r i a w d).pkg.pwrgdOut = d.pkg.pwrgdOut := rfl
@[simp] theorem dropLog_pkg_halt (f : Fn) (r : Reason) (i a : Nat) (w : Bool) (d : Dev) : (dropLog f r i a w d).pkg.halt = d.pkg.halt := rfl
@[simp] theorem dropLog_pkg_thermtrip (f : Fn) (r : Reason) (i a : Nat) (w : Bool) (d : Dev) : (dropLog f r i a w d).pkg.thermtrip = d.pkg.thermtrip := rfl
@[simp] theorem dropLog_pkg_cycleReq (f : Fn) (r : Reason) (i a : Nat) (w : Bool) (d : Dev) : (dropLog f r i a w d).pkg.cycleReq = d.pkg.cycleReq := rfl
@[simp] theorem dropLog_pkg_sysclk (f : Fn) (r : Reason) (i a : Nat) (w : Bool) (d : Dev) : (dropLog f r i a w d).pkg.sysclk = d.pkg.sysclk := rfl
@[simp] theorem dropLog_pkg_sysclkBack (f : Fn) (r : Reason) (i a : Nat) (w : Bool) (d : Dev) : (dropLog f r i a w d).pkg.sysclkBack = d.pkg.sysclkBack := rfl
@[simp] theorem dropLog_pkg_config (f : Fn) (r : Reason) (i a : Nat) (w : Bool) (d : Dev) : (dropLog f r i a w d).pkg.config = d.pkg.config := rfl
@[simp] theorem dropLog_pkg_mailbox (f : Fn) (r : Reason) (i a : Nat) (w : Bool) (d : Dev) : (dropLog f r i a w d).pkg.mailbox = d.pkg.mailbox := rfl
@[simp] theorem dropLog_pkg_stackReady (f : Fn) (r : Reason) (i a : Nat) (w : Bool) (d : Dev) : (dropLog f r i a w d).pkg.stackReady = d.pkg.stackReady := rfl
@[simp] theorem dropLog_pkg_octReady (f : Fn) (r : Reason) (i a : Nat) (w : Bool) (d : Dev) : (dropLog f r i a w d).pkg.octReady = d.pkg.octReady := rfl
@[simp] theorem dropLog_pkg_portReady (f : Fn) (r : Reason) (i a : Nat) (w : Bool) (d : Dev) : (dropLog f r i a w d).pkg.portReady = d.pkg.portReady := rfl
@[simp] theorem dropLog_pkg_warmResets (f : Fn) (r : Reason) (i a : Nat) (w : Bool) (d : Dev) : (dropLog f r i a w d).pkg.warmResets = d.pkg.warmResets := rfl
@[simp] theorem dropLog_pkg_stackFailed (f : Fn) (r : Reason) (i a : Nat) (w : Bool) (d : Dev) : (dropLog f r i a w d).pkg.stackFailed = d.pkg.stackFailed := rfl
@[simp] theorem dropLog_pkg_octFailed (f : Fn) (r : Reason) (i a : Nat) (w : Bool) (d : Dev) : (dropLog f r i a w d).pkg.octFailed = d.pkg.octFailed := rfl
@[simp] theorem dropLog_pkg_portFailed (f : Fn) (r : Reason) (i a : Nat) (w : Bool) (d : Dev) : (dropLog f r i a w d).pkg.portFailed = d.pkg.portFailed := rfl
@[simp] theorem dropLog_pkg_trainFails (f : Fn) (r : Reason) (i a : Nat) (w : Bool) (d : Dev) : (dropLog f r i a w d).pkg.trainFails = d.pkg.trainFails := rfl
@[simp] theorem dropLog_pkg_speed (f : Fn) (r : Reason) (i a : Nat) (w : Bool) (d : Dev) : (dropLog f r i a w d).pkg.speed = d.pkg.speed := rfl
@[simp] theorem dropLog_pkg_width (f : Fn) (r : Reason) (i a : Nat) (w : Bool) (d : Dev) : (dropLog f r i a w d).pkg.width = d.pkg.width := rfl
@[simp] theorem dropLog_pkg_dlUp (f : Fn) (r : Reason) (i a : Nat) (w : Bool) (d : Dev) : (dropLog f r i a w d).pkg.dlUp = d.pkg.dlUp := rfl
@[simp] theorem dropLog_pkg_retrains (f : Fn) (r : Reason) (i a : Nat) (w : Bool) (d : Dev) : (dropLog f r i a w d).pkg.retrains = d.pkg.retrains := rfl
@[simp] theorem dropLog_pkg_linkTrained (f : Fn) (r : Reason) (i a : Nat) (w : Bool) (d : Dev) : (dropLog f r i a w d).pkg.linkTrained = d.pkg.linkTrained := rfl
@[simp] theorem dropLog_pkg_busMaster (f : Fn) (r : Reason) (i a : Nat) (w : Bool) (d : Dev) : (dropLog f r i a w d).pkg.busMaster = d.pkg.busMaster := rfl
@[simp] theorem dropLog_pkg_memSpace (f : Fn) (r : Reason) (i a : Nat) (w : Bool) (d : Dev) : (dropLog f r i a w d).pkg.memSpace = d.pkg.memSpace := rfl
@[simp] theorem dropLog_pkg_vfEnable (f : Fn) (r : Reason) (i a : Nat) (w : Bool) (d : Dev) : (dropLog f r i a w d).pkg.vfEnable = d.pkg.vfEnable := rfl
@[simp] theorem dropLog_pkg_numVfs (f : Fn) (r : Reason) (i a : Nat) (w : Bool) (d : Dev) : (dropLog f r i a w d).pkg.numVfs = d.pkg.numVfs := rfl
@[simp] theorem dropLog_pkg_latch (f : Fn) (r : Reason) (i a : Nat) (w : Bool) (d : Dev) : (dropLog f r i a w d).pkg.latch = d.pkg.latch := rfl
@[simp] theorem dropLog_pkg_msixSent (f : Fn) (r : Reason) (i a : Nat) (w : Bool) (d : Dev) : (dropLog f r i a w d).pkg.msixSent = d.pkg.msixSent := rfl
@[simp] theorem dropLog_pkg_msixPend (f : Fn) (r : Reason) (i a : Nat) (w : Bool) (d : Dev) : (dropLog f r i a w d).pkg.msixPend = d.pkg.msixPend := rfl
@[simp] theorem dropLog_pkg_msixTab (f : Fn) (r : Reason) (i a : Nat) (w : Bool) (d : Dev) : (dropLog f r i a w d).pkg.msixTab = d.pkg.msixTab := rfl
@[simp] theorem dropLog_pkg_qvec (f : Fn) (r : Reason) (i a : Nat) (w : Bool) (d : Dev) : (dropLog f r i a w d).pkg.qvec = d.pkg.qvec := rfl

@[simp] theorem mboxEnd_pkg_phase (r : Reason) (l : List Byte) (d : Dev) : (mboxEnd r l d).pkg.phase = d.pkg.phase := by
  unfold mboxEnd; split
  · rfl
  · dsimp only; split <;> simp
@[simp] theorem mboxEnd_pkg_pwrgd (r : Reason) (l : List Byte) (d : Dev) : (mboxEnd r l d).pkg.pwrgd = d.pkg.pwrgd := by
  unfold mboxEnd; split
  · rfl
  · dsimp only; split <;> simp
@[simp] theorem mboxEnd_pkg_perst (r : Reason) (l : List Byte) (d : Dev) : (mboxEnd r l d).pkg.perst = d.pkg.perst := by
  unfold mboxEnd; split
  · rfl
  · dsimp only; split <;> simp
@[simp] theorem mboxEnd_pkg_pwrgdOut (r : Reason) (l : List Byte) (d : Dev) : (mboxEnd r l d).pkg.pwrgdOut = d.pkg.pwrgdOut := by
  unfold mboxEnd; split
  · rfl
  · dsimp only; split <;> simp
@[simp] theorem mboxEnd_pkg_halt (r : Reason) (l : List Byte) (d : Dev) : (mboxEnd r l d).pkg.halt = d.pkg.halt := by
  unfold mboxEnd; split
  · rfl
  · dsimp only; split <;> simp
@[simp] theorem mboxEnd_pkg_thermtrip (r : Reason) (l : List Byte) (d : Dev) : (mboxEnd r l d).pkg.thermtrip = d.pkg.thermtrip := by
  unfold mboxEnd; split
  · rfl
  · dsimp only; split <;> simp
@[simp] theorem mboxEnd_pkg_cycleReq (r : Reason) (l : List Byte) (d : Dev) : (mboxEnd r l d).pkg.cycleReq = d.pkg.cycleReq := by
  unfold mboxEnd; split
  · rfl
  · dsimp only; split <;> simp
@[simp] theorem mboxEnd_pkg_sysclk (r : Reason) (l : List Byte) (d : Dev) : (mboxEnd r l d).pkg.sysclk = d.pkg.sysclk := by
  unfold mboxEnd; split
  · rfl
  · dsimp only; split <;> simp
@[simp] theorem mboxEnd_pkg_sysclkBack (r : Reason) (l : List Byte) (d : Dev) : (mboxEnd r l d).pkg.sysclkBack = d.pkg.sysclkBack := by
  unfold mboxEnd; split
  · rfl
  · dsimp only; split <;> simp
@[simp] theorem mboxEnd_pkg_config (r : Reason) (l : List Byte) (d : Dev) : (mboxEnd r l d).pkg.config = d.pkg.config := by
  unfold mboxEnd; split
  · rfl
  · dsimp only; split <;> simp
@[simp] theorem mboxEnd_pkg_mailbox (r : Reason) (l : List Byte) (d : Dev) : (mboxEnd r l d).pkg.mailbox = d.pkg.mailbox := by
  unfold mboxEnd; split
  · rfl
  · dsimp only; split <;> simp
@[simp] theorem mboxEnd_pkg_stackReady (r : Reason) (l : List Byte) (d : Dev) : (mboxEnd r l d).pkg.stackReady = d.pkg.stackReady := by
  unfold mboxEnd; split
  · rfl
  · dsimp only; split <;> simp
@[simp] theorem mboxEnd_pkg_octReady (r : Reason) (l : List Byte) (d : Dev) : (mboxEnd r l d).pkg.octReady = d.pkg.octReady := by
  unfold mboxEnd; split
  · rfl
  · dsimp only; split <;> simp
@[simp] theorem mboxEnd_pkg_portReady (r : Reason) (l : List Byte) (d : Dev) : (mboxEnd r l d).pkg.portReady = d.pkg.portReady := by
  unfold mboxEnd; split
  · rfl
  · dsimp only; split <;> simp
@[simp] theorem mboxEnd_pkg_warmResets (r : Reason) (l : List Byte) (d : Dev) : (mboxEnd r l d).pkg.warmResets = d.pkg.warmResets := by
  unfold mboxEnd; split
  · rfl
  · dsimp only; split <;> simp
@[simp] theorem mboxEnd_pkg_stackFailed (r : Reason) (l : List Byte) (d : Dev) : (mboxEnd r l d).pkg.stackFailed = d.pkg.stackFailed := by
  unfold mboxEnd; split
  · rfl
  · dsimp only; split <;> simp
@[simp] theorem mboxEnd_pkg_octFailed (r : Reason) (l : List Byte) (d : Dev) : (mboxEnd r l d).pkg.octFailed = d.pkg.octFailed := by
  unfold mboxEnd; split
  · rfl
  · dsimp only; split <;> simp
@[simp] theorem mboxEnd_pkg_portFailed (r : Reason) (l : List Byte) (d : Dev) : (mboxEnd r l d).pkg.portFailed = d.pkg.portFailed := by
  unfold mboxEnd; split
  · rfl
  · dsimp only; split <;> simp
@[simp] theorem mboxEnd_pkg_trainFails (r : Reason) (l : List Byte) (d : Dev) : (mboxEnd r l d).pkg.trainFails = d.pkg.trainFails := by
  unfold mboxEnd; split
  · rfl
  · dsimp only; split <;> simp
@[simp] theorem mboxEnd_pkg_speed (r : Reason) (l : List Byte) (d : Dev) : (mboxEnd r l d).pkg.speed = d.pkg.speed := by
  unfold mboxEnd; split
  · rfl
  · dsimp only; split <;> simp
@[simp] theorem mboxEnd_pkg_width (r : Reason) (l : List Byte) (d : Dev) : (mboxEnd r l d).pkg.width = d.pkg.width := by
  unfold mboxEnd; split
  · rfl
  · dsimp only; split <;> simp
@[simp] theorem mboxEnd_pkg_dlUp (r : Reason) (l : List Byte) (d : Dev) : (mboxEnd r l d).pkg.dlUp = d.pkg.dlUp := by
  unfold mboxEnd; split
  · rfl
  · dsimp only; split <;> simp
@[simp] theorem mboxEnd_pkg_retrains (r : Reason) (l : List Byte) (d : Dev) : (mboxEnd r l d).pkg.retrains = d.pkg.retrains := by
  unfold mboxEnd; split
  · rfl
  · dsimp only; split <;> simp
@[simp] theorem mboxEnd_pkg_linkTrained (r : Reason) (l : List Byte) (d : Dev) : (mboxEnd r l d).pkg.linkTrained = d.pkg.linkTrained := by
  unfold mboxEnd; split
  · rfl
  · dsimp only; split <;> simp
@[simp] theorem mboxEnd_pkg_busMaster (r : Reason) (l : List Byte) (d : Dev) : (mboxEnd r l d).pkg.busMaster = d.pkg.busMaster := by
  unfold mboxEnd; split
  · rfl
  · dsimp only; split <;> simp
@[simp] theorem mboxEnd_pkg_memSpace (r : Reason) (l : List Byte) (d : Dev) : (mboxEnd r l d).pkg.memSpace = d.pkg.memSpace := by
  unfold mboxEnd; split
  · rfl
  · dsimp only; split <;> simp
@[simp] theorem mboxEnd_pkg_vfEnable (r : Reason) (l : List Byte) (d : Dev) : (mboxEnd r l d).pkg.vfEnable = d.pkg.vfEnable := by
  unfold mboxEnd; split
  · rfl
  · dsimp only; split <;> simp
@[simp] theorem mboxEnd_pkg_numVfs (r : Reason) (l : List Byte) (d : Dev) : (mboxEnd r l d).pkg.numVfs = d.pkg.numVfs := by
  unfold mboxEnd; split
  · rfl
  · dsimp only; split <;> simp
@[simp] theorem mboxEnd_pkg_fnLog (r : Reason) (l : List Byte) (d : Dev) : (mboxEnd r l d).pkg.fnLog = d.pkg.fnLog := by
  unfold mboxEnd; split
  · rfl
  · dsimp only; split <;> simp
@[simp] theorem mboxEnd_pkg_latch (r : Reason) (l : List Byte) (d : Dev) : (mboxEnd r l d).pkg.latch = d.pkg.latch := by
  unfold mboxEnd; split
  · rfl
  · dsimp only; split <;> simp
@[simp] theorem mboxEnd_pkg_msixTab (r : Reason) (l : List Byte) (d : Dev) : (mboxEnd r l d).pkg.msixTab = d.pkg.msixTab := by
  unfold mboxEnd; split
  · rfl
  · dsimp only; split <;> simp
@[simp] theorem mboxEnd_pkg_qvec (r : Reason) (l : List Byte) (d : Dev) : (mboxEnd r l d).pkg.qvec = d.pkg.qvec := by
  unfold mboxEnd; split
  · rfl
  · dsimp only; split <;> simp

end Sys2Proof.Machine
end

