-- ==== Sys2Proof/Laws/Meta.lean ====
section
/-!
SUPPORT. What the metadata engine's operations keep: the tree and the cache change, and nothing else of the device does.
-/
namespace Sys2Proof.Laws
open Sys2Proof.Machine

/-- A device with the metadata of another: stored lines and tags, the caches and the roots. -/
def withMeta (a b : Dev) : Dev := { a with cas := b.cas, stack := b.stack, ret := { a.ret with root := b.ret.root } }

/-- A stack without its metadata cache. -/
def noCache (x : Stack) : Stack := { x with cache := [], pinAll := false, pins := [], pinDirty := [] }

/-- Two devices differ in their metadata at most. -/
structure MetaKeeps (a b : Dev) : Prop where
  rest : withMeta a b = b
  stack : ∀ t, noCache (getStack a t) = noCache (getStack b t)

theorem MetaKeeps.refl (a : Dev) : MetaKeeps a a := ⟨rfl, fun _ => rfl⟩

theorem MetaKeeps.trans {a b c : Dev} (h : MetaKeeps a b) (k : MetaKeeps b c) : MetaKeeps a c :=
  ⟨calc withMeta a c = withMeta (withMeta a b) c := rfl
      _ = withMeta b c := by rw [h.rest]
      _ = c := k.rest, fun t => (h.stack t).trans (k.stack t)⟩

theorem MetaKeeps.pkg {a b : Dev} (h : MetaKeeps a b) : b.pkg = a.pkg := by rw [← h.rest]; rfl
theorem MetaKeeps.page {a b : Dev} (h : MetaKeeps a b) : b.page = a.page := by rw [← h.rest]; rfl
theorem MetaKeeps.ctx {a b : Dev} (h : MetaKeeps a b) : b.ctx = a.ctx := by rw [← h.rest]; rfl
theorem MetaKeeps.cmds {a b : Dev} (h : MetaKeeps a b) : b.cmds = a.cmds := by rw [← h.rest]; rfl
theorem MetaKeeps.tck {a b : Dev} (h : MetaKeeps a b) : b.tck = a.tck := by rw [← h.rest]; rfl
theorem MetaKeeps.blk {a b : Dev} (h : MetaKeeps a b) : b.blk = a.blk := by rw [← h.rest]; rfl
theorem MetaKeeps.hbm {a b : Dev} (h : MetaKeeps a b) : b.hbm = a.hbm := by rw [← h.rest]; rfl
theorem MetaKeeps.cmem {a b : Dev} (h : MetaKeeps a b) : b.cmem = a.cmem := by rw [← h.rest]; rfl
theorem MetaKeeps.spad {a b : Dev} (h : MetaKeeps a b) : b.spad = a.spad := by rw [← h.rest]; rfl
theorem MetaKeeps.acc {a b : Dev} (h : MetaKeeps a b) : b.acc = a.acc := by rw [← h.rest]; rfl
theorem MetaKeeps.flash {a b : Dev} (h : MetaKeeps a b) : b.flash = a.flash := by rw [← h.rest]; rfl
theorem MetaKeeps.ump {a b : Dev} (h : MetaKeeps a b) : b.ump = a.ump := by rw [← h.rest]; rfl
theorem MetaKeeps.part {a b : Dev} (h : MetaKeeps a b) : b.part = a.part := by rw [← h.rest]; rfl
theorem MetaKeeps.sht {a b : Dev} (h : MetaKeeps a b) : b.sht = a.sht := by rw [← h.rest]; rfl
theorem MetaKeeps.ptr {a b : Dev} (h : MetaKeeps a b) : b.ptr = a.ptr := by rw [← h.rest]; rfl
theorem MetaKeeps.fuse {a b : Dev} (h : MetaKeeps a b) : b.fuse = a.fuse := by rw [← h.rest]; rfl
theorem MetaKeeps.region {a b : Dev} (h : MetaKeeps a b) : b.region = a.region := by rw [← h.rest]; rfl

theorem MetaKeeps.alarmMs {a b : Dev} (h : MetaKeeps a b) (t : Nat) : (getStack b t).alarmMs = (getStack a t).alarmMs :=
  (congrArg Stack.alarmMs (h.stack t)).symm

/-- A fold of steps that keep the rest keeps it. -/
theorem metaKeeps_foldl {β : Type} (g : Dev → β → Dev) (hg : ∀ d x, MetaKeeps d (g d x)) (l : List β) (d : Dev) :
    MetaKeeps d (l.foldl g d) := by
  induction l generalizing d with
  | nil => exact MetaKeeps.refl d
  | cons a t ih => exact (hg d a).trans (ih _)

/-- A change of the cache of a stack. -/
theorem metaKeeps_setStack (s : Nat) (f : Stack → Stack) (hf : ∀ x, noCache (f x) = noCache x) (d : Dev) :
    MetaKeeps d (setStack s f d) := by
  refine ⟨rfl, fun t => ?_⟩
  by_cases h : t = s
  · subst h; rw [getStack_setStack, hf]
  · rw [getStack_setStack_ne _ _ _ _ h]

theorem metaKeeps_cas (c : CasStore) (d : Dev) : MetaKeeps d { d with cas := c } := ⟨rfl, fun _ => rfl⟩

theorem metaKeeps_setCopySlot (s level c : Nat) (x : BitVec 32) (d : Dev) : MetaKeeps d (setCopySlot s level c x d) := by
  unfold setCopySlot; split <;> exact ⟨rfl, fun _ => rfl⟩

theorem metaKeeps_writeCopies (s level l : Nat) (d : Dev) : MetaKeeps d (writeCopies s level l d) := ⟨rfl, fun _ => rfl⟩

theorem metaKeeps_setDirty (s : Nat) (m : MetaLine) (b : Bool) (d : Dev) : MetaKeeps d (setDirty s m b d) := by
  unfold setDirty; split <;> (refine metaKeeps_setStack _ _ ?_ _; intro _; rfl)

theorem metaKeeps_useLine (s : Nat) (m : MetaLine) (f : CacheLine → CacheLine) (d : Dev) : MetaKeeps d (useLine s m f d) :=
  by
  refine metaKeeps_setStack _ _ ?_ _; intro x; split <;> rfl

theorem metaKeeps_digestLine (s level l : Nat) (d : Dev) : MetaKeeps d (digestLine s level l d) :=
  metaKeeps_foldl _ (fun d j => by
    split
    · exact metaKeeps_setCopySlot _ _ _ _ _
    · exact MetaKeeps.refl d) _ _

theorem metaKeeps_slotChanged (s n level l : Nat) (d : Dev) : MetaKeeps d (slotChanged s n level l d) := by
  induction n generalizing level l d with
  | zero => exact MetaKeeps.refl d
  | succ n ih =>
    unfold slotChanged; split
    · exact metaKeeps_setDirty _ _ _ _
    · exact ((metaKeeps_writeCopies _ _ _ _).trans (metaKeeps_digestLine _ _ _ _)).trans (ih _ _ _)

theorem metaKeeps_writeBack (s : Nat) (m : MetaLine) (d : Dev) : MetaKeeps d (writeBack s m d) := by
  cases m with
  | tag => exact MetaKeeps.refl d
  | ctr p =>
    exact ((metaKeeps_cas _ d).trans (metaKeeps_setCopySlot _ _ _ _ _)).trans (metaKeeps_slotChanged _ _ _ _ _)
  | node level l =>
    exact ((metaKeeps_writeCopies _ _ _ _).trans (metaKeeps_digestLine _ _ _ _)).trans (metaKeeps_slotChanged _ _ _ _ _)

theorem metaKeeps_cleanLine (s : Nat) (m : MetaLine) (d : Dev) : MetaKeeps d (cleanLine s m d) :=
  (metaKeeps_setDirty _ _ _ _).trans (metaKeeps_writeBack _ _ _)

theorem metaKeeps_flushMeta (s : Nat) (d : Dev) : MetaKeeps d (flushMeta s d) :=
  (metaKeeps_foldl _ (fun d m => metaKeeps_cleanLine s m d) _ _).trans
    (metaKeeps_foldl _ (fun d _ => metaKeeps_foldl _ (fun d m => metaKeeps_cleanLine s m d) _ d) _ _)

theorem metaKeeps_dropMeta (s : Nat) (d : Dev) : MetaKeeps d (dropMeta s d) :=
  (metaKeeps_flushMeta s d).trans (by refine metaKeeps_setStack _ _ ?_ _; intro _; rfl)

theorem metaKeeps_enterLine (s : Nat) (m : MetaLine) (b : Bool) (v : BitVec 8) (d : Dev) : MetaKeeps d (enterLine s m b v d) := by
  unfold enterLine; split
  · (refine metaKeeps_setStack _ _ ?_ _; intro _; rfl)
  · refine MetaKeeps.trans ?_ (by refine metaKeeps_setStack _ _ ?_ _; intro _; rfl)
    dsimp only; split
    · exact MetaKeeps.refl d
    · split
      · exact MetaKeeps.refl d
      · split
        · refine MetaKeeps.trans ?_ (metaKeeps_writeBack _ _ _)
          refine metaKeeps_setStack _ _ ?_ _; intro _; rfl
        · (refine metaKeeps_setStack _ _ ?_ _; intro _; rfl)

theorem metaKeeps_ctrChanged (page : Nat) (d : Dev) : MetaKeeps d (ctrChanged page d) := by
  unfold ctrChanged; dsimp only; split
  · exact metaKeeps_setDirty _ _ _ _
  · exact metaKeeps_enterLine _ _ _ _ _

theorem metaKeeps_tagsWritten (line : Nat) (mask : BitVec 8) (d : Dev) : MetaKeeps d (tagsWritten line mask d) := by
  unfold tagsWritten; dsimp only; split
  · exact metaKeeps_useLine _ _ _ _
  · exact metaKeeps_enterLine _ _ _ _ _

theorem metaKeeps_buildTree (s : Nat) (d : Dev) : MetaKeeps d (buildTree s d) :=
 by
  unfold buildTree
  refine MetaKeeps.trans (b := { d with ret := _, cas := _ }) ?_ (by refine metaKeeps_setStack _ _ ?_ _; intro _; rfl)
  exact ⟨rfl, fun _ => rfl⟩

theorem setPages_eq (pages : List Nat) (d : Dev) :
    ∃ p, pages.foldl (fun d pg => setPage pg zeroPage d) d = { d with page := p } := by
  induction pages generalizing d with
  | nil => exact ⟨d.page, rfl⟩
  | cons a t ih => obtain ⟨p, h⟩ := ih (setPage a zeroPage d); exact ⟨p, h⟩

/-- Zeroed pages: their counters change, and else the metadata at most. -/
theorem metaKeeps_zeroPages (pages : List Nat) (d : Dev) : ∃ p, MetaKeeps { d with page := p } (zeroPages pages d) := by
  obtain ⟨p, h⟩ := setPages_eq pages d
  refine ⟨p, ?_⟩
  unfold zeroPages
  dsimp only
  rw [h]
  refine (metaKeeps_foldl _ ?_ _ _).trans (metaKeeps_foldl _ ?_ _ _)
  · intro d x; exact metaKeeps_cleanLine _ _ _
  · intro d x; exact metaKeeps_foldl _ (fun d e => metaKeeps_cleanLine _ _ _) _ _

theorem meetLine_nil (t r : Nat) (d : Dev) : meetLine t r [] d = (true, d) := rfl

theorem clean_parts : LineEvent.clean.parts = [] := by decide

/-- A walk of the tree on which nothing goes wrong reaches a trusted line (R187). -/
theorem fetchTree_clean (s r : Nat) : ∀ (n level l : Nat) (d : Dev), (fetchTree s r .clean n level l d).1 = true ∧ MetaKeeps d (fetchTree s r .clean n level l d).2 := by
  intro n
  induction n with
  | zero => intro level l d; simp [fetchTree, clean_parts, MetaKeeps.refl]
  | succ n ih =>
    intro level l d
    unfold fetchTree
    dsimp only
    split
    · exact ⟨rfl, metaKeeps_useLine _ _ _ _⟩
    · obtain ⟨h1, h2⟩ := ih (level + 1) (l / 8) d
      generalize hX : fetchTree s r .clean n (level + 1) (l / 8) d = X at *
      obtain ⟨a, b⟩ := X
      dsimp only at h1 h2 ⊢
      subst h1
      simp only [Bool.not_true, Bool.false_eq_true, if_false, clean_parts, meetLine_nil]
      exact ⟨trivial, h2.trans (metaKeeps_enterLine _ _ _ _ _)⟩

/-- A fetch of a counter line on which nothing goes wrong brings it in (R187). -/
theorem fetchCtr_clean (pg r : Nat) (d : Dev) : (fetchCtr pg r .clean d).1 = true ∧ MetaKeeps d (fetchCtr pg r .clean d).2 := by
  unfold fetchCtr
  dsimp only
  split
  · exact ⟨rfl, metaKeeps_useLine _ _ _ _⟩
  · obtain ⟨h1, h2⟩ := fetchTree_clean (pg / 2 ^ 25) r 8 1 (pg % 2 ^ 25 / 16) d
    generalize hX : fetchTree (pg / 2 ^ 25) r .clean 8 1 (pg % 2 ^ 25 / 16) d = X at *
    obtain ⟨a, b⟩ := X
    dsimp only at h1 h2 ⊢
    subst h1
    simp only [Bool.not_true, Bool.false_eq_true, if_false, clean_parts, meetLine_nil]
    exact ⟨trivial, h2.trans (metaKeeps_enterLine _ _ _ _ _)⟩

theorem metaKeeps_sealLine (l : Nat) (d : Dev) : MetaKeeps d (sealLine l d) := by
  unfold sealLine; exact metaKeeps_cas _ _

theorem metaKeeps_sealLines (pg : Nat) (is : List Nat) (d : Dev) : MetaKeeps d (sealLines pg is d) := by
  unfold sealLines
  refine (metaKeeps_foldl _ ?_ _ _).trans (metaKeeps_foldl _ ?_ _ _)
  · intro d x; exact metaKeeps_sealLine _ _
  · intro d x; dsimp only; split
    · exact MetaKeeps.refl _
    · exact metaKeeps_tagsWritten _ _ _

theorem MetaKeeps.out {a b : Dev} (h : MetaKeeps a b) : b.out = a.out := by rw [← h.rest]; rfl

end Sys2Proof.Laws
end

