-- ==== Sys2Proof/Laws/Boot.lean ====
section
/-!
SUPPORT. What the boot of Porter and of the stacks keeps, step by step.
-/
namespace Sys2Proof.Laws
open Sys2Proof.Machine

@[simp] theorem setStatus_pkg (b f d) : (setStatus b f d).pkg = d.pkg := rfl

@[simp] theorem setStatus_ret (b f d) : (setStatus b f d).ret = d.ret := rfl

@[simp] theorem setStatus_ptr (b f d) : (setStatus b f d).ptr = d.ptr := rfl

@[simp] theorem setStatus_fuse (b f d) : (setStatus b f d).fuse = d.fuse := rfl

@[simp] theorem setStatus_hbm (b f d) : (setStatus b f d).hbm = d.hbm := rfl

@[simp] theorem setStatus_stack (b f d) : (setStatus b f d).stack = d.stack := rfl

@[simp] theorem autoEnable_pkg (b d) : (autoEnable b d).pkg = d.pkg := rfl

@[simp] theorem autoEnable_ret (b d) : (autoEnable b d).ret = d.ret := rfl

@[simp] theorem autoEnable_ptr (b d) : (autoEnable b d).ptr = d.ptr := rfl

@[simp] theorem autoEnable_fuse (b d) : (autoEnable b d).fuse = d.fuse := rfl

@[simp] theorem autoEnable_hbm (b d) : (autoEnable b d).hbm = d.hbm := rfl

@[simp] theorem autoEnable_stack (b d) : (autoEnable b d).stack = d.stack := rfl

theorem foldl_keeps {β γ : Type} (P : Dev → γ) (g : Dev → β → Dev) (h : ∀ d x, P (g d x) = P d) (l : List β) (d : Dev) :
    P (l.foldl g d) = P d := by
  induction l generalizing d with
  | nil => rfl
  | cons a t ih => rw [List.foldl_cons, ih, h]

/-- what the records foldl_frame -/
structure BootKeeps (a b : Dev) : Prop where
  pkg : a.pkg = b.pkg
  ret : a.ret = b.ret
  fuse : a.fuse = b.fuse
  slot : a.ptr.slot = b.ptr.slot
  trial : a.ptr.trial = b.ptr.trial

theorem BootKeeps.refl (a : Dev) : BootKeeps a a := ⟨rfl, rfl, rfl, rfl, rfl⟩

theorem BootKeeps.trans {a b c : Dev} (h : BootKeeps a b) (k : BootKeeps b c) : BootKeeps a c :=
  ⟨h.1.trans k.1, h.2.trans k.2, h.3.trans k.3, h.4.trans k.4, h.5.trans k.5⟩

theorem bootKeeps_foldStack (y : Nat) (l : List Nat) (d : Dev) : BootKeeps (l.foldl (fun d s => setStack s (fun t => { t with alarmMs := y }) d) d) d := by
  induction l generalizing d with
  | nil => exact BootKeeps.refl d
  | cons a t ih => exact (ih _).trans ⟨rfl, rfl, rfl, rfl, rfl⟩

theorem bootKeeps_applyRecord (t i : Nat) (b : List Byte) (d : Dev) : BootKeeps (applyRecord t i b d).2 d := by
  unfold applyRecord
  dsimp only
  split
  · exact BootKeeps.refl d
  · exact BootKeeps.refl d
  · split
    · exact BootKeeps.refl d
    · exact ⟨rfl, rfl, rfl, rfl, rfl⟩
  · split
    · exact BootKeeps.refl d
    · split
      · exact BootKeeps.refl d
      · split
        · exact BootKeeps.refl d
        · exact ⟨rfl, rfl, rfl, rfl, rfl⟩
  · split
    · exact BootKeeps.refl d
    · exact ⟨rfl, rfl, rfl, rfl, rfl⟩
  · split
    · exact BootKeeps.refl d
    · exact bootKeeps_foldStack _ _ _
  · split
    · exact BootKeeps.refl d
    · exact ⟨rfl, rfl, rfl, rfl, rfl⟩
  · split
    · exact BootKeeps.refl d
    · split
      · exact ⟨rfl, rfl, rfl, rfl, rfl⟩
      · exact ⟨rfl, rfl, rfl, rfl, rfl⟩
  · split
    · exact ⟨rfl, rfl, rfl, rfl, rfl⟩
    · exact BootKeeps.refl d
  · exact BootKeeps.refl d

theorem bootKeeps_silFail (i : Nat) (r : Reason) (d : Dev) : BootKeeps (silFail i r d) d := by
  unfold silFail; split <;> exact ⟨rfl, rfl, rfl, rfl, rfl⟩

theorem bootKeeps_applyRecords (m : Memory) (l : List SilRec) (i : Nat) (seen : List (Nat × Nat)) (d : Dev) :
    BootKeeps (applyRecords m i seen l d) d := by
  induction l generalizing i seen d with
  | nil => exact BootKeeps.refl d
  | cons r t ih =>
    unfold applyRecords
    dsimp only
    split
    · exact (ih _ _ _).trans (bootKeeps_silFail _ _ _)
    · split
      · exact (ih _ _ _).trans (bootKeeps_silFail _ _ _)
      · have h := bootKeeps_applyRecord r.typ r.inst (if r.typ < 0x10 then [] else readBytes m r.off r.len) d
        split
        · next x heq => rw [heq] at h; exact (ih _ _ _).trans h
        · next x heq => rw [heq] at h; exact (ih _ _ _).trans ((bootKeeps_silFail _ _ _).trans h)

theorem bootKeeps_autoEnable (b : Block) (d : Dev) : BootKeeps (autoEnable b d) d := ⟨rfl, rfl, rfl, rfl, rfl⟩

theorem bootKeeps_bootEnables (d : Dev) : BootKeeps (bootEnables d) d := by
  unfold bootEnables
  refine (bootKeeps_autoEnable _ _).trans ((bootKeeps_autoEnable _ _).trans ((bootKeeps_autoEnable _ _).trans ((bootKeeps_autoEnable _ _).trans ((bootKeeps_autoEnable _ _).trans ⟨rfl, rfl, rfl, rfl, rfl⟩))))

theorem bootKeeps_openUserRecs (d : Dev) : BootKeeps (openUserRecs d) d := by
  unfold openUserRecs; dsimp only; exact ⟨rfl, rfl, rfl, rfl, rfl⟩

theorem bootKeeps_bootConfig (d : Dev) : BootKeeps (bootConfig d) d := by
  unfold bootConfig
  exact (bootKeeps_bootEnables _).trans ((bootKeeps_openUserRecs _).trans (bootKeeps_applyRecords _ _ _ _ _))

theorem readyStep_cases (f : Dev → Dev) (d : Dev) : ∃ a : Dev, a.pkg = (readyChanged (f d)).pkg ∧ a.ret = (f d).ret ∧ a.fuse = (f d).fuse ∧ a.ptr = (f d).ptr ∧ a.hbm = (f d).hbm ∧ a.blk = (f d).blk ∧ a.stack = (f d).stack ∧ readyStep f d = a := by
  unfold readyStep; dsimp only; split
  · exact ⟨_, rfl, by simp, by simp, by simp, by simp, by simp, by simp, rfl⟩
  · exact ⟨_, by simp, by simp, by simp, by simp, by simp, by simp, by simp, rfl⟩

theorem trainLink_pkg (d : Dev) : (trainLink d).pkg.phase = d.pkg.phase ∧ (trainLink d).pkg.config = d.pkg.config ∧ (trainLink d).pkg.mailbox = d.pkg.mailbox ∧ (trainLink d).pkg.pwrgdOut = d.pkg.pwrgdOut ∧ (trainLink d).ret = d.ret ∧ (trainLink d).fuse = d.fuse ∧ (trainLink d).ptr = d.ptr := by
  unfold trainLink; split <;> simp

theorem releaseConfig_facts (d : Dev) : (releaseConfig d).pkg.phase = d.pkg.phase ∧ (releaseConfig d).pkg.config = true ∧
    (releaseConfig d).pkg.mailbox = true ∧ (releaseConfig d).pkg.pwrgdOut = d.pkg.pwrgdOut ∧ (releaseConfig d).ret = d.ret ∧ (releaseConfig d).fuse = d.fuse ∧ (releaseConfig d).ptr = d.ptr := by
  unfold releaseConfig
  obtain ⟨a, h1, h2, h3, h4, -, -, -, h5⟩ := readyStep_cases (fun d => { d with pkg := { d.pkg with config := true, mailbox := true } }) d
  rw [h5]
  obtain ⟨k1, k2, k3, k4, k5, k6, k7⟩ := trainLink_pkg a
  rw [k1, k2, k3, k4, k5, k6, k7, h1, h2, h3, h4]
  simp

theorem coldKeys_facts (d : Dev) : (coldKeys d).pkg = d.pkg ∧ (coldKeys d).fuse = d.fuse ∧ (coldKeys d).ptr = d.ptr := by
  unfold coldKeys
  dsimp only [newDraw]
  refine ⟨?_, ?_, ?_⟩
  · refine foldl_keeps (fun x => x.pkg) _ ?_ _ _; intro _ _; rfl
  · refine foldl_keeps (fun x => x.fuse) _ ?_ _ _; intro _ _; rfl
  · refine foldl_keeps (fun x => x.ptr) _ ?_ _ _; intro _ _; rfl

/-- The die-link keys drawn anew: what else of the device stays (R16). -/
theorem drawDieKeys_facts (d : Dev) : (drawDieKeys d).pkg = d.pkg ∧ (drawDieKeys d).fuse = d.fuse ∧
    (drawDieKeys d).ptr.slot = d.ptr.slot ∧ (drawDieKeys d).ptr.trial = d.ptr.trial := by
  unfold drawDieKeys
  refine ⟨?_, ?_, ?_, ?_⟩
  · refine foldl_keeps (fun x => x.pkg) _ ?_ _ _; intro _ _; rfl
  · refine foldl_keeps (fun x => x.fuse) _ ?_ _ _; intro _ _; rfl
  · refine foldl_keeps (fun x => x.ptr.slot) _ ?_ _ _; intro _ _; rfl
  · refine foldl_keeps (fun x => x.ptr.trial) _ ?_ _ _; intro _ _; rfl

theorem enablePci_facts (d : Dev) : (enablePci d).pkg = d.pkg ∧ (enablePci d).ret = d.ret ∧ (enablePci d).fuse = d.fuse ∧ (enablePci d).ptr = d.ptr := by
  unfold enablePci; split <;> simp

theorem bootKeys_facts (d : Dev) : (bootKeys true d).pkg.phase = d.pkg.phase ∧ (bootKeys true d).pkg.config = true ∧
    (bootKeys true d).pkg.mailbox = true ∧ (bootKeys true d).pkg.pwrgdOut = d.pkg.pwrgdOut ∧ (bootKeys true d).ret.generation = 1 ∧
    (bootKeys true d).fuse = d.fuse ∧ (bootKeys true d).ptr.slot = d.ptr.slot ∧ (bootKeys true d).ptr.trial = d.ptr.trial := by
  unfold bootKeys
  dsimp only
  generalize hX : enablePci _ = X
  obtain ⟨a1, a2, a3, a4, a5, a6, a7⟩ := releaseConfig_facts X
  obtain ⟨e1, e2, e3, e4⟩ := enablePci_facts _
  rw [a1, a2, a3, a4, a5, a6, a7, ← hX, e1, e2, e3, e4]
  simp only [if_true]
  obtain ⟨c1, c2, c3⟩ := coldKeys_facts (drawDieKeys d)
  obtain ⟨k1, k2, k3, k4⟩ := drawDieKeys_facts d
  rw [c1, c2, c3, k1, k2, k3, k4]
  simp

theorem lockdown_phase (r : FaultRec) (d : Dev) (h : d.pkg.phase ≠ .tripped) (h2 : d.pkg.phase ≠ .unpowered) : (lockdown r d).pkg.phase = .lockdown := by
  unfold lockdown
  split
  · next k => rcases k with k | k | k
              · exact k
              · exact absurd k h
              · exact absurd k h2
  · simp [stopAndZero]

theorem porterLockdown_phase (d : Dev) (h : d.pkg.phase ≠ .tripped) (h2 : d.pkg.phase ≠ .unpowered) : (porterLockdown d).pkg.phase = .lockdown :=
  lockdown_phase _ _ h h2

theorem deriveCdi0_facts (c d) : (deriveCdi0 c d).pkg = d.pkg ∧ (deriveCdi0 c d).fuse = d.fuse ∧ (deriveCdi0 c d).ptr = d.ptr ∧ (deriveCdi0 c d).flash = d.flash := by
  unfold deriveCdi0; split <;> simp

theorem readyStep_pkg (f : Dev → Dev) (d : Dev) : (readyStep f d).pkg = (readyChanged (f d)).pkg := by
  unfold readyStep; dsimp only; split <;> simp

/-- A stack zeroed: its own lines read zero, and of the others' contents and of the alarm windows nothing changes. -/
theorem zeroStack_facts (s : Nat) (d : Dev) : (zeroStack s d).pkg = d.pkg ∧ (zeroStack s d).blk = d.blk ∧
    (∀ t, (getStack (zeroStack s d) t).alarmMs = (getStack d t).alarmMs) ∧
    (∀ pa, pa / 2 ^ 37 ≠ s → readByte (zeroStack s d).hbm pa = readByte d.hbm pa) := by
  unfold zeroStack
  dsimp only
  obtain ⟨p, h⟩ := metaKeeps_zeroPages ((d.page.filter fun e => s * 2 ^ 37 / 4096 ≤ e.1 && e.1 < (s + 1) * 2 ^ 37 / 4096).map (·.1)) d
  refine ⟨h.pkg, h.blk, fun t => h.alarmMs t, fun pa hp => ?_⟩
  show readByte (dropRange _ _ (zeroPages _ d).hbm) pa = _
  rw [h.hbm, readByte, look_dropRange, if_neg]; rfl
  intro ⟨h1, h2⟩
  exact hp (Nat.div_eq_of_lt_le h1 h2)

theorem initStack_facts (s : Nat) (d : Dev) : (initStack s d).pkg = d.pkg ∧ (initStack s d).blk = d.blk ∧
    (∀ t, (getStack (initStack s d) t).alarmMs = (getStack d t).alarmMs) ∧
    (∀ pa, pa / 2 ^ 37 ≠ s → readByte (initStack s d).hbm pa = readByte d.hbm pa) := by
  unfold initStack
  split
  · simp
  · dsimp only
    obtain ⟨h1, h2, h3, h4⟩ := zeroStack_facts s d
    refine ⟨(metaKeeps_buildTree _ _).pkg.trans h1, (metaKeeps_buildTree _ _).blk.trans h2, fun t => ?_, fun pa hp => ?_⟩
    · rw [(metaKeeps_buildTree _ _).alarmMs]
      rw [← h3 t]
      show (look Stack.reset t (alter Stack.reset s (fun x => { x with inited := true }) (zeroStack s d).stack)).alarmMs = _
      by_cases h : t = s
      · subst h; rw [look_alter_same]; rfl
      · rw [look_alter_other _ _ _ _ _ h]; rfl
    · rw [(metaKeeps_buildTree _ _).hbm]; exact h4 pa hp

theorem casCheck_congr (d e : Dev) (s : Nat) (h : ∀ t, (getStack e t).alarmMs = (getStack d t).alarmMs) (hb : e.blk = d.blk) :
    casCheck e s = casCheck d s := by
  unfold casCheck getBlk; simp only [h, hb]

@[simp] theorem recordHung_ump_free (k i r b d) : (recordHung k i r b d).free = d.free + 1 := by simp [recordHung]

theorem record_recSeq (r b) (d : Dev) (h : ringsOpen d = true) : (record r b d).ret.recSeq = (d.ret.recSeq + 1) % 2 ^ 32 := by
  unfold record
  simp only [h, Bool.not_true, Bool.false_eq_true, if_false]
  split <;> simp [recordPf, recordVf, alert]

theorem ringsOpen_live (d : Dev) (h : live d = true) : ringsOpen d = true := by
  rw [live_iff] at h; simp [ringsOpen, h]

theorem tracked_ptr_eq (f d) : (tracked f d).ptr = (f d).ptr := by simp

end Sys2Proof.Laws
end

