-- ==== Sys2Proof/Laws/Link.lean ====
section
/-!
SUPPORT. What the end of sessions and links keeps, and register writes of the PF.
-/
namespace Sys2Proof.Laws
open Sys2Proof.Machine

structure LinkKeeps (a b : Dev) : Prop where
  bm : a.pkg.busMaster = b.pkg.busMaster
  ms : a.pkg.memSpace = b.pkg.memSpace
  ve : a.pkg.vfEnable = b.pkg.vfEnable
  nv : a.pkg.numVfs = b.pkg.numVfs
  dl : a.pkg.dlUp = b.pkg.dlUp
  ph : a.pkg.phase = b.pkg.phase
  hbm : a.hbm = b.hbm
  cmds : a.cmds = b.cmds
  steps : a.steps = b.steps
  part : a.part = b.part
  busy : a.ptr.busy = b.ptr.busy

theorem LinkKeeps.refl (a : Dev) : LinkKeeps a a := ⟨rfl, rfl, rfl, rfl, rfl, rfl, rfl, rfl, rfl, rfl, rfl⟩

theorem LinkKeeps.trans {a b c : Dev} (h : LinkKeeps a b) (k : LinkKeeps b c) : LinkKeeps a c :=
  ⟨h.1.trans k.1, h.2.trans k.2, h.3.trans k.3, h.4.trans k.4, h.5.trans k.5, h.6.trans k.6, h.7.trans k.7, h.8.trans k.8, h.9.trans k.9, h.10.trans k.10, h.11.trans k.11⟩

theorem setDumpState_kept (n d) : LinkKeeps (setDumpState n d) d ∧ (setDumpState n d).ptr = d.ptr := by
  unfold setDumpState; split
  · exact ⟨LinkKeeps.refl _, rfl⟩
  · exact ⟨⟨by simp, by simp, by simp, by simp, by simp, by simp, by simp, by simp, by simp, by simp, by simp⟩, by simp⟩

theorem stopExport_frame (s d) : LinkKeeps (stopExport s d) d ∧ (stopExport s d).ptr = d.ptr := by
  unfold stopExport; split
  · exact ⟨(setDumpState_kept _ _).1.trans ⟨rfl, rfl, rfl, rfl, rfl, rfl, rfl, rfl, rfl, rfl, rfl⟩, (setDumpState_kept _ _).2.trans rfl⟩
  · exact ⟨LinkKeeps.refl _, rfl⟩

theorem endSessionSlot_facts (s d) : LinkKeeps (endSessionSlot s d) d ∧ (endSessionSlot s d).ptr = { d.ptr with sess := put none s none d.ptr.sess } := by
  unfold endSessionSlot
  exact ⟨(stopExport_frame _ _).1.trans ⟨rfl, rfl, rfl, rfl, rfl, rfl, rfl, rfl, rfl, rfl, rfl⟩, (stopExport_frame _ _).2⟩

theorem kept_foldl {β : Type} (g : Dev → β → Dev) (h : ∀ d x, LinkKeeps (g d x) d) (l : List β) (d : Dev) : LinkKeeps (l.foldl g d) d := by
  induction l generalizing d with
  | nil => exact LinkKeeps.refl d
  | cons a t ih => exact (ih _).trans (h _ _)

theorem endSessions_kept (f d) : LinkKeeps (endSessions f d) d := by
  unfold endSessions
  apply kept_foldl
  intro d x; split
  · exact (endSessionSlot_facts _ _).1
  · exact LinkKeeps.refl _

theorem endSessions_sess (l : List Nat) (d : Dev) (k : Nat) (h : k ∈ l ∨ look none k d.ptr.sess = none) :
    look none k (l.foldl (fun d s => if (look none s d.ptr.sess).isSome then endSessionSlot s d else d) d).ptr.sess = none := by
  induction l generalizing d with
  | nil => rcases h with h | h
           · cases h
           · exact h
  | cons a t ih =>
    rw [List.foldl_cons]
    apply ih
    by_cases hk : k = a
    · right; subst hk
      split
      · rw [(endSessionSlot_facts _ _).2]; simp
      · next h => simpa using h
    · rcases h with h | h
      · left; simpa [hk] using h
      · right; split
        · rw [(endSessionSlot_facts _ _).2]; simp only; rw [look_put_other _ _ _ _ _ hk]; exact h
        · exact h

theorem alert_unfold (n : Nat) (d : Dev) : alert n d = { d with ump := { d.ump with alert := d.ump.alert ||| BitVec.ofNat 16 (2 ^ n) } } := rfl

theorem partsLive_mboxTake (a b c d) : modeCheck (mboxTake a b c d) = modeCheck d := rfl

theorem startDue_none (d : Dev) (o : Nat) (h : ∀ o c, (getSeq d o).mgmt ≠ .start c true) : startDue d o = d := by
  unfold startDue; split
  · next c hc => exact absurd hc (h _ _)
  · rfl

theorem sensors_fold (l : List Int) (k : Nat) (s : Tbl (Option Int)) (j : Nat) :
    look none j ((l.mapIdx fun j x => (j + k, x)).foldl (fun s (e : Nat × Int) => place e.1 (some e.2) s) s) =
      if k ≤ j then (match l[j - k]? with | some x => some x | none => look none j s) else look none j s := by
  induction l generalizing k s with
  | nil => simp
  | cons a t ih =>
    rw [List.mapIdx_cons, List.foldl_cons]
    have : (fun i x => (i + 1 + k, x)) = (fun (i : Nat) (x : Int) => (i + (k + 1), x)) := by
      funext i x; congr 1; omega
    rw [this, ih]
    by_cases h : k + 1 ≤ j
    · rw [if_pos h, if_pos (by omega)]
      obtain ⟨n, rfl⟩ : ∃ n, j = k + 1 + n := ⟨j - (k+1), by omega⟩
      rw [show k + 1 + n - k = n + 1 by omega, show k + 1 + n - (k + 1) = n by omega]
      simp only [List.getElem?_cons_succ]
      split <;> simp_all
      rw [look_place_other]; omega
    · rw [if_neg h]
      by_cases h2 : k = j
      · subst h2; simp [look_place_same]
      · rw [if_neg (by omega), look_place_other]; simp; omega

theorem ctrlShown_pf (d b) : ctrlShown d .pf b = true := by cases b <;> rfl

theorem ctrlWrite_plain (b : Block) (pos : Nat) (ch ro : Bool) (g : Dev → Dev) (d : Dev) (hb : b ≠ .dbg) (hc : ch = true) (hr : ro = false) :
    ctrlWrite .pf b pos ch ro none g d = g d := by
  unfold ctrlWrite
  simp only [ctrlShown_pf, Bool.not_true, Bool.false_eq_true, if_false, hb, false_and, hc, hr, Bool.not_true, or_self]

theorem applyDenied_pf (b) : applyDenied .pf b = none := by cases b <;> rfl

end Sys2Proof.Laws
end

