-- ==== Sys2Proof/Laws/Boundary.lean ====
section
/-!
SUPPORT. What the steps of a tick boundary keep of the tick generator, and the swap and flip of a partition's octants.
-/
namespace Sys2Proof.Laws
open Sys2Proof.Machine

theorem withdrawPlans_tck (d : Dev) : (withdrawPlans d).tck = d.tck := by
  unfold withdrawPlans
  apply foldl_keeps (fun x => x.tck)
  intro d o
  dsimp only
  split
  · rfl
  · split <;> simp

theorem revertPlans_tck (d : Dev) : (revertPlans d).tck = d.tck := by
  unfold revertPlans
  split
  · rw [withdrawPlans_tck]
  · rfl

theorem cycleTicks_tck (d : Dev) : (cycleTicks d).tck = d.tck := by
  unfold cycleTicks
  apply foldl_keeps (fun x => x.tck)
  intro d o
  simp

theorem sysclkReturn_tck (d : Dev) : (sysclkReturn d).tck = d.tck := by
  unfold sysclkReturn
  split <;> rfl

theorem killStream_fold_tck (d : Dev) (n : Nat) : (setStream n 1 killStream (setStream n 0 killStream d)).tck = d.tck := by simp

theorem killItem_tck (id) (d : Dev) : (killItem id d).tck = d.tck := by
  unfold killItem
  apply foldl_keeps (fun x => x.tck)
  intro d o
  simp

theorem killCtx_tck (o c r) (d : Dev) : (killCtx o c r d).tck = d.tck := by
  unfold killCtx killItems endUndispatched
  dsimp only
  rw [foldl_keeps (fun x => x.tck)]
  · rw [foldl_keeps (fun x => x.tck)]
    · simp
    · intro d x; simp
  · intro d x; simp [killItem_tck]

theorem umpireWalk_tck (d : Dev) : (umpireWalk d).tck = d.tck := by
  unfold umpireWalk
  dsimp only
  rw [foldl_keeps (fun x => x.tck)]
  · rw [foldl_keeps (fun x => x.tck)]
    intro d x; simp
  · intro d x
    split
    · rw [killCtx_tck]
    · rfl

theorem holdAlert_tck (a b d) : (holdAlert a b d).tck = d.tck := by
  unfold holdAlert
  dsimp only
  repeat' split
  all_goals rfl

theorem tickBoundary_tck (env) (d : Dev) : (tickBoundary env d).tck = (tickCount d).tck := by
  unfold tickBoundary
  show (umpireWalk _).tck = _
  rw [umpireWalk_tck]
  show (revertPlans _).tck = _
  rw [revertPlans_tck, cycleTicks_tck, sysclkReturn_tck]

theorem getSeq_setStatus (b f d o) : getSeq (setStatus b f d) o = getSeq d o := rfl

theorem sectionChecks_keys (v : Nat) (ev : LineEvent) (l : List Nat) (d : Dev) : (sectionChecks v ev l d).1.map (·.1) = l := by
  induction l generalizing d with
  | nil => rfl
  | cons a t ih => simp [sectionChecks, ih]

theorem members8_nodup (p : BitVec 8) : (members8 p).Nodup := by
  unfold members8
  exact List.Nodup.filter _ List.nodup_range

theorem swapFold (rs : List (Nat × Except (Reason × Nat) Plan)) (g : Dev → Nat × Except (Reason × Nat) Plan → Dev)
    (hg : ∀ d o p, g d (o, .ok p) = swapOne o p d)
    (hok : ∀ e ∈ rs, ∃ p, e.2 = .ok p) (hn : (rs.map (·.1)).Nodup) (d : Dev) :
    (∀ o, o ∉ rs.map (·.1) → getSeq (rs.foldl g d) o = getSeq d o) ∧
    (∀ o p, (o, Except.ok p) ∈ rs → (getSeq (rs.foldl g d) o).withdrawn = false ∧ (getSeq (rs.foldl g d) o).cycleTick = 0 ∧ (getSeq (rs.foldl g d) o).plan = some p) := by
  induction rs generalizing d with
  | nil => simp
  | cons e t ih =>
    obtain ⟨o', x⟩ := e
    obtain ⟨p', hp⟩ := hok (o', x) (by simp)
    dsimp at hp; subst hp
    rw [List.map_cons, List.nodup_cons] at hn
    obtain ⟨i1, i2⟩ := ih (fun e h => hok e (by simp [h])) hn.2 (swapOne o' p' d)
    rw [List.foldl_cons, hg]
    refine ⟨?_, ?_⟩
    · intro o ho
      rw [List.map_cons, List.mem_cons, not_or] at ho
      rw [i1 o ho.2]
      unfold swapOne
      rw [getSeq_setSeq_ne _ _ _ _ ho.1, getSeq_setStatus]
    · intro o p h
      rcases List.mem_cons.1 h with h | h
      · cases h
        rw [i1 _ hn.1]
        unfold swapOne
        rw [getSeq_setSeq]
        simp
      · exact i2 o p h

theorem getSeq_setBlk (b f) (d : Dev) (o) : getSeq (setBlk b f d) o = getSeq d o := rfl

theorem getSeq_finish (i e r l n d o) : getSeq (finish i e r l n d) o = getSeq d o := by simp [getSeq]

theorem flipDone_seq (o : Nat) (d : Dev) (u : Nat) : (getSeq (flipDone o d) u).active = (getSeq d u).active ∧ (getSeq (flipDone o d) u).pendFlip = (getSeq d u).pendFlip ∧ (getSeq (flipDone o d) u).voted = (getSeq d u).voted := by
  unfold flipDone
  dsimp only
  rw [foldl_keeps (fun x => getSeq x u)]
  · by_cases h : u = o
    · subst h; rw [getSeq_setSeq]; simp
    · rw [getSeq_setSeq_ne _ _ _ _ h]; simp
  · intro d x
    split
    · rw [getSeq_finish]
    · rfl

theorem flipDones_seq (l : List Nat) (d : Dev) (u : Nat) : (getSeq (l.foldl (fun d o => flipDone o d) d) u).active = (getSeq d u).active ∧ (getSeq (l.foldl (fun d o => flipDone o d) d) u).pendFlip = (getSeq d u).pendFlip ∧ (getSeq (l.foldl (fun d o => flipDone o d) d) u).voted = (getSeq d u).voted := by
  induction l generalizing d with
  | nil => simp
  | cons a t ih =>
    rw [List.foldl_cons]
    obtain ⟨h1, h2, h3⟩ := ih (flipDone a d)
    obtain ⟨k1, k2, k3⟩ := flipDone_seq a d u
    exact ⟨h1.trans k1, h2.trans k2, h3.trans k3⟩

theorem flipFold (l : List Nat) (hn : l.Nodup) (d : Dev) :
    (∀ o, o ∉ l → getSeq (l.foldl (fun d o => flipOne o d) d) o = getSeq d o) ∧
    (∀ o ∈ l, (getSeq (l.foldl (fun d o => flipOne o d) d) o).active = (getSeq d o).active ^^^ (getSeq d o).pendFlip ∧
      (getSeq (l.foldl (fun d o => flipOne o d) d) o).pendFlip = 0 ∧
      (getSeq (l.foldl (fun d o => flipOne o d) d) o).voted = (getSeq d o).voted) := by
  induction l generalizing d with
  | nil => simp
  | cons a t ih =>
    rw [List.nodup_cons] at hn
    obtain ⟨i1, i2⟩ := ih hn.2 (flipOne a d)
    rw [List.foldl_cons]
    refine ⟨?_, ?_⟩
    · intro o ho
      rw [List.mem_cons, not_or] at ho
      rw [i1 o ho.2]
      unfold flipOne
      dsimp only
      rw [getSeq_setSeq_ne _ _ _ _ ho.1]
    · intro o ho
      rcases List.mem_cons.1 ho with h | h
      · subst h
        rw [i1 _ hn.1]
        unfold flipOne
        dsimp only
        rw [getSeq_setSeq]
        simp
      · have hne : o ≠ a := fun e => hn.1 (e ▸ h)
        have h3 : getSeq (flipOne a d) o = getSeq d o := by
          unfold flipOne
          dsimp only
          rw [getSeq_setSeq_ne _ _ _ _ hne]
        have := i2 o h
        rw [h3] at this
        exact this

end Sys2Proof.Laws
end

