-- ==== Sys2Proof/Laws/Access.lean ====
section
/-!
SUPPORT. Register accesses, streams that a barrier releases, and management commands that pass the checks.
-/
namespace Sys2Proof.Laws
open Sys2Proof.Machine

theorem whenBar_onBar {f : Fn} {g : Dev → Dev} {d : Dev} (hl : live d = true) (hb : barAnswers d f = true) : whenBar f (onBar g) d = settle (g d) := by
  rw [whenBar_answers _ _ _ hb, onBar_live _ _ hl]

theorem taken_nil {d a w} (h : taken d a w ≠ []) : ∃ e l, writable a w = e :: l := by
  unfold taken at h
  cases hw : writable a w with
  | nil => rw [hw] at h; simp at h
  | cons e l => exact ⟨e, l, rfl⟩

theorem getStream_same (n st n' st' f d) (h : 2 * n + st = 2 * n' + st') : getStream (setStream n st f d) n' st' = f (getStream d n' st') := by
  unfold getStream setStream
  dsimp only
  rw [h, look_alter_same]

theorem getStream_other (n st n' st' f d) (h : 2 * n' + st' ≠ 2 * n + st) : getStream (setStream n st f d) n' st' = getStream d n' st' := by
  unfold getStream setStream
  dsimp only
  rw [look_alter_other _ _ _ _ _ h]

theorem release_fold (g : Stream → Stream) (l : List (Nat × Nat)) (hs : ∀ e ∈ l, e.2 < 2) (hn : l.Nodup) (d : Dev) (n st : Nat) (hst : st < 2) :
   getStream (l.foldl (fun d e => setStream e.1 e.2 g d) d) n st = (if (n, st) ∈ l then g (getStream d n st) else getStream d n st) := by
  induction l generalizing d with
  | nil => simp
  | cons a t ih =>
    rw [List.nodup_cons] at hn
    rw [List.foldl_cons, ih (fun e he => hs e (by simp [he])) hn.2]
    have ha := hs a (by simp)
    obtain ⟨a1, a2⟩ := a
    dsimp only at ha ⊢
    by_cases h : (n, st) = (a1, a2)
    · cases h
      rw [if_neg hn.1, if_pos (by simp), getStream_same _ _ _ _ _ _ rfl]
    · have : 2 * n + st ≠ 2 * a1 + a2 := by
        intro hh; apply h; rw [Prod.mk.injEq]; omega
      rw [getStream_other _ _ _ _ _ _ this]
      by_cases h' : (n, st) ∈ t
      · rw [if_pos h', if_pos (by simp [h'])]
      · rw [if_neg h', if_neg (by simp only [List.mem_cons, not_or]; exact ⟨h, h'⟩)]

theorem releaseBarrier_frame (w l d) : releaseBarrier w l d = { d with stream := (releaseBarrier w l d).stream } := by
  unfold releaseBarrier
  dsimp only
  generalize (fun y : Stream => ({ y with ctl := unionAll (l.map fun e => (getStream d e.1 e.2).ctl), wait := if y.wait = w then StreamWait.none else y.wait } : Stream)) = g
  clear w
  induction l generalizing d with
  | nil => rfl
  | cons a t ih => rw [List.foldl_cons, ih]; rfl

theorem exec_ofMgmt (i : Issuer) (o : Fin 8) (c : MgmtCmd) (s : State) (h : ∀ x p, c = .ctxStop x p → p < 2) :
    exec (ofMgmt i o c) s = .next { s with dev := whenIssuer i (mgmtCommand i o c) s.dev } := by
  cases c <;> try rfl
  rename_i x p
  have := h x p rfl
  have hp : p = 0 ∨ p = 1 := by omega
  rcases hp with rfl | rfl <;> rfl

theorem mgmtMay_exec (i : Issuer) (o : Fin 8) (c : MgmtCmd) (s : State) (hm : mgmtMay i o s.dev = true) :
    whenIssuer i (mgmtCommand i o c) s.dev = mgmtSettle o false (mgmtStart o false c (mgmtIn i o c s.dev)) := by
  unfold mgmtMay at hm
  simp only [Bool.and_eq_true, beq_iff_eq] at hm
  obtain ⟨⟨hl, hn⟩, hi⟩ := hm
  cases i with
  | porter =>
    simp only [whenIssuer, whenLive_live _ _ hl, mgmtCommand]
    simp only at hi
    rw [if_neg (by simp [hi, hn])]
    rfl
  | host f =>
    simp only [Bool.and_eq_true, beq_iff_eq, Bool.not_eq_true'] at hi
    obtain ⟨⟨rfl, hb⟩, hp⟩ := hi
    simp only [whenIssuer]
    rw [whenBar_answers _ _ _ hb]
    simp only [mgmtCommand]
    rw [if_neg (by simp [hp])]
    unfold mgmtGo
    rw [if_neg (by unfold setMgmtBuf; rw [getSeq_setSeq]; simp [hn])]
    rfl

theorem porterManaged_mgmtIn (i o c d) : porterManaged (mgmtIn i o c d) = porterManaged d := by cases i <;> rfl

theorem mgmtStart_ready (i : Issuer) (o : Fin 8) (c : MgmtCmd) (d : Dev) (h : mgmtReady i o c d = true) :
    mgmtMay i o d = true ∧ mgmtStart o false c (mgmtIn i o c d) = mgmtDo o false c (mgmtIn i o c d) := by
  unfold mgmtReady at h
  simp only [Bool.and_eq_true] at h
  obtain ⟨⟨⟨⟨h1, h2⟩, h3⟩, h4⟩, h5⟩ := h
  refine ⟨h1, ?_⟩
  unfold mgmtStart
  rw [if_neg (by simp [h2]), if_neg, if_neg]
  · cases i <;> simp [mgmtIn, setMgmtBuf, h5]
  · have e1 : octVf (mgmtIn i o c d) o = octVf d o := by cases i <;> rfl
    have e2 : mgmtOwner (mgmtIn i o c d) o c = mgmtOwner d o c := by cases i <;> cases c <;> rfl
    rw [e1, e2]; simp [h3, h4]

/-- goal driver -/
theorem mgmt_command_runs (i : Issuer) (o : Fin 8) (c : MgmtCmd) (s : State) (h : ∀ x p, c = .ctxStop x p → p < 2)
    (hr : mgmtReady i o c s.dev = true) (d : Dev) (hd : mgmtSettle o false (mgmtDo o false c (mgmtIn i o c s.dev)) = d) :
    exec (ofMgmt i o c) s = .next { s with dev := d } := by
  obtain ⟨h1, h2⟩ := mgmtStart_ready i o c s.dev hr
  rw [exec_ofMgmt _ _ _ _ h, mgmtMay_exec _ _ _ _ h1, h2, hd]

theorem startCheck_in (i : Issuer) (o : Fin 8) (c) (x : Nat) (d : Dev) : startCheck (mgmtIn i o c d) o x = startCheck d o x := by
  cases i with
  | porter => rfl
  | host f =>
    unfold startCheck mgmtIn setMgmtBuf
    dsimp only
    rw [getSeq_setSeq]
    rfl

theorem wordHere_lt (d : Dev) (a : Nat) (w : Wd) (h : wordHere d a = some w) : a < 0xC00000 := by
  by_contra hn
  unfold wordHere at h
  split at h
  · cases h
  · unfold wordAt at h; dsimp only at h
    rw [if_neg (by omega), if_neg (by omega), if_neg (by omega), if_neg (by omega), if_neg (by omega), if_neg hn] at h
    cases h

/-- A word that a function sees lies below 0xC00000 of its BAR0. -/
theorem sight_shown_lt (d : Dev) (f : Fn) (a : Nat) (w : Wd) (h : sight d f a = .shown w) : a < 0xC00000 := by
  unfold sight at h
  split at h
  · split at h
    · rename_i e; exact wordHere_lt _ _ _ e
    · cases h
  · split at h
    · split at h
      · rename_i e; exact wordHere_lt _ _ _ e
      · rename_i e; exact wordHere_lt _ _ _ e
      · split at h <;> cases h
    · cases h

end Sys2Proof.Laws
end

