-- ==== Sys2Proof/Laws/Flash.lean ====
section
/-!
SUPPORT. The flash's areas: cutting one out and replacing one keep the canonical form, and a replaced area reads as what was
put there.
-/
namespace Sys2Proof.Machine
variable {α : Type}

theorem Tbl.wf_append [DecidableEq α] (d : α) (a b : Tbl α) (ha : Tbl.wf d a = true) (hb : Tbl.wf d b = true)
    (h : ∀ x ∈ a, ∀ y ∈ b, x.1 < y.1) : Tbl.wf d (a ++ b) = true := by
  induction a with
  | nil => exact hb
  | cons e t ih =>
    obtain ⟨k, v⟩ := e
    have hc := (Tbl.wf_cons d k v t).mp ha
    refine Tbl.wf_of_above d k v _ hc.1 (ih hc.2.1 fun x hx => h x (List.mem_cons_of_mem _ hx)) fun e he => ?_
    rcases List.mem_append.mp he with he | he
    · exact Tbl.wf_above d k v t ha e he
    · exact h (k, v) (by simp) e he

/-- Keys moved by a rising function. -/
theorem Tbl.wf_map [DecidableEq α] (d : α) (g : Nat → Nat) (t : Tbl α) (h : Tbl.wf d t = true)
    (hg : ∀ x ∈ t, ∀ y ∈ t, x.1 < y.1 → g x.1 < g y.1) : Tbl.wf d (t.map fun c => (g c.1, c.2)) = true := by
  induction t with
  | nil => rfl
  | cons e t ih =>
    obtain ⟨k, v⟩ := e
    have hc := (Tbl.wf_cons d k v t).mp h
    refine Tbl.wf_of_above d _ v _ hc.1 (ih hc.2.1 fun x hx y hy =>
      hg x (List.mem_cons_of_mem _ hx) y (List.mem_cons_of_mem _ hy)) fun e he => ?_
    obtain ⟨c, hm, rfl⟩ := List.mem_map.mp he
    exact hg (k, v) (by simp) c (List.mem_cons_of_mem _ hm) (Tbl.wf_above d k v t h c hm)

theorem Memory.wf_cutMem (lo n : Nat) (m : Memory) (h : Memory.wf m) : Memory.wf (cutMem lo n m) := by
  refine Tbl.wf_map 0 (fun a => a - lo) _ (Tbl.wf_filter 0 _ m h) fun x hx y hy hxy => ?_
  have := (List.mem_filter.mp hx).2
  simp only [Bool.and_eq_true, decide_eq_true_eq] at this
  omega

theorem Memory.wf_pasteMem (lo n : Nat) (x m : Memory) (hx : Memory.wf x) (h : Memory.wf m) : Memory.wf (pasteMem lo n x m) := by
  have hmid : Memory.wf ((x.filter fun c => decide (c.1 < n)).map fun c => (lo + c.1, c.2)) :=
    Tbl.wf_map 0 (fun a => lo + a) _ (Tbl.wf_filter 0 _ x hx) fun _ _ _ _ hxy => by omega
  refine Tbl.wf_append 0 _ _ (Tbl.wf_append 0 _ _ (Tbl.wf_filter 0 _ m h) hmid fun a ha b hb => ?_)
    (Tbl.wf_filter 0 _ m h) fun a ha b hb => ?_
  · have h1 := (List.mem_filter.mp ha).2
    obtain ⟨c, _, rfl⟩ := List.mem_map.mp hb
    simp only [decide_eq_true_eq] at h1
    show a.1 < lo + c.1
    omega
  · have h2 := (List.mem_filter.mp hb).2
    simp only [decide_eq_true_eq] at h2
    rcases List.mem_append.mp ha with ha | ha
    · have h1 := (List.mem_filter.mp ha).2
      simp only [decide_eq_true_eq] at h1
      omega
    · obtain ⟨c, hc, rfl⟩ := List.mem_map.mp ha
      have h1 := (List.mem_filter.mp hc).2
      simp only [decide_eq_true_eq] at h1
      show lo + c.1 < b.1
      omega

theorem look_append_left (d : α) (j : Nat) (a b : Tbl α) (h : ∀ e ∈ b, e.1 ≠ j) : look d j (a ++ b) = look d j a := by
  induction a with
  | nil =>
    induction b with
    | nil => rfl
    | cons e t ih =>
      obtain ⟨k, v⟩ := e
      have hk : k ≠ j := h (k, v) (by simp)
      simpa [look, hk] using ih fun e he => h e (List.mem_cons_of_mem _ he)
  | cons e t ih => obtain ⟨k, v⟩ := e; simp [look, ih]

theorem look_append_right (d : α) (j : Nat) (a b : Tbl α) (h : ∀ e ∈ a, e.1 ≠ j) : look d j (a ++ b) = look d j b := by
  induction a with
  | nil => rfl
  | cons e t ih =>
    obtain ⟨k, v⟩ := e
    have hk : k ≠ j := h (k, v) (by simp)
    simpa [look, hk] using ih fun e he => h e (List.mem_cons_of_mem _ he)

theorem look_shift (d : α) (lo j : Nat) (t : Tbl α) : look d (lo + j) (t.map fun c => (lo + c.1, c.2)) = look d j t := by
  induction t with
  | nil => rfl
  | cons e t ih => obtain ⟨k, v⟩ := e; simp [look, ih]

/-- What a replaced area and the rest of the flash read as. -/
theorem readByte_pasteMem (lo n : Nat) (x m : Memory) (a : Nat) :
    readByte (pasteMem lo n x m) a = if lo ≤ a ∧ a < lo + n then readByte x (a - lo) else readByte m a := by
  unfold pasteMem readByte
  split
  · next h =>
    rw [look_append_left _ _ _ _ fun e he => ?_, look_append_right _ _ _ _ fun e he => ?_]
    · obtain ⟨k, rfl⟩ : ∃ k, a = lo + k := ⟨a - lo, by omega⟩
      rw [look_shift, look_filter_keep _ _ (fun i => decide (i < n)) _ (by simp; omega), Nat.add_sub_cancel_left]
    · have := (List.mem_filter.mp he).2; simp only [decide_eq_true_eq] at this; omega
    · have := (List.mem_filter.mp he).2; simp only [decide_eq_true_eq] at this; omega
  · next h =>
    by_cases hl : a < lo
    · rw [look_append_left _ _ _ _ fun e he => ?_, look_append_left _ _ _ _ fun e he => ?_,
        look_filter_keep _ _ (fun i => decide (i < lo)) _ (by simpa using hl)]
      · obtain ⟨c, _, rfl⟩ := List.mem_map.mp he; show lo + c.1 ≠ a; omega
      · have := (List.mem_filter.mp he).2; simp only [decide_eq_true_eq] at this; omega
    · rw [look_append_right _ _ _ _ fun e he => ?_,
        look_filter_keep _ _ (fun i => decide (lo + n ≤ i)) _ (by simp; omega)]
      rcases List.mem_append.mp he with he | he
      · have := (List.mem_filter.mp he).2; simp only [decide_eq_true_eq] at this; omega
      · obtain ⟨c, hc, rfl⟩ := List.mem_map.mp he
        have := (List.mem_filter.mp hc).2; simp only [decide_eq_true_eq] at this
        show lo + c.1 ≠ a; omega

end Sys2Proof.Machine
end

