-- ==== Sys2Proof/Laws/Packets.lean ====
section
/-!
SUPPORT. A frame that passes the checks of its port: what the receive checks of R238 then do.
-/
namespace Sys2Proof.Laws
open Sys2Proof.Machine

/-- The header's fields are those of the packet, sealed or opened. -/
@[simp] theorem packetOf_src (d : Dev) (slot : Nat) (f : Frame) : (packetOf d slot f).src = (headPacket f.head []).src := rfl

@[simp] theorem packetOf_epoch (d : Dev) (slot : Nat) (f : Frame) : (packetOf d slot f).epoch = (headPacket f.head []).epoch :=
  rfl

/-- A frame that passes is marked and acted on. -/
theorem receive_passes {f : Frame} {belongs : Dev → Nat → Packet → Bool} {act : Nat → Packet → Dev → Dev}
    {slot : Nat} {d : Dev} (h : packetPasses f slot d = true) (hb : belongs d slot (packetOf d slot f) = true) :
    receive f belongs false act d =
      ackSoon slot (packetOf d slot f).src (act slot (packetOf d slot f) (packetMarked f slot d)) := by
  simp only [packetPasses, packetReaches, Bool.and_eq_true, Bool.not_eq_true', beq_iff_eq, decide_eq_true_eq] at h
  obtain ⟨⟨⟨⟨⟨⟨⟨⟨⟨⟨h1, h2⟩, h3⟩, h4⟩, h5⟩, h6⟩, h7⟩, h8⟩, h9⟩, h10⟩, h11⟩ := h
  have hn : (getGroup d slot).failed.isSome = false := by
    cases hh : (getGroup d slot).failed <;> simp_all
  have h5' : ¬ f.rest.length < (headPacket f.head []).len + 16 := by omega
  have h7' : ¬ (getGroup d slot).payload < (headPacket f.head []).len := by omega
  simp [receive, h1, h2, h3, h4, h5', h6, h7', h8, h9, h10, hn, hb, ackSoon, packetMarked, pairMarked]

/-- A frame whose payload is staged. -/
theorem receive_passes_staged {f : Frame} {belongs : Dev → Nat → Packet → Bool} {act : Nat → Packet → Dev → Dev}
    {slot : Nat} {d : Dev} (h : packetPasses f slot d = true) (hb : belongs d slot (packetOf d slot f) = true)
    (hf : stagingFits f slot d = true) :
    receive f belongs true act d =
      ackSoon slot (packetOf d slot f).src (act slot (packetOf d slot f) (packetStaged f slot d)) := by
  simp only [packetPasses, packetReaches, Bool.and_eq_true, Bool.not_eq_true', beq_iff_eq, decide_eq_true_eq] at h
  obtain ⟨⟨⟨⟨⟨⟨⟨⟨⟨⟨h1, h2⟩, h3⟩, h4⟩, h5⟩, h6⟩, h7⟩, h8⟩, h9⟩, h10⟩, h11⟩ := h
  have hn : (getGroup d slot).failed.isSome = false := by
    cases hh : (getGroup d slot).failed <;> simp_all
  have h5' : ¬ f.rest.length < (headPacket f.head []).len + 16 := by omega
  have h7' : ¬ (getGroup d slot).payload < (headPacket f.head []).len := by omega
  simp only [stagingFits, packetOf_src, packetOf_epoch] at hf
  replace hf := of_decide_eq_true hf
  simp [receive, h1, h2, h3, h4, h5', h6, h7', h8, h9, h10, hn, hb, ackSoon, packetStaged, pairMarked, Nat.not_lt.2 hf]

/-- The tag check: a frame with a wrong tag is dropped and counted under AUTH, whatever its replay window says (R238). -/
theorem receive_badTag {f : Frame} {belongs : Dev → Nat → Packet → Bool} {act : Nat → Packet → Dev → Dev} {b : Bool}
    {slot : Nat} {d : Dev} (h : packetReaches f slot d = true) (ht : tagOk d slot f = false) :
    receive f belongs b act d = countDrop f.port dropAuthPkt d := by
  simp only [packetReaches, Bool.and_eq_true, Bool.not_eq_true', beq_iff_eq, decide_eq_true_eq] at h
  obtain ⟨⟨⟨⟨⟨⟨⟨h1, h2⟩, h3⟩, h4⟩, h5⟩, h6⟩, h7⟩, h8⟩ := h
  have h5' : ¬ f.rest.length < (headPacket f.head []).len + 16 := by omega
  have h7' : ¬ (getGroup d slot).payload < (headPacket f.head []).len := by omega
  simp [receive, h1, h2, h3, h4, h5', h6, h7', h8, ht]

theorem foldl_invariant {α β : Type} (P : β → Prop) (f : β → α → β) (hf : ∀ b a, P b → P (f b a)) :
    ∀ (l : List α) (b : β), P b → P (l.foldl f b) := by
  intro l; induction l with
  | nil => intro b h; exact h
  | cons a t ih => intro b h; exact ih _ (hf b a h)

end Sys2Proof.Laws
end

