-- ==== Sys2Proof/Laws/Requests.lean ====
section
/-!
SUPPORT. Requests that reach their effect: of the holder of management, of the mailbox, in a session, over DOE and SMBus.
-/
namespace Sys2Proof.Laws
open Sys2Proof.Machine

theorem holder_runs {i : Issuer} {d : Dev} {a b : Nat} {f : Dev → Dev} (h : holds i d = true) : whenIssuer i (byHolder i a b f) d = f d := by
  cases i with
  | host fn => 
    simp only [holds, Bool.and_eq_true, beq_iff_eq, Bool.not_eq_true'] at h
    obtain ⟨⟨rfl, h2⟩, h3⟩ := h
    simp [whenBar, h2, byHolder, h3]
  | porter =>
    simp only [holds, Bool.and_eq_true] at h
    simp [whenLive, h.1, byHolder, h.2]

theorem holder_refuses {i : Issuer} {d : Dev} {a b : Nat} {f : Dev → Dev} (h : holds i d = true) :
   whenIssuer i (tracked (byHolder i a b f)) d = tracked f d := by
  cases i with
  | host fn => 
    simp only [holds, Bool.and_eq_true, beq_iff_eq, Bool.not_eq_true'] at h
    obtain ⟨⟨rfl, h2⟩, h3⟩ := h
    simp only [whenIssuer_host, whenBar, h2]
    exact tracked_congr _ _ _ (by simp [byHolder, h3])
  | porter =>
    simp only [holds, Bool.and_eq_true] at h
    simp only [whenIssuer_porter, whenLive, h.1]
    exact tracked_congr _ _ _ (by simp [byHolder, h.2])

theorem next_congr {s : State} {d d' : Dev} (h : d = d') : (Host.Outcome.next { s with dev := d } : Host.Outcome State Fault Refusal) = .next { s with dev := d' } := by rw [h]

theorem inSession_runs {d : Dev} {k : Nat} {x : Session} {v : Fin 8} {g : Session → Dev → Dev} (hl : live d = true) (hs : sessOf d k = some x)
   (hx : x.fn = 1 + v.val) (hf : fnPresent d (.vf v) = true) : inSession k g d = g x d := by
  have e : fnOf x.fn = .vf v := by
    rw [hx]; exact (by decide : ∀ v : Fin 8, fnOf (1 + v.val) = .vf v) v
  have hp : d.pkg.phase ≠ .recovery := by simp [live] at hl; simp [hl]
  simp [inSession, hs, spdmRequest, e, hf, hp, hl]

theorem sessVf_of_vf {x : Session} {v : Fin 8} (hx : x.fn = 1 + v.val) : sessVf x = some v.val := by
  simp [sessVf, hx]

theorem fineHolder {i : Issuer} {on : Bool} {d : Dev} (h : holds i d = true) (f : Dev → Dev) (hf : fineHost i on d = f d) :
   whenIssuer i (tracked (byHolder i (fieldIdOf 0x200 0) 0x20200 (fineHost i on))) d = tracked f d := by
  rw [holder_refuses h]; exact tracked_congr _ _ _ hf

theorem mailbox_ends {op : Nat} {seq : Word} {pl : List Byte} {f : Dev → Reason × Dev} {d : Dev} {g : Dev → Dev} {r : Reason}
   (h : mailboxOpen d = true) (hf : f (mboxTake op seq pl d) = (r, g (mboxTake op seq pl d))) :
   tracked (mailbox op seq pl fun d => served f d) d = tracked (fun d => mboxEnd r [] (g (mboxTake op seq pl d))) d :=
  tracked_congr _ _ _ (by rw [mailbox_served _ _ _ _ _ h, hf])

theorem charterCheck_ptr (d : Dev) (p : Porter) (v : Nat) (b : List Byte) (h : p.hostManaged = d.ptr.hostManaged) :
    charterCheck { d with ptr := p } v b = charterCheck d v b := by
  simp only [charterCheck, charterOwned, porterManaged, h, partIdle, resetting, getPart, clusterPresent]
  rfl

theorem setSht_fold (f : ShtOct → ShtOct) (l : List Nat) (d : Dev) (o : Nat) (hn : l.Nodup) :
    getSht (l.foldl (fun d o => setSht o f d) d) o = if o ∈ l then f (getSht d o) else getSht d o := by
  induction l generalizing d with
  | nil => simp
  | cons a t ih =>
    simp only [List.foldl_cons, List.nodup_cons] at hn ⊢
    rw [ih _ hn.2]
    by_cases h : o = a
    · subst h; simp [hn.1]
    · simp [h, getSht_setSht_ne _ _ _ _ h]

theorem foldl_frame {β γ : Type} (P : Dev → γ) (g : Dev → β → Dev) (h : ∀ d x, P (g d x) = P d) (l : List β) (d : Dev) :
    P (l.foldl g d) = P d := by
  induction l generalizing d with
  | nil => rfl
  | cons a t ih => simp only [List.foldl_cons]; rw [ih, h]

theorem join_sht (v : Nat) (d : Dev) (o : Fin 8) : (joinOctant v d o).sht = (setSht o (fun x => { x with owned := true, vf := v }) d).sht := by
  simp only [joinOctant]
  rw [foldl_frame (fun d => d.sht) (fun d (c : Fin 9) => autoEnable (Block.clu o c) d) (fun _ _ => rfl)]
  rfl

theorem autoEnable_part (b : Block) (d : Dev) : (autoEnable b d).part = d.part := rfl

theorem join_part (v : Nat) (d : Dev) (o : Fin 8) : (joinOctant v d o).part = d.part := by
  unfold joinOctant; dsimp only
  refine (foldl_frame (fun d => d.part) (fun d (c : Fin 9) => autoEnable (Block.clu o c) d) (fun _ _ => rfl) _ _).trans ?_
  rw [autoEnable_part, autoEnable_part]; simp

theorem join_ptr (v : Nat) (d : Dev) (o : Fin 8) : (joinOctant v d o).ptr = d.ptr := by
  unfold joinOctant; dsimp only
  refine (foldl_frame (fun d => d.ptr) (fun d (c : Fin 9) => autoEnable (Block.clu o c) d) (fun _ _ => rfl) _ _).trans ?_
  rw [autoEnable_ptr, autoEnable_ptr]; simp

theorem join_fold (v : Nat) (l : List (Fin 8)) (d : Dev) (o : Fin 8) (hn : l.Nodup) :
    getSht (l.foldl (joinOctant v) d) o = if o ∈ l then { getSht d o with owned := true, vf := v } else getSht d o := by
  induction l generalizing d with
  | nil => simp
  | cons a t ih =>
    simp only [List.foldl_cons, List.nodup_cons] at hn ⊢
    rw [ih _ hn.2]
    have : getSht (joinOctant v d a) o = getSht (setSht a (fun x => { x with owned := true, vf := v }) d) o := by
      simp only [getSht, join_sht]
    rw [this]
    by_cases h : o = a
    · subst h; simp [hn.1]
    · have : (o : Nat) ≠ a := by intro hh; exact h (Fin.ext hh)
      simp [h, getSht_setSht_ne _ _ _ _ this]

theorem keepSht {γ : Type} (P : Dev → γ) (h : ∀ d o f, P (setSht o f d) = P d) (f : ShtOct → ShtOct) (l : List Nat) (d : Dev) :
   P (l.foldl (fun d o => setSht o f d) d) = P d := foldl_frame P _ (fun d o => h d o f) l d

theorem tracked_get {γ : Type} (P : Dev → γ) (f : Dev → Dev) (d : Dev) (h : ∀ d, P (genUp d) = P d) : P (tracked f d) = P (f d) := by
  rcases tracked_cases f d with h1 | h1 <;> rw [h1]; exact h _

theorem octVf_congr {d d' : Dev} (h : d'.sht = d.sht) (o : Nat) : octVf d' o = octVf d o := by simp only [octVf, getSht, h]; rfl

theorem setSht_octVf (o : Nat) (f : ShtOct → ShtOct) (d : Dev) (hf : ∀ x, (f x).owned = x.owned) (h : octVf d o = none) : octVf (setSht o f d) o = none := by
  simp only [octVf, getSht_setSht, hf] at h ⊢
  split at h
  · cases h
  · rename_i hh; simp [hh]

theorem octState_none (o : Nat) (f : ShtOct → ShtOct) (d : Dev) (hf : ∀ x, (f x).owned = x.owned) (h : octVf d o = none) : octState o f d = setSht o f d := by
  simp only [octState, setSht_octVf o f d hf h]

theorem endMgmt_sht (o : Nat) (r : Reason) (d : Dev) : (endMgmt o r d).sht = d.sht := by
  unfold endMgmt; dsimp only; split
  · rfl
  · split
    · simp
    · rfl

theorem endMgmt_tck (o : Nat) (r : Reason) (d : Dev) : (endMgmt o r d).tck = d.tck := by
  unfold endMgmt; dsimp only; split
  · rfl
  · split
    · simp
    · rfl

theorem clearClusters_sht (o : Nat) (d : Dev) : (clearClusters o d).sht = d.sht := by
  simp only [clearClusters]
  rw [foldl_frame (fun d => d.sht) (fun (d : Dev) (n : Nat) => if (getPool d n).en ∧ (getPool d n).octant = o then setPool n freshPool d else d) (by intro d n; split <;> rfl)]

theorem clearClusters_tck (o : Nat) (d : Dev) : (clearClusters o d).tck = d.tck := by
  simp only [clearClusters]
  rw [foldl_frame (fun d => d.tck) (fun (d : Dev) (n : Nat) => if (getPool d n).en ∧ (getPool d n).octant = o then setPool n freshPool d else d) (by intro d n; split <;> rfl)]

theorem scrubStores_sht (o : Nat) (d : Dev) : (scrubStores o d).sht = d.sht := by
  have a : ∀ d, (clearSequencer o d).sht = d.sht := fun _ => rfl
  have b : ∀ d, (clearCores o d).sht = d.sht := fun _ => rfl
  rw [scrubStores, endMgmt_sht, a, clearClusters_sht, b]

theorem scrubStores_tck (o : Nat) (d : Dev) : (scrubStores o d).tck = d.tck := by
  have a : ∀ d, (clearSequencer o d).tck = d.tck := fun _ => rfl
  have b : ∀ d, (clearCores o d).tck = d.tck := fun _ => rfl
  rw [scrubStores, endMgmt_tck, a, clearClusters_tck, b]

theorem scrubDomains_sht (o : Nat) (d : Dev) : (scrubDomains o d).sht = d.sht := by
  unfold scrubDomains; split
  · rfl
  · exact foldl_frame (fun d => d.sht) (fun d k => rotateDomain k d) (fun _ _ => rfl) _ _

theorem scrubDomains_tck (o : Nat) (d : Dev) : (scrubDomains o d).tck = d.tck := by
  unfold scrubDomains; split
  · rfl
  · exact foldl_frame (fun d => d.tck) (fun d k => rotateDomain k d) (fun _ _ => rfl) _ _

theorem has8_set8 (b : BitVec 8) (o : Fin 8) : has8 (set8 b o) o = true := by
  have : ∀ o : Fin 8, (BitVec.ofNat 8 (2 ^ o.val)).getLsbD o.val = true := by decide
  simp only [has8, set8, BitVec.getLsbD_or, this, Bool.or_true]

theorem readyChanged_octFailed (d : Dev) : (readyChanged d).pkg.octFailed = d.pkg.octFailed := by
  unfold readyChanged interrupt; (repeat' split) <;> rfl

/-- untracked, with a result that is a function of the device -/
theorem mailbox_ends_ok {op : Nat} {seq : Word} {pl : List Byte} {f : Dev → Reason × Dev} {d : Dev} {g : Dev → Dev} {r : Reason}
   (h : mailboxOpen d = true) (hf : f (mboxTake op seq pl d) = (r, g (mboxTake op seq pl d))) :
   mailbox op seq pl (fun d => served f d) d = mboxDone op seq pl r [] g d := by rw [mailbox_served _ _ _ _ _ h, hf]; rfl

theorem tracked_mailbox_ends {op : Nat} {seq : Word} {pl : List Byte} {f : Dev → Reason × Dev} {d : Dev} {g : Dev → Dev} {r : Reason}
   (h : mailboxOpen d = true) (hf : f (mboxTake op seq pl d) = (r, g (mboxTake op seq pl d))) :
   tracked (mailbox op seq pl fun d => served f d) d = tracked (mboxDone op seq pl r [] g) d :=
  tracked_congr _ _ _ (mailbox_ends_ok h hf)

theorem mailbox_update_taken {op : Nat} {seq : Word} {pl : List Byte} {f : Dev → Served} {d : Dev} (hop : updateOp op = true) (h : updateOpen d = true) :
   mailbox op seq pl f d = (match f (mboxTake op seq pl d) with
      | (some (r, answer), d) => mboxEnd r answer d
      | (none, d) => d) := by
  simp only [updateOpen, Bool.and_eq_true, Bool.not_eq_true'] at h
  obtain ⟨⟨h2, h3⟩, h4⟩ := h
  simp only [mailbox, h2, h3, h4, hop]; simp; try rfl

theorem tracked_mailbox_update_ends {op : Nat} {seq : Word} {pl : List Byte} {f : Dev → Reason × Dev} {d : Dev} {g : Dev → Dev} {r : Reason}
   (hop : updateOp op = true) (h : updateOpen d = true) (hf : f (mboxTake op seq pl d) = (r, g (mboxTake op seq pl d))) :
   tracked (mailbox op seq pl fun d => served f d) d = tracked (mboxDone op seq pl r [] g) d :=
  tracked_congr _ _ _ (by rw [mailbox_update_taken hop h]; simp only [served, hf]; rfl)

theorem createCheck_ptr (d : Dev) (p : Porter) (v : Nat) (x : Part) : createCheck { d with ptr := p } v x = createCheck d v x := by
  simp only [createCheck, getPart, getSht]; rfl

theorem fineCheck_take (op : Nat) (seq : Word) (l : List Byte) (d : Dev) : fineCheck (mboxTake op seq l d) = fineCheck d := by
  simp only [fineCheck, mboxTake, partsLive, getPart, getCharter]
  rfl

theorem spdmRequest_runs {f : Fn} {g : Dev → Dev} {d : Dev} (hl : live d = true) (hf : fnPresent d f = true) : spdmRequest f g d = g d := by
  have hp : d.pkg.phase ≠ .recovery := by simp [live] at hl; simp [hl]
  simp [spdmRequest, hf, hp, hl]

theorem spdmRequest_recovery {f : Fn} {g : Dev → Dev} {d : Dev} (hl : d.pkg.phase = .recovery) (hf : fnPresent d f = true) : spdmRequest f g d = spdmError (fnIx f) vendorDefined .notReady d := by
  simp [spdmRequest, hf, hl]

theorem setDump_state (n : Nat) (d : Dev) : (setDumpState n d).ump = { d.ump with dumpState := n } := by
  unfold setDumpState; split
  · rename_i h; rw [← h]
  · simp [interrupt]; split <;> (try split) <;> rfl

theorem startWaiting_none (d : Dev) (h : d.ump.l2Wait = []) (h' : d.ump.l3Wait = none) : startWaiting d = d := by
  unfold startWaiting; dsimp only; rw [h, h']; dsimp only [List.foldl]
  have : ∀ u : Ump, u.l2Wait = [] → u.l3Wait = none → { u with l2Wait := [], l3Wait := none } = u := by
    intro u a b; cases u; cases a; cases b; rfl
  rw [this _ h h']

theorem smbHeard_runs {f : Dev → Dev} {d : Dev} (h : powered d = true) : smbHeard true f d = f d := by simp [smbHeard, h]

theorem smbAlways_runs {f : Dev → Dev} {d : Dev} (h : powered d = true) (h2 : d.pkg.phase ≠ .scrapped) : smbAlways true f d = f d := by simp [smbAlways, smbHeard_runs h, h2]

theorem smbHeard_bad_pec {f : Dev → Dev} {d : Dev} : smbHeard false f d = d := by simp [smbHeard]

theorem powered_of_serving {d : Dev} (h : live d = true ∨ d.pkg.phase = .recovery) : powered d = true := by
  rcases h with h | h
  · simp [live] at h; simp [powered, h]
  · simp [powered, h]

theorem smbStaging_runs {f : Dev → Dev} {d : Dev} (h : live d = true ∨ d.pkg.phase = .recovery) : smbStaging true f d = f d := by
  have : firmwareRuns d = true ∨ d.pkg.phase = .recovery := by
    rcases h with h | h
    · left; simp [live] at h; simp [firmwareRuns, h]
    · right; exact h
  simp only [smbStaging, smbHeard_runs (powered_of_serving h)]; rw [if_pos this]

theorem stage_done {f : Dev → Reason × Dev} {g : Dev → Dev} {r : Reason} {d : Dev} (h : live d = true ∨ d.pkg.phase = .recovery) (hb : d.ump.stageBusy = false) (hf : f d = (r, g d)) :
   tracked (smbStaging true (stage f)) d = tracked (fun d => stageDone r (g d)) d := by
  refine tracked_congr _ _ _ ?_
  rw [smbStaging_runs h]; simp [stage, hb, hf]

theorem jtag_runs {op : JtagOp} {d : Dev} (h : powered d = true) (g : Dev → Dev) (hg : jtag op d = g d) :
   (fun d => guarded (powered d) (tracked (jtag op)) d) d = tracked g d := by
  simp only [guarded, h, if_true]; exact tracked_congr _ _ _ hg

theorem tracked_emit (x : Out) (d : Dev) : tracked (emit x) d = emit x d := by
  have : reportView (emit x d) = reportView d := rfl
  simp [tracked, this]

theorem dbgAccess_open {g : Dev → Dev} {off pos : Nat} {w : Bool} {d : Dev} (h : d.ptr.debugOpen = true) : dbgAccess .pf off pos w g d = g (debugUsed d) := by
  have : (debugUsed d).ptr.debugOpen = true := h
  simp [dbgAccess, this]

theorem foldl_sht {β : Type} (g : Dev → β → Dev) (hg : ∀ d x, (g d x).sht = d.sht) (l : List β) (d : Dev) :
    (l.foldl g d).sht = d.sht := foldl_frame (fun d => d.sht) g hg l d

theorem killItem_sht (i d) : (killItem i d).sht = d.sht := by
  unfold killItem; dsimp only; refine foldl_sht _ (fun d n => ?_) _ _; rfl

theorem killItems_sht (o c r d) : (killItems o c r d).sht = d.sht := by
  unfold killItems; dsimp only; rw [foldl_sht]
  intro d x; rw [killItem_sht]; rfl

theorem endUndispatched_sht (o c r d) : (endUndispatched o c r d).sht = d.sht := by
  unfold endUndispatched; rw [foldl_sht]; intro d x; rw [finish_sht]

theorem killCtx_sht (o c r d) : (killCtx o c r d).sht = d.sht := by
  unfold killCtx; dsimp only; rw [killItems_sht, endUndispatched_sht]; rfl

theorem faultCtx_sht (o c r rc b d) : (faultCtx o c r rc b d).sht = d.sht := by
  unfold faultCtx; dsimp only
  split
  · rw [record_sht]
  · split
    · rw [killCtx_sht, record_sht]
    · rfl

theorem stopQueue_sht (o q r i l d) : (stopQueue o q r i l d).sht = d.sht := by
  unfold stopQueue; dsimp only; split
  · rw [faultCtx_sht]; rfl
  · rfl

theorem relayFault_sht (x s r l b d) : (relayFault x s r l b d).sht = d.sht := by
  unfold relayFault; dsimp only; rw [record_sht]; rfl

theorem winDisable_sht (v w d) : (winDisable v w d).sht = d.sht := by
  unfold winDisable; dsimp only
  rw [foldl_sht]
  · unfold faultXfers; rw [foldl_sht]
    · rfl
    · intro d x; exact relayFault_sht _ _ _ _ _ _
  · intro d o; apply foldl_sht; intro d q; split
    · exact stopQueue_sht _ _ _ _ _ _
    · rfl

theorem transmit_sht (s p d) : (transmit s p d).sht = d.sht := by unfold transmit; dsimp only; split <;> rfl

theorem sendPairKey_sht (s b d) : (sendPairKey s b d).sht = d.sht := by
  unfold sendPairKey; dsimp only; split
  · rfl
  · split <;> rfl

theorem movedOn_sht (s m e d) : (movedOn s m e d).sht = d.sht := by
  unfold movedOn; split
  · exact sendPairKey_sht _ _ _
  · rfl

theorem pushRel_sht (s m p d) : (pushRel s m p d).sht = d.sht := by
  unfold pushRel; dsimp only; rw [transmit_sht, movedOn_sht]; rfl

theorem sendRel_sht (s m p d) : (sendRel s m p d).sht = d.sht := by
  unfold sendRel; dsimp only; split
  · rfl
  · exact pushRel_sht _ _ _ _

theorem endVote_sht (s d) : (endVote s d).sht = d.sht := by
  unfold endVote; split
  · rfl
  · unfold undefInactive; dsimp only; rw [foldl_sht]
    · show (markVoted _ _ _ _).sht = _
      unfold markVoted; rw [foldl_sht]
      · rfl
      · intro d x; rfl
    · intro d x; rfl

theorem unloadSlot_sht (s d) : (unloadSlot s d).sht = d.sht := by
  unfold unloadSlot; dsimp only
  show (ite _ _ _ : Dev).sht = _
  split
  · unfold sendLease; rw [sendRel_sht, endVote_sht]
  · exact endVote_sht _ _

theorem dropApply_sht (r o d) : (dropApply r o d).sht = d.sht := by unfold dropApply; split <;> rfl

theorem zeroStack_sht (o : Nat) (d : Dev) : (zeroStack o d).sht = d.sht := by
  unfold zeroStack; dsimp only
  obtain ⟨p, h⟩ := metaKeeps_zeroPages ((d.page.filter fun e => o * 2 ^ 37 / 4096 ≤ e.1 && e.1 < (o + 1) * 2 ^ 37 / 4096).map (·.1)) d
  exact h.sht

end Sys2Proof.Laws
end

