-- ==== Sys2Proof/Laws/Ladder.lean ====
section
/-!
SUPPORT. What the levels of the escalation ladder keep, and fault records.
-/
namespace Sys2Proof.Laws
open Sys2Proof.Machine

theorem l3Run_not_live (r : CheckResult) (d : Dev) : live (l3Run r d) = false := by
  unfold l3Run; dsimp only; split
  · rfl
  · rename_i h; simpa using h

theorem l3Start_runs {d : Dev} (h : d.ump.l3Wait = none) (r : CheckResult) (ha : d.ump.auto = false) : l3Start r d = l3Run r d := by
  unfold l3Start; rw [h, ha]; rfl

theorem recordPf_ump (r : FaultRec) (d : Dev) : ∃ a, (recordPf r d).ump = { d.ump with alert := a } := by
  have : ∀ Y : Dev, (alert 1 (interrupt 0 0 Y)).ump = { Y.ump with alert := (Y.ump.alert ||| BitVec.ofNat 16 (2^1))} := by intro Y; simp [alert]
  unfold recordPf; dsimp only; rw [this]; exact ⟨_, rfl⟩

theorem record_ump (r : FaultRec) (b : Bool) (d : Dev) : ∃ a g, (record r b d).ump = { d.ump with alert := a, vfRing := g } := by
  unfold record; split
  · exact ⟨_, _, rfl⟩
  · dsimp only
    split
    · obtain ⟨a, h⟩ := recordPf_ump { r with seq := d.ret.recSeq, tick := d.tck.count, offsetNs := if b then 0 else offsetNs d } d
      rw [h]; exact ⟨a, _, rfl⟩
    · unfold recordVf
      simp only [interrupt_ump]
      obtain ⟨a, h⟩ := recordPf_ump { r with seq := d.ret.recSeq, tick := d.tck.count, offsetNs := if b then 0 else offsetNs d } d
      rw [h]; exact ⟨a, _, rfl⟩

theorem recordHung_l3 (k i : Nat) (r : FaultRec) (b : Bool) (d : Dev) : (recordHung k i r b d).ump.l3Wait = d.ump.l3Wait ∧ (recordHung k i r b d).ump.auto = d.ump.auto := by
  unfold recordHung
  obtain ⟨a, g, h⟩ := record_ump { r with reason := .hungUnit, detail := natLe 4 (k + 256 * i) ++ natLe 8 (Config.freeNat d.free) } b { d with free := d.free + 1 }
  rw [h]; exact ⟨rfl, rfl⟩

theorem l3Start_after_record (r : CheckResult) (k i : Nat) (rc : FaultRec) (b : Bool) (d : Dev) (h : d.ump.l3Wait = none) (ha : d.ump.auto = false) :
    l3Start r (recordHung k i rc b d) = l3Run r (recordHung k i rc b d) := by
  have := recordHung_l3 k i rc b d
  exact l3Start_runs (by rw [this.1, h]) r (by rw [this.2, ha])

theorem settle_l3Run (r : CheckResult) (d : Dev) : settle (l3Run r d) = l3Run r d := settle_dead _ (l3Run_not_live r d)

def KeepsMemory (a b : Dev) : Prop := a.hbm = b.hbm ∧ a.page = b.page ∧ a.ctx = b.ctx ∧ a.cmds = b.cmds ∧ a.part = b.part ∧ a.region = b.region

theorem KeepsMemory.refl (a : Dev) : KeepsMemory a a := ⟨rfl, rfl, rfl, rfl, rfl, rfl⟩

theorem KeepsMemory.trans {a b c : Dev} (h : KeepsMemory a b) (k : KeepsMemory b c) : KeepsMemory a c :=
  ⟨h.1.trans k.1, h.2.1.trans k.2.1, h.2.2.1.trans k.2.2.1, h.2.2.2.1.trans k.2.2.2.1, h.2.2.2.2.1.trans k.2.2.2.2.1,
   h.2.2.2.2.2.trans k.2.2.2.2.2⟩

theorem keepsMemory_record (r b d) : KeepsMemory (record r b d) d := ⟨by simp, by simp, by simp, by simp, by simp, by simp⟩

theorem keepsMemory_lockdown (r d) : KeepsMemory (lockdown r d) d := by
  unfold lockdown; split
  · exact KeepsMemory.refl _
  · exact KeepsMemory.trans (b := record { r with security := true, action := 6 } false d) ⟨rfl, rfl, rfl, rfl, rfl, rfl⟩ (keepsMemory_record _ _ _)

theorem keepsMemory_ready (f : Dev → Dev) (d : Dev) (h : KeepsMemory (f d) d) : KeepsMemory (readyStep f d) d := by
  unfold readyStep; dsimp only; split
  · exact KeepsMemory.trans (b := f d) ⟨by simp, by simp, by simp, by simp, by simp, by simp⟩ h
  · exact KeepsMemory.trans (b := f d) ⟨by simp, by simp, by simp, by simp, by simp, by simp⟩ h

theorem keepsMemory_release (d : Dev) : KeepsMemory (releaseConfig d) d := by
  unfold releaseConfig trainLink; split
  · exact keepsMemory_ready _ _ ⟨rfl, rfl, rfl, rfl, rfl, rfl⟩
  · exact keepsMemory_ready _ _ ⟨rfl, rfl, rfl, rfl, rfl, rfl⟩

theorem keepsMemory_vote (d : Dev) : KeepsMemory (lifecycleVote d) d := by
  unfold lifecycleVote; split
  · exact KeepsMemory.refl _
  · exact ⟨rfl, rfl, rfl, rfl, rfl, rfl⟩
  · exact (keepsMemory_lockdown _ _).trans ⟨rfl, rfl, rfl, rfl, rfl, rfl⟩

theorem keepsMemory_foldl {β : Type} (g : Dev → β → Dev) (hg : ∀ d x, KeepsMemory (g d x) d) (l : List β) (d : Dev) :
    KeepsMemory (l.foldl g d) d := by
  induction l generalizing d with
  | nil => exact KeepsMemory.refl d
  | cons a t ih => exact (ih _).trans (hg d a)

theorem keepsMemory_dieKeys (d : Dev) : KeepsMemory (drawDieKeys d) d :=
  (keepsMemory_foldl _ (by intro d x; exact ⟨rfl, rfl, rfl, rfl, rfl, rfl⟩) _ _).trans ⟨rfl, rfl, rfl, rfl, rfl, rfl⟩

theorem keepsMemory_recovery (d : Dev) : KeepsMemory (recovery d) d := by
  unfold recovery
  refine (keepsMemory_release _).trans (KeepsMemory.trans (b := drawDieKeys d) ?_ (keepsMemory_dieKeys d))
  exact ⟨by simp, by simp, by simp, by simp, by simp, by simp⟩

theorem keepsMemory_load (d : Dev) : KeepsMemory (bootLoad d) d := by
  unfold bootLoad; dsimp only
  split
  · exact ⟨rfl, rfl, rfl, rfl, rfl, rfl⟩
  · split
    · exact ⟨rfl, rfl, rfl, rfl, rfl, rfl⟩
    · exact keepsMemory_recovery d

theorem keepsMemory_boot (t : CheckResult) (c : Bool) (d : Dev) : KeepsMemory (bootRom t c d) d := by
  unfold bootRom; split
  · exact (keepsMemory_lockdown _ _).trans ⟨rfl, rfl, rfl, rfl, rfl, rfl⟩
  · dsimp only; split
    · exact keepsMemory_vote d
    · split
      · exact KeepsMemory.trans (b := lifecycleVote d) ⟨rfl, rfl, rfl, rfl, rfl, rfl⟩ (keepsMemory_vote d)
      · refine (keepsMemory_load _).trans ?_
        refine KeepsMemory.trans (b := lifecycleVote d) ?_ (keepsMemory_vote d)
        unfold deriveCdi0; split <;> exact ⟨rfl, rfl, rfl, rfl, rfl, rfl⟩

/-- The write-back that L3 waits for (R196, R363). -/
theorem metaKeeps_flushAll (d : Dev) : MetaKeeps d ((List.range 8).foldl (fun d s => flushMeta s d) d) :=
  metaKeeps_foldl _ (fun d s => metaKeeps_flushMeta s d) _ _

/-- L3 keeps HBM, the page counters and the regions, and leaves no context, command or partition. -/
theorem keepsMemory_l3 (t : CheckResult) (d : Dev) : KeepsMemory (l3Run t d) (warmReset d) := by
  have k := metaKeeps_flushAll d
  unfold l3Run; dsimp only
  generalize (List.range 8).foldl (fun d s => flushMeta s d) d = x at k ⊢
  have w : KeepsMemory (alert 0 (warmReset x)) (warmReset d) := ⟨k.hbm, k.page, rfl, rfl, rfl, k.region⟩
  have h := (keepsMemory_boot t false (alert 0 (warmReset x))).trans w
  split
  · exact h
  · exact h

theorem transmit_ump (s p d) : (transmit s p d).ump = d.ump := by unfold transmit; dsimp only; split <;> rfl

theorem sendPairKey_ump (s b d) : (sendPairKey s b d).ump = d.ump := by
  unfold sendPairKey; dsimp only; split
  · rfl
  · split <;> rfl

theorem movedOn_ump (s m e d) : (movedOn s m e d).ump = d.ump := by
  unfold movedOn; split
  · exact sendPairKey_ump _ _ _
  · rfl

theorem pushRel_ump (s m p d) : (pushRel s m p d).ump = d.ump := by
  unfold pushRel; dsimp only; rw [transmit_ump, movedOn_ump]; rfl

theorem loseGroup_ump (s d) : (loseGroup s d).ump = d.ump := by
  unfold loseGroup; dsimp only
  show (List.foldl _ d _).ump = _
  exact foldl_frame (fun d => d.ump) _ (fun d x => pushRel_ump _ _ _ _) _ _

theorem octState_ump (o f d) : (octState o f d).ump = d.ump := by
  unfold octState; dsimp only; split
  · rw [partChanged_ump]; rfl
  · rfl

theorem octState_sht (o f d) : (octState o f d).sht = (setSht o f d).sht := by
  unfold octState; dsimp only; split
  · rw [partChanged_sht]
  · rfl

theorem scrubSteps_sht (o d) : (scrubSteps o d).sht = d.sht := by
  unfold scrubSteps
  rw [scrubStores_sht, scrubDomains_sht, (metaKeeps_dropMeta o d).sht]

theorem scrubSteps_tck (o d) : (scrubSteps o d).tck = d.tck := by
  unfold scrubSteps
  rw [scrubStores_tck, scrubDomains_tck, (metaKeeps_dropMeta o d).tck]

/-- A reset scrub that finds no difference. -/
theorem resetScrub_sht (o d) : (resetScrub [] o d).sht = (setSht o (fun x => if x.state = .failed then x else { x with
    state := if x.zeroFill then .zeroFilling else .clean, reason := .ok, doneTick := tickLo d, oldVf := none }) d).sht := by
  unfold resetScrub; dsimp only [List.find?]
  rw [octState_sht]
  have h2 : tickLo (scrubSteps o d) = tickLo d := by unfold tickLo; rw [scrubSteps_tck]
  simp only [setSht, scrubSteps_sht, h2]

theorem resetScrub_fold (l : List Nat) (d : Dev) (o : Nat) (hn : l.Nodup) :
    (getSht (l.foldl (fun d o => resetScrub [] o d) d) o).state =
      if o ∈ l ∧ (getSht d o).state ≠ .failed then (if (getSht d o).zeroFill then .zeroFilling else .clean) else (getSht d o).state := by
  induction l generalizing d with
  | nil => simp
  | cons a t ih =>
    simp only [List.foldl_cons, List.nodup_cons] at hn ⊢
    rw [ih _ hn.2]
    have e : getSht (resetScrub [] a d) o = getSht (setSht a (fun x => if x.state = .failed then x else { x with
      state := if x.zeroFill then .zeroFilling else .clean, reason := .ok, doneTick := tickLo d, oldVf := none }) d) o := by
      simp only [getSht, resetScrub_sht]
    rw [e]
    by_cases h : o = a
    · subst h
      simp only [getSht_setSht, hn.1, false_and, if_false, List.mem_cons, true_or, true_and]
      by_cases hf : (getSht d o).state = .failed <;> simp [hf]
    · simp [h, getSht_setSht_ne _ _ _ _ h]

theorem writeStatus_sht (v w d) : (writeStatus v w d).sht = d.sht := by
  unfold writeStatus; dsimp only; split <;> rfl

theorem renewWindows_sht (v d) : (renewWindows v d).sht = d.sht := by
  unfold renewWindows
  refine foldl_frame (fun d => d.sht) _ ?_ _ _
  intro d w; split
  · exact writeStatus_sht _ _ _
  · rfl

theorem has8_clr8 (b : BitVec 8) (o : Fin 8) : has8 (clr8 b o) o = false := by
  have : ∀ o : Fin 8, (BitVec.ofNat 8 (2 ^ o.val)).getLsbD o.val = true := by decide
  simp only [has8, clr8, BitVec.getLsbD_and, BitVec.getLsbD_not, this]; simp

theorem l2Complete_eq (v : Nat) (l : List StoreDiff) (d : Dev) (h : has8 d.ump.l2 v = true) : ∃ D : Dev, l2Complete v l d = { D with ump := { D.ump with l2 := clr8 D.ump.l2 v } } := by
  refine ⟨renewWindows v ((members8 (getPart d v).octants).foldl (fun d o => resetScrub l o d) d), ?_⟩
  unfold l2Complete; rw [h]; simp only [Bool.not_true, Bool.false_eq_true, if_false]

theorem firmwareFault_starts (o : Fin 8) (d : Dev) (hc : l1Covered d (.sequencer o) = false) : firmwareFault (.sequencer o) d = l1Start (.sequencer o)
      (recordHung 3 0 { recAt d o .hungUnit 12 with action := 2 } false d) := by
  have : (recAt d o .hungUnit 12).subsumed = false := rfl
  simp only [firmwareFault, hc, Bool.false_eq_true, if_false]
  generalize recAt d o .hungUnit 12 = R at this ⊢
  obtain ⟨⟩ := R; simp only at this; subst this; rfl

theorem interrupt_marks (a b : Nat) (d : Dev) : interrupted a b (interrupt a b d) = true := by
  unfold interrupt; split
  · split
    · rename_i h; unfold interrupted; rw [h, Bool.or_true]
    · simp [interrupted]
  · simp [interrupted, emit]

theorem interrupt_keeps (a b x y : Nat) (d : Dev) (h : interrupted a b d = true) : interrupted a b (interrupt x y d) = true := by
  unfold interrupt; split
  · split
    · exact h
    · simp only [interrupted, Bool.or_eq_true, List.contains_eq_mem, decide_eq_true_eq, List.mem_cons] at h ⊢
      rcases h with h | h
      · exact .inl h
      · exact .inr (.inr h)
  · simp only [interrupted, emit, Bool.or_eq_true, List.contains_eq_mem, decide_eq_true_eq, List.mem_cons] at h ⊢
    rcases h with h | h
    · exact .inl (.inr h)
    · exact .inr h

theorem tracked_drop (f : Fn) (r : Reason) (i a : Nat) (w : Bool) (d : Dev) : tracked (dropLog f r i a w) d = dropLog f r i a w d := by
  have : reportView (dropLog f r i a w d) = reportView d := rfl
  unfold tracked; dsimp only; rw [if_pos this]

theorem dropApply_ump (r o d) : (dropApply r o d).ump = d.ump := by unfold dropApply; split <;> rfl

/-- What a partition reset does to an octant keeps the Umpire's registers (R361). -/
theorem l2step_ump (x : Nat) (f : ShtOct → ShtOct) (d : Dev) : (octState x f (dropApply .notReady x (dropFlip x (flushMeta x d)))).ump = d.ump := by
  rw [octState_ump, dropApply_ump, dropFlip, setSeq_ump, (metaKeeps_flushMeta x d).ump]

end Sys2Proof.Laws
end

