-- ==== Sys2Proof/Laws/Words.lean ====
section
/-!
SUPPORT. Encodings of management commands, and writes of register words bit by bit.
-/
namespace Sys2Proof.Laws
open Sys2Proof.Machine

theorem leNat_natLe (n x : Nat) : leNat (natLe n x) = x % 256 ^ n := by
  induction n generalizing x with
  | zero => simp [natLe, leNat, Nat.mod_one]
  | succ n ih =>
    have e : leNat (natLe (n + 1) x) = x % 256 + 256 * leNat (natLe n (x / 256)) := rfl
    rw [e, ih, Nat.pow_succ, Nat.mul_comm (256 ^ n) 256, Nat.mod_mul]

theorem mgmtParse_of (c : MgmtCmd) (h : mgmtFields (mgmtBytes c) = some c) (h2 : slice (mgmtBytes c) 0 128 = mgmtBytes c) : mgmtParse (mgmtBytes c) = some c := by
  unfold mgmtParse; rw [h]; dsimp only; rw [if_pos h2.symm]

theorem slice_len (l : List Byte) (n : Nat) : (slice l 0 n).length = n := by
  simp [slice]

theorem slice_id (l : List Byte) : slice (slice l 0 128) 0 128 = slice l 0 128 := by
  have h := slice_len l 128
  generalize slice l 0 128 = x at h ⊢
  simp [slice, h]

theorem leNat_byte (x : Nat) (h : x < 256) : leNat [BitVec.ofNat 8 x] = x := by
  simp [leNat]; omega

theorem bits_testBit (x lo w i : Nat) : (bits x lo w).testBit i = (decide (i < w) && x.testBit (lo + i)) := by
  unfold bits; rw [Nat.testBit_mod_two_pow, Nat.testBit_div_two_pow, Nat.add_comm]

theorem foldMask_testBit (l : List Fld) (m j : Nat) : (l.foldl (fun m x => m ||| (2 ^ x.width - 1) * 2 ^ x.lo) m).testBit j =
    (m.testBit j || l.any fun x => decide (x.lo ≤ j) && decide (j < x.lo + x.width)) := by
  induction l generalizing m with
  | nil => simp
  | cons x t ih =>
    rw [List.foldl_cons, ih, Nat.testBit_or, List.any_cons, Bool.or_assoc]
    congr 2
    rw [Nat.testBit_mul_two_pow, Nat.testBit_two_pow_sub_one]
    by_cases h : x.lo ≤ j
    · simp only [h, decide_true, Bool.true_and]; congr 1; apply propext; omega
    · simp [h]

theorem fieldMask_testBit (w : Wd) (j : Nat) : (fieldMask w).testBit j = (fieldsOf w).any fun x => decide (x.lo ≤ j) && decide (j < x.lo + x.width) := by
  unfold fieldMask; rw [foldMask_testBit]; simp

theorem maskOf_testBit (b n j : Nat) : (maskOf b n).testBit j = (decide (j < 64) && decide (8 * b ≤ j) && decide (j < 8 * b + 8 * n)) := by
  unfold maskOf; rw [Nat.testBit_mod_two_pow, Nat.testBit_mul_two_pow, Nat.testBit_two_pow_sub_one]
  by_cases h : 8 * b ≤ j
  · simp only [h, decide_true, Bool.true_and, Bool.and_true]; congr 2; apply propext; omega
  · simp [h]

/-- Two accesses that agree on the bits of a word's fields. -/
def SameFieldBits (a b : Acc) (w : Wd) : Prop :=
  a.f = b.f ∧ a.off = b.off ∧ a.n = b.n ∧ ∀ j, (fieldMask w).testBit j = true → (accBits a).testBit j = (accBits b).testBit j

theorem field_bits {a b : Acc} {w : Wd} (h : SameFieldBits a b w) (x : Fld) (hx : x ∈ fieldsOf w) : bits (accBits a) x.lo x.width = bits (accBits b) x.lo x.width := by
  apply Nat.eq_of_testBit_eq; intro i
  rw [bits_testBit, bits_testBit]
  by_cases hi : i < x.width
  · rw [h.2.2.2 (x.lo + i)]
    rw [fieldMask_testBit, List.any_eq_true]
    exact ⟨x, hx, by simp [hi]⟩
  · simp [hi]

theorem merge_bits {a b : Acc} {w : Wd} (h : SameFieldBits a b w) (old m : Nat) (x : Fld) (hx : x ∈ fieldsOf w) :
    bits (merge old (accBits a) m) x.lo x.width = bits (merge old (accBits b) m) x.lo x.width := by
  apply Nat.eq_of_testBit_eq; intro i
  rw [bits_testBit, bits_testBit]
  by_cases hi : i < x.width
  · have := h.2.2.2 (x.lo + i) (by rw [fieldMask_testBit, List.any_eq_true]; exact ⟨x, hx, by simp [hi]⟩)
    simp only [merge, Nat.testBit_or, Nat.testBit_and, this]
  · simp [hi]

theorem placed_mem {w : Wd} {e : Nat × Fld} (h : e ∈ placed w) : e.2 ∈ fieldsOf w := by
  unfold placed at h
  rw [List.mem_mapIdx] at h
  obtain ⟨i, hi, h⟩ := h
  rw [← h]; exact List.getElem_mem _

theorem mask_eq {a b : Acc} {w : Wd} (h : SameFieldBits a b w) : accMask a = accMask b := by unfold accMask; rw [h.2.1, h.2.2.1]

theorem writable_eq {a b : Acc} {w : Wd} (h : SameFieldBits a b w) : writable a w = writable b w := by unfold writable; rw [mask_eq h]

theorem writable_mem {a : Acc} {w : Wd} {e} (h : e ∈ writable a w) : e.2 ∈ fieldsOf w := placed_mem (List.mem_of_mem_filter h)

theorem newValue_eq {a b : Acc} {w : Wd} (h : SameFieldBits a b w) (d : Dev) (x : Fld) (hx : x ∈ fieldsOf w) : newValue d a w x = newValue d b w x := by
  unfold newValue
  split
  · exact field_bits h x hx
  · rw [mask_eq h, h.1]; exact merge_bits h _ _ x hx

theorem oldValue_eq {a b : Acc} {w : Wd} (h : SameFieldBits a b w) (d : Dev) (x : Fld) : oldValue d a w x = oldValue d b w x := by
  unfold oldValue; rw [h.1]

theorem taken_eq {a b : Acc} {w : Wd} (h : SameFieldBits a b w) (d : Dev) : taken d a w = taken d b w := by
  unfold taken; rw [writable_eq h]
  apply List.filter_congr
  intro e he
  rw [newValue_eq h d e.2 (writable_mem he), h.1]

theorem findSome_congr {α β : Type} (f g : α → Option β) (l : List α) (h : ∀ x ∈ l, f x = g x) : l.findSome? f = l.findSome? g := by
  induction l with
  | nil => rfl
  | cons x t ih =>
    rw [List.findSome?_cons, List.findSome?_cons, h x (List.mem_cons_self), ih (fun y hy => h y (List.mem_cons_of_mem _ hy))]

theorem refused_eq {a b : Acc} {w : Wd} (h : SameFieldBits a b w) (d : Dev) : refusedField d a w = refusedField d b w := by
  unfold refusedField; rw [writable_eq h]
  apply findSome_congr
  intro e he
  rw [newValue_eq h d e.2 (writable_mem he), oldValue_eq h, h.1]

theorem foldl_congr' {α β : Type} (f g : β → α → β) (l : List α) (z : β) (h : ∀ y, ∀ x ∈ l, f y x = g y x) : l.foldl f z = l.foldl g z := by
  induction l generalizing z with
  | nil => rfl
  | cons x t ih =>
    rw [List.foldl_cons, List.foldl_cons, h z x List.mem_cons_self, ih _ (fun y u hu => h y u (List.mem_cons_of_mem _ hu))]

theorem image_eq {a b : Acc} {w : Wd} (h : SameFieldBits a b w) (d : Dev) : imageOf d a w = imageOf d b w := by
  unfold imageOf; dsimp only; rw [taken_eq h]
  have e1 : List.foldl (fun n e => n + newValue d a w e.2 * 2 ^ e.2.lo) 0 (taken d b w) = List.foldl (fun n e => n + newValue d b w e.2 * 2 ^ e.2.lo) 0 (taken d b w) := by
    apply foldl_congr'
    intro y e he
    rw [newValue_eq h d e.2 (writable_mem (List.mem_of_mem_filter he))]
  rw [e1]
  apply foldl_congr'
  intro y e he
  rw [oldValue_eq h]

theorem natLe_congr (n x y : Nat) (h : ∀ i, i < 8 * n → x.testBit i = y.testBit i) : natLe n x = natLe n y := by
  induction n generalizing x y with
  | zero => rfl
  | succ n ih =>
    unfold natLe
    congr 1
    · apply BitVec.eq_of_getLsbD_eq; intro i hi
      rw [BitVec.getLsbD_ofNat, BitVec.getLsbD_ofNat, h i (by omega)]
    · apply ih; intro i hi
      have := h (8 + i) (by omega)
      rw [show (256:Nat) = 2 ^ 8 from rfl, Nat.testBit_div_two_pow, Nat.testBit_div_two_pow, Nat.add_comm i 8]; exact this

theorem fieldWrite_eq {a b : Acc} {w : Wd} (h : SameFieldBits a b w) (hb : (∀ j < 64, (fieldMask w).testBit j = true) → natLe a.n a.value = natLe b.n b.value) (d : Dev) :
    fieldWrite a w d = fieldWrite b w d := by
  unfold fieldWrite
  rw [writable_eq h, taken_eq h, refused_eq h, image_eq h]
  have hw : ∀ x t, writeWord a w x t d = writeWord b w x t d := by
    intro x t
    obtain ⟨leNat_byte, o1, n1, v1⟩ := a
    obtain ⟨f2, o2, n2, v2⟩ := b
    obtain ⟨h1, h2, h3, -⟩ := h
    simp only at h1 h2 h3 hb
    subst h1; subst h2; subst h3
    have ba : natLe n1 v1 = natLe n1 v2 → ∀ base m, bytesAt { f := leNat_byte, off := o1, n := n1, value := v1 } base m = bytesAt { f := leNat_byte, off := o1, n := n1, value := v2 } base m := by
      intro h base m; unfold bytesAt; dsimp only; rw [h]
    have full : fieldMask (.ptrBuf 0) = 2 ^ 64 - 1 := by decide
    have hf : ∀ j < 64, (2 ^ 64 - 1).testBit j = true := by intro j hj; rw [Nat.testBit_two_pow_sub_one]; simpa using hj
    cases w <;> try rfl
    · rename_i b; cases b <;> rfl
    · rename_i i; have := ba (hb hf); simp only [writeWord, this]
    · rename_i i; have := hb hf; simp only [writeWord, this]
    · rename_i o i; have := ba (hb hf); simp only [writeWord, this]
  simp only [hw]
  obtain ⟨leNat_byte, o1, n1, v1⟩ := a
  obtain ⟨f2, o2, n2, v2⟩ := b
  obtain ⟨h1, h2, h3, -⟩ := h
  simp only at h1 h2 h3
  subst h1; subst h2; subst h3
  rfl

theorem sameFieldBits_of (f : Fn) (off n : Nat) (v x : DWord) (w : Wd) (ho : accessOk off n = true)
    (h : ∀ i, i < 8 * n → (fieldMask w).testBit (8 * (off % 8) + i) = true → v.getLsbD i = x.getLsbD i) :
    SameFieldBits ⟨f, off, n, v.toNat⟩ ⟨f, off, n, x.toNat⟩ w := by
  refine ⟨rfl, rfl, rfl, ?_⟩
  intro j hj
  unfold accBits accMask; dsimp only
  rw [Nat.testBit_and, Nat.testBit_and, maskOf_testBit, Nat.testBit_mul_two_pow, Nat.testBit_mul_two_pow]
  by_cases h1 : 8 * (off % 8) ≤ j
  · by_cases h2 : j < 8 * (off % 8) + 8 * n
    · have := h (j - 8 * (off % 8)) (by omega) (by rw [Nat.add_sub_cancel' h1]; exact hj)
      have e : v.toNat.testBit (j - 8 * (off % 8)) = x.toNat.testBit (j - 8 * (off % 8)) := this
      rw [e]
    · simp [h2]
  · simp [h1]

theorem sameFieldBits_bytes (off n : Nat) (v x : DWord) (w : Wd) (ho : accessOk off n = true)
    (h : ∀ i, i < 8 * n → (fieldMask w).testBit (8 * (off % 8) + i) = true → v.getLsbD i = x.getLsbD i)
    (hf : ∀ j < 64, (fieldMask w).testBit j = true) : natLe n v.toNat = natLe n x.toNat := by
  apply natLe_congr
  intro i hi
  have hn : (n = 4 ∧ off % 4 = 0) ∨ (n = 8 ∧ off % 8 = 0) := by
    simp only [accessOk, Bool.and_eq_true, Bool.or_eq_true, beq_iff_eq] at ho
    rcases ho with ⟨h1 | h1, h2⟩
    · subst h1; exact .inl ⟨rfl, h2⟩
    · subst h1; exact .inr ⟨rfl, h2⟩
  exact h i hi (hf _ (by omega))

end Sys2Proof.Laws
end

