-- ==== Sys2Proof/Laws/Sealing.lean ====
section
/-!
SUPPORT. Sealed bytes: what is sealed opens, under the same key, to what it was (R236, R294, R296).
-/
namespace Sys2Proof.Laws
open Sys2Proof.Machine

theorem natLe_length (n x : Nat) : (natLe n x).length = n := by
  induction n generalizing x with
  | zero => rfl
  | succ n ih => simp [natLe, ih]

theorem natBe_length (n x : Nat) : (natBe n x).length = n := by simp [natBe, natLe_length]

theorem beNat_natBe (n x : Nat) : beNat (natBe n x) = x % 256 ^ n := by simp [beNat, natBe, leNat_natLe]

/-- A slice is the piece of a string between two others. -/
theorem slice_mid (a b c : List Byte) : slice (a ++ b ++ c) a.length b.length = b := by
  simp [slice, List.append_assoc]

theorem flatten_length16 (l : List Nat) (f : Nat → List Byte) (h : ∀ i, (f i).length = 16) :
    ((l.map f).flatten).length = 16 * l.length := by
  induction l with
  | nil => rfl
  | cons a t ih => simp [h, ih]; omega

theorem gcmStream_length (key : BitVec 256) (nonce : List Byte) (n : Nat) : n ≤ (gcmStream key nonce n).length := by
  unfold gcmStream
  rw [flatten_length16 _ _ (fun i => natBe_length 16 _), List.length_range]
  omega

theorem gcmText_length (key : BitVec 256) (nonce l : List Byte) : (gcmText key nonce l).length = l.length := by
  have := gcmStream_length key nonce l.length
  simp only [gcmText, List.length_zipWith]; omega

theorem gcmTag_length (key : BitVec 256) (nonce aad c : List Byte) : (gcmTag key nonce aad c).length = 16 := natBe_length _ _

theorem xor_twice (l s : List Byte) (h : l.length ≤ s.length) :
    List.zipWith (· ^^^ ·) (List.zipWith (· ^^^ ·) l s) s = l := by
  induction l generalizing s with
  | nil => rfl
  | cons a t ih =>
    cases s with
    | nil => simp at h
    | cons b u =>
      simp only [List.zipWith_cons_cons, ih u (by simpa using h), BitVec.xor_assoc, BitVec.xor_self, BitVec.xor_zero]

/-- Decryption of an encrypted text. -/
theorem gcmText_twice (key : BitVec 256) (nonce l : List Byte) : gcmText key nonce (gcmText key nonce l) = l := by
  have h := gcmText_length key nonce l
  unfold gcmText at h ⊢
  rw [h]; exact xor_twice _ _ (gcmStream_length _ _ _)

/-- A sealed block opens to what was sealed (R294, R296). -/
theorem opened_sealed (key : BitVec 256) (block wseq : Nat) (data : List Byte) (hb : block < 2 ^ 32) (hw : wseq < 2 ^ 64) :
    opened key (sealed key block wseq data).1 (sealed key block wseq data).2 =
      { data := data, wseq := wseq, block := block, tagOk := true } := by
  unfold sealed
  generalize hc : gcmText key (blockNonce block wseq) data = c
  generalize ht : gcmTag key (blockNonce block wseq) (natLe 8 wseq ++ natLe 4 block ++ natLe 4 0) c = t
  have lt : t.length = 16 := by rw [← ht]; exact gcmTag_length _ _ _ _
  have s1 : field (t ++ (natLe 8 wseq ++ natLe 4 block ++ natLe 4 0)) 0x10 8 = wseq := by
    have := slice_mid t (natLe 8 wseq) (natLe 4 block ++ natLe 4 0)
    rw [lt, natLe_length] at this
    rw [field, ← List.append_assoc, ← List.append_assoc, List.append_assoc (t ++ natLe 8 wseq), this, leNat_natLe]
    exact Nat.mod_eq_of_lt (by simpa using hw)
  have s2 : field (t ++ (natLe 8 wseq ++ natLe 4 block ++ natLe 4 0)) 0x18 4 = block := by
    have := slice_mid (t ++ natLe 8 wseq) (natLe 4 block) (natLe 4 0)
    rw [List.length_append, lt, natLe_length, natLe_length] at this
    rw [field, ← List.append_assoc, ← List.append_assoc, this, leNat_natLe]
    exact Nat.mod_eq_of_lt (by simpa using hb)
  have s3 : slice (t ++ (natLe 8 wseq ++ natLe 4 block ++ natLe 4 0)) 0x10 16 = natLe 8 wseq ++ natLe 4 block ++ natLe 4 0 := by
    have := slice_mid t (natLe 8 wseq ++ natLe 4 block ++ natLe 4 0) []
    rw [lt, List.append_nil] at this
    simpa [natLe_length] using this
  have s4 : slice (t ++ (natLe 8 wseq ++ natLe 4 block ++ natLe 4 0)) 0 16 = t := by
    have := slice_mid [] t (natLe 8 wseq ++ natLe 4 block ++ natLe 4 0)
    rw [List.nil_append, lt] at this
    exact this
  unfold opened
  simp only [s1, s2, s3, s4, ht, beq_self_eq_true]
  rw [← hc, gcmText_twice]

theorem frame_splits (key : BitVec 256) (p : Packet) (f : Frame) (hr : f.rest = (sealPacket key p).body)
    (hl : headField f.head 0x0A 2 = p.payload.length) :
    frameCipher f = gcmText key (packetNonce (packetHead p)) p.payload ∧
    frameTag f = gcmTag key (packetNonce (packetHead p)) (packetHead p) (gcmText key (packetNonce (packetHead p)) p.payload) := by
  unfold frameCipher frameTag
  rw [hr, hl]
  unfold sealPacket
  dsimp only
  generalize hc : gcmText key (packetNonce (packetHead p)) p.payload = c
  generalize ht : gcmTag key (packetNonce (packetHead p)) (packetHead p) c = t
  have lc : p.payload.length = c.length := by rw [← hc, gcmText_length]
  have lt : t.length = 16 := by rw [← ht]; exact gcmTag_length _ _ _ _
  rw [lc]
  exact ⟨List.take_left, by rw [List.drop_left, ← lt, List.take_length]⟩

/-- The tag of a sealed packet verifies under the key that sealed it (R236, R238). -/
theorem tagVerifies_sealed (key : BitVec 256) (p : Packet) (f : Frame) (hh : f.head = packetHead p)
    (hr : f.rest = (sealPacket key p).body) (hl : headField f.head 0x0A 2 = p.payload.length) : tagVerifies key f = true := by
  obtain ⟨h1, h2⟩ := frame_splits key p f hr hl
  unfold tagVerifies
  rw [h1, h2, hh]; exact beq_self_eq_true _

/-- A sealed packet opens to its header's fields and its payload (R236). -/
theorem openPacket_sealed (key : BitVec 256) (p : Packet) (f : Frame) (hh : f.head = packetHead p)
    (hr : f.rest = (sealPacket key p).body) (hl : headField f.head 0x0A 2 = p.payload.length) :
    openPacket key f = headPacket (packetHead p) p.payload := by
  obtain ⟨h1, _⟩ := frame_splits key p f hr hl
  unfold openPacket
  rw [h1, hh, gcmText_twice]

end Sys2Proof.Laws
end

