-- ==== Sys2Proof/Laws/Stopped.lean ====
section
/-!
SUPPORT. Commands of a device that is unpowered, in lockdown or tripped.
-/
namespace Sys2Proof.Laws
open Sys2Proof.Machine

def Idle (d : Dev) : Prop := stopped d = true ∧ holdsNoKey d = true

abbrev StepResult := Host.Outcome State Machine.Fault Refusal

theorem Idle.dead {d : Dev} (h : Idle d) : live d = false := by
  have := h.1; unfold stopped at this; unfold live
  simp only [Bool.or_eq_true, beq_iff_eq] at this
  rcases this with (h | h) | h <;> rw [h] <;> rfl

theorem Idle.bar {d : Dev} (h : Idle d) (f : Fn) : barAnswers d f = false := by
  have := h.1; unfold stopped at this; unfold barAnswers
  simp only [Bool.or_eq_true, beq_iff_eq] at this
  rcases this with (h | h) | h <;> rw [h] <;> rfl

theorem Idle.notRec {d : Dev} (h : Idle d) : d.pkg.phase ≠ .recovery := by
  have := h.1; unfold stopped at this
  simp only [Bool.or_eq_true, beq_iff_eq] at this
  rcases this with (h | h) | h <;> rw [h] <;> decide

theorem Idle.fw {d : Dev} (h : Idle d) : firmwareRuns d = false := by
  have := h.1; unfold stopped at this; unfold firmwareRuns
  simp only [Bool.or_eq_true, beq_iff_eq] at this
  rcases this with (h | h) | h <;> rw [h] <;> rfl

theorem Idle.of {d e : Dev} (h : Idle d) (h1 : e.pkg.phase = d.pkg.phase) (h2 : e.ret = d.ret) (h3 : e.ptr = d.ptr)
    (h4 : e.group = d.group) (h5 : e.win = d.win) : Idle e := by
  unfold Idle stopped holdsNoKey linkKeysGone at *; rw [h1, h2, h3, h4, h5]; exact h

theorem Idle.gen {d : Dev} (h : Idle d) : Idle (genUp d) := h

theorem Idle.tracked {d : Dev} (f : Dev → Dev) (h : Idle (f d)) : Idle (tracked f d) := by
  rcases tracked_cases f d with h1 | h1 <;> rw [h1]
  · exact h
  · exact h.gen

variable {s t : State}

theorem idle_same (e : s.dev = d') (hQ : Idle s.dev) (h : (.next { s with dev := d' } : StepResult) = .next t) : Idle t.dev := by
  injection h with h; subst h; exact e ▸ hQ

theorem idle_to (hQ : Idle d') (h : (.next { s with dev := d' } : StepResult) = .next t) : Idle t.dev := by
  injection h with h; subst h; exact hQ

theorem idle_live {f} (hQ : Idle s.dev) (h : (.next { s with dev := whenLive f s.dev } : StepResult) = .next t) : Idle t.dev :=
  idle_same (by rw [whenLive, hQ.dead]; rfl) hQ h

theorem idle_settled {f} (hQ : Idle s.dev) (h : (.next { s with dev := settled f s.dev } : StepResult) = .next t) : Idle t.dev :=
  idle_same (by rw [settled, hQ.dead]; rfl) hQ h

theorem idle_bar {f g} (hQ : Idle s.dev) (h : (.next { s with dev := whenBar f g s.dev } : StepResult) = .next t) : Idle t.dev :=
  idle_same (by rw [whenBar, hQ.bar]; rfl) hQ h

theorem idle_issuer {i g} (hQ : Idle s.dev) (h : (.next { s with dev := whenIssuer i g s.dev } : StepResult) = .next t) : Idle t.dev :=
  idle_same (by cases i with
    | host f => simp only [whenIssuer]; rw [whenBar, hQ.bar]; rfl
    | porter => simp only [whenIssuer]; rw [whenLive, hQ.dead]; rfl) hQ h

theorem mbox_dead {op seq p f} {d : Dev} (hQ : Idle d) : mailbox op seq p f d = d := by unfold mailbox; rw [hQ.bar]; rfl

theorem spdm_dead {f g} {d : Dev} (hQ : Idle d) : spdmRequest f g d = d := by
  unfold spdmRequest; rw [if_neg hQ.notRec, hQ.dead]; split <;> rfl

theorem sess_dead {x g} {d : Dev} (hQ : Idle d) : inSession x g d = d := by
  unfold inSession; split
  · exact spdm_dead hQ
  · rfl

theorem idle_mailbox {op seq p f} (hQ : Idle s.dev) (h : (.next { s with dev := mailbox op seq p f s.dev } : StepResult) = .next t) : Idle t.dev :=
  idle_same (mbox_dead hQ).symm hQ h

theorem idle_tmailbox {op seq p f} (hQ : Idle s.dev) (h : (.next { s with dev := tracked (mailbox op seq p f) s.dev } : StepResult) = .next t) : Idle t.dev :=
  idle_to (Idle.tracked _ (by rw [mbox_dead hQ]; exact hQ)) h

theorem idle_spdm {f g} (hQ : Idle s.dev) (h : (.next { s with dev := spdmRequest f g s.dev } : StepResult) = .next t) : Idle t.dev :=
  idle_same (spdm_dead hQ).symm hQ h

theorem idle_sess {x g} (hQ : Idle s.dev) (h : (.next { s with dev := inSession x g s.dev } : StepResult) = .next t) : Idle t.dev :=
  idle_same (sess_dead hQ).symm hQ h

theorem idle_tsess {x g} (hQ : Idle s.dev) (h : (.next { s with dev := tracked (inSession x g) s.dev } : StepResult) = .next t) : Idle t.dev :=
  idle_to (Idle.tracked _ (by rw [sess_dead hQ]; exact hQ)) h

theorem Idle.heard {d : Dev} (hQ : Idle d) (p f) (h : Idle (f d)) : Idle (smbHeard p f d) := by
  unfold smbHeard; split
  · exact h
  · exact hQ

theorem Idle.emit {d : Dev} (hQ : Idle d) (o) : Idle (emit o d) := hQ

theorem Idle.always {d : Dev} (hQ : Idle d) (p f) (h : Idle (f d)) : Idle (smbAlways p f d) := by
  unfold smbAlways; apply hQ.heard; split
  · exact hQ
  · exact h

theorem idle_fw {p f} (hQ : Idle s.dev) (h : (.next { s with dev := smbFirmware p f s.dev } : StepResult) = .next t) : Idle t.dev :=
  idle_to (by unfold smbFirmware; apply hQ.heard; rw [hQ.fw]; exact hQ) h

theorem Idle.stg {d : Dev} (hQ : Idle d) (p f) : Idle (smbStaging p f d) := by
  unfold smbStaging; apply hQ.heard; rw [hQ.fw, if_neg]
  · exact hQ
  · intro h; rcases h with h | h
    · cases h
    · exact hQ.notRec h

theorem idle_stg {p f} (hQ : Idle s.dev) (h : (.next { s with dev := smbStaging p f s.dev } : StepResult) = .next t) : Idle t.dev := idle_to (hQ.stg _ _) h

theorem idle_tstg {p f} (hQ : Idle s.dev) (h : (.next { s with dev := tracked (smbStaging p f) s.dev } : StepResult) = .next t) : Idle t.dev := idle_to (Idle.tracked _ (hQ.stg _ _)) h

theorem linkKeysGone_zero (p) (d : Dev) : linkKeysGone (stopAndZero p d) = true := by
  simp only [linkKeysGone, stopAndZero, alert, Bool.and_eq_true, List.all_eq_true, List.mem_map, beq_self_eq_true, true_and]
  constructor
  · rintro e ⟨x, -, rfl⟩; rfl
  · rintro e ⟨x, -, rfl⟩
    refine ⟨rfl, ?_⟩
    rintro y hy
    simp only [List.mem_map] at hy
    obtain ⟨z, -, rfl⟩ := hy; exact ⟨rfl, rfl⟩

theorem Idle.zero {d : Dev} (p) (hp : p = .lockdown ∨ p = .tripped) : Idle (stopAndZero p d) := by
  have hk : holdsNoKey (stopAndZero p d) = true := by
    rw [holdsNoKey, linkKeysGone_zero]; rfl
  rcases hp with rfl | rfl
  · exact ⟨by unfold stopped; rfl, hk⟩
  · exact ⟨by unfold stopped; rfl, hk⟩

theorem Idle.guarded {d : Dev} (hQ : Idle d) (b f) (h : b = true → Idle (f d)) : Idle (guarded b f d) := by
  unfold Machine.guarded; split
  · rename_i hb; exact h hb
  · exact hQ

theorem Idle.sess {d : Dev} (h : Idle d) : d.ptr.sess = [] := by
  have := h.2; unfold holdsNoKey at this
  simp only [Bool.and_eq_true, beq_iff_eq] at this
  exact this.1.2

theorem endSessions_none {d : Dev} (h : d.ptr.sess = []) (f) : endSessions f d = d := by
  unfold endSessions
  generalize shareOf f = l
  induction l with
  | nil => rfl
  | cons a l ih =>
    rw [List.foldl_cons, h]
    exact ih


theorem idle_meeting {ev f} (hQ : Idle s.dev) (h : (.next { s with dev := meeting ev (settled f) s.dev } : StepResult) = .next t) : Idle t.dev :=
  idle_to (by
    have q : Idle (withLine ev s.dev) := hQ
    unfold meeting settled; rw [q.dead]; exact hQ) h

theorem idle_guarded {b f} (hQ : Idle s.dev) (h : (.next { s with dev := guarded b (settled f) s.dev } : StepResult) = .next t) : Idle t.dev :=
  idle_to (hQ.guarded _ _ (fun _ => by unfold settled; rw [hQ.dead]; exact hQ)) h

end Sys2Proof.Laws
end

