-- ==== Sys2Proof/Tests/Slice0.lean ====
section
/-!
SUPPORT. The model's own tests: terms that each check of WellFormed refuses; small tests of one command or operation, each with
the rule that its expected result comes from; and, for every statement with hypotheses, a witness: for each of its clauses,
operands and a state that meet the clause's hypotheses together.
-/
namespace Sys2Proof.Tests
open Sys2Proof.Machine

set_option maxRecDepth 20000
set_option exponentiation.threshold 400

/-! ## Small states -/

/-- The state of a device with no command waiting. -/
def st (d : Dev) : State := ⟨d, []⟩

/-- A flag set for every function. -/
def fns : Tbl Bool := (List.range 9).map fun i => (i, true)

/-- A package in service, everything ready, the link up, eight VFs enabled. -/
def onPkg : Pkg :=
  { Pkg.reset with
    phase := .running, pwrgd := true, perst := false, pwrgdOut := true, config := true, mailbox := true, stackReady := 0xFF,
    octReady := 0xFF, portReady := 0xFF, dlUp := true, busMaster := fns, memSpace := fns, vfEnable := true, numVfs := 8 }

/-- In service and Porter-managed: VF 0 owns octant 0 and key domains 0 to 3; the other octants are clean. -/
def pd : Dev :=
  { Dev.reset with
    pkg := onPkg
    part := [(0, { Part.zero with octants := 1, kdCount := 4, en := true, live := true })]
    sht := (List.range 8).map fun o => (o, { ShtOct.reset with state := .clean, owned := o == 0 })
    stack := (List.range 8).map fun o => (o, { Stack.reset with inited := true, rootValid := true }) }

/-- The same, host-managed. -/
def hd : Dev := { pd with ptr := { pd.ptr with hostManaged := true } }

/-- 128 bytes of which the listed ones are not zero. -/
def bytes (n : Nat) (l : List (Nat × Byte)) : List Byte := (List.range n).map fun i => look 0 i l

/-- A command of octant 0, queue 0, context 0. -/
def cmd (phase : CmdPhase) (l : List (Nat × Byte)) : Cmd :=
  { id := 0, oct := 0, q := 0, ctx := 0, slot := 0, raw := bytes 128 l, phase := phase, winStart := 0, winEnd := 0, winTick := 0,
    delay := 0, began := 0, endPassed := false, waitLeft := none, waitOk := false, limitHeld := false, result := (.done, .ok),
    info := [], heldUntil := none, noSignal := false, retired := false, errEnd := none }

/-- A transfer of Relay engine 0 of octant 0, of command 0. -/
def xfer : Xfer :=
  { oct := 0, eng := 0, seq := 0, cmd := 0, ctx := 0, partl := false, left := 0, maps := [], row := 0, off := 0, bytesDone := 0,
    stowBytes := 0, stowBuf := [], page := 0, cursor := 0, label := 0, srcLabel := 0, fabric := false, pools := [],
    staging := [], staged := 0, asm := [],
    waiting := none, answered := false, allDone := false, fault := none }

/-- A rally step of command 0 in slot 0 of port 0. -/
def step0 : RStep :=
  { cmd := 0, port := 0, slot := 0, left := 0, draining := false, maps := [], units := [], pieces := [], lateLeft := none }

/-- A member of no party. -/
def mem0 : Member := { addr := 0, udp := 0, party := none }

/-- A group of two members in slot 0, of which the device is the given one. -/
def grp (self : Nat) : Group :=
  { Group.zero with loaded := true, id := 1, self := self, members := [mem0, mem0], creditInit := 64, k := 1 }

/-- A packet of member 1 (0 when the device is member 1) to the device, of group 1. -/
def pkt (typ src dst : Nat) : Packet :=
  { typ := typ, nonfinite := false, last := false, capDrop := false, epoch := 0, group := 1,
    src := src, dst := dst, len := 0, unreliable := false, psn := 0, collSeq := 0, step := 0, sub := 0, dtop := 0, chunk := 0,
    offset := 0, contrib := 0, label := 0, parties := 0, lease := 0, arg := 0, payload := [] }

/-- The packet's frame at port 0, sealed under the key 0, and what a group whose pairs have that key finds in it. -/
def frm (p : Packet) : Frame :=
  { port := 0, pause := false, addr := 0, udp := 50317, sumOk := true, head := packetHead p, rest := (sealPacket 0 p).body
    ev := .clean }

/-- A byte string with the low bit of each byte turned, which is not the string. -/
def turned (l : List Byte) : List Byte := l.map (· ^^^ 1)

theorem turned_ne (b : Byte) (l : List Byte) : (b :: l == turned (b :: l)) = false := by
  rw [beq_eq_false_iff_ne]
  intro h
  have h1 : b = b ^^^ 1 := (List.cons.inj h).1
  have h2 : b ^^^ b = b ^^^ (b ^^^ 1) := by rw [← h1]
  rw [← BitVec.xor_assoc, BitVec.xor_self, BitVec.zero_xor] at h2
  cases h2

theorem natBe16_turned (x : Nat) : (natBe 16 x == turned (natBe 16 x)) = false := turned_ne _ _

/-- The frame with its tag turned. -/
def badTag (p : Packet) : Frame := { frm p with rest := turned (sealPacket 0 p).body }

theorem frm_tag {d : Dev} {slot : Nat} (p : Packet)
    (hk : epochKey (headPacket (packetHead p) []).epoch (getPair (getGroup d slot) (headPacket (packetHead p) []).src) = 0)
    (hl : headField (packetHead p) 0x0A 2 = p.payload.length) : tagOk d slot (frm p) = true := by
  change tagVerifies (epochKey (headPacket (packetHead p) []).epoch
    (getPair (getGroup d slot) (headPacket (packetHead p) []).src))
    (frm p) = true
  rw [hk]
  exact Laws.tagVerifies_sealed 0 p (frm p) rfl rfl hl

/-- A packet that reaches its group, is no replay, and that a group which has not failed takes, passes every check. -/
theorem frm_passes {d : Dev} {slot : Nat} (p : Packet)
    (hk : epochKey (headPacket (packetHead p) []).epoch (getPair (getGroup d slot) (headPacket (packetHead p) []).src) = 0)
    (hl : headField (packetHead p) 0x0A 2 = p.payload.length) (h1 : packetReaches (frm p) slot d = true)
    (h2 : (!replayed (pairEpoch (getGroup d slot) (headPacket (packetHead p) []).src (headPacket (packetHead p) []).epoch
      (getPair (getGroup d slot) (headPacket (packetHead p) []).src)) (headPacket (packetHead p) []) &&
      (getGroup d slot).failed.isNone) = true) : packetPasses (frm p) slot d = true := by
  have h3 := frm_tag (d := d) (slot := slot) p hk hl
  unfold packetPasses
  dsimp only
  rw [h1, h3, Bool.true_and, Bool.true_and]; exact h2

theorem badTag_fails {d : Dev} {slot : Nat} (p : Packet)
    (hk : epochKey (headPacket (packetHead p) []).epoch (getPair (getGroup d slot) (headPacket (packetHead p) []).src) = 0)
    (hl : headField (packetHead p) 0x0A 2 = 0) (hp : p.payload = []) : tagOk d slot (badTag p) = false := by
  change tagVerifies (epochKey (headPacket (packetHead p) []).epoch
    (getPair (getGroup d slot) (headPacket (packetHead p) []).src))
    (badTag p) = false
  rw [hk]
  unfold tagVerifies frameCipher frameTag
  rw [show headField (badTag p).head 0x0A 2 = 0 from hl]
  unfold badTag sealPacket
  simp only [hp]
  exact natBe16_turned _

/-- A block of n zeros that the host delivers, sealed under a window's key as block 0 with WSEQ 0. -/
def blk (key : BitVec 256) (n : Nat) : HostBlock :=
  { cipher := (sealed key 0 0 (List.replicate n 0)).1, record := (sealed key 0 0 (List.replicate n 0)).2, poisoned := false }

/-- The key of a window that has no session. -/
def key0 : BitVec 256 := dataKey 0 0 Win.zero

theorem blk_opens (key : BitVec 256) (n : Nat) :
    ⟨List.replicate n 0, 0, 0, true⟩ = opened key (blk key n).cipher (blk key n).record :=
  (Laws.opened_sealed key 0 0 _ (by decide) (by decide)).symm

theorem blk_length (key : BitVec 256) (n : Nat) : (blk key n).cipher.length = n :=
  (Laws.gcmText_length _ _ _).trans List.length_replicate

/-- A block whose tag is turned, with all else of its record zero. -/
def badBlk (key : BitVec 256) : HostBlock :=
  { cipher := [], record := turned (gcmTag key (blockNonce 0 0) (List.replicate 16 0) []) ++ List.replicate 16 0, poisoned := false }

theorem badBlk_fails (key : BitVec 256) : (opened key (badBlk key).cipher (badBlk key).record).tagOk = false := by
  have hl : (turned (gcmTag key (blockNonce 0 0) (List.replicate 16 0) [])).length = 16 :=
    (List.length_map _).trans (Laws.gcmTag_length _ _ _ _)
  have ht : (gcmTag key (blockNonce 0 0) (List.replicate 16 0) [] ==
      turned (gcmTag key (blockNonce 0 0) (List.replicate 16 0) [])) = false := natBe16_turned _
  unfold badBlk
  generalize turned (gcmTag key (blockNonce 0 0) (List.replicate 16 0) []) = u at hl ht ⊢
  have s1 : slice (u ++ List.replicate 16 0) 0x10 16 = List.replicate 16 0 := by simp [slice, hl]
  have s2 : slice (u ++ List.replicate 16 0) 0 16 = u := by simp [slice, hl]
  have s3 : field (u ++ List.replicate 16 0) 0x10 8 = 0 := by simp [field, slice, hl]; decide
  have s4 : field (u ++ List.replicate 16 0) 0x18 4 = 0 := by
    rw [field, slice, List.drop_append, List.drop_eq_nil_of_le (by omega), hl]; decide
  unfold opened
  rw [s1, s2, s3, s4]; exact ht

/-- A block of n zeros as bytes. -/
def rawBlk (n : Nat) : HostBlock := { cipher := List.replicate n 0, record := List.replicate 32 0, poisoned := false }

/-- In service with the given part of the state. -/
def pk (f : Pkg → Pkg) (d : Dev) : Dev := { d with pkg := f d.pkg }
def pt (f : Porter → Porter) (d : Dev) : Dev := { d with ptr := f d.ptr }
def um (f : Ump → Ump) (d : Dev) : Dev := { d with ump := f d.ump }
def pw (f : Pwr → Pwr) (d : Dev) : Dev := { d with pwr := f d.pwr }


/-- A clock edge comes less than a clock after a moment (R428), so a slot is open well inside its bounds. -/
theorem clockAt_near (d : Dev) (t : Nat) : t ≤ clockAt d t ∧ clockAt d t < t + 15840 := by
  have : Config.clockLag t % clockUnits d.pwr.mode < clockUnits d.pwr.mode := Nat.mod_lt _ (by cases d.pwr.mode <;> decide)
  have : clockUnits d.pwr.mode ≤ 15840 := by cases d.pwr.mode <;> decide
  unfold clockAt; omega

theorem inSlot_of {d : Dev} {v : Nat} (h : bitAt (getSlot d v).live 63 = true)
    (h1 : d.tck.start + offsetUnits d (bits (getSlot d v).live 0 17) + 15840 ≤ d.tck.now)
    (h2 : d.tck.now < d.tck.start + offsetUnits d (bits (getSlot d v).live 32 17)) : inSlot d v = true := by
  have := clockAt_near d (d.tck.start + offsetUnits d (bits (getSlot d v).live 0 17))
  have := clockAt_near d (d.tck.start + offsetUnits d (bits (getSlot d v).live 32 17))
  simp only [inSlot, h, Bool.and_eq_true, decide_eq_true_eq, true_and]; omega

theorem slotSince_of {d : Dev} {v t : Nat} (h : bitAt (getSlot d v).live 63 = true)
    (h1 : d.tck.start + offsetUnits d (bits (getSlot d v).live 0 17) + 15840 ≤ d.tck.now)
    (h2 : t < d.tck.start + offsetUnits d (bits (getSlot d v).live 32 17)) : slotSince d v t = true := by
  have := clockAt_near d (d.tck.start + offsetUnits d (bits (getSlot d v).live 0 17))
  have := clockAt_near d (d.tck.start + offsetUnits d (bits (getSlot d v).live 32 17))
  simp only [slotSince, h, Bool.and_eq_true, Bool.or_eq_true, decide_eq_true_eq, true_and]; omega
/-- A signed-header Sill image with two empty records (R322, R323); nothing signs it. -/
def sil : Memory :=
  [(0, 0x53), (1, 0x49), (2, 0x4C), (3, 0x4C), (4, 1), (6, 2), (8, 0x10), (9, 1), (256, 1), (264, 2)]

/-- A flash with the image in a slot. -/
def flashed (b : Bool) (d : Dev) : Dev := { d with flash := setFlashSlot b sil d.flash }

/-- A plan of one tick and one window of cluster 0 (R32). -/
def win0 : PlanWin := { kind := 1, index := 0, tick := 0, queue := 0, start := 100, fin := 101, tag := 0 }
def plan0 : Plan := { mode := 2, units := 4, cycle := 1, wins := [win0] }

/-- HBM with the given bytes in its first page. -/
def inHbm (m : Memory) (d : Dev) : Dev :=
  { d with
    hbm := m, page := [(0, { major := 1, minors := [] })]
    cas := { d.cas with line := (List.range 64).map fun i => (i, { Sealed.zero with key := some 0, major := 1 }) } }

/-- The plan's section (R32) in the sequencer's plan base. -/
def planned : Dev :=
  setBlk (seqBase 0) (fun x => { x with enable := true, apply := true })
    (inHbm [(0, 1), (4, 2), (5, 4), (6, 1), (8, 1), (10, 1), (65, 0x10), (68, 100), (72, 101)] pd)

/-- The sequencer of octant 0 runs with a live plan. -/
def run (d : Dev) : Dev :=
  setSeq 0 (fun x => { x with plan := some plan0 }) (setBlk (seqBase 0) (fun x => { x with enable := true }) d)

/-- Core 0 runs command 0 of context 0 with a stream F as given. -/
def onCore (f : Stream → Stream) (d : Dev) : Dev :=
  setStream 0 0 f (setCore 0 (fun x => { x with item := some 0, ctx := some 0, icache := [0, 0, 0, 0] }) d)

def ctx0 (s : CtxState) (d : Dev) : Dev := setCtx 0 0 (fun x => { x with state := s }) d
def cmds (l : List Cmd) (d : Dev) : Dev := { d with cmds := l }
def xfs (l : List Xfer) (d : Dev) : Dev := { d with xfers := l }

/-- Transom is enabled and the time is inside VF 0's slot. -/
def trs (d : Dev) : Dev :=
  setBlk trsBase (fun x => { x with enable := true })
    (setSlot 0 (fun _ => Rwt.of (packSlot 0 1000 true)) { d with tck := { d.tck with now := 20000 } })

/-- Queue 0 of octant 0 is bound and has one command to fetch. -/
def fetches (transom : Bool) (d : Dev) : Dev :=
  setQueue 0 0 (fun x => { x with bound := true, transom := transom, n := 4, m := 4, inFlightMax := 1, producer := 1 })
    (ctx0 .running (run d))

/-- Group 1 is loaded in slot 0 of port 0, which is up. -/
def grouped (self : Nat) (d : Dev) : Dev :=
  setPort 0 (fun x => { x with up := true, rally := true }) (setGroup 0 (fun _ => grp self) d)

/-- The group's switch is attested (R263). -/
def switched (self : Nat) (d : Dev) : Dev :=
  setGroup 0 (fun x => { x with switchOk := true, switchAddr := 1 }) (grouped self d)

/-- A descriptor of group 1 at port 0 with two members (R241), and its job key. -/
def described (d : Dev) : Dev :=
  pt (fun x => { x with jobKeys := [(1, [1])] }) (inHbm [(0, 1), (4, 1), (6, 2), (14, 1), (16, 64)] d)

def desc : List Byte := bytes 64 [(0, 1), (4, 1), (6, 2), (14, 1), (16, 64)]

/-- A charter of one party whose key domain is 0, with joint domain 1 (R272). -/
def charter : List Byte :=
  bytes 176 [(0, 1), (4, 176), (0x18, 1), (0x19, 1), (0x1A, 1), (0x1B, 1), (128, 1)]

/-- SPDM session 0 of a function, finished or not. -/
def sess (fn : Nat) (done : Bool) : Session := { fn := fn, done := done, identity := 0, keyGen := 0, exports := 0, secret := 0 }
def inSess (fn : Nat) (done : Bool) (d : Dev) : Dev := pt (fun x => { x with sess := [(0, some (sess fn done))] }) d

/-- A party of the charter whose identity is that of session 0. -/
def party0 : PartyEnt := { domain := 0, identity := 0, codeKey := 0 }
def chartered (s : CharterState) (d : Dev) : Dev := setCharter 0 (fun x => { x with state := s, parties := [party0] }) d

/-- An outstanding load into s1 (R61). -/
def load0 : LoadOp := { target := .reg 1, bytes := [0, 0, 0, 0], label := 0, partl := false, ready := 0, cluster := false }
def mma0 : MmaOp :=
  { issued := 0, acc := 0, fa := 0, fb := 0, clr := true, a := [], b := [], sa := [], sb := [], label := 0 }
def vec0 : VecOp :=
  { issued := 0, stream := 0, syllable := 0, chain := [], src := [], side := [], rowPos := 0, colPos := 0, idx := 0, rl := 0,
    step := 0, seed := 0, label := 0, occupies := 0 }

/-- A field of the device after one command. -/
def after {α : Type} (c : Instr) (d : Dev) (f : Dev → α) : Option α :=
  match exec c (st d) with
  | .next t => some (f t.dev)
  | _ => none

/-! ## Well-formed terms: one that each check refuses, and one that it takes -/

theorem test_wf_retrain : Instr.wf (.pcieLinkRetrain 8 16) = false ∧ Instr.wf (.pcieLinkRetrain 7 5) = false ∧
    Instr.wf (.pcieLinkRetrain 7 16) = true := by decide

theorem test_wf_register : Instr.wf (.registerWrite .pf (2 ^ 26 + 2 ^ 14) 8 0) = false ∧ Instr.wf (.registerWrite .pf 0 4
    0x100000000) = false ∧
    Instr.wf (.registerRead .pf 0 17) = false ∧ Instr.wf (.registerWrite .pf 0 4 0xFFFFFFFF) = true := by decide

theorem test_wf_block : Instr.wf (.commandFetch 0 0 .clean (rawBlk 127)) = false ∧ Instr.wf (.relayResponse 0 0 0 (rawBlk
    127)) = false ∧
    Instr.wf (.commandFetch 0 0 .clean (rawBlk 128)) = true := by decide

theorem test_wf_doorbell : Instr.wf (.seqQDoorbell .pf 0 0 65536) = false ∧ Instr.wf (.seqQCdoorbell .pf 0 0 65536) = false ∧
    Instr.wf (.seqQDoorbell .pf 0 0 65535) = true := by decide

theorem test_wf_hbm_write : Instr.wf (.hbmFullWrite 0 1 (bytes 64 []) .clean) = false ∧
    Instr.wf (.hbmPartialWrite 0 1 (bytes 64 []) .clean) = false ∧ Instr.wf (.hbmPartialWrite 0 60 [0, 0, 0, 0] .clean) = true
      := by decide

theorem test_wf_keys : Instr.wf (.jobKeyDeliver 0 65536 (bytes 48 [])) = false ∧ Instr.wf (.jobKey 0 0 []) = false ∧
    Instr.wf (.opkeyFuse 0 (bytes 95 [])) = false ∧ Instr.wf (.jobKey 0 0 (bytes 48 [])) = true := by decide

theorem test_wf_stage : Instr.wf (.stageWrite false 0 []) = false ∧ Instr.wf (.stageWrite false 0 (bytes 240 [])) = true := by
    decide

theorem test_wf_signed : Instr.wf (.imageSignedRegister 0 0 ⟨0, 0, 1, 0, 2⟩ []) = false ∧
    Instr.wf (.imageSignedRegister 0 0 ⟨0, 0, 1, 0, 2⟩ [bytes 192 []]) = true := by decide

theorem test_wf_mgmt : Instr.wf (.queueBind .porter 0 ⟨256, 0, 0, 4, 4, 1, 0, 0⟩) = false ∧
    Instr.wf (.objConfig .porter 0 ⟨65536, 0, false, 0, 0, 1, 0⟩) = false ∧
    Instr.wf (.imageRegister .porter 0 ⟨256, 0, 1, 0, 2⟩) = false ∧ Instr.wf (.seqMgmt 0 0 (.ctxStart 256)) = false ∧
    Instr.wf (.seqMgmt 0 0 (.ctxStart 255)) = true := by decide

theorem test_wf_transom : Instr.wf (.trsConfig 0 (.slot 0 131072 0 true)) = false ∧
    Instr.wf (.trsConfig 0 (.window 0 0 0 0 0 false false 16 true 0 0 true)) = false ∧
    Instr.wf (.trsConfig 0 (.slot 0 131071 0 true)) = true := by decide

theorem test_wf_partition : Instr.wf (.partitionCreate .porter 0 256 0 1 false) = false ∧
    Instr.wf (.partitionCreate .porter 0 255 0 127 false) = true := by decide

theorem test_wf_packet : Instr.wf (.data (frm (pkt 2 0 1))) = false ∧ Instr.wf (.ack (frm (pkt 1 0 1))) = false ∧
    Instr.wf (.grant (frm { pkt 4 0 1 with sub := 3 })) = false ∧ Instr.wf (.badframe { frm (pkt 1 0 1) with head := [] }) =
      false ∧
    Instr.wf (.grant (frm { pkt 4 0 1 with sub := 2 })) = true := by decide

theorem test_wf_others : Instr.wf (.thermalSample [0]) = false ∧ Instr.wf (.dumpTrigger .pf 256) = false ∧
    Instr.wf (.keyExchange .pf []) = false ∧ Instr.wf (.faultSelect false 256) = false ∧ Instr.wf (.configSpaceWrite .pf
      .numVfs 65536) = false ∧
    Instr.wf (.tickBoundary ⟨0, [(13, 0, 0, 0)]⟩) = false ∧ Instr.wf (.configSpaceWrite .pf .busMaster 1) = true := by decide

/-! ## Numbers and encodings -/

/-- 1.0 + 1.0 = 2.0; 1.0 + 2^-24 ties to even and stays 1.0; 1.5 × 1.5 = 2.25 (IEEE 754 binary32, which R57 names). -/
theorem test_binary32 : add32 0x3F800000 0x3F800000 = 0x40000000 ∧ add32 0x3F800000 0x33800000 = 0x3F800000 ∧
    mul32 0x3FC00000 0x3FC00000 = 0x40100000 := by decide

/-- The published answer of Philox-4×32 with 10 rounds for a zero key and counter (R143). -/
theorem test_philox : philox 0 (0, 0, 0, 0) = (0x6627E8D5, 0xE169C58D, 0xBC57AC4C, 0x9B00DBD8) := by decide

/-- K per tile of R86: 16, 32 and 64. -/
theorem test_matrix_k : (mmK 0, mmK 2, mmK 6, mmK 8) = (16, 32, 32, 64) := by decide

/-- In a 4-bit tile an even k takes bits [3:0] and an odd k bits [7:4] (R87). -/
theorem test_tile_nibbles : tileElem [0x21] 8 0 0 = 1 ∧ tileElem [0x21] 8 0 1 = 2 := by decide

/-- A header alone is a bundle of 2 bytes; with all six slots it is 36 bytes (R65). -/
theorem test_bundle_size : bundleSize 0 = 2 ∧ bundleSize 0xFC00 = 36 := by decide

/-- Bits [32:21] of a virtual address index the region table (R155). -/
theorem test_region_index : (resolveVa (setEntry 0 0 1 ⟨1, 0⟩ pd) 0 0 0x200000).map (·.index) = some 1 := by decide

/-- PREGION 65,536 + 1 is the second region of stack 1 (R156). -/
theorem test_region_base : regionBase 65537 = 2 ^ 37 + 2 ^ 21 := by decide

/-- The default period is 64 µs, and hold step 8 doubles a tick (R27, R50). -/
theorem test_tick_units : tickUnits pd = 64000 * 10296 ∧
    tickUnits { pd with tck := { pd.tck with hold := 8 } } = 128000 * 10296 := by decide

/-- The published check value of CRC-32, of the bytes of "123456789". -/
theorem test_crc32 : crc32 [0x31, 0x32, 0x33, 0x34, 0x35, 0x36, 0x37, 0x38, 0x39] = 0xCBF43926 := by decide

/-- A header's fields lie where R235's table has them, the most significant byte first. -/
theorem test_header : (packetHead { pkt 3 2 1 with psn := 5, unreliable := true, sub := 7, arg := 0x01020304 }).take 16 =
      [0x13, 0, 0, 0, 0, 1, 0, 2, 0, 1, 0, 0, 0x80, 0, 0, 5] ∧
    slice (packetHead { pkt 3 2 1 with sub := 7, arg := 0x01020304 }) 0x28 4 = [1, 2, 3, 4] := by decide

/-- Minor counter 1 of a page lies in bits [77:71] of its counter line, above the major counter's 64 bits (R181). -/
theorem test_counter_line : counterLine { major := 3, minors := [(1, 1)] } = 3 + 2 ^ 71 := by decide +kernel

/-- Block 2 of a DATA window and its record (R292). -/
theorem test_block_place : blockAddr { Win.zero with dataBase := 1 } 2 = 0x3000 ∧ recordAddr { Win.zero with recordBase := 1 }
    2 = 0xC0 := by
  decide

/-- No row of the table has bits. -/
theorem test_no_table_word : decodeTableWord 16 0 = none := by decide

/-! ## One command each -/

/-- An empty queue idles for a clock and stays empty. -/
theorem test_idle : (match step (st pd) with | .next t => t.pending.length | _ => 1) = 0 := by decide

/-- A doorbell in the ring is taken (R207). -/
theorem test_doorbell : after (.seqQDoorbell (.vf 0) 0 0 16) (fetches false pd) (fun d => (getQueue d 0 0).producer) = some 16
    := by decide

/-- One that implies more commands than slots stops the queue with FIELD_RANGE and faults its context (R207). -/
theorem test_doorbell_too_far : after (.seqQDoorbell (.vf 0) 0 0 17) (fetches false pd)
    (fun d => ((getQueue d 0 0).stopped, (getCtx d 0 0).state)) = some (some .fieldRange, .faulted) := by decide

/-- A write to a page in the zero state makes its major counter 1 (R182). -/
theorem test_full_write : after (.hbmFullWrite 0 0 (bytes 64 [(3, 9)]) .clean) pd
    (fun d => ((getPage d 0).major, readByte d.hbm 3)) = some (1, 9) := by decide +kernel

/-- A partial write leaves the bytes beside it (R161). -/
theorem test_partial_write : after (.hbmPartialWrite 0 2 [7] .clean) (inHbm [(1, 5)] pd)
    (fun d => (readByte d.hbm 1, readByte d.hbm 2)) = some (5, 7) := by decide +kernel

/-- No memory exists at 2^40 (R154). -/
theorem test_absent : exec (.hbmRead 0 (2 ^ 40) .clean) (st pd) = .fault (.absentAddress (2 ^ 40)) := rfl

/-- A signal adds modulo 2^32 (R220). -/
theorem test_signal : after (.huddleSignalArrive 0 .clean)
    (setObj 0 0 (fun x => { x with configured := true, value := 0xFFFFFFFF }) { pd with signals := [⟨0, 0, 2, none⟩] })
    (fun d => (getObj d 0 0).value) = some 1 := by decide

/-- A pending set flips and its GEN increments (R149). -/
theorem test_flip : after (.versionFlip 0) (setSeq 0 (fun x => { x with pendFlip := 2, active := 1 }) pd)
    (fun d => ((getSeq d 0).active, (getSeq d 0).pendFlip)) = some (3, 0) := by decide

/-- IDCODE of stepping 1 (R415). -/
theorem test_idcode : after (.jtagInstruction .idcode) pd (fun d => d.out) = some [.jtag 0x120029A3] := by decide

/-- At 115 °C the device trips (R49); a quarter of a degree below it does not. -/
theorem test_trip : after (.thermalSample [460]) pd (fun d => d.pkg.phase) = some .tripped ∧
    after (.thermalSample [459]) pd (fun d => d.pkg.phase) = some .running := by decide

/-- The PF's vector 3 is not masked. -/
def vec3 : Dev := pk (fun x => { x with msixTab := [(3, ⟨0, 0, false⟩)] }) pd

/-- A second event of a vector in a tick is held pending (R389). -/
theorem test_vector_once : ((interrupt 0 3 (interrupt 0 3 vec3)).pkg.msixPend, (interrupt 0 3 vec3).pkg.msixPend) = ([(0, 3)],
    []) := by decide

/-- GLB_MODE is not accepted in Porter-managed mode: the write is logged with NOT_OWNER (R421). -/
theorem test_mode_denied : after (.glbModeReq .pf 0) pd (fun d => (look FnLog.zero 0 d.pkg.fnLog).reason) = some .notOwner :=
    by decide

/-- A queue's vector lies in 3 to 223 (PCI_QVEC, 15). -/
theorem test_qvec_range : after (.pciQvecWrite .pf 0 0 2 true) pd (fun d => d.pkg.qvec) = some [] ∧
    after (.pciQvecWrite .pf 0 0 3 true) pd (fun d => d.pkg.qvec) = some [(0, (3, true))] := by decide

/-- A PAUSE frame is discarded (R231): nothing changes. -/
theorem test_pause : after (.data { frm (pkt 1 0 1) with pause := true }) pd (fun d => d.port) = some [] := by decide

/-- A doorbell of a VF that does not own the octant leaves the queue alone (R305). -/
theorem test_not_owner : after (.seqQDoorbell (.vf 1) 0 0 1) pd (fun d => d.queue) = some [] := by decide

/-- An update with nothing in the other slot fails verification with FIELD_RANGE (R323). -/
theorem test_empty_slot : after (.updateVerify 0) pd (fun d => d.ptr.mboxReason) = some .fieldRange := by decide

/-- A charter of one party is PENDING until its party approves it (R271). -/
theorem test_charter : (charterCheck pd 0 charter, (parseCharter charter).n) = (none, 1) := by decide

/-- A power-on boot with nothing in either slot goes to recovery with configuration space released (R327). -/
theorem test_recovery : after (.powerOnBoot .pass) Dev.reset (fun d => (d.pkg.phase, d.pkg.config)) = some (.recovery, true)
    := by decide

/-! ## Witnesses of the statements' hypotheses, one term for each clause -/

theorem witness_StepRunsTheFrontCommand :
    (∃ (c : Instr) (rest : List Instr) (s : State), s.pending = c :: rest) ∧
    (∃ (s : State), s.pending = []) :=
  ⟨⟨.pwrgdFall, [], ⟨pd, [.pwrgdFall]⟩, rfl⟩,
   ⟨st pd, rfl⟩⟩

theorem witness_PowerOnBootRuns :
    (∃ (s : State) (slot trial back : Bool) (i : SilImage) (ok : Bool), s.dev.pkg.phase = .unpowered ∧ s.dev.pkg.sysclk = true
      ∧ fuseCheck s.dev.fuse = .agree ∧ lcsCount s.dev.fuse < 4 ∧ chooseSlot s.dev.flash = (slot, trial, back) ∧ silCheck
      s.dev.fuse (slotOf s.dev.flash slot) = .ok (i, ok)) ∧
    (∃ (s : State) (slot trial back : Bool) (r1 r2 : Reason), s.dev.pkg.phase = .unpowered ∧ s.dev.pkg.sysclk = true ∧
      fuseCheck s.dev.fuse = .agree ∧ lcsCount s.dev.fuse < 4 ∧ chooseSlot s.dev.flash = (slot, trial, back) ∧ silCheck
      s.dev.fuse (slotOf s.dev.flash slot) = .error r1 ∧ silCheck s.dev.fuse (slotOf s.dev.flash (!slot)) = .error r2) ∧
    (∃ (s : State), s.dev.pkg.phase = .unpowered ∧ s.dev.pkg.sysclk = true) :=
  ⟨⟨st (flashed false Dev.reset), false, false, false, _, _, rfl, rfl, rfl, by decide +kernel, rfl, rfl⟩,
   ⟨State.reset, false, false, false, _, _, rfl, rfl, rfl, by decide, rfl, rfl, rfl⟩,
   ⟨State.reset, by decide⟩⟩

theorem witness_ReadinessIsMarked :
    (∃ (k : Fin 8) (s : State), live s.dev = true ∧ has8 s.dev.pkg.stackReady k = false ∧ has8 s.dev.pkg.stackFailed k = false
      ∧ casCheck s.dev k = none) ∧
    (∃ (o : Fin 8) (s : State), live s.dev = true ∧ has8 s.dev.pkg.octReady o = false ∧ has8 s.dev.pkg.octFailed o = false ∧
      has8 s.dev.pkg.stackReady o = true ∧ (getSht s.dev o).state = .clean) ∧
    (∃ (p : Fin 8) (s : State), live s.dev = true ∧ has8 s.dev.pkg.portReady p = false ∧ has8 s.dev.pkg.portFailed p = false) ∧
    (∃ (k : Fin 8) (s : State), live s.dev = true ∧ has8 s.dev.pkg.stackReady k = false ∧ has8 s.dev.pkg.stackFailed k = false
      ∧ 2 ≤ look 0 k s.dev.pkg.trainFails) ∧
    (∃ (k : Fin 8) (s : State), live s.dev = true ∧ has8 s.dev.pkg.stackReady k = false ∧ has8 s.dev.pkg.stackFailed k = false
      ∧ look 0 k s.dev.pkg.trainFails < 2) ∧
    (∃ (p : Fin 8) (s : State), live s.dev = true ∧ has8 s.dev.pkg.portReady p = false ∧ has8 s.dev.pkg.portFailed p = false) :=
  ⟨⟨7, st (pk (fun x => { x with stackReady := 0x7F }) pd), by decide⟩,
   ⟨7, st (pk (fun x => { x with octReady := 0x7F }) pd), by decide⟩,
   ⟨7, st (pk (fun x => { x with portReady := 0x7F }) pd), by decide⟩,
   ⟨7, st (pk (fun x => { x with stackReady := 0x7F, trainFails := [(7, 2)] }) pd), by decide⟩,
   ⟨7, st (pk (fun x => { x with stackReady := 0x7F, trainFails := [(7, 1)] }) pd), by decide⟩,
   ⟨7, st (pk (fun x => { x with portReady := 0x7F }) pd), by decide⟩⟩

theorem witness_PorterChecksRun :
    (∃ (s : State), live s.dev = true ∧ s.dev.ptr.trial = true ∧ allReady s.dev = true ∧ s.dev.ptr.stg.switching = none) ∧
    (∃ (s : State) (p : PtrCopy), live s.dev = true ∧ s.dev.ptr.stg.switching = some .confirm ∧ ptrNow s.dev.flash = some p) ∧
    (∃ (s : State), live s.dev = true) ∧
    (∃ (s : State), live s.dev = true) ∧
    (∃ (s : State), live s.dev = true ∧ fuseCheck s.dev.fuse = .agree) ∧
    (∃ (s : State) (n : Nat), live s.dev = true ∧ fuseCheck s.dev.fuse = .interrupted n) :=
  ⟨⟨st (pt (fun x => { x with trial := true }) pd), by decide⟩,
   ⟨st (pt (fun x => { x with stg := { x.stg with switching := some .confirm } })
     { pd with flash := writePtr false false false pd.flash }), ⟨1, false, false, false⟩, rfl, rfl, by decide +kernel⟩,
   ⟨st pd, by decide⟩,
   ⟨st pd, by decide⟩,
   ⟨st pd, by decide⟩,
   ⟨st { pd with fuse := { pd.fuse with lcs0 := 1 } }, 1, by decide⟩⟩

theorem witness_PowerAndLinkSignalsAct :
    (∃ (s : State), s.dev.pkg.pwrgd = true) ∧
    (∃ (s : State), s.dev.pkg.perst = false ∧ live s.dev = true ∧ s.dev.ump.l3Wait = none ∧ s.dev.ump.auto = false) ∧
    (∃ (s : State), s.dev.pkg.config = true ∧ s.dev.pkg.dlUp = false) ∧
    (∃ (s : State), s.dev.pkg.config = false) ∧
    (∃ (speed width : Nat) (s : State), s.dev.pkg.perst = false ∧ s.dev.pkg.config = true ∧ 4 ≤ speed ∧ speed ≤ 7 ∧ width ∈
      [4, 8, 16]) ∧
    (∃ (s : State), s.dev.pkg.dlUp = true ∧ ((live s.dev = false ∨ (partsLive s.dev = [] ∧ s.dev.cmds = [] ∧ s.dev.steps =
      [])))) ∧
    (∃ (s : State), s.dev.pkg.dlUp = true ∧ live s.dev = true) ∧
    (∃ (ns : Nat) (s : State), s.dev.pkg.dlUp = true ∧ 10000 < ns) ∧
    (∃ (ns : Nat), ns ≤ 10000) :=
  ⟨⟨st pd, by decide⟩,
   ⟨st pd, by decide⟩,
   ⟨st (pk (fun x => { x with dlUp := false }) pd), by decide⟩,
   ⟨State.reset, by decide⟩,
   ⟨4, 4, st pd, by decide⟩,
   ⟨st { pd with part := [] }, by decide⟩,
   ⟨st pd, by decide⟩,
   ⟨10001, st pd, by decide⟩,
   ⟨10000, by decide⟩⟩

theorem witness_FunctionResetsAct :
    (∃ (v : Fin 8) (s : State), fnPresent s.dev (.vf v) = true ∧ (getPart s.dev v).live = false) ∧
    (∃ (v : Fin 8) (s : State), fnPresent s.dev (.vf v) = true ∧ live s.dev = true ∧ (getPart s.dev v).live = true) ∧
    (∃ (s : State), fnPresent s.dev .pf = true) ∧
    (∃ (f : Fn) (s : State), fnPresent s.dev f = true) ∧
    (∃ (s : State), fnPresent s.dev .pf = true) :=
  ⟨⟨7, st pd, by decide⟩,
   ⟨0, st pd, by decide⟩,
   ⟨st pd, by decide⟩,
   ⟨.vf 7, st pd, by decide⟩,
   ⟨st pd, by decide⟩⟩

theorem witness_VectorsAndClocksAct :
    (∃ (f : Fn) (n : Nat) (s : State), s.dev.pkg.dlUp = true ∧ (fnIx f, n) ∈ s.dev.pkg.msixPend ∧ (fnIx f, n) ∉
      s.dev.pkg.msixSent ∧ (msixEnt s.dev (fnIx f) n).masked = false) ∧
    (∃ (f : Fn) (o : Fin 8) (v : Nat) (s : State), barAnswers s.dev f = true ∧ mayUseOctant s.dev f o = true ∧ 3 ≤ v ∧ v ≤
      223) ∧
    (∃ (ns : Nat) (s : State), 1000 ≤ ns ∧ s.dev.pkg.phase ≠ .unpowered ∧ s.dev.pwr.refLost = false) ∧
    (∃ (ns : Nat) (s : State), 1000000 ≤ ns ∧ s.dev.pwr.refLost = true) :=
  ⟨⟨.pf, 0, st (pk (fun x => { x with msixPend := [(0, 0)], msixTab := [(0, ⟨0, 0, false⟩)] }) pd), by decide⟩,
   ⟨.vf 0, 0, 3, st pd, by decide⟩,
   ⟨1000, st pd, by decide⟩,
   ⟨1000000, st (pw (fun x => { x with refLost := true }) pd), by decide⟩⟩

theorem witness_PowerModeChangeSteps :
    (∃ (target : Nat) (m : PowerMode) (s : State), mailboxOpen s.dev = true ∧ modeCheck s.dev target = .ok (some m)) ∧
    (∃ (target : Nat) (m : PowerMode) (s : State), barAnswers s.dev .pf = true ∧ s.dev.ptr.hostManaged = true ∧
      s.dev.pwr.switching = false ∧ modeCheck s.dev target = .ok (some m)) ∧
    (∃ (m : PowerMode) (s : State), live s.dev = true ∧ s.dev.pwr.accepted = some m) ∧
    (∃ (s : State), live s.dev = true ∧ s.dev.pwr.ramping = true) ∧
    (∃ (s : State), live s.dev = true ∧ s.dev.pwr.ramping = true) :=
  ⟨⟨0, _, st pd, rfl, rfl⟩,
   ⟨0, _, st hd, rfl, rfl, rfl, rfl⟩,
   ⟨.draft, st (pw (fun x => { x with accepted := some .draft }) pd), by decide⟩,
   ⟨st (pw (fun x => { x with ramping := true }) pd), by decide⟩,
   ⟨st (pw (fun x => { x with ramping := true }) pd), by decide⟩⟩

theorem witness_DriftAndCalibrationAct :
    (∃ (est meas : Nat) (s : State), live s.dev = true ∧ 100 * ((est : Int) - meas).natAbs ≤ 3 * envelope s.dev.pwr.live) ∧
    (∃ (est meas : Nat) (s : State), live s.dev = true ∧ 3 * envelope s.dev.pwr.live < 100 * ((est : Int) - meas).natAbs ∧
      s.dev.pwr.driftCount < 2) ∧
    (∃ (est meas : Nat) (s : State), live s.dev = true ∧ 3 * envelope s.dev.pwr.live < 100 * ((est : Int) - meas).natAbs ∧ 2 ≤
      s.dev.pwr.driftCount ∧ s.dev.pwr.drift = false) ∧
    (∃ (s : State), live s.dev = true ∧ noneRunning s.dev = true) ∧
    (∃ (s : State), live s.dev = true ∧ s.dev.pwr.calibrating = true ∧ s.dev.pwr.drift = false ∧ (∀ o c, (getSeq s.dev o).mgmt
      ≠ .start c true)) :=
  ⟨⟨21, 0, st pd, by decide⟩,
   ⟨22, 0, st (pw (fun x => { x with driftCount := 1 }) pd), by decide⟩,
   ⟨22, 0, st (pw (fun x => { x with driftCount := 2 }) pd), by decide⟩,
   ⟨st pd, by decide⟩,
   ⟨st (pw (fun x => { x with calibrating := true }) pd), rfl, rfl, rfl, fun _ _ h => MgmtRun.noConfusion h⟩⟩

theorem witness_TemperatureTripsTheDevice :
    (∃ (readings : List Int) (i : Nat) (t : Int) (s : State), s.dev.pkg.phase ≠ .unpowered ∧ hottestOf 0 readings = some (i,
      t) ∧ t < 460) ∧
    (∃ (readings : List Int) (i : Nat) (t : Int) (s : State), s.dev.pkg.phase ≠ .unpowered ∧ hottestOf 0 readings = some (i,
      t) ∧ 460 ≤ t ∧ s.dev.pkg.thermtrip = false) ∧
    (∃ (s : State), s.dev.pkg.phase ≠ .unpowered ∧ s.dev.pkg.thermtrip = false) :=
  ⟨⟨[459], _, _, st pd, by decide, rfl, by decide⟩,
   ⟨[460], _, _, st pd, by decide, rfl, by decide, rfl⟩,
   ⟨st pd, by decide⟩⟩

theorem witness_BlockEnableAndDisable :
    (∃ (b : Block) (s : State), barAnswers s.dev .pf = true ∧ enableRo b = false ∧ b ≠ .dbg ∧ enableDenied s.dev .pf b = none
      ∧ (getBlk s.dev (blkBase b)).enable = false ∧ blockCheck s.dev b false = none) ∧
    (∃ (b : Block) (r : Reason) (i : Nat) (s : State), barAnswers s.dev .pf = true ∧ enableRo b = false ∧ b ≠ .dbg ∧
      enableDenied s.dev .pf b = none ∧ (getBlk s.dev (blkBase b)).enable = false ∧ blockCheck s.dev b false = some (r, i)) ∧
    (∃ (b : Block) (s : State), barAnswers s.dev .pf = true ∧ enableRo b = false ∧ b ≠ .dbg ∧ enableDenied s.dev .pf b = none
      ∧ (getBlk s.dev (blkBase b)).enable = true ∧ blockItems s.dev b = 0) ∧
    (∃ (b : Block) (s : State), barAnswers s.dev .pf = true ∧ enableRo b = false ∧ b ≠ .dbg ∧ enableDenied s.dev .pf b = none
      ∧ (getBlk s.dev (blkBase b)).enable = true ∧ blockItems s.dev b ≠ 0) ∧
    (∃ (b : Block) (s : State), live s.dev = true ∧ (getBlk s.dev (blkBase b)).stopping = true ∧ blockItems s.dev b = 0) :=
  ⟨⟨.ump, st pd, by decide⟩,
   ⟨.rly, _, _, st { pd with rly := { pd.rly with udpPort := 0 } }, rfl, rfl, by decide, rfl, rfl, rfl⟩,
   ⟨.ump, st (setBlk 0x60000 (fun x => { x with enable := true }) pd), by decide⟩,
   ⟨.seq 0, st { setBlk (seqBase 0) (fun x => { x with enable := true }) hd with cmds := [cmd .active []] }, by decide⟩,
   ⟨.ump, st (setBlk 0x60000 (fun x => { x with stopping := true }) pd), by decide⟩⟩

theorem witness_ApplyTakesTheShadow :
    (∃ (b : Block) (s : State), barAnswers s.dev .pf = true ∧ b ≠ .dbg ∧ (getBlk s.dev (blkBase b)).apply = false ∧ (getBlk
      s.dev (blkBase b)).enable = true) ∧
    (∃ (b : Block) (s : State), barAnswers s.dev .pf = true ∧ b ≠ .dbg ∧ (getBlk s.dev (blkBase b)).apply = false ∧ (getBlk
      s.dev (blkBase b)).enable = false) ∧
    (∃ (b : Block) (s : State), barAnswers s.dev .pf = true ∧ b ≠ .dbg ∧ (getBlk s.dev (blkBase b)).apply = true) ∧
    (∃ (b : Block) (s : State), live s.dev = true ∧ (∀ o, b ≠ .seq o) ∧ (getBlk s.dev (blkBase b)).apply = true ∧
      earlierPending s.dev (blkBase b) = false ∧ blockCheck s.dev b true = none) ∧
    (∃ (b : Block) (r : Reason) (i : Nat) (s : State), live s.dev = true ∧ (∀ o, b ≠ .seq o) ∧ (getBlk s.dev (blkBase
      b)).apply = true ∧ earlierPending s.dev (blkBase b) = false ∧ blockCheck s.dev b true = some (r, i)) :=
  ⟨⟨.ump, st (setBlk 0x60000 (fun x => { x with enable := true }) pd), by decide⟩,
   ⟨.ump, st pd, by decide⟩,
   ⟨.ump, st (setBlk 0x60000 (fun x => { x with apply := true }) pd), by decide⟩,
   ⟨.ump, st (setBlk 0x60000 (fun x => { x with apply := true }) pd), by decide⟩,
   ⟨.rle 0, _, _, st (setRle 0 (fun x => { x with deadline := ⟨8, 0⟩ }) (setBlk (rleBase 0) (fun x =>
     { x with apply := true }) pd)), rfl, by decide, rfl, by decide, rfl⟩⟩

theorem witness_BoundariesTakeEffect :
    (∃ (s : State), live s.dev = true ∧ (getBlk s.dev 0x10000).enable = true) ∧
    (∃ (v : Fin 8) (ev : LineEvent) (rs : List (Nat × Except (Reason × Nat) Plan)) (d : Dev) (s : State), live s.dev = true ∧
      (getPart s.dev v).live = true ∧ members8 (getPart s.dev v).octants ≠ [] ∧ (∀ o ∈ members8 (getPart s.dev v).octants,
      (getBlk s.dev (seqBase o)).apply = true) ∧ sectionChecks v ev (members8 (getPart s.dev v).octants) s.dev = (rs, d) ∧
      live d = true ∧ (∀ e ∈ rs, ∃ p, e.2 = .ok p)) ∧
    (∃ (v : Fin 8) (s : State), live s.dev = true ∧ (getPart s.dev v).live = true ∧ has8 s.dev.ump.l2 v = false ∧ (∃ o ∈
      members8 (getPart s.dev v).octants, (getSeq s.dev o).pendFlip ≠ 0)) :=
  ⟨⟨st (setBlk 0x10000 (fun x => { x with enable := true }) pd), by decide⟩,
   ⟨0, .clean, [(0, .ok plan0)], _, st planned, rfl, rfl, by decide, by decide, rfl, rfl, fun e h => ⟨plan0, by rw
     [List.mem_singleton.mp h]⟩⟩,
   ⟨0, st (setSeq 0 (fun x => { x with pendFlip := 1 }) pd), by decide⟩⟩

theorem witness_RegisterReadAnswers :
    (∃ (f : Fn) (off : Nat) (w : Wd) (s : State), barAnswers s.dev f = true ∧ off < barSpan f ∧ off / 0x10000 ≠ 11 ∧ accessOk
      off 8 = true ∧ sight s.dev f (off / 8 * 8) = .shown w ∧ vacantHalf w off = false ∧ stateClosed s.dev w = false) ∧
    (∃ (f : Fn) (off : Nat) (w : Wd) (s : State), barAnswers s.dev f = true ∧ off < barSpan f ∧ off / 0x10000 ≠ 11 ∧ accessOk
      off 4 = true ∧ off % 8 = 0 ∧ sight s.dev f off = .shown w ∧ shapeOf w = .whole ∧ stateClosed s.dev w = false) ∧
    (∃ (f : Fn) (off : Nat) (w : Wd) (h : Word) (s : State), barAnswers s.dev f = true ∧ off < barSpan f ∧ off / 0x10000 ≠ 11
      ∧ accessOk off 4 = true ∧ off % 8 = 4 ∧ sight s.dev f (off / 8 * 8) = .shown w ∧ shapeOf w = .whole ∧ stateClosed s.dev
      w = false ∧ look none (latchKey f off) s.dev.pkg.latch = some h) ∧
    (∃ (f : Fn) (off : Nat) (s : State), barAnswers s.dev f = true ∧ off < barSpan f ∧ off / 0x10000 ≠ 11 ∧ accessOk off 8 =
      true ∧ sight s.dev f (off / 8 * 8) = .vacant) ∧
    (∃ (off : Nat) (s : State), barAnswers s.dev .pf = true ∧ off / 0x10000 = 11 ∧ s.dev.ptr.debugOpen = false) ∧
    (∃ (f : Fn) (s : State), barAnswers s.dev f = false) ∧
    (∃ (f : Fn) (v i : Nat) (s : State), barAnswers s.dev f = true ∧ v < vectorsOf f ∧ i < 4) :=
  ⟨⟨.pf, 0, _, st pd, rfl, by decide, by decide, rfl, rfl, rfl, rfl⟩,
   ⟨.pf, 0, _, st pd, rfl, by decide, by decide, rfl, rfl, rfl, rfl, rfl⟩,
   ⟨.pf, 4, _, 5, st (pk (fun x => { x with latch := [(4, some 5)] }) pd), rfl, by decide, by decide, rfl, rfl, rfl, rfl, rfl,
     rfl⟩,
   ⟨.pf, 0xFFF8, st pd, by decide⟩,
   ⟨0xB0000, st pd, by decide⟩,
   ⟨.pf, State.reset, by decide⟩,
   ⟨.pf, 223, 3, st pd, by decide⟩⟩

theorem witness_RegisterWriteTakes :
    (∃ (f : Fn) (off n : Nat) (v : DWord) (w : Wd) (s : State), live s.dev = true ∧ barAnswers s.dev f = true ∧ off < barSpan
      f ∧ off / 0x10000 ≠ 11 ∧ accessOk off n = true ∧ sight s.dev f (off / 8 * 8) = .shown w ∧ vacantHalf w off = false ∧
      stateClosed s.dev w = false ∧ w ≠ .resetReq ∧ taken s.dev { f := f, off := off, n := n, value := v.toNat } w ≠ [] ∧
      refusedField s.dev { f := f, off := off, n := n, value := v.toNat } w = none) ∧
    (∃ (f : Fn) (off n : Nat) (v : DWord) (w : Wd) (pos : Nat) (r : Reason) (s : State), live s.dev = true ∧ barAnswers s.dev
      f = true ∧ off < barSpan f ∧ off / 0x10000 ≠ 11 ∧ accessOk off n = true ∧ sight s.dev f (off / 8 * 8) = .shown w ∧
      vacantHalf w off = false ∧ stateClosed s.dev w = false ∧ w ≠ .resetReq ∧ taken s.dev
      { f := f, off := off, n := n, value := v.toNat } w = [] ∧ refusedField s.dev
      { f := f, off := off, n := n, value := v.toNat } w = some (pos, r)) ∧
    (∃ (f : Fn) (s : State), barAnswers s.dev f = false) ∧
    (∃ (f : Fn) (v i : Nat) (s : State), live s.dev = true ∧ barAnswers s.dev f = true ∧ v < vectorsOf f ∧ i < 4 ∧ (fnIx f, v)
      ∉ s.dev.pkg.msixPend) :=
  ⟨⟨.pf, 0x60080, 4, 1, _, st pd, rfl, rfl, by decide, by decide, rfl, rfl, rfl, rfl, by decide, by decide, rfl⟩,
   ⟨.pf, 0x70040, 8, 0, .shtPart 0, 0, .notOwner, st pd, by decide +kernel⟩,
   ⟨.vf 0, State.reset, by decide⟩,
   ⟨.vf 0, 223, 3, st pd, by decide⟩⟩

theorem witness_CoreIssuesAndCompletes :
    (∃ (o : Fin 8) (c : Fin 9) (k : Fin 64) (clk item ctx st : Nat) (s : State), live s.dev = true ∧ (getCore s.dev (coreNo o
      c k)).item = some item ∧ (getCore s.dev (coreNo o c k)).ctx = some ctx ∧ pickStream s.dev (coreNo o c k) clk = some st ∧
      issueClock s.dev (coreNo o c k) clk = true) ∧
    (∃ (n st : Nat) (b : Bundle) (d : Dev), fetchBundle (getCore d n).icache (getStream d n st).pc = some b ∧ bits b.header 0
      10 = 0 ∧ b.slots = [] ∧ (getStream d n st).pc + b.size < (getCore d n).icache.length) ∧
    (∃ (o : Fin 8) (c : Fin 9) (k : Fin 64) (st : Strm) (index clk r : Nat) (l : LoadOp) (s : State), live s.dev = true ∧
      (getStream s.dev (coreNo o c k) (strmIx st)).loads[index]? = some l ∧ l.ready ≤ clk ∧ l.target = .reg r) ∧
    (∃ (o : Fin 8) (c : Fin 9) (k : Fin 64) (m : MmaOp) (s : State), live s.dev = true ∧ (getCore s.dev (coreNo o c k)).mma =
      some m) ∧
    (∃ (o : Fin 8) (c : Fin 9) (k : Fin 64) (v : VecOp) (rest : List VecOp) (s : State), live s.dev = true ∧ (getCore s.dev
      (coreNo o c k)).vec = v :: rest) :=
  ⟨⟨0, 0, 0, 0, 0, 0, 0, st (onCore (fun x => { x with live := true }) pd), by decide⟩,
   ⟨0, 0, _, onCore (fun x => { x with live := true }) pd, rfl, rfl, rfl, by decide⟩,
   ⟨0, 0, 0, .F, 0, 0, 1, load0, st (onCore (fun x => { x with loads := [load0] }) pd), rfl, rfl, by decide, rfl⟩,
   ⟨0, 0, 0, mma0, st (setCore 0 (fun x => { x with mma := some mma0 }) pd), rfl, rfl⟩,
   ⟨0, 0, 0, vec0, [], st (setCore 0 (fun x => { x with vec := [vec0] }) pd), rfl, rfl⟩⟩

theorem witness_StreamsMeetAndEnd :
    (∃ (o : Fin 8) (c : Fin 9) (k : Fin 64) (st : Strm) (scopes : Nat) (s : State), live s.dev = true ∧ (getStream s.dev
      (coreNo o c k) (strmIx st)).wait = .fence scopes ∧ fenceHolds (getStream s.dev (coreNo o c k) (strmIx st)) scopes =
      true) ∧
    (∃ (o : Fin 8) (c : Fin 9) (k : Fin 64) (st : Strm) (id : Nat) (s : State) (d : Dev), live s.dev = true ∧ (getStream s.dev
      (coreNo o c k) (strmIx st)).live = true ∧ (getStream s.dev (coreNo o c k) (strmIx st)).wait = .ending ∧ (getStream s.dev
      (coreNo o c k) (strmIx st)).loads = [] ∧ (getCore s.dev (coreNo o c k)).item = some id ∧ d = setStream (coreNo o c k)
      (strmIx st) (fun y => { y with live := false, wait := .none }) s.dev ∧ (∀ e ∈ itemStreams d id, (getStream d e.1
      e.2).live = false)) ∧
    (∃ (o : Fin 8) (c : Fin 9) (k : Fin 64) (st : Strm) (id : Nat) (s : State) (d : Dev), live s.dev = true ∧ (getStream s.dev
      (coreNo o c k) (strmIx st)).live = true ∧ (getStream s.dev (coreNo o c k) (strmIx st)).wait = .ending ∧ (getStream s.dev
      (coreNo o c k) (strmIx st)).loads = [] ∧ (getCore s.dev (coreNo o c k)).item = some id ∧ d = setStream (coreNo o c k)
      (strmIx st) (fun y => { y with live := false, wait := .none }) s.dev ∧ (∃ e ∈ itemStreams d id, (getStream d e.1
      e.2).live = true)) ∧
    (∃ (id : Nat) (c : Cmd) (d : Dev), cmdById d id = some c ∧ c.errEnd = none ∧ holdNeeded d c = false) ∧
    (∃ (o : Fin 8) (c : Fin 9) (k : Fin 64) (s : State), live s.dev = true ∧ (∃ st : Strm, (getStream s.dev (coreNo o c k)
      (strmIx st)).part = true ∧ (getStream s.dev (coreNo o c k) (strmIx st)).wait = .xsync) ∧ ((∀ st : Strm, (getStream s.dev
      (coreNo o c k) (strmIx st)).part = true → (getStream s.dev (coreNo o c k) (strmIx st)).wait = .xsync ∨ (getStream s.dev
      (coreNo o c k) (strmIx st)).live = false))) ∧
    (∃ (o : Fin 8) (c : Fin 9) (st : Strm) (s : State), live s.dev = true ∧ (∃ k : Fin 64, (getStream s.dev (coreNo o c k)
      (strmIx st)).part = true ∧ (getStream s.dev (coreNo o c k) (strmIx st)).wait = .cbar) ∧ ((∀ k : Fin 64, (getStream s.dev
      (coreNo o c k) (strmIx st)).part = true → (getStream s.dev (coreNo o c k) (strmIx st)).wait = .cbar ∨ (getStream s.dev
      (coreNo o c k) (strmIx st)).live = false))) :=
  ⟨⟨0, 0, 0, .F, 7, st (onCore (fun x => { x with wait := .fence 7 }) pd), by decide⟩,
   ⟨0, 0, 0, .F, 0, st (onCore (fun x => { x with live := true, part := true, wait := .ending }) pd), _, rfl, rfl, rfl, rfl,
     rfl, rfl, by decide⟩,
   ⟨0, 0, 0, .F, 0, st (setStream 0 1 (fun x => { x with live := true, part := true }) (onCore (fun x =>
     { x with live := true, part := true, wait := .ending }) pd)), _, rfl, rfl, rfl, rfl, rfl, rfl, by decide⟩,
   ⟨0, cmd .active [], cmds [cmd .active []] pd, rfl, rfl, by decide⟩,
   ⟨0, 0, 0, st (setStream 0 1 (fun x => { x with part := true, wait := .xsync }) (onCore (fun x =>
     { x with part := true, wait := .xsync }) pd)), rfl, ⟨.F, rfl, rfl⟩, fun st => by cases st <;> decide⟩,
   ⟨0, 0, .F, st (onCore (fun x => { x with part := true, wait := .cbar }) pd), by decide⟩⟩

theorem witness_WindowsSelectAndBound :
    (∃ (o : Fin 8) (i : Nat) (ev : LineEvent) (p : Plan) (w : PlanWin) (c : Cmd) (s : State), live s.dev = true ∧ (getSeq
      s.dev o).plan = some p ∧ p.wins[i]? = some w ∧ (getSeq s.dev o).withdrawn = false ∧ w.tick = (getSeq s.dev o).cycleTick
      ∧ dispatches s.dev (seqBase o) = true ∧ i ∉ (getSeq s.dev o).started ∧ s.dev.tck.now ≤ windowClock s.dev w.start ∧
      w.kind ≠ 4 ∧ windowPick (resumeXfers o w (advanceTo (windowClock s.dev w.start) (setSeq o (fun q =>
      { q with started := i :: q.started }) (withLine ev s.dev)))) o w = some c) ∧
    (∃ (id : Nat) (c : Cmd) (s : State), live s.dev = true ∧ cmdById s.dev id = some c ∧ ((c.phase = .selected ∨ (c.phase =
      .active ∧ c.heldUntil = none))) ∧ c.retired = false ∧ c.endPassed = false ∧ itemHalted s.dev id = false ∧ delayed s.dev
      c = false ∧ c.winTick = s.dev.tck.count ∧ (getCtx s.dev c.oct c.ctx).overruns < s.dev.ump.limit.live) ∧
    (∃ (id : Nat) (c : Cmd) (s : State), live s.dev = true ∧ cmdById s.dev id = some c ∧ ((c.phase = .selected ∨ c.phase =
      .active)) ∧ c.retired = false ∧ itemHalted s.dev id = false ∧ delayed s.dev c = false ∧ (getCtx s.dev c.oct c.ctx).state
      ≠ .faulted ∧ endTick s.dev c + 2 ≤ s.dev.tck.count ∧ expiredWait s.dev c.oct c.ctx = none ∧ (∀ e ∈ s.dev.stream, ∀ a b
      t, e.2.wait ≠ .hwait a b t 0)) :=
  ⟨⟨0, 0, .clean, plan0, win0, cmd .accepted [(0, 3), (0x11, 0x10)], st (cmds [cmd .accepted [(0, 3), (0x11, 0x10)]] (run
    pd)), rfl, rfl, rfl, rfl, rfl, by decide, by decide, Nat.zero_le _, by decide, rfl⟩,
   ⟨0, cmd .active [], st (cmds [cmd .active []] pd), rfl, rfl, .inr ⟨rfl, rfl⟩, rfl, rfl, rfl, rfl, by decide⟩,
   ⟨0, cmd .active [], st { cmds [cmd .active []] pd with tck := { pd.tck with count := 2 } }, rfl, rfl, .inr rfl, rfl, rfl,
     rfl, by decide, by decide, rfl, fun _ h => nomatch h⟩⟩

theorem witness_QueueDoorbellsAndFetch :
    (∃ (f : Fn) (o : Fin 8) (q : Fin 32) (p : Nat) (s : State), live s.dev = true ∧ barAnswers s.dev f = true ∧ mayUseOctant
      s.dev f o = true ∧ ((p % 65536 + 65536 - (getQueue s.dev o q).fetch) % 65536 ≤ 2 ^ (getQueue s.dev o q).n)) ∧
    (∃ (f : Fn) (o : Fin 8) (s : State), live s.dev = true ∧ barAnswers s.dev f = true ∧ mayUseOctant s.dev f o = true) ∧
    (∃ (f : Fn) (o : Fin 8) (s : State), live s.dev = true ∧ barAnswers s.dev f = true ∧ mayUseOctant s.dev f o = false) ∧
    (∃ (o : Fin 8) (q : Fin 32) (b : HostBlock) (y : Opened) (s : State), live s.dev = true ∧ fetching s.dev o q = true ∧
      pendingCmds (getQueue s.dev o q) ≤ 2 ^ (getQueue s.dev o q).n ∧ (getQueue s.dev o q).transom = true ∧ hostOpen s.dev
      (getSht s.dev o).vf = true ∧ dispatches s.dev trsBase = true ∧ slotSince s.dev (getSht s.dev o).vf (getQueue s.dev o
      q).fetchFrom = true ∧ y = openBlock s.dev (getSht s.dev o).vf (ringWin (getQueue s.dev o q).cmdBase) b ∧ y.tagOk = true
      ∧ b.poisoned = false ∧ y.block = (getQueue s.dev o q).fetch % 2 ^ (getQueue s.dev o q).n ∧ y.wseq = (getQueue s.dev o
      q).wseqCmd ∧ b.cipher.length = 128) ∧
    (∃ (o : Fin 8) (q : Fin 32) (ev : LineEvent) (ps : List (Nat × Nat)) (bs : List Byte) (d : Dev) (s : State), live s.dev =
      true ∧ fetching s.dev o q = true ∧ pendingCmds (getQueue s.dev o q) ≤ 2 ^ (getQueue s.dev o q).n ∧ (getQueue s.dev o
      q).transom = false ∧ ringParts s.dev o (getQueue s.dev o q).ctx false (cmdSlot (getQueue s.dev o q)) = .ok ps ∧
      readParts (20 + o.val) ev ps [] s.dev = (.ok bs, d)) :=
  ⟨⟨.vf 0, 0, 0, 1, st pd, by decide⟩,
   ⟨.vf 0, 0, st pd, by decide⟩,
   ⟨.vf 1, 0, st pd, by decide⟩,
   ⟨0, 0, blk key0 128, ⟨List.replicate 128 0, 0, 0, true⟩, st (trs (fetches true pd)), rfl, by decide, by decide, rfl, by
     decide, by decide, slotSince_of rfl (by decide) (by decide), blk_opens _ _, rfl, rfl, rfl, rfl, blk_length _ _⟩,
   ⟨0, 0, .clean, [(0, 128)], List.replicate 128 0, (readParts 20 .clean [(0, 128)] [] (setEntry 0 0 0 ⟨3, 0⟩ (fetches false
     pd))).2, st (setEntry 0 0 0 ⟨3, 0⟩ (fetches false pd)), rfl, rfl, by decide, rfl, rfl, Prod.ext (by decide +kernel) rfl⟩⟩

theorem witness_CommandsCompleteAndSignal :
    (∃ (id : Nat) (c : Cmd) (s : State), live s.dev = true ∧ cmdById s.dev id = some c ∧ c.phase = .recording ∧ recordless c =
      true) ∧
    (∃ (id : Nat) (c : Cmd) (s : State), live s.dev = true ∧ cmdById s.dev id = some c ∧ c.phase = .recording ∧ recordless c =
      false ∧ ringFull (getQueue s.dev c.oct c.q) = false ∧ (getQueue s.dev c.oct c.q).transom = true ∧ hostReach s.dev
      (getSht s.dev c.oct).vf = true ∧ (getWin s.dev (getSht s.dev c.oct).vf (ringWin (getQueue s.dev c.oct
      c.q).cplBase)).live = true) ∧
    (∃ (id : Nat) (ev : LineEvent) (c : Cmd) (d : Dev) (s : State), live s.dev = true ∧ cmdById s.dev id = some c ∧ c.phase =
      .recording ∧ recordless c = false ∧ ringFull (getQueue s.dev c.oct c.q) = false ∧ (getQueue s.dev c.oct c.q).transom =
      false ∧ writeRecordHbm c ev s.dev = (none, d)) ∧
    (∃ (i : Nat) (g : Signal) (s : State), live s.dev = true ∧ s.dev.signals[i]? = some g) ∧
    (∃ (g : Signal) (d : Dev), (getObj d g.octant g.obj).configured = true ∧ (∀ e ∈ d.stream, ∀ a b t n, e.2.wait ≠ .hwait a b
      t n) ∧ g.err = none) ∧
    (∃ (g : Signal) (d : Dev) (r : Reason), (getObj d g.octant g.obj).configured = true ∧ (∀ e ∈ d.stream, ∀ a b t n, e.2.wait
      ≠ .hwait a b t n) ∧ g.err = some r) ∧
    (∃ (id : Nat) (c : Cmd) (s : State), live s.dev = true ∧ cmdById s.dev id = some c ∧ c.waitLeft = some 0 ∧ waitState s.dev
      c = .held) ∧
    (∃ (o : Fin 8) (c : Fin 9) (k : Fin 64) (st : Strm) (a b : Nat) (t : Word) (ctx : Nat) (s : State), live s.dev = true ∧
      (getStream s.dev (coreNo o c k) (strmIx st)).wait = .hwait a b t 0 ∧ (getCore s.dev (coreNo o c k)).ctx = some ctx) :=
  ⟨⟨0, cmd .recording [(1, 4)], st (cmds [cmd .recording [(1, 4)]] pd), rfl, rfl, rfl, rfl⟩,
   ⟨0, cmd .recording [], st (setWin 0 0 (fun x => { x with live := true }) (trs (cmds [cmd .recording []] (fetches true
     pd)))), rfl, rfl, rfl, rfl, by decide, rfl, (Bool.and_eq_true _ _).mpr ⟨rfl, inSlot_of rfl (by decide) (by decide)⟩,
     rfl⟩,
   ⟨0, .clean, cmd .recording [], _, st (setEntry 0 0 0 ⟨7, 0⟩ (cmds [cmd .recording []] (fetches false pd))), rfl, rfl, rfl,
     rfl, rfl, rfl, rfl⟩,
   ⟨0, ⟨0, 0, 1, none⟩, st { pd with signals := [⟨0, 0, 1, none⟩] }, by decide⟩,
   ⟨⟨0, 0, 1, none⟩, setObj 0 0 (fun x => { x with configured := true }) pd, rfl, (fun _ h => nomatch h), rfl⟩,
   ⟨⟨0, 0, 1, some .hostStall⟩, setObj 0 0 (fun x => { x with configured := true }) pd, .hostStall, rfl, (fun _ h => nomatch
     h), rfl⟩,
   ⟨0, { cmd .accepted [(1, 1), (8, 1)] with waitLeft := some 0 }, st (cmds
     [{ cmd .accepted [(1, 1), (8, 1)] with waitLeft := some 0 }] pd), rfl, rfl, rfl, rfl⟩,
   ⟨0, 0, 0, .F, 0, 0, 0, 0, st (onCore (fun x => { x with wait := .hwait 0 0 0 0 }) pd), by decide⟩⟩

theorem witness_RelayTransfersMove :
    (∃ (o : Fin 8) (e : Fin 2) (seq : Word) (x : Xfer) (s : State), live s.dev = true ∧ findXfer s.dev o e seq = some x ∧
      x.partl = false ∧ x.fabric = false ∧ xferOpen x = true ∧ ((rdDstKind (xferRaw s.dev x) = 3 → hostReach s.dev (getSht
      s.dev o).vf = true)) ∧ rdKind (xferRaw s.dev x) < 3) ∧
    (∃ (o : Fin 8) (e : Fin 2) (seq : Word) (x : Xfer) (s : State), live s.dev = true ∧ findXfer s.dev o e seq = some x ∧
      x.partl = false ∧ x.fabric = false ∧ xferOpen x = true ∧ ((rdDstKind (xferRaw s.dev x) = 3 → hostReach s.dev (getSht
      s.dev o).vf = true)) ∧ rdKind (xferRaw s.dev x) = 3) ∧
    (∃ (o : Fin 8) (e : Fin 2) (seq : Word) (x : Xfer) (s : State), live s.dev = true ∧ findXfer s.dev o e seq = some x ∧
      x.partl = false ∧ x.fabric = false ∧ xferOpen x = true ∧ ((rdDstKind (xferRaw s.dev x) = 3 → hostReach s.dev (getSht
      s.dev o).vf = true)) ∧ rdKind (xferRaw s.dev x) = 4) ∧
    (∃ (o : Fin 8) (e : Fin 2) (seq : Word) (b : HostBlock) (x : Xfer) (blk : Nat) (y : Opened) (s : State), live s.dev = true
      ∧ findXfer s.dev o e seq = some x ∧ xferOpen x = true ∧ x.waiting = some blk ∧ x.partl = false ∧ y = openBlock s.dev
      (getSht s.dev o).vf (blk / 2 ^ 24) b ∧ y.tagOk = true ∧ b.poisoned = false ∧ y.block = blk % 2 ^ 24 ∧ y.wseq = 0 ∧
      b.cipher.length = 4096) ∧
    (∃ (o : Fin 8) (e : Fin 2) (seq : Word) (b : HostBlock) (x : Xfer) (blk : Nat) (s : State), live s.dev = true ∧ findXfer
      s.dev o e seq = some x ∧ xferOpen x = true ∧ x.waiting = some blk ∧ (openBlock s.dev (getSht s.dev o).vf (blk / 2 ^ 24)
      b).tagOk = false) ∧
    (∃ (o : Fin 8) (seq : Word) (s : State), live s.dev = true ∧ findXfer s.dev o 0 seq = none) ∧
    (∃ (o : Fin 8) (seq : Word) (s : State), live s.dev = true ∧ findXfer s.dev o 1 seq = none) ∧
    (∃ (o : Fin 8) (e : Fin 2) (seq : Word) (x : Xfer) (c : Cmd) (s : State), live s.dev = true ∧ findXfer s.dev o e seq =
      some x ∧ x.partl = false ∧ xferOpen x = true ∧ ((x.fabric = true ∨ hostOwes s.dev x = true)) ∧ (s.dev.xfers.filter fun y
      => y.oct == o.val && y.eng == e.val && y.partl).length < 4 ∧ cmdById s.dev x.cmd = some c ∧ ((c.retired = true ∨
      x.fabric = true))) ∧
    (∃ (o : Fin 8) (e : Fin 2) (seq : Word) (x : Xfer) (c : Cmd) (s : State), live s.dev = true ∧ findXfer s.dev o e seq =
      some x ∧ x.partl = false ∧ xferOpen x = true ∧ ((x.fabric = true ∨ hostOwes s.dev x = true)) ∧ (s.dev.xfers.filter fun y
      => y.oct == o.val && y.eng == e.val && y.partl).length < 4 ∧ cmdById s.dev x.cmd = some c ∧ c.retired = false ∧ x.fabric
      = false) ∧
    (∃ (o : Fin 8) (e : Fin 2) (seq : Word) (x : Xfer) (s : State), live s.dev = true ∧ findXfer s.dev o e seq = some x ∧
      x.left = 0 ∧ xferOpen x = true ∧ x.fabric = false) ∧
    (∃ (o : Fin 8) (e : Fin 2) (seq : Word) (x : Xfer) (st : RStep) (s : State), live s.dev = true ∧ findXfer s.dev o e seq =
      some x ∧ x.left = 0 ∧ x.fabric = true ∧ stepOf s.dev x.cmd = some st ∧ st.lateLeft = none) ∧
    (∃ (o : Fin 8) (e : Fin 2) (seq : Word) (x : Xfer) (s : State) (r : Reason), live s.dev = true ∧ findXfer s.dev o e seq =
      some x ∧ x.fabric = false ∧ x.fault = some r) ∧
    (∃ (o : Fin 8) (e : Fin 2) (seq : Word) (x : Xfer) (s : State), live s.dev = true ∧ findXfer s.dev o e seq = some x ∧
      x.fabric = false ∧ x.fault = none ∧ x.allDone = true ∧ withheld s.dev x = false) ∧
    (∃ (o : Fin 8) (e : Fin 2) (seq : Word) (x : Xfer) (s : State) (c : Cmd), live s.dev = true ∧ findXfer s.dev o e seq =
      some x ∧ x.fabric = false ∧ x.fault = none ∧ x.allDone = true ∧ withheld s.dev x = true ∧ cmdById s.dev x.cmd = some c ∧
      c.heldUntil = none ∧ c.retired = true) ∧
    (∃ (o : Fin 8) (e : Fin 2) (seq : Word) (x : Xfer) (c : Cmd) (s : State), live s.dev = true ∧ findXfer s.dev o e seq =
      some x ∧ cmdById s.dev x.cmd = some c ∧ c.heldUntil ≠ none ∧ x.allDone = true ∧ x.fault = none) ∧
    (∃ (o : Fin 8) (e : Fin 2) (seq : Word) (x : Xfer) (s : State), live s.dev = true ∧ findXfer s.dev o e seq = some x ∧
      xferOpen x = true ∧ x.waiting ≠ none) :=
  ⟨⟨0, 0, 0, xfer, st (xfs [xfer] (cmds [cmd .active []] pd)), rfl, rfl, rfl, rfl, rfl, by decide, by decide⟩,
   ⟨0, 0, 0, xfer, st (xfs [xfer] (cmds [cmd .active [(0x20, 3)]] pd)), rfl, rfl, rfl, rfl, rfl, by decide, by decide⟩,
   ⟨0, 0, 0, xfer, st (xfs [xfer] (cmds [cmd .active [(0x20, 4)]] pd)), rfl, rfl, rfl, rfl, rfl, by decide, by decide⟩,
   ⟨0, 0, 0, blk key0 4096, { xfer with waiting := some 0 }, 0, ⟨List.replicate 4096 0, 0, 0, true⟩, st (xfs
     [{ xfer with waiting := some 0 }] pd), rfl, rfl, rfl, rfl, rfl, blk_opens _ _, rfl, rfl, rfl, rfl, blk_length _ _⟩,
   ⟨0, 0, 0, badBlk key0, { xfer with waiting := some 0 }, 0, st (xfs [{ xfer with waiting := some 0 }] pd), rfl, rfl, rfl,
     rfl, badBlk_fails _⟩,
   ⟨0, 0, st pd, by decide⟩,
   ⟨0, 0, st pd, by decide⟩,
   ⟨0, 0, 0, { xfer with fabric := true }, cmd .active [], st (xfs [{ xfer with fabric := true }] (cmds [cmd .active []] pd)),
     rfl, rfl, rfl, rfl, .inl rfl, by decide, rfl, .inr rfl⟩,
   ⟨0, 0, 0, { xfer with waiting := some 0 }, cmd .active [(0x21, 3)], st (xfs [{ xfer with waiting := some 0 }] (cmds [cmd
     .active [(0x21, 3)]] pd)), rfl, rfl, rfl, rfl, .inr (by decide), by decide, rfl, rfl, rfl⟩,
   ⟨0, 0, 0, xfer, st (xfs [xfer] pd), rfl, rfl, rfl, rfl, rfl⟩,
   ⟨0, 0, 0, { xfer with fabric := true }, step0, st { xfs [{ xfer with fabric := true }] pd with steps := [step0] }, by
     decide⟩,
   ⟨0, 0, 0, { xfer with fault := some .hostStall }, st (xfs [{ xfer with fault := some .hostStall }] pd), .hostStall, by
     decide⟩,
   ⟨0, 0, 0, { xfer with allDone := true }, st (xfs [{ xfer with allDone := true }] (cmds [cmd .active []] pd)), rfl, rfl,
     rfl, rfl, rfl, by decide⟩,
   ⟨0, 0, 0, { xfer with allDone := true, label := 1 }, st (xfs [{ xfer with allDone := true, label := 1 }] (cmds
     [{ cmd .active [(0x20, 3)] with retired := true }] pd)), { cmd .active [(0x20, 3)] with retired := true }, rfl, rfl, rfl,
     rfl, rfl, by decide, rfl, rfl, rfl⟩,
   ⟨0, 0, 0, { xfer with allDone := true }, { cmd .active [] with heldUntil := some 0 }, st (xfs
     [{ xfer with allDone := true }] (cmds [{ cmd .active [] with heldUntil := some 0 }] pd)), rfl, rfl, rfl, by decide, rfl,
     rfl⟩,
   ⟨0, 0, 0, { xfer with waiting := some 0 }, st (xfs [{ xfer with waiting := some 0 }] pd), rfl, rfl, rfl, by decide⟩⟩

theorem witness_MgmtCommandsAreChecked :
    (∃ (i : Issuer) (o : Fin 8) (c : MgmtCmd) (s : State), ((∀ x p, c = .ctxStop x p → p < 2)) ∧ mgmtMay i o s.dev = true) ∧
    (∃ (f : Fn) (s : State), barAnswers s.dev f = true ∧ ((f ≠ .pf ∨ porterManaged s.dev = true))) ∧
    (∃ (o : Fin 8) (c : MgmtCmd) (s : State), ((∀ x p, c = .ctxStop x p → p < 2)) ∧ barAnswers s.dev .pf = true ∧
      porterManaged s.dev = false ∧ (getSeq s.dev o).mgmt ≠ .none) ∧
    (∃ (c : MgmtCmd), mgmtRange c = false) ∧
    (∃ (o : Nat) (c : MgmtCmd) (d : Dev), mgmtRange c = true ∧ mgmtOwner d o c = false) :=
  ⟨⟨.porter, 0, .ctxStop 0 1, st pd, (fun _ p h => by cases h; decide), rfl⟩,
   ⟨.vf 0, st pd, by decide⟩,
   ⟨0, .ctxStop 0 1, st (setSeq 0 (fun x => { x with mgmt := .stop 0 }) hd), (fun _ p h => by cases h; decide), rfl, rfl, by
     decide⟩,
   ⟨.ctxStart 16, by decide⟩,
   ⟨1, .ctxStart 15, pd, by decide⟩⟩

theorem witness_ContextCommandsAct :
    (∃ (i : Issuer) (o : Fin 8) (x : Nat) (seed : DWord) (nf : Nat) (s : State), mgmtReady i o (.ctxCreate x seed nf) s.dev =
      true ∧ (getCtx s.dev o x).state = .free ∧ (getObj s.dev (objOct nf) (objIx nf)).configured = true ∧ (getObj s.dev
      (objOct nf) (objIx nf)).producer = none) ∧
    (∃ (i : Issuer) (o : Fin 8) (x : Nat) (s : State), mgmtReady i o (.ctxStart x) s.dev = true ∧ startCheck s.dev o x = none) ∧
    (∃ (i : Issuer) (o : Fin 8) (x : Nat) (s : State), mgmtReady i o (.ctxStop x 0) s.dev = true ∧ (getCtx s.dev o x).state =
      .running) ∧
    (∃ (i : Issuer) (o : Fin 8) (x : Nat) (s : State), mgmtReady i o (.ctxStop x 1) s.dev = true ∧ (getCtx s.dev o x).state =
      .running) ∧
    (∃ (i : Issuer) (o : Fin 8) (x : Nat) (s : State), mgmtReady i o (.ctxDestroy x) s.dev = true ∧ (getCtx s.dev o x).state =
      .stopped) :=
  ⟨⟨.porter, 0, 0, 0, 0, st (setObj 0 0 (fun x => { x with configured := true }) pd), by decide⟩,
   ⟨.porter, 0, 0, st (chartered .active (ctx0 .stopped (run pd))), by decide⟩,
   ⟨.porter, 0, 0, st (ctx0 .running pd), by decide⟩,
   ⟨.porter, 0, 0, st (ctx0 .running pd), by decide⟩,
   ⟨.host .pf, 0, 0, st (ctx0 .stopped hd), by decide⟩⟩

theorem witness_SequencerTableCommandsAct :
    (∃ (i : Issuer) (o : Fin 8) (a : BindArgs) (s : State), mgmtReady i o (.queueBind a) s.dev = true ∧ bindCheck s.dev o a =
      none) ∧
    (∃ (i : Issuer) (o : Fin 8) (k : Nat) (s : State), mgmtReady i o (.queueUnbind k) s.dev = true ∧ (getQueue s.dev o
      k).bound = true ∧ queueCmds s.dev o k = []) ∧
    (∃ (i : Issuer) (o : Fin 8) (x k : Nat) (w0 w1 : DWord) (e : RegEntry) (s : State), mgmtReady i o (.regionSet x k w0 w1)
      s.dev = true ∧ charterEntry s.dev o x k ⟨w0, w1⟩ = some e ∧ entryCheck s.dev o e = none) ∧
    (∃ (i : Issuer) (o : Fin 8) (x k : Nat) (s : State), mgmtReady i o (.regionClear x k) s.dev = true) ∧
    (∃ (i : Issuer) (o : Fin 8) (a : ObjArgs) (s : State), mgmtReady i o (.objConfig a) s.dev = true ∧ objBusy s.dev (2048 *
      o.val + a.obj) = false) ∧
    (∃ (i : Issuer) (o : Fin 8) (n : Nat) (s : State), mgmtReady i o (.objFree n) s.dev = true ∧ objBusy s.dev (2048 * o.val +
      n) = false) ∧
    (∃ (i : Issuer) (o : Fin 8) (a : ImageArgs) (s : State), mgmtReady i o (.imageRegister a) s.dev = true ∧ imageCheck s.dev
      o a = none) ∧
    (∃ (i : Issuer) (o : Fin 8) (x k : Nat) (s : State), mgmtReady i o (.imageRelease x k) s.dev = true ∧ launchesOf s.dev o x
      k = []) :=
  ⟨⟨.porter, 0, ⟨31, 0, 0, 4, 4, 1, 0, 0⟩, st (ctx0 .stopped pd), by decide⟩,
   ⟨.porter, 0, 0, st (setQueue 0 0 (fun x => { x with bound := true }) pd), by decide⟩,
   ⟨.porter, 0, 15, 4095, 1, 0, _, st pd, rfl, rfl, rfl⟩,
   ⟨.porter, 0, 15, 4095, st pd, by decide⟩,
   ⟨.porter, 0, ⟨0, 0, false, 0, 0, 1, 0⟩, st pd, by decide⟩,
   ⟨.porter, 0, 0, st pd, by decide⟩,
   ⟨.porter, 0, ⟨0, 0, 1, 0, 2⟩, st pd, by decide⟩,
   ⟨.porter, 0, 15, 15, st pd, by decide⟩⟩

theorem witness_SequencerBoundaryEventsAct :
    (∃ (o : Fin 8) (c : Nat) (due : Bool) (s : State), live s.dev = true ∧ (getSeq s.dev o).mgmt = .start c due ∧ (getSeq
      s.dev o).mgmtMbox = false ∧ s.dev.pwr.calibrating = false ∧ startCheck s.dev o c = none) ∧
    (∃ (o : Fin 8) (c : Fin 16) (s : State), live s.dev = true ∧ (getCtx s.dev o c).state = .running ∧ (getCtx s.dev o
      c).stopMode = .preempt) ∧
    (∃ (o : Fin 8) (c : Fin 16) (s : State) (d : Dev), live s.dev = true ∧ (((getCtx s.dev o c).state = .faulted ∨ ((getCtx
      s.dev o c).state = .running ∧ (getCtx s.dev o c).stopMode ≠ .none))) ∧ ctxCmds s.dev o c = [] ∧ d =
      { setCtx o c (fun x => { x with state := .stopped, stopMode := .none, overruns := 0 }) s.dev with ump := { s.dev.ump with l0 := put 0 (16 * o.val + c.val) 0 s.dev.ump.l0 } }
      ∧ (getSeq s.dev o).mgmt ≠ .stop c) ∧
    (∃ (o : Fin 8) (c : Fin 16) (s : State) (d : Dev), live s.dev = true ∧ (((getCtx s.dev o c).state = .faulted ∨ ((getCtx
      s.dev o c).state = .running ∧ (getCtx s.dev o c).stopMode ≠ .none))) ∧ ctxCmds s.dev o c = [] ∧ d =
      { setCtx o c (fun x => { x with state := .stopped, stopMode := .none, overruns := 0 }) s.dev with ump := { s.dev.ump with l0 := put 0 (16 * o.val + c.val) 0 s.dev.ump.l0 } }
      ∧ (getSeq s.dev o).mgmt = .stop c ∧ (getSeq s.dev o).mgmtMbox = false) ∧
    (∃ (o : Fin 8) (c i : Nat) (e : RegEntry) (l : List Nat) (s : State), live s.dev = true ∧ (getSeq s.dev o).mgmt = .region
      c i e false l) ∧
    (∃ (o : Fin 8) (c i : Nat) (e : RegEntry) (l : List Nat) (s : State), live s.dev = true ∧ (getSeq s.dev o).mgmt = .region
      c i e true l ∧ (getSeq s.dev o).mgmtMbox = false ∧ (∀ id ∈ l, stillRuns s.dev id = false)) ∧
    (∃ (o : Fin 8) (c k : Nat) (s : State), live s.dev = true ∧ (getSeq s.dev o).mgmt = .imageRelease c k ∧ (getSeq s.dev
      o).mgmtMbox = false ∧ launchesOf s.dev o c k = []) :=
  ⟨⟨0, 0, true, st (chartered .active (ctx0 .stopped (setSeq 0 (fun x => { x with mgmt := .start 0 true }) (run pd)))), by
    decide⟩,
   ⟨0, 0, st (setCtx 0 0 (fun x => { x with state := .running, stopMode := .preempt }) pd), by decide⟩,
   ⟨0, 0, st (ctx0 .faulted pd), _, rfl, .inl rfl, by decide, rfl, by decide⟩,
   ⟨0, 0, st (ctx0 .faulted (setSeq 0 (fun x => { x with mgmt := .stop 0 }) pd)), _, rfl, .inl rfl, by decide, rfl, by decide,
     rfl⟩,
   ⟨0, 0, 0, RegEntry.zero, [], st (setSeq 0 (fun x => { x with mgmt := .region 0 0 RegEntry.zero false [] }) pd), by decide⟩,
   ⟨0, 0, 0, RegEntry.zero, [], st (setSeq 0 (fun x => { x with mgmt := .region 0 0 RegEntry.zero true [] }) pd), by decide⟩,
   ⟨0, 0, 0, st (setSeq 0 (fun x => { x with mgmt := .imageRelease 0 0 }) pd), by decide⟩⟩

theorem witness_MemoryCommandsAct :
    (∃ (r pa : Nat) (ev : LineEvent) (d : Dev) (s : State) (bs : List Byte), live s.dev = true ∧ hbmPresent pa = true ∧
      (getStack s.dev (stackOf pa)).rootValid = true ∧ live d = true ∧ readLine pa r 1 ev s.dev = (.ok bs, d)) ∧
    (∃ (r pa : Nat) (ev : LineEvent) (d : Dev) (s : State) (e : Reason × List Byte), live s.dev = true ∧ hbmPresent pa = true
      ∧ (getStack s.dev (stackOf pa)).rootValid = true ∧ live d = true ∧ readLine pa r 1 ev s.dev = (.error e, d)) ∧
    (∃ (r pa : Nat) (data : List Byte) (ev : LineEvent) (d : Dev) (s : State), live s.dev = true ∧ hbmPresent pa = true ∧
      (getStack s.dev (stackOf pa)).rootValid = true ∧ live d = true ∧ writeLine pa r data ev s.dev = (.ok (), d)) ∧
    (∃ (r pa : Nat) (data : List Byte) (ev : LineEvent) (d : Dev) (s : State), live s.dev = true ∧ hbmPresent pa = true ∧
      (getStack s.dev (stackOf pa)).rootValid = true ∧ live d = true ∧ writePart pa r data ev s.dev = (.ok (), d)) ∧
    (∃ (r pa : Nat) (data : List Byte) (ev : LineEvent) (d : Dev) (s : State) (e : Reason × List Byte), live s.dev = true ∧
      hbmPresent pa = true ∧ (getStack s.dev (stackOf pa)).rootValid = true ∧ live d = true ∧ writePart pa r data ev s.dev =
      (.error e, d)) ∧
    (∃ (r pa : Nat) (ev : LineEvent) (d : Dev) (s : State) (x : HbmResult (List Byte)), live s.dev = true ∧ hbmPresent pa =
      true ∧ (getStack s.dev (stackOf pa)).rootValid = true ∧ live d = false ∧ readLine pa r 1 ev s.dev = (x, d)) ∧
    (∃ (r pa : Nat) (data : List Byte) (ev : LineEvent) (d : Dev) (s : State) (x : HbmResult Unit), live s.dev = true ∧
      hbmPresent pa = true ∧ (getStack s.dev (stackOf pa)).rootValid = true ∧ live d = false ∧ writeLine pa r data ev s.dev =
      (x, d)) ∧
    (∃ (r pa : Nat) (data : List Byte) (ev : LineEvent) (d : Dev) (s : State) (x : HbmResult Unit), live s.dev = true ∧
      hbmPresent pa = true ∧ (getStack s.dev (stackOf pa)).rootValid = true ∧ live d = false ∧ writePart pa r data ev s.dev =
      (x, d)) ∧
    (∃ (pa : Nat) (data : List Byte) (s : State), live s.dev = true ∧ hbmPresent pa = true ∧ (getStack s.dev (stackOf
      pa)).rootValid = true ∧ (getRegion s.dev (regionOf pa)).initPending = false ∧ (getRegion s.dev (regionOf pa)).undef = 0
      ∧ minorOf (getPage s.dev (pa / 64 / 64)) (pa / 64 % 64) < 126 ∧ data.length = 64) ∧
    (∃ (pa n : Nat) (s : State), live s.dev = true ∧ pa < 2 ^ 40 ∧ areaOf (pa % 2 ^ 37) ≠ .absent ∧ (getStack s.dev (stackOf
      pa)).rootValid = true ∧ 1 ≤ n ∧ n ≤ 2) ∧
    (∃ (pa : Nat), hbmPresent pa = false) ∧
    (∃ (k : Fin 8) (r : Nat) (s : State), live s.dev = true ∧ (getRegion s.dev (65536 * k.val + r)).initPending = true) ∧
    (∃ (pa : Nat), ((2 ^ 40 ≤ pa ∨ areaOf (pa % 2 ^ 37) = .absent))) :=
  ⟨⟨0, 0, .clean, (readLine 0 0 1 .clean pd).2, st pd, _, rfl, by decide, by decide, by decide, rfl⟩,
   ⟨0, 0, .clean, (readLine 0 0 1 .clean { pd with page := [(0, { major := 1, minors := [(0, 0x7F)] })] }).2, st
     { pd with page := [(0, { major := 1, minors := [(0, 0x7F)] })] }, _, rfl, by decide, by decide, by decide, rfl⟩,
   ⟨0, 0, bytes 64 [], .clean, (writeLine 0 0 (bytes 64 []) .clean pd).2, st pd, rfl, by decide, by decide, by decide, rfl⟩,
   ⟨0, 0, [1], .clean, (writePart 0 0 [1] .clean pd).2, st pd, rfl, by decide, by decide, by decide, rfl⟩,
   ⟨0, 0, [1], .clean, (writePart 0 0 [1] .clean { pd with page := [(0, { major := 1, minors := [(0, 0x7F)] })] }).2, st
     { pd with page := [(0, { major := 1, minors := [(0, 0x7F)] })] }, _, rfl, by decide, by decide, by decide, rfl⟩,
   ⟨0, 0, .rootBad, (readLine 0 0 1 .rootBad pd).2, st pd, _, rfl, by decide, by decide, by decide, rfl⟩,
   ⟨0, 0, bytes 64 [], .rootBad, (writeLine 0 0 (bytes 64 []) .rootBad pd).2, st pd, _, rfl, by decide, by decide, by decide,
     rfl⟩,
   ⟨0, 0, [1], .rootBad, (writePart 0 0 [1] .rootBad pd).2, st pd, _, rfl, by decide, by decide, by decide, rfl⟩,
   ⟨0, bytes 64 [], st pd, by decide⟩,
   ⟨0, 1, st pd, by decide⟩,
   ⟨2 ^ 40, by decide⟩,
   ⟨0, 0, st { pd with region := [(0, { Region.zero with initPending := true })] }, by decide⟩,
   ⟨2 ^ 40, by decide⟩⟩

theorem witness_FabricLinksAct :
    (∃ (p : Fin 8) (s : State), live s.dev = true ∧ (getPort s.dev p).up = false) ∧
    (∃ (p : Fin 8) (s : State), live s.dev = true ∧ (getPort s.dev p).up = true) ∧
    (∃ (s : State), live s.dev = true) ∧
    (∃ (p : Fin 8) (s : State), live s.dev = true ∧ (getPort s.dev p).half0 = true ∧ (getPort s.dev p).half1 = true) ∧
    (∃ (ns : Nat) (s : State), live s.dev = true ∧ 10000 < ns) ∧
    (∃ (ns : Nat), ns ≤ 10000) ∧
    (∃ (f : Frame) (s : State), live s.dev = true ∧ f.pause = false ∧ (getPort s.dev f.port).up = true ∧ addressed s.dev f =
      false) ∧
    (∃ (f : Frame) (s : State), live s.dev = true ∧ f.pause = false ∧ (getPort s.dev f.port).up = true ∧ addressed s.dev f =
      true ∧ headOk f.head = false) ∧
    (∃ (f : Frame), f.pause = true) :=
  ⟨⟨0, st pd, by decide⟩,
   ⟨0, st (grouped 1 pd), by decide⟩,
   ⟨st pd, by decide⟩,
   ⟨0, st (setPort 0 (fun x => { x with half0 := true, half1 := true }) pd), by decide⟩,
   ⟨10001, st pd, by decide⟩,
   ⟨10000, by decide⟩,
   ⟨{ frm (pkt 1 0 1) with udp := 0 }, st (grouped 1 pd), by decide⟩,
   ⟨{ frm (pkt 1 0 1) with head := [] }, st (grouped 1 pd), by decide⟩,
   ⟨{ frm (pkt 1 0 1) with pause := true }, by decide⟩⟩

theorem witness_GroupsLoadAndStepsRetire :
    (∃ (i : Issuer) (ev : LineEvent) (h : List Byte) (ms : List (List Byte)) (d : Dev) (slot : Nat) (s : State), live s.dev =
      true ∧ ((i = .porter ∧ porterManaged s.dev = true ∨ i = .host .pf ∧ barAnswers s.dev .pf = true ∧ porterManaged s.dev =
      false)) ∧ readDesc (s.dev.rly.gbase * 64) ev s.dev = (.ok (h, ms), d) ∧ loadRefusal d (s.dev.rly.gbase * 64) h ms = none
      ∧ (((List.range 8).map (8 * byteAt h 0xA + ·)).find? fun k => !(getGroup d k).loaded) = some slot) ∧
    (∃ (i : Issuer) (ev : LineEvent) (h : List Byte) (ms : List (List Byte)) (d : Dev) (r : Reason) (s : State), live s.dev =
      true ∧ ((i = .porter ∧ porterManaged s.dev = true ∨ i = .host .pf ∧ barAnswers s.dev .pf = true ∧ porterManaged s.dev =
      false)) ∧ readDesc (s.dev.rly.gbase * 64) ev s.dev = (.ok (h, ms), d) ∧ loadRefusal d (s.dev.rly.gbase * 64) h ms = some
      r) ∧
    (∃ (i : Issuer) (p : Fin 8) (g slot : Nat) (s : State), live s.dev = true ∧ ((i = .porter ∧ porterManaged s.dev = true ∨ i
      = .host .pf ∧ barAnswers s.dev .pf = true ∧ porterManaged s.dev = false)) ∧ findGroup s.dev p g = some slot ∧ groupNamed
      s.dev p g = false) ∧
    (∃ (id : Nat) (c : Cmd) (s : State), live s.dev = true ∧ cmdById s.dev id = some c ∧ c.limitHeld = true ∧ limitHolds s.dev
      c.oct c.raw = false) ∧
    (∃ (id : Nat) (c : Cmd) (st : RStep) (s : State), live s.dev = true ∧ stepOf s.dev id = some st ∧ cmdById s.dev id = some
      c ∧ mayRetire s.dev st c.raw = true ∧ ((raLast c.raw = false ∨ raColl c.raw = 6)) ∧ ¬ (raColl c.raw = 6 ∧ raStep c.raw =
      1)) :=
  ⟨⟨.porter, .clean, desc, [bytes 32 [], bytes 32 []], (readDesc 0 .clean (described pd)).2, 0, st (described pd), rfl, .inl
    ⟨rfl, rfl⟩, rfl, by decide +kernel, by decide +kernel⟩,
   ⟨.porter, .clean, desc, [bytes 32 [], bytes 32 []], (readDesc 0 .clean (inHbm [(0, 1), (4, 1), (6, 2), (14, 1), (16, 64)]
     pd)).2, .notReady, st (inHbm [(0, 1), (4, 1), (6, 2), (14, 1), (16, 64)] pd), rfl, .inl ⟨rfl, rfl⟩, rfl,
     by decide +kernel⟩,
   ⟨.porter, 0, 1, 0, st (grouped 1 pd), by decide⟩,
   ⟨0, { cmd .selected [] with limitHeld := true }, st (cmds [{ cmd .selected [] with limitHeld := true }] pd), rfl, rfl, rfl,
     rfl⟩,
   ⟨0, cmd .active [], step0, st { grouped 1 (cmds [cmd .active []] pd) with steps := [step0] }, rfl, rfl, rfl, rfl, .inl rfl,
     by decide⟩⟩

theorem witness_DataAndAcksAct :
    (∃ (f : Frame) (slot : Nat) (p : Packet) (s : State), live s.dev = true ∧ packetPasses f slot s.dev = true ∧ p = packetOf
      s.dev slot f ∧ f.typ = 1 ∧ stagingFits f slot s.dev = true ∧ dataBelongs s.dev slot p = true) ∧
    (∃ (f : Frame) (slot : Nat) (p : Packet) (s : State), live s.dev = true ∧ packetPasses f slot s.dev = true ∧ p = packetOf
      s.dev slot f ∧ f.typ = 6 ∧ stagingFits f slot s.dev = true ∧ resultBelongs s.dev slot p = true) ∧
    (∃ (f : Frame) (slot : Nat) (p : Packet) (s : State), live s.dev = true ∧ packetPasses f slot s.dev = true ∧ p = packetOf
      s.dev slot f ∧ f.typ = 2 ∧ p.len = 16) ∧
    (∃ (f : Frame) (slot : Nat) (s : State), live s.dev = true ∧ packetReaches f slot s.dev = true ∧ f.typ = 1 ∧ tagOk s.dev
      slot f = false) ∧
    (∃ (f : Frame) (slot : Nat) (s : State), live s.dev = true ∧ packetReaches f slot s.dev = true ∧ f.typ = 1 ∧ tagOk s.dev
      slot f = true ∧ replayed (pairEpoch (getGroup s.dev slot) (headPacket f.head []).src (headPacket f.head []).epoch
      (getPair (getGroup s.dev slot) (headPacket f.head []).src)) (headPacket f.head []) = true) ∧
    (∃ (p k : Fin 8) (m : Nat) (s : State), live s.dev = true ∧ (getGroup s.dev (8 * p + k)).loaded = true ∧ (getGroup s.dev
      (8 * p + k)).failed = none ∧ 0 < (getPair (getGroup s.dev (8 * p + k)) m).toAck) ∧
    (∃ (p k : Fin 8) (m psn : Nat) (q : Sent) (s : State), live s.dev = true ∧ ((getPair (getGroup s.dev (8 * p + k))
      m).unacked.filter fun x => x.pkt.psn == psn) = [q]) :=
  ⟨⟨frm (pkt 1 0 1), 0, _, st { grouped 1 pd with steps := [step0] }, rfl, frm_passes _ rfl rfl (by decide) (by decide), rfl,
    by decide, by decide, by decide⟩,
   ⟨frm (pkt 6 0xFFFF 1), 0, _, st { switched 1 pd with steps := [{ step0 with units := [⟨0, 0, 0, true, 0, [], false⟩] }] },
     rfl, frm_passes _ rfl rfl (by decide) (by decide), rfl, by decide, by decide, by decide⟩,
   ⟨frm { pkt 2 0 1 with len := 16, payload := List.replicate 16 0 }, 0, _, st (grouped 1 pd), rfl, frm_passes _ rfl rfl (by
     decide) (by decide), rfl, by decide, by decide⟩,
   ⟨badTag (pkt 1 0 1), 0, st (grouped 1 pd), rfl, by decide, by decide, badTag_fails _ rfl (by decide) rfl⟩,
   ⟨frm (pkt 1 0 1), 0, st (setPair 0 0 (fun x => { x with rxSeen := [0] }) (grouped 1 pd)), rfl, by decide, by decide,
     frm_tag _ rfl (by decide), by decide⟩,
   ⟨0, 0, 0, st (setPair 0 0 (fun x => { x with toAck := 1 }) (grouped 1 pd)), by decide⟩,
   ⟨0, 0, 0, 0, ⟨pkt 1 1 0, []⟩, st (setPair 0 0 (fun x => { x with unacked := [⟨pkt 1 1 0, []⟩] }) (grouped 1 pd)), by decide⟩⟩

theorem witness_ControlPacketsAct :
    (∃ (f : Frame) (slot : Nat) (p : Packet) (s : State), live s.dev = true ∧ packetPasses f slot s.dev = true ∧ p = packetOf
      s.dev slot f ∧ p.src ≠ switchNo ∧ f.typ = 3 ∧ f.sub = 1) ∧
    (∃ (f : Frame) (slot : Nat) (p : Packet) (s : State), live s.dev = true ∧ packetPasses f slot s.dev = true ∧ p = packetOf
      s.dev slot f ∧ p.src ≠ switchNo ∧ f.typ = 3 ∧ f.sub = 2) ∧
    (∃ (f : Frame) (slot : Nat) (p : Packet) (s : State), live s.dev = true ∧ packetPasses f slot s.dev = true ∧ p = packetOf
      s.dev slot f ∧ p.src ≠ switchNo ∧ f.typ = 3 ∧ f.sub = 3) ∧
    (∃ (f : Frame) (slot : Nat) (p : Packet) (s : State), live s.dev = true ∧ packetPasses f slot s.dev = true ∧ p = packetOf
      s.dev slot f ∧ p.src ≠ switchNo ∧ f.typ = 3 ∧ f.sub = 4) ∧
    (∃ (f : Frame) (slot : Nat) (p : Packet) (s : State), live s.dev = true ∧ packetPasses f slot s.dev = true ∧ p = packetOf
      s.dev slot f ∧ p.src ≠ switchNo ∧ f.typ = 3 ∧ f.sub = 5) ∧
    (∃ (f : Frame) (slot : Nat) (p : Packet) (s : State), live s.dev = true ∧ packetPasses f slot s.dev = true ∧ p = packetOf
      s.dev slot f ∧ p.src ≠ switchNo ∧ f.typ = 3 ∧ f.sub = 6) ∧
    (∃ (f : Frame) (slot : Nat) (p : Packet) (s : State), live s.dev = true ∧ packetPasses f slot s.dev = true ∧ p = packetOf
      s.dev slot f ∧ p.src ≠ switchNo ∧ f.typ = 3 ∧ f.sub = 7 ∧ p.arg ≤ 2) ∧
    (∃ (slot : Nat) (p : Packet) (d : Dev), (getGroup d slot).self = 0 ∧ (getGroup d slot).arrived.contains (p.collSeq,
      p.step, p.src) = false) ∧
    (∃ (slot : Nat) (p : Packet) (d : Dev), (getGroup d slot).self = 0 ∧ ((votesOf (getGroup d slot) p.collSeq).any fun v =>
      v.1 == p.src) = false) ∧
    (∃ (slot : Nat) (p : Packet) (d : Dev), decisionOf (getGroup d slot) p.collSeq = none) :=
  ⟨⟨frm { pkt 3 1 0 with sub := 1 }, 0, _, st (grouped 0 pd), rfl, frm_passes _ rfl rfl (by decide) (by decide), rfl, by
    decide, by decide, by decide⟩,
   ⟨frm { pkt 3 1 0 with sub := 2 }, 0, _, st (grouped 0 pd), rfl, frm_passes _ rfl rfl (by decide) (by decide), rfl, by
     decide, by decide, by decide⟩,
   ⟨frm { pkt 3 1 0 with sub := 3 }, 0, _, st (grouped 0 pd), rfl, frm_passes _ rfl rfl (by decide) (by decide), rfl, by
     decide, by decide, by decide⟩,
   ⟨frm { pkt 3 1 0 with sub := 4 }, 0, _, st (grouped 0 pd), rfl, frm_passes _ rfl rfl (by decide) (by decide), rfl, by
     decide, by decide, by decide⟩,
   ⟨frm { pkt 3 1 0 with sub := 5 }, 0, _, st (grouped 0 pd), rfl, frm_passes _ rfl rfl (by decide) (by decide), rfl, by
     decide, by decide, by decide⟩,
   ⟨frm { pkt 3 1 0 with sub := 6 }, 0, _, st (grouped 0 pd), rfl, frm_passes _ rfl rfl (by decide) (by decide), rfl, by
     decide, by decide, by decide⟩,
   ⟨frm { pkt 3 1 0 with sub := 7 }, 0, _, st (grouped 0 pd), rfl, frm_passes _ rfl rfl (by decide) (by decide), rfl, by
     decide, by decide, by decide, by decide⟩,
   ⟨0, pkt 3 1 0, grouped 0 pd, by decide⟩,
   ⟨0, pkt 3 1 0, grouped 0 pd, by decide⟩,
   ⟨0, pkt 3 1 0, grouped 0 pd, by decide⟩⟩

theorem witness_LeasePacketsAct :
    (∃ (f : Frame) (slot : Nat) (p : Packet) (s : State), live s.dev = true ∧ packetPasses f slot s.dev = true ∧ p = packetOf
      s.dev slot f ∧ fromSwitch s.dev slot p = true ∧ f.typ = 4 ∧ f.sub = 2) ∧
    (∃ (f : Frame) (slot : Nat) (p : Packet) (s : State), live s.dev = true ∧ packetPasses f slot s.dev = true ∧ p = packetOf
      s.dev slot f ∧ fromSwitch s.dev slot p = true ∧ f.typ = 4 ∧ f.sub = 3) ∧
    (∃ (f : Frame) (slot : Nat) (p : Packet) (s : State), live s.dev = true ∧ packetPasses f slot s.dev = true ∧ p = packetOf
      s.dev slot f ∧ fromSwitch s.dev slot p = true ∧ f.typ = 4 ∧ f.sub = 6) ∧
    (∃ (f : Frame) (slot : Nat) (p : Packet) (s : State), live s.dev = true ∧ packetPasses f slot s.dev = true ∧ p = packetOf
      s.dev slot f ∧ fromSwitch s.dev slot p = true ∧ f.typ = 4 ∧ f.sub = 7) ∧
    (∃ (f : Frame) (slot : Nat) (p : Packet) (s : State) (q : Nat × Nat × Nat), live s.dev = true ∧ packetPasses f slot s.dev
      = true ∧ p = packetOf s.dev slot f ∧ fromSwitch s.dev slot p = true ∧ f.typ = 4 ∧ (getGroup s.dev slot).query = some q ∧
      q.1 = beNat (slice p.payload 0 4) ∧ q.2.1 = beNat (slice p.payload 4 4) ∧ f.sub = 9) ∧
    (∃ (p k : Fin 8) (l : Lease) (s : State), live s.dev = true ∧ (getGroup s.dev (8 * p + k)).lease = some l ∧ (getGroup
      s.dev (8 * p + k)).loaded = true ∧ (getGroup s.dev (8 * p + k)).failed = none ∧ (getGroup s.dev (8 * p + k)).self = 0) ∧
    (∃ (p k : Fin 8) (s : State), live s.dev = true ∧ (getGroup s.dev (8 * p + k)).loaded = true) :=
  ⟨⟨frm { pkt 4 0xFFFF 0 with sub := 2 }, 0, _, st (switched 0 pd), rfl, frm_passes _ rfl rfl (by decide) (by decide), rfl, by
    decide, by decide, by decide⟩,
   ⟨frm { pkt 4 0xFFFF 0 with sub := 3 }, 0, _, st (switched 0 pd), rfl, frm_passes _ rfl rfl (by decide) (by decide), rfl, by
     decide, by decide, by decide⟩,
   ⟨frm { pkt 4 0xFFFF 0 with sub := 6 }, 0, _, st (switched 0 pd), rfl, frm_passes _ rfl rfl (by decide) (by decide), rfl, by
     decide, by decide, by decide⟩,
   ⟨frm { pkt 4 0xFFFF 0 with sub := 7 }, 0, _, st (switched 0 pd), rfl, frm_passes _ rfl rfl (by decide) (by decide), rfl, by
     decide, by decide, by decide⟩,
   ⟨frm { pkt 4 0xFFFF 0 with sub := 9 }, 0, _, st (setGroup 0 (fun x => { x with query := some (0, 0, 0) }) (switched 0 pd)),
     (0, 0, 0), rfl, frm_passes _ rfl rfl (by decide) (by decide), rfl, by decide, by decide, by decide, by decide, by decide,
     by decide⟩,
   ⟨0, 0, ⟨1, 1, 0, 1, 0⟩, st (setGroup 0 (fun x => { x with lease := some ⟨1, 1, 0, 1, 0⟩ }) (grouped 0 pd)), by decide⟩,
   ⟨0, 0, st (grouped 0 pd), by decide⟩⟩

theorem witness_RallyTimersAct :
    (∃ (p k : Fin 8) (s : State), live s.dev = true ∧ (getGroup s.dev (8 * p + k)).loaded = true ∧ (getGroup s.dev (8 * p +
      k)).self ≠ 0) ∧
    (∃ (p k : Fin 8) (m : Nat) (s : State), live s.dev = true ∧ (getGroup s.dev (8 * p + k)).loaded = true ∧ ((m = ((getGroup
      s.dev (8 * p + k)).self + 1) % memberCount (getGroup s.dev (8 * p + k)) ∨ m = ((getGroup s.dev (8 * p + k)).self +
      memberCount (getGroup s.dev (8 * p + k)) - 1) % memberCount (getGroup s.dev (8 * p + k)))) ∧ m ≠ (getGroup s.dev (8 * p
      + k)).self ∧ (getPair (getGroup s.dev (8 * p + k)) m).heard = true) ∧
    (∃ (id : Nat) (st : RStep) (s : State), live s.dev = true ∧ stepOf s.dev id = some st ∧ st.left = 0 ∧ st.lateLeft = none) ∧
    (∃ (id : Nat) (st : RStep) (s : State), live s.dev = true ∧ stepOf s.dev id = some st ∧ st.lateLeft = some 0 ∧ (getGroup
      s.dev st.slot).self ≠ 0) ∧
    (∃ (id slot : Nat) (s : State), live s.dev = true ∧ ((List.range 64).find? fun k => (getGroup s.dev k).query.any fun q =>
      q.2.2 == id) = some slot) :=
  ⟨⟨0, 0, st (grouped 1 pd), by decide⟩,
   ⟨0, 0, 0, st (setPair 0 0 (fun x => { x with heard := true }) (grouped 1 pd)), by decide⟩,
   ⟨0, step0, st { grouped 1 pd with steps := [step0] }, rfl, rfl, rfl, rfl⟩,
   ⟨0, { step0 with lateLeft := some 0 }, st { grouped 1 pd with steps := [{ step0 with lateLeft := some 0 }] }, rfl, rfl,
     rfl, by decide⟩,
   ⟨0, 0, st (setGroup 0 (fun x => { x with query := some (0, 0, 0) }) (grouped 0 pd)), by decide⟩⟩

theorem witness_PartitionsAndScrubsAct :
    (∃ (i : Issuer) (v : Fin 8) (octants kb kc : Nat) (z : Bool) (p : Part) (s : State), holds i s.dev = true ∧ (getPart s.dev
      v).en = false ∧ (getPart s.dev v).live = false ∧ p =
      { getPart s.dev v with octants := BitVec.ofNat 8 octants, kdBase := kb, kdCount := kc, zeroFill := z }) ∧
    (∃ (v : Fin 8) (s : State), live s.dev = true ∧ (getPart s.dev v).en = true ∧ (getPart s.dev v).live = false) ∧
    (∃ (i : Issuer) (v : Fin 8) (s : State), holds i s.dev = true ∧ (getPart s.dev v).en = true ∧ (getPart s.dev v).live =
      true ∧ partIdle s.dev v = true ∧ resetting s.dev v = false) ∧
    (∃ (v : Fin 8) (s : State), live s.dev = true ∧ (getPart s.dev v).live = true ∧ (getPart s.dev v).releasing = true ∧
      (getPart s.dev v).en = false) ∧
    (∃ (o : Fin 8) (n : Nat) (s : State), live s.dev = true ∧ (getSht s.dev o).state = .scrubbing ∧ octVf s.dev o = none ∧
      (getStack s.dev o).rootValid = true ∧ octQuiet s.dev o = true ∧ n < 2) ∧
    (∃ (o : Fin 8) (n : Nat) (s : State), live s.dev = true ∧ (getSht s.dev o).state = .scrubbing ∧ octVf s.dev o = none ∧
      (getStack s.dev o).rootValid = true ∧ octQuiet s.dev o = true ∧ 2 ≤ n) ∧
    (∃ (o : Fin 8) (s : State), live s.dev = true ∧ (getSht s.dev o).state = .zeroFilling ∧ octVf s.dev o = none) :=
  ⟨⟨.host .pf, 7, 2, 4, 1, true, _, st hd, rfl, rfl, rfl, rfl⟩,
   ⟨1, st (setPart 1 (fun x => { x with en := true }) pd), by decide⟩,
   ⟨.porter, 0, st pd, by decide⟩,
   ⟨0, st (setPart 0 (fun x => { x with en := false, releasing := true }) pd), by decide⟩,
   ⟨7, 1, st (setSht 7 (fun x => { x with state := .scrubbing }) pd), by decide⟩,
   ⟨7, 2, st (setSht 7 (fun x => { x with state := .scrubbing }) pd), by decide⟩,
   ⟨1, st (setSht 1 (fun x => { x with state := .zeroFilling }) pd), by decide⟩⟩

theorem witness_ViewsAndFineTimingAct :
    (∃ (sum : Nat) (hot : Option Int) (s : State), live s.dev = true ∧ s.dev.pwr.lvDone = some (sum, hot)) ∧
    (∃ (i : Issuer) (s : State), holds i s.dev = true ∧ fineCheck s.dev = none) ∧
    (∃ (i : Issuer) (s : State), holds i s.dev = true) ∧
    (∃ (r : Reason) (s : State), holds .porter s.dev = true ∧ fineCheck s.dev = some r) :=
  ⟨⟨0, none, st (pw (fun x => { x with lvDone := some (0, none) }) pd), by decide⟩,
   ⟨.porter, st (setPart 0 (fun x => { x with octants := 0xFF }) pd), by decide⟩,
   ⟨.porter, st pd, by decide⟩,
   ⟨.fieldConflict, st pd, by decide⟩⟩

theorem witness_ChartersLoad :
    (∃ (v : Fin 8) (b : List Byte) (s : State), mailboxOpen s.dev = true ∧ charterCheck s.dev v b = none) ∧
    (∃ (v : Fin 8) (b : List Byte) (r : Reason) (s : State), mailboxOpen s.dev = true ∧ charterCheck s.dev v b = some r) ∧
    (∃ (s : State), mailboxOpen s.dev = true) ∧
    (∃ (v : Nat) (l : List Byte) (s : State), mailboxOpen s.dev = true ∧ s.dev.ptr.loading = some (v, l)) ∧
    (∃ (v : Nat) (l b : List Byte) (s : State), mailboxOpen s.dev = true ∧ s.dev.ptr.loading = some (v, l) ∧ charterCheck
      s.dev v (l ++ b) = none) ∧
    (∃ (s : State), mailboxOpen s.dev = true ∧ s.dev.ptr.loading = none) :=
  ⟨⟨0, charter, st pd, by decide⟩,
   ⟨0, [], .fieldRange, st pd, by decide⟩,
   ⟨st pd, by decide⟩,
   ⟨0, [], st (pt (fun x => { x with loading := some (0, []) }) pd), by decide⟩,
   ⟨0, [], charter, st (pt (fun x => { x with loading := some (0, []) }) pd), by decide⟩,
   ⟨st pd, by decide⟩⟩

theorem witness_PartiesDecide :
    (∃ (k n : Nat) (x : Session) (v : Fin 8) (dig : BitVec 384) (gen : Word) (s : State), live s.dev = true ∧ sessOf s.dev k =
      some x ∧ x.fn = 1 + v.val ∧ fnPresent s.dev (.vf v) = true ∧ charterParty (getCharter s.dev v) x = some n ∧ (getCharter
      s.dev v).state = .pending ∧ dig = (getCharter s.dev v).hash ∧ gen = s.dev.ret.generation ∧ (getCharter s.dev v).approved
      ||| partyBit n ≠ onDieMask (getCharter s.dev v).n) ∧
    (∃ (k n : Nat) (x : Session) (v : Fin 8) (dig : BitVec 384) (gen : Word) (s : State), live s.dev = true ∧ sessOf s.dev k =
      some x ∧ x.fn = 1 + v.val ∧ fnPresent s.dev (.vf v) = true ∧ charterParty (getCharter s.dev v) x = some n ∧ (getCharter
      s.dev v).state = .pending ∧ dig = (getCharter s.dev v).hash ∧ gen = s.dev.ret.generation ∧ (getCharter s.dev v).approved
      ||| partyBit n = onDieMask (getCharter s.dev v).n) ∧
    (∃ (k n : Nat) (x : Session) (v : Fin 8) (s : State), live s.dev = true ∧ sessOf s.dev k = some x ∧ x.fn = 1 + v.val ∧
      fnPresent s.dev (.vf v) = true ∧ charterParty (getCharter s.dev v) x = some n ∧ (getCharter s.dev v).state = .active) ∧
    (∃ (v : Fin 8) (s : State), live s.dev = true ∧ (getCharter s.dev v).withdrawing ≠ []) ∧
    (∃ (k g : Nat) (x : Session) (v : Fin 8) (s : State), live s.dev = true ∧ sessOf s.dev k = some x ∧ x.fn = 1 + v.val ∧
      fnPresent s.dev (.vf v) = true ∧ ((porterManaged s.dev = false ∨ charterParty (getCharter s.dev v) x = some 0)) ∧
      groupLoaded s.dev v g = false) :=
  ⟨⟨0, 0, sess 1 true, 0, 0, 1, st
    { (setCharter 0 (fun x => { x with n := 2 }) (inSess 1 true (chartered .pending pd))) with ret := { pd.ret with generation := 1 } },
    by decide⟩,
   ⟨0, 0, sess 1 true, 0, 0, 1, st
     { (setCharter 0 (fun x => { x with n := 1 }) (inSess 1 true (chartered .pending pd))) with ret := { pd.ret with generation := 1 } },
     by decide⟩,
   ⟨0, 0, sess 1 true, 0, st (inSess 1 true (chartered .active pd)), by decide⟩,
   ⟨0, st (setCharter 0 (fun x => { x with withdrawing := [party0] }) (chartered .active pd)), by decide⟩,
   ⟨0, 0, sess 1 true, 0, st (inSess 1 true (chartered .active pd)), by decide⟩⟩

theorem witness_WindowsAndPoolsAct :
    (∃ (i : Issuer) (v : Fin 8) (w : Fin 16) (s : State), holds i s.dev = true ∧ (getWin s.dev v w).en = false ∧ winCheck
      s.dev v w (getWin s.dev v w) = none) ∧
    (∃ (i : Issuer) (v : Fin 8) (w : Fin 16) (e : Reason × Nat) (s : State), holds i s.dev = true ∧ (getWin s.dev v w).en =
      false ∧ winCheck s.dev v w (getWin s.dev v w) = some e) ∧
    (∃ (i : Issuer) (s : State), holds i s.dev = true) ∧
    (∃ (v : Fin 8) (w : Fin 16) (s : State), live s.dev = true ∧ (getWin s.dev v w).live = true ∧ (getWin s.dev v w).en =
      false ∧ (∀ x ∈ s.dev.xfers, (xferOpen x && usesWin s.dev v w x) = false) ∧ (∀ o q, ringIn w (getQueue s.dev o q) =
      false)) ∧
    (∃ (f : Fn) (v : Fin 8) (w : Fin 16) (s : State), barAnswers s.dev f = true ∧ mayRearm s.dev f v = true ∧ (getWin s.dev v
      w).ring = false ∧ (getWin s.dev v w).en = true) ∧
    (∃ (v : Fin 8) (w : Fin 16) (s : State), live s.dev = true ∧ (getWin s.dev v w).rearm = true ∧ (getWin s.dev v w).live =
      true ∧ (s.dev.xfers.any fun x => xferOpen x && usesWin s.dev v w x) = false) ∧
    (∃ (i : Issuer) (n : Fin 64) (s : State), holds i s.dev = true ∧ (getPool s.dev n).en = false ∧ poolCheck s.dev n (getPool
      s.dev n) = none) ∧
    (∃ (i : Issuer) (n : Fin 64) (e : Reason × Nat) (s : State), holds i s.dev = true ∧ (getPool s.dev n).en = false ∧
      poolCheck s.dev n (getPool s.dev n) = some e) :=
  ⟨⟨.host .pf, 0, 0, st (setWin 0 0 (fun x => { x with size := 65536 }) (inSess 1 true hd)), by decide⟩,
   ⟨.host .pf, 0, 0, (.fieldRange, _), st hd, rfl, rfl, rfl⟩,
   ⟨.porter, st pd, by decide⟩,
   ⟨0, 0, st (setWin 0 0 (fun x => { x with live := true }) pd), rfl, rfl, rfl, (fun _ h => nomatch h), fun _ _ => rfl⟩,
   ⟨.vf 0, 0, 0, st (setWin 0 0 (fun x => { x with en := true }) pd), by decide⟩,
   ⟨0, 0, st (setWin 0 0 (fun x => { x with live := true, rearm := true }) pd), by decide⟩,
   ⟨.porter, 0, st pd, by decide⟩,
   ⟨.porter, 63, _, st pd, rfl, rfl, rfl⟩⟩

theorem witness_MailboxConfigures :
    (∃ (u : Nat) (s : State), mailboxOpen s.dev = true ∧ unitsCheck u = none ∧ periodCheck s.dev = none ∧ (getBlk s.dev
      0x10000).apply = false) ∧
    (∃ (s : State), mailboxOpen s.dev = true ∧ fineCheck s.dev = none) ∧
    (∃ (s : State), mailboxOpen s.dev = true) ∧
    (∃ (v : Fin 8) (w : DWord) (p : Part) (s : State), mailboxOpen s.dev = true ∧ (getPart s.dev v).en = false ∧ (getPart
      s.dev v).live = false ∧ bitAt w.toNat 24 = true ∧ p =
      { getPart s.dev v with octants := BitVec.ofNat 8 (bits w.toNat 0 8), kdBase := bits w.toNat 8 8, kdCount := bits w.toNat 16 7, zeroFill := bitAt w.toNat 23 }
      ∧ createCheck s.dev v p = none) ∧
    (∃ (v : Fin 8) (w : DWord) (s : State), mailboxOpen s.dev = true ∧ (getPart s.dev v).en = false ∧ (getPart s.dev v).live =
      false ∧ bitAt w.toNat 24 = false) ∧
    (∃ (v : Fin 8) (w : DWord) (s : State), mailboxOpen s.dev = true ∧ (getPart s.dev v).en = true ∧ (getPart s.dev v).live =
      true ∧ bitAt w.toNat 24 = false ∧ partIdle s.dev v = true ∧ resetting s.dev v = false) ∧
    (∃ (seq : Word) (o : Fin 8) (c : MgmtCmd) (r : Reason) (d : Dev) (s : State), mailboxOpen s.dev = true ∧ (getSeq s.dev
      o).mgmt = .none ∧ mgmtStart o false c (mboxTake 0x20 seq (natLe 1 o.val ++ mgmtBytes c) s.dev) = (.ended r, d)) ∧
    (∃ (seq : Word) (o : Fin 8) (c : MgmtCmd) (m : MgmtRun) (d : Dev) (s : State), mailboxOpen s.dev = true ∧ (getSeq s.dev
      o).mgmt = .none ∧ mgmtStart o false c (mboxTake 0x20 seq (natLe 1 o.val ++ mgmtBytes c) s.dev) = (.running m, d)) ∧
    (∃ (seq : Word) (gb slot : Nat) (p : Fin 8) (g : Nat) (ev : LineEvent) (h : List Byte) (ms : List (List Byte)) (d : Dev)
      (s : State), mailboxOpen s.dev = true ∧ readDesc (gb % 2 ^ 34 * 64) ev (setGbase gb (mboxTake 0x21 seq (natLe 1 1 ++
      natLe 1 p.val ++ natLe 2 g ++ natLe 8 gb) s.dev)) = (.ok (h, ms), d) ∧ loadRefusal d (gb % 2 ^ 34 * 64) h ms = none ∧
      (((List.range 8).map (8 * byteAt h 0xA + ·)).find? fun k => !(getGroup d k).loaded) = some slot) ∧
    (∃ (slot : Nat) (p : Fin 8) (g : Nat) (s : State), mailboxOpen s.dev = true ∧ findGroup s.dev p g = some slot ∧ groupNamed
      s.dev p g = false) ∧
    (∃ (v : Fin 8) (a b : Nat) (en : Bool) (s : State), mailboxOpen s.dev = true ∧ (getBlk s.dev 0x90000).apply = false ∧
      slotCheck s.dev (fun u => if u = v.val then packSlot a b en else (getSlot s.dev u).shadow) = none) ∧
    (∃ (v : Fin 8) (w : Fin 16) (db rb sz : Nat) (ring hw : Bool) (party : Nat) (pv : Bool) (m : Label) (ss : Nat) (x : Win)
      (s : State), mailboxOpen s.dev = true ∧ (getWin s.dev v w).en = false ∧ (getWin s.dev v w).live = false ∧ x =
      { getWin s.dev v w with dataBase := db, recordBase := rb, size := sz, ring := ring, hostWritten := hw, party := party, partyValid := pv, admitMask := m, session := ss }
      ∧ x ≠ getWin s.dev v w ∧ winCheck s.dev v w x = none) ∧
    (∃ (v : Fin 8) (w : Fin 16) (s : State), mailboxOpen s.dev = true ∧ (getWin s.dev v w).en = true) ∧
    (∃ (n : Fin 64) (w : DWord) (s : State), mailboxOpen s.dev = true ∧ porterManaged s.dev = false ∧ (getPool s.dev n).en =
      false ∧ bitAt w.toNat 21 = false) ∧
    (∃ (n : Fin 64) (w : DWord) (s : State), mailboxOpen s.dev = true ∧ porterManaged s.dev = false ∧ (getPool s.dev n).en =
      false ∧ bitAt w.toNat 21 = true ∧ poolCheck s.dev n (poolFields w.toNat (getPool s.dev n)) = none) :=
  ⟨⟨64, st pd, by decide⟩,
   ⟨st (setPart 0 (fun x => { x with octants := 0xFF }) pd), by decide⟩,
   ⟨st pd, by decide⟩,
   ⟨1, 0x1010402, _, st pd, rfl, rfl, rfl, rfl, rfl, rfl⟩,
   ⟨1, 0, st pd, by decide⟩,
   ⟨0, 0, st pd, by decide⟩,
   ⟨0, 0, .ctxStart 16, _, _, st pd, rfl, rfl, rfl⟩,
   ⟨0, 0, .ctxStart 0, _, _, st (chartered .active (ctx0 .stopped (run pd))), rfl, rfl, rfl⟩,
   ⟨0, 0, 0, 0, 1, .clean, desc, [bytes 32 [], bytes 32 []], _, st (described pd), by decide +kernel, rfl, by decide +kernel,
     by decide +kernel⟩,
   ⟨0, 0, 1, st (grouped 1 pd), by decide⟩,
   ⟨0, 100, 101, true, st pd, by decide⟩,
   ⟨0, 0, 0, 0, 1, false, false, 0, false, 0, 0, _, st (inSess 1 true pd), rfl, rfl, rfl, rfl, by decide⟩,
   ⟨0, 0, st (setWin 0 0 (fun x => { x with en := true }) pd), by decide⟩,
   ⟨63, 0, st hd, by decide⟩,
   ⟨63, 3932167, st (setPart 7 (fun x => { x with octants := 0x80, live := true }) hd), by decide⟩⟩

theorem witness_UpdatesAreStaged :
    (∃ (n : Nat) (s : State), updateOpen s.dev = true ∧ s.dev.ptr.stg.isOpen = false ∧ n ≤ 25165824) ∧
    (∃ (s : State), updateOpen s.dev = true ∧ s.dev.ptr.stg.isOpen = true) ∧
    (∃ (off : Nat) (bs : List Byte) (s : State), updateOpen s.dev = true ∧ s.dev.ptr.trial = false ∧ off + bs.length ≤
      s.dev.ptr.stg.length) ∧
    (∃ (i : SilImage) (b : Bool) (s : State), updateOpen s.dev = true ∧ silCheck s.dev.fuse (slotOf s.dev.flash
      (!s.dev.ptr.slot)) = .ok (i, b)) ∧
    (∃ (r : Reason) (s : State), updateOpen s.dev = true ∧ silCheck s.dev.fuse (slotOf s.dev.flash (!s.dev.ptr.slot)) = .error
      r) ∧
    (∃ (s : State), updateOpen s.dev = true ∧ s.dev.ptr.stg.staged = true ∧ s.dev.ptr.stg.switching = none) ∧
    (∃ (s : State), updateOpen s.dev = true) :=
  ⟨⟨25165824, st pd, by decide⟩,
   ⟨st (pt (fun x => { x with stg := { x.stg with isOpen := true } }) pd), by decide⟩,
   ⟨0, [], st pd, by decide⟩,
   ⟨_, _, st (flashed true pd), rfl, rfl⟩,
   ⟨.fieldRange, st pd, by decide⟩,
   ⟨st (pt (fun x => { x with stg := { x.stg with staged := true } }) pd), by decide⟩,
   ⟨st pd, by decide⟩⟩

theorem witness_LifecycleRequestsAct :
    (∃ (n : Nat) (s : State), mailboxOpen s.dev = true ∧ lcsCheck s.dev n = none ∧ n ≠ 4) ∧
    (∃ (s : State), mailboxOpen s.dev = true ∧ lcsCheck s.dev 4 = none) ∧
    (∃ (n : Nat) (r : Reason) (s : State), mailboxOpen s.dev = true ∧ lcsCheck s.dev n = some r) ∧
    (∃ (n : Nat) (s : State), barAnswers s.dev .pf = true ∧ porterManaged s.dev = false ∧ lcsCheck s.dev n = none ∧ n ≠ 4) ∧
    (∃ (s : State), mailboxOpen s.dev = true ∧ partsLive s.dev = []) ∧
    (∃ (s : State), mailboxOpen s.dev = true ∧ partsLive s.dev ≠ []) ∧
    (∃ (s : State), mailboxOpen s.dev = true ∧ lcsCount s.dev.fuse < 2 ∧ s.dev.fuse.opKey = none) ∧
    (∃ (s : State), mailboxOpen s.dev = true ∧ 2 ≤ lcsCount s.dev.fuse) :=
  ⟨⟨1, st { pd with part := [] }, by decide⟩,
   ⟨st pd, by decide⟩,
   ⟨2, .lifecycleDenied, st pd, by decide⟩,
   ⟨1, st { hd with part := [] }, by decide⟩,
   ⟨st { pd with part := [] }, by decide⟩,
   ⟨st pd, by decide⟩,
   ⟨st pd, by decide⟩,
   ⟨st { pd with fuse := { pd.fuse with lcs0 := 3, lcs1 := 3, lcs2 := 3 } }, by decide⟩⟩

theorem witness_KeysAndSwitchesAct :
    (∃ (s : State), mailboxOpen s.dev = true) ∧
    (∃ (o v : Fin 8) (a : ImageArgs) (sigs : List (List Byte)) (image : List Byte) (need : Nat) (s : State), mailboxOpen s.dev
      = true ∧ octVf s.dev o = some v.val ∧ partIdle s.dev v = true ∧ (getSeq s.dev o).mgmt = .none ∧ mgmtRange
      (.imageRegister a) = true ∧ imageCheck s.dev o a = none ∧ has8 s.dev.pkg.octReady o = true ∧ image = (((List.range
      9).filter fun c => bitAt a.mask c).map fun c => clusterImage s.dev o c a).headD [] ∧ ((∀ c < 9, bitAt a.mask c = true →
      clusterImage s.dev o c a = image)) ∧ need = (if (getCharter s.dev v).state = .none then 1 else (getCharter s.dev
      v).signers) ∧ need ≤ (signers s.dev v a image sigs).length) ∧
    (∃ (s : State), mailboxOpen s.dev = true) ∧
    (∃ (p : Fin 8) (r : SwitchReport) (f : Dev → Dev) (s : State), mailboxOpen s.dev = true ∧ f = (fun d =>
      { d with free := d.free + 1, ptr := { d.ptr with switchSess := put none p.val (some r) d.ptr.switchSess } }) ∧
      switchAttested (f s.dev) p = false) ∧
    (∃ (p : Fin 8) (r : SwitchReport) (f : Dev → Dev) (s : State), mailboxOpen s.dev = true ∧ f = (fun d =>
      { d with free := d.free + 1, ptr := { d.ptr with switchSess := put none p.val (some r) d.ptr.switchSess } }) ∧
      switchAttested (f s.dev) p = true) ∧
    (∃ (s : State), live s.dev = true) ∧
    (∃ (g : Nat) (s : State), mailboxOpen s.dev = true ∧ porterManaged s.dev = false ∧ ((List.range 8).any fun v =>
      groupLoaded s.dev v g) = false) :=
  ⟨⟨st pd, by decide⟩,
   ⟨0, 0, ⟨0, 0, 1, 0, 2⟩, [], [0, 0], 0, st (chartered .active pd), rfl, rfl, rfl, rfl, rfl, rfl, rfl, rfl, by decide, rfl,
     Nat.zero_le _⟩,
   ⟨st pd, by decide⟩,
   ⟨0, ⟨true, 0, []⟩, _, st pd, rfl, rfl, by decide⟩,
   ⟨0, ⟨true, 0, []⟩, _, st (pt (fun x => { x with switchRoots := [0] }) pd), rfl, rfl, by decide⟩,
   ⟨st pd, by decide⟩,
   ⟨1, st hd, by decide⟩⟩

theorem witness_SpdmRequestsAreAnswered :
    (∃ (f : Fn) (s : State), live s.dev = true ∧ fnPresent s.dev f = true) ∧
    (∃ (f : Fn) (off : Nat) (s : State), live s.dev = true ∧ fnPresent s.dev f = true ∧ off < (certChain s.dev).length) ∧
    (∃ (f : Fn) (s : State), live s.dev = true ∧ fnPresent s.dev f = true) ∧
    (∃ (f : Fn) (s : State), live s.dev = true ∧ fnPresent s.dev f = true ∧ s.dev.ptr.stg.switching = none ∧ ownResetting
      s.dev f = false) ∧
    (∃ (f : Fn) (s : State), live s.dev = true ∧ fnPresent s.dev f = true ∧ s.dev.ptr.stg.switching ≠ none) ∧
    (∃ (v : Fin 8) (s : State), live s.dev = true ∧ fnPresent s.dev (.vf v) = true ∧ s.dev.ptr.stg.switching = none ∧
      resetting s.dev v = true) ∧
    (∃ (f : Fn) (s : State), s.dev.pkg.phase = .recovery ∧ fnPresent s.dev f = true) ∧
    (∃ (f : Fn) (s : State), live s.dev = true ∧ fnPresent s.dev f = true) :=
  ⟨⟨.pf, st pd, by decide⟩,
   ⟨.pf, 0, st { pd with flash := { pd.flash with mem := [(0x10000, 1)] } }, rfl, rfl, by decide⟩,
   ⟨.pf, st pd, by decide⟩,
   ⟨.vf 7, st pd, by decide⟩,
   ⟨.vf 7, st (pt (fun x => { x with stg := { x.stg with switching := some .mbox } }) pd), by decide⟩,
   ⟨0, st (um (fun x => { x with l2 := 1 }) pd), by decide⟩,
   ⟨.pf, st (pk (fun x => { x with phase := .recovery }) pd), by decide⟩,
   ⟨.pf, st pd, by decide⟩⟩

theorem witness_SessionsAct :
    (∃ (f : Fn) (k : Nat) (s : State), live s.dev = true ∧ fnPresent s.dev f = true ∧ ((shareOf f).find? fun k => (look none k
      s.dev.ptr.sess).isNone) = some k) ∧
    (∃ (f : Fn) (s : State), live s.dev = true ∧ fnPresent s.dev f = true ∧ ((shareOf f).find? fun k => (look none k
      s.dev.ptr.sess).isNone) = none) ∧
    (∃ (k : Nat) (x : Session) (s : State), live s.dev = true ∧ look none k s.dev.ptr.sess = some x ∧ x.done = false ∧
      fnPresent s.dev (fnOf x.fn) = true) ∧
    (∃ (k : Nat) (x : Session) (s : State), live s.dev = true ∧ sessOf s.dev k = some x ∧ fnPresent s.dev (fnOf x.fn) = true) ∧
    (∃ (k : Nat) (d : Dev), ((d.ump.dumpState ≠ 3 ∨ d.ump.exportSess ≠ k))) :=
  ⟨⟨.pf, _, st pd, rfl, rfl, rfl⟩,
   ⟨.vf 0, st (pt (fun x => { x with sess := (List.range 18).map fun i => (16 + i, some (sess 1 false)) }) pd), by decide⟩,
   ⟨0, sess 1 false, st (inSess 1 false pd), by decide⟩,
   ⟨0, sess 1 true, st (inSess 1 true pd), by decide⟩,
   ⟨0, pd, by decide⟩⟩

theorem witness_DumpCommandsAct :
    (∃ (n : Nat) (d : Dev) (s : State), barAnswers s.dev .pf = true ∧ startDump 0 (BitVec.ofNat 8 n)
      { s.dev with ump := { s.dev.ump with dumpOcts := BitVec.ofNat 8 n } } = (true, d)) ∧
    (∃ (s : State), barAnswers s.dev .pf = true ∧ areaBusy s.dev = true ∧ s.dev.ump.overwrite = false) ∧
    (∃ (v : Fin 8) (s : State), barAnswers s.dev (.vf v) = true) ∧
    (∃ (o : Fin 8) (kind index : Nat) (s : State), live s.dev = true ∧ s.dev.ump.dumpState = 1 ∧ has8 s.dev.ump.dump.running o
      = true ∧ (dumpUnits s.dev o).contains (unitKey kind index) = true) ∧
    (∃ (o : Fin 8) (s : State), live s.dev = true ∧ s.dev.ump.dumpState = 1 ∧ has8 s.dev.ump.dump.running o = true ∧ clr8
      s.dev.ump.dump.running o ≠ 0) ∧
    (∃ (o : Fin 8) (s : State), live s.dev = true ∧ s.dev.ump.dumpState = 1 ∧ has8 s.dev.ump.dump.running o = true ∧ clr8
      s.dev.ump.dump.running o = 0 ∧ s.dev.ump.l2Wait = [] ∧ s.dev.ump.l3Wait = none) ∧
    (∃ (s : State), live s.dev = true ∧ s.dev.ump.dumpState = 1 ∧ s.dev.ump.l2Wait = [] ∧ s.dev.ump.l3Wait = none) ∧
    (∃ (s : State), barAnswers s.dev .pf = true ∧ exportCheck s.dev = none) ∧
    (∃ (r : Reason) (s : State), barAnswers s.dev .pf = true ∧ exportCheck s.dev = some r) ∧
    (∃ (o : Fin 8) (s : State), live s.dev = true ∧ s.dev.ump.dumpState = 3 ∧ has8 s.dev.ump.exporting o = true ∧
      s.dev.pkg.dlUp = true ∧ look false 0 s.dev.pkg.busMaster = true ∧ clr8 s.dev.ump.exporting o = 0) ∧
    (∃ (o : Fin 8) (s : State), live s.dev = true ∧ s.dev.ump.dumpState = 3 ∧ has8 s.dev.ump.exporting o = true) ∧
    (∃ (s : State), barAnswers s.dev .pf = true ∧ s.dev.ump.dumpState = 2) :=
  ⟨⟨1, _, st pd, rfl, rfl⟩,
   ⟨st (um (fun x => { x with dumpState := 1 }) pd), by decide⟩,
   ⟨0, st pd, by decide⟩,
   ⟨0, 3, 0, st (um (fun x => { x with dumpState := 1, dump := { x.dump with running := 1 } }) pd), by decide⟩,
   ⟨0, st (um (fun x => { x with dumpState := 1, dump := { x.dump with running := 3 } }) pd), by decide⟩,
   ⟨0, st (um (fun x => { x with dumpState := 1, dump := { x.dump with running := 1 } }) pd), by decide⟩,
   ⟨st (um (fun x => { x with dumpState := 1 }) pd), by decide⟩,
   ⟨st (um (fun x => { x with dumpState := 2, win2 := 1 }) (inSess 0 true pd)), by decide⟩,
   ⟨.notReady, st pd, by decide⟩,
   ⟨7, st (um (fun x => { x with dumpState := 3, exporting := 0x80 }) pd), by decide⟩,
   ⟨7, st (um (fun x => { x with dumpState := 3, exporting := 0x80 }) pd), by decide⟩,
   ⟨st (um (fun x => { x with dumpState := 2 }) pd), by decide⟩⟩

theorem witness_SmbusReadsAnswer :
    (∃ (s : State), powered s.dev = true) ∧
    (∃ (s : State), powered s.dev = true ∧ s.dev.pkg.phase ≠ .scrapped ∧ s.dev.ump.alert ≠ 0) ∧
    (∃ (s : State), (live s.dev = true ∨ s.dev.pkg.phase = .recovery)) ∧
    (∃ (s : State), live s.dev = true) :=
  ⟨⟨st pd, by decide⟩,
   ⟨st (um (fun x => { x with alert := 1 }) pd), by decide⟩,
   ⟨st pd, by decide⟩,
   ⟨st pd, by decide⟩⟩

theorem witness_SmbusCommandsAct :
    (∃ (n : Nat) (s : State), ((live s.dev = true ∨ s.dev.pkg.phase = .recovery)) ∧ s.dev.ump.stageBusy = false ∧
      s.dev.ptr.stg.isOpen = false ∧ n ≤ 25165824) ∧
    (∃ (off : Nat) (bs : List Byte) (s : State), ((live s.dev = true ∨ s.dev.pkg.phase = .recovery)) ∧ s.dev.ump.stageBusy =
      false ∧ 1 ≤ bs.length ∧ bs.length ≤ 240 ∧ off + bs.length ≤ s.dev.ptr.stg.length ∧ s.dev.ptr.trial = false) ∧
    (∃ (r : Reason) (s : State), ((live s.dev = true ∨ s.dev.pkg.phase = .recovery)) ∧ s.dev.ump.stageBusy = false ∧ silCheck
      s.dev.fuse (slotOf s.dev.flash (!s.dev.ptr.slot)) = .error r) ∧
    (∃ (i : SilImage) (b : Bool) (s : State), ((live s.dev = true ∨ s.dev.pkg.phase = .recovery)) ∧ s.dev.ump.stageBusy =
      false ∧ silCheck s.dev.fuse (slotOf s.dev.flash (!s.dev.ptr.slot)) = .ok (i, b)) ∧
    (∃ (s : State), ((live s.dev = true ∨ s.dev.pkg.phase = .recovery)) ∧ s.dev.ump.stageBusy = false ∧ s.dev.ptr.stg.staged =
      true ∧ s.dev.ptr.stg.switching = none) ∧
    (∃ (s : State), ((live s.dev = true ∨ s.dev.pkg.phase = .recovery)) ∧ s.dev.ump.stageBusy = false) ∧
    (∃ (s : State), live s.dev = true ∧ s.dev.ump.l3Wait = none ∧ s.dev.ump.auto = false) ∧
    (∃ (s : State), ((s.dev.pkg.phase = .l3 ∨ s.dev.pkg.phase = .l4))) :=
  ⟨⟨25165824, st pd, by decide⟩,
   ⟨0, [0], st (pt (fun x => { x with stg := { x.stg with length := 1 } }) pd), by decide⟩,
   ⟨.fieldRange, st pd, by decide⟩,
   ⟨_, _, st (flashed true pd), .inl rfl, rfl, rfl⟩,
   ⟨st (pt (fun x => { x with stg := { x.stg with staged := true } }) pd), by decide⟩,
   ⟨st pd, by decide⟩,
   ⟨st pd, by decide⟩,
   ⟨st (pk (fun x => { x with phase := .l3 }) pd), by decide⟩⟩

theorem witness_DebugCommandsAct :
    (∃ (s : State), powered s.dev = true) ∧
    (∃ (op : JtagOp) (s : State), powered s.dev = true ∧ debugState s.dev.ptr.lcsAtReset = false ∧ s.dev.ptr.lcsAtReset < 4 ∧
      op ≠ .idcode) ∧
    (∃ (s : State), powered s.dev = true ∧ debugState s.dev.ptr.lcsAtReset = true) ∧
    (∃ (s : State), powered s.dev = true ∧ debugState s.dev.ptr.lcsAtReset = true ∧ s.dev.pkg.phase ≠ .lockdown ∧
      s.dev.pkg.phase ≠ .tripped) ∧
    (∃ (s : State), live s.dev = true ∧ barAnswers s.dev .pf = true ∧ s.dev.ptr.debugOpen = true) ∧
    (∃ (clk item ctx : Nat) (d : Dev) (s : State), live s.dev = true ∧ barAnswers s.dev .pf = true ∧ s.dev.ptr.debugOpen =
      true ∧ dbgHalted s.dev = true ∧ (getCore s.dev (dbgCore s.dev)).item = some item ∧ (getCore s.dev (dbgCore s.dev)).ctx =
      some ctx ∧ d = setStream (dbgCore s.dev) (dbgStrm s.dev) (fun x => { x with halted := false }) (debugUsed s.dev) ∧
      streamReady d (dbgCore s.dev) (dbgStrm s.dev) clk = true ∧ issueClock d (dbgCore s.dev) clk = true) ∧
    (∃ (off : Nat) (s : State), barAnswers s.dev .pf = true ∧ s.dev.ptr.debugOpen = true ∧ dbgHalted s.dev = true ∧ off % 8 =
      0 ∧ off < 4608) :=
  ⟨⟨st pd, by decide⟩,
   ⟨.other, st (pt (fun x => { x with lcsAtReset := 2 }) pd), by decide⟩,
   ⟨st pd, by decide⟩,
   ⟨st pd, by decide⟩,
   ⟨st (pt (fun x => { x with debugOpen := true }) pd), by decide⟩,
   ⟨0, 0, 0, _, st (onCore (fun x => { x with live := true, halted := true }) (pt (fun x => { x with debugOpen := true })
     pd)), rfl, rfl, rfl, rfl, rfl, rfl, rfl, rfl, rfl⟩,
   ⟨4600, st (onCore (fun x => { x with halted := true }) (pt (fun x => { x with debugOpen := true }) pd)), by decide⟩⟩

theorem witness_ContextKillsAct :
    (∃ (f : Fn) (o : Fin 8) (c : Fin 16) (s : State), live s.dev = true ∧ barAnswers s.dev f = true ∧ mayReset s.dev f o =
      true ∧ (getCtx s.dev o c).state = .running) ∧
    (∃ (f : Fn) (o : Fin 8) (c : Fin 16) (s : State), live s.dev = true ∧ barAnswers s.dev f = true ∧ mayReset s.dev f o =
      true ∧ (getCtx s.dev o c).state = .stopped) ∧
    (∃ (f : Fn) (o : Fin 8) (c : Fin 16) (s : State), live s.dev = true ∧ barAnswers s.dev f = true ∧ mayReset s.dev f o =
      true ∧ (getCtx s.dev o c).state = .free) ∧
    (∃ (v o : Fin 8) (s : State), live s.dev = true ∧ barAnswers s.dev (.vf v) = true ∧ octVf s.dev o ≠ some v.val) ∧
    (∃ (o c : Nat) (d : Dev), (getCtx d o c).state = .running) ∧
    (∃ (o : Fin 8) (c : Fin 16) (u : UnitId) (s : State), live s.dev = true ∧ look 0 (16 * o.val + c.val) s.dev.ump.l0 = 1 ∧
      (getCtx s.dev o c).state = .faulted ∧ heldBy s.dev o c = [u] ∧ l1Covered s.dev u = false) :=
  ⟨⟨.vf 0, 0, 0, st (ctx0 .running pd), by decide⟩,
   ⟨.vf 0, 0, 0, st (ctx0 .stopped pd), by decide⟩,
   ⟨.vf 0, 0, 15, st pd, by decide⟩,
   ⟨1, 0, st pd, by decide⟩,
   ⟨0, 0, ctx0 .running pd, rfl⟩,
   ⟨0, 0, .sequencer 0, st (um (fun x => { x with l0 := [(0, 1)] }) (ctx0 .faulted pd)), by decide⟩⟩

theorem witness_UnitResetsAct :
    (∃ (f : Fn) (o : Fin 8) (e : Fin 2) (s : State), live s.dev = true ∧ barAnswers s.dev f = true ∧ mayReset s.dev f o = true
      ∧ l1Covered s.dev (.relay o e) = false ∧ (∀ x ∈ s.dev.xfers, (x.oct == o.val && x.eng == e.val) = false)) ∧
    (∃ (f : Fn) (o : Fin 8) (c : Fin 9) (k : Fin 64) (s : State), live s.dev = true ∧ barAnswers s.dev f = true ∧ mayReset
      s.dev f o = true ∧ clusterPresent s.dev c = true ∧ l1Covered s.dev (.core o c k) = false ∧ (getCore s.dev (coreNo o c
      k)).item = none) ∧
    (∃ (f : Fn) (u : UnitId) (s : State), live s.dev = true ∧ barAnswers s.dev f = true ∧ mayReset s.dev f (unitOct u) = true
      ∧ (unitCluster u).any (fun c => !clusterPresent s.dev c) = false ∧ l1Covered s.dev u = true) ∧
    (∃ (f : Fn) (u : UnitId) (s : State), live s.dev = true ∧ barAnswers s.dev f = true ∧ mayReset s.dev f (unitOct u) = true
      ∧ (unitCluster u).any (fun c => !clusterPresent s.dev c) = true) ∧
    (∃ (o : Fin 8) (s : State), live s.dev = true ∧ l1Covered s.dev (.sequencer o) = false) ∧
    (∃ (u : UnitId) (s : State), live s.dev = true ∧ s.dev.ump.l1.contains u = true ∧ (∀ o, u ≠ .sequencer o)) ∧
    (∃ (o : Fin 8) (s : State), live s.dev = true ∧ s.dev.ump.l1.contains (.sequencer o) = true ∧ nothingActive s.dev o =
      true) :=
  ⟨⟨.vf 0, 0, 0, st pd, rfl, rfl, rfl, rfl, fun _ h => nomatch h⟩,
   ⟨.vf 0, 0, 8, 63, st pd, by decide⟩,
   ⟨.pf, .rally 0, st (um (fun x => { x with l1 := [.rally 0] }) pd), by decide⟩,
   ⟨.pf, .cluster 0 8, st { pd with fuse := { pd.fuse with grade64 := true } }, by decide⟩,
   ⟨0, st pd, by decide⟩,
   ⟨.rally 0, st (um (fun x => { x with l1 := [.rally 0] }) pd), by decide⟩,
   ⟨0, st (um (fun x => { x with l1 := [.sequencer 0] }) pd), by decide⟩⟩

theorem witness_PartitionResetsAct :
    (∃ (v : Fin 8) (s : State), live s.dev = true ∧ barAnswers s.dev .pf = true ∧ (getPart s.dev v).live = true ∧ l2Covered
      s.dev v = false ∧ s.dev.ump.auto = false) ∧
    (∃ (v : Fin 8) (s : State), live s.dev = true ∧ barAnswers s.dev .pf = true ∧ (getPart s.dev v).live = true ∧ l2Covered
      s.dev v = true) ∧
    (∃ (v : Fin 8) (s : State), live s.dev = true ∧ barAnswers s.dev .pf = true ∧ (getPart s.dev v).live = false) ∧
    (∃ (v u : Fin 8) (s : State), live s.dev = true ∧ barAnswers s.dev (.vf u) = true ∧ u ≠ v) ∧
    (∃ (v : Nat), v < 8) ∧
    (∃ (v : Fin 8) (s : State), live s.dev = true ∧ has8 s.dev.ump.l2 v = true) :=
  ⟨⟨0, st pd, by decide⟩,
   ⟨0, st (um (fun x => { x with l2 := 1 }) pd), by decide⟩,
   ⟨7, st pd, by decide⟩,
   ⟨0, 1, st pd, by decide⟩,
   ⟨7, by decide⟩,
   ⟨0, st (um (fun x => { x with l2 := 1 }) pd), by decide⟩⟩

theorem witness_WarmResetsAct :
    (∃ (s : State), live s.dev = true ∧ barAnswers s.dev .pf = true ∧ s.dev.ump.l3Wait = none ∧ s.dev.ump.auto = false) ∧
    (∃ (v : Fin 8) (s : State), live s.dev = true ∧ barAnswers s.dev (.vf v) = true) ∧
    (∃ (s : State), live s.dev = true ∧ s.dev.ump.l3Wait = none ∧ s.dev.ump.auto = false) ∧
    (∃ (s : State), s.dev.pkg.phase = .l3) :=
  ⟨⟨st pd, by decide⟩,
   ⟨0, st pd, by decide⟩,
   ⟨st pd, by decide⟩,
   ⟨st (pk (fun x => { x with phase := .l3 }) pd), by decide⟩⟩

theorem witness_LevelsEscalate :
    (∃ (s : State), barAnswers s.dev .pf = true) ∧
    (∃ (v : Fin 8) (s : State), barAnswers s.dev (.vf v) = true) ∧
    (∃ (u : UnitId) (v : Nat) (s : State), live s.dev = true ∧ s.dev.ump.l1.contains u = true ∧ octVf s.dev (unitOct u) = some
      v ∧ l2Covered s.dev v = false ∧ s.dev.ump.auto = false) ∧
    (∃ (u : UnitId) (s : State), live s.dev = true ∧ s.dev.ump.l1.contains u = true ∧ octVf s.dev (unitOct u) = none ∧
      s.dev.ump.l3Wait = none ∧ s.dev.ump.auto = false) ∧
    (∃ (v : Fin 8) (s : State), live s.dev = true ∧ has8 s.dev.ump.l2 v = true ∧ s.dev.ump.l3Wait = none ∧ s.dev.ump.auto =
      false) ∧
    (∃ (s : State), s.dev.pkg.phase = .l3) :=
  ⟨⟨st pd, by decide⟩,
   ⟨0, st pd, by decide⟩,
   ⟨.rally 0, 0, st (um (fun x => { x with l1 := [.rally 0] }) pd), by decide⟩,
   ⟨.rally 1, st (um (fun x => { x with l1 := [.rally 1] }) pd), by decide⟩,
   ⟨0, st (um (fun x => { x with l2 := 1 }) pd), by decide⟩,
   ⟨st (pk (fun x => { x with phase := .l3 }) pd), by decide⟩⟩

theorem witness_LockdownZeroesKeys : ∃ (s : State), ((s.dev.pkg.phase = .running ∨ s.dev.pkg.phase = .recovery ∨
    s.dev.pkg.phase = .l3)) :=
  ⟨st pd, by decide⟩

theorem witness_StoppedDeviceKeepsNoKey : ∃ (s t : State), stopped s.dev = true ∧ holdsNoKey s.dev = true ∧ ((∀ (r :
    CheckResult) (rest : List Instr), s.pending = .powerOnBoot r :: rest → s.dev.pkg.phase ≠ .unpowered)) ∧ step s = .next t
    :=
  ⟨⟨Dev.reset, [.pwrgdFall]⟩, _, rfl, rfl, (fun _ _ h => nomatch h), rfl⟩

theorem witness_MgmtEncodingRoundTrips : ∃ (c : MgmtCmd), mgmtFits c = true :=
  ⟨.ctxCreate 255 0 65535, by decide⟩

theorem witness_ReservedBitsAreIgnored :
    (∃ (w : Wd) (i : Nat), (fieldMask w).testBit i = false) ∧
    (∃ (f : Fn) (off n : Nat) (v x : DWord) (w : Wd) (s : State), accessOk off n = true ∧ sight s.dev f (off / 8 * 8) = .shown
      w ∧ ((∀ i, i < 8 * n → (fieldMask w).testBit (8 * (off % 8) + i) = true → v.getLsbD i = x.getLsbD i))) :=
  ⟨⟨.glbMode, 63, by decide⟩,
   ⟨.pf, 0, 8, 0, 0, _, st pd, rfl, rfl, fun _ _ _ => rfl⟩⟩

theorem witness_FalsePredicateIssuesNothing : ∃ (o : Fin 8) (c : Fin 9) (k : Fin 64) (clk item ctx st : Nat) (b : Bundle) (s :
    State), live s.dev = true ∧ (getCore s.dev (coreNo o c k)).item = some item ∧ (getCore s.dev (coreNo o c k)).ctx = some
    ctx ∧ pickStream s.dev (coreNo o c k) clk = some st ∧ issueClock s.dev (coreNo o c k) clk = true ∧ fetchBundle (getCore
    s.dev (coreNo o c k)).icache (getStream s.dev (coreNo o c k) st).pc = some b ∧ bits b.header 0 8 = 0 ∧ predOf (getStream
    s.dev (coreNo o c k) st) (bundlePred b) = false ∧ (getStream s.dev (coreNo o c k) st).pc + b.size < (getCore s.dev (coreNo
    o c k)).icache.length :=
  ⟨0, 0, 0, 0, 0, 0, 0, _, st (setCore 0 (fun x => { x with icache := [0, 2, 0, 0] }) (onCore (fun x =>
    { x with live := true }) pd)), rfl, rfl, rfl, rfl, rfl, rfl, rfl, rfl, by decide⟩

theorem witness_FaultRecordsAreEntered :
    (∃ (r : FaultRec) (d : Dev) (v : Nat), ringsOpen d = true ∧ r.vf = some v) ∧
    (∃ (r : FaultRec) (d : Dev) (v : Nat), ringsOpen d = true ∧ r.vf ≠ some v) ∧
    (∃ (size : Nat) (g : Ring), size ≤ (g.producer + 65536 - g.consumer) % 65536) ∧
    (∃ (size : Nat) (g : Ring), (g.producer + 65536 - g.consumer) % 65536 < size) :=
  ⟨⟨{ recBase with vf := some 7 }, pd, 7, by decide⟩,
   ⟨recBase, pd, 7, by decide⟩,
   ⟨4096, { Ring.zero with producer := 4096 }, by decide⟩,
   ⟨4096, { Ring.zero with producer := 4095 }, by decide⟩⟩

theorem witness_MailboxAnswers :
    (∃ (d : Dev), barAnswers d .pf = true ∧ d.pkg.mailbox = true ∧ d.ptr.busy = true) ∧
    (∃ (s : State), barAnswers s.dev .pf = true ∧ s.dev.pkg.mailbox = true ∧ s.dev.ptr.busy = true) ∧
    (∃ (d : Dev), d.ptr.busy = true) ∧
    (∃ (d : Dev), d.ptr.busy = true ∧ d.ptr.discard = false) ∧
    (∃ (d : Dev), d.ptr.busy = true ∧ d.ptr.discard = true) :=
  ⟨⟨pt (fun x => { x with busy := true }) pd, by decide⟩,
   ⟨st (pt (fun x => { x with busy := true }) pd), by decide⟩,
   ⟨pt (fun x => { x with busy := true }) pd, by decide⟩,
   ⟨pt (fun x => { x with busy := true }) pd, by decide⟩,
   ⟨pt (fun x => { x with busy := true, discard := true }) pd, by decide⟩⟩

end Sys2Proof.Tests
end

/-!
SUPPORT. Encodings of management commands: a field of a command's 128 bytes is read back from the piece of the payload that was
written there (R6, R226, R227).
-/
namespace Sys2Proof.Proofs
open Sys2Proof.Machine Sys2Proof.Laws

/-! ## Fields of bytes that numbers spell -/

theorem natLe_take (n k x : Nat) (h : n ≤ k) : (natLe k x).take n = natLe n x := by
  induction n generalizing k x with
  | zero => simp [natLe]
  | succ n ih =>
    cases k with
    | zero => omega
    | succ k => simp [natLe, ih k (x / 256) (by omega)]

/-- The field at the start of a number's bytes is the number, where it fits. -/
@[simp] theorem field_natLe_append (k x n : Nat) (t : List Byte) (h : n ≤ k) (hx : x < 256 ^ n) :
    field (natLe k x ++ t) 0 n = x := by
  have hs : slice (natLe k x ++ t) 0 n = natLe n x := by
    simp [slice, List.take_append_of_le_length, natLe_length, natLe_take, h]
  rw [field, hs, leNat_natLe, Nat.mod_eq_of_lt hx]

@[simp] theorem field_natLe (k x n : Nat) (h : n ≤ k) (hx : x < 256 ^ n) : field (natLe k x) 0 n = x := by
  simpa using field_natLe_append k x n [] h hx

/-- A field past a number's bytes is a field of what follows them. -/
@[simp] theorem field_natLe_append_past (k x off n : Nat) (t : List Byte) (h : k ≤ off) :
    field (natLe k x ++ t) off n = field t (off - k) n := by
  unfold field slice
  rw [List.drop_append, List.drop_eq_nil_of_le (by simpa [natLe_length] using h), natLe_length, List.nil_append]

/-- A field that lies within the first m bytes does not see what cutting or padding to m bytes does. -/
theorem field_slice (l : List Byte) (m off n : Nat) (h : off + n ≤ m) : field (slice l 0 m) off n = field l off n := by
  have hs : slice (slice l 0 m) off n = slice l off n := by
    apply List.ext_getElem
    · simp [slice]
    · intro i hi _
      have hi : i < n := by simpa [slice] using hi
      grind [slice]
  rw [field, hs, field]

/-- The byte that holds a producer's VALID at bit 0 and its octant above it (R227) gives both back. -/
theorem producerByte (v : Bool) (o : Nat) (h : o < 8) :
    b2n v + 2 * o < 256 ∧ bitAt (b2n v + 2 * o) 0 = v ∧ bits (b2n v + 2 * o) 1 3 = o := by
  cases v <;> simp [b2n, bits, bitAt] <;> omega

/-! ## The bytes of a command -/

@[simp] theorem mgmtBytes_opcode (c : MgmtCmd) : field (mgmtBytes c) 0 1 = mgmtOpcode c := by
  have h : mgmtOpcode c < 256 ^ 1 := by cases c <;> simp [mgmtOpcode]
  rw [mgmtBytes, field_slice _ _ _ _ (by decide), field_natLe_append _ _ _ _ (by decide) h]

/-- From 0x20 on a command's bytes are its payload. -/
@[simp] theorem mgmtBytes_payload (c : MgmtCmd) (off n : Nat) (h : 32 ≤ off) (hn : off + n ≤ 128) :
    field (mgmtBytes c) off n = field (mgmtPayload c) (off - 32) n := by
  rw [mgmtBytes, field_slice _ _ _ _ hn, field_natLe_append_past _ _ _ _ _ h]

/-- The fields of a command's bytes are its operands, opcode by opcode. -/
theorem mgmtFields_mgmtBytes (c : MgmtCmd) (h : mgmtFits c = true) : mgmtFields (mgmtBytes c) = some c := by
  simp only [mgmtFields, mgmtBytes_opcode]
  cases c with
  -- VALID and the octant of a producer share a byte; every other operand has bytes of its own.
  | objConfig a =>
    simp only [mgmtFits, Bool.and_eq_true, decide_eq_true_eq] at h
    obtain ⟨hb, hv, ho⟩ := producerByte a.producerValid a.producerOctant (by omega)
    simp (disch := omega) [mgmtOpcode, mgmtPayload, hv, ho]
  | _ =>
    simp only [mgmtFits, Bool.and_eq_true, decide_eq_true_eq] at h
    simp (disch := omega) [mgmtOpcode, mgmtPayload]

/-- Settles O56: the fields are read back opcode by opcode, and the bytes are 128 in number. -/
theorem mgmtEncodingRoundTrips : Obligations.MgmtEncodingRoundTrips := by
  intro c h
  exact mgmtParse_of c (mgmtFields_mgmtBytes c h) (slice_id _)

end Sys2Proof.Proofs

/-!
SUPPORT. Accesses of the register map: what REGISTER_READ and REGISTER_WRITE do at a word that a function sees, at one where it
sees none, in the debug block and in BAR2 (R7 to R9, R383, R417, R424, R425, R429).
-/
namespace Sys2Proof.Proofs
open Sys2Proof.Machine Sys2Proof.Laws

/-- BAR0 ends before the offsets that name BAR2. -/
theorem bar0_not_bar2 {f : Fn} {off : Nat} (h : off < barSpan f) : ¬ bar2Base ≤ off := by
  cases f <;> simp only [barSpan, bar2Base] at h ⊢ <;> omega

/-- What a function sees of the debug block rests on the fuses, which no access changes. -/
theorem sight_pf_debugUsed (d : Dev) (a : Nat) : sight (tracked debugUsed d) .pf a = sight d .pf a := by
  simp [sight, wordHere, fusedBlock, debugUsed]

theorem dbgGate_outside {off : Nat} (h : off / 0x10000 ≠ 11) (f : Fn) (closed g : Dev → Dev) (d : Dev) :
    dbgGate f off closed g d = g d := by
  simp [dbgGate, h]

theorem dbgGate_closed {off : Nat} (h : off / 0x10000 = 11) {d : Dev} (hd : d.ptr.debugOpen = false) (closed g : Dev → Dev) :
    dbgGate .pf off closed g d = closed (tracked debugUsed d) := by
  simp [dbgGate, h, hd, debugUsed]

/-- Two meanings that agree wherever a function sees a word at an offset agree behind the gate of the debug block. -/
theorem dbgGate_congr {f : Fn} {off a : Nat} {w : Wd} {d : Dev} (hs : sight d f a = .shown w) (closed : Dev → Dev)
    {g k : Dev → Dev} (h : ∀ e, sight e f a = .shown w → g e = k e) :
    dbgGate f off closed g d = dbgGate f off closed k d := by
  unfold dbgGate
  split
  · next hf =>
    obtain ⟨rfl, -⟩ := hf
    simp only [h _ ((sight_pf_debugUsed d a).trans hs)]
  · exact h d hs

/-! ## Reads -/

theorem exec_registerRead {f : Fn} {s : State} (h : barAnswers s.dev f = true) (off n : Nat) :
    exec (.registerRead f off n) s = .next { s with dev := regRead f off n s.dev } := by
  show execRegisterRead f off n s = _
  simp only [execRegisterRead, h, if_true]

theorem exec_registerRead_refused {f : Fn} {s : State} (h : barAnswers s.dev f = false) (off n : Nat) :
    exec (.registerRead f off n) s = .next { s with dev := emit (.readRefused (fnIx f)) s.dev } := by
  show execRegisterRead f off n s = _
  simp only [execRegisterRead, h, Bool.false_eq_true, if_false]

/-- A read outside the debug block of a word that the function sees. -/
theorem regRead_shown {f : Fn} {off n : Nat} {w : Wd} {d : Dev} (hb : off < barSpan f) (hg : off / 0x10000 ≠ 11)
    (ha : accessOk off n = true) (hs : sight d f (off / 8 * 8) = .shown w) (hv : vacantHalf w off = false)
    (hc : stateClosed d w = false) :
    regRead f off n d = readWord f w off n d := by
  rw [regRead, if_neg (bar0_not_bar2 hb), if_neg (Nat.not_le.2 hb), dbgGate_outside hg]
  simp only [ha, hs, hv, hc, Bool.not_true, Bool.false_eq_true, if_false]

/-- A read outside the debug block where the function sees no register. -/
theorem regRead_vacant {f : Fn} {off n : Nat} {d : Dev} (hb : off < barSpan f) (hg : off / 0x10000 ≠ 11)
    (ha : accessOk off n = true) (hs : sight d f (off / 8 * 8) = .vacant) :
    regRead f off n d = readDropped f .fieldRange off n d := by
  rw [regRead, if_neg (bar0_not_bar2 hb), if_neg (Nat.not_le.2 hb), dbgGate_outside hg]
  simp only [ha, hs, Bool.not_true, Bool.false_eq_true, if_false]

/-- A read of the closed debug block (R425). -/
theorem regRead_debugClosed {off n : Nat} {d : Dev} (hg : off / 0x10000 = 11) (hd : d.ptr.debugOpen = false) :
    regRead .pf off n d = readDropped .pf .lifecycleDenied off n (tracked debugUsed d) := by
  have hb : off < barSpan .pf := by simp only [barSpan]; omega
  rw [regRead, if_neg (bar0_not_bar2 hb), if_neg (Nat.not_le.2 hb), dbgGate_closed hg hd]

theorem readWord_whole (f : Fn) (w : Wd) (off : Nat) (d : Dev) : readWord f w off 8 d = answer f (wordValue d f w) d := by
  simp [readWord]

/-- The low half of a 64-bit register: the high one is latched (R8). -/
theorem readWord_low {w : Wd} {off : Nat} (hw : shapeOf w = .whole) (h0 : off % 8 = 0) (f : Fn) (d : Dev) :
    readWord f w off 4 d = answer f (wordValue d f w % 2 ^ 32)
      (setLatch f (off + 4) (some (BitVec.ofNat 32 (wordValue d f w / 2 ^ 32))) d) := by
  simp [readWord, hw, h0]

/-- The high half of a 64-bit register with one latched: the latch answers and is emptied (R8). -/
theorem readWord_high {f : Fn} {w : Wd} {off : Nat} {h : Word} {d : Dev} (hw : shapeOf w = .whole) (h4 : off % 8 = 4)
    (hl : look none (latchKey f off) d.pkg.latch = some h) :
    readWord f w off 4 d = answer f h.toNat (setLatch f off none d) := by
  simp [readWord, hw, h4, hl]

theorem vacantHalf_whole {w : Wd} (h : shapeOf w = .whole) (off : Nat) : vacantHalf w off = false := by
  simp [vacantHalf, h]

/-! ## BAR2 -/

/-- A 32-bit read of BAR2 at a word of a vector's table entry. -/
theorem msixRead_entry {f : Fn} {v i : Nat} (hv : v < vectorsOf f) (hi : i < 4) (d : Dev) :
    msixRead f (16 * v + 4 * i) 4 d = answer f (msixWord (msixEnt d (fnIx f) v) i) d := by
  have h1 : (16 * v + 4 * i) / 16 = v := by omega
  have h2 : (16 * v + 4 * i) / 4 % 4 = i := by omega
  have h3 : (16 * v + 4 * i) % 4 = 0 := by omega
  simp [msixRead, msixRead32, h1, h2, h3, hv, answer]

theorem regRead_bar2 (f : Fn) (x n : Nat) (d : Dev) : regRead f (bar2Base + x) n d = msixRead f x n d := by
  simp [regRead]

/-- A vector with nothing pending has nothing to send. -/
theorem sendPending_none {fn v : Nat} {d : Dev} (h : (fn, v) ∉ d.pkg.msixPend) : sendPending fn v d = d := by
  simp [sendPending, h]

/-- A 32-bit write of BAR2 to a word of a vector's table entry, with nothing pending. -/
theorem msixWrite_entry {f : Fn} {v i : Nat} {d : Dev} (hv : v < vectorsOf f) (hi : i < 4) (hp : (fnIx f, v) ∉ d.pkg.msixPend)
    (x : Nat) : msixWrite f (16 * v + 4 * i) 4 x d =
      { d with pkg := { d.pkg with msixTab := alter MsixEnt.zero (256 * fnIx f + v) (msixPut i (x % 2 ^ 32)) d.pkg.msixTab } } := by
  have h1 : (16 * v + 4 * i) / 16 = v := by omega
  have h2 : (16 * v + 4 * i) / 4 % 4 = i := by omega
  have h3 : (16 * v + 4 * i) % 4 = 0 := by omega
  simp only [msixWrite, msixWrite32, h1, h2, h3]
  rw [sendPending_none (by exact hp)]
  simp [hv]

theorem regWrite_bar2 (f : Fn) (x n v : Nat) (d : Dev) : regWrite f (bar2Base + x) n v d = msixWrite f x n v d := by
  simp [regWrite]

/-! ## Writes -/

theorem exec_registerWrite {f : Fn} {s : State} (hl : live s.dev = true) (h : barAnswers s.dev f = true) (off n : Nat) (v : DWord) :
    exec (.registerWrite f off n v) s = .next { s with dev := settle (regWrite f off n v.toNat s.dev) } :=
  next_congr (whenBar_onBar hl h)

/-- A write to a word that a function sees outside the debug block goes field by field. -/
theorem regWrite_shown {f : Fn} {off n v : Nat} {w : Wd} {d : Dev} (hb : off < barSpan f) (hg : off / 0x10000 ≠ 11)
    (ha : accessOk off n = true) (hs : sight d f (off / 8 * 8) = .shown w) (hv : vacantHalf w off = false)
    (hc : stateClosed d w = false) (hr : w ≠ .resetReq) :
    regWrite f off n v d = tracked (fieldWrite { f := f, off := off, n := n, value := v } w) d := by
  rw [regWrite, if_neg (bar0_not_bar2 hb), if_neg (Nat.not_le.2 hb), dbgGate_outside hg]
  simp only [ha, hs, hv, hc, hr, Bool.not_true, Bool.false_eq_true, if_false]

theorem fieldWrite_taken {a : Acc} {w : Wd} {d : Dev} (ht : taken d a w ≠ []) (hr : refusedField d a w = none) :
    fieldWrite a w d = writeWord a w (imageOf d a w) (taken d a w) d := by
  obtain ⟨e, l, hw⟩ := taken_nil ht
  simp [fieldWrite, hw, hr, ht]

theorem fieldWrite_refused {a : Acc} {w : Wd} {d : Dev} {pos : Nat} {r : Reason} (ht : taken d a w = [])
    (hr : refusedField d a w = some (pos, r)) :
    fieldWrite a w d = dropLog a.f r (wordField (a.off / 8 * 8) w pos) a.off true d := by
  obtain ⟨e, l, hw⟩ := List.exists_cons_of_ne_nil fun h : writable a w = [] => by simp [refusedField, h] at hr
  simp [fieldWrite, hw, hr, ht]

/-! ## Reserved bits -/

/-- A write that differs from another in the reserved bits of a word alone does what the other does. -/
theorem regWrite_reserved {f : Fn} {off n : Nat} {v x : DWord} {w : Wd} {d : Dev} (ha : accessOk off n = true)
    (hs : sight d f (off / 8 * 8) = .shown w) (h : ∀ i, i < 8 * n → (fieldMask w).testBit (8 * (off % 8) + i) = true →
      v.getLsbD i = x.getLsbD i) :
    regWrite f off n v.toNat d = regWrite f off n x.toNat d := by
  have h2 : ¬ bar2Base ≤ off := by have := sight_shown_lt _ _ _ _ hs; unfold bar2Base; omega
  have hw : ∀ e, fieldWrite { f := f, off := off, n := n, value := v.toNat } w e =
      fieldWrite { f := f, off := off, n := n, value := x.toNat } w e := fun e =>
    fieldWrite_eq (sameFieldBits_of f off n v x w ha h) (sameFieldBits_bytes off n v x w ha h) e
  unfold regWrite
  rw [if_neg h2, if_neg h2]
  split
  · rfl
  · refine dbgGate_congr hs _ fun e he => ?_
    simp only [he, hw, tracked]

/-- Settles O57: the mask of a word's fields clears the other bits of what is read, and a write to a word that the function sees
goes by its fields alone. -/
theorem reservedBitsAreIgnored : Obligations.ReservedBitsAreIgnored := by
  refine ⟨fun d f w i h => ?_, fun f off n v x w s ha hs h => ⟨_, rfl, next_congr ?_⟩⟩
  · rw [wordValue, Nat.testBit_and, h, Bool.and_false]
  · unfold whenBar onBar
    rw [regWrite_reserved ha hs h]

/-! ## The device before power-on -/

theorem reset_holdsNoKey : holdsNoKey State.reset.dev = true := by
  simp [holdsNoKey, linkKeysGone, State.reset, Dev.reset, Retention.reset, Porter.reset]

/-! ## The statements of tier 1 -/

/-- Settles O14: each read meets the guards in their order, then the word's value, its latch, the drop log or the vector's entry. -/
theorem registerReadAnswers : Obligations.RegisterReadAnswers := by
  refine ⟨?whole, ?low, ?high, ?vacant, ?closed, ?refused, ?bar2⟩
  case whole =>
    intro f off w s hb ho hg ha hs hv hc
    rw [exec_registerRead hb, regRead_shown ho hg ha hs hv hc, readWord_whole]
    rfl
  case low =>
    intro f off w s hb ho hg ha h0 hs hw hc
    have hoff : off / 8 * 8 = off := Nat.div_mul_cancel (Nat.dvd_of_mod_eq_zero h0)
    rw [exec_registerRead hb, regRead_shown ho hg ha (hoff.symm ▸ hs) (vacantHalf_whole hw off) hc, readWord_low hw h0]
    rfl
  case high =>
    intro f off w h s hb ho hg ha h4 hs hw hc hl
    rw [exec_registerRead hb, regRead_shown ho hg ha hs (vacantHalf_whole hw off) hc, readWord_high hw h4 hl]
    rfl
  case vacant =>
    intro f off s hb ho hg ha hs
    rw [exec_registerRead hb, regRead_vacant ho hg ha hs]
    rfl
  case closed =>
    intro off n s hb hg hd
    rw [exec_registerRead hb, regRead_debugClosed hg hd]
    rfl
  case refused =>
    intro f off n s hb
    exact exec_registerRead_refused hb off n
  case bar2 =>
    intro f v i s hb hv hi
    rw [exec_registerRead hb, regRead_bar2, msixRead_entry hv hi]
    rfl

/-- Settles O15: each write meets the guards in their order, then the fields that it takes or the first that is refused. -/
theorem registerWriteTakes : Obligations.RegisterWriteTakes := by
  refine ⟨?taken, ?refused, ?silent, ?bar2⟩
  case taken =>
    intro f off n v w s hl hb ho hg ha hs hv hc hw ht hr
    rw [exec_registerWrite hl hb, regWrite_shown ho hg ha hs hv hc hw, tracked_congr _ _ _ (fieldWrite_taken ht hr)]
  case refused =>
    intro f off n v w pos r s hl hb ho hg ha hs hv hc hw ht hr
    rw [exec_registerWrite hl hb, regWrite_shown ho hg ha hs hv hc hw, tracked_congr _ _ _ (fieldWrite_refused ht hr)]
  case silent =>
    intro f off n v s hb
    exact next_congr (whenBar_silent _ _ _ hb)
  case bar2 =>
    intro f v i x s hl hb hv hi hp
    rw [exec_registerWrite hl hb, regWrite_bar2, msixWrite_entry hv hi hp]

/-- Settles O54: each table and register stands at its reset value, and a table that lists nothing reads as its default. -/
theorem resetHoldsNothing : Obligations.ResetHoldsNothing :=
  ⟨rfl, rfl, rfl, reset_holdsNoKey, rfl, rfl, rfl, rfl, rfl, rfl, rfl, rfl, rfl, rfl, rfl, rfl, rfl, rfl,
    fun _ => ⟨rfl, rfl⟩, fun _ => rfl⟩

end Sys2Proof.Proofs

/-!
SUPPORT. The configuration of blocks and the boundary of a tick: what a write of ENABLE or APPLY by the PF does, the copy of a
sealed shadow, the count of a boundary, the swap of a partition's plans and the flip of its versions (R26 to R34, R45 to R49, R149).
-/
namespace Sys2Proof.Proofs
open Sys2Proof.Machine Sys2Proof.Laws

/-! ## The boundary of a tick (R26, R27, R49) -/

theorem holdAlert_pkg (a b : Nat) (d : Dev) : (holdAlert a b d).pkg = d.pkg := by
  unfold holdAlert
  dsimp only
  repeat' split
  all_goals rfl

/-- The count of a boundary unmarks the vectors that have sent a message (R389). -/
theorem tickCount_msixSent (d : Dev) : (tickCount d).pkg.msixSent = [] := by
  simp only [tickCount, holdAlert_pkg]

theorem tickCount_tck (d : Dev) : (tickCount d).tck = { d.tck with
    count := d.tck.count + 1, hold := nextHold d.tck.hold d.tck.hottest, hottest := none, start := d.tck.start + tickUnits d
    now := max d.tck.now (d.tck.start + tickUnits d), heldLast := 0 < d.tck.hold
    heldCount := if 0 < d.tck.hold then (d.tck.heldCount + 1) % 65536 else d.tck.heldCount } := by
  simp only [tickCount, holdAlert_tck]

theorem exec_tickBoundary {s : State} (hl : live s.dev = true) (he : (getBlk s.dev 0x10000).enable = true) (env : TickEnv) :
    exec (.tickBoundary env) s = .next { s with dev := settle (tickBoundary env s.dev) } :=
  next_congr (by rw [settled_live _ _ hl, guarded_true _ _ _ he])

/-! ## The swap of plans (R29, R34) -/

/-- When every staged section passes, the swap takes each of them in turn. -/
theorem planSwap_passes {v : Nat} {ev : LineEvent} {rs : List (Nat × Except (Reason × Nat) Plan)} {d d₁ : Dev}
    (hp : (getPart d v).live = true) (hne : members8 (getPart d v).octants ≠ [])
    (ha : ∀ o ∈ members8 (getPart d v).octants, (getBlk d (seqBase o)).apply = true)
    (hs : sectionChecks v ev (members8 (getPart d v).octants) d = (rs, d₁)) (hl : live d₁ = true)
    (hok : ∀ e ∈ rs, ∃ p, e.2 = .ok p) :
    ∃ (g : Dev → Nat × Except (Reason × Nat) Plan → Dev) (d₂ : Dev),
      (∀ d o p, g d (o, .ok p) = swapOne o p d) ∧ planSwap v ev d = rs.foldl g d₂ := by
  have hall : (members8 (getPart d v).octants).all (fun o => (getBlk d (seqBase o)).apply) = true := List.all_eq_true.2 ha
  refine ⟨?each, ?cleared, ?passed, ?run⟩
  case run =>
    simp only [planSwap, hp, hall, List.isEmpty_iff, hne, hs, hl, Bool.not_true, Bool.false_eq_true, or_self, if_false]
    rfl
  case passed =>
    intro d o p
    refine if_neg ?_
    rw [Bool.not_eq_true, List.any_eq_false]
    intro e he
    obtain ⟨p, hp⟩ := hok e he
    simp [hp]

/-- The plan of every octant whose staged section passed is that section, at tick 0 of its cycle. -/
theorem planSwap_plan {v : Nat} {ev : LineEvent} {rs : List (Nat × Except (Reason × Nat) Plan)} {d d₁ : Dev}
    (hp : (getPart d v).live = true) (hne : members8 (getPart d v).octants ≠ [])
    (ha : ∀ o ∈ members8 (getPart d v).octants, (getBlk d (seqBase o)).apply = true)
    (hs : sectionChecks v ev (members8 (getPart d v).octants) d = (rs, d₁)) (hl : live d₁ = true)
    (hok : ∀ e ∈ rs, ∃ p, e.2 = .ok p) (o : Nat) (p : Plan) (h : (o, Except.ok p) ∈ rs) :
    (getSeq (planSwap v ev d) o).withdrawn = false ∧ (getSeq (planSwap v ev d) o).cycleTick = 0 ∧
      (getSeq (planSwap v ev d) o).plan = some p := by
  obtain ⟨g, d₂, hg, hw⟩ := planSwap_passes hp hne ha hs hl hok
  have hkeys : rs.map (·.1) = members8 (getPart d v).octants := by
    rw [← sectionChecks_keys v ev (members8 (getPart d v).octants) d, hs]
  have hn : (rs.map (·.1)).Nodup := hkeys ▸ members8_nodup _
  rw [hw]
  exact (swapFold rs g hg hok hn d₂).2 o p h

/-! ## The flip of versions (R149) -/

/-- A flip that some octant of the partition waits for takes effect on each of its octants. -/
theorem versionFlip_pending {v : Nat} {d : Dev} (hp : (getPart d v).live = true) (h2 : has8 d.ump.l2 v = false)
    (h : ∃ o ∈ members8 (getPart d v).octants, (getSeq d o).pendFlip ≠ 0) :
    versionFlip v d = (members8 (getPart d v).octants).foldl (fun d o => flipDone o d)
      ((members8 (getPart d v).octants).foldl (fun d o => flipOne o d) d) := by
  have hany : (members8 (getPart d v).octants).any (fun o => (getSeq d o).pendFlip != 0) = true := by simpa using h
  simp only [versionFlip, hp, h2, hany, Bool.not_false, and_self, if_true]

theorem versionFlip_seq {v : Nat} {d : Dev} (hp : (getPart d v).live = true) (h2 : has8 d.ump.l2 v = false)
    (h : ∃ o ∈ members8 (getPart d v).octants, (getSeq d o).pendFlip ≠ 0) (o : Nat)
    (ho : o ∈ members8 (getPart d v).octants) :
    (getSeq (versionFlip v d) o).active = (getSeq d o).active ^^^ (getSeq d o).pendFlip ∧
      (getSeq (versionFlip v d) o).pendFlip = 0 ∧ (getSeq (versionFlip v d) o).voted = (getSeq d o).voted := by
  rw [versionFlip_pending hp h2 h]
  obtain ⟨hact, hpend, hvote⟩ := flipDones_seq (members8 (getPart d v).octants)
    ((members8 (getPart d v).octants).foldl (fun d o => flipOne o d) d) o
  obtain ⟨kact, kpend, kvote⟩ := (flipFold _ (members8_nodup _) d).2 o ho
  exact ⟨hact.trans kact, hpend.trans kpend, hvote.trans kvote⟩

/-- Settles O13: the boundary's count is what its other steps keep, and the swap and the flip go octant by octant. -/
theorem boundariesTakeEffect : Obligations.BoundariesTakeEffect := by
  refine ⟨?boundary, tickCount_msixSent, ?swap, ?flip⟩
  case boundary =>
    intro env s hl he
    refine ⟨_, exec_tickBoundary hl he env, ?_⟩
    simp only [tickBoundary_tck, tickCount_tck, decide_eq_true_eq, and_self]
  case swap =>
    intro v ev rs d s hl hp hne ha hs hd hok
    exact ⟨_, next_congr (settled_live _ _ hl), planSwap_plan hp hne ha hs hd hok⟩
  case flip =>
    intro v s hl hp h2 h
    exact ⟨_, next_congr (settled_live _ _ hl), versionFlip_seq hp h2 h⟩

/-! ## ENABLE and APPLY written by the PF (R47, R48) -/

/-- What a function's BARs pass on and GENERATION counts goes by what it does at this device alone. -/
theorem whenBar_tracked {f : Fn} {g k : Dev → Dev} {d : Dev} (hb : barAnswers d f = true) (h : g d = k d) :
    whenBar f (tracked g) d = tracked k d := by
  rw [whenBar_answers _ _ _ hb, tracked_congr _ _ _ h]

theorem whenBar_onBar_tracked {f : Fn} {g k : Dev → Dev} {d : Dev} (hb : barAnswers d f = true) (h : g d = k d) :
    whenBar f (onBar (tracked g)) d = onBar (tracked k) d := by
  rw [whenBar_answers _ _ _ hb, onBar, onBar, tracked_congr _ _ _ h]

/-- A write by the PF that changes a field of BLK_CTRL, which it may, outside the debug block. -/
theorem ctrlWrite_pf {b : Block} {ch ro : Bool} {den : Option Reason} (hb : b ≠ .dbg) (hc : ch = true) (hr : ro = false)
    (hd : den = none) (pos : Nat) (g : Dev → Dev) (d : Dev) : ctrlWrite .pf b pos ch ro den g d = g d := by
  rw [hd, ctrlWrite_plain b pos ch ro g d hb hc hr]

theorem blockEnable_pf {b : Block} {d : Dev} (hb : b ≠ .dbg) (hr : enableRo b = false) (hd : enableDenied d .pf b = none)
    (h : (getBlk d (blkBase b)).enable = false) : blockEnable .pf b d = enableBlock b d :=
  ctrlWrite_pf hb (by rw [h]; rfl) hr hd _ _ _

theorem blockDisable_pf {b : Block} {d : Dev} (hb : b ≠ .dbg) (hr : enableRo b = false) (hd : enableDenied d .pf b = none)
    (h : (getBlk d (blkBase b)).enable = true) : blockDisable .pf b d = disableBlock b d :=
  ctrlWrite_pf hb h hr hd _ _ _

theorem applyRequest_pf {b : Block} {d : Dev} (hb : b ≠ .dbg) (h : (getBlk d (blkBase b)).apply = false) :
    applyRequest .pf b d = applySet b d :=
  ctrlWrite_pf hb (by rw [h]; rfl) rfl (applyDenied_pf b) _ _ _

theorem applyWithdraw_pf {b : Block} {d : Dev} (hb : b ≠ .dbg) (h : (getBlk d (blkBase b)).apply = true) :
    applyWithdraw .pf b d = applyClear b d :=
  ctrlWrite_pf hb h rfl (applyDenied_pf b) _ _ _

theorem enableBlock_passes {b : Block} {d : Dev} (h : blockCheck d b false = none) :
    enableBlock b d = setStatus (blkBase b) none (setBlk (blkBase b) (fun x => { x with enable := true }) d) := by
  rw [enableBlock, h]
  rfl

theorem enableBlock_fails {b : Block} {d : Dev} {r : Reason} {i : Nat} (h : blockCheck d b false = some (r, i)) :
    enableBlock b d = setStatus (blkBase b) (some (r, i)) (setBlk (blkBase b) (fun x => { x with enable := false }) d) := by
  rw [enableBlock, h]
  rfl

theorem blockDisabled_idle {b : Block} {d : Dev} (hs : (getBlk d (blkBase b)).stopping = true) (h : blockItems d b = 0) :
    blockDisabled b d = setBlk (blkBase b) (fun x => { x with enable := false, stopping := false }) d :=
  if_pos ⟨hs, h⟩

theorem blockDisabled_busy {b : Block} {d : Dev} (h : blockItems d b ≠ 0) : blockDisabled b d = d :=
  if_neg fun hd => h hd.2

theorem disableBlock_idle {b : Block} {d : Dev} (h : blockItems d b = 0) :
    disableBlock b d = setBlk (blkBase b) (fun x => { x with enable := false, stopping := false })
      (setBlk (blkBase b) (fun x => { x with stopping := true }) d) :=
  blockDisabled_idle (by rw [getBlk_setBlk]) h

theorem disableBlock_busy {b : Block} {d : Dev} (h : blockItems d b ≠ 0) :
    disableBlock b d = setBlk (blkBase b) (fun x => { x with stopping := true }) d :=
  blockDisabled_busy h

/-- Settles O11: a write of ENABLE that the PF may make runs the check, or waits for what is in flight. -/
theorem blockEnableAndDisable : Obligations.BlockEnableAndDisable := by
  refine ⟨?passes, ?fails, ?idle, ?busy, ?complete⟩
  case passes =>
    intro b s ha hr hb hd he hc
    exact next_congr (whenBar_onBar_tracked ha ((blockEnable_pf hb hr hd he).trans (enableBlock_passes hc)))
  case fails =>
    intro b r i s ha hr hb hd he hc
    exact next_congr (whenBar_onBar_tracked ha ((blockEnable_pf hb hr hd he).trans (enableBlock_fails hc)))
  case idle =>
    intro b s ha hr hb hd he h0
    exact next_congr (whenBar_tracked ha ((blockDisable_pf hb hr hd he).trans (disableBlock_idle h0)))
  case busy =>
    intro b s ha hr hb hd he h0
    exact next_congr (whenBar_tracked ha ((blockDisable_pf hb hr hd he).trans (disableBlock_busy h0)))
  case complete =>
    intro b s hl hs h0
    exact next_congr ((whenLive_live _ _ hl).trans (blockDisabled_idle hs h0))

/-! ## APPLY_COPY (R31, R47) -/

/-- No block's base but a sequencer's waits for the swap of its partition. -/
theorem planApply_blkBase {b : Block} (h : ∀ o, b ≠ .seq o) : planApply (blkBase b) = false := by
  rw [planApply, List.any_eq_false]
  intro k hk
  have hk : k < 8 := List.mem_range.1 hk
  cases b with
  | seq o => exact absurd rfl (h o)
  | clu o c => simp only [blkBase, cluBase, seqBase, beq_iff_eq]; omega
  | _ => simp only [blkBase, rleBase, seqBase, beq_iff_eq]; omega

/-- The first pending block clears APPLY, records its check and takes the shadow when that passes. -/
theorem applyCopy_first {b : Block} {d : Dev} (hs : ∀ o, b ≠ .seq o) (ha : (getBlk d (blkBase b)).apply = true)
    (he : earlierPending d (blkBase b) = false) :
    applyCopy b d = if (blockCheck d b true).isNone then
        applyLive b (setStatus (blkBase b) (blockCheck d b true) (setBlk (blkBase b) (fun x => { x with apply := false }) d))
      else setStatus (blkBase b) (blockCheck d b true) (setBlk (blkBase b) (fun x => { x with apply := false }) d) := by
  simp only [applyCopy, ha, planApply_blkBase hs, he, Bool.not_true, Bool.false_eq_true, or_self, if_false]

/-- Settles O12: APPLY is set, cleared or withdrawn at once, and the copy goes by the check of the sealed shadow. -/
theorem applyTakesTheShadow : Obligations.ApplyTakesTheShadow := by
  refine ⟨?sealed, ?disabled, ?withdraw, ?takes, ?keeps, fun _ => rfl, ?rle, ?clu⟩
  case sealed =>
    intro b s ha hb h0 he
    exact next_congr (whenBar_tracked ha ((applyRequest_pf hb h0).trans (if_pos he)))
  case disabled =>
    intro b s ha hb h0 he
    exact next_congr (whenBar_tracked ha ((applyRequest_pf hb h0).trans (if_neg (by simp [he]))))
  case withdraw =>
    intro b s ha hb h1
    exact next_congr (whenBar_tracked ha (applyWithdraw_pf hb h1))
  case takes =>
    intro b s hl hs ha he hc
    exact next_congr ((whenLive_live _ _ hl).trans
      (tracked_congr _ _ _ (by rw [applyCopy_first hs ha he, hc]; rfl)))
  case keeps =>
    intro b r i s hl hs ha he hc
    exact next_congr ((whenLive_live _ _ hl).trans
      (tracked_congr _ _ _ (by rw [applyCopy_first hs ha he, hc]; rfl)))
  case rle =>
    intro o d
    simp [applyLive, rwtCopy]
  case clu =>
    intro o c d
    simp [applyLive, rwtCopy]

end Sys2Proof.Proofs

/-!
SUPPORT. Cores and windows: what an issue, a load's return and the end of an MMA or of a vector syllable do to a core, and what a
window's start, its end and the slip bound do to the command of its plan (R36 to R42, R60 to R63, R94, R213, R278).
-/
namespace Sys2Proof.Proofs
open Sys2Proof.Machine Sys2Proof.Laws

/-! ## Cores (R37, R60, R61, R63, R94) -/

theorem issueBundle_picked {n clk item ctx st : Nat} {d : Dev} (hi : (getCore d n).item = some item)
    (hc : (getCore d n).ctx = some ctx) (hp : pickStream d n clk = some st) (hk : issueClock d n clk = true) :
    issueBundle n clk d = issueOn n st clk item ctx d := by
  simp only [issueBundle, hi, hc, hp, hk, if_true]

/-- A header whose low ten bits are 0 has no inconsistent field and names no predicate. -/
theorem header_plain {b : Bundle} (h : bits b.header 0 10 = 0) : bits b.header 0 8 = 0 ∧ bundlePred b = 0 := by
  simp only [bits, bundlePred] at h ⊢
  omega

/-- A bundle without syllables that names no predicate does nothing. -/
theorem execBundle_empty {b : Bundle} (h : bits b.header 0 10 = 0) (hs : b.slots = []) (i : IssueCtx) (img : List Byte)
    (d : Dev) : execBundle i img b d = d := by
  obtain ⟨hh, hp⟩ := header_plain h
  simp [execBundle, hh, hp, hs, predOf, inconsistent]

theorem issueOn_empty {n st clk item ctx : Nat} {b : Bundle} {d : Dev}
    (hf : fetchBundle (getCore d n).icache (getStream d n st).pc = some b) (h : bits b.header 0 10 = 0) (hs : b.slots = [])
    (hl : (getStream d n st).pc + b.size < (getCore d n).icache.length) :
    issueOn n st clk item ctx d = setStream n st (fun y => { y with
      pc := (getStream d n st).pc + b.size, lastIssue := some clk, busy := y.busy.filter fun e => clk < e.2 }) d := by
  simp [issueOn, hf, execBundle_empty h hs, hl]

theorem loadReturn_reg {n st index clk r : Nat} {l : LoadOp} {d : Dev} (hl : (getStream d n st).loads[index]? = some l)
    (hk : l.ready ≤ clk) (ht : l.target = .reg r) :
    loadReturn n st index clk d = setStream n st (writeSreg r (BitVec.ofNat 32 (leNat l.bytes)) l.label)
      (setStream n st (fun y => { y with loads := y.loads.eraseIdx index }) d) := by
  simp only [loadReturn, hl, loadWrite, ht, guarded, hk, decide_true, if_true]

theorem completeMma_running {n : Nat} {m : MmaOp} {d : Dev} (h : (getCore d n).mma = some m) :
    completeMma n d = setCore n (fun x => { x with
      mma := none, accLabel := alter 0 m.acc (fun l => if m.clr then m.label else l ||| m.label) x.accLabel })
      (writeTile n m.acc (mmaTile m (readTile d n m.acc)) d) := by
  simp only [completeMma, h]

theorem completeVec_oldest {n : Nat} {v : VecOp} {rest : List VecOp} {d : Dev} (h : (getCore d n).vec = v :: rest) :
    completeVec n d = completeVecOp n v (setCore n (fun x => { x with vec := rest }) d) := by
  simp only [completeVec, h]

/-- Settles O16: an issue goes by the stream that is picked, and each completion by the head of what is in flight. -/
theorem coreIssuesAndCompletes : Obligations.CoreIssuesAndCompletes := by
  refine ⟨?issue, ?empty, ?load, ?mma, ?vector⟩
  case issue =>
    intro o c k clk item ctx st s hl hi hc hp hk
    exact next_congr ((whenLive_live _ _ hl).trans (issueBundle_picked hi hc hp hk))
  case empty =>
    intro n st clk item ctx b d hf h hs hl
    exact issueOn_empty hf h hs hl
  case load =>
    intro o c k st index clk r l s hl hi hk ht
    exact next_congr ((whenLive_live _ _ hl).trans (loadReturn_reg hi hk ht))
  case mma =>
    intro o c k m s hl h
    exact next_congr ((whenLive_live _ _ hl).trans (completeMma_running h))
  case vector =>
    intro o c k v rest s hl h
    exact next_congr ((whenLive_live _ _ hl).trans (completeVec_oldest h))

/-! ## Windows (R36, R38, R39, R41, R42, R213) -/

/-- What a running device does while it meets lines goes by what it does with those lines in place. -/
theorem meeting_settled {ev : LineEvent} {f g : Dev → Dev} {d : Dev} (hl : live d = true)
    (h : f (withLine ev d) = g (withLine ev d)) :
    meeting ev (settled f) d = meeting ev (fun d => settle (g d)) d := by
  have hw : live (withLine ev d) = true := hl
  rw [meeting, meeting, settled_live _ _ hw, h]

/-- A window of the live plan that is due starts, and selects the command that it picks. -/
theorem windowStart_picks {o i : Nat} {p : Plan} {w : PlanWin} {c : Cmd} {d : Dev} (hp : (getSeq d o).plan = some p)
    (hw : p.wins[i]? = some w) (hd : (getSeq d o).withdrawn = false) (ht : w.tick = (getSeq d o).cycleTick)
    (hb : dispatches d (seqBase o) = true) (hn : i ∉ (getSeq d o).started) (hc : d.tck.now ≤ windowClock d w.start)
    (hk : w.kind ≠ 4)
    (hpick : windowPick (resumeXfers o w (advanceTo (windowClock d w.start)
      (setSeq o (fun q => { q with started := i :: q.started }) d))) o w = some c) :
    windowStart o i d = selectCmd w c.id (resumeXfers o w (advanceTo (windowClock d w.start)
      (setSeq o (fun q => { q with started := i :: q.started }) d))) := by
  have hstart : (getSeq d o).started.contains i = false := by simpa using hn
  have hclock : windowClock (setSeq o (fun q => { q with started := i :: q.started }) d) w.start = windowClock d w.start := rfl
  simp only [windowStart, hp, hw, hd, ht, hb, hstart, Nat.not_lt.2 hc, hk, hclock, hpick, ne_eq, not_true_eq_false,
    Bool.not_true, Bool.false_eq_true, or_self, if_false]

/-- An item whose planned end comes in its own tick and that has not retired is counted as an overrun (R39). -/
theorem windowEnd_overruns {id : Nat} {c : Cmd} {d : Dev} (hc : cmdById d id = some c)
    (hp : c.phase = .selected ∨ (c.phase = .active ∧ c.heldUntil = none)) (hr : c.retired = false) (he : c.endPassed = false)
    (hh : itemHalted d id = false) (hd : delayed d c = false) (ht : c.winTick = d.tck.count) :
    windowEnd id d = countOverrun c (advanceTo (clockAt d (plannedEnd d c)) d) := by
  have hrun : c.phase = .selected ∨ c.phase = .active := hp.imp_right And.left
  have hheld : ¬ (c.phase = .active ∧ c.heldUntil.isSome ∧ cmdOpcode c.raw = 3) := by
    rintro ⟨ha, hs, -⟩
    obtain h | ⟨-, h⟩ := hp
    · simp [ha] at h
    · simp [h] at hs
  have hh' : itemHalted (advanceTo (clockAt d (plannedEnd d c)) d) id = false := hh
  have hd' : delayed (advanceTo (clockAt d (plannedEnd d c)) d) c = false := hd
  simp only [windowEnd, hc, ht, hheld, hrun, hr, he, hh', hd', if_true, if_false, Bool.not_false, and_self]

theorem countOverrun_within {c : Cmd} {d : Dev} (h : (getCtx d c.oct c.ctx).overruns < d.ump.limit.live) :
    countOverrun c d = setCtx c.oct c.ctx (fun x => { x with overruns := x.overruns + 1 })
      (setCmd c.id (fun x => { x with endPassed := true }) d) := by
  refine if_neg (Nat.not_lt.2 ?_)
  rw [getCtx_setCtx]
  exact h

/-- An item that is still not retired at the second boundary faults its context, when no wait is the reason instead (R42, R221). -/
theorem slipExpiry_faults {id : Nat} {c : Cmd} {d : Dev} (hc : cmdById d id = some c)
    (hp : c.phase = .selected ∨ c.phase = .active) (hr : c.retired = false) (hh : itemHalted d id = false)
    (hd : delayed d c = false) (hs : (getCtx d c.oct c.ctx).state ≠ .faulted) (ht : endTick d c + 2 ≤ d.tck.count)
    (hw : expiredWait d c.oct c.ctx = none) (hx : ∀ e ∈ d.stream, ∀ a b t, e.2.wait ≠ .hwait a b t 0) :
    slipExpiry id d = faultCtx c.oct c.ctx .tickOverrun (overrunRec d c 1) true d := by
  -- the context is not FAULTED (hs), so the bound has come from the second boundary on
  simp only [slipExpiry, hc, hw]
  rw [if_pos ⟨hp, by simp [hr], decide_eq_true ht, by simp [hh], by simp [hd]⟩]
  split
  · next e he =>
    -- the stream found would wait at a deadline that has come
    have hexp := List.find?_some he
    split at hexp
    · next heq => exact absurd heq (hx e (List.mem_of_find?_eq_some he) _ _ _)
    · cases hexp
  · rfl

/-- Settles O18: each event of a window meets its guards in their order, and then its one effect. -/
theorem windowsSelectAndBound : Obligations.WindowsSelectAndBound := by
  refine ⟨?start, ?counted, ?bound⟩
  case start =>
    intro o i ev p w c s hl hp hw hd ht hb hn hc hk hpick
    exact next_congr (meeting_settled hl (windowStart_picks (d := withLine ev s.dev) hp hw hd ht hb hn hc hk hpick))
  case counted =>
    intro id c s hl hc hp hr he hh hd ht ho
    exact next_congr ((settled_live _ _ hl).trans
      (congrArg _ ((windowEnd_overruns hc hp hr he hh hd ht).trans (countOverrun_within ho))))
  case bound =>
    intro id c s hl hc hp hr hh hd hs ht hw hx
    exact next_congr ((settled_live _ _ hl).trans (congrArg _ (slipExpiry_faults hc hp hr hh hd hs ht hw hx)))

end Sys2Proof.Proofs

/-!
SUPPORT. A bundle that issues nothing, and streams that meet at a barrier or end: what a false predicate leaves of an issue, and
what FENCE_COMPLETE, STREAM_END, XSYNC_COMPLETE and CBAR_COMPLETE do (R37, R67, R76, R77, R174, R278, R280).
-/
namespace Sys2Proof.Proofs
open Sys2Proof.Machine Sys2Proof.Laws

/-! ## A bundle under a false predicate (R67) -/

/-- p0 reads as true, so a false predicate is another (R52). -/
theorem predOf_false_ne_zero {x : Stream} {p : Nat} (h : predOf x p = false) : p ≠ 0 := by
  rintro rfl
  cases h

/-- A consistent bundle under a false predicate adds the predicate's label to the control label, whatever its syllables. -/
theorem execBundle_falsePredicate {i : IssueCtx} {b : Bundle} (h : bits b.header 0 8 = 0)
    (hp : predOf i.x (bundlePred b) = false) (img : List Byte) (d : Dev) :
    execBundle i img b d = onStream i (fun y => { y with ctl := y.ctl ||| plab i.x (bundlePred b) }) d := by
  simp [execBundle, h, hp, predOf_false_ne_zero hp]

theorem issueOn_falsePredicate {n st clk item ctx : Nat} {b : Bundle} {d : Dev}
    (hf : fetchBundle (getCore d n).icache (getStream d n st).pc = some b) (h : bits b.header 0 8 = 0)
    (hp : predOf (getStream d n st) (bundlePred b) = false)
    (hl : (getStream d n st).pc + b.size < (getCore d n).icache.length) :
    issueOn n st clk item ctx d = setStream n st (fun y => { y with
      ctl := y.ctl ||| plab (getStream d n st) (bundlePred b) })
      (setStream n st (fun y => { y with
        pc := (getStream d n st).pc + b.size, lastIssue := some clk, busy := y.busy.filter fun e => clk < e.2 }) d) := by
  simp only [issueOn, hf]
  rw [execBundle_falsePredicate h (by exact hp)]
  -- the next bundle lies within the image, so the issue does not run off its end
  exact if_neg (by simp [onStream, hl])

/-- Settles O58: the picked stream moves past the bundle, and its predicate alone is seen. -/
theorem falsePredicateIssuesNothing : Obligations.FalsePredicateIssuesNothing := by
  intro o c k clk item ctx st b s hl hi hc hpick hk hf h hp hlen
  exact next_congr ((whenLive_live _ _ hl).trans
    ((issueBundle_picked hi hc hpick hk).trans (issueOn_falsePredicate hf h hp hlen)))

/-! ## FENCE_COMPLETE and STREAM_END (R37, R76, R174, R222, R280) -/

theorem fenceComplete_releases {n st scopes : Nat} {d : Dev} (hw : (getStream d n st).wait = .fence scopes)
    (h : fenceHolds (getStream d n st) scopes = true) :
    fenceComplete n st d = setStream n st (fun y => { y with wait := .none }) d := by
  simp only [fenceComplete, hw, h, if_true]

/-- A stream with nothing outstanding ends, and its item goes by the streams that take part in it. -/
theorem streamEnd_ends {n st id : Nat} {d e : Dev} (he : e = setStream n st (fun y => { y with live := false, wait := .none }) d)
    (hv : (getStream d n st).live = true) (hw : (getStream d n st).wait = .ending) (hl : (getStream d n st).loads = [])
    (hi : (getCore d n).item = some id) :
    streamEnd n st d = if (itemStreams e id).all fun x => !(getStream e x.1 x.2).live then endLaunch id e else e := by
  have hitem : (getCore e n).item = some id := he ▸ hi
  simp only [streamEnd, hv, hw, hl, List.isEmpty_nil, ← he, hitem, and_self, if_true]

theorem endLaunch_done {id : Nat} {c : Cmd} {d : Dev} (hc : cmdById d id = some c) (he : c.errEnd = none)
    (hh : holdNeeded d c = false) :
    endLaunch id d = finish id .done .ok (slotInfo c) false (freeCores id (retireItem id d)) := by
  simp only [endLaunch, hc, he, hh, Bool.false_and, Bool.false_eq_true, if_false]

/-! ## Barriers (R77, R278) -/

/-- Of m streams, given by place, those that take part in an item. -/
def takingPart (place : Nat → Nat × Nat) (m : Nat) (d : Dev) : List (Nat × Nat) :=
  ((List.range m).filter fun j => (getStream d (place j).1 (place j).2).part).map place

/-- The barrier of a kind over the streams of m places: it is met when one waits there and each waits there or has ended. -/
def meetAt (w : StreamWait) (place : Nat → Nat × Nat) (m : Nat) (d : Dev) : Dev :=
  if ((takingPart place m d).any fun e => (getStream d e.1 e.2).wait == w) &&
      (takingPart place m d).all fun e => arrivedAt w (getStream d e.1 e.2) then
    releaseBarrier w (takingPart place m d) d
  else d

theorem xsyncComplete_eq_meetAt (n : Nat) (d : Dev) : xsyncComplete n d = meetAt .xsync (fun st => (n, st)) 2 d := rfl

theorem cbarComplete_eq_meetAt (o c st : Nat) (d : Dev) :
    cbarComplete o c st d = meetAt .cbar (fun k => (coreNo o c k, st)) 64 d := by
  simp only [cbarComplete, meetAt, takingPart, List.filter_map]
  rfl

theorem mem_takingPart {place : Nat → Nat × Nat} {m : Nat} {d : Dev} {e : Nat × Nat} :
    e ∈ takingPart place m d ↔ (∃ j < m, place j = e) ∧ (getStream d e.1 e.2).part = true := by
  simp only [takingPart, List.mem_map, List.mem_filter, List.mem_range]
  constructor
  · rintro ⟨j, ⟨hj, hp⟩, rfl⟩
    exact ⟨⟨j, hj, rfl⟩, hp⟩
  · rintro ⟨⟨j, hj, rfl⟩, hp⟩
    exact ⟨j, ⟨hj, hp⟩, rfl⟩

theorem takingPart_nodup {place : Nat → Nat × Nat} (hp : place.Injective) (m : Nat) (d : Dev) :
    (takingPart place m d).Nodup :=
  (List.nodup_range.filter _).map hp

theorem takingPart_ctl (place : Nat → Nat × Nat) (m : Nat) (d : Dev) :
    (takingPart place m d).map (fun e => (getStream d e.1 e.2).ctl) =
      ((List.range m).filter fun j => (getStream d (place j).1 (place j).2).part).map fun j =>
        (getStream d (place j).1 (place j).2).ctl :=
  List.map_map

/-- A barrier that is met releases the streams that take part. -/
theorem meetAt_met {w : StreamWait} {place : Nat → Nat × Nat} {m : Nat} {d : Dev}
    (hany : ∃ e ∈ takingPart place m d, (getStream d e.1 e.2).wait = w)
    (hall : ∀ e ∈ takingPart place m d, (getStream d e.1 e.2).wait = w ∨ (getStream d e.1 e.2).live = false) :
    meetAt w place m d = releaseBarrier w (takingPart place m d) d := by
  refine if_pos (Bool.and_eq_true_iff.2 ⟨List.any_eq_true.2 ?_, List.all_eq_true.2 fun e he => ?_⟩)
  · simpa using hany
  · simpa [arrivedAt] using hall e he

/-- A release gives each listed stream the union of the control labels, ends its wait there, and leaves every other stream. -/
theorem getStream_releaseBarrier {l : List (Nat × Nat)} (hs : ∀ e ∈ l, e.2 < 2) (hn : l.Nodup) (w : StreamWait) (d : Dev)
    (n : Nat) {i : Nat} (hi : i < 2) :
    getStream (releaseBarrier w l d) n i = if (n, i) ∈ l then { getStream d n i with
        wait := if (getStream d n i).wait = w then .none else (getStream d n i).wait
        ctl := unionAll (l.map fun e => (getStream d e.1 e.2).ctl) }
      else getStream d n i :=
  release_fold _ l hs hn d n i hi

/-- The streams after a barrier is met. -/
theorem getStream_meetAt {w : StreamWait} {place : Nat → Nat × Nat} {m : Nat} {d : Dev} (hp : place.Injective)
    (hs : ∀ j < m, (place j).2 < 2) (hm : meetAt w place m d = releaseBarrier w (takingPart place m d) d)
    (n : Nat) {i : Nat} (hi : i < 2) :
    getStream (meetAt w place m d) n i = if (∃ j < m, place j = (n, i)) ∧ (getStream d n i).part = true then
        { getStream d n i with
          wait := if (getStream d n i).wait = w then .none else (getStream d n i).wait
          ctl := unionAll (((List.range m).filter fun j => (getStream d (place j).1 (place j).2).part).map fun j =>
            (getStream d (place j).1 (place j).2).ctl) }
      else getStream d n i := by
  have hlt : ∀ e ∈ takingPart place m d, e.2 < 2 := fun e he => by
    obtain ⟨⟨j, hj, rfl⟩, -⟩ := mem_takingPart.1 he
    exact hs j hj
  rw [hm, getStream_releaseBarrier hlt (takingPart_nodup hp m d) w d n hi, takingPart_ctl]
  exact if_congr mem_takingPart rfl rfl

theorem meetAt_frame {w : StreamWait} {place : Nat → Nat × Nat} {m : Nat} {d : Dev}
    (hm : meetAt w place m d = releaseBarrier w (takingPart place m d) d) :
    meetAt w place m d = { d with stream := (meetAt w place m d).stream } := by
  rw [hm]
  exact releaseBarrier_frame _ _ _

/-- The stream of a core that an index below 2 names (R37). -/
theorem exists_strmIx {j : Nat} (h : j < 2) : ∃ st, strmIx st = j := by
  obtain rfl | rfl : j = 0 ∨ j = 1 := by omega
  · exact ⟨.F, rfl⟩
  · exact ⟨.B, rfl⟩

theorem strmIx_lt (st : Strm) : strmIx st < 2 := by cases st <;> decide

/-- Both streams of a core are met when one that takes part waits at XSYNC and no other has yet to come. -/
theorem xsync_met {n : Nat} {d : Dev} (hany : ∃ st, (getStream d n (strmIx st)).part = true ∧
      (getStream d n (strmIx st)).wait = .xsync)
    (hall : ∀ st, (getStream d n (strmIx st)).part = true →
      (getStream d n (strmIx st)).wait = .xsync ∨ (getStream d n (strmIx st)).live = false) :
    meetAt .xsync (fun j => (n, j)) 2 d = releaseBarrier .xsync (takingPart (fun j => (n, j)) 2 d) d := by
  obtain ⟨st, hp, hw⟩ := hany
  refine meetAt_met ⟨(n, strmIx st), mem_takingPart.2 ⟨⟨_, strmIx_lt st, rfl⟩, hp⟩, hw⟩ fun e he => ?_
  obtain ⟨⟨j, hj, rfl⟩, hp⟩ := mem_takingPart.1 he
  obtain ⟨st, rfl⟩ := exists_strmIx hj
  exact hall st hp

/-- The streams of a cluster's cores are met when one that takes part waits at CBAR and no other has yet to come. -/
theorem cbar_met {o c i : Nat} {d : Dev} (hany : ∃ k : Fin 64, (getStream d (coreNo o c k) i).part = true ∧
      (getStream d (coreNo o c k) i).wait = .cbar)
    (hall : ∀ k : Fin 64, (getStream d (coreNo o c k) i).part = true →
      (getStream d (coreNo o c k) i).wait = .cbar ∨ (getStream d (coreNo o c k) i).live = false) :
    meetAt .cbar (fun k => (coreNo o c k, i)) 64 d =
      releaseBarrier .cbar (takingPart (fun k => (coreNo o c k, i)) 64 d) d := by
  obtain ⟨k, hp, hw⟩ := hany
  refine meetAt_met ⟨(coreNo o c k, i), mem_takingPart.2 ⟨⟨_, k.isLt, rfl⟩, hp⟩, hw⟩ fun e he => ?_
  obtain ⟨⟨j, hj, rfl⟩, hp⟩ := mem_takingPart.1 he
  exact hall ⟨j, hj⟩ hp

theorem coreNo_place_injective (o c i : Nat) : (fun k => (coreNo o c k, i)).Injective := fun a b h => by
  simpa [coreNo] using h

/-- Settles O17: a fence and an end go by the one stream, and each barrier by the streams that take part in it. -/
theorem streamsMeetAndEnd : Obligations.StreamsMeetAndEnd := by
  refine ⟨?fence, ?ends, fun id c d hc he hh => endLaunch_done hc he hh, ?xsync, ?cbar⟩
  case fence =>
    intro o c k st scopes s hl hw h
    exact next_congr ((whenLive_live _ _ hl).trans (fenceComplete_releases hw h))
  case ends =>
    intro o c k st id s hl hv hw hload hi
    refine ⟨_, rfl, fun hlast => ?_, fun hmore => ?_⟩
    · exact next_congr ((settled_live _ _ hl).trans (congrArg _ ((streamEnd_ends rfl hv hw hload hi).trans
        (if_pos (by simpa using hlast)))))
    · exact next_congr ((settled_live _ _ hl).trans (congrArg _ ((streamEnd_ends rfl hv hw hload hi).trans
        (if_neg (by simpa using hmore)))))
  case xsync =>
    intro o c k s hl hany hall
    have hm := xsync_met hany hall
    refine ⟨_, next_congr (whenLive_live _ _ hl), rfl, meetAt_frame hm, fun n i hi => ?_⟩
    refine (getStream_meetAt (Prod.mk_right_injective _) (fun _ hj => hj) hm n hi).trans
      (if_ctx_congr (and_congr_left' ⟨?_, ?_⟩) (fun h => by rw [h.1]) fun _ => rfl)
    · rintro ⟨j, -, h⟩
      cases h
      rfl
    · rintro rfl
      exact ⟨i, hi, rfl⟩
  case cbar =>
    intro o c st s hl hany hall
    have hm := cbar_met hany hall
    refine ⟨_, next_congr ((whenLive_live _ _ hl).trans (cbarComplete_eq_meetAt o c (strmIx st) s.dev)), rfl,
      meetAt_frame hm, fun n i hi => ?_⟩
    refine (getStream_meetAt (coreNo_place_injective o c _) (fun _ _ => strmIx_lt st) hm n hi).trans (if_congr ?_ rfl rfl)
    rw [← and_assoc]
    refine and_congr_left' ⟨?_, ?_⟩
    · rintro ⟨k, hk, h⟩
      cases h
      exact ⟨⟨⟨k, hk⟩, rfl⟩, rfl⟩
    · rintro ⟨⟨k, rfl⟩, rfl⟩
      exact ⟨k, k.isLt, rfl⟩

end Sys2Proof.Proofs

/-!
SUPPORT. Control packets of a group: what a packet of a row that passes the checks of R238 does to its group, and what the
coordinator takes of each kind of packet (R149, R238, R239, R244, R248, R252, R253, R254, R269).
-/
namespace Sys2Proof.Proofs
open Sys2Proof.Machine Sys2Proof.Laws

/-! ## Packets of one row (R238, R239) -/

theorem ofRow_some {f : Frame} {typ sub : Nat} (ht : f.typ = typ) (hs : f.sub = sub) : ofRow f typ (some sub) = true := by
  simp only [ofRow, ht, hs, beq_self_eq_true, Bool.and_self]

/-- A packet of its row, in service, is marked and acted on, then acknowledged where that is due, and the sequencers follow. -/
theorem settled_receiveRow_passes {f : Frame} {typ : Nat} {sub : Option Nat} {belongs : Dev → Nat → Packet → Bool}
    {act : Nat → Packet → Dev → Dev} {slot : Nat} {d : Dev} (hl : live d = true) (hr : ofRow f typ sub = true)
    (h : packetPasses f slot d = true) (hb : belongs d slot (packetOf d slot f) = true) :
    settled (receiveRow f typ sub belongs act) d =
      settle (ackSoon slot (packetOf d slot f).src (act slot (packetOf d slot f) (packetMarked f slot d))) := by
  rw [settled_live _ _ hl, receiveRow, guarded_true _ _ _ hr, receive_passes h hb]

theorem fromMember_iff {d : Dev} {slot : Nat} {p : Packet} : fromMember d slot p = true ↔ p.src ≠ switchNo := bne_iff_ne

/-! ## What the coordinator takes (R149, R244, R248, R252, R269) -/

section Coordinator
variable {slot : Nat} {p : Packet} {d : Dev} (h0 : (getGroup d slot).self = 0)
include h0

theorem takeArrive_new (h : (getGroup d slot).arrived.contains (p.collSeq, p.step, p.src) = false) :
    takeArrive slot p d = setGroup slot (fun g => { g with arrived := (p.collSeq, p.step, p.src) :: g.arrived }) d :=
  if_neg (by rw [h0, h]; decide)

theorem takeLate_coordinator : takeLate slot p d = nameLate slot p.collSeq p.step (p.arg % 65536) false d := if_pos h0

theorem takeBeat_coordinator : takeBeat slot p d = sendUnrel slot p.src (beatPkt d slot p.src) d := if_pos h0

theorem takeVote_first (h : ((votesOf (getGroup d slot) p.collSeq).any fun v => v.1 == p.src) = false) :
    takeVote slot p d = coordinate slot p.collSeq (setGroup slot (fun g => { g with votes := g.votes ++ [(p.collSeq, p.src,
      (List.range 8).map (fun i => BitVec.ofNat 32 (field p.payload (4 * i) 4)), bitAt (field p.payload 32 4) 0)] }) d) :=
  if_neg (by rw [h0, h]; decide)

end Coordinator

/-- A decision that is not known is forwarded before it is taken. -/
theorem takeDecide_unknown {slot : Nat} {p : Packet} {d : Dev} (h : decisionOf (getGroup d slot) p.collSeq = none) :
    takeDecide slot p d = takeDecision slot p.collSeq p.arg (field p.payload 0 4 % 65536)
      (sendDecide slot p.collSeq p.arg (field p.payload 0 4 % 65536) d) :=
  if_neg (by rw [h]; decide)

/-- Settles O30: each row receives a packet in the same way, and what it does with it goes by what the coordinator has noted. -/
theorem controlPacketsAct : Obligations.ControlPacketsAct := by
  refine ⟨?rows, ?coordinator, fun _ _ _ => takeDecide_unknown⟩
  case rows =>
    rintro f slot p s hl h rfl hsrc ht
    have hm : fromMember s.dev slot (packetOf s.dev slot f) = true := fromMember_iff.2 hsrc
    have row {sub : Nat} {act : Nat → Packet → Dev → Dev} (hs : f.sub = sub) :=
      next_congr (s := s) (settled_receiveRow_passes (act := act) hl (ofRow_some ht hs) h hm)
    refine ⟨row, row, row, row, row, row, fun hs ha => ?decide⟩
    case decide =>
      exact next_congr (settled_receiveRow_passes hl (ofRow_some ht hs) h (by rw [hm, Bool.true_and, decide_eq_true ha]))
  case coordinator =>
    intro slot p d h0
    exact ⟨takeArrive_new h0, takeLate_coordinator h0, takeBeat_coordinator h0, takeVote_first h0⟩

end Sys2Proof.Proofs

/-!
SUPPORT. Relay transfers: what each event of a transfer does where its condition holds (R138, R163 to R172, R250, R386).
-/
namespace Sys2Proof.Proofs
open Sys2Proof.Machine Sys2Proof.Laws

/-! ## Events in service -/

/-- The state that an event leaves in service is the one that it itself gives. -/
theorem next_whenLive {f : Dev → Dev} {d : Dev} {s : State} (hl : live s.dev = true) (h : f s.dev = d) :
    (Host.Outcome.next { s with dev := whenLive f s.dev } : Host.Outcome State Fault Refusal) = .next { s with dev := d } :=
  next_congr ((whenLive_live _ _ hl).trans h)

/-- After an event of the sequencers' work, what must follow at once does. -/
theorem next_settled {f : Dev → Dev} {d : Dev} {s : State} (hl : live s.dev = true) (h : f s.dev = d) :
    (Host.Outcome.next { s with dev := settled f s.dev } : Host.Outcome State Fault Refusal) =
      .next { s with dev := settle d } :=
  next_congr ((settled_live _ _ hl).trans (congrArg settle h))

section Transfer
variable {o e : Nat} {seq : Word} {x : Xfer} {d : Dev}

theorem xferOpen_iff : xferOpen x = true ↔ x.fault = none ∧ x.allDone = false := by
  simp [xferOpen]

/-! ## Chunks (R165, R301, R385) -/

/-- What a chunk of a transfer of a kind moves: the next piece of a COPY or FILL, or one page of a stow stream. -/
def chunkOf (kind : Nat) (x : Xfer) (raw : List Byte) (ev : LineEvent) (d : Dev) : Dev :=
  match kind with
  | 3 => packPage x raw ev d
  | 4 => unpackPage x raw ev d
  | _ => moveChunk x raw ev d

theorem chunkOf_move {kind : Nat} (h : kind < 3) (x : Xfer) (raw : List Byte) (ev : LineEvent) (d : Dev) :
    chunkOf kind x raw ev d = moveChunk x raw ev d := by
  match kind, h with
  | 0, _ | 1, _ | 2, _ => rfl

theorem relayChunk_active (hx : findXfer d o e seq = some x) (hp : x.partl = false) (hf : x.fabric = false)
    (ho : xferOpen x = true) (hh : rdDstKind (xferRaw d x) = 3 → hostReach d (getSht d o).vf = true) (ev : LineEvent) :
    relayChunk o e seq ev d = chunkOf (rdKind (xferRaw d x)) x (xferRaw d x) ev d := by
  have hreach : ¬ (rdDstKind (xferRaw d x) = 3 ∧ (!hostReach d (getSht d o).vf) = true) := fun ⟨h3, hn⟩ => by
    simp [hh h3] at hn
  simp only [relayChunk, hx, hp, hf, ho, Bool.not_true, Bool.false_eq_true, or_self, if_false, if_neg hreach]
  rfl

/-! ## Responses of the host (R169, R172, R296) -/

theorem relayResponse_unknown (h : findXfer d o e seq = none) (b : HostBlock) :
    relayResponse o e seq b d = staleResponse o e b.cipher.length d := by
  simp only [relayResponse, h]

/-- The block that an ACTIVE transfer waits for, read by its host, enters the staging buffer. -/
theorem relayResponse_opens {b : HostBlock} {blk : Nat} {y : Opened} (hx : findXfer d o e seq = some x)
    (ho : xferOpen x = true) (hw : x.waiting = some blk) (hp : x.partl = false)
    (hy : y = openBlock d (getSht d o).vf (blk / 2 ^ 24) b) (ht : y.tagOk = true) (hb : b.poisoned = false)
    (hk : y.block = blk % 2 ^ 24) (hs : y.wseq = 0) (hl : b.cipher.length = 4096) :
    relayResponse o e seq b d =
      setXfer { x with staging := place blk y.data x.staging, waiting := none, answered := false } d := by
  have hgood : y.tagOk ∧ !b.poisoned ∧ y.block = blk % 2 ^ 24 ∧ y.wseq = 0 ∧ b.cipher.length = 4096 :=
    ⟨ht, by rw [hb]; rfl, hk, hs, hl⟩
  simp only [relayResponse, hx, ho, hw, hp, ← hy, if_pos hgood, Bool.not_true, Bool.false_eq_true, if_false]

theorem relayResponse_fails {b : HostBlock} {blk : Nat} (hx : findXfer d o e seq = some x)
    (ho : xferOpen x = true) (hw : x.waiting = some blk)
    (ht : (openBlock d (getSht d o).vf (blk / 2 ^ 24) b).tagOk = false) :
    relayResponse o e seq b d = relayFault x 5 .integrityFail [] false
      (setWin (getSht d o).vf (blk / 2 ^ 24) (fun w => { w with authFail := satAdd 0xFFFFFFFF w.authFail 1 }) d) := by
  simp only [relayResponse, hx, ho, hw, ht, Bool.not_true, Bool.false_eq_true, false_and, if_false]

/-! ## Parking (R169, R250) -/

/-- A transfer that parks leaves its window, and its command retires unless it has or the transfer delivers for the fabric. -/
theorem relayPark_parks {c : Cmd} (hx : findXfer d o e seq = some x) (hp : x.partl = false) (ho : xferOpen x = true)
    (hw : x.fabric = true ∨ hostOwes d x = true)
    (hn : (d.xfers.filter fun y => y.oct == o && y.eng == e && y.partl).length < 4) (hc : cmdById d x.cmd = some c) :
    relayPark o e seq d = if c.retired ∨ x.fabric then setXfer { x with partl := true } d
      else retireItem x.cmd (setXfer { x with partl := true } d) := by
  have hparks : ¬ (x.partl ∨ !xferOpen x ∨ !(x.fabric || hostOwes d x) ∨
      (d.xfers.filter fun y => y.oct == o && y.eng == e && y.partl).length ≥ 4) := by
    have hwaits : (x.fabric || hostOwes d x) = true := Bool.or_eq_true_iff.2 hw
    simp [hp, ho, hwaits, Nat.not_le.2 hn]
  have hcmd : cmdById (setXfer { x with partl := true } d) x.cmd = some c := hc
  simp only [relayPark, hx, if_neg hparks, hcmd]

/-! ## Deadlines (R171, R250) -/

theorem deliveryExpiry_transfer (hx : findXfer d o e seq = some x) (hz : x.left = 0) (ho : xferOpen x = true)
    (hf : x.fabric = false) :
    deliveryExpiry o e seq d =
      relayFault x 3 (if x.partl ∨ waitsHost d x then .hostStall else .tickOverrun) [] true d := by
  obtain ⟨hfault, hdone⟩ := xferOpen_iff.1 ho
  simp only [deliveryExpiry, rleExpiry, hx, hf, hz, hfault, hdone, Option.isNone_none, Bool.not_false, true_or, true_and,
    and_self, if_true]

theorem deliveryExpiry_fabric {st : RStep} (hx : findXfer d o e seq = some x) (hz : x.left = 0) (hf : x.fabric = true)
    (hs : stepOf d x.cmd = some st) (hn : st.lateLeft = none) : deliveryExpiry o e seq d = rallyLate st d := by
  simp only [deliveryExpiry, hx, hf, hs, hz, hn, Option.isNone_none, Bool.not_true, Bool.false_eq_true, and_self, if_false,
    if_true]

/-! ## Completion (R138, R168, R386) -/

theorem relayComplete_faulted {r : Reason} (hx : findXfer d o e seq = some x) (hf : x.fabric = false)
    (h : x.fault = some r) : relayComplete o e seq d = endXfer x .faulted r d := by
  simp only [relayComplete, hx, hf, h, Bool.false_eq_true, if_false]

theorem relayComplete_done (hx : findXfer d o e seq = some x) (hf : x.fabric = false) (h : x.fault = none)
    (ha : x.allDone = true) (hw : withheld d x = false) : relayComplete o e seq d = endXfer x .done .ok d := by
  simp only [relayComplete, hx, hf, h, ha, hw, Bool.not_true, Bool.false_eq_true, if_false]

theorem relayComplete_withheld {c : Cmd} (hx : findXfer d o e seq = some x) (hf : x.fabric = false) (h : x.fault = none)
    (ha : x.allDone = true) (hw : withheld d x = true) (hc : cmdById d x.cmd = some c) (hh : c.heldUntil = none)
    (hr : c.retired = true) :
    relayComplete o e seq d = setCmd x.cmd (fun y => { y with heldUntil := some d.tck.now }) d := by
  simp only [relayComplete, hx, hf, h, ha, hw, hc, hh, hr, Bool.not_true, Bool.false_eq_true, Option.isSome_none, if_false,
    if_true]

theorem stowRelease_ends {c : Cmd} (hx : findXfer d o e seq = some x) (hc : cmdById d x.cmd = some c)
    (hh : c.heldUntil ≠ none) (ha : x.allDone = true) (h : x.fault = none) :
    stowRelease o e seq d = endXfer x .done .ok d := by
  simp only [stowRelease, hx, hc, Option.isSome_iff_ne_none.2 hh, ha, h, Option.isNone_none, and_self, if_true]

theorem completionTimeout_reports (hx : findXfer d o e seq = some x) (ho : xferOpen x = true) (hw : x.waiting ≠ none) :
    completionTimeout o e seq d = emit (.aer (1 + (getSht d o).vf) true) d := by
  simp only [completionTimeout, hx, ho, Option.isSome_iff_ne_none.2 hw, and_self, if_true]

end Transfer

/-- Settles O21: each event finds its transfer, and the transfer's marks decide what it does. -/
theorem relayTransfersMove : Obligations.RelayTransfersMove := by
  refine ⟨?chunk, ?opens, ?fails, ?stale, ?park, ?expiry, ?late, ?complete, ?release, ?timeout⟩
  case chunk =>
    intro o e seq ev x s hl hx hp hf ho hh
    have hchunk := relayChunk_active hx hp hf ho hh ev
    refine ⟨fun hk => ?move, fun hk => ?pack, fun hk => ?unpack⟩
    case move => exact next_whenLive hl (hchunk.trans (chunkOf_move hk _ _ _ _))
    case pack => exact next_whenLive hl (hchunk.trans (by rw [hk]; rfl))
    case unpack => exact next_whenLive hl (hchunk.trans (by rw [hk]; rfl))
  case opens =>
    intro o e seq b x blk y s hl hx ho hw hp hy ht hb hk hs hlen
    exact next_whenLive hl (relayResponse_opens hx ho hw hp hy ht hb hk hs hlen)
  case fails =>
    intro o e seq b x blk s hl hx ho hw ht
    exact next_whenLive hl (relayResponse_fails hx ho hw ht)
  case stale =>
    intro o seq b s hl
    exact ⟨fun h => next_whenLive hl (relayResponse_unknown (e := 0) h b),
      fun h => next_whenLive hl (relayResponse_unknown (e := 1) h b)⟩
  case park =>
    intro o e seq x c s hl hx hp ho hw hn hc
    have hpark := relayPark_parks hx hp ho hw hn hc
    exact ⟨fun h => next_settled hl (hpark.trans (if_pos h)),
      fun hr hf => next_settled hl (hpark.trans (if_neg (by simp [hr, hf])))⟩
  case expiry =>
    intro o e seq x s hl hx hz ho hf
    exact next_settled hl (deliveryExpiry_transfer hx hz ho hf)
  case late =>
    intro o e seq x st s hl hx hz hf hs hn
    exact next_settled hl (deliveryExpiry_fabric hx hz hf hs hn)
  case complete =>
    intro o e seq x s hl hx hf
    refine ⟨fun r h => ?faulted, fun h ha hw => ?done, fun c h ha hw hc hh hr => ?withheld⟩
    case faulted => exact next_settled hl (relayComplete_faulted hx hf h)
    case done => exact next_settled hl (relayComplete_done hx hf h ha hw)
    case withheld =>
      exact next_settled hl (relayComplete_withheld hx hf h ha hw hc hh hr)
  case release =>
    intro o e seq x c s hl hx hc hh ha h
    exact next_settled hl (stowRelease_ends hx hc hh ha h)
  case timeout =>
    intro o e seq x s hl hx ho hw
    exact next_whenLive hl (completionTimeout_reports hx ho hw)

end Sys2Proof.Proofs

/-!
SUPPORT. Management commands that pass their checks: what ends at once with OK or waits for the boundary, and what the boundary
events do with a command that waits (R157, R158, R202 to R206, R218, R226 to R228).
-/
namespace Sys2Proof.Proofs
open Sys2Proof.Machine Sys2Proof.Laws

/-! ## Commands of the sequencer's tables (R226, R227) -/

/-- What does not go by the sequencers' registers is as it was before the command was written. -/
theorem mgmtIn_keeps {β : Type} (f : Dev → β) (hf : ∀ (d : Dev) x, f { d with seq := x } = f d) (i : Issuer) (o : Nat)
    (c : MgmtCmd) (d : Dev) : f (mgmtIn i o c d) = f d := by
  cases i with
  | host => exact hf d _
  | porter => rfl

section Command
variable {i : Issuer} {o : Fin 8} {c : MgmtCmd} {s : State} (hc : ∀ x p, c = .ctxStop x p → p < 2)
  (hr : mgmtReady i o c s.dev = true)
include hc hr

/-- A command that ends at once with OK leaves that in SEQ_MGMT_RESULT. -/
theorem exec_ofMgmt_ends {d : Dev} (h : mgmtDo o false c (mgmtIn i o c s.dev) = (.ended .ok, d)) :
    exec (ofMgmt i o c) s = .next { s with dev := setSeq o (fun q => { q with mgmtReason := .ok }) d } :=
  mgmt_command_runs i o c s hc hr _ (by rw [h]; rfl)

/-- A command that runs on is noted as the one that runs. -/
theorem exec_ofMgmt_runs {m : MgmtRun} {d : Dev} (h : mgmtDo o false c (mgmtIn i o c s.dev) = (.running m, d)) :
    exec (ofMgmt i o c) s = .next { s with dev := setSeq o (fun q => { q with mgmt := m, mgmtMbox := false }) d } :=
  mgmt_command_runs i o c s hc hr _ (by rw [h]; rfl)

end Command

section Effect
variable {o : Nat} {signed : Bool} {d : Dev}

theorem mgmtDo_queueBind {a : BindArgs} (h : bindCheck d o a = none) :
    mgmtDo o signed (.queueBind a) d = (.ended .ok, bindQueue o a d) := by
  simp [mgmtDo, h]

theorem mgmtDo_queueUnbind {k : Nat} (hb : (getQueue d o k).bound = true) (he : queueCmds d o k = []) :
    mgmtDo o signed (.queueUnbind k) d = (.ended .ok, setQueue o k (fun _ => Queue.zero) d) := by
  simp [mgmtDo, hb, he]

theorem mgmtDo_regionSet {x k : Nat} {w0 w1 : DWord} {e : RegEntry} (hc : charterEntry d o x k ⟨w0, w1⟩ = some e)
    (he : entryCheck d o e = none) :
    mgmtDo o signed (.regionSet x k w0 w1) d = (.running (.region x k e false []), d) := by
  simp [mgmtDo, hc, he]

theorem mgmtDo_objConfig {a : ObjArgs} (h : objBusy d (2048 * o + a.obj) = false) :
    mgmtDo o signed (.objConfig a) d = (.ended .ok, configObj o a d) := by
  simp [mgmtDo, h]

theorem mgmtDo_objFree {n : Nat} (h : objBusy d (2048 * o + n) = false) :
    mgmtDo o signed (.objFree n) d = (.ended .ok, setObj o n (fun _ => HudObj.zero) d) := by
  simp [mgmtDo, h]

theorem mgmtDo_imageRegister {a : ImageArgs} (h : imageCheck d o a = none) :
    mgmtDo o signed (.imageRegister a) d = (.ended .ok, registerImage o a signed [] d) := by
  simp [mgmtDo, h]

theorem mgmtDo_imageRelease {x k : Nat} (h : launchesOf d o x k = []) :
    mgmtDo o signed (.imageRelease x k) d = (.ended .ok, setImg o x k (fun _ => ImgSlot.zero) d) := by
  simp [mgmtDo, h]

end Effect

/-- Settles O24: each command's own refusals go by tables that its writing leaves alone, and with none it takes its effect. -/
theorem sequencerTableCommandsAct : Obligations.SequencerTableCommandsAct := by
  refine ⟨?bind, ?unbind, ?set, ?clear, ?config, ?free, ?register, ?release⟩
  case bind =>
    intro i o a s hr h
    exact exec_ofMgmt_ends (c := .queueBind a) nofun hr (mgmtDo_queueBind
      ((mgmtIn_keeps (bindCheck · o a) (fun _ _ => rfl) i o _ _).trans h))
  case unbind =>
    intro i o k s hr hb he
    exact exec_ofMgmt_ends (c := .queueUnbind k) nofun hr (mgmtDo_queueUnbind
      ((mgmtIn_keeps (fun d => (getQueue d o k).bound) (fun _ _ => rfl) i o _ _).trans hb)
      ((mgmtIn_keeps (queueCmds · o k) (fun _ _ => rfl) i o _ _).trans he))
  case set =>
    intro i o x k w0 w1 e s hr hc he
    exact exec_ofMgmt_runs (c := .regionSet x k w0 w1) nofun hr (mgmtDo_regionSet
      ((mgmtIn_keeps (charterEntry · o x k ⟨w0, w1⟩) (fun _ _ => rfl) i o _ _).trans hc)
      ((mgmtIn_keeps (entryCheck · o e) (fun _ _ => rfl) i o _ _).trans he))
  case clear =>
    intro i o x k s hr
    exact exec_ofMgmt_runs (c := .regionClear x k) nofun hr rfl
  case config =>
    intro i o a s hr h
    exact exec_ofMgmt_ends (c := .objConfig a) nofun hr (mgmtDo_objConfig
      ((mgmtIn_keeps (objBusy · (2048 * o.val + a.obj)) (fun _ _ => rfl) i o _ _).trans h))
  case free =>
    intro i o n s hr h
    exact exec_ofMgmt_ends (c := .objFree n) nofun hr (mgmtDo_objFree
      ((mgmtIn_keeps (objBusy · (2048 * o.val + n)) (fun _ _ => rfl) i o _ _).trans h))
  case register =>
    intro i o a s hr h
    exact exec_ofMgmt_ends (c := .imageRegister a) nofun hr (mgmtDo_imageRegister
      ((mgmtIn_keeps (imageCheck · o a) (fun _ _ => rfl) i o _ _).trans h))
  case release =>
    intro i o x k s hr h
    exact exec_ofMgmt_ends (c := .imageRelease x k) nofun hr (mgmtDo_imageRelease
      ((mgmtIn_keeps (launchesOf · o x k) (fun _ _ => rfl) i o _ _).trans h))

/-! ## Boundary events (R158, R202 to R204, R227) -/

/-- The end of a command that no mailbox request waits for. -/
theorem endMgmt_unwaited {o : Nat} {r : Reason} {d : Dev} (hm : (getSeq d o).mgmt ≠ .none)
    (hb : (getSeq d o).mgmtMbox = false) :
    endMgmt o r d = setSeq o (fun q => { q with mgmt := .none, mgmtReason := r, mgmtMbox := false }) d := by
  simp [endMgmt, hm, hb]

section Boundary
variable {o : Nat} {d : Dev}

theorem startEffect_starts {c : Nat} {due : Bool} (hm : (getSeq d o).mgmt = .start c due) (hb : (getSeq d o).mgmtMbox = false)
    (hc : d.pwr.calibrating = false) (h : startCheck d o c = none) :
    startEffect o d = setSeq o (fun q => { q with mgmt := .none, mgmtReason := .ok, mgmtMbox := false })
      (setCtx o c (fun x => { x with state := .running, overruns := 0 }) d) := by
  have hend := endMgmt_unwaited (o := o) (r := .ok)
    (d := setCtx o c (fun x => { x with state := .running, overruns := 0 }) d) (ne_of_eq_of_ne hm nofun) hb
  simp only [startEffect, hm, hc, h, Bool.false_eq_true, if_false, hend]

theorem preemptEffect_preempts {c : Nat} (hr : (getCtx d o c).state = .running) (hp : (getCtx d o c).stopMode = .preempt) :
    preemptEffect o c d = endUndispatched o c .notReady d :=
  if_pos ⟨hr, hp⟩

/-- A context made STOPPED: its overruns are cleared and no L0 of it runs (R204, R359). -/
def ctxStopped (o c : Nat) (d : Dev) : Dev :=
  { setCtx o c (fun x => { x with state := .stopped, stopMode := .none, overruns := 0 }) d with
    ump := { d.ump with l0 := put 0 (16 * o + c) 0 d.ump.l0 } }

theorem contextStopped_idle {c : Nat}
    (hs : (getCtx d o c).state = .faulted ∨ ((getCtx d o c).state = .running ∧ (getCtx d o c).stopMode ≠ .none))
    (he : ctxCmds d o c = []) :
    contextStopped o c d = if (getSeq d o).mgmt = .stop c then endMgmt o .ok (ctxStopped o c d) else ctxStopped o c d :=
  if_pos ⟨hs, by simp [he]⟩

theorem entryEffect_installs {c i : Nat} {e : RegEntry} {l : List Nat} (hm : (getSeq d o).mgmt = .region c i e false l) :
    entryEffect o d = setSeq o (fun q => { q with mgmt := .region c i e true (resolvedBy d o c i) })
      (installEntry o c i e d) := by
  simp only [entryEffect, hm]

theorem regionComplete_ends {c i : Nat} {e : RegEntry} {l : List Nat} (hm : (getSeq d o).mgmt = .region c i e true l)
    (hb : (getSeq d o).mgmtMbox = false) (h : ∀ id ∈ l, stillRuns d id = false) :
    regionComplete o d = setSeq o (fun q => { q with mgmt := .none, mgmtReason := .ok, mgmtMbox := false }) d := by
  have hnone : l.any (stillRuns d) = false := by simpa using h
  simp only [regionComplete, hm, hnone, Bool.false_eq_true, if_false]
  exact endMgmt_unwaited (ne_of_eq_of_ne hm nofun) hb

theorem imageReleased_frees {c k : Nat} (hm : (getSeq d o).mgmt = .imageRelease c k) (hb : (getSeq d o).mgmtMbox = false)
    (h : launchesOf d o c k = []) :
    imageReleased o d = setSeq o (fun q => { q with mgmt := .none, mgmtReason := .ok, mgmtMbox := false })
      (setImg o c k (fun _ => ImgSlot.zero) d) := by
  have hend := endMgmt_unwaited (o := o) (r := .ok) (d := setImg o c k (fun _ => ImgSlot.zero) d)
    (ne_of_eq_of_ne hm nofun) hb
  simp only [imageReleased, hm, h, List.isEmpty_nil, if_true, hend]

end Boundary

/-- Settles O25: each event goes by the command that runs, and an end without a waiting request is its reason alone. -/
theorem sequencerBoundaryEventsAct : Obligations.SequencerBoundaryEventsAct := by
  refine ⟨?start, ?preempt, ?stopped, ?entry, ?complete, ?release⟩
  case start =>
    intro o c due s hl hm hb hc h
    exact next_whenLive hl (startEffect_starts hm hb hc h)
  case preempt =>
    intro o c s hl hr hp
    exact next_settled hl (preemptEffect_preempts hr hp)
  case stopped =>
    intro o c s hl hs he
    have hstop := contextStopped_idle hs he
    refine ⟨ctxStopped o c s.dev, rfl, fun hm => ?other, fun hm hb => ?waited⟩
    case other => exact next_whenLive hl (hstop.trans (if_neg hm))
    case waited =>
      exact next_whenLive hl (hstop.trans ((if_pos hm).trans (endMgmt_unwaited (d := ctxStopped o c s.dev)
        (ne_of_eq_of_ne hm nofun) hb)))
  case entry =>
    intro o c i e l s hl hm
    exact next_whenLive hl (entryEffect_installs hm)
  case complete =>
    intro o c i e l s hl hm hb h
    exact next_whenLive hl (regionComplete_ends hm hb h)
  case release =>
    intro o c k s hl hm hb h
    exact next_whenLive hl (imageReleased_frees hm hb h)

end Sys2Proof.Proofs

/-!
SUPPORT. Accesses to HBM: what answers a bus access, a full write that meets no event, a patrol read that corrects a line, and a
region put into the zero state (R162, R181, R182, R188, R191, R194, R195).
-/
namespace Sys2Proof.Proofs
open Sys2Proof.Machine Sys2Proof.Laws

/-! ## The answer of an access (R188, R191, R194) -/

section Access
variable {pa : Nat} {s : State}

theorem whenStack_runs {d : Dev} (hl : live d = true) (hr : (getStack d (stackOf pa)).rootValid = true) (f : Dev → Dev) :
    whenStack pa f d = f d :=
  guarded_true _ _ _ (by rw [hl, hr]; rfl)

theorem exec_hbmRead (hl : live s.dev = true) (hp : hbmPresent pa = true)
    (hr : (getStack s.dev (stackOf pa)).rootValid = true) (r : Nat) (ev : LineEvent) :
    exec (.hbmRead r pa ev) s = .next { s with dev := busRead r pa ev s.dev } :=
  (if_pos hp).trans (next_congr (whenStack_runs hl hr _))

theorem exec_hbmFullWrite (hl : live s.dev = true) (hp : hbmPresent pa = true)
    (hr : (getStack s.dev (stackOf pa)).rootValid = true) (r : Nat) (data : List Byte) (ev : LineEvent) :
    exec (.hbmFullWrite r pa data ev) s = .next { s with dev := busWrite r (writeLine pa r data ev s.dev) } :=
  (if_pos hp).trans (next_congr (whenStack_runs hl hr _))

theorem exec_hbmPartialWrite (hl : live s.dev = true) (hp : hbmPresent pa = true)
    (hr : (getStack s.dev (stackOf pa)).rootValid = true) (r : Nat) (data : List Byte) (ev : LineEvent) :
    exec (.hbmPartialWrite r pa data ev) s = .next { s with dev := busWrite r (writePart pa r data ev s.dev) } :=
  (if_pos hp).trans (next_congr (whenStack_runs hl hr _))

end Access

section Answer
variable {r pa : Nat} {ev : LineEvent} {d d' : Dev}

theorem busRead_ok {bs : List Byte} (h : readLine pa r 1 ev d = (.ok bs, d')) (hl : live d' = true) :
    busRead r pa ev d = emit (.busData r bs) d' := by
  simp [busRead, h, hl]

theorem busRead_error {e : Reason × List Byte} (h : readLine pa r 1 ev d = (.error e, d')) (hl : live d' = true) :
    busRead r pa ev d = emit (.busError r e.1) d' := by
  simp [busRead, h, hl]

theorem busRead_dead {x : HbmResult (List Byte)} (h : readLine pa r 1 ev d = (x, d')) (hl : live d' = false) :
    busRead r pa ev d = d' := by
  simp [busRead, h, hl]

theorem busWrite_ok (r : Nat) (d : Dev) : busWrite r (.ok (), d) = d := ite_self d

theorem busWrite_error (r : Nat) (e : Reason × List Byte) {d : Dev} (hl : live d = true) :
    busWrite r (.error e, d) = emit (.busError r e.1) d :=
  if_neg (by simp [hl])

theorem busWrite_dead (r : Nat) (x : HbmResult Unit) {d : Dev} (hl : live d = false) : busWrite r (x, d) = d :=
  if_pos (by simp [hl])

end Answer

/-! ## A full write that meets no event (R182, R188) -/

theorem awaitRegion_ready {pa : Nat} {d : Dev} (h : (getRegion d (regionOf pa)).initPending = false) : awaitRegion pa d = d :=
  if_neg (by simp [h])

/-- A line that is fetched without an event and whose counter does not overflow takes its contents and its count. -/
theorem writeLine_clean {pa : Nat} {d : Dev} (hi : (getRegion d (regionOf pa)).initPending = false)
    (hm : minorOf (getPage d (pa / 64 / 64)) (pa / 64 % 64) < 126) (hl : live d = true) (r : Nat) (bs : List Byte) :
    ∃ e is, MetaKeeps d e ∧ writeLine pa r bs .clean d = (.ok (), sealLines (pa / 64 / 64) is
      (hbmPoke (pa / 64 * 64) bs (ctrChanged (pa / 64 / 64)
        (setPage (pa / 64 / 64) (countWrite (pa / 64 % 64)) e)))) := by
  obtain ⟨hok, hk⟩ := fetchCtr_clean (pa / 64 / 64) r d
  generalize he : fetchCtr (pa / 64 / 64) r .clean d = y at hok hk
  obtain ⟨b, e⟩ := y
  obtain rfl : b = true := hok
  have hle : live e = true := (live_iff e).2 (hk.pkg ▸ (live_iff d).1 hl)
  have hme : ¬ minorOf (getPage e (pa / 64 / 64)) (pa / 64 % 64) ≥ 126 := by
    rw [getPage, hk.page]
    exact Nat.not_le.2 hm
  refine ⟨e, if (getPage e (pa / 64 / 64)).major = 0 then unmarked
    (hbmPoke (pa / 64 * 64) bs (ctrChanged (pa / 64 / 64)
        (setPage (pa / 64 / 64) (countWrite (pa / 64 % 64)) e))) (pa / 64 / 64) else [pa / 64 % 64], hk, ?_⟩
  simp only [writeLine, awaitRegion_ready hi, he, hme, hle, Bool.not_true, Bool.false_eq_true, and_false, decide_false,
    if_false, false_or]

theorem regionOf_line (pa : Nat) : regionOf (pa / 64 * 64) = regionOf pa := by
  unfold regionOf
  omega

/-- Plaintext poked into a region without undefined bytes stands there as it is. -/
theorem hbmPoke_defined {pa : Nat} {d : Dev} (h : (getRegion d (regionOf pa)).undef = 0) (bs : List Byte) :
    hbmPoke pa bs d = { d with hbm := writeBytes d.hbm pa bs } := by
  simp [hbmPoke, h, undefMask, List.mapIdx_eq_zipIdx_map]

/-- Such a write changes 64 bytes of HBM, the counters of its page and the metadata, where the region has no undefined bytes. -/
theorem writeLine_clean_effect {pa : Nat} {d : Dev} (hi : (getRegion d (regionOf pa)).initPending = false)
    (hu : (getRegion d (regionOf pa)).undef = 0)
    (hm : minorOf (getPage d (pa / 64 / 64)) (pa / 64 % 64) < 126) (hl : live d = true) (r : Nat) (bs : List Byte) :
    ∃ t, writeLine pa r bs .clean d = (.ok (), t) ∧ t.out = d.out ∧
      t.page = (setPage (pa / 64 / 64) (countWrite (pa / 64 % 64)) d).page ∧
      t.hbm = writeBytes d.hbm (pa / 64 * 64) bs := by
  obtain ⟨e, is, hk, hw⟩ := writeLine_clean hi hm hl r bs
  have hc := metaKeeps_ctrChanged (pa / 64 / 64) (setPage (pa / 64 / 64) (countWrite (pa / 64 % 64)) e)
  generalize ctrChanged (pa / 64 / 64) (setPage (pa / 64 / 64) (countWrite (pa / 64 % 64)) e) = c at hw hc
  have hdef : (getRegion c (regionOf (pa / 64 * 64))).undef = 0 := by
    rw [regionOf_line, getRegion, hc.region.trans hk.region]
    exact hu
  rw [hbmPoke_defined hdef] at hw
  have hs := metaKeeps_sealLines (pa / 64 / 64) is { c with hbm := writeBytes c.hbm (pa / 64 * 64) bs }
  refine ⟨_, hw, hs.out.trans (hc.out.trans hk.out), hs.page.trans (hc.page.trans ?page), hs.hbm.trans ?hbm⟩
  case page => exact congrArg (alter PageCtr.zero _ _) hk.page
  case hbm => exact congrArg (writeBytes · _ _) (hc.hbm.trans hk.hbm)

/-! ## Patrol and initialisation (R162, R181, R195) -/

theorem exec_patrolRead {pa : Nat} {s : State} (hl : live s.dev = true) (hp : pa < 2 ^ 40 ∧ areaOf (pa % 2 ^ 37) ≠ .absent)
    (hr : (getStack s.dev (stackOf pa)).rootValid = true) (ev : LineEvent) :
    exec (.patrolRead pa ev) s = .next { s with dev := patrolRead pa ev s.dev } :=
  (if_pos hp).trans (next_congr (whenStack_runs hl hr _))

theorem exec_patrolRead_absent {pa : Nat} (h : 2 ^ 40 ≤ pa ∨ areaOf (pa % 2 ^ 37) = .absent) (ev : LineEvent) (s : State) :
    exec (.patrolRead pa ev) s = .fault (.absentAddress pa) :=
  if_neg fun ⟨hlt, hne⟩ => h.elim (Nat.not_le.2 hlt) hne

/-- Patrol corrects a line of one or two bad symbols, after it has moved on. -/
theorem patrolRead_corrects {n : Nat} (h1 : 1 ≤ n) (h2 : n ≤ 2) (pa l : Nat) (d : Dev) :
    patrolRead pa (.dataSymbols l n) d = eccCorrect (pa / 2 ^ 37) (setStack (pa / 2 ^ 37) (fun x =>
      if x.patrolPos + 1 = patrolLines then { x with patrolPos := 0, patrolPasses := (x.patrolPasses + 1) % 65536 }
      else { x with patrolPos := x.patrolPos + 1 }) d) :=
  (if_neg (by omega)).trans (if_pos h2)

theorem zeroRegion_hbm (r : Nat) (d : Dev) :
    (zeroRegion r d).hbm = zeroRange d.hbm (regionBase r) (regionBase r + 2 ^ 21) := by
  obtain ⟨p, hk⟩ := metaKeeps_zeroPages
    ((d.page.filter fun e => regionBase r / 4096 ≤ e.1 && e.1 < regionBase r / 4096 + 512).map (·.1)) d
  exact congrArg (zeroRange · _ _) hk.hbm

theorem zeroRegion_initPending (r : Nat) (d : Dev) : (getRegion (zeroRegion r d) r).initPending = false := by
  simp [zeroRegion, getRegion, setRegion]

/-- Settles O26: an access goes by the flow that it runs and by whether the device is in service after it. -/
theorem memoryCommandsAct : Obligations.MemoryCommandsAct := by
  refine ⟨?read, ?write, ?lockdown, ?clean, ?patrol, ?absent, ?init, fun pa ev s h => exec_patrolRead_absent h ev s⟩
  case read =>
    intro r pa ev d s hl hp hr hd
    exact ⟨fun bs h => (exec_hbmRead hl hp hr r ev).trans (next_congr (busRead_ok h hd)),
      fun e h => (exec_hbmRead hl hp hr r ev).trans (next_congr (busRead_error h hd))⟩
  case write =>
    intro r pa data ev d s hl hp hr hd
    refine ⟨fun h => ?full, fun h => ?part, fun e h => ?failed⟩
    case full => rw [exec_hbmFullWrite hl hp hr, h, busWrite_ok]
    case part => rw [exec_hbmPartialWrite hl hp hr, h, busWrite_ok]
    case failed =>
      rw [exec_hbmPartialWrite hl hp hr, h, busWrite_error r e hd]
      rfl
  case lockdown =>
    intro r pa data ev d s hl hp hr hd
    refine ⟨fun x h => ?read, fun x h => ?full, fun x h => ?part⟩
    case read => rw [exec_hbmRead hl hp hr, busRead_dead h hd]
    case full => rw [exec_hbmFullWrite hl hp hr, h, busWrite_dead r x hd]
    case part => rw [exec_hbmPartialWrite hl hp hr, h, busWrite_dead r x hd]
  case clean =>
    intro r pa data s hl hp hr hi hu hm hlen
    obtain ⟨t, hw, hout, hpage, hhbm⟩ := writeLine_clean_effect hi hu hm hl r data
    refine ⟨{ s with dev := t }, ?_, rfl, hout, hpage, fun a => ?_⟩
    · rw [exec_hbmFullWrite hl hp hr, hw, busWrite_ok]
    · rw [hhbm, readByte_writeBytes, hlen]
  case patrol =>
    intro pa l n s hl hlt ha hr h1 h2
    exact (exec_patrolRead hl ⟨hlt, ha⟩ hr _).trans (next_congr (patrolRead_corrects h1 h2 pa l s.dev))
  case absent =>
    intro r pa data ev s hp
    have hn : ¬ hbmPresent pa = true := by simp [hp]
    exact ⟨if_neg hn, if_neg hn, if_neg hn⟩
  case init =>
    intro k r s hl hi
    refine ⟨_, rfl, next_congr (guarded_true _ _ _ (by rw [hl, hi]; rfl)), zeroRegion_initPending _ _, fun a hlo hhi => ?_⟩
    rw [zeroRegion_hbm, readByte_zeroRange, if_pos ⟨hlo, hhi⟩]

end Sys2Proof.Proofs

/-!
SUPPORT. Bring-up: the device that a READY bit is set in, the engine that is enabled before it, and the record of a failure
(R194, R375, R376, R390).
-/
namespace Sys2Proof.Proofs
open Sys2Proof.Machine Sys2Proof.Laws

/-! ## Engines that Porter enables (R48, R390) -/

/-- An enable by Porter holds exactly where the block's check finds nothing. -/
theorem autoEnable_enable (b : Block) (d : Dev) :
    (getBlk (autoEnable b d) (blkBase b)).enable = (blockCheck d b false).isNone := by
  unfold autoEnable setStatus
  rw [getBlk_setBlk, getBlk_setBlk]
  split <;> rfl

@[simp] theorem enableRally_pkg (d : Dev) : (enableRally d).pkg = d.pkg := by
  unfold enableRally
  split <;> rfl

@[simp] theorem enableRally_ret (d : Dev) : (enableRally d).ret = d.ret := by
  unfold enableRally
  split <;> rfl

@[simp] theorem enableRally_hbm (d : Dev) : (enableRally d).hbm = d.hbm := by
  unfold enableRally
  split <;> rfl

/-! ## The change of a READY bit (R375, R388) -/

@[simp] theorem readyStep_hbm (f : Dev → Dev) (d : Dev) : (readyStep f d).hbm = (f d).hbm := by
  obtain ⟨a, -, -, -, -, hhbm, -, -, h⟩ := readyStep_cases f d
  rw [h, hhbm]

@[simp] theorem readyStep_getBlk (f : Dev → Dev) (d : Dev) (b : Nat) : getBlk (readyStep f d) b = getBlk (f d) b := by
  obtain ⟨a, -, -, -, -, -, hblk, -, h⟩ := readyStep_cases f d
  rw [h, getBlk, hblk, getBlk]

@[simp] theorem readyStep_getStack (f : Dev → Dev) (d : Dev) (k : Nat) : getStack (readyStep f d) k = getStack (f d) k := by
  obtain ⟨a, -, -, -, -, -, -, hstack, h⟩ := readyStep_cases f d
  rw [h, getStack, hstack, getStack]

/-! ## A stack that starts (R194, R375, R390) -/

/-- A stack initialised, with its root made valid and its engine enabled where the check passes (R194, R390). -/
def casStarted (k : Fin 8) (d : Dev) : Dev :=
  autoEnable (.cas k) (setStack k (fun x => { x with rootValid := true }) (initStack k d))

@[simp] theorem casStarted_pkg (k : Fin 8) (d : Dev) : (casStarted k d).pkg = d.pkg :=
  (initStack_facts k d).1

theorem casStarted_rootValid (k : Fin 8) (d : Dev) : (getStack (casStarted k d) k).rootValid = true :=
  congrArg Stack.rootValid (getStack_setStack k (fun x => { x with rootValid := true }) (initStack k d))

section Stack
variable {k : Fin 8} {d : Dev}

/-- The bytes of the other stacks keep. -/
theorem casStarted_hbm {pa : Nat} (h : pa / 2 ^ 37 ≠ k.val) :
    readByte (casStarted k d).hbm pa = readByte d.hbm pa := by
  obtain ⟨-, -, -, hhbm⟩ := initStack_facts k d
  exact hhbm pa h

/-- What the check of an engine reads, the alarm windows and the enables, is as it was when the engine is enabled. -/
theorem casStarted_enable (hc : casCheck d k = none) :
    (getBlk (casStarted k d) (blkBase (.cas k))).enable = true := by
  obtain ⟨-, hblk, halarm, -⟩ := initStack_facts k d
  have hcheck : casCheck (setStack k (fun x => { x with rootValid := true }) (initStack k d)) k = casCheck d k := by
    refine casCheck_congr d _ k (fun t => ?_) hblk
    by_cases ht : t = k
    · rw [ht, getStack_setStack]
      exact halarm k
    · rw [getStack_setStack_ne _ _ _ _ ht]
      exact halarm t
  rw [casStarted, autoEnable_enable, blockCheck, hcheck, hc]
  rfl

/-- The bit of a stack is set once it is started. -/
theorem stackReady_marks (hr : has8 d.pkg.stackReady k = false) (hf : has8 d.pkg.stackFailed k = false)
    (hc : casCheck d k = none) :
    stackReady k d =
      readyStep (fun x => { x with pkg := { x.pkg with stackReady := set8 x.pkg.stackReady k } }) (casStarted k d) :=
  (if_neg (by simp [hr, hf])).trans (if_pos (casStarted_enable hc))

end Stack

/-! ## Octants and ports (R375, R390) -/

section Ready
variable {d : Dev}

/-- The bit of an octant is set once the Shutter is enabled. -/
theorem octantReady_marks {o : Nat} (hr : has8 d.pkg.octReady o = false) (hf : has8 d.pkg.octFailed o = false)
    (hk : has8 d.pkg.stackReady o = true) (hs : (getSht d o).state = .clean) :
    ∃ e, octantReady o d = readyStep (fun x => { x with pkg := { x.pkg with octReady := set8 x.pkg.octReady o } }) e ∧
      e.pkg = d.pkg ∧ e.hbm = d.hbm := by
  have hgo : ¬ (has8 d.pkg.octReady o ∨ has8 d.pkg.octFailed o ∨ !has8 d.pkg.stackReady o ∨ (getSht d o).state ≠ .clean) := by
    simp [hr, hf, hk, hs]
  refine ⟨_, if_neg hgo, ?_⟩
  split <;> exact ⟨rfl, rfl⟩

/-- The bit of a port is set once a configured port is enabled, and RLY is enabled after the last one. -/
theorem portReady_marks {p : Fin 8} (hr : has8 d.pkg.portReady p = false) (hf : has8 d.pkg.portFailed p = false) :
    ∃ e, portReady p d =
        enableRally (readyStep (fun x => { x with pkg := { x.pkg with portReady := set8 x.pkg.portReady p } }) e) ∧
      e.pkg = d.pkg ∧ e.hbm = d.hbm := by
  have hgo : ¬ (has8 d.pkg.portReady p ∨ has8 d.pkg.portFailed p) := by simp [hr, hf]
  refine ⟨_, if_neg hgo, ?_⟩
  split <;> exact ⟨rfl, rfl⟩

end Ready

/-! ## Failures of bring-up (R376) -/

theorem recordHung_recSeq {d : Dev} (hl : live d = true) (kind index : Nat) (r : FaultRec) (b : Bool) :
    (recordHung kind index r b d).ret.recSeq = (d.ret.recSeq + 1) % 2 ^ 32 :=
  record_recSeq _ b { d with free := d.free + 1 } (ringsOpen_live d hl)

section Fail
variable {k : Nat} {d : Dev}

/-- A training failure before the third is counted, and nothing else. -/
theorem stackTrainingFail_counts (hr : has8 d.pkg.stackReady k = false) (hf : has8 d.pkg.stackFailed k = false)
    (hn : look 0 k d.pkg.trainFails < 2) :
    stackTrainingFail k d =
      { d with pkg := { d.pkg with trainFails := put 0 k (look 0 k d.pkg.trainFails + 1) d.pkg.trainFails } } :=
  (if_neg (by simp [hr, hf])).trans (if_pos (by omega))

/-- The third training failure is recorded, and the stack and its octant have failed. -/
theorem stackTrainingFail_fails (hl : live d = true) (hr : has8 d.pkg.stackReady k = false)
    (hf : has8 d.pkg.stackFailed k = false) (hn : 2 ≤ look 0 k d.pkg.trainFails) :
    (stackTrainingFail k d).pkg.stackFailed = set8 d.pkg.stackFailed k ∧
      (stackTrainingFail k d).pkg.octFailed = set8 d.pkg.octFailed k ∧
      (stackTrainingFail k d).pkg.stackReady = d.pkg.stackReady ∧
      (stackTrainingFail k d).ret.recSeq = (d.ret.recSeq + 1) % 2 ^ 32 := by
  have hlast : ¬ look 0 k d.pkg.trainFails + 1 < 3 := by omega
  simp only [stackTrainingFail, hr, hf, hlast, Bool.false_eq_true, or_self, if_false]
  refine ⟨?stack, ?octant, ?ready, ?seq⟩
  case stack => simp [recordHung]
  case octant => simp [recordHung]
  case ready => simp [recordHung]
  case seq =>
    simp only [readyChanged_ret]
    refine recordHung_recSeq ?_ 10 k _ false
    exact hl

/-- A port whose calibration fails is recorded, and has failed. -/
theorem portCalibrationFail_fails {p : Nat} (hl : live d = true) (hr : has8 d.pkg.portReady p = false)
    (hf : has8 d.pkg.portFailed p = false) :
    (portCalibrationFail p d).pkg.portFailed = set8 d.pkg.portFailed p ∧
      (portCalibrationFail p d).pkg.portReady = d.pkg.portReady ∧
      (portCalibrationFail p d).ret.recSeq = (d.ret.recSeq + 1) % 2 ^ 32 := by
  simp only [portCalibrationFail, hr, hf, Bool.false_eq_true, or_self, if_false, enableRally_pkg, enableRally_ret]
  refine ⟨?failed, ?ready, ?seq⟩
  case failed => simp [recordHung]
  case ready => simp [recordHung]
  case seq =>
    simp only [readyChanged_ret]
    exact recordHung_recSeq hl 14 p _ false

end Fail

/-- Settles O3: a READY bit is set in a device whose package is as it was, and a failure is counted or recorded by its number. -/
theorem readinessIsMarked : Obligations.ReadinessIsMarked := by
  refine ⟨?stack, ?octant, ?port, ?third, ?earlier, ?calibration⟩
  case stack =>
    intro k s hl hr hf hc
    refine ⟨_, next_whenLive hl (stackReady_marks hr hf hc), rfl, ?_⟩
    simpa [readyStep_pkg] using ⟨casStarted_enable hc, casStarted_rootValid k s.dev, fun pa => casStarted_hbm⟩
  case octant =>
    intro o s hl hr hf hk hs
    obtain ⟨e, hready, hpkg, hhbm⟩ := octantReady_marks hr hf hk hs
    refine ⟨_, next_whenLive hl hready, rfl, ?_⟩
    simp [readyStep_pkg, hpkg, hhbm]
  case port =>
    intro p s hl hr hf
    obtain ⟨e, hready, hpkg, hhbm⟩ := portReady_marks hr hf
    refine ⟨_, next_whenLive hl hready, rfl, ?_⟩
    simp [readyStep_pkg, hpkg, hhbm]
  case third =>
    intro k s hl hr hf hn
    exact ⟨_, next_whenLive hl rfl, rfl, stackTrainingFail_fails hl hr hf hn⟩
  case earlier =>
    intro k s hl hr hf hn
    exact next_whenLive hl (stackTrainingFail_counts hr hf hn)
  case calibration =>
    intro p s hl hr hf
    exact ⟨_, next_whenLive hl rfl, rfl, portCalibrationFail_fails hl hr hf⟩

end Sys2Proof.Proofs

/-!
SUPPORT. L0 of a context: what a request for it and its bound do, and the state of the context that is killed
(R204, R358, R359, R360, R366, R433).
-/
namespace Sys2Proof.Proofs
open Sys2Proof.Machine Sys2Proof.Laws

/-! ## Killing a context (R204, R360) -/

theorem killItem_ctx (id : Nat) (d : Dev) : (killItem id d).ctx = d.ctx := by
  refine foldl_keeps Dev.ctx _ (fun _ _ => ?_) _ d
  rfl

theorem killItems_ctx (o c : Nat) (r : Reason) (d : Dev) : (killItems o c r d).ctx = d.ctx := by
  refine foldl_keeps Dev.ctx _ (fun _ _ => ?_) _ d
  exact killItem_ctx _ _

theorem endUndispatched_ctx (o c : Nat) (r : Reason) (d : Dev) : (endUndispatched o c r d).ctx = d.ctx := by
  refine foldl_keeps Dev.ctx _ (fun _ _ => ?_) _ d
  exact finish_ctx _ _ _ _ _ _

/-- A killed context is FAULTED: ending what it has in flight leaves the contexts alone. -/
theorem getCtx_killCtx (o c : Nat) (r : Reason) (d : Dev) :
    getCtx (killCtx o c r d) o c = { getCtx d o c with state := .faulted, lastReason := r, stopMode := .none } := by
  have hctx : (killCtx o c r d).ctx =
      (setCtx o c (fun x => { x with state := .faulted, lastReason := r, stopMode := .none }) d).ctx :=
    (killItems_ctx _ _ _ _).trans (endUndispatched_ctx _ _ _ _)
  rw [getCtx, hctx]
  exact getCtx_setCtx o c _ d

/-- The fault of a RUNNING context is recorded, and kills it. -/
theorem faultCtx_running {o c : Nat} {d : Dev} (h : (getCtx d o c).state = .running) (r : Reason) (rc : FaultRec) (b : Bool) :
    faultCtx o c r rc b d = killCtx o c r (record { rc with
      reason := r, octant := some o, context := some c, vf := octVf d o, action := if rc.action = 0 then 1 else rc.action }
      b d) := by
  simp [faultCtx, h]

theorem faultCtx_faults {o c : Nat} {d : Dev} (h : (getCtx d o c).state = .running) (r : Reason) (rc : FaultRec) (b : Bool) :
    (getCtx (faultCtx o c r rc b d) o c).state = .faulted := by
  rw [faultCtx_running h, getCtx_killCtx]

/-! ## L0_KILL (R360, R366, R433) -/

theorem exec_l0Kill {f : Fn} {o : Fin 8} {c : Fin 16} {s : State} (hl : live s.dev = true) (hb : barAnswers s.dev f = true) :
    exec (.l0Kill f o c) s = .next { s with dev := settle (requestL0 f o c s.dev) } :=
  next_congr (whenBar_onBar hl hb)

section Request
variable {f : Fn} {o c : Nat} {d : Dev}

theorem requestL0_denied (h : mayReset d f o = false) : requestL0 f o c d = reqDropped f d := by
  simp [requestL0, h]

theorem requestL0_free (h : mayReset d f o = true) (hs : (getCtx d o c).state = .free) :
    requestL0 f o c d = setReq .fieldConflict d := by
  simp [requestL0, h, hs]

theorem requestL0_stopped (h : mayReset d f o = true) (hs : (getCtx d o c).state = .stopped) :
    requestL0 f o c d = setReq .ok d := by
  simp [requestL0, h, hs]

theorem requestL0_running (h : mayReset d f o = true) (hs : (getCtx d o c).state = .running) :
    requestL0 f o c d = faultCtx o c (freeReason d.free) { recBase with source := 15, action := 1 } false
      (setReq .ok { d with free := d.free + 1 }) := by
  simp [requestL0, h, hs]

end Request

theorem mayReset_vf_eq_false {v : Fin 8} {o : Nat} {d : Dev} (h : octVf d o ≠ some v.val) : mayReset d (.vf v) o = false :=
  beq_false_of_ne h

/-! ## The L0 bound (R358, R359) -/

/-- What the L0 bound marks before it resets a unit: the context's bound counts no more, and the escalation is counted. -/
def l0Escalated (o c : Nat) (d : Dev) : Dev :=
  escalated { d with ump := { d.ump with l0 := put 0 (16 * o + c) 0 d.ump.l0 } }

/-- The L0 bound does not change which levels run. -/
theorem l1Covered_l0Escalated (o c : Nat) (u : UnitId) (d : Dev) : l1Covered (l0Escalated o c d) u = l1Covered d u := rfl

/-- At the bound of a FAULTED context, the one unit that holds it is recorded and reset where no running level covers it. -/
theorem l0Bound_resets {o : Fin 8} {c : Nat} {u : UnitId} {d : Dev} (h0 : look 0 (16 * o.val + c) d.ump.l0 = 1)
    (hs : (getCtx d o c).state = .faulted) (hu : heldBy d o c = [u]) (hc : l1Covered d u = false) :
    l0Bound o c d = l1Start u (recordHung (unitCode u).1 (unitCode u).2
      { recAt d o .hungUnit 13 with
        context := some c, action := 2, escalated := true, cluster := unitCluster u
        core := hungQuad (l0Escalated o c d) o u } true (l0Escalated o c d)) := by
  have hdue : ¬ (look 0 (16 * o.val + c) d.ump.l0 ≠ 1 ∨ (getCtx d o c).state ≠ .faulted) := by simp [h0, hs]
  have hhide : l1Covered (l0Escalated o c d) u = false := (l1Covered_l0Escalated o c u d).trans hc
  rw [l0Escalated] at hhide ⊢
  simp only [l0Bound, hdue, if_false, hu, List.foldl_cons, List.foldl_nil, hhide, Bool.false_eq_true]
  rfl

/-- Settles O48: a request goes by the context's state, a fault by the kill that leaves the contexts' table alone, and the bound by
the one unit that holds the context. -/
theorem contextKillsAct : Obligations.ContextKillsAct := by
  refine ⟨?kill, ?denied, fun o c r rc b d hs => faultCtx_faults hs r rc b, ?bound⟩
  case kill =>
    intro f o c s hl hb hm
    exact ⟨fun hs => (exec_l0Kill hl hb).trans (next_congr (congrArg settle (requestL0_running hm hs))),
      fun hs => (exec_l0Kill hl hb).trans (next_congr (congrArg settle (requestL0_stopped hm hs))),
      fun hs => (exec_l0Kill hl hb).trans (next_congr (congrArg settle (requestL0_free hm hs)))⟩
  case denied =>
    intro v o c s hl hb hv
    exact (exec_l0Kill hl hb).trans (next_congr (congrArg settle (requestL0_denied (mayReset_vf_eq_false hv))))
  case bound =>
    intro o c u s hl h0 hs hu hc
    exact next_settled hl (l0Bound_resets h0 hs hu hc)

end Sys2Proof.Proofs

/-!
SUPPORT. Queues and huddles: what a doorbell, a fetched block and an accepted command do, how a command ends with its record and
its signal, and what a signal and a wait's deadline do (R205 to R212, R214 to R217, R219 to R221, R297).
-/
namespace Sys2Proof.Proofs
open Sys2Proof.Machine Sys2Proof.Laws

/-! ## Doorbells (R207, R208) -/

section Doorbell
variable {f : Fn} {o q : Nat} {d : Dev}

theorem doorbell_denied (h : mayUseOctant d f o = false) (p : Nat) : doorbell f o q p d =
    dropLog f .notOwner (fieldIdOf (0x1008 + 0x40 * q) 0) (seqBase o + 0x1008 + 0x40 * q) true d :=
  if_pos (by simp [h])

theorem cdoorbell_denied (h : mayUseOctant d f o = false) (p : Nat) : cdoorbell f o q p d =
    dropLog f .notOwner (fieldIdOf (0x1008 + 0x40 * q) 1) (seqBase o + 0x100C + 0x40 * q) true d :=
  if_pos (by simp [h])

theorem cdoorbell_allowed (h : mayUseOctant d f o = true) (p : Nat) :
    cdoorbell f o q p d = setQueue o q (fun x => { x with consumer := p % 65536 }) d :=
  if_neg (by simp [h])

/-- A producer index that leaves no more commands pending than the ring has slots stops no queue. -/
theorem doorbell_fits {p : Nat} (h : mayUseOctant d f o = true)
    (hp : (p % 65536 + 65536 - (getQueue d o q).fetch) % 65536 ≤ 2 ^ (getQueue d o q).n) :
    doorbell f o q p d = setQueue o q (fun x => { x with
      producer := p % 65536, fetchFrom := if pendingCmds x = 0 then d.tck.now else x.fetchFrom }) d := by
  simp only [doorbell, h, Bool.not_true, Bool.false_eq_true, if_false]
  -- what is pending now is counted with the new producer index
  refine if_neg fun ⟨_, hover⟩ => Nat.not_lt.2 hp ?_
  rwa [getQueue_setQueue] at hover

end Doorbell

theorem exec_seqQDoorbell {f : Fn} {o : Fin 8} {s : State} (hl : live s.dev = true) (hb : barAnswers s.dev f = true) (q : Fin 32)
    (p : Nat) : exec (.seqQDoorbell f o q p) s = .next { s with dev := settle (doorbell f o q p s.dev) } :=
  next_congr (whenBar_onBar hl hb)

theorem exec_seqQCdoorbell {f : Fn} {o : Fin 8} {s : State} (hl : live s.dev = true) (hb : barAnswers s.dev f = true) (q : Fin 32)
    (p : Nat) : exec (.seqQCdoorbell f o q p) s = .next { s with dev := settle (cdoorbell f o q p s.dev) } :=
  next_congr (whenBar_onBar hl hb)

/-! ## Fetch (R205, R207, R297) -/

section Fetch
variable {o q : Nat} {ev : LineEvent} {b : HostBlock} {d : Dev}

/-- A queue that fetches and has no more pending than its ring holds fetches from its kind of ring. -/
theorem fetchCmd_fetches (hf : fetching d o q = true) (hp : pendingCmds (getQueue d o q) ≤ 2 ^ (getQueue d o q).n) :
    fetchCmd o q ev b d = if (getQueue d o q).transom then fetchHost o q b d else fetchHbm o q ev d := by
  simp only [fetchCmd, hf, Nat.not_lt.2 hp, Bool.not_true, Bool.false_eq_true, if_false]

/-- A block of the slot, with the write sequence number expected, is accepted. -/
theorem fetchHost_accepts {y : Opened} (ho : hostOpen d (getSht d o).vf = true) (ht : dispatches d trsBase = true)
    (hs : slotSince d (getSht d o).vf (getQueue d o q).fetchFrom = true)
    (hy : y = openBlock d (getSht d o).vf (ringWin (getQueue d o q).cmdBase) b) (htag : y.tagOk = true)
    (hb : b.poisoned = false) (hk : y.block = (getQueue d o q).fetch % 2 ^ (getQueue d o q).n)
    (hw : y.wseq = (getQueue d o q).wseqCmd) (hlen : b.cipher.length = 128) :
    fetchHost o q b d = accept o q y.data d := by
  have hcipher : b.cipher.isEmpty = false := by
    rw [← Bool.not_eq_true, List.isEmpty_iff_length_eq_zero, hlen]
    decide
  have hgood : y.tagOk ∧ !b.poisoned ∧ y.block = (getQueue d o q).fetch % 2 ^ (getQueue d o q).n ∧
      y.wseq = (getQueue d o q).wseqCmd ∧ b.cipher.length = 128 :=
    ⟨htag, by rw [hb]; rfl, hk, hw, hlen⟩
  simp only [fetchHost, hcipher, ho, ht, hs, ← hy, if_pos hgood, Bool.not_true, Bool.false_eq_true, or_self, if_false]

theorem fetchHbm_accepts {ps : List (Nat × Nat)} {bs : List Byte} {e : Dev}
    (hp : ringParts d o (getQueue d o q).ctx false (cmdSlot (getQueue d o q)) = .ok ps)
    (hr : readParts (20 + o) ev ps [] d = (.ok bs, e)) : fetchHbm o q ev d = accept o q bs e := by
  simp only [fetchHbm, hp, hr]

end Fetch

/-! ## Acceptance (R206, R209 to R212) -/

/-- A command as it is accepted: next in number, of its queue's context, at the ring slot that the queue fetches. -/
def acceptedCmd (o q : Nat) (raw : List Byte) (d : Dev) : Cmd :=
  { id := d.nextCmd, oct := o, q := q, ctx := (getQueue d o q).ctx
    slot := (getQueue d o q).fetch % 2 ^ (getQueue d o q).n, raw := raw, phase := .accepted
    winStart := 0, winEnd := 0, winTick := 0, delay := 0, began := 0, endPassed := false, waitLeft := none
    waitOk := false, limitHeld := false, result := (.done, .ok), info := [], heldUntil := none, noSignal := false
    retired := false, errEnd := none }

/-- The device once a command has joined those in flight: its queue has moved on. -/
def joinFlight (o q : Nat) (raw : List Byte) (d : Dev) : Dev :=
  setQueue o q (fun y => { y with fetch := (y.fetch + 1) % 65536, fetchFrom := d.tck.now, wseqCmd := y.wseqCmd + 1 })
    { d with cmds := d.cmds ++ [acceptedCmd o q raw d], nextCmd := d.nextCmd + 1 }

section Accept
variable {o q : Nat} {raw : List Byte} {d : Dev}

theorem accept_passes (h : acceptance (joinFlight o q raw d) o q (getQueue d o q).ctx raw = none) :
    accept o q raw d = joinFlight o q raw d := by
  simp only [joinFlight, acceptedCmd] at h ⊢
  simp only [accept, h]

theorem accept_refuses {r : Reason} (h : acceptance (joinFlight o q raw d) o q (getQueue d o q).ctx raw = some r) :
    accept o q raw d = refuseCmd d.nextCmd r (sigBad (joinFlight o q raw d) o q raw || cmdOpcode raw == 6)
      (joinFlight o q raw d) := by
  simp only [joinFlight, acceptedCmd] at h ⊢
  simp only [accept, h]

end Accept

/-- Settles O19: a doorbell goes by the function that rings it, a fetch by the kind of its ring, and acceptance by its checks. -/
theorem queueDoorbellsAndFetch : Obligations.QueueDoorbellsAndFetch := by
  refine ⟨?producer, ?consumer, ?denied, ?host, ?hbm, ?accepted⟩
  case producer =>
    intro f o q p s hl hb hm hp
    exact (exec_seqQDoorbell hl hb q p).trans (next_congr (congrArg settle (doorbell_fits hm hp)))
  case consumer =>
    intro f o q p s hl hb hm
    exact (exec_seqQCdoorbell hl hb q p).trans (next_congr (congrArg settle (cdoorbell_allowed hm p)))
  case denied =>
    intro f o q p s hl hb hm
    exact ⟨(exec_seqQDoorbell hl hb q p).trans (next_congr (congrArg settle (doorbell_denied hm p))),
      (exec_seqQCdoorbell hl hb q p).trans (next_congr (congrArg settle (cdoorbell_denied hm p)))⟩
  case host =>
    intro o q ev b y s hl hf hp hx ho ht hs hy htag hb hk hw hlen
    exact next_settled hl ((fetchCmd_fetches hf hp).trans
      ((if_pos hx).trans (fetchHost_accepts ho ht hs hy htag hb hk hw hlen)))
  case hbm =>
    intro o q ev b ps bs d s hl hf hp hx hparts hread
    exact next_settled hl ((fetchCmd_fetches hf hp).trans
      ((if_neg (by simp [hx])).trans (fetchHbm_accepts hparts hread)))
  case accepted =>
    intro o q raw d
    exact ⟨acceptedCmd o q raw d, joinFlight o q raw d, rfl, rfl, rfl, rfl, rfl, rfl, rfl, accept_passes,
      fun r => accept_refuses⟩

/-! ## Completion (R208, R212, R214 to R216) -/

section Complete
variable {id : Nat} {ev : LineEvent} {c : Cmd} {d : Dev}

/-- Only a command that ended DONE goes without its record, so its signal carries no error. -/
theorem signalErr_recordless (hr : recordless c = true) : signalErr c = none := by
  obtain ⟨-, hdone⟩ := Bool.and_eq_true_iff.1 hr
  exact if_pos (eq_of_beq hdone)

theorem completeCmd_recordless (hc : cmdById d id = some c) (hp : c.phase = .recording) (hr : recordless c = true) :
    completeCmd id ev d = leaveFlight c none d := by
  simp only [completeCmd, hc, hp, hr, signalErr_recordless hr, ne_eq, not_true_eq_false, if_false, if_true]

/-- With room in a Transom ring whose host takes the record, it is written and the command leaves flight. -/
theorem completeCmd_host (hc : cmdById d id = some c) (hp : c.phase = .recording) (hr : recordless c = false)
    (hroom : ringFull (getQueue d c.oct c.q) = false) (ht : (getQueue d c.oct c.q).transom = true)
    (hh : hostReach d (getSht d c.oct).vf = true)
    (hw : (getWin d (getSht d c.oct).vf (ringWin (getQueue d c.oct c.q).cplBase)).live = true) :
    completeCmd id ev d = leaveFlight c (signalErr c) (recordTaken c (writeRecordHost c d)) := by
  simp only [completeCmd, hc, hp, hr, hroom, ht, hh, hw, ne_eq, not_true_eq_false, Bool.false_eq_true, Bool.and_self, if_false,
    if_true]

/-- With room in an HBM ring whose write succeeds, the record is written and the command leaves flight. -/
theorem completeCmd_hbm {e : Dev} (hc : cmdById d id = some c) (hp : c.phase = .recording) (hr : recordless c = false)
    (hroom : ringFull (getQueue d c.oct c.q) = false) (ht : (getQueue d c.oct c.q).transom = false)
    (hw : writeRecordHbm c ev d = (none, e)) :
    completeCmd id ev d = leaveFlight c (signalErr c) (recordTaken c e) := by
  simp only [completeCmd, hc, hp, hr, hroom, ht, hw, ne_eq, not_true_eq_false, Bool.false_eq_true, if_false]

/-- A record that was held back is written as it would have been at once. -/
theorem heldRecord_completes (hc : cmdById d id = some c) (hr : recordless c = false) :
    heldRecord id ev d = completeCmd id ev d := by
  simp only [heldRecord, hc, hr, Bool.false_eq_true, if_false]

end Complete

/-- A command that writes a record ends alike at COMMAND_COMPLETE and at COMPLETION_RECORD_WRITE. -/
theorem exec_record_written {id : Nat} {ev : LineEvent} {c : Cmd} {d : Dev} {s : State} (hl : live s.dev = true)
    (hc : cmdById s.dev id = some c) (hr : recordless c = false) (h : completeCmd id ev s.dev = d) :
    exec (.commandComplete id ev) s = .next { s with dev := settle d } ∧
      exec (.completionRecordWrite id ev) s = .next { s with dev := settle d } :=
  ⟨next_settled hl h, next_settled hl ((heldRecord_completes hc hr).trans h)⟩

/-! ## Signals (R217, R219, R220) -/

theorem signalArrive_applies {i : Nat} {g : Signal} {d : Dev} (h : d.signals[i]? = some g) :
    signalArrive i d = applySignal g { d with signals := d.signals.eraseIdx i } := by
  simp only [signalArrive, h]

/-- An object as a signal leaves it: the increment added, and marked with the first error. -/
def signalled (g : Signal) (x : HudObj) : HudObj :=
  match g.err with
  | none => { x with value := x.value + g.incr }
  | some r => if x.error then { x with value := x.value + g.incr }
    else { x with value := x.value + g.incr, error := true, errReason := r }

theorem signalled_plain {g : Signal} (h : g.err = none) (x : HudObj) :
    signalled g x = { x with value := x.value + g.incr } := by
  simp only [signalled, h]

theorem signalled_error {g : Signal} {r : Reason} (h : g.err = some r) (x : HudObj) :
    signalled g x = if x.error then { x with value := x.value + g.incr }
      else { x with value := x.value + g.incr, error := true, errReason := r } := by
  simp only [signalled, h]

/-- Where no stream waits at an HWAIT, none waits on the object. -/
theorem streamWaits_nil {d : Dev} (h : ∀ e ∈ d.stream, ∀ a b t n, e.2.wait ≠ .hwait a b t n) (o n : Nat) :
    streamWaits d o n = [] := by
  rw [streamWaits, List.map_eq_nil_iff, List.filter_eq_nil_iff]
  intro e he
  split
  · next hw => exact absurd hw (h e he _ _ _ _)
  · exact Bool.false_ne_true

theorem applySignal_unwaited {g : Signal} {d : Dev} (hc : (getObj d g.octant g.obj).configured = true)
    (h : ∀ e ∈ d.stream, ∀ a b t n, e.2.wait ≠ .hwait a b t n) :
    applySignal g d = setObj g.octant g.obj (signalled g) d := by
  have hnone : streamWaits (setObj g.octant g.obj (signalled g) d) g.octant g.obj = [] := streamWaits_nil h _ _
  simp only [applySignal, hc, Bool.not_true, Bool.false_eq_true, if_false]
  exact congrArg (List.foldl _ _) hnone

/-! ## Deadlines (R221) -/

theorem waitExpiry_cmd {id : Nat} {c : Cmd} {d : Dev} (hc : cmdById d id = some c) (hz : c.waitLeft = some 0)
    (hw : waitState d c = .held) :
    waitExpiry (.cmd id) d = faultCtx c.oct c.ctx .waitTimeout
      { recBase with
        source := 6, queue := some c.q, tag := cmdTag c.raw, ringSlot := c.slot
        detail := waitDetail d (objOct (waitObj c.raw)) (objIx (waitObj c.raw)) (waitValue c.raw) } true d := by
  simp only [waitExpiry, hc, hz, hw, and_self, if_true]

theorem waitExpiry_stream {o : Fin 8} {c : Fin 9} {k : Fin 64} {st : Strm} {a b : Nat} {t : Word} {ctx : Nat} {d : Dev}
    (hw : (getStream d (coreNo o c k) (strmIx st)).wait = .hwait a b t 0) (hc : (getCore d (coreNo o c k)).ctx = some ctx) :
    waitExpiry (.stream o c k st) d = faultCtx o ctx .waitTimeout
      { coreRec d (coreNo o c k) (strmIx st) 5 (getStream d (coreNo o c k) (strmIx st)).pc 0 0 with
        source := 6, detail := waitDetail d a b t } true d := by
  simp only [waitExpiry, hw, hc]

/-- Settles O20: an end goes by its record and its ring, a signal by its error, and a deadline by what waits at it. -/
theorem commandsCompleteAndSignal : Obligations.CommandsCompleteAndSignal := by
  refine ⟨?recordless, ?host, ?hbm, ?arrive, ?signal, ?command, ?stream⟩
  case recordless =>
    intro id ev c s hl hc hp hr
    exact next_settled hl (completeCmd_recordless hc hp hr)
  case host =>
    intro id ev c s hl hc hp hr hroom ht hh hw
    exact exec_record_written hl hc hr (completeCmd_host hc hp hr hroom ht hh hw)
  case hbm =>
    intro id ev c d s hl hc hp hr hroom ht hw
    exact exec_record_written hl hc hr (completeCmd_hbm hc hp hr hroom ht hw)
  case arrive =>
    intro i ev g s hl hg
    exact next_congr (meeting_settled (g := fun d => applySignal g { d with signals := d.signals.eraseIdx i }) hl
      (signalArrive_applies (d := withLine ev s.dev) hg))
  case signal =>
    intro g d hc hs
    have happly := applySignal_unwaited hc hs
    exact ⟨fun h => by rw [happly, funext (signalled_plain h)], fun r h => by rw [happly, funext (signalled_error h)]⟩
  case command =>
    intro id c s hl hc hz hw
    exact next_settled hl (waitExpiry_cmd hc hz hw)
  case stream =>
    intro o c k st a b t ctx s hl hw hc
    exact next_settled hl (waitExpiry_stream hw hc)

end Sys2Proof.Proofs

/-!
SUPPORT. Management commands as they are issued and checked, and those that create, start, stop and destroy a context
(R202 to R204, R226, R227).
-/
namespace Sys2Proof.Proofs
open Sys2Proof.Machine Sys2Proof.Laws

/-! ## The access that gives a command (R226) -/

section Access
variable {f : Fn} {o : Nat} {c : MgmtCmd} {d : Dev}

/-- A host that does not hold management leaves an entry in its function's drop log, whatever the command. -/
theorem mgmtCommand_denied (h : f ≠ .pf ∨ porterManaged d = true) :
    mgmtCommand (.host f) o c d = dropLog f .notOwner (fieldIdOf 0x180 0) (seqBase o + 0x180) true d :=
  if_pos h

/-- The PF's command is written, and dropped as BUSY_UPDATE while another runs. -/
theorem mgmtCommand_busy (hp : porterManaged d = false) (hm : (getSeq d o).mgmt ≠ .none) :
    mgmtCommand (.host .pf) o c d =
      dropLog .pf .busyUpdate (fieldIdOf 0x180 0) (seqBase o + 0x180) true (mgmtIn (.host .pf) o c d) := by
  have hholds : ¬ (Fn.pf ≠ .pf ∨ porterManaged d = true) := by simp [hp]
  have hruns : (getSeq (setMgmtBuf o (mgmtBytes c) d) o).mgmt ≠ .none := by
    rw [setMgmtBuf, getSeq_setSeq]
    exact hm
  exact (if_neg hholds).trans (if_pos hruns)

end Access

/-- A host's command reaches the sequencer as its row of the command table says: only CTX_STOP's mode picks between two. -/
theorem exec_ofMgmt_host {f : Fn} {o : Fin 8} {s : State} (c : MgmtCmd) (hb : barAnswers s.dev f = true) :
    ∃ c', exec (ofMgmt (.host f) o c) s = .next { s with dev := mgmtCommand (.host f) o c' s.dev } := by
  cases c with
  | ctxStop x p =>
    by_cases hp : p = 0
    · refine ⟨.ctxStop x 0, ?_⟩
      rw [ofMgmt, if_pos hp]
      exact next_congr (whenBar_answers _ _ _ hb)
    · refine ⟨.ctxStop x 1, ?_⟩
      rw [ofMgmt, if_neg hp]
      exact next_congr (whenBar_answers _ _ _ hb)
  | _ => exact ⟨_, next_congr (whenBar_answers _ _ _ hb)⟩

theorem exec_ofMgmt_denied {f : Fn} {o : Fin 8} {c : MgmtCmd} {s : State} (hb : barAnswers s.dev f = true)
    (h : f ≠ .pf ∨ porterManaged s.dev = true) :
    exec (ofMgmt (.host f) o c) s = .next { s with dev :=
      (dropLog f .notOwner (fieldIdOf 0x180 0) (seqBase o + 0x180) true s.dev) } := by
  obtain ⟨c', hc⟩ := exec_ofMgmt_host c hb
  rw [hc, mgmtCommand_denied h]

/-! ## The checks of R227 -/

section Checks
variable {o : Nat} {signed : Bool} {c : MgmtCmd} {d : Dev}

theorem mgmtStart_range (h : mgmtRange c = false) : mgmtStart o signed c d = (.ended .fieldRange, d) :=
  if_pos (by simp [h])

theorem mgmtStart_notOwner (hr : mgmtRange c = true) (h : mgmtOwner d o c = false) :
    mgmtStart o signed c d = (.ended .notOwner, d) :=
  (if_neg (by simp [hr])).trans (if_pos (by simp [h]))

end Checks

/-- Settles O22: an access is dropped before the checks by what its issuer may do, and each check refuses after those before it
pass. -/
theorem mgmtCommandsAreChecked : Obligations.MgmtCommandsAreChecked := by
  refine ⟨?started, ?denied, ?busy, fun o c d => mgmtStart_range, fun o c d => mgmtStart_notOwner⟩
  case started =>
    intro i o c s hc hm
    exact (exec_ofMgmt i o c s hc).trans (next_congr (mgmtMay_exec i o c s hm))
  case denied =>
    intro f o c s hb h
    exact exec_ofMgmt_denied hb h
  case busy =>
    intro o c s hc hb hp hm
    exact (exec_ofMgmt (.host .pf) o c s hc).trans
      (next_congr ((whenBar_answers _ _ _ hb).trans (mgmtCommand_busy hp hm)))

/-! ## Contexts (R202 to R204) -/

section Context
variable {o : Nat} {signed : Bool} {x : Nat} {d : Dev}

theorem mgmtDo_ctxCreate {seed : DWord} {nf : Nat} (hx : (getCtx d o x).state = .free)
    (hc : (getObj d (objOct nf) (objIx nf)).configured = true) (hp : (getObj d (objOct nf) (objIx nf)).producer = none) :
    mgmtDo o signed (.ctxCreate x seed nf) d =
      (.ended .ok, setCtx o x (fun _ => { Ctx.zero with state := .stopped, seed := seed, nfObj := nf }) d) := by
  simp [mgmtDo, hx, hc, hp]

theorem mgmtDo_ctxStart (h : startCheck d o x = none) :
    mgmtDo o signed (.ctxStart x) d = (.running (.start x false), d) := by
  simp [mgmtDo, h]

theorem mgmtDo_ctxStop (h : (getCtx d o x).state = .running) (p : Nat) :
    mgmtDo o signed (.ctxStop x p) d =
      (.running (.stop x), setCtx o x (fun y => { y with stopMode := if p = 1 then .preempt else .drain }) d) := by
  simp [mgmtDo, h]

theorem mgmtDo_ctxDestroy (h : (getCtx d o x).state = .stopped) :
    mgmtDo o signed (.ctxDestroy x) d = (.running (.destroy x []), destroyStart o x d) := by
  simp [mgmtDo, h]

/-- The writing of a command leaves the contexts' states alone. -/
theorem getCtx_mgmtIn (i : Issuer) (c : MgmtCmd) : getCtx (mgmtIn i o c d) o x = getCtx d o x :=
  mgmtIn_keeps (getCtx · o x) (fun _ _ => rfl) i o c d

end Context

/-- A CTX_STOP of a RUNNING context marks it with the mode that its operand names, and runs on. -/
theorem exec_ctxStop_marks {i : Issuer} {o : Fin 8} {x p : Nat} {s : State} (hp : p < 2)
    (hr : mgmtReady i o (.ctxStop x p) s.dev = true) (hs : (getCtx s.dev o x).state = .running) :
    exec (ofMgmt i o (.ctxStop x p)) s = .next { s with dev := (setSeq o (fun q => { q with mgmt := .stop x, mgmtMbox := false })
      (setCtx o x (fun y => { y with stopMode := if p = 1 then .preempt else .drain })
        (mgmtIn i o (.ctxStop x p) s.dev))) } := by
  have hmode : ∀ y q, MgmtCmd.ctxStop x p = .ctxStop y q → q < 2 := by
    rintro y q ⟨⟩
    exact hp
  refine exec_ofMgmt_runs hmode hr (mgmtDo_ctxStop ?_ p)
  rw [getCtx_mgmtIn]
  exact hs

/-- Settles O23: each command's own refusals go by the context, its object or the start checks, which its writing leaves alone,
and with none it takes its effect. -/
theorem contextCommandsAct : Obligations.ContextCommandsAct := by
  refine ⟨?create, ?start, ?drain, ?preempt, ?destroy⟩
  case create =>
    intro i o x seed nf s hr hx hc hp
    have hobj (e : Dev) : getObj (mgmtIn i o (.ctxCreate x seed nf) e) (objOct nf) (objIx nf) =
        getObj e (objOct nf) (objIx nf) :=
      mgmtIn_keeps (getObj · (objOct nf) (objIx nf)) (fun _ _ => rfl) i o _ e
    exact exec_ofMgmt_ends (c := .ctxCreate x seed nf) nofun hr
      (mgmtDo_ctxCreate (by rw [getCtx_mgmtIn]; exact hx) (by rw [hobj]; exact hc) (by rw [hobj]; exact hp))
  case start =>
    intro i o x s hr h
    exact exec_ofMgmt_runs (c := .ctxStart x) nofun hr (mgmtDo_ctxStart ((startCheck_in i o _ x _).trans h))
  case drain =>
    intro i o x s hr hs
    exact exec_ctxStop_marks (by decide) hr hs
  case preempt =>
    intro i o x s hr hs
    exact exec_ctxStop_marks (by decide) hr hs
  case destroy =>
    intro i o x s hr hs
    exact exec_ofMgmt_runs (c := .ctxDestroy x) nofun hr (mgmtDo_ctxDestroy (by rw [getCtx_mgmtIn]; exact hs))

end Sys2Proof.Proofs

/-!
SUPPORT. Links of the fabric: what the loss and the return of a half-port and of its port do, and the frames that the first
receive checks drop (R231 to R233, R238, R253, R409).
-/
namespace Sys2Proof.Proofs
open Sys2Proof.Machine Sys2Proof.Laws

/-! ## Half-ports and ports (R233) -/

/-- A port as the loss of one of its halves leaves it, before its groups fail. -/
def halfLost (p half : Nat) (d : Dev) : Dev :=
  setPort p (fun x => { setHalf half false x with
    up := false, downs := if x.up then (x.downs + 1) % 65536 else x.downs }) d

section Half
variable {p : Nat} {d : Dev} (half : Nat)

/-- The loss of a half of a port that was down is marked, and fails no group. -/
theorem halfDown_of_down (h : (getPort d p).up = false) : halfDown p half d = halfLost p half d :=
  if_neg (by simp [h])

/-- The loss of a half of a port that was up fails the groups that the port carries. -/
theorem halfDown_of_up (h : (getPort d p).up = true) : halfDown p half d = (portGroups d p).foldl
    (fun d k => failGroup k .portDown (getGroup d k).self false d) (halfLost p half d) :=
  if_pos h

theorem getPort_halfLost_of_up (h : (getPort d p).up = true) : getPort (halfLost p half d) p =
    { setHalf half false (getPort d p) with up := false, downs := ((getPort d p).downs + 1) % 65536 } := by
  rw [halfLost, getPort_setPort, if_pos h]

end Half

theorem portUp_of_halves {p : Nat} {d : Dev} (h0 : (getPort d p).half0 = true) (h1 : (getPort d p).half1 = true) :
    portUp p d = setPort p (fun x => { x with up := true }) d :=
  if_pos (by rw [h0, h1]; rfl)

/-! ## Frames that the first checks drop (R231, R232, R238) -/

section Frames
variable {f : Frame} {belongs : Dev → Nat → Packet → Bool} {act : Nat → Packet → Dev → Dev} {b : Bool} {d : Dev}

theorem receive_paused (hp : f.pause = true) : receive f belongs b act d = d := if_pos (.inl hp)

/-- The port itself takes a frame that is no PAUSE frame. -/
theorem frame_taken (hp : f.pause = false) (hu : (getPort d f.port).up = true) :
    ¬ (f.pause = true ∨ (!(getPort d f.port).up) = true) := by
  simp [hp, hu]

theorem receive_misaddressed (hp : f.pause = false) (hu : (getPort d f.port).up = true) (ha : addressed d f = false) :
    receive f belongs b act d = countDrop f.port dropBadFrame d :=
  (if_neg (frame_taken hp hu)).trans (if_pos (by rw [ha]; rfl))

theorem receive_badHead (hp : f.pause = false) (hu : (getPort d f.port).up = true) (ha : addressed d f = true)
    (hh : headOk f.head = false) : receive f belongs b act d = countDrop f.port dropUnknownPkt d :=
  (if_neg (frame_taken hp hu)).trans ((if_neg (by rw [ha]; decide)).trans (if_pos (.inl (by rw [hh]; rfl))))

theorem badFrame_paused (hp : f.pause = true) : badFrame f d = d :=
  (guarded_true _ _ _ (by simp [hp])).trans (receive_paused hp)

theorem badFrame_misaddressed (hp : f.pause = false) (hu : (getPort d f.port).up = true) (ha : addressed d f = false) :
    badFrame f d = countDrop f.port dropBadFrame d :=
  (guarded_true _ _ _ (by simp [ha])).trans (receive_misaddressed hp hu ha)

theorem badFrame_badHead (hp : f.pause = false) (hu : (getPort d f.port).up = true) (ha : addressed d f = true)
    (hh : headOk f.head = false) : badFrame f d = countDrop f.port dropUnknownPkt d :=
  (guarded_true _ _ _ (by simp [hh])).trans (receive_badHead hp hu ha hh)

end Frames

/-- Settles O27: the loss of a half goes by whether its port was up, a loss of the clock by its length, and a bad frame by the
first check that it fails. -/
theorem fabricLinksAct : Obligations.FabricLinksAct := by
  refine ⟨?down, ?up, fun p h s hl => next_whenLive hl rfl, ?portUp, ?lost, ?short, ?bad, ?pause⟩
  case down =>
    intro p h s hl hu
    exact next_settled hl (halfDown_of_down h hu)
  case up =>
    intro p h s hl hu
    exact ⟨halfLost p h s.dev, next_settled hl (halfDown_of_up h hu), getPort_halfLost_of_up h hu, rfl,
      fun q hq => getPort_setPort_ne _ _ _ _ hq⟩
  case portUp =>
    intro p s hl h0 h1
    exact next_whenLive hl (portUp_of_halves h0 h1)
  case lost =>
    intro i ns s hl hns
    exact next_congr ((guarded_true _ _ _ (decide_eq_true hns)).trans (settled_live _ _ hl))
  case short =>
    intro i ns s hns
    exact next_congr (guarded_false _ _ _ (decide_eq_false (Nat.not_lt.2 hns)))
  case bad =>
    intro f s hl hp hu
    exact ⟨fun ha => next_whenLive hl (badFrame_misaddressed hp hu ha),
      fun ha hh => next_whenLive hl (badFrame_badHead hp hu ha hh)⟩
  case pause =>
    intro f s hp
    exact next_congr (by rw [whenLive, badFrame_paused hp, ite_self])

end Sys2Proof.Proofs

/-!
SUPPORT. Groups as the holder of management loads and unloads them, and rally steps as they are released and retire
(R241, R242, R247, R248, R251).
-/
namespace Sys2Proof.Proofs
open Sys2Proof.Machine Sys2Proof.Laws

/-! ## Loading and unloading (R241, R242) -/

/-- The two holders of management of a device in service, by name. -/
theorem holds_of_live {i : Issuer} {d : Dev} (hl : live d = true)
    (h : i = .porter ∧ porterManaged d = true ∨ i = .host .pf ∧ barAnswers d .pf = true ∧ porterManaged d = false) :
    holds i d = true := by
  obtain ⟨rfl, hp⟩ | ⟨rfl, hb, hp⟩ := h
  · simp [holds, hl, hp]
  · simp [holds, hb, hp]

/-- A group command of the holder of management takes its effect, whatever its result. -/
theorem groupCommand_runs {i : Issuer} {f : Dev → Reason × Dev} {d : Dev} (hl : live d = true) (h : holds i d = true) :
    whenIssuer i (onBar (groupCommand i f)) d = settle (f d).2 := by
  cases i with
  | host fn =>
    simp only [holds, Bool.and_eq_true, beq_iff_eq, Bool.not_eq_true'] at h
    obtain ⟨⟨rfl, hb⟩, hp⟩ := h
    rw [whenIssuer_host, whenBar_onBar hl hb, groupCommand, if_neg (by simp [hp])]
  | porter =>
    obtain ⟨-, hp⟩ := Bool.and_eq_true_iff.1 h
    rw [whenIssuer_porter, whenLive_live _ _ hl, onBar_live _ _ hl, groupCommand, if_pos hp]

section Load
variable {ev : LineEvent} {h : List Byte} {ms : List (List Byte)} {d e : Dev}
  (hd : readDesc (d.rly.gbase * 64) ev d = (.ok (h, ms), e))
include hd

/-- A descriptor that no check refuses fills the first free slot of its port. -/
theorem groupLoad_fills {slot : Nat} (hr : loadRefusal e (d.rly.gbase * 64) h ms = none)
    (hs : (((List.range 8).map (8 * byteAt h 0xA + ·)).find? fun k => !(getGroup e k).loaded) = some slot) :
    groupLoad ev d = (.ok, requestLease slot (sendPairKeys slot (setResult .ok (setGroup slot
      (fun _ => descGroup e (getSht e (byteAt h 0xA)).vf h ms) e)))) := by
  simp only [groupLoad, hd, hr, hs]

theorem groupLoad_refused {r : Reason} (hr : loadRefusal e (d.rly.gbase * 64) h ms = some r) :
    groupLoad ev d = (r, setResult r e) := by
  simp only [groupLoad, hd, hr]

end Load

theorem groupUnload_frees {p g slot : Nat} {d : Dev} (hs : findGroup d p g = some slot) (hn : groupNamed d p g = false) :
    groupUnload p g d = (.ok, setResult .ok (unloadSlot slot d)) := by
  simp only [groupUnload, hs, hn, Bool.false_eq_true, if_false]

/-! ## Release and retirement (R247, R248) -/

theorem releaseStep_releases {id : Nat} {c : Cmd} {d : Dev} (hc : cmdById d id = some c) (hh : c.limitHeld = true)
    (hn : limitHolds d c.oct c.raw = false) :
    releaseStep id d = setCmd id (fun x => { x with limitHeld := false }) d := by
  simp only [releaseStep, hc, hh, hn, Bool.not_false, Bool.and_self, if_true]

/-- A step that neither ends its collective nor decides a COMMIT ends DONE once it may retire. -/
theorem retireStep_done {id : Nat} {c : Cmd} {st : RStep} {d : Dev} (hs : stepOf d id = some st) (hc : cmdById d id = some c)
    (hm : mayRetire d st c.raw = true) (hlast : raLast c.raw = false ∨ raColl c.raw = 6)
    (hdecide : ¬ (raColl c.raw = 6 ∧ raStep c.raw = 1)) :
    retireStep id d = finish id .done .ok (slotInfo c) false (retireItem id (dropStep id d)) := by
  have hmid : ¬ (raLast c.raw = true ∧ raColl c.raw ≠ 6) := by
    rintro ⟨ht, hne⟩
    exact hlast.elim (fun hf => by simp [hf] at ht) hne
  simp only [retireStep, hs, hc, hm, hdecide, hmid, Bool.not_true, Bool.false_eq_true, if_false]

/-- Settles O28: a group command goes by its holder and its checks, and a step by what it waits for. -/
theorem groupsLoadAndStepsRetire : Obligations.GroupsLoadAndStepsRetire := by
  refine ⟨?load, ?refused, ?unload, ?release, ?retire⟩
  case load =>
    intro i ev h ms d slot s hl hi hd hr hs
    exact next_congr ((groupCommand_runs hl (holds_of_live hl hi)).trans (by rw [groupLoad_fills hd hr hs]))
  case refused =>
    intro i ev h ms d r s hl hi hd hr
    exact next_congr ((groupCommand_runs hl (holds_of_live hl hi)).trans (by rw [groupLoad_refused hd hr, setResult]))
  case unload =>
    intro i p g slot s hl hi hs hn
    exact next_congr ((groupCommand_runs hl (holds_of_live hl hi)).trans (by rw [groupUnload_frees hs hn]))
  case release =>
    intro id ev c s hl hc hh hn
    exact next_congr (meeting_settled (g := setCmd id (fun x => { x with limitHeld := false })) hl
      (releaseStep_releases (d := withLine ev s.dev) hc hh hn))
  case retire =>
    intro id ev c st s hl hs hc hm hlast hdecide
    exact next_congr (meeting_settled
      (g := fun d => finish id .done .ok (slotInfo c) false (retireItem id (dropStep id d))) hl
      (retireStep_done (d := withLine ev s.dev) hs hc hm hlast hdecide))

end Sys2Proof.Proofs

/-!
SUPPORT. DATA, RESULT and ACK packets: those that pass the checks and are taken, those whose tag or PSN is refused, and what the
timers of a pair send (R237 to R240, R255).
-/
namespace Sys2Proof.Proofs
open Sys2Proof.Machine Sys2Proof.Laws

/-! ## The replay check (R238) -/

/-- A frame with a good tag at a PSN that its pair has received is dropped and counted under REPLAY. -/
theorem receive_replayed {f : Frame} {belongs : Dev → Nat → Packet → Bool} {act : Nat → Packet → Dev → Dev} {b : Bool}
    {slot : Nat} {d : Dev} (h : packetReaches f slot d = true) (ht : tagOk d slot f = true)
    (hr : replayed (pairEpoch (getGroup d slot) (headPacket f.head []).src (headPacket f.head []).epoch
      (getPair (getGroup d slot) (headPacket f.head []).src)) (headPacket f.head []) = true) :
    receive f belongs b act d = countDrop f.port dropReplayPkt d := by
  simp only [packetReaches, Bool.and_eq_true, Bool.not_eq_true', beq_iff_eq, decide_eq_true_eq] at h
  obtain ⟨⟨⟨⟨⟨⟨⟨hpause, hup⟩, haddr⟩, hhead⟩, hlen⟩, hgroup⟩, hfits⟩, hends⟩ := h
  simp only [receive, hpause, hup, haddr, hhead, hgroup, hends, ht, hr, Nat.not_lt.2 hlen, Nat.not_lt.2 hfits, Bool.not_true,
    Bool.false_eq_true, or_self, gt_iff_lt, if_false, if_true]

/-! ## Packets whose payload is staged (R240) -/

/-- A staged packet of a row that meets line events is staged, taken, and acknowledged where that is due. -/
theorem meeting_receive_staged {f : Frame} {typed : Bool} {belongs : Dev → Nat → Packet → Bool} {slot : Nat} {d : Dev}
    (hl : live d = true) (hrow : typed = true) (h : packetPasses f slot d = true)
    (hb : belongs (withLine f.ev d) slot (packetOf d slot f) = true) (hf : stagingFits f slot d = true) :
    meeting f.ev (settled (guarded typed (receive f belongs true takeData))) d =
      meeting f.ev (fun e => settle (ackSoon slot (packetOf d slot f).src
        (takeData slot (packetOf d slot f) (packetStaged f slot e)))) d :=
  meeting_settled (g := fun e => ackSoon slot (packetOf d slot f).src
      (takeData slot (packetOf d slot f) (packetStaged f slot e))) hl
    ((guarded_true _ _ _ hrow).trans (receive_passes_staged (d := withLine f.ev d) h hb hf))

/-! ## The timers of a pair (R239) -/

theorem ackDue_sends {slot m : Nat} {d : Dev} (hld : (getGroup d slot).loaded = true) (hf : (getGroup d slot).failed = none)
    (ha : 0 < (getPair (getGroup d slot) m).toAck) : ackDue slot m d = sendAck slot m d :=
  if_pos ⟨hld, by rw [hf]; rfl, ha⟩

theorem retransmit_sends {slot m psn : Nat} {q : Sent} {d : Dev}
    (h : ((getPair (getGroup d slot) m).unacked.filter fun x => x.pkt.psn == psn) = [q]) :
    retransmit slot m psn d = transmit slot q d := by
  rw [retransmit, h]
  rfl

/-- Settles O29: a packet that passes is staged or marked and taken, one that a check refuses is counted, and a timer sends what
the pair owes. -/
theorem dataAndAcksAct : Obligations.DataAndAcksAct := by
  refine ⟨?data, ?result, ?ack, ?dropped, ?ackTimer, ?retransmit⟩
  case data =>
    rintro f slot p s hl h rfl ht hf hb
    exact next_congr (meeting_receive_staged hl (by rw [ht]; rfl) h hb hf)
  case result =>
    rintro f slot p s hl h rfl ht hf hb
    exact next_congr (meeting_receive_staged hl (by rw [ht]; rfl) h hb hf)
  case ack =>
    rintro f slot p s hl h rfl ht hlen
    exact next_congr (settled_receiveRow_passes hl (by rw [ofRow, ht]; rfl) h (beq_iff_eq.2 hlen))
  case dropped =>
    intro f slot s hl h ht
    have hrow : (f.typ == 1 || f.typ == 5) = true := by rw [ht]; rfl
    exact ⟨fun htag => next_congr (meeting_settled (g := countDrop f.port dropAuthPkt) hl
        ((guarded_true _ _ _ hrow).trans (receive_badTag (d := withLine f.ev s.dev) h htag))),
      fun htag hr => next_congr (meeting_settled (g := countDrop f.port dropReplayPkt) hl
        ((guarded_true _ _ _ hrow).trans (receive_replayed (d := withLine f.ev s.dev) h htag hr)))⟩
  case ackTimer =>
    intro p k m s hl hld hf ha
    exact next_whenLive hl (ackDue_sends hld hf ha)
  case retransmit =>
    intro p k m psn q s hl h
    exact next_whenLive hl (retransmit_sends h)

end Sys2Proof.Proofs

/-!
SUPPORT. LEASE packets of the switch, and the timers by which a coordinator keeps its lease (R252, R254, R261 to R265).
-/
namespace Sys2Proof.Proofs
open Sys2Proof.Machine Sys2Proof.Laws

/-! ## What marking a packet leaves alone (R237, R238) -/

@[simp] theorem sendPairKey_group (slot : Nat) (first : Bool) (d : Dev) : (sendPairKey slot first d).group = d.group := by
  unfold sendPairKey
  dsimp only
  split
  · rfl
  · split <;> rfl

@[simp] theorem movedOn_group (slot m was : Nat) (d : Dev) : (movedOn slot m was d).group = d.group := by
  unfold movedOn
  split
  · exact sendPairKey_group _ _ _
  · rfl

/-- Marking a packet changes its pair, so the group's query stands. -/
theorem packetMarked_query (f : Frame) (slot : Nat) (d : Dev) :
    (getGroup (packetMarked f slot d) slot).query = (getGroup d slot).query := by
  rw [packetMarked, getGroup, movedOn_group, ← getGroup, setPair, getGroup_setGroup]

/-! ## Packets and timers -/

section Lease
variable {slot : Nat} {p : Packet} {d : Dev}

theorem src_of_fromSwitch (h : fromSwitch d slot p = true) : (p.src == switchNo) = true := by
  simp only [fromSwitch, Bool.and_eq_true] at h
  exact h.1.1

/-- A MISSING that answers the outstanding query names the late member. -/
theorem takeMissing_answers {q : Nat × Nat × Nat} (hq : (getGroup d slot).query = some q)
    (hseq : q.1 = beNat (slice p.payload 0 4)) (hchunk : q.2.1 = beNat (slice p.payload 4 4)) :
    takeMissing slot p d = abortAll slot (beNat (slice p.payload 8 2)) false d := by
  simp only [takeMissing, hq, hseq, hchunk, and_self, if_true]

theorem renewLease_renews {l : Lease} (hlease : (getGroup d slot).lease = some l) (hld : (getGroup d slot).loaded = true)
    (hf : (getGroup d slot).failed = none) (h0 : (getGroup d slot).self = 0) :
    renewLease slot d = sendLease slot 4 l.id [] d := by
  simp only [renewLease, hlease, hld, hf, h0, Option.isNone_none, and_self, if_true]

end Lease

/-- Settles O31: each row receives a packet of the switch in the same way, and a timer sends what the group's state calls for. -/
theorem leasePacketsAct : Obligations.LeasePacketsAct := by
  refine ⟨?rows, ?renew, ?retry⟩
  case rows =>
    rintro f slot p s hl h rfl hsw ht
    have row {sub : Nat} {act : Nat → Packet → Dev → Dev} (hs : f.sub = sub) :=
      next_congr (s := s) (settled_receiveRow_passes (act := act) hl (ofRow_some ht hs) h hsw)
    refine ⟨row, row, row, fun hs => ?peerDown, fun q hq hseq hchunk hs => (row hs).trans ?missing⟩
    case peerDown =>
      exact next_congr (settled_receiveRow_passes hl (ofRow_some ht hs) h (src_of_fromSwitch hsw))
    case missing => rw [takeMissing_answers ((packetMarked_query f slot s.dev).trans hq) hseq hchunk]
  case renew =>
    intro p k l s hl hlease hld hf h0
    exact next_whenLive hl (renewLease_renews hlease hld hf h0)
  case retry =>
    intro p k s hl hld
    exact next_whenLive hl (guarded_true _ _ _ hld)

end Sys2Proof.Proofs

/-!
SUPPORT. Rally's timers: heartbeats, silent neighbours, late steps, and the waits for an ABORT and for the switch's answer
(R244, R252, R254).
-/
namespace Sys2Proof.Proofs
open Sys2Proof.Machine Sys2Proof.Laws

/-! ## Heartbeats and silence (R244, R254) -/

section Neighbours
variable {slot : Nat} {d : Dev} (hld : (getGroup d slot).loaded = true)
include hld

theorem heartbeat_toCoordinator (h0 : (getGroup d slot).self ≠ 0) : heartbeat slot true d =
    sendUnrel slot 0 (beatPkt d slot 0) (setGroup slot (fun g => { g with hbSent := some d.tck.now }) d) := by
  simp only [heartbeat, hld, h0, Bool.not_true, Bool.false_eq_true, if_false, if_true]

theorem heartbeat_toNeighbours : heartbeat slot false d =
    ([((getGroup d slot).self + 1) % memberCount (getGroup d slot),
      ((getGroup d slot).self + memberCount (getGroup d slot) - 1) % memberCount (getGroup d slot)].eraseDups.filter
        (· != (getGroup d slot).self)).foldl (fun d n => sendUnrel slot n (beatPkt d slot n) d) d := by
  simp only [heartbeat, hld, Bool.not_true, Bool.false_eq_true, if_false]

theorem silence_loses {m : Nat} (hm : m = ((getGroup d slot).self + 1) % memberCount (getGroup d slot) ∨
      m = ((getGroup d slot).self + memberCount (getGroup d slot) - 1) % memberCount (getGroup d slot))
    (hne : m ≠ (getGroup d slot).self) (hh : (getPair (getGroup d slot) m).heard = true) :
    silence slot m d = declareLost slot m d :=
  if_pos ⟨hld, Bool.or_eq_true_iff.2 (hm.imp beq_iff_eq.2 beq_iff_eq.2), hne, hh⟩

end Neighbours

/-! ## Lateness (R252) -/

section Late
variable {id : Nat} {st : RStep} {d : Dev}

theorem rallyDeadline_late (hs : stepOf d id = some st) (hz : st.left = 0) (hl : st.lateLeft = none) :
    rallyDeadline id d = rallyLate st d := by
  simp only [rallyDeadline, hs, hz, hl, Option.isNone_none, and_self, if_true]

theorem abortWait_aborts (hs : stepOf d id = some st) (hz : st.lateLeft = some 0) (h0 : (getGroup d st.slot).self ≠ 0) :
    abortWait id d = abortAll st.slot 0 true d := by
  simp only [abortWait, hs]
  exact if_pos ⟨hz, h0⟩

theorem queryTimeout_aborts {slot : Nat}
    (h : ((List.range 64).find? fun k => (getGroup d k).query.any fun q => q.2.2 == id) = some slot) :
    queryTimeout id d = abortAll slot switchNo false d := by
  simp only [queryTimeout, h]

end Late

/-- Settles O32: each timer does what its group, its step or its query calls for. -/
theorem rallyTimersAct : Obligations.RallyTimersAct := by
  refine ⟨?beat, ?silence, ?deadline, ?abort, ?query⟩
  case beat =>
    intro p k s hl hld
    exact ⟨fun h0 => next_whenLive hl (heartbeat_toCoordinator hld h0), next_whenLive hl (heartbeat_toNeighbours hld)⟩
  case silence =>
    intro p k m s hl hld hm hne hh
    exact next_settled hl (silence_loses hld hm hne hh)
  case deadline =>
    intro id st s hl hs hz hlate
    exact next_settled hl (rallyDeadline_late hs hz hlate)
  case abort =>
    intro id st s hl hs hz h0
    exact next_settled hl (abortWait_aborts hs hz h0)
  case query =>
    intro id slot s hl h
    exact next_settled hl (queryTimeout_aborts h)

end Sys2Proof.Proofs

/-!
SUPPORT. Charters over the mailbox: what the last part of one does, what waits for the parts that follow, and the append that
nothing waits for (R271 to R273, R341, R349).
-/
namespace Sys2Proof.Proofs
open Sys2Proof.Machine Sys2Proof.Laws

section Charter
variable {op : Nat} {seq : Word} {pl : List Byte} {d : Dev} {v : Nat} {b : List Byte}

/-- A charter that passed its checks is loaded: the domains of an earlier one rotate, and its withdrawals still wait (R273). -/
def charterLoaded (v : Nat) (b : List Byte) (d : Dev) : Dev :=
  partChanged v (setCharter v (fun _ => { parseCharter b with withdrawing := (getCharter d v).withdrawing }) (secretsHeld
    ((if (getCharter d v).state = .none then id
      else fun d' => (charterDomains (getCharter d v)).foldl (fun d k => rotateDomain k d) d') d)))

theorem charterLoad_passes (h : charterCheck d v b = none) : charterLoad v b d = (.ok, charterLoaded v b d) := by
  unfold charterLoad charterLoaded
  rw [h]
  dsimp only
  split <;> rfl

theorem charterLoad_refused {r : Reason} (h : charterCheck d v b = some r) : charterLoad v b d = (r, d) := by
  unfold charterLoad
  rw [h]

/-- The checks of a charter see neither the request in progress nor the parts that wait. -/
theorem charterCheck_taken : charterCheck (noCharterPart (mboxTake op seq pl d)) v b = charterCheck d v b :=
  charterCheck_ptr d _ v b rfl

/-- The last part of a charter that passes its checks. -/
theorem lastPart_passes (h : charterCheck d v b = none) :
    charterPart v b true (mboxTake op seq pl d) = (.ok, charterLoaded v b (noCharterPart (mboxTake op seq pl d))) :=
  charterLoad_passes (charterCheck_taken.trans h)

theorem lastPart_refused {r : Reason} (h : charterCheck d v b = some r) :
    charterPart v b true (mboxTake op seq pl d) = (r, noCharterPart (mboxTake op seq pl d)) :=
  charterLoad_refused (charterCheck_taken.trans h)

theorem charterPart_kept : charterPart v b false d = (.ok, keepCharterPart v b d) := rfl

/-- A further part goes by the bytes that wait, with its own after them. -/
theorem charterAppend_continues {l : List Byte} (h : d.ptr.loading = some (v, l)) (final : Bool) :
    charterAppend b final (mboxTake op seq pl d) = charterPart v (l ++ b) final (mboxTake op seq pl d) := by
  simp only [charterAppend, mboxTake, h]

theorem charterAppend_unstarted (h : d.ptr.loading = none) (final : Bool) :
    charterAppend b final (mboxTake op seq pl d) = (.fieldConflict, mboxTake op seq pl d) := by
  simp only [charterAppend, mboxTake, h]

end Charter

/-- Settles O35: the mailbox takes each request, and its part is loaded, refused or kept by charterPart. -/
theorem chartersLoad : Obligations.ChartersLoad := by
  refine ⟨?loads, ?refused, ?keeps, ?appends, ?appendLoads, ?unstarted⟩
  case loads =>
    intro seq v b s hm hc
    exact next_congr (mailbox_ends (g := fun d => charterLoaded v b (noCharterPart d)) hm (lastPart_passes hc))
  case refused =>
    intro seq v b r s hm hc
    exact next_congr (mailbox_ends (g := noCharterPart) hm (lastPart_refused hc))
  case keeps =>
    intro seq v b s hm
    exact next_congr (mailbox_ends (g := keepCharterPart v b) hm charterPart_kept)
  case appends =>
    intro seq v l b s hm hw
    exact next_congr (mailbox_ends (g := keepCharterPart v (l ++ b)) hm
      ((charterAppend_continues hw false).trans charterPart_kept))
  case appendLoads =>
    intro seq v l b s hm hw hc
    exact next_congr (mailbox_ends (g := fun d => charterLoaded v (l ++ b) (noCharterPart d)) hm
      ((charterAppend_continues hw true).trans (lastPart_passes hc)))
  case unstarted =>
    intro seq b final s hm hw
    exact next_congr (mailbox_ends (g := id) hm (charterAppend_unstarted hw final))

end Sys2Proof.Proofs

/-!
SUPPORT. What a party decides in its session: an approval, a withdrawal and its effect at the boundary, and the job key of a group
(R271, R274 to R276, R342).
-/
namespace Sys2Proof.Proofs
open Sys2Proof.Machine Sys2Proof.Laws

theorem vendorAnswer_ok (fn : Nat) (d : Dev) : vendorAnswer fn .ok d = spdmSay fn 0x7E [] d := if_pos rfl

section Party
variable {x : Session} {v n : Nat} {d : Dev}

/-- An approval of the PENDING charter, by its hash and the present GENERATION (R274). -/
theorem charterApprove_records (hv : sessVf x = some v) (hp : charterParty (getCharter d v) x = some n)
    (hs : (getCharter d v).state = .pending) :
    charterApprove x (getCharter d v).hash d.ret.generation d = spdmSay x.fn 0x7E []
      (if (getCharter d v).approved ||| partyBit n = onDieMask (getCharter d v).n then
        activate v (setCharter v (fun c => { c with approved := c.approved ||| partyBit n }) d)
      else setCharter v (fun c => { c with approved := c.approved ||| partyBit n }) d) := by
  simp only [charterApprove, hv, hp, hs, ne_eq, not_true_eq_false, or_self, if_false, getCharter_setCharter, vendorAnswer_ok]

/-- The first withdrawal from an ACTIVE charter (R276). -/
theorem charterWithdraw_active (hv : sessVf x = some v) (hp : charterParty (getCharter d v) x = some n)
    (hs : (getCharter d v).state = .active) :
    charterWithdraw x d = spdmSay x.fn 0x7E [] (partChanged v (setCharter v (fun c =>
      { c with state := .withdrawn, withdrawing := c.withdrawing ++ (c.parties[n]?).toList }) d)) := by
  simp only [charterWithdraw, hv, hp, hs, ne_eq, not_true_eq_false, false_and, if_false, if_true, vendorAnswer_ok]

theorem jobKeyDeliver_installs {g : Nat} {key : List Byte} (hv : sessVf x = some v)
    (hmay : porterManaged d = false ∨ charterParty (getCharter d v) x = some 0) (hg : groupLoaded d v g = false) :
    jobKeyDeliver x g key d = spdmSay x.fn 0x7E [] (putJobKey v g key d) := by
  have hgo : ¬ (porterManaged d = true ∧ charterParty (getCharter d v) x ≠ some 0) := fun ⟨hp, hne⟩ =>
    hmay.elim (fun hf => by simp [hf] at hp) hne
  simp only [jobKeyDeliver, hv, hgo, hg, Bool.false_eq_true, if_false, vendorAnswer_ok]

end Party

/-- The parties that wait for the boundary withdraw, one after another (R276). -/
theorem withdrawEffect_waiting {v : Nat} {d : Dev} (h : (getCharter d v).withdrawing ≠ []) :
    withdrawEffect v d = (getCharter d v).withdrawing.foldl (fun d p =>
      rotateDomain p.domain ((List.range 16).foldl (fun d w => if keyedTo d v w p then winDisable v w d else d) d))
        (faultPartition v .charterMismatch { recBase with source := 10 }
          (setCharter v (fun c => { c with withdrawing := [] }) d)) :=
  if_neg (by simpa using h)

/-- Settles O36: the session reaches its VF's charter, and each request does there what its state and its party allow. -/
theorem partiesDecide : Obligations.PartiesDecide := by
  refine ⟨?approve, ?withdraw, ?effect, ?jobKey⟩
  case approve =>
    rintro k n x v dig gen s hl hx hfn hf hp hs rfl rfl
    have happ := (inSession_runs (g := fun x => charterApprove x _ _) hl hx hfn hf).trans
      (charterApprove_records (sessVf_of_vf hfn) hp hs)
    exact ⟨fun hne => next_congr (tracked_congr _ _ _ (happ.trans (by rw [if_neg hne]))),
      fun hall => next_congr (tracked_congr _ _ _ (happ.trans (by rw [if_pos hall])))⟩
  case withdraw =>
    intro k n x v s hl hx hfn hf hp hs
    exact next_congr (tracked_congr _ _ _ ((inSession_runs hl hx hfn hf).trans
      (charterWithdraw_active (sessVf_of_vf hfn) hp hs)))
  case effect =>
    intro v s hl hw
    exact next_settled hl (withdrawEffect_waiting hw)
  case jobKey =>
    intro k g key x v s hl hx hfn hf hmay hg
    exact next_congr ((inSession_runs hl hx hfn hf).trans (jobKeyDeliver_installs (sessVf_of_vf hfn) hmay hg))

end Sys2Proof.Proofs

/-!
SUPPORT. Transom windows and Threshold pools: the check at EN, the end of a window that nothing uses, and REARM
(R287, R292, R299 to R301).
-/
namespace Sys2Proof.Proofs
open Sys2Proof.Machine Sys2Proof.Laws

section Window
variable {v w : Nat} {d : Dev}

/-! ## EN (R293, R299, R390) -/

theorem winEnable_passes (he : (getWin d v w).en = false) (hc : winCheck d v w (getWin d v w) = none) :
    winEnable v w d = (.ok, newEpoch v w (setWin v w (fun x =>
      { x with en := true, live := true, ended := false, secret := sessionSecret d x.session }) (setStatus 0x90000 none d))) := by
  simp only [winEnable, he, hc, Bool.false_eq_true, if_false]
  rfl

theorem winEnable_fails {e : Reason × Nat} (he : (getWin d v w).en = false)
    (hc : winCheck d v w (getWin d v w) = some e) : winEnable v w d = (e.1, setStatus 0x90000 (some e) d) := by
  simp only [winEnable, he, hc, Bool.false_eq_true, if_false]

/-! ## The end of a window (R300) -/

theorem faultXfers_none {p : Xfer → Bool} (h : ∀ x ∈ d.xfers, (xferOpen x && p x) = false) (r : Reason) :
    faultXfers p r d = d := by
  have hnil : (d.xfers.filter fun x => xferOpen x && p x) = [] := List.filter_eq_nil_iff.2 fun x hx => by simp [h x hx]
  rw [faultXfers, hnil, List.foldl_nil]

/-- With no open transfer that uses it and no ring in it, a window's end changes the window alone. -/
theorem winDisable_unused (hx : ∀ x ∈ d.xfers, (xferOpen x && usesWin d v w x) = false)
    (hq : ∀ o q, ringIn w (getQueue d o q) = false) :
    winDisable v w d = setWin v w (fun x =>
      { x with en := false, live := false, ended := false, rearm := false, statusDue := false }) d := by
  unfold winDisable
  extract_lets closed faulted
  have hfault : faulted = closed := faultXfers_none (d := closed) hx _
  have hring : ∀ o q, ¬ ringIn w (getQueue closed o q) = true := fun o q => ne_true_of_eq_false (hq o q)
  rw [hfault]
  exact List.foldl_fixed' (fun o => List.foldl_fixed' (fun q => if_neg (hring o q)) _) _

/-! ## REARM (R299, R388) -/

theorem rearm_marks {f : Fn} (hm : mayRearm d f v = true) (hr : (getWin d v w).ring = false)
    (he : (getWin d v w).en = true) : rearm f v w d = setWin v w (fun x => { x with rearm := true }) d := by
  simp only [rearm, hm, hr, he, Bool.not_true, Bool.false_eq_true, if_false]

theorem rearmEffect_starts (hr : (getWin d v w).rearm = true) (hl : (getWin d v w).live = true)
    (hx : (d.xfers.any fun x => xferOpen x && usesWin d v w x) = false) :
    rearmEffect v w d = partChanged v (newEpoch v w d) :=
  if_pos ⟨hr, hl, by rw [hx]; rfl⟩

end Window

/-! ## Pools (R287) -/

section Pool
variable {n : Nat} {d : Dev}

theorem poolEnable_passes (he : (getPool d n).en = false) (hc : poolCheck d n (getPool d n) = none) :
    poolEnable n d = (.ok, setPool n freshPool (setStatus 0xA0000 none d)) := by
  simp only [poolEnable, he, hc, Bool.false_eq_true, if_false]

theorem poolEnable_fails {e : Reason × Nat} (he : (getPool d n).en = false) (hc : poolCheck d n (getPool d n) = some e) :
    poolEnable n d = (e.1, setStatus 0xA0000 (some e) d) := by
  simp only [poolEnable, he, hc, Bool.false_eq_true, if_false]

end Pool

/-- Settles O37: the holder's commands go by the check at EN, and a window ends or starts an epoch where nothing uses it. -/
theorem windowsAndPoolsAct : Obligations.WindowsAndPoolsAct := by
  refine ⟨?enable, ?enableFails, ?close, ?disable, ?rearm, ?rearmEffect, ?pool, ?poolFails⟩
  case enable =>
    intro i v w s hh he hc
    exact next_congr ((holder_runs hh).trans (congrArg Prod.snd (winEnable_passes he hc)))
  case enableFails =>
    intro i v w e s hh he hc
    exact next_congr ((holder_runs hh).trans (congrArg Prod.snd (winEnable_fails he hc)))
  case close =>
    intro i v w s hh
    exact next_congr (holder_runs hh)
  case disable =>
    intro v w s hl hlive he hx hq
    exact next_settled hl ((guarded_true _ _ _ (by rw [hlive, he]; rfl)).trans (winDisable_unused hx hq))
  case rearm =>
    intro f v w s hb hm hr he
    exact next_congr ((whenBar_answers _ _ _ hb).trans (rearm_marks hm hr he))
  case rearmEffect =>
    intro v w s hl hr hlive hx
    exact next_whenLive hl (rearmEffect_starts hr hlive hx)
  case pool =>
    intro i n s hh he hc
    exact next_congr ((holder_runs hh).trans (congrArg Prod.snd (poolEnable_passes he hc)))
  case poolFails =>
    intro i n e s hh he hc
    exact next_congr ((holder_runs hh).trans (congrArg Prod.snd (poolEnable_fails he hc)))

end Sys2Proof.Proofs

/-!
SUPPORT. L2 of a partition: what a request for it does, the mark that it sets, and what its completion makes of the octants
(R309, R362, R366, R433).
-/
namespace Sys2Proof.Proofs
open Sys2Proof.Machine Sys2Proof.Laws

@[simp] theorem mem_members8 {b : BitVec 8} {o : Fin 8} : o.val ∈ members8 b ↔ b.getLsbD o = true := by
  simp [members8, has8]

/-! ## Requests (R362, R366, R433) -/

theorem exec_l2Reset {f : Fn} {v : Fin 8} {s : State} (hl : live s.dev = true) (hb : barAnswers s.dev f = true) :
    exec (.l2Reset f v) s = .next { s with dev := settle (requestL2 f v s.dev) } :=
  next_congr (whenBar_onBar hl hb)

section Request
variable {v : Nat} {d : Dev}

theorem requestL2_notLive (h : (getPart d v).live = false) : requestL2 .pf v d = setReq .fieldConflict d := by
  simp [requestL2, h]

/-- A request for a partition that exists: OK, and its reason is a free value (log 39). -/
theorem requestL2_live (h : (getPart d v).live = true) :
    requestL2 .pf v d = l2ByHost v (freeReason d.free) (setReq .ok { d with free := d.free + 1 }) := by
  simp only [requestL2, h, Bool.not_true, Bool.false_eq_true, if_false]
  rfl

theorem requestL2_otherVf {v u : Fin 8} (h : u ≠ v) : requestL2 (.vf u) v d = reqDropped (.vf u) d := by
  have hne : (u.val == v.val) = false := beq_false_of_ne (Fin.val_ne_of_ne h)
  simp [requestL2, hne]

theorem l2ByHost_covered (h : (getPart d v).live = true) (hc : l2Covered d v = true) (r : Reason) :
    l2ByHost v r d = record { recBase with reason := r, source := 15, action := 3, subsumed := true, vf := some v } false d := by
  simp only [l2ByHost, h, hc, Bool.not_true, Bool.false_eq_true, if_false, if_true]

/-- With AUTO 0 no dump is taken first (R370). -/
theorem l2ByHost_runs (h : (getPart d v).live = true) (hc : l2Covered d v = false) (ha : d.ump.auto = false) (r : Reason) :
    l2ByHost v r d = tracked (l2Run v r 15) d := by
  simp only [l2ByHost, l2Start, h, hc, ha, Bool.not_true, Bool.not_false, Bool.false_eq_true, if_false, if_true]

/-- Taking a request changes neither the partition nor the levels that run. -/
theorem requestL2_covered (h : (getPart d v).live = true) (hc : l2Covered d v = true) :
    requestL2 .pf v d = record { recBase with
      reason := freeReason d.free, source := 15, action := 3, subsumed := true, vf := some v } false
      (setReq .ok { d with free := d.free + 1 }) :=
  (requestL2_live h).trans (l2ByHost_covered (d := setReq .ok { d with free := d.free + 1 }) h hc _)

theorem requestL2_runs (h : (getPart d v).live = true) (hc : l2Covered d v = false) (ha : d.ump.auto = false) :
    requestL2 .pf v d = tracked (l2Run v (freeReason d.free) 15) (setReq .ok { d with free := d.free + 1 }) :=
  (requestL2_live h).trans (l2ByHost_runs (d := setReq .ok { d with free := d.free + 1 }) h hc ha _)

end Request

/-! ## The level (R362) -/

/-- A level that runs is marked: what it does after the mark keeps the Umpire's registers. -/
theorem l2Run_marks (v : Fin 8) (r : Reason) (source : Nat) (d : Dev) : has8 (l2Run v r source d).ump.l2 v = true := by
  unfold l2Run
  dsimp only
  rw [foldl_keeps Dev.ump _ (fun d o => l2step_ump o _ d), foldl_keeps Dev.ump _ (fun d k => loseGroup_ump k d)]
  exact has8_set8 _ v

/-! ## Its completion (R309, R362) -/

section Complete
variable {v : Fin 8} {d : Dev}

theorem l2Complete_clears (h : has8 d.ump.l2 v = true) (diffs : List StoreDiff) :
    has8 (l2Complete v diffs d).ump.l2 v = false := by
  obtain ⟨e, he⟩ := l2Complete_eq v diffs d h
  rw [he]
  exact has8_clr8 _ v

/-- The completion leaves the octants as their reset scrubs do. -/
theorem l2Complete_sht (h : has8 d.ump.l2 v = true) (diffs : List StoreDiff) :
    (l2Complete v diffs d).sht = ((members8 (getPart d v).octants).foldl (fun d o => resetScrub diffs o d) d).sht := by
  simp only [l2Complete, h, Bool.not_true, Bool.false_eq_true, if_false]
  exact renewWindows_sht _ _

theorem l2Complete_state (h : has8 d.ump.l2 v = true) {o : Fin 8} (ho : (getPart d v).octants.getLsbD o = true)
    (hf : (getSht d o).state ≠ .failed) :
    (getSht (l2Complete v [] d) o).state = if (getSht d o).zeroFill then .zeroFilling else .clean := by
  rw [getSht, l2Complete_sht h]
  exact (resetScrub_fold _ d o (members8_nodup _)).trans (if_pos ⟨mem_members8.2 ho, hf⟩)

end Complete

/-- Settles O50: a request goes by what covers it, the mark stands past all that the level does, and the completion's scrubs are
told apart octant by octant. -/
theorem partitionResetsAct : Obligations.PartitionResetsAct := by
  refine ⟨?runs, ?covered, ?notLive, ?otherVf, fun v r source d hv => l2Run_marks ⟨v, hv⟩ r source d, ?complete⟩
  case runs =>
    intro v s hl hb hp hc ha
    exact (exec_l2Reset hl hb).trans (next_congr (congrArg settle (requestL2_runs hp hc ha)))
  case covered =>
    intro v s hl hb hp hc
    exact (exec_l2Reset hl hb).trans (next_congr (congrArg settle (requestL2_covered hp hc)))
  case notLive =>
    intro v s hl hb hp
    exact (exec_l2Reset hl hb).trans (next_congr (congrArg settle (requestL2_notLive hp)))
  case otherVf =>
    intro v u s hl hb hne
    exact (exec_l2Reset hl hb).trans (next_congr (congrArg settle (requestL2_otherVf hne)))
  case complete =>
    intro v s hl h
    exact ⟨l2Complete v [] s.dev, next_settled hl rfl, l2Complete_clears h [], fun o => l2Complete_state h⟩

end Sys2Proof.Proofs

/-!
SUPPORT. Partitions and their octants: creation and its effect, release and its effect, the scrub and the zero-fill
(R303 to R307, R309, R312, R313).
-/
namespace Sys2Proof.Proofs
open Sys2Proof.Machine Sys2Proof.Laws

/-! ## Counting a change of the report changes no partition and no octant (R334) -/

@[simp] theorem getPart_tracked (f : Dev → Dev) (d : Dev) (v : Nat) : getPart (tracked f d) v = getPart (f d) v :=
  tracked_get (fun d => getPart d v) f d fun _ => rfl

@[simp] theorem getSht_tracked (f : Dev → Dev) (d : Dev) (o : Nat) : getSht (tracked f d) o = getSht (f d) o :=
  tracked_get (fun d => getSht d o) f d fun _ => rfl

/-! ## Creation (R303 to R305) -/

section Create
variable {v : Nat} {d : Dev}

theorem partCreate_new {octants kb kc : Nat} {z : Bool} (he : (getPart d v).en = false)
    (hl : (getPart d v).live = false) {p : Part}
    (hp : p = { getPart d v with octants := BitVec.ofNat 8 octants, kdBase := kb, kdCount := kc, zeroFill := z }) :
    (partCreate v octants kb kc z d).2 = setStatus 0x70000 (createCheck d v p)
      (setPart v (fun _ => { p with en := (createCheck d v p).isNone }) d) := by
  subst hp
  simp only [partCreate, he, hl, Bool.false_eq_true, if_false]

/-- The state in which the octants of an enabled partition join it. -/
def createdPart (v : Nat) (d : Dev) : Dev :=
  (List.range 16).foldl (fun d w => setWin v w (fun x => { x with authBase := x.authFail }) d)
    (setPart v (fun p => { p with live := true }) (secretsHeld d))

/-- Beside the entry of the partition and SECRETS_ERASED, only its windows have changed by then. -/
theorem createdPart_keeps {γ : Type} (P : Dev → γ) (h : ∀ w f d, P (setWin v w f d) = P d) (d : Dev) :
    P (createdPart v d) = P (setPart v (fun p => { p with live := true }) (secretsHeld d)) :=
  foldl_keeps P _ (fun d w => h w _ d) _ _

theorem createEffect_enabled (he : (getPart d v).en = true) (hl : (getPart d v).live = false) :
    createEffect v d = ((List.finRange 8).filter fun (o : Fin 8) => has8 (getPart d v).octants o.val).foldl (joinOctant v)
      (createdPart v d) := by
  simp only [createEffect, he, hl, Bool.not_true, Bool.false_eq_true, or_self, if_false]
  rfl

theorem createEffect_live (he : (getPart d v).en = true) (hl : (getPart d v).live = false) :
    (getPart (createEffect v d) v).live = true := by
  rw [createEffect_enabled he hl, getPart, foldl_keeps Dev.part _ (join_part v), createdPart_keeps Dev.part fun _ _ _ => rfl]
  exact congrArg Part.live (getPart_setPart v _ _)

theorem createEffect_erased (he : (getPart d v).en = true) (hl : (getPart d v).live = false) :
    (createEffect v d).ptr.erased = false := by
  rw [createEffect_enabled he hl, foldl_keeps Dev.ptr _ (join_ptr v), createdPart_keeps Dev.ptr fun _ _ _ => rfl]
  rfl

/-- The partition's octants join it, and the others are as they were. -/
theorem createEffect_sht (he : (getPart d v).en = true) (hl : (getPart d v).live = false) (o : Fin 8) :
    getSht (createEffect v d) o = if (getPart d v).octants.getLsbD o = true then
      { getSht d o with owned := true, vf := v } else getSht d o := by
  have hkeep : getSht (createdPart v d) o = getSht d o := createdPart_keeps (fun d => getSht d o) (fun _ _ _ => rfl) d
  rw [createEffect_enabled he hl, join_fold v _ _ o ((List.nodup_finRange 8).filter _), hkeep]
  simp [has8]

end Create

/-! ## Release (R306) -/

section Release
variable {v : Nat} {d : Dev}

theorem partRelease_idle (he : (getPart d v).en = true) (hl : (getPart d v).live = true) (hi : partIdle d v = true)
    (hr : resetting d v = false) :
    (partRelease v d).2 = setStatus 0x70000 none (setPart v (fun p => { p with en := false, releasing := true }) d) := by
  simp only [partRelease, he, hl, hi, hr, Bool.not_true, Bool.false_eq_true, or_self, if_false]

/-- An octant that a partition of a VF leaves: it scrubs, unless it is FAILED. -/
def releasedOctant (v : Nat) (zeroFill : Bool) (x : ShtOct) : ShtOct :=
  { x with
    owned := false, vf := 0, state := if x.state = .failed then .failed else .scrubbing
    zeroFill := zeroFill && x.state != .failed, oldVf := some v }

/-- A release that takes effect ends the partition, its charter and fine timing, and then lets its octants go, which nothing
before has changed. -/
theorem releaseEffect_releases (hl : (getPart d v).live = true) (hr : (getPart d v).releasing = true)
    (he : (getPart d v).en = false) :
    ∃ e, releaseEffect v d = (members8 (getPart d v).octants).foldl
        (fun e o => setSht o (releasedOctant v (getPart d v).zeroFill) e) e ∧
      e.sht = d.sht ∧ (getPart e v).live = false ∧ getCharter e v = Charter.zero ∧ e.pwr.fine = false := by
  have hgo : ¬ (!((getPart d v).live && (getPart d v).releasing && !(getPart d v).en)) = true := by simp [hl, hr, he]
  rw [releaseEffect]
  extract_lets octs windows slot pools groups plans pwr ump ended range ks gone
  rw [if_neg hgo]
  have hsht : plans.sht = d.sht :=
    calc plans.sht = groups.sht := foldl_sht _ (fun d o => dropApply_sht _ o d) _ _
      _ = pools.sht := foldl_sht _ (fun d k => unloadSlot_sht k d) _ _
      _ = slot.sht := foldl_sht _ (fun d i => setPool_sht _ _ d) _ _
      _ = windows.sht := setSlot_sht v _ windows
      _ = d.sht := foldl_sht _ (fun d w => by split <;> simp [winDisable_sht]) _ _
  refine ⟨gone, rfl, hsht, ?live, ?charter, rfl⟩
  · exact congrArg Part.live (getPart_setPart v _ _)
  · exact getCharter_setCharter v _ _

/-- The release ends the partition; letting its octants go changes nothing else. -/
theorem releaseEffect_ends (hl : (getPart d v).live = true) (hr : (getPart d v).releasing = true)
    (he : (getPart d v).en = false) :
    (getPart (releaseEffect v d) v).live = false ∧ getCharter (releaseEffect v d) v = Charter.zero ∧
      (releaseEffect v d).pwr.fine = false := by
  obtain ⟨e, heff, -, hpart, hcharter, hfine⟩ := releaseEffect_releases hl hr he
  rw [heff, keepSht (fun e => getPart e v) fun _ _ _ => rfl, keepSht (fun e => getCharter e v) fun _ _ _ => rfl,
    keepSht Dev.pwr fun _ _ _ => rfl]
  exact ⟨hpart, hcharter, hfine⟩

theorem releaseEffect_octant (hl : (getPart d v).live = true) (hr : (getPart d v).releasing = true)
    (he : (getPart d v).en = false) {o : Fin 8} (ho : (getPart d v).octants.getLsbD o = true) :
    getSht (releaseEffect v d) o = releasedOctant v (getPart d v).zeroFill (getSht d o) := by
  obtain ⟨e, heff, hsht, -⟩ := releaseEffect_releases hl hr he
  rw [heff, setSht_fold _ _ _ _ (members8_nodup _), if_pos (mem_members8.2 ho), getSht, hsht, getSht]

end Release

/-! ## Scrubs (R309, R312, R313) -/

section Scrub
variable {o : Nat} {d : Dev}

/-- A scrub that starts: no L2 is waited for, for no partition owns the octant. -/
theorem releaseScrub_starts (hs : (getSht d o).state = .scrubbing) (hv : octVf d o = none)
    (hr : (getStack d o).rootValid = true) (hq : octQuiet d o = true) (n kind index : Nat) :
    releaseScrub o n kind index d =
      if n < 2 then scrubPass o (scrubSteps o d) else scrubFail o kind index (scrubSteps o d) := by
  simp only [releaseScrub, hs, hv, hr, hq, ne_eq, not_true_eq_false, Bool.not_true, Bool.false_eq_true, or_self, if_false]

theorem octVf_scrubSteps (hv : octVf d o = none) : octVf (scrubSteps o d) o = none :=
  (octVf_congr (scrubSteps_sht o d) o).trans hv

theorem scrubPass_unowned (hv : octVf d o = none) :
    scrubPass o (scrubSteps o d) = setSht o (fun x => { x with
      state := if x.zeroFill then .zeroFilling else .clean, reason := .ok, doneTick := tickLo d, oldVf := none })
      (scrubSteps o d) := by
  have htick : tickLo (scrubSteps o d) = tickLo d := by rw [tickLo, scrubSteps_tck, tickLo]
  rw [scrubPass, htick]
  exact octState_none _ _ _ (fun _ => rfl) (octVf_scrubSteps hv)

/-- An octant whose scrub finds a second difference (R313). -/
def failedOctant (x : ShtOct) : ShtOct := { x with state := .failed, reason := .hungUnit, zeroFill := false, oldVf := none }

/-- The record and the READY interrupt leave the octant FAILED, and marked as such (R313, R376). -/
theorem scrubFail_unowned {o : Fin 8} {d : Dev} (hv : octVf d o = none) (kind index : Nat) :
    getSht (scrubFail o kind index d) o = failedOctant (getSht d o) ∧
      has8 (scrubFail o kind index d).pkg.octFailed o = true := by
  unfold scrubFail
  extract_lets rc recorded pkg marked
  have hsht : marked.sht = d.sht := record_sht _ _ d
  have hfail : octState o failedOctant marked = setSht o failedOctant marked :=
    octState_none _ _ _ (fun _ => rfl) ((octVf_congr hsht o).trans hv)
  change getSht (readyChanged (octState o failedOctant marked)) o = _ ∧
    has8 (readyChanged (octState o failedOctant marked)).pkg.octFailed o = true
  rw [hfail, readyChanged_octFailed]
  refine ⟨?_, has8_set8 recorded.pkg.octFailed o⟩
  have hget : getSht (readyChanged (setSht o failedOctant marked)) o = failedOctant (getSht marked o) := by
    rw [getSht, readyChanged_sht]
    exact getSht_setSht o _ _
  rw [hget, getSht, hsht, getSht]

theorem zeroFilled_unowned (hs : (getSht d o).state = .zeroFilling) (hv : octVf d o = none) :
    zeroFilled o d =
      setSht o (fun x => { x with state := .clean, doneTick := tickLo d, zeroFill := false }) (zeroStack o d) := by
  rw [zeroFilled, if_neg (not_not_intro hs)]
  exact octState_none _ _ _ (fun _ => rfl) ((octVf_congr (zeroStack_sht o d) o).trans hv)

end Scrub

/-- Settles O33: the holder's commands go by the partition's entry, its effects by what they do to each octant, and the scrubs by
an octant that no partition owns. -/
theorem partitionsAndScrubsAct : Obligations.PartitionsAndScrubsAct := by
  refine ⟨?create, ?createEffect, ?release, ?releaseEffect, ?scrub, ?zeroFill⟩
  case create =>
    intro i v octants kb kc z p s hh he hl hp
    exact next_congr ((holder_runs hh).trans (partCreate_new he hl hp))
  case createEffect =>
    intro v s hl he hlive
    refine ⟨_, next_whenLive hl rfl, rfl, (congrArg Part.live (getPart_tracked _ _ _)).trans (createEffect_live he hlive), ?_,
      fun o => ?_⟩
    · rw [tracked_ptr]
      exact createEffect_erased he hlive
    · rw [getSht_tracked, createEffect_sht he hlive o]
      exact ⟨fun ho => by simp only [if_pos ho, and_self], fun ho => if_neg (ne_true_of_eq_false ho)⟩
  case release =>
    intro i v s hh he hlive hi hr
    exact next_congr ((holder_runs hh).trans (partRelease_idle he hlive hi hr))
  case releaseEffect =>
    intro v s hl hlive hr he
    obtain ⟨hpart, hcharter, hfine⟩ := releaseEffect_ends hlive hr he
    refine ⟨_, next_settled hl rfl, (congrArg Part.live (getPart_tracked _ _ _)).trans hpart, ?_, ?_, fun o ho => ?_⟩
    · rw [getCharter, tracked_ptr]
      exact hcharter
    · rw [tracked_pwr]
      exact hfine
    · rw [getSht_tracked, releaseEffect_octant hlive hr he ho]
      exact ⟨rfl, rfl, fun hne => by simp [releasedOctant, hne], fun hf => by simp [releasedOctant, hf]⟩
  case scrub =>
    intro o n kind index s hl hs hv hr hq
    have hrun := releaseScrub_starts hs hv hr hq n kind index
    constructor
    · intro hn
      exact next_whenLive hl (tracked_congr _ _ _ (hrun.trans ((if_pos hn).trans (scrubPass_unowned hv))))
    · intro hn
      rw [if_neg (Nat.not_lt.2 hn)] at hrun
      obtain ⟨hfail, hmark⟩ := scrubFail_unowned (octVf_scrubSteps hv) kind index
      refine ⟨_, next_whenLive hl rfl, ?_⟩
      rw [getSht_tracked, tracked_pkg, hrun, hfail]
      exact ⟨rfl, rfl, hmark⟩
  case zeroFill =>
    intro o s hl hs hv
    exact next_whenLive hl (tracked_congr _ _ _ (zeroFilled_unowned hs hv))

end Sys2Proof.Proofs

/-!
SUPPORT. The tenant view and fine timing: what an interval that ended gives every VF, and what a write of FINE does
(R315, R316, R430).
-/
namespace Sys2Proof.Proofs
open Sys2Proof.Machine Sys2Proof.Laws

/-! ## The view (R315, R430) -/

/-- One value put at each key of a list is found there, whatever stood there before. -/
theorem look_foldl_put {α : Type} [DecidableEq α] (z e : α) (l : List Nat) (t : Tbl α) (k : Nat) :
    look z k (l.foldl (fun t j => put z j e t) t) = if k ∈ l then e else look z k t := by
  induction l generalizing t with
  | nil => simp
  | cons j l ih =>
    rw [List.foldl_cons, ih, look_put]
    by_cases hk : k = j <;> simp [hk]

/-- The views of every VF once an interval with this sum and this hottest temperature has ended. -/
def publishedViews (sum : Nat) (hot : Option Int) (d : Dev) : Tbl (Nat × Nat × Nat) :=
  (List.range 8).foldl (fun t v => put (0, 0, 0) v (powerQ sum (louvreTicks d), tempQ hot d.free, tickLo d) t) d.pwr.view

theorem look_publishedViews (sum : Nat) (hot : Option Int) (d : Dev) (v : Fin 8) :
    look (0, 0, 0) v.val (publishedViews sum hot d) = (powerQ sum (louvreTicks d), tempQ hot d.free, tickLo d) :=
  (look_foldl_put _ _ _ _ _).trans (if_pos (List.mem_range.2 v.isLt))

theorem louvreUpdate_publishes {sum : Nat} {hot : Option Int} {d : Dev} (h : d.pwr.lvDone = some (sum, hot)) :
    louvreUpdate d = { d with
      pwr := { d.pwr with view := publishedViews sum hot d, lvDone := none }, free := d.free + 1 } := by
  simp only [louvreUpdate, h]
  rfl

/-! ## Fine timing (R316) -/

/-- A write of FINE that is not refused is never logged as dropped. -/
theorem fineHost_takes {on : Bool} {d : Dev} (h : on = true → fineCheck d = none) (i : Issuer) :
    fineHost i on d = setStatus 0x20000 none { d with pwr := { d.pwr with fine := on } } := by
  have hw : fineWrite on d = (.ok, setStatus 0x20000 none { d with pwr := { d.pwr with fine := on } }) := by
    have hn : (if on then fineCheck d else none) = none := by simpa using h
    simp only [fineWrite, hn]
  cases i <;> simp only [fineHost, hw, if_true]

theorem fineHost_porter_refused {d : Dev} {r : Reason} (h : fineCheck d = some r) :
    fineHost .porter true d = setStatus 0x20000 (some (r, fieldIdOf 0x200 0)) d := by
  simp only [fineHost, fineWrite, h, if_true]

/-- Settles O34: the update puts one value at every VF, and a write of FINE goes by fineCheck where it turns fine timing on. -/
theorem viewsAndFineTimingAct : Obligations.ViewsAndFineTimingAct := by
  refine ⟨?update, ?on, ?off, ?refused⟩
  case update =>
    intro sum hot s hl h
    exact ⟨_, next_whenLive hl (louvreUpdate_publishes h), rfl, rfl, look_publishedViews sum hot s.dev, rfl⟩
  case on =>
    intro i s hh hc
    exact next_congr (fineHolder hh _ (fineHost_takes (fun _ => hc) i))
  case off =>
    intro i s hh
    exact next_congr (fineHolder hh _ (fineHost_takes (fun h : false = true => nomatch h) i))
  case refused =>
    intro r s hh hc
    exact next_congr (fineHolder hh _ (fineHost_porter_refused hc))

end Sys2Proof.Proofs

/-!
SUPPORT. A device that does not run: what every command but POWER_ON_BOOT leaves of one that is unpowered, in lockdown or
tripped (R348, R367, R374, R380, R398, R406).
-/
namespace Sys2Proof.Proofs
open Sys2Proof.Machine Sys2Proof.Laws

section Idle
variable {d : Dev}

theorem idle_phase (h : Idle d) : d.pkg.phase = .unpowered ∨ d.pkg.phase = .lockdown ∨ d.pkg.phase = .tripped := by
  have hs := h.1
  simp only [stopped, Bool.or_eq_true, beq_iff_eq, or_assoc] at hs
  exact hs

/-- A device that does not run but has power has stopped for good (R367, R406). -/
theorem idle_halted (h : Idle d) (hp : powered d = true) : d.pkg.phase = .lockdown ∨ d.pkg.phase = .tripped :=
  (idle_phase h).resolve_left (by simpa [powered] using hp)

theorem idle_notRunning (h : Idle d) : d.pkg.phase ≠ .running := fun hr => by simpa [live, hr] using h.dead

theorem idle_notL3 (h : Idle d) : d.pkg.phase ≠ .l3 := by
  rcases idle_phase h with h | h | h <;> rw [h] <;> decide

/-! ## What reaches a device out of service -/

theorem idle_interrupt (h : Idle d) (fn v : Nat) : Idle (interrupt fn v d) := by
  unfold interrupt
  repeat' split
  all_goals exact h

theorem idle_spdmSay (h : Idle d) (fn code : Nat) (payload : List Byte) : Idle (spdmSay fn code payload d) :=
  idle_interrupt (h.emit _) fn 1

theorem idle_powerLost (d : Dev) : Idle (powerLost d) :=
  ⟨rfl, by simp [holdsNoKey, linkKeysGone, powerLost, Dev.reset, Retention.reset, Porter.reset]⟩

/-- PERST_N resets only a chip that has passed boot step 8 (R374). -/
theorem idle_perstAssert (h : Idle d) (r : CheckResult) : Idle (perstAssert r d) := by
  have he : Idle { d with pkg := { d.pkg with perst := true } } := h
  unfold perstAssert
  split
  · exact h
  · simp only [he.dead, he.notRec, idle_notL3 he, Bool.false_eq_true, false_and, or_self, if_false]
    exact he

theorem idle_trainLink (h : Idle d) : Idle (trainLink d) := by
  unfold trainLink
  split <;> exact h

theorem idle_linkRetrain (h : Idle d) (speed width : Nat) : Idle (linkRetrain speed width d) := by
  unfold linkRetrain
  split <;> exact h

/-- No session is left that a DL_Down or a reset of a function could end (R367, R379). -/
theorem endSessions_idle (h : Idle d) (f : Fn) : endSessions f d = d := endSessions_none h.sess f

theorem foldl_endSessions_idle (h : Idle d) (l : List Nat) : l.foldl (fun d i => endSessions (fnOf i) d) d = d := by
  induction l with
  | nil => rfl
  | cons i l ih => rw [List.foldl_cons, endSessions_idle h, ih]

/-- The link down, with the configuration state of every function reset (R379). -/
def linkLost (d : Dev) : Dev := resetConfig { d with pkg := { d.pkg with dlUp := false, speed := 0, width := 0 } }

theorem dlDown_idle (h : Idle d) : dlDown d = abortMailbox (linkLost d) := by
  have hr : Idle (linkLost d) := h
  have ha : live (abortMailbox (linkLost d)) = false := hr.dead
  rw [dlDown, ← linkLost, foldl_endSessions_idle hr, ha]
  exact if_neg Bool.false_ne_true

theorem idle_dlDown (h : Idle d) : Idle (dlDown d) := by
  rw [dlDown_idle h]
  exact h

theorem idle_vfFlr (h : Idle d) (v : Fin 8) : Idle (vfFlr v d) := by
  have hr : Idle (resetFn (.vf v) d) := h
  simp only [vfFlr, hr.dead, Bool.false_eq_true, false_and, if_false]
  exact hr

theorem idle_pfFlr (h : Idle d) : Idle (pfFlr d) := by
  have hr : Idle (resetFn .pf d) := h
  simp only [pfFlr, endSessions_idle hr]
  exact hr

theorem idle_configWrite (h : Idle d) (f : Fn) (field : CfgField) (value : Nat) : Idle (configWrite f field value d) := by
  unfold configWrite
  split <;> exact h

theorem idle_sendPending (h : Idle d) (fn v : Nat) : Idle (sendPending fn v d) := by
  unfold sendPending
  split
  · exact idle_interrupt (by exact h) fn v
  · exact h

theorem idle_sysclkLoss (h : Idle d) (ns : Nat) : Idle (sysclkLoss ns d) := by
  unfold sysclkLoss
  dsimp only
  split <;> exact h

theorem idle_thermalTrip (h : Idle d) (sensor temp : Nat) : Idle (thermalTrip sensor temp d) := by
  unfold thermalTrip
  split
  · exact h
  · exact Idle.zero .tripped (.inr rfl)

theorem idle_thermalSample (h : Idle d) (readings : List Int) : Idle (thermalSample readings d) := by
  unfold thermalSample
  split
  · exact h
  · dsimp only
    split
    · exact idle_thermalTrip (by exact h) _ _
    · exact h

theorem idle_comparatorTrip (h : Idle d) : Idle (comparatorTrip d) := idle_thermalTrip (by exact h) _ _

/-- JTAG answers a powered device, and its boundary scan stops none that is stopped (R415). -/
theorem idle_jtag (h : Idle d) (hp : powered d = true) (op : JtagOp) : Idle (jtag op d) := by
  unfold jtag
  split
  · exact h
  · exact h
  · exact h
  · rw [if_pos (idle_halted h hp)]
    exact h
  · exact h

theorem finishSession_idle (h : Idle d) (k : Nat) (ok : Bool) : finishSession k ok d = d := by
  simp [finishSession, h.sess, look]

theorem idle_doeDiscovery (h : Idle d) (f : Fn) : Idle (doeDiscovery f d) :=
  Idle.guarded h _ _ fun _ => idle_spdmSay h _ _ _

theorem l3Complete_idle (h : Idle d) : l3Complete d = d := if_neg (idle_notL3 h)

theorem l3Bound_idle (h : Idle d) : l3Bound d = d := if_pos (idle_notL3 h)

/-- An HBM access reaches a stack of a running device alone (R194). -/
theorem whenStack_idle (h : Idle d) (pa : Nat) (f : Dev → Dev) : whenStack pa f d = d := by
  simp [whenStack, guarded, h.dead]

/-- A read is refused where no BAR answers (R380). -/
theorem idle_registerRead (h : Idle d) (f : Fn) (off n : Nat) :
    Idle (if barAnswers d f then regRead f off n d else emit (.readRefused (fnIx f)) d) := by
  rw [h.bar]
  exact h

/-- A command that acts under a guard alone. -/
theorem idle_if {b : Bool} {f : Dev → Dev} {s t : State} (hQ : Idle s.dev)
    (h : (.next { s with dev := guarded b f s.dev } : StepResult) = .next t) (hf : b = true → Idle (f s.dev)) : Idle t.dev :=
  idle_to (hQ.guarded b f hf) h

/-- An SMBus command that the target answers whatever runs. -/
theorem idle_smb {p : Bool} {f : Dev → Dev} {s t : State} (hQ : Idle s.dev)
    (h : (.next { s with dev := smbAlways p f s.dev } : StepResult) = .next t) (hf : Idle (f s.dev)) : Idle t.dev :=
  idle_to (hQ.always p f hf) h

/-- An access to HBM, to memory or to a place that has none (R154, R179). -/
theorem idle_hbm {c : Prop} [Decidable c] {pa : Nat} {f : Dev → Dev} {e : Machine.Fault} {s t : State} (hQ : Idle s.dev)
    (h : (if c then .next { s with dev := whenStack pa f s.dev } else .fault e : StepResult) = .next t) : Idle t.dev := by
  split at h
  · exact idle_same (whenStack_idle hQ pa f).symm hQ h
  · cases h

end Idle

/-! ## One command -/

/-- What every command but POWER_ON_BOOT of an unpowered device leaves of a device that does not run. -/
theorem exec_idle {i : Instr} {s t : State} (hQ : Idle s.dev)
    (hp : ∀ r, i = .powerOnBoot r → s.dev.pkg.phase ≠ .unpowered) (h : exec i s = .next t) : Idle t.dev := by
  cases i with
  -- events of a device in service: nothing happens
  | stackReady | stackTrainingFail | octantReady | portReady | portCalibrationFail | trialConfirm | completionTimeout
  | applyCopy | blockDisableComplete | bundleIssue | loadReturn | fenceComplete | xsyncComplete | cbarComplete | mmaComplete
  | vectorComplete | relayChunk | relayResponse | ctxStartEffect | contextStopped | regionEntryEffect
  | regionCommandComplete | imageReleaseComplete | fabPortUp | heartbeatTimer | ackTimer | retransmitTimeout
  | leaseRenewTimer | leaseRequestRetry | rearmEffect | partitionCreateEffect | releaseScrub | zeroFillComplete
  | louvreUpdate | modeSwitchStart | modeSwitchComplete | modeSwitchRevert | periodicSelfTest | lifecycleFuseCheck
  | driftCheck | staticCalibration | dumpUnitTimeout | fabHalfLinkUp | badframe | dumpExportComplete => exact idle_live hQ h
  | tickBoundary | planSwap | versionFlip | windowEnd | slipBoundExpiry | streamEnd | commandFetch | relayPark
  | rleDeadlineExpiry | relayComplete | stowCompletionRelease | commandComplete | completionRecordWrite | waitDeadlineExpiry
  | preemptEffect | fabHalfLinkDown | ack | arrive | late | abort | lost | heartbeat | vote | decide | grant | refuse
  | expired | peerDown | missing | neighbourSilence | rlyDeadlineExpiry | abortWaitExpiry | queryTimeout | withdrawEffect
  | windowDisable | partitionReleaseEffect | switchSessionEnd | porterWatchdogExpiry | umpireWalkMissed | l1Complete
  | l0BoundExpiry | l1BoundExpiry | l2BoundExpiry | dumpComplete | dumpTruncate | l2Complete | calibrationComplete =>
    exact idle_settled hQ h
  | windowStart | huddleSignalArrive | rallyStepRelease | rallyStepRetire | data | result => exact idle_meeting hQ h
  | regionInit => exact idle_if hQ h fun hb => by simp [hQ.dead] at hb
  | fabRefclkLoss => exact idle_guarded hQ h
  | hbmRead | hbmFullWrite | hbmPartialWrite | patrolRead => exact idle_hbm hQ h
  | slotPointerSwitchComplete => exact idle_if hQ h fun hb => by simp [hQ.notRec, idle_notRunning hQ] at hb
  | lockdown => exact idle_if hQ h fun hb => by simp [hQ.notRec, idle_notRunning hQ, idle_notL3 hQ] at hb
  | l3Complete => exact idle_same (l3Complete_idle hQ).symm hQ h
  | l3BoundExpiry => exact idle_same (l3Bound_idle hQ).symm hQ h
  -- register accesses and requests of the host, of Porter and in SPDM sessions: the BARs, the firmware and DOE do not answer
  | blockEnable | blockDisable | applyRequest | applyWithdraw | registerWrite | seqQDoorbell | seqQCdoorbell | rearm
  | glbModeReq | l0Kill | l2Reset | l3Reset | l4Cycle | dumpTrigger | dumpExport | dumpDiscard | pciQvecWrite | halt | step
  | dbgStateAccess => exact idle_bar hQ h
  | ctxCreate | ctxStart | ctxStopDrain | ctxStopPreempt | ctxDestroy | queueBind | queueUnbind | regionSet | regionClear
  | objConfig | objFree | imageRegister | imageRelease | groupLoad | groupUnload | windowEnable | windowDisableRequest
  | poolConfigure | partitionCreate | partitionRelease | fineTimingWrite => exact idle_issuer hQ h
  | charterLoad | charterAppend | fineTiming | partSet | updateBegin | updateWrite | updateVerify | updateActivate
  | updateCancel | secretsErase | opkeyFuse | codeKeyRegister => exact idle_tmailbox hQ h
  | powerMode | tickPeriod | seqMgmt | group | trsConfig | poolConfig | imageSignedRegister | switchSpdm | jobKey =>
    exact idle_mailbox hQ h
  | charterApprove | charterWithdraw => exact idle_tsess hQ h
  | jobKeyDeliver | keyUpdate | spdmHeartbeat | endSession => exact idle_sess hQ h
  | getVersion | getCapabilities | negotiateAlgorithms | getDigests | getCertificate | challenge | getMeasurements
  | keyExchange => exact idle_spdm hQ h
  | registerRead => exact idle_to (idle_registerRead hQ _ _ _) h
  | l1Reset cause =>
    cases cause with
    | request => exact idle_bar hQ h
    | firmwareFault => exact idle_settled hQ h
  | lcsAdvance issuer =>
    cases issuer with
    | host => exact idle_bar hQ h
    | porter => exact idle_tmailbox hQ h
  | finish => exact idle_same (finishSession_idle hQ _ _).symm hQ h
  | doeDiscovery => exact idle_to (idle_doeDiscovery hQ _) h
  -- the SMBus target and the TAP answer, and touch no key
  | status => exact idle_to (hQ.heard _ _ hQ) h
  | alertCause | alertCauseClear | cycleCause | tripSensor | railPower | temps | devicePower | faultRead =>
    exact idle_smb hQ h hQ
  | alertResponse => exact idle_smb hQ h (by unfold alertResponse; split <;> exact hQ)
  | faultSelect => exact idle_smb hQ h (by unfold faultSelect; split <;> exact hQ)
  | stageBegin | stageWrite | stageVerify | stageActivate | stageCancel => exact idle_tstg hQ h
  | stageResult => exact idle_stg hQ h
  | resetReq | resetResult => exact idle_fw hQ h
  | jtagInstruction => exact idle_if hQ h fun hb => Idle.tracked _ (idle_jtag hQ hb _)
  -- power, clocks, heat and the link
  | powerOnBoot r => exact idle_if hQ h fun hb => by simp [hp r rfl] at hb
  | pwrgdFall => exact idle_if hQ h fun _ => idle_powerLost _
  | perstAssert => exact idle_to (idle_perstAssert hQ _) h
  | perstRelease => exact idle_to (idle_trainLink (by exact hQ)) h
  | hostDlDown | pcieRefclkLoss => exact idle_if hQ h fun _ => idle_dlDown hQ
  | pcieLinkRetrain => exact idle_to (idle_linkRetrain hQ _ _) h
  | vfFlr => exact idle_if hQ h fun _ => idle_vfFlr hQ _
  | pfFlr => exact idle_if hQ h fun _ => idle_pfFlr hQ
  | configSpaceWrite => exact idle_if hQ h fun _ => idle_configWrite hQ _ _ _
  | msixPendingSend => exact idle_to (idle_sendPending hQ _ _) h
  | sysclkLoss => exact idle_to (idle_sysclkLoss hQ _) h
  | sysclkRestore => exact idle_to (by exact hQ) h
  | thermalSample => exact idle_if hQ h fun _ => idle_thermalSample hQ _
  | comparatorTrip => exact idle_if hQ h fun _ => idle_comparatorTrip hQ

/-- Settles O55: a step is the front command on the queue's rest, or a clock that passes on an empty queue. -/
theorem stoppedDeviceKeepsNoKey : Obligations.StoppedDeviceKeepsNoKey := by
  intro s t hs hk hp h
  have hQ : Idle s.dev := ⟨hs, hk⟩
  unfold step at h
  split at h
  · exact idle_to (by exact hQ) h
  · next i rest hr => exact exec_idle (s := { s with pending := rest }) hQ (fun r hi => hp r rest (hi ▸ hr)) h

end Sys2Proof.Proofs

/-!
SUPPORT. Porter's boot and its own checks: what POWER_ON_BOOT leaves in service, in recovery and in lockdown, and what the
confirmation of a trial, the slot-pointer switch, the periodic self-test and the lifecycle check do (R322, R325 to R328, R338,
R339, R345, R374).
-/
namespace Sys2Proof.Proofs
open Sys2Proof.Machine Sys2Proof.Laws

/-! ## Steps 1 to 7 of the boot (R326) -/

section Boot
variable {d : Dev} {slot trial back : Bool}

theorem lifecycleVote_agree (h : fuseCheck d.fuse = .agree) : lifecycleVote d = d := by
  simp only [lifecycleVote, h]

/-- The device as ROM leaves it to the image's check: the lifecycle rules in force, and CDI_0 derived at a power-on. -/
def romChecked (cold : Bool) (d : Dev) : Dev :=
  deriveCdi0 cold { d with ptr := { d.ptr with
    lcsAtReset := lcsCount d.fuse, debugOpen := debugState (lcsCount d.fuse) } }

theorem romChecked_keeps (cold : Bool) (d : Dev) :
    (romChecked cold d).pkg = d.pkg ∧ (romChecked cold d).fuse = d.fuse ∧ (romChecked cold d).flash = d.flash := by
  obtain ⟨hpkg, hfuse, -, hflash⟩ := deriveCdi0_facts cold { d with ptr := { d.ptr with
    lcsAtReset := lcsCount d.fuse, debugOpen := debugState (lcsCount d.fuse) } }
  exact ⟨hpkg, hfuse, hflash⟩

theorem bootRom_pass (hl : live d = true) (ha : fuseCheck d.fuse = .agree) (hn : lcsCount d.fuse < 4) (cold : Bool) :
    bootRom .pass cold d = bootLoad (romChecked cold d) := by
  simp only [bootRom, reduceCtorEq, if_false, lifecycleVote_agree ha, hl, Bool.not_true, Bool.false_eq_true,
    ge_iff_le, Nat.not_le.2 hn]
  rfl

/-- The image of the slot that the pointer block selects is acceptable: it runs (R323, R326). -/
theorem bootRom_acceptable {i : SilImage} {ok : Bool} (hl : live d = true) (ha : fuseCheck d.fuse = .agree)
    (hn : lcsCount d.fuse < 4) (hc : chooseSlot d.flash = (slot, trial, back))
    (hs : silCheck d.fuse (slotOf d.flash slot) = .ok (i, ok)) (cold : Bool) :
    bootRom .pass cold d = runImage slot trial back i ok (romChecked cold d) := by
  obtain ⟨-, hfuse, hflash⟩ := romChecked_keeps cold d
  rw [bootRom_pass hl ha hn]
  simp only [bootLoad, hfuse, hflash, hc, hs]

/-- The images of both slots are unacceptable (R327). -/
theorem bootRom_unacceptable {r r' : Reason} (hl : live d = true) (ha : fuseCheck d.fuse = .agree)
    (hn : lcsCount d.fuse < 4) (hc : chooseSlot d.flash = (slot, trial, back))
    (hs : silCheck d.fuse (slotOf d.flash slot) = .error r) (hs' : silCheck d.fuse (slotOf d.flash (!slot)) = .error r')
    (cold : Bool) : bootRom .pass cold d = recovery (romChecked cold d) := by
  obtain ⟨-, hfuse, hflash⟩ := romChecked_keeps cold d
  rw [bootRom_pass hl ha hn]
  simp only [bootLoad, hfuse, hflash, hc, hs, hs']

/-- Recovery releases configuration space and the mailbox (R327, R375). -/
theorem recovery_facts (d : Dev) : (recovery d).pkg.phase = .recovery ∧ (recovery d).pkg.config = true ∧
    (recovery d).pkg.mailbox = true ∧ (recovery d).fuse = d.fuse := by
  unfold recovery
  obtain ⟨hphase, hconfig, hmailbox, -, -, hfuse, -⟩ := releaseConfig_facts
    (alert 0 { drawDieKeys d with pkg := { d.pkg with phase := .recovery } })
  obtain ⟨-, kfuse, -⟩ := drawDieKeys_facts d
  exact ⟨hphase, hconfig, hmailbox, hfuse.trans kfuse⟩

/-- Steps 8 and 9 of a power-on leave the phase, PWRGD_OUT, the fuses and what runs, and begin GENERATION (R325, R334). -/
theorem bootConfig_bootKeys_facts (d : Dev) :
    (bootConfig (bootKeys true d)).pkg.phase = d.pkg.phase ∧ (bootConfig (bootKeys true d)).pkg.pwrgdOut = d.pkg.pwrgdOut ∧
    (bootConfig (bootKeys true d)).pkg.config = true ∧ (bootConfig (bootKeys true d)).pkg.mailbox = true ∧
    (bootConfig (bootKeys true d)).ret.generation = 1 ∧ (bootConfig (bootKeys true d)).ptr.slot = d.ptr.slot ∧
    (bootConfig (bootKeys true d)).ptr.trial = d.ptr.trial ∧ (bootConfig (bootKeys true d)).fuse = d.fuse := by
  have k := bootKeeps_bootConfig (bootKeys true d)
  obtain ⟨hphase, hconfig, hmailbox, hout, hgen, hfuse, hslot, htrial⟩ := bootKeys_facts d
  rw [k.pkg, k.ret, k.slot, k.trial, k.fuse]
  exact ⟨hphase, hout, hconfig, hmailbox, hgen, hslot, htrial, hfuse⟩

/-! ## POWER_ON_BOOT (R374) -/

/-- The device when its power is good: in service for the boot, with exact time at 0 (R374, R428). -/
def poweredUp (d : Dev) : Dev :=
  alert 0 { d with
    pkg := { d.pkg with phase := .running, pwrgd := true, pwrgdOut := true }
    tck := { d.tck with now := 0, start := 0 } }

theorem powerOn_eq (r : CheckResult) (d : Dev) : powerOn r d =
    if live (bootRom r true (poweredUp d)) then bootConfig (bootKeys true (bootRom r true (poweredUp d)))
    else bootRom r true (poweredUp d) := rfl

theorem powerOn_live {r : CheckResult} (h : live (bootRom r true (poweredUp d)) = true) :
    powerOn r d = bootConfig (bootKeys true (bootRom r true (poweredUp d))) := by
  rw [powerOn_eq, if_pos h]

theorem powerOn_dead {r : CheckResult} (h : live (bootRom r true (poweredUp d)) = false) :
    powerOn r d = bootRom r true (poweredUp d) := by
  rw [powerOn_eq, h]
  rfl

theorem exec_powerOnBoot {s : State} (hu : s.dev.pkg.phase = .unpowered) (hc : s.dev.pkg.sysclk = true) (r : CheckResult) :
    exec (.powerOnBoot r) s = .next { s with dev := powerOn r s.dev } :=
  next_congr (guarded_true _ _ _ (by simp [hu, hc]))

end Boot

/-- Settles O2: the image that ROM accepts runs and step 9 keeps it, no acceptable image is recovery, and a failed self-test
lockdown. -/
theorem powerOnBootRuns : Obligations.PowerOnBootRuns := by
  refine ⟨?serves, ?recovers, ?locks⟩
  case serves =>
    intro s slot trial back i ok hu hc ha hn hp hs
    obtain ⟨hpkg, hfuse, -⟩ := romChecked_keeps true (poweredUp s.dev)
    have hb : bootRom .pass true (poweredUp s.dev) = runImage slot trial back i ok (romChecked true (poweredUp s.dev)) :=
      bootRom_acceptable (d := poweredUp s.dev) rfl ha hn hp hs true
    have hl : live (bootRom .pass true (poweredUp s.dev)) = true := by
      rw [hb, live_iff]
      exact congrArg Pkg.phase hpkg
    refine ⟨_, exec_powerOnBoot hu hc _, rfl, ?_⟩
    obtain ⟨kphase, kout, kconfig, kmailbox, kgen, kslot, ktrial, kfuse⟩ :=
      bootConfig_bootKeys_facts (runImage slot trial back i ok (romChecked true (poweredUp s.dev)))
    rw [powerOn_live hl, hb]
    exact ⟨kphase.trans (congrArg Pkg.phase hpkg), kout.trans (congrArg Pkg.pwrgdOut hpkg), kconfig, kmailbox, kgen, kslot,
      ktrial, kfuse.trans hfuse⟩
  case recovers =>
    intro s slot trial back r r' hu hc ha hn hp hs hs'
    obtain ⟨-, hfuse, -⟩ := romChecked_keeps true (poweredUp s.dev)
    have hb : bootRom .pass true (poweredUp s.dev) = recovery (romChecked true (poweredUp s.dev)) :=
      bootRom_unacceptable (d := poweredUp s.dev) rfl ha hn hp hs hs' true
    obtain ⟨kphase, kconfig, kmailbox, kfuse⟩ := recovery_facts (romChecked true (poweredUp s.dev))
    have hl : live (bootRom .pass true (poweredUp s.dev)) = false := by simp [hb, live, kphase]
    refine ⟨_, exec_powerOnBoot hu hc _, rfl, ?_⟩
    rw [powerOn_dead hl, hb]
    exact ⟨kphase, kconfig, kmailbox, kfuse.trans hfuse⟩
  case locks =>
    intro s hu hc
    have hb : bootRom .fail true (poweredUp s.dev) = porterLockdown (poweredUp s.dev) := rfl
    have hk : (porterLockdown (poweredUp s.dev)).pkg.phase = .lockdown :=
      porterLockdown_phase _ (by simp [poweredUp]) (by simp [poweredUp])
    refine ⟨_, exec_powerOnBoot hu hc _, rfl, ?_⟩
    rw [powerOn_dead (by simp [hb, live, hk]), hb]
    exact hk

/-! ## Porter's checks in service (R328, R338, R339, R345) -/

theorem trialConfirm_starts {d : Dev} (ht : d.ptr.trial = true) (ha : allReady d = true) (hs : d.ptr.stg.switching = none) :
    trialConfirm d = setStg (fun g => { g with switching := some .confirm }) d :=
  if_pos ⟨ht, ha, by rw [hs]; rfl⟩

theorem switchDone_confirm {d : Dev} (hs : d.ptr.stg.switching = some .confirm) : switchDone d = confirmed d := by
  simp only [switchDone, hs]

/-- Settles O4: each check meets its guards, and then its one effect. -/
theorem porterChecksRun : Obligations.PorterChecksRun := by
  refine ⟨?trial, ?switch, ?passes, ?fails, ?agree, ?interrupted⟩
  case trial =>
    intro s hl ht ha hs
    exact next_whenLive hl (trialConfirm_starts ht ha hs)
  case switch =>
    intro s p hl hs hp
    have hr : (s.dev.pkg.phase == .running || s.dev.pkg.phase == .recovery) = true := by simp [(live_iff _).1 hl]
    refine ⟨_, next_congr ((guarded_true _ _ _ hr).trans (tracked_congr _ _ _ (switchDone_confirm hs))), rfl, ?_⟩
    simp only [tracked_ptr_eq, tracked_flash, tracked_fuse, confirmed, hp]
    exact ⟨rfl, rfl, rfl, rfl⟩
  case passes =>
    intro s hl
    exact next_whenLive hl rfl
  case fails =>
    intro s hl
    refine ⟨_, next_whenLive hl rfl, rfl, porterLockdown_phase _ ?_ ?_⟩ <;> simp [(live_iff _).1 hl]
  case agree =>
    intro s hl ha
    exact next_whenLive hl (tracked_same _ _ (lifecycleVote_agree ha))
  case interrupted =>
    intro s n hl hi
    exact next_whenLive hl (tracked_congr _ _ _ (by simp only [lifecycleVote, hi]))

end Sys2Proof.Proofs

/-!
SUPPORT. Updates, by the mailbox and by SMBus: staging, verification, activation and cancellation, and the reset that SMBus asks
for (R336 to R338, R412 to R414).
-/
namespace Sys2Proof.Proofs
open Sys2Proof.Machine Sys2Proof.Laws

/-! ## The staged image (R336, R337) -/

section Staging
variable {d : Dev}

theorem updateBegin_opens {n : Nat} (h : d.ptr.stg.isOpen = false) (hn : n ≤ 25165824) :
    updateBegin n d = (.ok, setStg (fun g => { g with isOpen := true, length := n, staged := false }) d) := by
  simp only [updateBegin, h, Nat.not_lt.2 hn, Bool.false_eq_true, if_false]

theorem updateBegin_open (h : d.ptr.stg.isOpen = true) (n : Nat) : updateBegin n d = (.busyUpdate, d) := if_pos h

/-- The inactive slot with bytes written at an offset, and nothing staged. -/
def slotWritten (off : Nat) (bs : List Byte) (d : Dev) : Dev :=
  setStg (fun g => { g with isOpen := true, staged := false }) { d with
    flash := setFlashSlot (!d.ptr.slot) (writeBytes (slotOf d.flash (!d.ptr.slot)) off bs) d.flash }

theorem updateWrite_writes {off : Nat} {bs : List Byte} (ht : d.ptr.trial = false)
    (h : off + bs.length ≤ d.ptr.stg.length) : updateWrite off bs d = (.ok, slotWritten off bs d) := by
  simp only [updateWrite, Nat.not_lt.2 h, ht, Bool.false_eq_true, if_false]
  rfl

/-- The staged image, with the digests of a slot's image (R333, R337). -/
def imageStaged (m : Memory) (i : SilImage) (d : Dev) : Dev :=
  setStg (fun g => { g with
    isOpen := false, staged := true, d5 := (silDigests m i).1, d6 := (silDigests m i).2.1, d7 := (silDigests m i).2.2
    svn := i.svn }) d

theorem updateVerify_acceptable {i : SilImage} {b : Bool}
    (h : silCheck d.fuse (slotOf d.flash (!d.ptr.slot)) = .ok (i, b)) :
    updateVerify d = (.ok, imageStaged (slotOf d.flash (!d.ptr.slot)) i d) := by
  simp only [updateVerify, h]
  rfl

theorem updateVerify_unacceptable {r : Reason} (h : silCheck d.fuse (slotOf d.flash (!d.ptr.slot)) = .error r) :
    updateVerify d = (r, setStg (fun g => { g with staged := false }) d) := by
  simp only [updateVerify, h]

theorem updateActivate_starts (hs : d.ptr.stg.staged = true) (hw : d.ptr.stg.switching = none) (k : PtrSwitch) :
    updateActivate k d = (none, setStg (fun g => { g with switching := some k }) d) := by
  simp only [updateActivate, hs, hw, Bool.not_true, Bool.false_eq_true, if_false, Option.isSome_none]

end Staging

/-- Settles O39: a mailbox that takes update commands answers each with what the staging gives, and an activation later. -/
theorem updatesAreStaged : Obligations.UpdatesAreStaged := by
  refine ⟨?begins, ?busy, ?write, ?accepted, ?refused, ?activate, ?cancel⟩
  case begins =>
    intro seq n s hu ho hn
    exact next_congr (tracked_mailbox_update_ends rfl hu (updateBegin_opens ho hn))
  case busy =>
    intro seq n s hu ho
    exact next_congr (tracked_mailbox_update_ends (g := id) rfl hu 
      (updateBegin_open (d := mboxTake 0x30 seq (natLe 4 n) s.dev) ho n))
  case write =>
    intro seq off bs s hu ht hb
    exact next_congr (tracked_mailbox_update_ends rfl hu (updateWrite_writes ht hb))
  case accepted =>
    intro seq i b s hu hc
    exact next_congr (tracked_mailbox_update_ends (g := imageStaged (slotOf s.dev.flash (!s.dev.ptr.slot)) i) rfl hu
      (updateVerify_acceptable hc))
  case refused =>
    intro seq r s hu hc
    exact next_congr (tracked_mailbox_update_ends rfl hu (updateVerify_unacceptable hc))
  case activate =>
    intro seq s hu hs hw
    refine next_congr (tracked_congr _ _ _ ?_)
    rw [mailbox_update_taken rfl hu, activateMbox, updateActivate_starts (d := mboxTake 0x33 seq [] s.dev) hs hw]
    rfl
  case cancel =>
    intro seq s hu
    exact next_congr (tracked_mailbox_update_ends rfl hu rfl)

/-! ## SMBus (R412, R413) -/

section Smbus
variable {d : Dev}

theorem stageWriting_writes {off : Nat} {bs : List Byte} (h1 : 1 ≤ bs.length) (h2 : bs.length ≤ 240)
    (ht : d.ptr.trial = false) (h : off + bs.length ≤ d.ptr.stg.length) :
    stageWriting off bs d = (.ok, slotWritten off bs d) := by
  rw [stageWriting, if_neg (by omega), updateWrite_writes ht h]

theorem stageActivate_starts (hb : d.ump.stageBusy = false) (hs : d.ptr.stg.staged = true)
    (hw : d.ptr.stg.switching = none) : stageActivate d =
      setUmp (fun u => { u with stageBusy := true }) (setStg (fun g => { g with switching := some .smbus }) d) := by
  simp only [stageActivate, hb, updateActivate_starts hs hw, Bool.false_eq_true, if_false]
  rfl

theorem smbFirmware_runs {f : Dev → Dev} (h : firmwareRuns d = true) : smbFirmware true f d = f d := by
  have hp : powered d = true := by
    simp only [firmwareRuns, Bool.or_eq_true, beq_iff_eq] at h
    rcases h with (h | h) | h <;> simp [powered, h]
  rw [smbFirmware, smbHeard_runs hp, if_pos h]

theorem smbReset_starts (hl : live d = true) (hw : d.ump.l3Wait = none) (ha : d.ump.auto = false) (r : CheckResult) :
    smbReset 1 r d = l3Run r { d with ump := { d.ump with resetResult := .ok } } := by
  rw [smbReset, if_neg (by simp), if_neg (by simp [hl, hw])]
  exact l3Start_runs (d := { d with ump := { d.ump with resetResult := .ok } }) hw r ha

theorem smbReset_notReady (hl : live d = false) (r : CheckResult) :
    smbReset 1 r d = { d with ump := { d.ump with resetResult := .notReady } } := by
  rw [smbReset, if_neg (by simp), if_pos (by simp [hl])]

end Smbus

/-- Settles O46: each staging command runs the update's operation and records its outcome, and a reset goes by the phase. -/
theorem smbusCommandsAct : Obligations.SmbusCommandsAct := by
  refine ⟨?begins, ?write, ?refused, ?accepted, ?activate, ?cancel, ?resets, ?notReady⟩
  case begins =>
    intro n s hl hb ho hn
    exact next_congr (stage_done hl hb (updateBegin_opens ho hn))
  case write =>
    intro off bs s hl hb h1 h2 h ht
    exact next_congr (stage_done hl hb (stageWriting_writes h1 h2 ht h))
  case refused =>
    intro r s hl hb hc
    exact next_congr (stage_done hl hb (updateVerify_unacceptable hc))
  case accepted =>
    intro i b s hl hb hc
    exact next_congr (stage_done (g := imageStaged (slotOf s.dev.flash (!s.dev.ptr.slot)) i) hl hb
      (updateVerify_acceptable hc))
  case activate =>
    intro s hl hb hs hw
    exact next_congr (tracked_congr _ _ _ ((smbStaging_runs hl).trans (stageActivate_starts hb hs hw)))
  case cancel =>
    intro s hl hb
    exact next_congr (stage_done hl hb rfl)
  case resets =>
    intro r s hl hw ha
    exact next_congr ((smbFirmware_runs (by simp [firmwareRuns, (live_iff _).1 hl])).trans (smbReset_starts hl hw ha r))
  case notReady =>
    intro r s hp
    have hf : firmwareRuns s.dev = true := by rcases hp with hp | hp <;> simp [firmwareRuns, hp]
    have hl : live s.dev = false := by rcases hp with hp | hp <;> simp [live, hp]
    exact next_congr ((smbFirmware_runs hf).trans (smbReset_notReady hl r))

end Sys2Proof.Proofs

/-!
SUPPORT. The lifecycle, the operator key, code keys and kernel images, sessions with the planes' switches, and job keys: what
each request of an open mailbox does (R340, R342 to R344, R347 to R350).
-/
namespace Sys2Proof.Proofs
open Sys2Proof.Machine Sys2Proof.Laws

/-! ## Lifecycle requests (R347 to R350) -/

section Lifecycle
variable {d : Dev} {n : Nat}

theorem lcsAdvance_blows (h : lcsCheck d n = none) (hn : n ≠ 4) :
    lcsAdvance n d = (.ok, lcsNote .ok (alert 0 { d with fuse := blowTo n d.fuse })) := by
  simp only [lcsAdvance, h, hn, if_false]
  rfl

theorem lcsAdvance_scraps (h : lcsCheck d 4 = none) :
    lcsAdvance 4 d = (.ok, lcsNote .ok (stopAndZero .scrapped (alert 0 { d with fuse := blowTo 4 d.fuse }))) := by
  simp only [lcsAdvance, h, if_true]
  rfl

theorem lcsAdvance_refused {r : Reason} (h : lcsCheck d n = some r) : lcsAdvance n d = (r, lcsNote r d) := by
  simp only [lcsAdvance, h]
  rfl

/-- The advance checks do not see the request itself. -/
theorem lcsCheck_taken (op : Nat) (seq : Word) (payload : List Byte) (d : Dev) (n : Nat) :
    lcsCheck (mboxTake op seq payload d) n = lcsCheck d n := rfl

theorem lcsRegister_pf (h : porterManaged d = false) (n : Nat) : lcsRegister .pf n d = (lcsAdvance n d).2 := by
  simp only [lcsRegister, h, ne_eq, not_true_eq_false, Bool.false_eq_true, or_self, if_false]

/-- Every session ended, every key domain rotated, and every other secret gone (R349). -/
def secretsErased (d : Dev) : Dev :=
  lcsNote .ok (noSecrets ((List.range 256).foldl (fun d k => rotateDomain k d) (endEverySession d)))

theorem secretsErase_erases (h : partsLive d = []) : secretsErase d = (.ok, secretsErased d) := by
  simp only [secretsErase, h, List.isEmpty_nil, Bool.not_true, Bool.false_eq_true, if_false]
  rfl

theorem secretsErase_notReady (h : partsLive d ≠ []) : secretsErase d = (.notReady, lcsNote .notReady d) := by
  simp only [secretsErase, List.isEmpty_eq_false_iff.2 h, Bool.not_false, if_true]
  rfl

theorem opkeyFuse_fuses (hc : lcsCount d.fuse < 2) (hk : d.fuse.opKey = none) (key : List Byte) : opkeyFuse key d =
    (.ok, lcsNote .ok { d with fuse := { d.fuse with opKey := some (Config.sha384 key) } }) := by
  simp only [opkeyFuse, ge_iff_le, Nat.not_le.2 hc, hk, Option.isSome_none, Bool.false_eq_true, if_false]
  rfl

theorem opkeyFuse_denied (hc : 2 ≤ lcsCount d.fuse) (key : List Byte) :
    opkeyFuse key d = (.lifecycleDenied, lcsNote .lifecycleDenied d) := by
  simp only [opkeyFuse, ge_iff_le, hc, if_true]
  rfl

end Lifecycle

/-- Settles O40: each request is answered with its operation's reason, which LCS_STATUS keeps. -/
theorem lifecycleRequestsAct : Obligations.LifecycleRequestsAct := by
  refine ⟨?advances, ?scraps, ?refused, ?register, ?erases, ?inForce, ?fuses, ?denied⟩
  case advances =>
    intro seq n s hm hc hn
    exact next_congr (tracked_mailbox_ends hm (lcsAdvance_blows ((lcsCheck_taken _ _ _ _ _).trans hc) hn))
  case scraps =>
    intro seq s hm hc
    exact next_congr (tracked_mailbox_ends hm (lcsAdvance_scraps ((lcsCheck_taken _ _ _ _ _).trans hc)))
  case refused =>
    intro seq n r s hm hc
    exact next_congr (tracked_mailbox_ends hm (lcsAdvance_refused ((lcsCheck_taken _ _ _ _ _).trans hc)))
  case register =>
    intro seq n s hb hp hc hn
    exact next_congr (whenBar_tracked hb ((lcsRegister_pf hp n).trans (congrArg Prod.snd (lcsAdvance_blows hc hn))))
  case erases =>
    intro seq s hm hp
    exact next_congr (tracked_mailbox_ends hm (secretsErase_erases hp))
  case inForce =>
    intro seq s hm hp
    exact next_congr (tracked_mailbox_ends hm (secretsErase_notReady hp))
  case fuses =>
    intro seq key s hm hc hk
    exact next_congr (tracked_mailbox_ends hm (opkeyFuse_fuses (d := mboxTake _ _ _ s.dev) hc hk key))
  case denied =>
    intro seq key s hm hc
    exact next_congr (tracked_mailbox_ends hm (opkeyFuse_denied (d := mboxTake _ _ _ s.dev) hc key))

/-! ## Code keys (R344) -/

/-- A registration's digest sealed into the user records, beside those that stay. -/
def keySealed (old : List (List Byte)) (v k : Nat) (dig : BitVec 384) (d : Dev) : Dev :=
  secretsHeld { d with
    ret := { d.ret with rng := d.ret.rng + 1 }
    flash := writeUserRecs (old ++ [sealUser (Config.userKey d.fuse.uds)
      (natBe 12 ((Config.draw (d.ret.rng + 1)).toNat % 2 ^ 96)) (keyText v k dig)]) d.flash }

/-- The user records but the registration of a VF and index. -/
def otherRegistrations (v k : Nat) (d : Dev) : List (List Byte) :=
  (userRecs d.flash).filter fun b => !((keyReg d.fuse.uds b).any fun r => r.1 == v && r.2.1 == k)

theorem codeKeyRegister_registers (v k : Nat) (dig : BitVec 384) (d : Dev) :
    codeKeyRegister v k dig d = (.ok, keySealed (otherRegistrations v k d) v k dig d) := by
  refine congrArg (fun old => (Reason.ok, keySealed old v k dig d)) (List.filter_congr fun b _ => ?_)
  cases keyReg d.fuse.uds b <;> rfl

/-! ## Kernel images (R344) -/

/-- An image that passes the checks, with enough valid signatures, fills its slot. -/
theorem imageSigned_registers {o v need : Nat} {a : ImageArgs} {sigs : List (List Byte)} {image : List Byte} {d : Dev}
    (hv : octVf d o = some v) (hi : partIdle d v = true) (hm : (getSeq d o).mgmt = .none)
    (hr : mgmtRange (.imageRegister a) = true) (hc : imageCheck d o a = none) (ho : has8 d.pkg.octReady o = true)
    (himg : image = (((List.range 9).filter fun c => bitAt a.mask c).map fun c => clusterImage d o c a).headD [])
    (hsame : ∀ c < 9, bitAt a.mask c = true → clusterImage d o c a = image)
    (hneed : need = if (getCharter d v).state = .none then 1 else (getCharter d v).signers)
    (hk : need ≤ (signers d v a image sigs).length) :
    imageSigned o a sigs d = (.ok, setSeq o (fun q => { q with mgmtReason := .ok })
      (registerImage o a true (signers d v a image sigs) d)) := by
  have hcheck := hc
  unfold imageCheck at hc
  split at hc
  · cases hc
  next hrange =>
  split at hc
  · cases hc
  next hpresent =>
  have habsent : ((List.range 9).filter fun c => bitAt a.mask c).any (fun c => !clusterPresent d c) = false := by
    rw [List.any_filter]
    exact Bool.not_eq_true _ ▸ hpresent
  have hdiffer : (((List.range 9).filter fun c => bitAt a.mask c).map fun c => clusterImage d o c a).any (· != image) =
      false := by
    simp only [List.any_map, List.any_eq_false, List.mem_filter, List.mem_range, Function.comp, bne_iff_ne, ne_eq,
      not_not]
    exact fun c hc => hsame c hc.1 hc.2
  rw [himg] at hdiffer hk ⊢
  rw [hneed] at hk
  simp only [imageSigned, hv, hi, hm, hr, hcheck, ho, hrange, habsent, hdiffer, Nat.not_lt.2 hk, Bool.not_true,
    Bool.false_eq_true, ne_eq, not_true_eq_false, false_or, if_false]

/-! ## Switch sessions and job keys (R342, R343) -/

section Switch
variable {p : Nat} {d : Dev}

/-- A session with the switch of a plane, as a message to it establishes it. -/
def switchSession (p : Nat) (r : SwitchReport) (d : Dev) : Dev :=
  { d with free := d.free + 1, ptr := { d.ptr with switchSess := put none p (some r) d.ptr.switchSess } }

theorem switchSpdm_relays (p : Nat) (d : Dev) :
    switchSpdm p none d = (some (.ok, Config.spdmBytes 0 d.free), { d with free := d.free + 1 }) := rfl

theorem switchSpdm_unattested {r : SwitchReport} (h : switchAttested (switchSession p r d) p = false) :
    switchSpdm p (some r) d = (some (.ok, Config.spdmBytes 0 d.free), switchSession p r d) :=
  if_neg fun hc => Bool.false_ne_true (h.symm.trans hc.2)

theorem switchSpdm_attested {r : SwitchReport} (h : switchAttested (switchSession p r d) p = true) :
    switchSpdm p (some r) d = (some (.ok, Config.spdmBytes 0 d.free),
      (portGroups d p).foldl (fun d k => sendPairKeys k d) (switchSession p r d)) :=
  if_pos ⟨rfl, h⟩

theorem jobKey_installs {g : Nat} (hp : porterManaged d = false)
    (hg : ((List.range 8).any fun v => groupLoaded d v g) = false) (key : List Byte) :
    jobKey g key d = (.ok, (List.range 8).foldl (fun d v => putJobKey v g key d) d) := by
  simp only [jobKey, hp, hg, Bool.false_eq_true, if_false]

/-- A request of an open mailbox that is answered at once with bytes. -/
theorem mailbox_answers {op : Nat} {seq : Word} {payload answer : List Byte} {f : Dev → Served} {g : Dev → Dev}
    {r : Reason} (h : mailboxOpen d = true)
    (hf : f (mboxTake op seq payload d) = (some (r, answer), g (mboxTake op seq payload d))) :
    mailbox op seq payload f d = mboxDone op seq payload r answer g d := by
  rw [mailbox_open _ _ _ _ _ h, hf]
  rfl

end Switch

/-- Settles O41: each request passes its checks and then has its one effect. -/
theorem keysAndSwitchesAct : Obligations.KeysAndSwitchesAct := by
  refine ⟨?codeKey, ?image, ?relay, ?session, ?ended, ?jobKey⟩
  case codeKey =>
    intro seq v k dig s hm
    exact next_congr (tracked_mailbox_ends hm (codeKeyRegister_registers v k dig _))
  case image =>
    intro seq o v a sigs image need s hm hv hi hq hr hc ho himg hsame hneed hk
    exact next_congr (mailbox_ends_ok
      (g := fun d => setSeq o (fun q => { q with mgmtReason := .ok })
        (registerImage o a true (signers s.dev v a image sigs) d)) hm
      (imageSigned_registers (d := mboxTake _ _ _ s.dev) hv hi hq hr hc ho himg hsame hneed hk))
  case relay =>
    intro seq p m s hm
    exact next_congr (mailbox_answers hm (switchSpdm_relays p _))
  case session =>
    rintro seq p m r f s hm rfl
    exact ⟨fun h => next_congr (mailbox_answers (g := switchSession p r) hm
      (switchSpdm_unattested (d := mboxTake _ _ _ s.dev) h)),
      fun h => next_congr (mailbox_answers
      (g := fun d => (portGroups s.dev p).foldl (fun d k => sendPairKeys k d) (switchSession p r d)) hm
      (switchSpdm_attested (d := mboxTake _ _ _ s.dev) h))⟩
  case ended =>
    intro p s hl
    exact next_settled hl rfl
  case jobKey =>
    intro seq g key s hm hp hg
    exact next_congr (mailbox_ends_ok hm (jobKey_installs (d := mboxTake _ _ _ s.dev) hp hg key))

end Sys2Proof.Proofs

/-!
SUPPORT. The SPDM responder: the requests that a function's DOE mailbox carries, in service and in recovery, and the sessions
that they open, keep and end (R300, R327, R329 to R333, R335, R387).
-/
namespace Sys2Proof.Proofs
open Sys2Proof.Machine Sys2Proof.Laws

section Request
variable {f : Fn} {g : Dev → Dev} {d : Dev} {s : State}

/-- The state that an SPDM request leaves in service is the one that its meaning gives. -/
theorem next_spdmRequest (hl : live s.dev = true) (hf : fnPresent s.dev f = true) (h : g s.dev = d) :
    (Host.Outcome.next { s with dev := spdmRequest f g s.dev } : Host.Outcome State Fault Refusal) =
      .next { s with dev := d } :=
  next_congr ((spdmRequest_runs hl hf).trans h)

/-! ## Certificates and reports (R330 to R333, R335) -/

theorem getCertificate_portion {off : Nat} (h : off < (certChain d).length) (f : Fn) (n : Nat) :
    getCertificate f 0 off n d = spdmSay (fnIx f) 0x02 (((certChain d).drop off).take (min n portionMax)) d :=
  if_neg (by simp [h])

theorem getMeasurements_signs (hw : d.ptr.stg.switching = none) (hr : ownResetting d f = false) (nonce : BitVec 256) :
    getMeasurements f nonce d = signedSay f 0x60 nonce (reportBytes d f) d := by
  simp only [getMeasurements, hw, hr, Option.isSome_none, Bool.false_eq_true, if_false]

theorem getMeasurements_switching (hw : d.ptr.stg.switching ≠ none) (f : Fn) (nonce : BitVec 256) :
    getMeasurements f nonce d = spdmError (fnIx f) vendorDefined .busyUpdate d :=
  if_pos (Option.isSome_iff_ne_none.2 hw)

theorem getMeasurements_resetting (hw : d.ptr.stg.switching = none) (hr : ownResetting d f = true) (nonce : BitVec 256) :
    getMeasurements f nonce d = spdmError (fnIx f) vendorDefined .notReady d := by
  simp only [getMeasurements, hw, hr, Option.isSome_none, Bool.false_eq_true, if_false, if_true]

theorem doeDiscovery_answers (hl : live d = true) (hf : fnPresent d f = true) : doeDiscovery f d =
    spdmSay (fnIx f) 0 (natLe 2 1 ++ natLe 1 0 ++ natLe 2 1 ++ natLe 1 1 ++ natLe 2 1 ++ natLe 1 2) d :=
  guarded_true _ _ _ (by simp [hf, (live_iff d).1 hl])

end Request

/-- Settles O42: in service each request is answered by its meaning, in recovery by the one refusal. -/
theorem spdmRequestsAreAnswered : Obligations.SpdmRequestsAreAnswered := by
  refine ⟨?plain, ?certificate, ?challenge, ?report, ?switching, ?resetting, ?signed, ?recovery, ?discovery⟩
  case plain =>
    intro f s hl hf
    exact ⟨next_spdmRequest hl hf rfl, next_spdmRequest hl hf rfl, next_spdmRequest hl hf rfl, next_spdmRequest hl hf rfl⟩
  case certificate =>
    intro f off n s hl hf ho
    exact next_spdmRequest hl hf (getCertificate_portion ho f n)
  case challenge =>
    intro f nonce s hl hf
    exact next_spdmRequest hl hf rfl
  case report =>
    intro f nonce s hl hf hw hr
    exact next_spdmRequest hl hf (getMeasurements_signs hw hr nonce)
  case switching =>
    intro f nonce s hl hf hw
    exact next_spdmRequest hl hf (getMeasurements_switching hw f nonce)
  case resetting =>
    intro v nonce s hl hf hw hr
    exact next_spdmRequest hl hf (getMeasurements_resetting (f := .vf v) hw hr nonce)
  case signed =>
    intro f code nonce content d
    exact ⟨_, rfl, rfl⟩
  case recovery =>
    intro f nonce leaf s hr hf c hc
    simp only [List.mem_cons, List.not_mem_nil, or_false] at hc
    rcases hc with rfl | rfl | rfl | rfl | rfl | rfl | rfl | rfl <;> exact next_congr (spdmRequest_recovery hr hf)
  case discovery =>
    intro f s hl hf
    exact next_congr (doeDiscovery_answers hl hf)

/-! ## Sessions (R300, R331, R384) -/

section Session
variable {f : Fn} {k : Nat} {x : Session} {d : Dev}

theorem keyExchange_opens (h : ((shareOf f).find? fun k => (look none k d.ptr.sess).isNone) = some k) (leaf : List Byte) :
    keyExchange f leaf d = spdmSay (fnIx f) 0x64 (natLe 2 k) { d with
      ret := { d.ret with rng := d.ret.rng + 1 }
      ptr := { d.ptr with sess := put none k (some
        { fn := fnIx f, done := false, identity := Config.sha384 leaf, keyGen := 0, exports := 0
          secret := d.ret.rng + 1 }) d.ptr.sess } } := by
  simp only [keyExchange, h]
  rfl

theorem keyExchange_busy (h : ((shareOf f).find? fun k => (look none k d.ptr.sess).isNone) = none) (leaf : List Byte) :
    keyExchange f leaf d = spdmError (fnIx f) errBusy .ok d := by
  simp only [keyExchange, h]

/-- FINISH of a session whose KEY_EXCHANGE is done completes it or, where mutual authentication failed, ends it. -/
theorem finishSession_open (hl : live d = true) (hf : fnPresent d (fnOf x.fn) = true) (hx : look none k d.ptr.sess = some x)
    (hd : x.done = false) (ok : Bool) : finishSession k ok d =
      if ok then spdmSay x.fn 0x65 [] { d with ptr := { d.ptr with
        sess := put none k (some { x with done := true }) d.ptr.sess } }
      else spdmError x.fn errDecrypt .ok (endSessionSlot k d) := by
  simp only [finishSession, hx, hd, Bool.false_eq_true, if_false, spdmRequest_runs hl hf]

theorem inSession_open (hl : live d = true) (hf : fnPresent d (fnOf x.fn) = true) (hx : sessOf d k = some x)
    (g : Session → Dev → Dev) : inSession k g d = g x d := by
  simp only [inSession, hx, spdmRequest_runs hl hf]

/-- A session under which no dump leaves the device frees its slot and marks its windows, no more. -/
theorem endSessionSlot_noDump (h : d.ump.dumpState ≠ 3 ∨ d.ump.exportSess ≠ k) : endSessionSlot k d = { d with
    ptr := { d.ptr with sess := put none k none d.ptr.sess }
    win := d.win.map fun e => if e.2.live ∧ e.2.session = k then (e.1, { e.2 with ended := true }) else e } :=
  if_neg fun hd => h.elim (· hd.1) (· hd.2)

end Session

/-- Settles O43: each message meets the session that it names in its slot. -/
theorem sessionsAct : Obligations.SessionsAct := by
  refine ⟨?opens, ?busy, ?finish, ?kept, fun k d => endSessionSlot_noDump⟩
  case opens =>
    intro f leaf k s hl hf hk
    exact next_spdmRequest hl hf (keyExchange_opens hk leaf)
  case busy =>
    intro f leaf s hl hf hk
    exact next_spdmRequest hl hf (keyExchange_busy hk leaf)
  case finish =>
    intro k x s hl hx hd hf
    exact ⟨next_congr (finishSession_open hl hf hx hd true), next_congr (finishSession_open hl hf hx hd false)⟩
  case kept =>
    intro k x s hl hx hf
    exact ⟨next_congr (inSession_open hl hf hx _), next_congr (inSession_open hl hf hx _),
      next_congr (inSession_open hl hf hx _)⟩

end Sys2Proof.Proofs

/-!
SUPPORT. JTAG and the debug block, and how the mailbox answers: what the lifecycle's debug rules let through, what HALT, STEP
and an access to the state do to the selected stream, and what ends a mailbox request (R340, R346, R384, R388, R415, R425).
-/
namespace Sys2Proof.Proofs
open Sys2Proof.Machine Sys2Proof.Laws

/-! ## JTAG (R346, R415) -/

section Jtag
variable {d : Dev} {s : State}

/-- An instruction that only answers changes nothing that the report shows. -/
theorem exec_jtag_answers {op : JtagOp} {x : Out} (hp : powered s.dev = true) (h : jtag op s.dev = emit x s.dev) :
    exec (.jtagInstruction op) s = .next { s with dev := emit x s.dev } :=
  next_congr ((jtag_runs hp (emit x) h).trans (tracked_emit x s.dev))

/-- Without debug, and short of SCRAPPED, every instruction but IDCODE selects BYPASS. -/
theorem jtag_closed {op : JtagOp} (hd : debugState d.ptr.lcsAtReset = false) (hn : d.ptr.lcsAtReset < 4)
    (hi : op ≠ .idcode) : jtag op d = emit (.jtag 0) d := by
  have hb : jtagPermitted d.ptr.lcsAtReset op = .bypass := by
    cases op with
    | idcode => exact absurd rfl hi
    | bypass => rfl
    | lifecycle => exact if_neg (by simp [hd, Nat.not_le.2 hn])
    | boundaryScan | other => exact if_neg (by simp [hd])
  rw [jtag, hb]

theorem jtag_lifecycle (hd : debugState d.ptr.lcsAtReset = true) :
    jtag .lifecycle d = emit (.jtag (BitVec.ofNat 32 (lcsState d.fuse))) (debugUsed d) := by
  have hb : jtagPermitted d.ptr.lcsAtReset .lifecycle = .lifecycle := if_pos (.inl hd)
  rw [jtag, hb]

theorem jtag_boundaryScan (hd : debugState d.ptr.lcsAtReset = true) (hl : d.pkg.phase ≠ .lockdown)
    (ht : d.pkg.phase ≠ .tripped) : jtag .boundaryScan d = boundaryHalt (debugUsed d) := by
  have hb : jtagPermitted d.ptr.lcsAtReset .boundaryScan = .boundaryScan := if_pos hd
  rw [jtag, hb]
  exact if_neg (by rintro (h | h) <;> contradiction)

theorem keysGone_stopAndZero (p : Phase) (d : Dev) : keysGone (stopAndZero p d) = true := by
  rw [keysGone, linkKeysGone_zero]
  simp [stopAndZero, alert]

theorem keysGone_boundaryHalt (d : Dev) : keysGone (boundaryHalt d) = true := keysGone_stopAndZero .lockdown d

end Jtag

/-! ## The debug block (R425) -/

section Debug
variable {d : Dev}

/-- An access of the PF to the open block marks debug as used. -/
theorem whenBar_dbgAccess {g k : Dev → Dev} (hb : barAnswers d .pf = true) (ho : d.ptr.debugOpen = true)
    (h : g (debugUsed d) = k d) (off pos : Nat) (w : Bool) :
    whenBar .pf (tracked (dbgAccess .pf off pos w g)) d = tracked k d :=
  whenBar_tracked hb ((dbgAccess_open ho).trans h)

theorem whenBar_onBar_dbgAccess {g k : Dev → Dev} (hl : live d = true) (hb : barAnswers d .pf = true)
    (ho : d.ptr.debugOpen = true) (h : g (debugUsed d) = k d) (off pos : Nat) (w : Bool) :
    whenBar .pf (onBar (tracked (dbgAccess .pf off pos w g))) d = settle (tracked k d) := by
  rw [whenBar_onBar hl hb, tracked_congr _ _ _ ((dbgAccess_open ho).trans h)]

/-- A halted stream that can issue at the clock when it is let go issues its bundle, and is halted again. -/
theorem dbgStep_issues {clk item ctx : Nat} {run : Dev} (hh : dbgHalted d = true)
    (hi : (getCore d (dbgCore d)).item = some item) (hc : (getCore d (dbgCore d)).ctx = some ctx)
    (he : run = setStream (dbgCore d) (dbgStrm d) (fun x => { x with halted := false }) d)
    (hr : streamReady run (dbgCore d) (dbgStrm d) clk = true) (hk : issueClock run (dbgCore d) clk = true) :
    dbgStep clk d = setStream (dbgCore d) (dbgStrm d) (fun x => { x with halted := true })
      (issueOn (dbgCore d) (dbgStrm d) clk item ctx run) := by
  subst he
  simp only [dbgStep, hi, hc, hh, hr, hk, Bool.and_self, if_true]

theorem dbgStateAccess_read {off : Nat} (hh : dbgHalted d = true) (h8 : off % 8 = 0) (ho : off < 4608) (f : Fn) :
    dbgStateAccess f off none d = emit (.readData (fnIx f) (BitVec.ofNat 64 (leNat (dbgBytes d off 8)))) d := by
  rw [dbgStateAccess, if_neg (by omega)]
  exact if_pos hh

theorem dbgStateAccess_write {off : Nat} (hh : dbgHalted d = true) (h8 : off % 8 = 0) (ho : off < 4608) (f : Fn)
    (w : DWord) : dbgStateAccess f off (some w) d =
      setStream (dbgCore d) (dbgStrm d) (setStateBytes off (natLe 8 w.toNat)) d := by
  rw [dbgStateAccess, if_neg (by omega)]
  exact if_pos hh

end Debug

/-- Settles O47: an instruction goes by what the lifecycle permits, and an access by the open block and the halted stream. -/
theorem debugCommandsAct : Obligations.DebugCommandsAct := by
  refine ⟨?always, ?closed, ?lifecycle, ?scan, ?halt, ?step, ?state⟩
  case always =>
    intro s hp
    exact ⟨exec_jtag_answers hp rfl, exec_jtag_answers hp rfl⟩
  case closed =>
    intro op s hp hd hn hi
    exact exec_jtag_answers hp (jtag_closed hd hn hi)
  case lifecycle =>
    intro s hp hd
    exact next_congr (jtag_runs hp _ (jtag_lifecycle hd))
  case scan =>
    intro s hp hd hl ht
    refine ⟨_, next_congr (jtag_runs hp (fun d => boundaryHalt (debugUsed d)) (jtag_boundaryScan hd hl ht)), ?_⟩
    rcases tracked_cases (fun d => boundaryHalt (debugUsed d)) s.dev with h | h <;> rw [h]
    all_goals exact ⟨rfl, keysGone_boundaryHalt _, List.mem_cons_self, rfl⟩
  case halt =>
    intro on s hl hb ho
    exact next_congr (whenBar_onBar_dbgAccess hl hb ho rfl _ _ _)
  case step =>
    intro clk item ctx d s hl hb ho hh hi hc he hr hk
    exact next_congr (whenBar_onBar_dbgAccess hl hb ho
      (dbgStep_issues (d := debugUsed s.dev) hh hi hc he hr hk) _ _ _)
  case state =>
    intro off s hb ho hh h8 hoff
    exact ⟨next_congr (whenBar_dbgAccess hb ho (dbgStateAccess_read (d := debugUsed s.dev) hh h8 hoff .pf) _ _ _),
      fun w => next_congr (whenBar_dbgAccess hb ho (dbgStateAccess_write (d := debugUsed s.dev) hh h8 hoff .pf w) _ _ _)⟩

/-! ## The mailbox (R340, R384, R388) -/

section Mailbox
variable {d : Dev}

/-- A request given while one is in progress is dropped. -/
theorem mailbox_busy (hb : barAnswers d .pf = true) (hm : d.pkg.mailbox = true) (hy : d.ptr.busy = true) (op : Nat)
    (seq : Word) (payload : List Byte) (f : Dev → Served) :
    mailbox op seq payload f d = dropLog .pf .busyUpdate 8 mboxGo true d := by
  simp only [mailbox, hb, hm, hy, Bool.not_true, Bool.false_eq_true, if_false, if_true]

/-- The request in progress ended, with its status. -/
def mboxEnded (r : Reason) (d : Dev) : Dev :=
  { d with ptr := { d.ptr with busy := false, mboxReason := r, seqLo := d.ptr.curSeq.toNat % 65536, discard := false } }

/-- A device whose buffer holds the response of a request that ended. -/
def mboxResponse (r : Reason) (payload : List Byte) (d : Dev) : Dev :=
  { mboxEnded r d with ptr := { (mboxEnded r d).ptr with
    buf := writeBytes (writeByte d.ptr.buf 8 (BitVec.ofNat 8 (reasonCode r))) 16 payload } }

theorem mboxEnd_discarded (hy : d.ptr.busy = true) (hd : d.ptr.discard = true) (r : Reason) (payload : List Byte) :
    mboxEnd r payload d = mboxEnded r d := by
  simp only [mboxEnd, hy, hd, Bool.not_true, Bool.false_eq_true, if_false, if_true]
  rfl

theorem mboxEnd_answered (hy : d.ptr.busy = true) (hd : d.ptr.discard = false) (r : Reason) (payload : List Byte) :
    mboxEnd r payload d = interrupt 0 2 (emit (.mailbox d.ptr.curSeq r payload) (mboxResponse r payload d)) := by
  simp only [mboxEnd, hy, hd, Bool.not_true, Bool.false_eq_true, if_false]
  rfl

theorem mboxEnd_status (hy : d.ptr.busy = true) (r : Reason) (payload : List Byte) :
    (mboxEnd r payload d).ptr.busy = false ∧ (mboxEnd r payload d).ptr.mboxReason = r ∧
    (mboxEnd r payload d).ptr.seqLo = d.ptr.curSeq.toNat % 65536 ∧ (mboxEnd r payload d).hbm = d.hbm := by
  cases hd : d.ptr.discard with
  | true =>
    rw [mboxEnd_discarded hy hd]
    exact ⟨rfl, rfl, rfl, rfl⟩
  | false =>
    rw [mboxEnd_answered hy hd, interrupt_ptr, interrupt_hbm]
    exact ⟨rfl, rfl, rfl, rfl⟩

end Mailbox

/-- Settles O60: a busy mailbox drops a request, and the end of one goes by whether its response is discarded. -/
theorem mailboxAnswers : Obligations.MailboxAnswers := by
  refine ⟨?busy, ?dropped, fun r payload d hy => mboxEnd_status hy r payload, ?answered, ?discarded⟩
  case busy =>
    intro op seq payload f d hb hm hy
    exact mailbox_busy hb hm hy op seq payload f
  case dropped =>
    intro seq s hb hm hy i hi
    simp only [List.mem_cons, List.not_mem_nil, or_false] at hi
    rcases hi with rfl | rfl | rfl | rfl
    all_goals
      exact next_congr ((tracked_congr _ _ _ (mailbox_busy hb hm hy _ seq _ _)).trans (tracked_drop _ _ _ _ _ _))
  case answered =>
    intro r payload d hy hd
    rw [mboxEnd_answered hy hd, interrupt_ptr]
    exact ⟨interrupt_marks _ _ _, rfl⟩
  case discarded =>
    intro r payload d hy hd
    rw [mboxEnd_discarded hy hd]
    exact ⟨rfl, rfl⟩

end Sys2Proof.Proofs

/-!
SUPPORT. L1 of a unit: what a request for it, a fault of a sequencer's firmware and its completion do (R358, R359,
R361, R366, R433).
-/
namespace Sys2Proof.Proofs
open Sys2Proof.Machine Sys2Proof.Laws

/-! ## Requests (R361, R366, R433) -/

theorem exec_l1Reset {f : Fn} {u : UnitId} {s : State} (hl : live s.dev = true) (hb : barAnswers s.dev f = true) :
    exec (.l1Reset (.request f) u) s = .next { s with dev := settle (requestL1 f u s.dev) } :=
  next_congr (whenBar_onBar hl hb)

section Request
variable {f : Fn} {u : UnitId} {d : Dev}

theorem requestL1_absent (hm : mayReset d f (unitOct u) = true)
    (hp : ((unitCluster u).any fun c => !clusterPresent d c) = true) : requestL1 f u d = setReq .engineAbsent d := by
  simp only [requestL1, hm, hp, Bool.not_true, Bool.false_eq_true, if_false, if_true]

theorem requestL1_covered (hm : mayReset d f (unitOct u) = true)
    (hp : ((unitCluster u).any fun c => !clusterPresent d c) = false) (hc : l1Covered d u = true) :
    requestL1 f u d = record { recAt d (unitOct u) .ok 15 with
      reason := freeReason d.free, action := 2, subsumed := true, cluster := unitCluster u } false
      (setReq .ok { d with free := d.free + 1 }) := by
  simp only [requestL1, hm, hp, hc, Bool.not_true, Bool.false_eq_true, if_false, if_true]
  rfl

theorem requestL1_starts (hm : mayReset d f (unitOct u) = true)
    (hp : ((unitCluster u).any fun c => !clusterPresent d c) = false) (hc : l1Covered d u = false) :
    requestL1 f u d = l1Start u (setReq .ok d) := by
  simp only [requestL1, hm, hp, hc, Bool.not_true, Bool.false_eq_true, if_false]

end Request

/-! ## What a unit loses (R361) -/

section Loss
variable {d : Dev}

/-- A Relay engine without transfers loses its sequence number alone. -/
theorem l1Start_relay_idle {o : Fin 8} {e : Fin 2} (h : ∀ x ∈ d.xfers, (x.oct == o.val && x.eng == e.val) = false) :
    l1Start (.relay o e) d = setRle o (fun r =>
      if e.val = 0 then { r with seq0 := r.seq0 + 65536 } else { r with seq1 := r.seq1 + 65536 })
      { d with ump := { d.ump with l1 := .relay o e :: d.ump.l1 } } := by
  have hx : (d.xfers.filter fun x => x.oct == o.val && x.eng == e.val) = [] :=
    List.filter_eq_nil_iff.2 fun x hx => by simp [h x hx]
  simp only [l1Start, l1Relay, hx, List.foldl_nil]

/-- A core without an item loses its own state alone. -/
theorem l1Start_core_idle {o : Fin 8} {c : Fin 9} {k : Fin 64} (h : (getCore d (coreNo o c k)).item = none) :
    l1Start (.core o c k) d = resetCore o c k { d with ump := { d.ump with l1 := .core o c k :: d.ump.l1 } } := by
  have hi : itemsOn { d with ump := { d.ump with l1 := .core o c k :: d.ump.l1 } } o c [k] = [] :=
    show itemsOn d o c [k] = [] by simp [itemsOn, h]
  simp only [l1Start, l1Cores, hi, List.foldl_cons, List.foldl_nil]

end Loss

/-! ## The end of the level (R359, R361) -/

section Complete
variable {d : Dev}

theorem l1Complete_unit {u : UnitId} (h : d.ump.l1.contains u = true) (hu : ∀ o, u ≠ .sequencer o) :
    l1Complete u d = { d with ump := { d.ump with l1 := d.ump.l1.filter (· != u) } } := by
  rw [l1Complete, if_neg (by rw [h]; decide)]
  cases u with
  | sequencer o => exact absurd rfl (hu o)
  | cluster | relay | rally | core => rfl

theorem l1Complete_sequencer {o : Fin 8} {e : Dev} (h : d.ump.l1.contains (.sequencer o) = true)
    (hn : nothingActive d o = true) (he : e = stopFaulted o (dropRecords o d)) : l1Complete (.sequencer o) d =
      { e with ump := { e.ump with l1 := e.ump.l1.filter (· != UnitId.sequencer o) } } := by
  rw [l1Complete, if_neg (by rw [h]; decide), he]
  exact if_pos hn

end Complete

/-- Settles O49: a request goes by what covers the unit, an idle unit loses only what is its own, and a completion by whether
the unit is a sequencer. -/
theorem unitResetsAct : Obligations.UnitResetsAct := by
  refine ⟨?relay, ?core, ?covered, ?absent, ?firmware, ?unit, ?sequencer⟩
  case relay =>
    intro f o e s hl hb hm hc hx
    refine (exec_l1Reset hl hb).trans (next_congr (congrArg settle ?_))
    exact (requestL1_starts (u := .relay o e) hm rfl hc).trans (l1Start_relay_idle hx)
  case core =>
    intro f o c k s hl hb hm hp hc hi
    refine (exec_l1Reset hl hb).trans (next_congr (congrArg settle ?_))
    exact (requestL1_starts (u := .core o c k) hm (by simp [unitCluster, hp]) hc).trans (l1Start_core_idle hi)
  case covered =>
    intro f u s hl hb hm hp hc
    exact (exec_l1Reset hl hb).trans (next_congr (congrArg settle (requestL1_covered hm hp hc)))
  case absent =>
    intro f u s hl hb hm hp
    exact (exec_l1Reset hl hb).trans (next_congr (congrArg settle (requestL1_absent hm hp)))
  case firmware =>
    intro o s hl hc
    exact next_settled hl (firmwareFault_starts o s.dev hc)
  case unit =>
    intro u s hl h hu
    exact next_settled hl (l1Complete_unit h hu)
  case sequencer =>
    intro o s hl h hn
    exact ⟨_, rfl, next_settled hl (l1Complete_sequencer h hn rfl)⟩

end Sys2Proof.Proofs

/-!
SUPPORT. L3, L4 and the bounds of L1 to L3: what a request for a level of the chip and an expired bound do
(R352, R358, R359, R363 to R366, R378, R410, R433).
-/
namespace Sys2Proof.Proofs
open Sys2Proof.Machine Sys2Proof.Laws

/-! ## L3 (R352, R363, R433) -/

section Warm
variable {r : CheckResult} {d : Dev}

theorem requestL3_starts (h : d.ump.l3Wait = none) (ha : d.ump.auto = false) :
    requestL3 .pf r d = l3Run r (setReq .ok d) := by
  simp only [requestL3, h, ne_eq, not_true_eq_false, Option.isSome_none, Bool.false_eq_true, if_false]
  exact l3Start_runs (d := setReq .ok d) h r ha

theorem requestL3_vf (v : Fin 8) : requestL3 (.vf v) r d = reqDropped (.vf v) d := if_pos (by simp)

/-- A watchdog's record precedes the L3 that it starts. -/
theorem watchdog_starts (h : d.ump.l3Wait = none) (ha : d.ump.auto = false) (source kind : Nat) (b : Bool) :
    watchdog source kind r b d = l3Run r (recordHung kind 0 { recBase with source := source, action := 4 } b d) := by
  rw [watchdog, h]
  exact l3Start_after_record r kind 0 _ b d h ha

theorem l3Complete_boots (h : d.pkg.phase = .l3) :
    l3Complete d = bootConfig (bootKeys false { d with pkg := { d.pkg with phase := .running } }) := if_pos h

end Warm

/-- Settles O51: a request and a watchdog run the chip's reset, after which nothing follows at once, and the reset keeps
HBM. -/
theorem warmResetsAct : Obligations.WarmResetsAct := by
  refine ⟨?request, ?denied, ?watchdogs, ?keeps, fun s h => next_congr (l3Complete_boots h)⟩
  case request =>
    intro r s hl hb h ha
    refine next_congr ((whenBar_onBar hl hb).trans ?_)
    rw [requestL3_starts h ha, settle_l3Run]
  case denied =>
    intro v r s hl hb
    exact next_congr ((whenBar_onBar hl hb).trans (congrArg settle (requestL3_vf v)))
  case watchdogs =>
    intro r s hl h ha
    exact ⟨(next_settled hl (watchdog_starts h ha _ _ _)).trans (next_congr (settle_l3Run _ _)),
      (next_settled hl (watchdog_starts h ha _ _ _)).trans (next_congr (settle_l3Run _ _))⟩
  case keeps =>
    intro r d
    obtain ⟨hhbm, hpage, hctx, hcmds, hpart, hregion⟩ := keepsMemory_l3 r d
    exact ⟨l3Run_not_live r d, hhbm, hpage, hregion, hctx, hcmds, hpart⟩

/-! ## L4 and the bounds (R358, R359, R365, R410) -/

section Bounds
variable {u : UnitId} {v : Nat} {r : CheckResult} {d : Dev}

theorem requestL4_vf (v : Fin 8) : requestL4 (.vf v) d = reqDropped (.vf v) d := if_pos (by simp)

/-- A unit whose L1 bound expired: its level runs no more, and the escalation is counted. -/
def l1Escalated (u : UnitId) (d : Dev) : Dev :=
  escalated { d with ump := { d.ump with l1 := d.ump.l1.filter (· != u) } }

/-- The bound of an L1 ends it, and the L2 of the unit's partition starts where no running level covers it. -/
theorem l1Bound_partition (h : d.ump.l1.contains u = true) (hv : octVf d (unitOct u) = some v) (hc : l2Covered d v = false)
    (ha : d.ump.auto = false) : l1Bound u r d = tracked (l2Run v .hungUnit 13) (recordHung (unitCode u).1 (unitCode u).2
      { recAt d (unitOct u) .hungUnit 13 with escalated := true, action := 3 } false (l1Escalated u d)) := by
  have hoct : octVf (l1Escalated u d) (unitOct u) = some v := hv
  have hcov : l2Covered (l1Escalated u d) v = false := hc
  rw [l1Escalated] at hoct hcov ⊢
  simp only [l1Bound, h, hoct, hcov, Bool.not_true, Bool.false_eq_true, if_false]
  exact if_pos (by rw [(recordHung_l3 _ _ _ _ _).2]; exact congrArg (!·) ha)

/-- The bound of an L1 whose octant serves no partition starts an L3. -/
theorem l1Bound_chip (h : d.ump.l1.contains u = true) (hv : octVf d (unitOct u) = none) (hw : d.ump.l3Wait = none)
    (ha : d.ump.auto = false) : l1Bound u r d = l3Run r (recordHung (unitCode u).1 (unitCode u).2
      { recAt d (unitOct u) .hungUnit 13 with escalated := true, action := 4 } false (l1Escalated u d)) := by
  have hoct : octVf (l1Escalated u d) (unitOct u) = none := hv
  have hwait : (l1Escalated u d).ump.l3Wait = none := hw
  rw [l1Escalated] at hoct hwait ⊢
  simp only [l1Bound, h, hoct, hwait, Bool.not_true, Bool.false_eq_true, if_false]
  exact l3Start_after_record r _ _ _ _ (l1Escalated u d) hw ha

/-- The bound of an L2 starts an L3. -/
theorem l2Bound_chip (h : has8 d.ump.l2 v = true) (hw : d.ump.l3Wait = none) (ha : d.ump.auto = false) :
    l2Bound v r d = l3Run r (recordHung (Config.freeNat d.free % 256) (Config.freeNat d.free / 256)
      { recBase with source := 13, vf := some v, action := 4, escalated := true } false
      (escalated { d with free := d.free + 1 })) := by
  have hwait : (escalated { d with free := d.free + 1 }).ump.l3Wait = none := hw
  simp only [l2Bound, h, hwait, Bool.not_true, Bool.false_eq_true, if_false]
  exact l3Start_after_record r _ _ _ _ (escalated { d with free := d.free + 1 }) hw ha

end Bounds

/-- Settles O52: each level's bound is recorded and goes by what the unit's octant serves. -/
theorem levelsEscalate : Obligations.LevelsEscalate := by
  refine ⟨?cycle, ?denied, fun n d => ⟨rfl, rfl, rfl, rfl, rfl, rfl, rfl⟩, ?partition, ?chip, ?second, ?third⟩
  case cycle =>
    intro s hb
    exact next_congr (whenBar_answers _ _ _ hb)
  case denied =>
    intro v s hb
    exact next_congr ((whenBar_answers _ _ _ hb).trans (requestL4_vf v))
  case partition =>
    intro u v r s hl h hv hc ha
    exact next_settled hl (l1Bound_partition h hv hc ha)
  case chip =>
    intro u r s hl h hv hw ha
    exact (next_settled hl (l1Bound_chip h hv hw ha)).trans (next_congr (settle_l3Run _ _))
  case second =>
    intro v r s hl h hw ha
    exact (next_settled hl (l2Bound_chip h hw ha)).trans (next_congr (settle_l3Run _ _))
  case third =>
    intro s h
    exact next_congr (if_neg (not_not.2 h))

end Sys2Proof.Proofs

/-!
SUPPORT. Lockdown: what it leaves of the device, whatever its cause (R358, R367, R368).
-/
namespace Sys2Proof.Proofs
open Sys2Proof.Machine Sys2Proof.Laws

/-- A device in lockdown from another: halted without a key, CDI_0 among them (log 58), with the memory, the fuses and the flash
that it had (R367, R368). -/
structure LockedDown (a b : Dev) : Prop where
  phase : a.pkg.phase = .lockdown
  halt : a.pkg.halt = true
  keys : keysGone a = true
  errFatal : .errFatal ∈ a.out
  cause : a.ump.cycleCause = 3
  hbm : a.hbm = b.hbm
  fuse : a.fuse = b.fuse
  flash : a.flash = b.flash

/-- Lockdown of a device that is not halted already, by any record. -/
theorem lockdown_halts {d : Dev} (hp : d.pkg.phase = .running ∨ d.pkg.phase = .recovery ∨ d.pkg.phase = .l3) (r : FaultRec) :
    LockedDown (lockdown r d) d := by
  have hrun : ¬ (d.pkg.phase = .lockdown ∨ d.pkg.phase = .tripped ∨ d.pkg.phase = .unpowered) := by
    rcases hp with hp | hp | hp <;> simp [hp]
  rw [lockdown, if_neg hrun]
  exact {
    phase := rfl
    halt := by simp [stopAndZero]
    keys := keysGone_stopAndZero .lockdown _
    errFatal := List.mem_cons_self
    cause := rfl
    hbm := record_hbm _ _ _
    fuse := record_fuse _ _ _
    flash := record_flash _ _ _ }

/-- Every cause leads to the one lockdown, of a device that differs in its error registers at most (R358). -/
theorem lockdownBy_eq (c : SecurityCause) (d : Dev) : ∃ r e, lockdownBy c d = lockdown r e ∧
    e = { d with stack := e.stack, free := e.free } := by
  cases c <;> exact ⟨_, _, rfl, rfl⟩

/-- Settles O53: each cause is the one lockdown, whose record leaves memory, fuses and flash alone. -/
theorem lockdownZeroesKeys : Obligations.LockdownZeroesKeys := by
  intro c s hp
  obtain ⟨r, e, hby, he⟩ := lockdownBy_eq c s.dev
  have hpe : e.pkg.phase = .running ∨ e.pkg.phase = .recovery ∨ e.pkg.phase = .l3 := by rw [he]; exact hp
  have hd := lockdown_halts hpe r
  refine ⟨_, next_congr ((guarded_true _ _ _ ?_).trans hby), rfl, hd.phase, hd.halt, hd.keys, hd.errFatal, hd.cause,
    hd.hbm.trans (by rw [he]), hd.fuse.trans (by rw [he]), hd.flash.trans (by rw [he])⟩
  rcases hp with hp | hp | hp <;> rw [hp] <;> rfl

end Sys2Proof.Proofs

/-!
SUPPORT. The host link and the board's signals, function-level resets, configuration writes and interrupt vectors: what each
event and each write does (R374, R377, R379, R382, R384, R385, R388, R389, R398, R409).
-/
namespace Sys2Proof.Proofs
open Sys2Proof.Machine Sys2Proof.Laws

/-! ## Sessions that end (R300, R384) -/

section Sessions
variable {d : Dev}

/-- Where no dump leaves the device, the end of sessions raises no interrupt. -/
theorem endSessions_pkg (h : d.ump.dumpState ≠ 3) (f : Fn) : (endSessions f d).pkg = d.pkg := by
  refine (foldl_invariant (fun e : Dev => e.ump.dumpState ≠ 3 ∧ e.pkg = d.pkg) _ (fun e k he => ?_) _ _ ⟨h, rfl⟩).2
  split
  · rw [endSessionSlot_noDump (.inl he.1)]
    exact he
  · exact he

theorem endSessions_pf_sess {k : Nat} (h : k < 16) : look none k (endSessions .pf d).ptr.sess = none := by
  rw [endSessions]
  exact endSessions_sess (shareOf .pf) d k (.inl (List.mem_range.2 h))

end Sessions

/-! ## Function-level resets and configuration writes (R384, R385) -/

section Functions
variable {d : Dev}

theorem vfFlr_resets {v : Fin 8} (h : (getPart d v).live = false) : vfFlr v d = resetFn (.vf v) d :=
  if_neg fun hv => Bool.false_ne_true (h.symm.trans hv.2)

/-- The L2 of the VF's partition follows (log 39). -/
theorem vfFlr_starts {v : Fin 8} (hl : live d = true) (h : (getPart d v).live = true) :
    vfFlr v d = settle (l2Unnamed v (resetFn (.vf v) d)) := if_pos ⟨hl, h⟩

/-- What the PF's reset leaves: its enables clear and an answer in progress discarded. -/
theorem pfFlr_facts (d : Dev) : (pfFlr d).ptr.discard = d.ptr.busy ∧ look false 0 (pfFlr d).pkg.busMaster = false ∧
    look false 0 (pfFlr d).pkg.memSpace = false := by
  obtain ⟨hbus, hmem, -, -, -, -, -, -, -, -, hbusy⟩ := endSessions_kept .pf (resetFn .pf d)
  simp only [pfFlr, hbus, hmem, hbusy]
  exact ⟨rfl, look_put_same false 0 false _, look_put_same false 0 false _⟩

theorem pfFlr_sess {k : Nat} (h : k < 16) : look none k (pfFlr d).ptr.sess = none := by
  simp only [pfFlr, endSessions_pf_sess h]

theorem pfFlr_msixPend (h : d.ump.dumpState ≠ 3) (e : Nat × Nat) (he : e ∈ (pfFlr d).pkg.msixPend) : e.1 ≠ 0 := by
  have hp : (endSessions .pf (resetFn .pf d)).pkg = (resetFn .pf d).pkg :=
    endSessions_pkg (d := resetFn .pf d) h .pf
  simp only [pfFlr, hp] at he
  simpa [fnIx] using (List.mem_filter.1 he).2

end Functions

/-- Settles O6: a reset clears what is the function's own, and a configuration write its one field. -/
theorem functionResetsAct : Obligations.FunctionResetsAct := by
  refine ⟨?vf, ?partition, ?pf, ?enables, ?vfs⟩
  case vf =>
    intro v s hf hp
    exact next_congr ((guarded_true _ _ _ hf).trans (vfFlr_resets hp))
  case partition =>
    intro v s hf hl hp
    exact next_congr ((guarded_true _ _ _ hf).trans (vfFlr_starts hl hp))
  case pf =>
    intro s hf
    obtain ⟨hdiscard, hbus, hmem⟩ := pfFlr_facts s.dev
    exact ⟨_, next_congr (guarded_true _ _ _ hf), rfl, hdiscard, hbus, hmem, pfFlr_msixPend,
      fun k => pfFlr_sess⟩
  case enables =>
    intro f v s hf
    exact ⟨next_congr (guarded_true _ _ _ hf), next_congr (guarded_true _ _ _ hf)⟩
  case vfs =>
    intro v s hf
    exact ⟨next_congr (guarded_true _ _ _ hf), next_congr (guarded_true _ _ _ hf)⟩

/-! ## The link (R374, R377, R379, R382, R409) -/

section Link
variable {d : Dev}

theorem perstAssert_resets (hp : d.pkg.perst = false) (hl : live d = true) (hw : d.ump.l3Wait = none) (ha : d.ump.auto = false)
    (r : CheckResult) : perstAssert r d = l3Run r { d with pkg := { d.pkg with perst := true } } := by
  rw [perstAssert, if_neg (by simp [hp]), if_pos ⟨hl, by simp [hw]⟩]
  exact l3Start_runs (d := { d with pkg := { d.pkg with perst := true } }) hw r ha

/-- The link trains where configuration space is released and nothing holds it down. -/
theorem trainLink_trains (hc : d.pkg.config = true) (hp : d.pkg.perst = false) (hd : d.pkg.dlUp = false) :
    (trainLink d).pkg.perst = false ∧ (trainLink d).pkg.dlUp = true := by
  rw [trainLink, if_neg (by simp [hc, hp, hd])]
  exact ⟨hp, rfl⟩

theorem trainLink_held (hc : d.pkg.config = false) : trainLink d = d := if_pos (.inl (by simp [hc]))

theorem linkRetrain_sets {speed width : Nat} (hp : d.pkg.perst = false) (hc : d.pkg.config = true) (h4 : 4 ≤ speed)
    (h7 : speed ≤ 7) (hw : width ∈ [4, 8, 16]) : linkRetrain speed width d = { d with pkg := { d.pkg with
      dlUp := true, linkTrained := true, speed := speed, width := width, retrains := (d.pkg.retrains + 1) % 65536 } } := by
  have hin : [4, 8, 16].contains width = true := List.contains_iff_mem.2 hw
  refine if_neg ?_
  simp only [hp, hc, hin, Bool.not_true, Bool.false_eq_true, false_or, or_false]
  omega

/-- A device whose link is lost, with every session ended and the mailbox request aborted (R379). -/
def linkEnded (d : Dev) : Dev :=
  abortMailbox ((List.range 9).foldl (fun d i => endSessions (fnOf i) d) (linkLost d))

/-- The link ended: what is down or clear then, and what of the device stays. -/
structure LinkEnded (a b : Dev) : Prop where
  dlUp : a.pkg.dlUp = false
  busMaster : a.pkg.busMaster = []
  memSpace : a.pkg.memSpace = []
  vfEnable : a.pkg.vfEnable = false
  numVfs : a.pkg.numVfs = 0
  busy : a.ptr.busy = false
  phase : a.pkg.phase = b.pkg.phase
  hbm : a.hbm = b.hbm
  cmds : a.cmds = b.cmds
  steps : a.steps = b.steps
  part : a.part = b.part

theorem linkEnded_ends (d : Dev) : LinkEnded (linkEnded d) d := by
  have hk := kept_foldl (fun d i => endSessions (fnOf i) d) (fun d i => endSessions_kept (fnOf i) d) (List.range 9)
    (linkLost d)
  rw [linkEnded]
  generalize (List.range 9).foldl (fun d i => endSessions (fnOf i) d) (linkLost d) = e at hk ⊢
  exact ⟨hk.dl, hk.bm, hk.ms, hk.ve, hk.nv, rfl, hk.ph, hk.hbm, hk.cmds, hk.steps, hk.part⟩

theorem live_linkEnded (d : Dev) : live (linkEnded d) = live d := by
  rw [live, live, (linkEnded_ends d).phase]

theorem dlDown_eq (d : Dev) : dlDown d = if live (linkEnded d) then
    settle ((List.range 8).foldl (fun d v => l2ByHost v .hostStall d) (linkEnded d)) else linkEnded d := rfl

theorem dlDown_live (hl : live d = true) : dlDown d =
    settle ((List.range 8).foldl (fun d v => l2ByHost v .hostStall d) (linkEnded d)) := by
  rw [dlDown_eq, live_linkEnded, if_pos hl]

theorem dlDown_dead (hl : live d = false) : dlDown d = linkEnded d := by
  rw [dlDown_eq, live_linkEnded, hl, if_neg Bool.false_ne_true]

/-- Where no partition is in force, no L2 starts. -/
theorem foldl_l2ByHost_none (h : partsLive d = []) (r : Reason) :
    (List.range 8).foldl (fun d v => l2ByHost v r d) d = d := by
  have hv : ∀ v ∈ List.range 8, l2ByHost v r d = d := fun v hv =>
    if_pos (by simpa using List.filter_eq_nil_iff.1 h v hv)
  generalize List.range 8 = l at hv
  induction l with
  | nil => rfl
  | cons v l ih =>
    rw [List.foldl_cons, hv v List.mem_cons_self]
    exact ih fun w hw => hv w (List.mem_cons_of_mem _ hw)

/-- A status record that is written changes its window and what was sent, no more. -/
theorem writeStatuses_keeps (d : Dev) : (writeStatuses d).pkg = d.pkg ∧ (writeStatuses d).ptr = d.ptr ∧
    (writeStatuses d).hbm = d.hbm := by
  refine foldl_invariant (fun e : Dev => e.pkg = d.pkg ∧ e.ptr = d.ptr ∧ e.hbm = d.hbm) _ (fun e x he => ?_) _ _
    ⟨rfl, rfl, rfl⟩
  unfold writeStatus
  dsimp only
  split <;> exact he

/-- Without commands and Rally steps the sequencers have nothing to do but the status records. -/
theorem settle_noWork (hc : d.cmds = []) (hs : d.steps = []) :
    (settle d).pkg = d.pkg ∧ (settle d).ptr = d.ptr ∧ (settle d).hbm = d.hbm := by
  unfold settle
  split
  · rw [settleN_quiet _ d hc hs]
    exact writeStatuses_keeps d
  · exact ⟨rfl, rfl, rfl⟩

/-- A DL_Down of a device out of service, or without work, leaves what the end of the link does. -/
theorem dlDown_noWork (h : live d = false ∨ (partsLive d = [] ∧ d.cmds = [] ∧ d.steps = [])) :
    (dlDown d).pkg = (linkEnded d).pkg ∧ (dlDown d).ptr = (linkEnded d).ptr ∧ (dlDown d).hbm = (linkEnded d).hbm := by
  cases hl : live d with
  | false =>
    rw [dlDown_dead hl]
    exact ⟨rfl, rfl, rfl⟩
  | true =>
    obtain ⟨hp, hc, hs⟩ := h.resolve_left (by simp [hl])
    have he := linkEnded_ends d
    have hpe : partsLive (linkEnded d) = [] := by
      simp only [partsLive, getPart, he.part]
      exact hp
    rw [dlDown_live hl, foldl_l2ByHost_none hpe]
    exact settle_noWork (he.cmds.trans hc) (he.steps.trans hs)

theorem exec_hostDlDown {s : State} (h : s.dev.pkg.dlUp = true) :
    exec .hostDlDown s = .next { s with dev := dlDown s.dev } := next_congr (guarded_true _ _ _ h)

end Link

/-- Settles O5: each signal meets its guard, and a DL_Down is the end of the link, after which the partitions' L2 follow. -/
theorem powerAndLinkSignalsAct : Obligations.PowerAndLinkSignalsAct := by
  refine ⟨?power, ?assert, ?release, ?held, ?retrain, ?noWork, ?service, ?refclk, ?short⟩
  case power =>
    intro s h
    exact next_congr (guarded_true _ _ _ h)
  case assert =>
    intro r s hp hl hw ha
    exact next_congr (perstAssert_resets hp hl hw ha r)
  case release =>
    intro s hc hd
    exact ⟨_, rfl, rfl, trainLink_trains (d := { s.dev with pkg := { s.dev.pkg with perst := false } }) hc rfl hd⟩
  case held =>
    intro s hc
    exact next_congr (trainLink_held (d := { s.dev with pkg := { s.dev.pkg with perst := false } }) hc)
  case retrain =>
    intro speed width s hp hc h4 h7 hw
    exact next_congr (linkRetrain_sets hp hc h4 h7 hw)
  case noWork =>
    intro s hd h
    obtain ⟨hpkg, hptr, hhbm⟩ := dlDown_noWork h
    have he := linkEnded_ends s.dev
    refine ⟨_, exec_hostDlDown hd, rfl, ?_⟩
    simp only [hpkg, hptr, hhbm]
    exact ⟨he.dlUp, he.busMaster, he.memSpace, he.vfEnable, he.numVfs, he.busy, he.phase, he.hbm⟩
  case service =>
    intro s hd hl
    exact (exec_hostDlDown hd).trans (next_congr (dlDown_live hl))
  case refclk =>
    intro ns s hd hn
    exact (next_congr (guarded_true _ _ _ (by simp [hd, hn]))).trans (exec_hostDlDown hd).symm
  case short =>
    intro ns s hn
    exact next_congr (guarded_false _ _ _ (by simp [Nat.not_lt.2 hn]))

/-! ## Vectors and SYSCLK_25M (R388, R389, R409) -/

section Vectors
variable {d : Dev}

theorem interrupt_sends {fn n : Nat} (hs : (fn, n) ∉ d.pkg.msixSent) (hm : (msixEnt d fn n).masked = false) :
    interrupt fn n d = emit (.msix fn n (msixEnt d fn n).addr (msixEnt d fn n).data)
      { d with pkg := { d.pkg with msixSent := (fn, n) :: d.pkg.msixSent } } :=
  if_neg (by simp [hs, hm])

theorem sendPending_sends {fn n : Nat} (hd : d.pkg.dlUp = true) (hp : (fn, n) ∈ d.pkg.msixPend)
    (hs : (fn, n) ∉ d.pkg.msixSent) (hm : (msixEnt d fn n).masked = false) :
    sendPending fn n d = emit (.msix fn n (msixEnt d fn n).addr (msixEnt d fn n).data) { d with pkg := { d.pkg with
      msixPend := d.pkg.msixPend.filter (· != (fn, n)), msixSent := (fn, n) :: d.pkg.msixSent } } := by
  rw [sendPending, if_pos (by simp [hd, hp, hs, hm])]
  exact interrupt_sends (d := { d with pkg := { d.pkg with msixPend := d.pkg.msixPend.filter (· != (fn, n)) } }) hs hm

theorem qvecWrite_stores {f : Fn} {o q v : Nat} (hm : mayUseOctant d f o = true) (h3 : 3 ≤ v) (hv : v ≤ 223) (en : Bool) :
    qvecWrite f o q v en d = { d with pkg := { d.pkg with qvec := put (0, false) (32 * o + q) (v, en) d.pkg.qvec } } := by
  rw [qvecWrite, if_neg (by simp [hm]), if_neg (by omega)]

theorem sysclkLoss_sets {ns : Nat} (hn : 1000 ≤ ns) (hp : d.pkg.phase ≠ .unpowered) (hr : d.pwr.refLost = false) :
    sysclkLoss ns d = alert 0 (alert 4 { d with
      pkg := { d.pkg with sysclk := false, sysclkBack := false }, pwr := { d.pwr with refLost := true } }) :=
  if_pos ⟨hn, by simp [powered, hp], by simp [hr]⟩

theorem sysclkRestore_returns {ns : Nat} (hn : 1000000 ≤ ns) (hr : d.pwr.refLost = true) :
    sysclkRestore ns d = { d with pkg := { d.pkg with sysclk := true, sysclkBack := true } } := by
  simp [sysclkRestore, hr, hn]

end Vectors

/-- Settles O7: each event meets its guards in their order, and then its one effect. -/
theorem vectorsAndClocksAct : Obligations.VectorsAndClocksAct := by
  refine ⟨?send, ?store, ?loss, ?returns⟩
  case send =>
    intro f n s hd hp hs hm
    exact next_congr (sendPending_sends hd hp hs hm)
  case store =>
    intro f o q v en s hb hm h3 hv
    exact next_congr ((whenBar_answers _ _ _ hb).trans (qvecWrite_stores hm h3 hv en))
  case loss =>
    intro ns s hn hp hr
    exact next_congr (sysclkLoss_sets hn hp hr)
  case returns =>
    intro ns s hn hr
    exact next_congr (sysclkRestore_returns hn hr)

end Sys2Proof.Proofs

/-!
SUPPORT. Power modes, telemetry and temperature: what a mode change does step by step, what drift and calibration count, and
when a temperature trips the device (R23, R24, R400, R401, R403 to R406, R421, R431).
-/
namespace Sys2Proof.Proofs
open Sys2Proof.Machine Sys2Proof.Laws

/-! ## Power-mode changes (R23, R24, R400, R401, R421, R431) -/

section Mode
variable {d : Dev} {m : PowerMode} {target : Nat}

theorem modeRequest_accepts (h : modeCheck d target = .ok (some m)) :
    modeRequest target d = (.ok, { d with pwr := { d.pwr with accepted := some m, switching := true } }) := by
  simp only [modeRequest, h]

theorem glbModeReq_accepts (hp : d.ptr.hostManaged = true) (hs : d.pwr.switching = false)
    (h : modeCheck d target = .ok (some m)) : glbModeReq .pf target d =
      { d with pwr := { d.pwr with accepted := some m, switching := true, reqReason := .ok } } := by
  simp only [glbModeReq, porterManaged, hp, hs, modeRequest_accepts h, ne_eq, not_true_eq_false, Bool.not_true,
    Bool.false_eq_true, or_self, if_false]

theorem switchStart_ramps (h : d.pwr.accepted = some m) : switchStart d = withdrawPlans { d with pwr := { d.pwr with
    live := m, accepted := none, ramping := true
    vref := if modeMv d.pwr.mode < modeMv m then modeMv m else d.pwr.vref } } := by
  simp only [switchStart, h]

end Mode

/-- Settles O8: a request is accepted by its checks, and each further step goes by what the one before it has set. -/
theorem powerModeChangeSteps : Obligations.PowerModeChangeSteps := by
  refine ⟨?request, ?register, ?start, ?complete, ?revert⟩
  case request =>
    intro seq target m s hm hc
    have ha := modeRequest_accepts (d := mboxTake 0x11 seq (natLe 1 target) s.dev) hc
    refine next_congr ((mailbox_served _ _ _ _ _ hm).trans ?_)
    rw [ha]
    rfl
  case register =>
    intro target m s hb hp hs hc
    exact next_congr ((whenBar_answers _ _ _ hb).trans (glbModeReq_accepts hp hs hc))
  case start =>
    intro m s hl ha
    exact next_whenLive hl (tracked_congr _ _ _ (switchStart_ramps ha))
  case complete =>
    intro s hl hr
    exact next_whenLive hl (if_pos hr)
  case revert =>
    intro s hl hr
    exact next_whenLive hl (tracked_congr _ _ _ (if_pos hr))

/-! ## Telemetry (R403, R404) -/

section Telemetry
variable {d : Dev} {est meas : Nat}

/-- The two powers compared: their difference, and the count of comparisons in a row that were out of bounds (R404). -/
def compared (est meas n : Nat) (d : Dev) : Dev :=
  { d with pwr := { d.pwr with diff := (est : Int) - meas, driftCount := n } }

theorem driftCheck_within (h : 100 * ((est : Int) - meas).natAbs ≤ 3 * envelope d.pwr.live) :
    driftCheck est meas d = compared est meas 0 d := by
  simp [driftCheck, compared, Nat.not_lt.2 h]

theorem driftCheck_counts (h : 3 * envelope d.pwr.live < 100 * ((est : Int) - meas).natAbs) (hc : d.pwr.driftCount < 2) :
    driftCheck est meas d = compared est meas (d.pwr.driftCount + 1) d := by
  have hmin : min 3 (d.pwr.driftCount + 1) = d.pwr.driftCount + 1 := by omega
  have hne : d.pwr.driftCount ≠ 2 := by omega
  simp [driftCheck, compared, h, hmin, hne]

/-- The third in a row sets DRIFT. -/
theorem driftCheck_drifts (h : 3 * envelope d.pwr.live < 100 * ((est : Int) - meas).natAbs) (hc : 2 ≤ d.pwr.driftCount)
    (hd : d.pwr.drift = false) : driftCheck est meas d = alert 0 (alert 3 { d with
      pwr := { d.pwr with diff := (est : Int) - meas, driftCount := 3, drift := true } }) := by
  have hmin : min 3 (d.pwr.driftCount + 1) = 3 := by omega
  simp [driftCheck, h, hmin, hd]

/-- With no start of a context due, none takes effect after a calibration. -/
theorem foldl_startDue_none (h : ∀ o c, (getSeq d o).mgmt ≠ .start c true) : (List.range 8).foldl startDue d = d :=
  List.foldl_fixed' (fun o => startDue_none d o h) _

theorem calibrated_stores (hc : d.pwr.calibrating = true) (hd : d.pwr.drift = false)
    (h : ∀ o c, (getSeq d o).mgmt ≠ .start c true) (measured dynamic : Nat) :
    calibrated measured dynamic d = { d with pwr := { d.pwr with
      static := measured - dynamic, calTick := d.tck.count % 2 ^ 30, drift := false, driftCount := 0
      calibrating := false } } := by
  simp only [calibrated, hc, hd, Bool.false_eq_true, if_false, if_true]
  exact foldl_startDue_none h

end Telemetry

/-- Settles O9: a comparison goes by its bound and by the count before it, and a calibration by what runs. -/
theorem driftAndCalibrationAct : Obligations.DriftAndCalibrationAct := by
  refine ⟨?within, ?counts, ?drifts, ?starts, ?stores⟩
  case within =>
    intro est meas s hl h
    exact next_whenLive hl (driftCheck_within h)
  case counts =>
    intro est meas s hl h hc
    exact next_whenLive hl (driftCheck_counts h hc)
  case drifts =>
    intro est meas s hl h hc hd
    exact next_whenLive hl (driftCheck_drifts h hc hd)
  case starts =>
    intro s hl hn
    exact next_whenLive hl (guarded_true _ _ _ hn)
  case stores =>
    intro measured dynamic s hl hc hd h
    exact next_settled hl (calibrated_stores hc hd h _ _)

/-! ## Temperature (R405, R406) -/

section Thermal
variable {d : Dev} {readings : List Int} {i : Nat} {t : Int}

/-- Every sensor's reading of a sample, over the readings before it. -/
def sampled (readings : List Int) (old : Tbl (Option Int)) : Tbl (Option Int) :=
  (readings.mapIdx fun j x => (j, x)).foldl (fun s e => place e.1 (some e.2) s) old

theorem look_sampled {j : Nat} {x : Int} (h : readings[j]? = some x) (old : Tbl (Option Int)) :
    look none j (sampled readings old) = some x := by
  simpa [h, sampled] using sensors_fold readings 0 old j

/-- A sample's readings stored, with the hottest junction of the tick and of the Louvre interval (R405, R430). -/
def sampleStored (readings : List Int) (i : Nat) (t : Int) (d : Dev) : Dev :=
  { d with
    pwr := { d.pwr with
      sensors := sampled readings d.pwr.sensors
      hotNow := if maxOpt d.tck.hottest t = d.tck.hottest then d.pwr.hotNow else some i
      lvHot := maxOpt d.pwr.lvHot t }
    tck := { d.tck with hottest := maxOpt d.tck.hottest t } }

theorem thermalSample_below (h : hottestOf 0 readings = some (i, t)) (ht : t < 460) :
    thermalSample readings d = sampleStored readings i t d := by
  simp only [thermalSample, h]
  exact if_neg (Int.not_le.2 ht)

theorem thermalSample_hot (h : hottestOf 0 readings = some (i, t)) (ht : 460 ≤ t) :
    thermalSample readings d = thermalTrip i (t / 4).toNat (sampleStored readings i t d) := by
  simp only [thermalSample, h]
  exact if_pos ht

/-- A device that a temperature tripped, from another: halted, with the domain and tree keys gone and Porter's keys zeroed
(R406). -/
structure Tripped (a b : Dev) : Prop where
  phase : a.pkg.phase = .tripped
  thermtrip : a.pkg.thermtrip = true
  halt : a.pkg.halt = true
  cause : a.ump.cycleCause = 4
  keysZeroed : a.ptr.keysZeroed = true
  domKey : a.ret.domKey = []
  treeKey : a.ret.treeKey = []
  pfRing : a.ret.pfRing = b.ret.pfRing

/-- A trip names its sensor and temperature. -/
theorem thermalTrip_trips (h : d.pkg.thermtrip = false) (sensor temp : Nat) :
    Tripped (thermalTrip sensor temp d) d ∧ (thermalTrip sensor temp d).ump.tripSensor = sensor ∧
      (thermalTrip sensor temp d).ump.tripTemp = temp := by
  rw [thermalTrip, if_neg (by simp [h])]
  exact ⟨⟨rfl, rfl, by simp [stopAndZero], rfl, rfl, rfl, rfl, rfl⟩, rfl, rfl⟩

theorem exec_thermalSample {s : State} (hp : s.dev.pkg.phase ≠ .unpowered) (readings : List Int) :
    exec (.thermalSample readings) s = .next { s with dev := thermalSample readings s.dev } :=
  next_congr (guarded_true _ _ _ (by simpa [powered] using hp))

theorem exec_comparatorTrip {s : State} (hp : s.dev.pkg.phase ≠ .unpowered) (die : Fin 3) :
    exec (.comparatorTrip die) s = .next { s with dev := comparatorTrip s.dev } :=
  next_congr (guarded_true _ _ _ (by simpa [powered] using hp))

end Thermal

/-- Settles O10: a sample is stored, and trips the device from 115 °C on; a comparator trips it at once. -/
theorem temperatureTripsTheDevice : Obligations.TemperatureTripsTheDevice := by
  refine ⟨?stored, ?sample, ?comparator⟩
  case stored =>
    intro readings i t s hp h ht
    refine ⟨_, (exec_thermalSample hp _).trans (next_congr (thermalSample_below h ht)), rfl, rfl, fun j x hx => ?_, rfl⟩
    exact look_sampled hx _
  case sample =>
    intro readings i t s hp h ht hn
    obtain ⟨k, hsensor, -⟩ := thermalTrip_trips (d := sampleStored readings i t s.dev) hn i (t / 4).toNat
    exact ⟨_, (exec_thermalSample hp _).trans (next_congr (thermalSample_hot h ht)), rfl, k.phase, k.thermtrip, k.halt, k.cause,
      hsensor, k.keysZeroed, k.domKey, k.treeKey, k.pfRing⟩
  case comparator =>
    intro die s hp hn
    obtain ⟨k, -, htemp⟩ := thermalTrip_trips (d := { s.dev with free := s.dev.free + 1 }) hn
      (Config.freeNat s.dev.free % 256) 125
    exact ⟨_, exec_comparatorTrip hp die, rfl, k.phase, k.thermtrip, k.halt, k.cause, htemp, k.keysZeroed, k.domKey,
      k.treeKey, k.pfRing⟩

end Sys2Proof.Proofs

/-!
SUPPORT. The crash dump: how it is triggered, taken, held, exported and discarded (R370 to R373, R419).
-/
namespace Sys2Proof.Proofs
open Sys2Proof.Machine Sys2Proof.Laws

/-! ## Taking a dump (R370, R371) -/

section Taking
variable {d e : Dev}

/-- A dump that starts runs in its octants, and is numbered one above the count of dumps. -/
theorem startDump_started {trigger : Nat} {scope : BitVec 8} (h : startDump trigger scope d = (true, e)) :
    e.ump.dumpState = 1 ∧ e.ump.dump.running = scope ∧ e.ump.dumpNo = (d.ret.dumpCount + 1) % 2 ^ 32 := by
  unfold startDump at h
  split at h
  · cases congrArg Prod.fst h
  · by_cases hs : scope = 0
    · cases (congrArg Prod.fst (if_pos hs)).symm.trans (congrArg Prod.fst h)
    · obtain rfl : setDumpState 1 _ = e := (congrArg Prod.snd (if_neg hs)).symm.trans (congrArg Prod.snd h)
      rw [setDump_state]
      exact ⟨rfl, rfl, rfl⟩

/-- A trigger while the area holds what was not exported is only counted. -/
theorem startDump_skipped (hb : areaBusy d = true) (ho : d.ump.overwrite = false) (trigger : Nat) (scope : BitVec 8) :
    startDump trigger scope d = (false, setUmp (fun u => { u with skipped := satAdd 0xFFFF u.skipped 1 }) d) :=
  if_pos ⟨hb, by simp [ho]⟩

/-- The octants that a trigger names are kept, whatever it starts. -/
def octantsNamed (n : Nat) (d : Dev) : Dev := { d with ump := { d.ump with dumpOcts := BitVec.ofNat 8 n } }

theorem exec_dumpTrigger {s : State} (hb : barAnswers s.dev .pf = true) (n : Nat) : exec (.dumpTrigger .pf n) s =
    .next { s with dev := (startDump 0 (BitVec.ofNat 8 n) (octantsNamed n s.dev)).2 } :=
  next_congr (whenBar_answers _ _ _ hb)

/-- The section of a unit that does not answer (R371). -/
def hungSection (o kind index : Nat) (d : Dev) : DumpSec :=
  { section_ kind o (unitKey kind index).2.1 (unitKey kind index).2.2 0 0 [] [] with
    hung := true, lastStatus := Config.freeNat d.free % 2 ^ 64 }

theorem unitTimeout_hangs {o kind index : Nat} (hs : d.ump.dumpState = 1) (hr : has8 d.ump.dump.running o = true)
    (hu : (dumpUnits d o).contains (unitKey kind index) = true) : unitTimeout o kind index d =
      setUmp (fun u => { u with dump := { u.dump with secs := u.dump.secs ++ [hungSection o kind index d] } })
        { d with free := d.free + 1 } :=
  if_neg (by simp only [hs, hr, hu]; decide)

/-- Where no level waits for its dump, none starts. -/
theorem startWaiting_dumpHeld (h2 : d.ump.l2Wait = []) (h3 : d.ump.l3Wait = none) :
    startWaiting (dumpHeld d) = dumpHeld d := by
  refine startWaiting_none _ ?_ ?_
  · rw [dumpHeld, setDump_state]
    exact h2
  · rw [dumpHeld, setDump_state]
    exact h3

theorem dumpDone_running {o : Nat} (hs : d.ump.dumpState = 1) (hr : has8 d.ump.dump.running o = true)
    (hn : clr8 d.ump.dump.running o ≠ 0) : dumpDone o d = octDumped o d := by
  rw [dumpDone, if_neg (by simp [hs, hr])]
  exact if_neg hn

theorem dumpDone_last {o : Nat} (hs : d.ump.dumpState = 1) (hr : has8 d.ump.dump.running o = true)
    (hn : clr8 d.ump.dump.running o = 0) (h2 : d.ump.l2Wait = []) (h3 : d.ump.l3Wait = none) :
    dumpDone o d = dumpHeld (octDumped o d) := by
  rw [dumpDone, if_neg (by simp [hs, hr])]
  exact (if_pos hn).trans (startWaiting_dumpHeld (d := octDumped o d) h2 h3)

/-- A dump cut off at its time limit. -/
def cutOff (d : Dev) : Dev :=
  { d with ump := { d.ump with truncated := true, dump := { d.ump.dump with running := 0 } } }

theorem dumpTruncate_holds (hs : d.ump.dumpState = 1) (h2 : d.ump.l2Wait = []) (h3 : d.ump.l3Wait = none) :
    dumpTruncate d = dumpHeld (cutOff d) := by
  rw [dumpTruncate, if_neg (not_not.2 hs)]
  exact startWaiting_dumpHeld (d := cutOff d) h2 h3

end Taking

/-! ## What becomes of a held dump (R370, R373) -/

section Held
variable {d : Dev} {o : Nat}

theorem dumpExport_starts (h : exportCheck d = none) : dumpExport d = exportStart d := by
  simp only [dumpExport, h]

theorem dumpExport_refused {r : Reason} (h : exportCheck d = some r) :
    dumpExport d = { d with ump := { d.ump with dumpReason := r } } := by
  simp only [dumpExport, h]
  rfl

theorem exportEnd_last (hs : d.ump.dumpState = 3) (he : has8 d.ump.exporting o = true) (h0 : clr8 d.ump.exporting o = 0) :
    exportEnd o .pass d = setDumpState 2 { d with ump := { d.ump with
      exporting := 0, dumpReason := .ok, exported := true } } := by
  rw [exportEnd, if_neg (by simp [hs, he]), if_neg (by decide)]
  simp only [h0, if_true]
  rfl

theorem exportEnd_fails (hs : d.ump.dumpState = 3) (he : has8 d.ump.exporting o = true) :
    exportEnd o .fail d = setDumpState 2 { d with ump := { d.ump with exporting := 0, dumpReason := .integrityFail } } := by
  rw [exportEnd, if_neg (by simp [hs, he]), if_pos rfl]
  rfl

theorem dumpDiscard_releases (hs : d.ump.dumpState = 2) :
    dumpDiscard d = setDumpState 0 { d with ump := { d.ump with dump := Dump.zero, exported := false } } := if_pos hs

end Held

/-- Settles O44: a trigger goes by what the area holds, an octant's end by what still runs, and a dump that leaves the
device by its check and by each stack's result. -/
theorem dumpCommandsAct : Obligations.DumpCommandsAct := by
  refine ⟨?starts, ?skipped, ?denied, ?hung, ?running, ?last, ?cutOff, ?exports, ?refused, ?exported, ?fails, ?discards⟩
  case starts =>
    intro n d s hb h
    have hd : startDump 0 (BitVec.ofNat 8 n) (octantsNamed n s.dev) = (true, d) := h
    have hs := startDump_started hd
    exact ⟨(exec_dumpTrigger hb n).trans (next_congr (congrArg Prod.snd hd)), hs⟩
  case skipped =>
    intro n s hb ha ho
    have hs := startDump_skipped (d := octantsNamed n s.dev) ha ho 0 (BitVec.ofNat 8 n)
    exact (exec_dumpTrigger hb n).trans (next_congr (congrArg Prod.snd hs))
  case denied =>
    intro v n s hb
    exact next_congr (whenBar_answers _ _ _ hb)
  case hung =>
    intro o kind index s hl hs hr hu
    exact ⟨_, hungSection o kind index s.dev, next_whenLive hl (unitTimeout_hangs hs hr hu), rfl, rfl, rfl, rfl, rfl⟩
  case running =>
    intro o s hl hs hr hn
    exact next_settled hl (dumpDone_running hs hr hn)
  case last =>
    intro o s hl hs hr hn h2 h3
    exact next_settled hl (dumpDone_last hs hr hn h2 h3)
  case cutOff =>
    intro s hl hs h2 h3
    exact next_settled hl (dumpTruncate_holds hs h2 h3)
  case exports =>
    intro s hb h
    exact next_congr ((whenBar_answers _ _ _ hb).trans (dumpExport_starts h))
  case refused =>
    intro r s hb h
    exact next_congr ((whenBar_answers _ _ _ hb).trans (dumpExport_refused h))
  case exported =>
    intro o s hl hs he hd hm h0
    exact next_whenLive hl ((guarded_true _ _ _ (by simp [hd, hm])).trans (exportEnd_last hs he h0))
  case fails =>
    intro o s hl hs he
    exact next_whenLive hl ((guarded_true _ _ _ (by simp)).trans (exportEnd_fails hs he))
  case discards =>
    intro s hb hs
    exact next_congr ((whenBar_answers _ _ _ hb).trans (dumpDiscard_releases hs))

end Sys2Proof.Proofs

/-!
SUPPORT. What the SMBus target reads out, and the queue of commands (R412 to R414; log 1).
-/
namespace Sys2Proof.Proofs
open Sys2Proof.Machine Sys2Proof.Laws

/-! ## SMBus reads (R412 to R414) -/

section Reads
variable {f : Dev → Dev} {d : Dev} {s : State}

/-- What an always-answered transaction leaves, where it changes one thing only. -/
theorem next_smbAlways (hp : powered s.dev = true) (hn : s.dev.pkg.phase ≠ .scrapped) (h : f s.dev = d) :
    (Host.Outcome.next { s with dev := smbAlways true f s.dev } : Host.Outcome State Fault Refusal) =
      .next { s with dev := d } :=
  next_congr ((smbAlways_runs hp hn).trans h)

/-- A staging transaction with a bad PEC is discarded before it could count a change. -/
theorem tracked_smbStaging_badPec (f : Dev → Dev) (d : Dev) : tracked (smbStaging false f) d = d :=
  tracked_same _ _ smbHeard_bad_pec

end Reads

/-- Settles O45: a transaction with a good PEC meets the phase in which it is answered, and one with a bad PEC is not heard. -/
theorem smbusReadsAnswer : Obligations.SmbusReadsAnswer := by
  refine ⟨?status, ?always, ?staging, ?firmware, ?badPec⟩
  case status =>
    intro s hp
    exact next_congr (smbHeard_runs hp)
  case always =>
    intro s hp hn
    exact ⟨next_smbAlways hp hn rfl, fun x => next_smbAlways hp hn rfl, fun h => next_smbAlways hp hn (if_pos h),
      next_smbAlways hp hn rfl, next_smbAlways hp hn rfl, next_smbAlways hp hn rfl, next_smbAlways hp hn rfl,
      next_smbAlways hp hn rfl, fun n h => next_smbAlways hp hn (if_pos h), next_smbAlways hp hn rfl⟩
  case staging =>
    intro s hl
    exact next_congr (smbStaging_runs hl)
  case firmware =>
    intro s hl
    exact next_congr (smbFirmware_runs (by simp [firmwareRuns, (live_iff _).1 hl]))
  case badPec =>
    intro s x n bs r c hc
    simp only [List.mem_cons, List.not_mem_nil, or_false] at hc
    rcases hc with rfl | rfl | rfl | rfl | rfl | rfl | rfl | rfl | rfl | rfl | rfl | rfl | rfl | rfl | rfl | rfl | rfl | rfl
    -- Of the eighteen, the five staging commands are counted for the report.
    iterate 10 exact ⟨s, rfl, rfl⟩
    iterate 5 exact ⟨s, next_congr (tracked_smbStaging_badPec _ _), rfl⟩
    iterate 3 exact ⟨s, rfl, rfl⟩

/-! ## The queue of commands (log 1) -/

/-- Settles O1: the step looks at the front of the queue alone. -/
theorem stepRunsTheFrontCommand : Obligations.StepRunsTheFrontCommand := by
  refine ⟨?front, ?empty⟩
  case front =>
    intro c rest s h
    simp only [step, h]
  case empty =>
    intro s h
    simp only [step, h]
    rfl

end Sys2Proof.Proofs
